-- ==== Sys2Proof/Word.lean ====
section
/-! DEFINITION. The word types of the Kollith architecture and their plainest arithmetic (00_scope.md R2, R3). -/

namespace Sys2Proof

/-- One instruction word or one 32-bit register value (R55, R86). -/
abbrev Word := BitVec 32
/-- A 64-bit value: a register pair, a capability, a 64-bit state register (R3, R201). -/
abbrev DWord := BitVec 64
/-- One byte of memory (R3). -/
abbrev Byte := BitVec 8
/-- A register field of an instruction word (R57). -/
abbrev RegF := BitVec 6
/-- A predicate number (R57). -/
abbrev PredF := BitVec 4

/-- The register field value of `z` (R57). -/
abbrev zF : RegF := 63

/-- A value held in a pair `gN:gN+1`: gN holds bits [31:0] (R3). -/
def pairOf (lo hi : Word) : DWord := hi ++ lo

/-- The low member of a pair (R3). -/
def lowWord (d : DWord) : Word := d.extractLsb' 0 32

/-- The high member of a pair (R3). -/
def highWord (d : DWord) : Word := d.extractLsb' 32 32

/-- 0 or 1 (R2). -/
def bitNat (b : Bool) : Nat := if b then 1 else 0

end Sys2Proof
end

