-- ==== Sys2Proof/Config.lean ====
section
/-! DEFINITION. What the part fixes, and the free values: what the manual leaves open and no proof may see. -/

namespace Sys2Proof.Config

/-- Cores of the package (R12). -/
def cores : Nat := 320
/-- Devices of a domain (R10). -/
def domainDevices : Nat := 16384
/-- Line size in bytes (R253). -/
def lineBytes : Nat := 128
/-- Sector size in bytes (R106). -/
def sectorBytes : Nat := 32
/-- Frame size in bytes (R209). -/
def frameBytes : Nat := 2097152
/-- Bytes of one local bank (R215). -/
def bankBytes : Nat := 65536
/-- Deepest trap stack (R300). -/
def maxFrames : Nat := 4
/-- Watch-table entries of a crew (R104). -/
def watchEntries : Nat := 32
/-- Age at which a pending watch entry is struck, in ns (R237). -/
def watchAge : Nat := 4000
/-- General entries of a die's device-side launch queue (R196). -/
def launchQueueGeneral : Nat := 256

/-- The value the device writes where the manual says a location receives an undefined value
(R8): nothing constrains it. Free value, log entry 1.
[DESIGN CHOICE: log entry 1] -/
opaque freeByte : Nat → Byte

/-- The candidate a special-function unit offers for FRSQ, FEXP2, FLOG2, FSIN and FCOS before
the accuracy bound of R143 is applied: the same operation on the same source always gives the
same value. The operation is numbered by its FN of R70. Free value, log entry 2.
[DESIGN CHOICE: log entry 2] -/
opaque sfuCandidate : (op : Nat) → (source : DWord) → DWord

/-- Whether an ML-DSA-87 signature over a SHA3-512 digest verifies (R22, R351): the manual names
the algorithms and does not restate them. Free value, log entry 3.
[DESIGN CHOICE: log entry 3] -/
opaque signatureOk : List Byte → Bool

/-- The SHA3-512 digest of bytes (R352): the manual names the algorithm and does not restate it. Free value,
log entry 3.
[DESIGN CHOICE: log entry 3] -/
opaque digest : List Byte → List Byte

/-- The signed response to an SPDM 1.3 request (R352) over the measurement blocks: the manual names the
protocol and does not restate it. Free value, log entry 3.
[DESIGN CHOICE: log entry 3] -/
opaque spdmResponse : List Byte → List (List Byte) → List Byte

end Sys2Proof.Config
end

