-- ==== Sys2Proof/Syntax.lean ====
section
/-! DEFINITION. The instructions and steps of the Thrumong: one constructor for each row of the opcode table.
The operands of a word are its fields as the table names them; a step of another agent (an event) carries what
the outside world or the agent's free choice brings to it. -/

namespace Sys2Proof

/-- The master classes of the access tables (R348). -/
inductive Master where
  | host | hostVf | mgmt | jasper | kernel | peer | debug
  deriving DecidableEq, Repr

/-- Device registers that REGISTER_WRITE reaches (R184, R327, R341, R342). Q_TAIL, Q_CTL and MC_STATUS have
steps of their own. -/
inductive DevReg where
  | qRing (ctx q : Nat)
  | qCpl (ctx q : Nat)
  | qHead (ctx q : Nat)
  | ctxState (ctx : Nat)
  | msix (ctx word : Nat)
  | mbReq (byte : Nat)
  | mbGo
  | mbStat
  | mcAddr (bank : Nat)
  | mcInfo (bank : Nat)
  | mcCtl (bank : Nat)
  | mcCount (bank : Nat)
  | access (block master : Nat)
  | unlisted (offset : Nat)
  deriving DecidableEq, Repr

/-- Registers that a master reads (R6): those above, and Q_TAIL, Q_CTL, MC_STATUS and the sensors. -/
inductive ReadReg where
  | of (r : DevReg)
  | qTail (ctx q : Nat)
  | qCtl (ctx q : Nat)
  | mcStatus (bank : Nat)
  | sensor (n : Nat)
  deriving DecidableEq, Repr

/-- Physical errors met by one access of a line (R321, R335, R336). `bits` lists, for a 16-byte word of the
line, the bits of the 144-bit array word (or of the cached word) that are wrong. -/
structure MemErr where
  bits : List (Nat × List Nat) := []
  /-- the parity groups (0-64) that fail in each transfer over the vertical bus, first transfer first: at most four, and
  a fifth after a swap (R336) -/
  tries : List (List Nat) := []
  /-- the lane the walking-pattern test names (R336) -/
  lane : Option Nat := none
  deriving DecidableEq, Repr

/-- No physical error. -/
def MemErr.none : MemErr := {}

/-- What the drain of a tile of a matrix operation finds: the two runs of a redundant operation differ, and whether the
third agrees with one of them (R281); or the tile's residue fails once or twice (R320). -/
inductive TileFault where
  | differs (thirdAgrees : Bool)
  | residue (twice : Bool)
  deriving DecidableEq, Repr

/-- A tile of a matrix operation whose drain finds a fault. -/
structure TileRun where
  tile : Nat
  fault : TileFault
  deriving DecidableEq, Repr

/-- The shape in which a floating-point collective adds the ranks' contributions: the manual fixes none
(R155, R292). -/
inductive RedTree where
  | rank (r : Nat)
  | node (l r : RedTree)
  deriving DecidableEq, Repr

/-- The contribution of a rank that lies on another device (R292). -/
structure RemoteRank where
  dev : Nat
  core : Nat
  ctl : Word
  count : Word
  root : Word
  seq : Word
  data : List Byte
  /-- a tag for each byte -/
  tags : List Bool
  poisoned : Bool
  cause : BitVec 8
  /-- the chips of its team's launch, which scope package names (R230) -/
  chips : List Nat
  deriving DecidableEq, Repr

/-- Messages over Kollith Link that a device of the domain sends to this one (R178, R179, R211, R292, R325). -/
inductive LinkMsg where
  /-- a tag and a mark for each argument byte (R161, R321), and the device numbers of the span -/
  | spanBlock (ctx gen src depth : Nat) (block code args : List Byte) (argTags argMarks : List Bool) (chips : List Nat)
  | spanReply (ctx gen chip status : Nat)
  | spanStart (ctx gen src tstart : Nat)
  | spanAbort (ctx gen src : Nat)
  | stop (ctx gen src : Nat)
  | stopped (ctx gen src : Nat)
  | retired (ctx gen src : Nat)
  /-- a tag and a mark for each byte (R106, R321) -/
  | write (dev addr : Nat) (data : List Byte) (tags marks : List Bool)
  | atomic (dev addr size op : Nat) (cmp val : DWord) (tag : Bool)
  | read (dev line lease : Nat)
  | data (dev line : Nat) (data : List Byte) (tags poison : List Bool)
  | written (dev addr near all : Nat)
  | old (dev addr : Nat) (value : DWord) (tag : Bool) (near all : Nat)
  | collJoin (ctx scope : Nat) (rank : RemoteRank)
  /-- an IINV whose scope names cores of the receiver, by the number that its device gave it, and the answer (R244, R388) -/
  | iinv (dev id ctx obj : Nat) (cores : List Nat)
  | iinvDone (dev id : Nat)
  /-- what a stash of another device does with a line of this one (R217, R255, R256): it becomes its owner, answered with
  the data, gives a dirty notice, writes it back, or leaves it; and a read without a lease -/
  | ownerFill (dev line core slot : Nat)
  | dirty (dev line core slot : Nat)
  | writeBack (dev line core slot : Nat) (data : List Byte) (tags marks : List Bool) (leave : Bool)
  | leave (dev line core slot : Nat)
  | readOnce (dev line : Nat)
  /-- a recall from a line's home (R220), and the owner's answer, with its data where that was dirty -/
  | recall (dev line : Nat) (forWrite : Bool)
  | recalled (dev line : Nat) (forWrite : Bool) (data : Option (List Byte × List Bool × List Bool))
  deriving DecidableEq, Repr

/-- What WRITE_PERFORM performs: a write in flight, or one that the host or a PCI Express peer sends
(R108, R226). -/
inductive Arrival where
  | flight (k : Nat)
  | host (addr : Nat) (data : List Byte)
  deriving DecidableEq, Repr

/-- The instructions and steps, in the order of the opcode table. -/
inductive Instr where
  /-- ADD (R354). Adds two 32-bit registers, wrapping or saturating under SAT. -/
  | add (d a b : RegF) (p q : Bool)
  /-- SUB (R403). Subtracts two 32-bit registers, wrapping or saturating under SAT. -/
  | sub (d a b : RegF) (p q : Bool)
  /-- MUL (R397). Writes the low 32 bits of the product. -/
  | mul (d a b : RegF) (p q : Bool)
  /-- MULH (R397). Writes the high 32 bits of the signed product. -/
  | mulh (d a b : RegF) (p q : Bool)
  /-- MULHZ (R397). Writes the high 32 bits of the unsigned product. -/
  | mulhz (d a b : RegF) (p q : Bool)
  /-- MAD (R397). Adds a times b into d. -/
  | mad (d a b : RegF) (p q : Bool)
  /-- AND (R354). Bitwise AND of two registers. -/
  | and (d a b : RegF) (p q : Bool)
  /-- OR (R403). Bitwise OR of two registers. -/
  | or (d a b : RegF) (p q : Bool)
  /-- XOR (R403). Bitwise XOR of two registers. -/
  | xor (d a b : RegF) (p q : Bool)
  /-- ANDN (R354). Computes a AND NOT b. -/
  | andn (d a b : RegF) (p q : Bool)
  /-- SHL (R403). Shifts a left by b[4:0]. -/
  | shl (d a b : RegF) (p q : Bool)
  /-- SHR (R403). Shifts a right logically by b[4:0]. -/
  | shr (d a b : RegF) (p q : Bool)
  /-- SHRA (R403). Shifts a right arithmetically by b[4:0]. -/
  | shra (d a b : RegF) (p q : Bool)
  /-- ROT (R403). Rotates a left by b[4:0]. -/
  | rot (d a b : RegF) (p q : Bool)
  /-- MIN (R397). Signed minimum of two registers. -/
  | min (d a b : RegF) (p q : Bool)
  /-- MAX (R397). Signed maximum of two registers. -/
  | max (d a b : RegF) (p q : Bool)
  /-- MINZ (R397). Unsigned minimum of two registers. -/
  | minz (d a b : RegF) (p q : Bool)
  /-- MAXZ (R397). Unsigned maximum of two registers. -/
  | maxz (d a b : RegF) (p q : Bool)
  /-- ABS (R354). Signed absolute value of a. -/
  | abs (d a : RegF) (p : Bool)
  /-- POPC (R403). Counts the one bits of a. -/
  | popc (d a : RegF) (p : Bool)
  /-- CLZ (R354). Counts the leading zero bits of a. -/
  | clz (d a : RegF) (p : Bool)
  /-- BREV (R354). Reverses the bits of a. -/
  | brev (d a : RegF) (p : Bool)
  /-- BFX (R356). Extracts a zero-extended bit field of a. -/
  | bfx (d a b : RegF) (p q : Bool)
  /-- BFI (R356). Inserts the low bits of a into a field of d. -/
  | bfi (d a b : RegF) (p q : Bool)
  /-- SEL (R414). Selects a or b by predicate qN. -/
  | sel (n : PredF) (d a b : RegF) (p q : Bool)
  /-- ADDW (R354). Adds two 64-bit register pairs. -/
  | addw (d a b : RegF) (p q : Bool)
  /-- SUBW (R403). Subtracts two 64-bit register pairs. -/
  | subw (d a b : RegF) (p q : Bool)
  /-- SHLW (R403). Shifts a 64-bit pair left by b[5:0]. -/
  | shlw (d a b : RegF) (p q : Bool)
  /-- SHRW (R403). Shifts a 64-bit pair right logically by b[5:0]. -/
  | shrw (d a b : RegF) (p q : Bool)
  /-- DIVS (R372). Signed division as a long-latency producer, 32- or 64-bit by FN[3]. -/
  | divs (w : Bool) (d a b : RegF) (p q : Bool)
  /-- DIVZ (R372). Unsigned division as a long-latency producer. -/
  | divz (w : Bool) (d a b : RegF) (p q : Bool)
  /-- REMS (R372). Signed remainder as a long-latency producer. -/
  | rems (w : Bool) (d a b : RegF) (p q : Bool)
  /-- REMZ (R372). Unsigned remainder as a long-latency producer. -/
  | remz (w : Bool) (d a b : RegF) (p q : Bool)
  /-- CADD (R364). Adds a sign-extended offset to a capability's OFF. -/
  | cadd (d a b : RegF) (p q : Bool)
  /-- CAPN (R364). Clears rights of a capability. -/
  | capn (d a b : RegF) (p q : Bool)
  /-- CAPB (R364). Sets a capability's OFF from b. -/
  | capb (d a b : RegF) (p q : Bool)
  /-- CMPW (R367). Compares two 64-bit pairs into a predicate. -/
  | cmpw (c : BitVec 3) (u : Bool) (d : PredF) (a b : RegF) (p q : Bool)
  /-- CMP (R367). Compares two 32-bit registers into a predicate. -/
  | cmp (c : BitVec 3) (u : Bool) (d : PredF) (a b : RegF) (p q : Bool)
  /-- ADDI (R357). Adds an immediate to a register. -/
  | addi (d a : RegF) (i : BitVec 13) (p : Bool)
  /-- ANDI (R357). Bitwise AND with an immediate. -/
  | andi (d a : RegF) (i : BitVec 13) (p : Bool)
  /-- ORI (R404). Bitwise OR with an immediate. -/
  | ori (d a : RegF) (i : BitVec 13) (p : Bool)
  /-- XORI (R404). Bitwise XOR with an immediate. -/
  | xori (d a : RegF) (i : BitVec 13) (p : Bool)
  /-- SHLI (R404). Shifts left by an immediate count. -/
  | shli (d a : RegF) (n : BitVec 5) (p : Bool)
  /-- SHRI (R404). Shifts right logically by an immediate count. -/
  | shri (d a : RegF) (n : BitVec 5) (p : Bool)
  /-- SHRAI (R404). Shifts right arithmetically by an immediate count. -/
  | shrai (d a : RegF) (n : BitVec 5) (p : Bool)
  /-- CMPI (R367). Writes less-than and equal predicates against an immediate. -/
  | cmpi (n : BitVec 3) (a : RegF) (i : BitVec 13) (p : Bool)
  /-- MOVI (R401). Writes an immediate to a register with tag 0. -/
  | movi (d : RegF) (i : BitVec 13)
  /-- FADD (R376). Floating-point addition rounded once. -/
  | fadd (t : BitVec 2) (d a b : RegF) (p q : Bool)
  /-- FSUB (R376). Floating-point subtraction rounded once. -/
  | fsub (t : BitVec 2) (d a b : RegF) (p q : Bool)
  /-- FMUL (R376). Floating-point multiplication rounded once. -/
  | fmul (t : BitVec 2) (d a b : RegF) (p q : Bool)
  /-- FMA (R376). Fused multiply-add into d, rounded once. -/
  | fma (t : BitVec 2) (d a b : RegF) (p q : Bool)
  /-- FMIN (R376). IEEE minimumNumber of two values. -/
  | fmin (t : BitVec 2) (d a b : RegF) (p q : Bool)
  /-- FMAX (R376). IEEE maximumNumber of two values. -/
  | fmax (t : BitVec 2) (d a b : RegF) (p q : Bool)
  /-- FABS (R376). Clears the sign bit. -/
  | fabs (t : BitVec 2) (d a : RegF) (p : Bool)
  /-- FNEG (R376). Inverts the sign bit. -/
  | fneg (t : BitVec 2) (d a : RegF) (p : Bool)
  /-- FCMP (R377). Floating-point comparison into a predicate. -/
  | fcmp (c : BitVec 3) (t : BitVec 2) (d : PredF) (a b : RegF) (p q : Bool)
  /-- FCVT (R380). Converts between integer and floating-point types. -/
  | fcvt (e : BitVec 4) (d a : RegF) (s : BitVec 4) (p : Bool)
  /-- QPACK (R409). Quantises a crew's FP32 values into one narrow record. -/
  | qpack (g : BitVec 2) (n : Bool) (d a b : RegF) (p q : Bool)
  /-- QUNPK (R410). Expands a narrow record across the crew to FP32. -/
  | qunpk (g : BitVec 2) (n : Bool) (d a : RegF) (p : Bool)
  /-- FRCP (R378). Correctly rounded reciprocal, long-latency. -/
  | frcp (t : Bool) (d a : RegF) (p : Bool)
  /-- FRSQ (R378). Reciprocal square root, long-latency. -/
  | frsq (t : Bool) (d a : RegF) (p : Bool)
  /-- FSQRT (R378). Correctly rounded square root, long-latency. -/
  | fsqrt (t : Bool) (d a : RegF) (p : Bool)
  /-- FEXP2 (R378). Base-2 exponential, long-latency. -/
  | fexp2 (d a : RegF) (p : Bool)
  /-- FLOG2 (R378). Base-2 logarithm, long-latency. -/
  | flog2 (d a : RegF) (p : Bool)
  /-- FSIN (R378). Sine, long-latency. -/
  | fsin (d a : RegF) (p : Bool)
  /-- FCOS (R378). Cosine, long-latency. -/
  | fcos (d a : RegF) (p : Bool)
  /-- QAND (R407). Predicate AND. -/
  | qand (d a b : PredF)
  /-- QOR (R407). Predicate OR. -/
  | qor (d a b : PredF)
  /-- QXOR (R407). Predicate XOR. -/
  | qxor (d a b : PredF)
  /-- QNOT (R407). Predicate inversion. -/
  | qnot (d a : PredF)
  /-- QMOV (R407). Predicate copy. -/
  | qmov (d a : PredF)
  /-- SHFL (R415). Reads a from tile lane b mod tile size. -/
  | shfl (d a b : RegF) (p q : Bool)
  /-- SHFLU (R415). Reads a from the lane b below in the tile. -/
  | shflu (d a b : RegF) (p q : Bool)
  /-- SHFLD (R415). Reads a from the lane b above in the tile. -/
  | shfld (d a b : RegF) (p q : Bool)
  /-- SHFLX (R415). Reads a from tile lane own XOR b. -/
  | shflx (d a b : RegF) (p q : Bool)
  /-- VOTEALL (R416). True when qA holds in every guard-true fibre of the tile. -/
  | voteall (d a : PredF)
  /-- VOTEANY (R416). True when qA holds in some guard-true fibre of the tile. -/
  | voteany (d a : PredF)
  /-- BALLOT (R360). Gathers qA of each tile lane into a bit mask. -/
  | ballot (d : RegF) (a : PredF)
  /-- REDADD (R411). Tile sum reduction over participants. -/
  | redadd (t : BitVec 3) (d a : RegF) (m : PredF) (p : Bool)
  /-- REDMIN (R411). Tile minimum reduction. -/
  | redmin (t : BitVec 3) (d a : RegF) (m : PredF) (p : Bool)
  /-- REDMAX (R411). Tile maximum reduction. -/
  | redmax (t : BitVec 3) (d a : RegF) (m : PredF) (p : Bool)
  /-- REDAND (R411). Tile bitwise AND reduction. -/
  | redand (t : BitVec 3) (d a : RegF) (m : PredF) (p : Bool)
  /-- REDOR (R411). Tile bitwise OR reduction. -/
  | redor (t : BitVec 3) (d a : RegF) (m : PredF) (p : Bool)
  /-- REDXOR (R411). Tile bitwise XOR reduction. -/
  | redxor (t : BitVec 3) (d a : RegF) (m : PredF) (p : Bool)
  /-- SCANADD (R411). Tile inclusive prefix sum. -/
  | scanadd (t : BitVec 3) (d a : RegF) (m : PredF) (p : Bool)
  /-- SCANADDX (R411). Tile exclusive prefix sum. -/
  | scanaddx (t : BitVec 3) (d a : RegF) (m : PredF) (p : Bool)
  /-- TAGQ (R119). Writes a register's tag into a predicate. -/
  | tagq (d : PredF) (a : RegF) (p : Bool)
  /-- TAGP (R119). Sets a register's tag to proposal. -/
  | tagp (d : RegF)
  /-- TCLR (R119). Clears the fibre's taint bit. -/
  | tclr
  /-- BR (R363). Branches when q(Q) holds, or always with Q 15. -/
  | br (q : PredF) (o : BitVec 21)
  /-- BRN (R363). Branches when q(Q) is false. -/
  | brn (q : PredF) (o : BitVec 21)
  /-- CALL (R363). Conditional or unconditional call writing g62. -/
  | call (q : PredF) (o : BitVec 21)
  /-- CALLN (R363). Calls when q(Q) is false. -/
  | calln (q : PredF) (o : BitVec 21)
  /-- JMPI (R389). Jumps to the PC held in a register. -/
  | jmpi (a : RegF) (p : Bool)
  /-- CALLI (R363). Calls the PC held in a register, writing g62. -/
  | calli (a : RegF) (p : Bool)
  /-- RET (R413). Returns to the PC held in a register, g62 by default. -/
  | ret (a : RegF) (p : Bool)
  /-- MEET (R398). Convergence point of the tile with no other effect. -/
  | meet
  /-- FEND (R382). Ends the fibre; a release and checkpoint. -/
  | fend
  /-- FSPAWN (R383). Starts a fibre in a free lane slot of the crew. -/
  | fspawn (d a : RegF) (p : Bool)
  /-- WIN (R428). Moves the register window base by 8·s. -/
  | win (s : BitVec 6)
  /-- TFENCE (R305). Waits for prior arithmetic and traps on enabled flags. -/
  | tfence
  /-- ERET (R373). Returns from the top trap or emulation frame. -/
  | eret
  /-- LD (R394). Loads memory into registers as a long-latency producer. -/
  | ld (z : BitVec 3) (d b : RegF) (o : BitVec 7) (q : Bool)
  /-- ST (R419). Stores registers to memory at the home slice. -/
  | st (z : BitVec 3) (d b : RegF) (o : BitVec 7) (q : Bool)
  /-- LDSP (R396). Stale-allowed load that enters the line in the watch table. -/
  | ldsp (z : BitVec 3) (d b : RegF) (o : BitVec 7) (q : Bool)
  /-- LDACQ (R395). Acquire load performed at the home. -/
  | ldacq (s : BitVec 5) (w : Bool) (d b : RegF)
  /-- STREL (R421). Release store performed after a scoped fence wait. -/
  | strel (s : BitVec 5) (w : Bool) (b v : RegF)
  /-- ATADD (R358). Atomic add at the home returning the old value. -/
  | atadd (w : Bool) (s : BitVec 5) (d b v : RegF)
  /-- ATAND (R358). Atomic AND at the home. -/
  | atand (w : Bool) (s : BitVec 5) (d b v : RegF)
  /-- ATOR (R358). Atomic OR at the home. -/
  | ator (w : Bool) (s : BitVec 5) (d b v : RegF)
  /-- ATXOR (R358). Atomic XOR at the home. -/
  | atxor (w : Bool) (s : BitVec 5) (d b v : RegF)
  /-- ATMIN (R358). Atomic signed minimum at the home. -/
  | atmin (w : Bool) (s : BitVec 5) (d b v : RegF)
  /-- ATMAX (R358). Atomic signed maximum at the home. -/
  | atmax (w : Bool) (s : BitVec 5) (d b v : RegF)
  /-- ATFADD (R358). Atomic floating-point add rounded RNE at the home. -/
  | atfadd (w : Bool) (s : BitVec 5) (d b v : RegF)
  /-- ATCAS (R358). Atomic compare-and-swap with D different from V. -/
  | atcas (w : Bool) (s : BitVec 5) (d b v : RegF)
  /-- ATXCH (R358). Atomic exchange, encoded with D equal to V. -/
  | atxch (w : Bool) (s : BitVec 5) (d b : RegF)
  /-- FENCE (R381). Waits for the crew's writes to pass the scope's GWCT. -/
  | fence (s : BitVec 5)
  /-- CFLUSH (R365). Writes dirty stash-window lines of a range home. -/
  | cflush (a b : RegF)
  /-- CINV (R365). As CFLUSH, then drops local copies of the range. -/
  | cinv (a b : RegF)
  /-- IINV (R388). Invalidates instruction-cache copies of the crew's code object within a scope. -/
  | iinv (s : BitVec 5)
  /-- PREF (R406). Prefetches a line without parking. -/
  | pref (a : RegF) (k : Bool)
  /-- STMAP (R218). Maps a stash window onto object bytes. -/
  | stmap (a b : RegF) (w : BitVec 4)
  /-- STUNMAP (R218). Writes back and unmaps a stash window. -/
  | stunmap (w : BitVec 4)
  /-- STWB (R218). Writes back a stash window's dirty lines. -/
  | stwb (w : BitVec 4)
  /-- PQRY (R218). Writes a stash line's presence bit into a predicate. -/
  | pqry (a : RegF) (n : PredF)
  /-- WCLR (R239). Discards every watch-table entry of the crew. -/
  | wclr
  /-- WCHK (R238). Resolves the watch table and branches if an entry was struck. -/
  | wchk (o : BitVec 21)
  /-- MMA (R400). Starts a ticketed matrix operation on the array. -/
  | mma (a : RegF)
  /-- MRDY (R399). Waits for MMA operands and records the crew's ready block. -/
  | mrdy (a : RegF)
  /-- MWAIT (R402). Waits for a ticket to become idle and acts as an acquire. -/
  | mwait (t : BitVec 6)
  /-- WBLD (R426). Starts a ticketed weight load into the weight buffer. -/
  | wbld (a : RegF)
  /-- DCOR (R371). Starts a ticketed defect-correction evaluation on the matrix array. -/
  | dcor (a : RegF)
  /-- CHAIN (R366). Hands a chain block to the chain engine. -/
  | chain (a : RegF)
  /-- STRM (R422). Binds or unbinds a stream pattern register to a register slot. -/
  | strm (n : BitVec 3) (b : RegF) (s : BitVec 6)
  /-- KICK (R390). Hands a request list to the request engine. -/
  | kick (a : RegF)
  /-- BARI (R361). Initialises a barrier object's count. -/
  | bari (a b : RegF)
  /-- BARA (R361). Records one arrival at a barrier object. -/
  | bara (a : RegF)
  /-- BWAIT (R362). Waits until a barrier object completes or faults. -/
  | bwait (a : RegF)
  /-- COLL (R368). Joins a collective operation over a scope's ranks. -/
  | coll (a : RegF)
  /-- LAUNCH (R391). Launches a child grid from a stash parameter block. -/
  | launch (a : RegF)
  /-- LAUNCHT (R391). Tries a child launch and writes success to a predicate. -/
  | launcht (a : RegF) (n : PredF)
  /-- CWAIT (R370). Waits for the team's children to retire, then acquires. -/
  | cwait
  /-- TBAR (R424). Team barrier with release, checkpoint and acquire. -/
  | tbar
  /-- GSR (R384). Reads a state register. -/
  | gsr (a : RegF) (n : BitVec 8)
  /-- SSR (R417). Writes a state register after range checks. -/
  | ssr (a : RegF) (n : BitVec 8)
  /-- TRAP (R303). Raises TRAP_INSN with code n. -/
  | trap (n : BitVec 8)
  /-- LIMM (R385). Hint supplying the high immediate bits of a format-I target. -/
  | limm (p : BitVec 22)
  /-- GUARD (R386). Hint making the next COUNT words conditional on a predicate. -/
  | guard (q : PredF) (n : Bool) (c : BitVec 3)
  /-- SCHED (R387). Hint delaying the target by STALL cycles and optionally yielding. -/
  | sched (y : Bool) (s : BitVec 4)
  /-- RND (R387). Hint setting rounding mode and subnormal handling of the target. -/
  | rnd (k : BitVec 2) (r : Bool) (m : BitVec 2)
  /-- SAT (R387). Hint making the target saturate instead of wrapping. -/
  | sat
  /-- NOP (R387). Hint word with no effect. -/
  | nop (p : BitVec 22)
  /-- HINT_IGNORED (R387). A hint of kinds 8–15 issues as a one-word unit with no effect. -/
  | hintIgnored (k : BitVec 3) (p : BitVec 22)
  /-- EMULATION_VECTOR (R79). A word that is not an instruction vectors to EMUVEC with its operands mapped to o0–o3. -/
  | emulationVector (cause : BitVec 8) (word : Word) (ulen : BitVec 3)
  /-- ICACHE_FILL (R191). A fetch agent's instruction-line fill arrives and is multicast to cores of the code object. -/
  | icacheFill (k : Nat) (e : MemErr)
  /-- LOAD_REPLY (R394). A load, LDSP or LDACQ value arrives and fills its destination register. -/
  | loadReply (k : Nat)
  /-- ATOMIC_REPLY (R358). An atomic's old value arrives and fills its destination register. -/
  | atomicReply (k : Nat)
  /-- DIVISION_COMPLETE (R372). A division result arrives, filling d and setting DZ where due. -/
  | divisionComplete (k : Nat)
  /-- SFU_COMPLETE (R378). A special-function result arrives and fills d with its flags. -/
  | sfuComplete (k : Nat)
  /-- FTIME_READ_COMPLETE (R384). GSR of FTIME fills its destination pair. -/
  | ftimeReadComplete (k : Nat)
  /-- WRITE_PERFORM (R226). A write reaches its home slice, is performed at π and returns g_near and g_all. -/
  | writePerform (w : Arrival) (e : MemErr)
  /-- WRITE_ACKNOWLEDGE (R227). A write's acknowledgement arrives and its GWCTs fold into Gdie and Gall. -/
  | writeAcknowledge (k : Nat)
  /-- ATOMIC_PERFORM (R268). The home performs a braid's atomics on a line in lane order. -/
  | atomicPerform (k : Nat) (e : MemErr)
  /-- HOME_READ (R255). A read request reaches the home, which reads the line and grants a lease or none. -/
  | homeRead (k : Nat) (e : MemErr)
  /-- LEASE_EXPIRY (R256). FTIME passes a line's horizon and the home clears sharer bits or REMOTE. -/
  | leaseExpiry (line : Nat)
  /-- DIRECTORY_EVICT (R257). A home evicts a directory entry, folding its horizons into the slice floors. -/
  | directoryEvict (line : Nat) (e : MemErr)
  /-- RECALL (R220). A recall reaches a stash owner, which returns dirty data and keeps or drops the line. -/
  | recall (line : Nat) (forWrite : Bool)
  /-- DIRTY_NOTICE (R256). A stash bank's dirty notice reaches the home. -/
  | dirtyNotice (k : Nat)
  /-- LDSP_CHECK (R236). An LDSP check reaches the home, which confirms or strikes by version. -/
  | ldspCheck (k : Nat)
  /-- CHECK_REPLY (R235). The home's confirm or strike reaches the crew's watch entry. -/
  | checkReply (k : Nat)
  /-- WATCH_AGE_STRIKE (R237). An entry still pending 4 µs after creation is struck. -/
  | watchAgeStrike (team crew : Nat)
  /-- STASH_FILL (R219). A stash-window line fill completes with tags ORed with the window tag. -/
  | stashFill (k : Nat) (e : MemErr)
  /-- HOST_SNOOP (R258). A host snoop of a host-frame half reaches the bridge and is answered after horizons pass. -/
  | hostSnoop (line half : Nat) (inv : Bool)
  /-- BISNP_RESPONSE (R260). The host answers a back-invalidation snoop and the half becomes HI. -/
  | bisnpResponse (line half : Nat) (dirty : Option (List Byte))
  /-- BICONFLICT (R261). A host request collides with an outstanding snoop; the home serves the host first and reissues the snoop. -/
  | biconflict (line half : Nat) (excl : Bool)
  /-- HOST_HALF_REQUEST (R260). A host request for a device-memory half sets HOSTH after recall and horizon wait. -/
  | hostHalfRequest (line half : Nat) (excl : Bool)
  /-- Q_TAIL (R185). Doorbell write posting records to a command queue. -/
  | qTail (ctx q : Nat) (v : Word)
  /-- Q_CTL (R184). Write to a queue's control register, checking capabilities when EN is set. -/
  | qCtl (ctx q : Nat) (v : Word)
  /-- REGISTER_WRITE (R6). Write to a register that has no behaviour of its own. -/
  | registerWrite (m : Master) (r : DevReg) (v : DWord)
  /-- COMMAND_FETCH (R185). The command processor fetches a command slot and advances Q_HEAD. -/
  | commandFetch (die : Nat)
  /-- COMMAND_NOP (R186). A NOP record completes with OK at once. -/
  | commandNop (k : Nat)
  /-- COMMAND_WAIT (R186). A WAIT record holds the queue until earlier launches complete. -/
  | commandWait (k : Nat)
  /-- COMMAND_LAUNCH (R187). A LAUNCH record is translated to v4, checked and accepted or refused. -/
  | commandLaunch (k : Nat)
  /-- PLACE_TEAMS (R193). When a core has room or a launch is accepted, pending teams are placed on cores. -/
  | placeTeams
  /-- LAUNCH_PACKET (R189). A launch packet arrives at a core, setting bank roles and instruction-cache words. -/
  | launchPacket (team : Nat)
  /-- TEAM_START (R161). A team's argument bytes are present and its fibres start at ENTRY. -/
  | teamStart (team : Nat)
  /-- SPAN_BLOCK (R178). A chip of a span receives the block, checks it and replies READY or REFUSED. -/
  | spanBlock (k : Nat)
  /-- SPAN_REPLY (R178). Chip 0 receives a READY or REFUSED reply tagged with G. -/
  | spanReply (k : Nat)
  /-- SPAN_START (R178). A chip receives START carrying Tstart. -/
  | spanStart (k : Nat)
  /-- SPAN_TSTART (R178). FTIME reaches Tstart and the chip starts its first team. -/
  | spanTstart (launch : Nat)
  /-- ABORT (R179). A chip receives ABORT and starts no team of the launch. -/
  | abort (k : Nat)
  /-- SPAN_TIMEOUT (R179). No READY within 100 µs makes chip 0 abort the launch. -/
  | spanTimeout (launch : Nat)
  /-- TEAM_DRAIN (R174). A draining team's stash write-back ends and its slots and banks return to the core. -/
  | teamDrain (team : Nat)
  /-- TEAM_RETIRE (R175). A team retires once fibres, write-back and children are done and GWCTs passed. -/
  | teamRetire (team : Nat)
  /-- REGROUP (R165). Every fourth cycle each crew's Ready fibres re-form into braids by PC. -/
  | regroup (core : Nat)
  /-- EVICT_TEAM (R310). The scheduler saves a team parked at blocking points and frees its core resources. -/
  | evictTeam (team : Nat)
  /-- RESTORE_TEAM (R314). An evicted team is restored on a core with room. -/
  | restoreTeam (team core : Nat)
  /-- ONYX_DUE (R200). A core's Onyx due time passes and the core is withheld. -/
  | onyxDue (core : Nat)
  /-- ONYX_SLICE (R200). A 50 µs self-test slice starts on a core holding no team. -/
  | onyxSlice (core : Nat)
  /-- ONYX_SLICE_END (R337). A slice ends; on failure the core is taken offline and ONYX_FAIL logged. -/
  | onyxSliceEnd (core : Nat) (fail : Bool)
  /-- ONYX_LAPSE (R200). A core withheld for 60 s logs a lapse and leaves the withheld state. -/
  | onyxLapse (core : Nat)
  /-- MOTION_ROUND (R262). A page-motion copy round completes and the next round or the freeze begins. -/
  | motionRound (errs : List (Nat × MemErr))
  /-- MOTION_LINE_COPIED (R265). A MIGRATING line is copied and its waiting requests proceed to the destination. -/
  | motionLineCopied (i : Nat) (e : MemErr)
  /-- MOTION_SWITCH (R267). The frame descriptor switches to the new LOC with FVER bumped, striking watch entries. -/
  | motionSwitch
  /-- COPY_CHUNK (R287). A copy request chunk is checked, read and written line by line. -/
  | copyChunk (k : Nat) (errs : List (Nat × MemErr))
  /-- COPY_COUNT (R241). A destination line's g_all passes and its bytes are decremented from the barrier object. -/
  | copyCount (k : Nat)
  /-- CHAIN_CHUNK (R366). A chain-engine output chunk is computed and written. -/
  | chainChunk (k : Nat) (errs : List (Nat × MemErr))
  /-- MMA_COMPLETE (R278). The matrix array finishes an MMA, writing results, STATUS and flags and idling the ticket. -/
  | mmaComplete (core : Nat) (runs : List TileRun)
  /-- DCOR_COMPLETE (R123). A DCOR evaluation settles, steps, holds or refuses and completes its ticket. -/
  | dcorComplete (core : Nat)
  /-- WBLD_COMPLETE (R280). A weight load finishes, writing STATUS and validating or invalidating the descriptor. -/
  | wbldComplete (k : Nat) (errs : List (Nat × MemErr))
  /-- COLL_CHUNK (R293). A collective chunk reaches its receiver, which discards duplicates and acknowledges. -/
  | collChunk (k chunk : Nat) (order : RedTree) (errs : List (Nat × MemErr))
  /-- COLL_ACK (R293). A collective chunk's acknowledgement reaches its sender. -/
  | collAck (k chunk : Nat)
  /-- COLL_REFORM (R293). A link failure makes the engine re-form the ring or tree and resume. -/
  | collReform (k : Nat)
  /-- LINKLOST (R293). Re-formation fails within 2 ms and the object receives FSTATE LINKLOST. -/
  | linklost (k : Nat)
  /-- ROLLBACK (R332). After outstanding work drains, the team is restored from its checkpoint shadow. -/
  | rollback (team : Nat)
  /-- MC_STATUS (R327). A W1C write to MC_STATUS; clearing VALID clears the whole register. -/
  | mcStatus (m : Master) (bank : Nat) (v : DWord)
  /-- LINK_FLIT (R346). A Kollith Link flit arrives, checked by CRC with link-layer replay. -/
  | linkFlit (crcOk : Bool) (msg : LinkMsg) (e : MemErr)
  /-- FAILED_ACKNOWLEDGEMENT (R347). A write or atomic to an unreachable device is answered with a failed acknowledgement. -/
  | failedAcknowledgement (k : Nat)
  /-- STOP (R325). A chip of a span receives STOP for a launch and stops its teams. -/
  | stop (k : Nat)
  /-- STOPPED (R325). Chip 0 receives a STOPPED reply for a stopped launch. -/
  | stopped (k : Nat)
  /-- STOP_TIMEOUT (R325). 100 µs after sending STOP chip 0 writes the FAULTED completion. -/
  | stopTimeout (launch : Nat)
  /-- D2D_FAIL (R329). The die-to-die link fails, a fatal event stopping every context. -/
  | d2dFail
  /-- FTIME_SYNC (R329). A device leaves the ±20 ns synchronisation, a fatal event. -/
  | ftimeSync (dev : Nat)
  /-- CREATE (R344). Mailbox command making a Free context Active from a descriptor. -/
  | create
  /-- UPDATE_OT (R343). Mailbox command rewriting an object-table entry after invalidating cached copies. -/
  | updateOt
  /-- UPDATE_SCOPE (R230). Mailbox command rewriting a programmable scope entry and deriving its class. -/
  | updateScope
  /-- MOVE_FRAME (R262). Mailbox command running a page motion until switch or abort. -/
  | moveFrame
  /-- KILL (R345). Mailbox command stopping every team of a context. -/
  | kill
  /-- RESET (R343). Mailbox command returning a context to Free. -/
  | reset
  /-- FW_STAGE (R351). Mailbox command writing a verified firmware image into the inactive bank. -/
  | fwStage
  /-- FW_ACTIVATE (R351). Mailbox command marking the staged bank to boot. -/
  | fwActivate
  /-- LOG_READ (R350). Mailbox command copying event-log records to the host. -/
  | logRead
  /-- SENSOR_SAMPLE (R349). Every 100 µs Jasper samples sensors and lowers clocks on limits. -/
  | sensorSample (hot : List Nat)
  /-- CLOCK_CHANGE (R18). The power manager sets a new arithmetic clock for a die. -/
  | clockChange (die mhz : Nat)
  /-- DEVICE_RESET (R351). At reset Jasper verifies and boots a firmware bank and assigns the device number. -/
  | deviceReset (dev : Nat)
  /-- SPDM_REQUEST (R352). Jasper answers an SPDM attestation request. -/
  | spdmRequest (req : List Byte)
  /-- HOST_LINK_TRAIN (R340). The host link trains to its rate and width. -/
  | hostLinkTrain (gts width : Nat)
  /-- HOST_LINK_DOWN (R22). The host link goes down while Jasper and the side-band port keep working, and no completion is written over it until it trains again. -/
  | hostLinkDown
  /-- LINK_FAILURE (R338). A Kollith Link port or chip fails so that a chip of a running span becomes unreachable and the launch stops with SPAN_LOST. -/
  | linkFailure (port : Nat) (dev : Nat)
  deriving DecidableEq, Repr

end Sys2Proof
end

