-- ==== Sys2Proof/WellFormed.lean ====
section
/-! DEFINITION. Which instructions are well formed: the operand limits of R57, R58 and of the reference entries
(R353), and the ranges of a step's operands. -/

namespace Sys2Proof

/-- A field that names a pair holds an even value or 63 (R57). -/
def evenF (r : RegF) : Bool := r.toNat % 2 == 0 || r == zF

/-- A field that names a quad holds a multiple of 4 no greater than 56, or 63 (R57). -/
def quadF (r : RegF) : Bool := (r.toNat % 4 == 0 && r.toNat ≤ 56) || r == zF

/-- The data field of a load or store of size code `z` (R74): single, pair for .d, quad for .x. -/
def sizeF (z : BitVec 3) (r : RegF) : Bool :=
  if z == 5 then evenF r else if z == 6 then quadF r else true

/-- The values field of QPACK and QUNPK by group code (R71): single, pair or quad. -/
def groupF (g : BitVec 2) (r : RegF) : Bool :=
  if g == 0 then true else if g == 1 then evenF r else quadF r

/-- The type codes of FCVT that occupy a pair: .s64, .z64, .d (R71). -/
def wideCode (c : BitVec 4) : Bool := c == 2 || c == 3 || c == 7

/-- The type codes of REDS that occupy a pair: .s64, .z64, .d (R72). -/
def wideType (t : BitVec 3) : Bool := t == 2 || t == 3 || t == 5

/-- The state registers of 64 bits, for which software must name a pair (R97). -/
def wideState (n : BitVec 8) : Bool :=
  n == 0x00 || n == 0x03 || n == 0x11 || n == 0x12 || n == 0x21 || n == 0x38

/-- The operand limits of each instruction. -/
def Instr.wf : Instr → Bool
  | .add _ _ _ _ _ => true
  | .sub _ _ _ _ _ => true
  | .mul _ _ _ _ _ => true
  | .mulh _ _ _ _ _ => true
  | .mulhz _ _ _ _ _ => true
  | .mad _ _ _ _ _ => true
  | .and _ _ _ _ _ => true
  | .or _ _ _ _ _ => true
  | .xor _ _ _ _ _ => true
  | .andn _ _ _ _ _ => true
  | .shl _ _ _ _ _ => true
  | .shr _ _ _ _ _ => true
  | .shra _ _ _ _ _ => true
  | .rot _ _ _ _ _ => true
  | .min _ _ _ _ _ => true
  | .max _ _ _ _ _ => true
  | .minz _ _ _ _ _ => true
  | .maxz _ _ _ _ _ => true
  | .abs _ _ _ => true
  | .popc _ _ _ => true
  | .clz _ _ _ => true
  | .brev _ _ _ => true
  | .bfx _ _ _ _ _ => true
  | .bfi _ _ _ _ _ => true
  | .sel _ _ _ _ _ _ => true
  | .addw d a b _ _ => evenF d && evenF a && evenF b
  | .subw d a b _ _ => evenF d && evenF a && evenF b
  | .shlw d a _ _ _ => evenF d && evenF a
  | .shrw d a _ _ _ => evenF d && evenF a
  | .divs w d a b _ _ => !w || (evenF d && evenF a && evenF b)
  | .divz w d a b _ _ => !w || (evenF d && evenF a && evenF b)
  | .rems w d a b _ _ => !w || (evenF d && evenF a && evenF b)
  | .remz w d a b _ _ => !w || (evenF d && evenF a && evenF b)
  | .cadd d a _ _ _ => evenF d && evenF a
  | .capn d a _ _ _ => evenF d && evenF a
  | .capb d a b _ _ => evenF d && evenF a && evenF b
  | .cmpw c _ _ a b _ _ => c.toNat ≤ 5 && evenF a && evenF b
  | .cmp c _ _ _ _ _ _ => c.toNat ≤ 5
  | .addi _ _ _ _ => true
  | .andi _ _ _ _ => true
  | .ori _ _ _ _ => true
  | .xori _ _ _ _ => true
  | .shli _ _ _ _ => true
  | .shri _ _ _ _ => true
  | .shrai _ _ _ _ => true
  | .cmpi _ _ _ _ => true
  | .movi _ _ => true
  | .fadd t d a b _ _ => t != 1 || (evenF d && evenF a && evenF b)
  | .fsub t d a b _ _ => t != 1 || (evenF d && evenF a && evenF b)
  | .fmul t d a b _ _ => t != 1 || (evenF d && evenF a && evenF b)
  | .fma t d a b _ _ => t != 1 || (evenF d && evenF a && evenF b)
  | .fmin t d a b _ _ => t != 1 || (evenF d && evenF a && evenF b)
  | .fmax t d a b _ _ => t != 1 || (evenF d && evenF a && evenF b)
  | .fabs t d a _ => t != 1 || (evenF d && evenF a)
  | .fneg t d a _ => t != 1 || (evenF d && evenF a)
  | .fcmp c t _ a b _ _ => c.toNat ≤ 6 && (t != 1 || (evenF a && evenF b))
  | .fcvt e d a s _ => e.toNat ≤ 9 && s.toNat ≤ 9 && (4 ≤ e.toNat || 4 ≤ s.toNat) && (!wideCode e || evenF d) && (!wideCode s || evenF a)
  | .qpack g n d a _ _ _ => g != 3 && (!(n && g == 2) || evenF d) && groupF g a
  | .qunpk g n d a _ => g != 3 && (!(n && g == 2) || evenF a) && groupF g d
  | .frcp t d a _ => !t || (evenF d && evenF a)
  | .frsq t d a _ => !t || (evenF d && evenF a)
  | .fsqrt t d a _ => !t || (evenF d && evenF a)
  | .fexp2 _ _ _ => true
  | .flog2 _ _ _ => true
  | .fsin _ _ _ => true
  | .fcos _ _ _ => true
  | .qand _ _ _ => true
  | .qor _ _ _ => true
  | .qxor _ _ _ => true
  | .qnot _ _ => true
  | .qmov _ _ => true
  | .shfl _ _ _ _ _ => true
  | .shflu _ _ _ _ _ => true
  | .shfld _ _ _ _ _ => true
  | .shflx _ _ _ _ _ => true
  | .voteall _ _ => true
  | .voteany _ _ => true
  | .ballot _ _ => true
  | .redadd t d a _ _ => t.toNat ≤ 5 && (!wideType t || (evenF d && evenF a))
  | .redmin t d a _ _ => t.toNat ≤ 5 && (!wideType t || (evenF d && evenF a))
  | .redmax t d a _ _ => t.toNat ≤ 5 && (!wideType t || (evenF d && evenF a))
  | .redand t d a _ _ => (t == 1 || t == 3) && (!wideType t || (evenF d && evenF a))
  | .redor t d a _ _ => (t == 1 || t == 3) && (!wideType t || (evenF d && evenF a))
  | .redxor t d a _ _ => (t == 1 || t == 3) && (!wideType t || (evenF d && evenF a))
  | .scanadd t d a _ _ => t.toNat ≤ 5 && (!wideType t || (evenF d && evenF a))
  | .scanaddx t d a _ _ => t.toNat ≤ 5 && (!wideType t || (evenF d && evenF a))
  | .tagq _ _ _ => true
  | .tagp _ => true
  | .tclr => true
  | .br _ _ => true
  | .brn _ _ => true
  | .call _ _ => true
  | .calln _ _ => true
  | .jmpi _ _ => true
  | .calli _ _ => true
  | .ret _ _ => true
  | .meet => true
  | .fend => true
  | .fspawn _ _ _ => true
  | .win _ => true
  | .tfence => true
  | .eret => true
  | .ld z d b _ _ => z != 7 && sizeF z d && evenF b
  | .st z d b _ _ => z != 7 && z != 1 && z != 3 && sizeF z d && evenF b
  | .ldsp z d b _ _ => z != 7 && sizeF z d && evenF b
  | .ldacq _ w d b => (!w || evenF d) && evenF b
  | .strel _ w b v => (!w || evenF v) && evenF b
  | .atadd w _ d b v => (!w || (evenF d && evenF v)) && evenF b
  | .atand w _ d b v => (!w || (evenF d && evenF v)) && evenF b
  | .ator w _ d b v => (!w || (evenF d && evenF v)) && evenF b
  | .atxor w _ d b v => (!w || (evenF d && evenF v)) && evenF b
  | .atmin w _ d b v => (!w || (evenF d && evenF v)) && evenF b
  | .atmax w _ d b v => (!w || (evenF d && evenF v)) && evenF b
  | .atfadd w _ d b v => (!w || (evenF d && evenF v)) && evenF b
  | .atcas w _ d b v => (!w || (evenF d && evenF v)) && evenF b && d != v
  | .atxch w _ d b => (!w || evenF d) && evenF b
  | .fence _ => true
  | .cflush a _ => evenF a
  | .cinv a _ => evenF a
  | .iinv _ => true
  | .pref a _ => evenF a
  | .stmap a _ _ => evenF a
  | .stunmap _ => true
  | .stwb _ => true
  | .pqry _ _ => true
  | .wclr => true
  | .wchk _ => true
  | .mma _ => true
  | .mrdy _ => true
  | .mwait _ => true
  | .wbld _ => true
  | .dcor _ => true
  | .chain _ => true
  | .strm _ b s => s != 63 || b == 63
  | .kick _ => true
  | .bari _ _ => true
  | .bara _ => true
  | .bwait _ => true
  | .coll _ => true
  | .launch _ => true
  | .launcht _ _ => true
  | .cwait => true
  | .tbar => true
  | .gsr a n => !wideState n || evenF a
  | .ssr a n => !wideState n || evenF a
  | .trap _ => true
  | .limm _ => true
  | .guard _ _ c => c != 0
  | .sched _ _ => true
  | .rnd k _ _ => k != 3
  | .sat => true
  | .nop _ => true
  | .hintIgnored _ _ => true
  | .emulationVector cause _ ulen => 1 ≤ cause.toNat && cause.toNat ≤ 7 && ulen != 0
  | .icacheFill _ _ => true
  | .loadReply _ => true
  | .atomicReply _ => true
  | .divisionComplete _ => true
  | .sfuComplete _ => true
  | .ftimeReadComplete _ => true
  | .writePerform _ _ => true
  | .writeAcknowledge _ => true
  | .atomicPerform _ _ => true
  | .homeRead _ _ => true
  | .leaseExpiry _ => true
  | .directoryEvict _ _ => true
  | .recall _ _ => true
  | .dirtyNotice _ => true
  | .ldspCheck _ => true
  | .checkReply _ => true
  | .watchAgeStrike _ _ => true
  | .stashFill _ _ => true
  | .hostSnoop _ half _ => half < 2
  | .bisnpResponse _ half _ => half < 2
  | .biconflict _ half _ => half < 2
  | .hostHalfRequest _ half _ => half < 2
  | .qTail ctx q _ => ctx < 64 && q < 16
  | .qCtl ctx q _ => ctx < 64 && q < 16
  | .registerWrite _ _ _ => true
  | .commandFetch die => die < 2
  | .commandNop _ => true
  | .commandWait _ => true
  | .commandLaunch _ => true
  | .placeTeams => true
  | .launchPacket _ => true
  | .teamStart _ => true
  | .spanBlock _ => true
  | .spanReply _ => true
  | .spanStart _ => true
  | .spanTstart _ => true
  | .abort _ => true
  | .spanTimeout _ => true
  | .teamDrain _ => true
  | .teamRetire _ => true
  | .regroup core => core < Config.cores
  | .evictTeam _ => true
  | .restoreTeam _ core => core < Config.cores
  | .onyxDue core => core < Config.cores
  | .onyxSlice core => core < Config.cores
  | .onyxSliceEnd core _ => core < Config.cores
  | .onyxLapse core => core < Config.cores
  | .motionRound _ => true
  | .motionLineCopied _ _ => true
  | .motionSwitch => true
  | .copyChunk _ _ => true
  | .copyCount _ => true
  | .chainChunk _ _ => true
  | .mmaComplete core _ => core < Config.cores
  | .dcorComplete core => core < Config.cores
  | .wbldComplete _ _ => true
  | .collChunk _ _ _ _ => true
  | .collAck _ _ => true
  | .collReform _ => true
  | .linklost _ => true
  | .rollback _ => true
  | .mcStatus _ bank _ => bank < 55
  | .linkFlit _ _ _ => true
  | .failedAcknowledgement _ => true
  | .stop _ => true
  | .stopped _ => true
  | .stopTimeout _ => true
  | .d2dFail => true
  | .ftimeSync dev => dev < Config.domainDevices
  | .create => true
  | .updateOt => true
  | .updateScope => true
  | .moveFrame => true
  | .kill => true
  | .reset => true
  | .fwStage => true
  | .fwActivate => true
  | .logRead => true
  | .sensorSample _ => true
  | .clockChange die mhz => die < 2 && 1200 ≤ mhz && mhz ≤ 3600 && mhz % 100 == 0
  | .deviceReset dev => dev < Config.domainDevices
  | .spdmRequest _ => true
  | .hostLinkTrain _ _ => true
  | .hostLinkDown => true
  | .linkFailure _ _ => true

/-- An instruction that meets its operand limits. -/
abbrev Instr.WellFormed (i : Instr) : Prop := i.wf = true

end Sys2Proof
end

