-- ==== Sys2Proof/Decode.lean ====
section
/-! DEFINITION. The decoder and the encoder, written from the formats of R56 and the function tables R65-R76.
Reading a word is total; a word that is no instruction is rejected by name with its cause of R77. -/

namespace Sys2Proof

/-- Why a word is not an instruction (R77). -/
inductive Reject where
  | reservedMajor
  | undefinedFunction
  | reservedField
  | softwareMajor
  | hintKind
  deriving DecidableEq, Repr

/-- The ECAUSE value of a rejection (R77). -/
def Reject.cause : Reject → BitVec 8
  | .reservedMajor => 0x01
  | .undefinedFunction => 0x02
  | .reservedField => 0x03
  | .softwareMajor => 0x05
  | .hintKind => 0x06

/-- Format A (R56). -/
def packA (maj fn d a b : BitVec 6) (p q : Bool) : Word :=
  maj ++ fn ++ d ++ a ++ b ++ BitVec.ofBool p ++ BitVec.ofBool q

/-- Format I (R56). -/
def packI (maj d a : BitVec 6) (i : BitVec 13) (p : Bool) : Word :=
  maj ++ d ++ a ++ i ++ BitVec.ofBool p

/-- Format M (R56). -/
def packM (maj : BitVec 6) (op sz : BitVec 3) (d b : BitVec 6) (o : BitVec 7) (q : Bool) : Word :=
  maj ++ op ++ sz ++ d ++ b ++ o ++ BitVec.ofBool q

/-- Format O (R56). -/
def packO (maj : BitVec 6) (s : BitVec 5) (op : BitVec 3) (d b v : BitVec 6) : Word :=
  maj ++ s ++ op ++ d ++ b ++ v

/-- Format B (R56). -/
def packB (maj : BitVec 6) (neg : Bool) (q : BitVec 4) (o : BitVec 21) : Word :=
  maj ++ BitVec.ofBool neg ++ q ++ o

/-- Format X (R56). -/
def packX (maj fn a b : BitVec 6) (i : BitVec 8) : Word := maj ++ fn ++ a ++ b ++ i

/-- Format H (R56). -/
def packH (kind : BitVec 4) (p : BitVec 22) : Word := (0x3E : BitVec 6) ++ kind ++ p

/-- A predicate in a register field: bits [5:4] are 0 (R57). -/
def predF (q : PredF) : RegF := (0 : BitVec 2) ++ q

/-- The word of an instruction that has an encoding (R55-R76). -/
def Instr.word? : Instr → Option Word
  | .add d a b p q => some (packA 0x01 0x00 d a b p q)
  | .sub d a b p q => some (packA 0x01 0x01 d a b p q)
  | .mul d a b p q => some (packA 0x01 0x02 d a b p q)
  | .mulh d a b p q => some (packA 0x01 0x03 d a b p q)
  | .mulhz d a b p q => some (packA 0x01 0x04 d a b p q)
  | .mad d a b p q => some (packA 0x01 0x05 d a b p q)
  | .and d a b p q => some (packA 0x01 0x06 d a b p q)
  | .or d a b p q => some (packA 0x01 0x07 d a b p q)
  | .xor d a b p q => some (packA 0x01 0x08 d a b p q)
  | .andn d a b p q => some (packA 0x01 0x09 d a b p q)
  | .shl d a b p q => some (packA 0x01 0x0A d a b p q)
  | .shr d a b p q => some (packA 0x01 0x0B d a b p q)
  | .shra d a b p q => some (packA 0x01 0x0C d a b p q)
  | .rot d a b p q => some (packA 0x01 0x0D d a b p q)
  | .min d a b p q => some (packA 0x01 0x0E d a b p q)
  | .max d a b p q => some (packA 0x01 0x0F d a b p q)
  | .minz d a b p q => some (packA 0x01 0x10 d a b p q)
  | .maxz d a b p q => some (packA 0x01 0x11 d a b p q)
  | .abs d a p => some (packA 0x01 0x12 d a 0 p false)
  | .popc d a p => some (packA 0x01 0x13 d a 0 p false)
  | .clz d a p => some (packA 0x01 0x14 d a 0 p false)
  | .brev d a p => some (packA 0x01 0x15 d a 0 p false)
  | .bfx d a b p q => some (packA 0x01 0x16 d a b p q)
  | .bfi d a b p q => some (packA 0x01 0x17 d a b p q)
  | .sel n d a b p q => some (packA 0x01 ((3 : BitVec 2) ++ n) d a b p q)
  | .addw d a b p q => some (packA 0x02 0x00 d a b p q)
  | .subw d a b p q => some (packA 0x02 0x01 d a b p q)
  | .shlw d a b p q => some (packA 0x02 0x02 d a b p q)
  | .shrw d a b p q => some (packA 0x02 0x03 d a b p q)
  | .divs w d a b p q => some (packA 0x02 ((0 : BitVec 2) ++ BitVec.ofBool w ++ (4 : BitVec 3)) d a b p q)
  | .divz w d a b p q => some (packA 0x02 ((0 : BitVec 2) ++ BitVec.ofBool w ++ (5 : BitVec 3)) d a b p q)
  | .rems w d a b p q => some (packA 0x02 ((0 : BitVec 2) ++ BitVec.ofBool w ++ (6 : BitVec 3)) d a b p q)
  | .remz w d a b p q => some (packA 0x02 ((0 : BitVec 2) ++ BitVec.ofBool w ++ (7 : BitVec 3)) d a b p q)
  | .cadd d a b p q => some (packA 0x02 0x08 d a b p q)
  | .capn d a b p q => some (packA 0x02 0x09 d a b p q)
  | .capb d a b p q => some (packA 0x02 0x0A d a b p q)
  | .cmpw c u d a b p q => some (packA 0x02 (0x10 + ((0 : BitVec 2) ++ c ++ BitVec.ofBool u)) (predF d) a b p q)
  | .cmp c u d a b p q => some (packA 0x03 ((0 : BitVec 2) ++ c ++ BitVec.ofBool u) (predF d) a b p q)
  | .addi d a i p => some (packI 0x04 d a i p)
  | .andi d a i p => some (packI 0x05 d a i p)
  | .ori d a i p => some (packI 0x06 d a i p)
  | .xori d a i p => some (packI 0x07 d a i p)
  | .shli d a n p => some (packI 0x08 d a ((0 : BitVec 8) ++ n) p)
  | .shri d a n p => some (packI 0x09 d a ((0 : BitVec 8) ++ n) p)
  | .shrai d a n p => some (packI 0x0A d a ((0 : BitVec 8) ++ n) p)
  | .cmpi n a i p => some (packI 0x0B ((0 : BitVec 2) ++ n ++ (0 : BitVec 1)) a i p)
  | .movi d i => some (packI 0x0C d 0 i false)
  | .fadd t d a b p q => some (packA 0x0D ((0 : BitVec 4) ++ t) d a b p q)
  | .fsub t d a b p q => some (packA 0x0D ((1 : BitVec 4) ++ t) d a b p q)
  | .fmul t d a b p q => some (packA 0x0D ((2 : BitVec 4) ++ t) d a b p q)
  | .fma t d a b p q => some (packA 0x0D ((3 : BitVec 4) ++ t) d a b p q)
  | .fmin t d a b p q => some (packA 0x0D ((4 : BitVec 4) ++ t) d a b p q)
  | .fmax t d a b p q => some (packA 0x0D ((5 : BitVec 4) ++ t) d a b p q)
  | .fabs t d a p => some (packA 0x0D ((6 : BitVec 4) ++ t) d a 0 p false)
  | .fneg t d a p => some (packA 0x0D ((7 : BitVec 4) ++ t) d a 0 p false)
  | .fcmp c t d a b p q => some (packA 0x0D ((1 : BitVec 1) ++ c ++ t) (predF d) a b p q)
  | .fcvt e d a s p => some (packA 0x0E ((0 : BitVec 2) ++ e) d a (s ++ (0 : BitVec 2)) p false)
  | .qpack g n d a b p q => some (packA 0x0E ((1 : BitVec 2) ++ g ++ (0 : BitVec 1) ++ BitVec.ofBool n) d a b p q)
  | .qunpk g n d a p => some (packA 0x0E ((1 : BitVec 2) ++ g ++ (1 : BitVec 1) ++ BitVec.ofBool n) d a 0 p false)
  | .frcp t d a p => some (packA 0x0F ((0 : BitVec 5) ++ BitVec.ofBool t) d a 0 p false)
  | .frsq t d a p => some (packA 0x0F ((2 : BitVec 5) ++ BitVec.ofBool t) d a 0 p false)
  | .fsqrt t d a p => some (packA 0x0F ((4 : BitVec 5) ++ BitVec.ofBool t) d a 0 p false)
  | .fexp2 d a p => some (packA 0x0F 0x0C d a 0 p false)
  | .flog2 d a p => some (packA 0x0F 0x10 d a 0 p false)
  | .fsin d a p => some (packA 0x0F 0x14 d a 0 p false)
  | .fcos d a p => some (packA 0x0F 0x18 d a 0 p false)
  | .qand d a b => some (packA 0x10 0 (predF d) (predF a) (predF b) false false)
  | .qor d a b => some (packA 0x10 1 (predF d) (predF a) (predF b) false false)
  | .qxor d a b => some (packA 0x10 2 (predF d) (predF a) (predF b) false false)
  | .qnot d a => some (packA 0x10 3 (predF d) (predF a) 0 false false)
  | .qmov d a => some (packA 0x10 4 (predF d) (predF a) 0 false false)
  | .shfl d a b p q => some (packA 0x11 0 d a b p q)
  | .shflu d a b p q => some (packA 0x11 1 d a b p q)
  | .shfld d a b p q => some (packA 0x11 2 d a b p q)
  | .shflx d a b p q => some (packA 0x11 3 d a b p q)
  | .voteall d a => some (packA 0x11 4 (predF d) (predF a) 0 false false)
  | .voteany d a => some (packA 0x11 5 (predF d) (predF a) 0 false false)
  | .ballot d a => some (packA 0x11 6 d (predF a) 0 false false)
  | .redadd t d a m p => some (packA 0x12 ((0 : BitVec 3) ++ t) d a (predF m) p false)
  | .redmin t d a m p => some (packA 0x12 ((1 : BitVec 3) ++ t) d a (predF m) p false)
  | .redmax t d a m p => some (packA 0x12 ((2 : BitVec 3) ++ t) d a (predF m) p false)
  | .redand t d a m p => some (packA 0x12 ((3 : BitVec 3) ++ t) d a (predF m) p false)
  | .redor t d a m p => some (packA 0x12 ((4 : BitVec 3) ++ t) d a (predF m) p false)
  | .redxor t d a m p => some (packA 0x12 ((5 : BitVec 3) ++ t) d a (predF m) p false)
  | .scanadd t d a m p => some (packA 0x12 ((6 : BitVec 3) ++ t) d a (predF m) p false)
  | .scanaddx t d a m p => some (packA 0x12 ((7 : BitVec 3) ++ t) d a (predF m) p false)
  | .tagq d a p => some (packA 0x13 0 (predF d) a 0 p false)
  | .tagp d => some (packA 0x13 1 d 0 0 false false)
  | .tclr => some (packA 0x13 2 0 0 0 false false)
  | .br q o => some (packB 0x14 false q o)
  | .brn q o => some (packB 0x14 true q o)
  | .call q o => some (packB 0x15 false q o)
  | .calln q o => some (packB 0x15 true q o)
  | .jmpi a p => some (packA 0x16 0 0 a 0 p false)
  | .calli a p => some (packA 0x16 1 0 a 0 p false)
  | .ret a p => some (packA 0x16 2 0 a 0 p false)
  | .meet => some (packA 0x16 3 0 0 0 false false)
  | .fend => some (packA 0x16 4 0 0 0 false false)
  | .fspawn d a p => some (packA 0x16 5 d a 0 p false)
  | .win s => some (packA 0x16 6 0 0 s false false)
  | .tfence => some (packA 0x16 7 0 0 0 false false)
  | .eret => some (packA 0x16 8 0 0 0 false false)
  | .ld z d b o q => some (packM 0x18 0 z d b o q)
  | .st z d b o q => some (packM 0x19 0 z d b o q)
  | .ldsp z d b o q => some (packM 0x1A 0 z d b o q)
  | .ldacq s w d b => some (packO 0x1B s ((0 : BitVec 2) ++ BitVec.ofBool w) d b 0)
  | .strel s w b v => some (packO 0x1B s ((1 : BitVec 2) ++ BitVec.ofBool w) 0 b v)
  | .atadd w s d b v => some (packO ((0x0E : BitVec 5) ++ BitVec.ofBool w) s 0 d b v)
  | .atand w s d b v => some (packO ((0x0E : BitVec 5) ++ BitVec.ofBool w) s 1 d b v)
  | .ator w s d b v => some (packO ((0x0E : BitVec 5) ++ BitVec.ofBool w) s 2 d b v)
  | .atxor w s d b v => some (packO ((0x0E : BitVec 5) ++ BitVec.ofBool w) s 3 d b v)
  | .atmin w s d b v => some (packO ((0x0E : BitVec 5) ++ BitVec.ofBool w) s 4 d b v)
  | .atmax w s d b v => some (packO ((0x0E : BitVec 5) ++ BitVec.ofBool w) s 5 d b v)
  | .atfadd w s d b v => some (packO ((0x0E : BitVec 5) ++ BitVec.ofBool w) s 6 d b v)
  | .atcas w s d b v => some (packO ((0x0E : BitVec 5) ++ BitVec.ofBool w) s 7 d b v)
  | .atxch w s d b => some (packO ((0x0E : BitVec 5) ++ BitVec.ofBool w) s 7 d b d)
  | .fence s => some (packX 0x1E 0 0 0 ((0 : BitVec 3) ++ s))
  | .cflush a b => some (packX 0x1E 1 a b 0)
  | .cinv a b => some (packX 0x1E 2 a b 0)
  | .iinv s => some (packX 0x1E 3 0 0 ((0 : BitVec 3) ++ s))
  | .pref a k => some (packX 0x1E 4 a 0 ((0 : BitVec 7) ++ BitVec.ofBool k))
  | .stmap a b w => some (packX 0x1E 5 a b ((0 : BitVec 4) ++ w))
  | .stunmap w => some (packX 0x1E 6 0 0 ((0 : BitVec 4) ++ w))
  | .stwb w => some (packX 0x1E 7 0 0 ((0 : BitVec 4) ++ w))
  | .pqry a n => some (packX 0x1E 8 a 0 ((0 : BitVec 4) ++ n))
  | .wclr => some (packX 0x1E 9 0 0 0)
  | .wchk o => some (packB 0x1F false 0 o)
  | .mma a => some (packX 0x20 0 a 0 0)
  | .mrdy a => some (packX 0x20 1 a 0 0)
  | .mwait t => some (packX 0x20 2 0 0 ((0 : BitVec 2) ++ t))
  | .wbld a => some (packX 0x20 3 a 0 0)
  | .dcor a => some (packX 0x20 4 a 0 0)
  | .chain a => some (packX 0x21 0 a 0 0)
  | .strm n b s => some (packX 0x21 1 ((0 : BitVec 3) ++ n) b ((0 : BitVec 2) ++ s))
  | .kick a => some (packX 0x22 0 a 0 0)
  | .bari a b => some (packX 0x22 1 a b 0)
  | .bara a => some (packX 0x22 2 a 0 0)
  | .bwait a => some (packX 0x22 3 a 0 0)
  | .coll a => some (packX 0x22 4 a 0 0)
  | .launch a => some (packX 0x23 0 a 0 0)
  | .launcht a n => some (packX 0x23 1 a 0 ((0 : BitVec 4) ++ n))
  | .cwait => some (packX 0x23 2 0 0 0)
  | .tbar => some (packX 0x23 3 0 0 0)
  | .gsr a n => some (packX 0x24 0 a 0 n)
  | .ssr a n => some (packX 0x24 1 a 0 n)
  | .trap n => some (packX 0x00 0 0 0 n)
  | .limm p => some (packH 0 p)
  | .guard q n c => some (packH 1 (q ++ BitVec.ofBool n ++ c ++ (0 : BitVec 14)))
  | .sched y s => some (packH 2 ((0 : BitVec 17) ++ BitVec.ofBool y ++ s))
  | .rnd k r m => some (packH 3 ((0 : BitVec 17) ++ k ++ BitVec.ofBool r ++ m))
  | .sat => some (packH 4 0)
  | .nop p => some (packH 5 p)
  | .hintIgnored k p => some (packH ((1 : BitVec 1) ++ k) p)
  | _ => none

/-- The words of an instruction: one, or none for a step that has no encoding (R55). -/
def encode (i : Instr) : List Word := i.word?.toList

/-- Bits `lo` to `lo + len - 1` of a word (R2). -/
def fld (w : Word) (lo len : Nat) : BitVec len := w.extractLsb' lo len
/-- One bit of a word. -/
def bit (w : Word) (lo : Nat) : Bool := fld w lo 1 == 1

/-- The instruction that a word of each major opcode names, before its operand limits and reserved fields are
checked (R65-R76). -/
def readInt (w : Word) : Except Reject Instr :=
  let d := fld w 14 6; let a := fld w 8 6; let b := fld w 2 6; let p := bit w 1; let q := bit w 0
  match (fld w 20 6).toNat with
  | 0x00 => .ok (.add d a b p q)
  | 0x01 => .ok (.sub d a b p q)
  | 0x02 => .ok (.mul d a b p q)
  | 0x03 => .ok (.mulh d a b p q)
  | 0x04 => .ok (.mulhz d a b p q)
  | 0x05 => .ok (.mad d a b p q)
  | 0x06 => .ok (.and d a b p q)
  | 0x07 => .ok (.or d a b p q)
  | 0x08 => .ok (.xor d a b p q)
  | 0x09 => .ok (.andn d a b p q)
  | 0x0A => .ok (.shl d a b p q)
  | 0x0B => .ok (.shr d a b p q)
  | 0x0C => .ok (.shra d a b p q)
  | 0x0D => .ok (.rot d a b p q)
  | 0x0E => .ok (.min d a b p q)
  | 0x0F => .ok (.max d a b p q)
  | 0x10 => .ok (.minz d a b p q)
  | 0x11 => .ok (.maxz d a b p q)
  | 0x12 => .ok (.abs d a p)
  | 0x13 => .ok (.popc d a p)
  | 0x14 => .ok (.clz d a p)
  | 0x15 => .ok (.brev d a p)
  | 0x16 => .ok (.bfx d a b p q)
  | 0x17 => .ok (.bfi d a b p q)
  | _ => if fld w 24 2 = 3 then .ok (.sel (fld w 20 4) d a b p q) else .error .undefinedFunction

@[inherit_doc readInt]
def readIntW (w : Word) : Except Reject Instr :=
  let d := fld w 14 6; let a := fld w 8 6; let b := fld w 2 6; let p := bit w 1; let q := bit w 0
  match (fld w 20 6).toNat with
  | 0x00 => .ok (.addw d a b p q)
  | 0x01 => .ok (.subw d a b p q)
  | 0x02 => .ok (.shlw d a b p q)
  | 0x03 => .ok (.shrw d a b p q)
  | 0x04 => .ok (.divs false d a b p q)
  | 0x05 => .ok (.divz false d a b p q)
  | 0x06 => .ok (.rems false d a b p q)
  | 0x07 => .ok (.remz false d a b p q)
  | 0x08 => .ok (.cadd d a b p q)
  | 0x09 => .ok (.capn d a b p q)
  | 0x0A => .ok (.capb d a b p q)
  | 0x0C => .ok (.divs true d a b p q)
  | 0x0D => .ok (.divz true d a b p q)
  | 0x0E => .ok (.rems true d a b p q)
  | 0x0F => .ok (.remz true d a b p q)
  | n =>
    if 0x10 ≤ n ∧ n ≤ 0x1B then .ok (.cmpw (fld w 21 4 - 8 |>.setWidth 3) (bit w 20) (fld w 14 4) a b p q)
    else .error .undefinedFunction

@[inherit_doc readInt]
def readCmp (w : Word) : Except Reject Instr :=
  if (fld w 20 6).toNat ≤ 0x0B then
    .ok (.cmp (fld w 21 3) (bit w 20) (fld w 14 4) (fld w 8 6) (fld w 2 6) (bit w 1) (bit w 0))
  else .error .undefinedFunction

@[inherit_doc readInt]
def readFp (w : Word) : Except Reject Instr :=
  let t := fld w 20 2; let d := fld w 14 6; let a := fld w 8 6; let b := fld w 2 6
  let p := bit w 1; let q := bit w 0
  match (fld w 22 4).toNat with
  | 0 => .ok (.fadd t d a b p q)
  | 1 => .ok (.fsub t d a b p q)
  | 2 => .ok (.fmul t d a b p q)
  | 3 => .ok (.fma t d a b p q)
  | 4 => .ok (.fmin t d a b p q)
  | 5 => .ok (.fmax t d a b p q)
  | 6 => .ok (.fabs t d a p)
  | 7 => .ok (.fneg t d a p)
  | 15 => .error .undefinedFunction
  | _ => .ok (.fcmp (fld w 22 3) t (fld w 14 4) a b p q)

@[inherit_doc readInt]
def readFcv (w : Word) : Except Reject Instr :=
  let d := fld w 14 6; let a := fld w 8 6; let b := fld w 2 6; let p := bit w 1; let q := bit w 0
  let e := fld w 20 4; let s := fld w 4 4; let g := fld w 22 2
  match (fld w 24 2).toNat with
  | 0 =>
    if e.toNat ≤ 9 ∧ s.toNat ≤ 9 ∧ (4 ≤ e.toNat ∨ 4 ≤ s.toNat) then .ok (.fcvt e d a s p)
    else .error .undefinedFunction
  | 1 =>
    if g = 3 then .error .undefinedFunction
    else if bit w 21 then .ok (.qunpk g (bit w 20) d a p)
    else .ok (.qpack g (bit w 20) d a b p q)
  | _ => .error .undefinedFunction

@[inherit_doc readInt]
def readSfu (w : Word) : Except Reject Instr :=
  let d := fld w 14 6; let a := fld w 8 6; let p := bit w 1
  match (fld w 20 6).toNat with
  | 0x00 => .ok (.frcp false d a p)
  | 0x01 => .ok (.frcp true d a p)
  | 0x04 => .ok (.frsq false d a p)
  | 0x05 => .ok (.frsq true d a p)
  | 0x08 => .ok (.fsqrt false d a p)
  | 0x09 => .ok (.fsqrt true d a p)
  | 0x0C => .ok (.fexp2 d a p)
  | 0x10 => .ok (.flog2 d a p)
  | 0x14 => .ok (.fsin d a p)
  | 0x18 => .ok (.fcos d a p)
  | _ => .error .undefinedFunction

@[inherit_doc readInt]
def readPred (w : Word) : Except Reject Instr :=
  let d := fld w 14 4; let a := fld w 8 4; let b := fld w 2 4
  match (fld w 20 6).toNat with
  | 0 => .ok (.qand d a b)
  | 1 => .ok (.qor d a b)
  | 2 => .ok (.qxor d a b)
  | 3 => .ok (.qnot d a)
  | 4 => .ok (.qmov d a)
  | _ => .error .undefinedFunction

@[inherit_doc readInt]
def readLane (w : Word) : Except Reject Instr :=
  let d := fld w 14 6; let a := fld w 8 6; let b := fld w 2 6; let p := bit w 1; let q := bit w 0
  match (fld w 20 6).toNat with
  | 0 => .ok (.shfl d a b p q)
  | 1 => .ok (.shflu d a b p q)
  | 2 => .ok (.shfld d a b p q)
  | 3 => .ok (.shflx d a b p q)
  | 4 => .ok (.voteall (fld w 14 4) (fld w 8 4))
  | 5 => .ok (.voteany (fld w 14 4) (fld w 8 4))
  | 6 => .ok (.ballot d (fld w 8 4))
  | _ => .error .undefinedFunction

@[inherit_doc readInt]
def readReds (w : Word) : Except Reject Instr :=
  let t := fld w 20 3; let d := fld w 14 6; let a := fld w 8 6; let m := fld w 2 4; let p := bit w 1
  if 6 ≤ t.toNat then .error .undefinedFunction
  else
    match (fld w 23 3).toNat with
    | 0 => .ok (.redadd t d a m p)
    | 1 => .ok (.redmin t d a m p)
    | 2 => .ok (.redmax t d a m p)
    | 3 => if t = 1 ∨ t = 3 then .ok (.redand t d a m p) else .error .undefinedFunction
    | 4 => if t = 1 ∨ t = 3 then .ok (.redor t d a m p) else .error .undefinedFunction
    | 5 => if t = 1 ∨ t = 3 then .ok (.redxor t d a m p) else .error .undefinedFunction
    | 6 => .ok (.scanadd t d a m p)
    | _ => .ok (.scanaddx t d a m p)

@[inherit_doc readInt]
def readTag (w : Word) : Except Reject Instr :=
  match (fld w 20 6).toNat with
  | 0 => .ok (.tagq (fld w 14 4) (fld w 8 6) (bit w 1))
  | 1 => .ok (.tagp (fld w 14 6))
  | 2 => .ok .tclr
  | _ => .error .undefinedFunction

@[inherit_doc readInt]
def readBranch (call : Bool) (w : Word) : Except Reject Instr :=
  let q := fld w 21 4; let o := fld w 0 21
  .ok (match call, bit w 25 with
    | false, false => .br q o
    | false, true => .brn q o
    | true, false => .call q o
    | true, true => .calln q o)

@[inherit_doc readInt]
def readFlow (w : Word) : Except Reject Instr :=
  let a := fld w 8 6; let p := bit w 1
  match (fld w 20 6).toNat with
  | 0 => .ok (.jmpi a p)
  | 1 => .ok (.calli a p)
  | 2 => .ok (.ret a p)
  | 3 => .ok .meet
  | 4 => .ok .fend
  | 5 => .ok (.fspawn (fld w 14 6) a p)
  | 6 => .ok (.win (fld w 2 6))
  | 7 => .ok .tfence
  | 8 => .ok .eret
  | _ => .error .undefinedFunction

@[inherit_doc readInt]
def readMem (maj : Nat) (w : Word) : Except Reject Instr :=
  let z := fld w 20 3; let d := fld w 14 6; let b := fld w 8 6; let o := fld w 1 7; let q := bit w 0
  if fld w 23 3 ≠ 0 ∨ z = 7 then .error .undefinedFunction
  else
    match maj with
    | 0x18 => .ok (.ld z d b o q)
    | 0x19 => if z = 1 ∨ z = 3 then .error .undefinedFunction else .ok (.st z d b o q)
    | _ => .ok (.ldsp z d b o q)

@[inherit_doc readInt]
def readOrdm (w : Word) : Except Reject Instr :=
  let s := fld w 21 5; let d := fld w 12 6; let b := fld w 6 6; let v := fld w 0 6
  match (fld w 18 3).toNat with
  | 0 => .ok (.ldacq s false d b)
  | 1 => .ok (.ldacq s true d b)
  | 2 => .ok (.strel s false b v)
  | 3 => .ok (.strel s true b v)
  | _ => .error .undefinedFunction

@[inherit_doc readInt]
def readAtom (w : Word) : Except Reject Instr :=
  let wide := bit w 26; let s := fld w 21 5; let d := fld w 12 6; let b := fld w 6 6; let v := fld w 0 6
  .ok (match (fld w 18 3).toNat with
    | 0 => .atadd wide s d b v
    | 1 => .atand wide s d b v
    | 2 => .ator wide s d b v
    | 3 => .atxor wide s d b v
    | 4 => .atmin wide s d b v
    | 5 => .atmax wide s d b v
    | 6 => .atfadd wide s d b v
    | _ => if d = v then .atxch wide s d b else .atcas wide s d b v)

@[inherit_doc readInt]
def readMsys (w : Word) : Except Reject Instr :=
  let a := fld w 14 6; let b := fld w 8 6
  match (fld w 20 6).toNat with
  | 0 => .ok (.fence (fld w 0 5))
  | 1 => .ok (.cflush a b)
  | 2 => .ok (.cinv a b)
  | 3 => .ok (.iinv (fld w 0 5))
  | 4 => .ok (.pref a (bit w 0))
  | 5 => .ok (.stmap a b (fld w 0 4))
  | 6 => .ok (.stunmap (fld w 0 4))
  | 7 => .ok (.stwb (fld w 0 4))
  | 8 => .ok (.pqry a (fld w 0 4))
  | 9 => .ok .wclr
  | _ => .error .undefinedFunction

@[inherit_doc readInt]
def readEng (w : Word) : Except Reject Instr :=
  let a := fld w 14 6
  match (fld w 20 6).toNat with
  | 0 => .ok (.mma a)
  | 1 => .ok (.mrdy a)
  | 2 => .ok (.mwait (fld w 0 6))
  | 3 => .ok (.wbld a)
  | 4 => .ok (.dcor a)
  | _ => .error .undefinedFunction

@[inherit_doc readInt]
def readStreams (w : Word) : Except Reject Instr :=
  match (fld w 20 6).toNat with
  | 0 => .ok (.chain (fld w 14 6))
  | 1 => .ok (.strm (fld w 14 3) (fld w 8 6) (fld w 0 6))
  | _ => .error .undefinedFunction

@[inherit_doc readInt]
def readQue (w : Word) : Except Reject Instr :=
  let a := fld w 14 6
  match (fld w 20 6).toNat with
  | 0 => .ok (.kick a)
  | 1 => .ok (.bari a (fld w 8 6))
  | 2 => .ok (.bara a)
  | 3 => .ok (.bwait a)
  | 4 => .ok (.coll a)
  | _ => .error .undefinedFunction

@[inherit_doc readInt]
def readWork (w : Word) : Except Reject Instr :=
  match (fld w 20 6).toNat with
  | 0 => .ok (.launch (fld w 14 6))
  | 1 => .ok (.launcht (fld w 14 6) (fld w 0 4))
  | 2 => .ok .cwait
  | 3 => .ok .tbar
  | _ => .error .undefinedFunction

@[inherit_doc readInt]
def readSys (w : Word) : Except Reject Instr :=
  match (fld w 20 6).toNat with
  | 0 => .ok (.gsr (fld w 14 6) (fld w 0 8))
  | 1 => .ok (.ssr (fld w 14 6) (fld w 0 8))
  | _ => .error .undefinedFunction

/-- Hint words by kind (R60). -/
def readHint (w : Word) : Except Reject Instr :=
  match (fld w 22 4).toNat with
  | 0 => .ok (.limm (fld w 0 22))
  | 1 => .ok (.guard (fld w 18 4) (bit w 17) (fld w 14 3))
  | 2 => .ok (.sched (bit w 4) (fld w 0 4))
  | 3 => .ok (.rnd (fld w 3 2) (bit w 2) (fld w 0 2))
  | 4 => .ok .sat
  | 5 => .ok (.nop (fld w 0 22))
  | 6 => .error .hintKind
  | 7 => .error .hintKind
  | _ => .ok (.hintIgnored (fld w 22 3) (fld w 0 22))

/-- The major opcode of a word (R55). -/
def majorOf (w : Word) : Nat := (fld w 26 6).toNat

/-- The instruction a word names by its major and function code (R65). -/
def readWord (w : Word) : Except Reject Instr :=
  match majorOf w with
  | 0x00 => .ok (.trap (fld w 0 8))
  | 0x01 => readInt w
  | 0x02 => readIntW w
  | 0x03 => readCmp w
  | 0x04 => .ok (.addi (fld w 20 6) (fld w 14 6) (fld w 1 13) (bit w 0))
  | 0x05 => .ok (.andi (fld w 20 6) (fld w 14 6) (fld w 1 13) (bit w 0))
  | 0x06 => .ok (.ori (fld w 20 6) (fld w 14 6) (fld w 1 13) (bit w 0))
  | 0x07 => .ok (.xori (fld w 20 6) (fld w 14 6) (fld w 1 13) (bit w 0))
  | 0x08 => .ok (.shli (fld w 20 6) (fld w 14 6) (fld w 1 5) (bit w 0))
  | 0x09 => .ok (.shri (fld w 20 6) (fld w 14 6) (fld w 1 5) (bit w 0))
  | 0x0A => .ok (.shrai (fld w 20 6) (fld w 14 6) (fld w 1 5) (bit w 0))
  | 0x0B => .ok (.cmpi (fld w 21 3) (fld w 14 6) (fld w 1 13) (bit w 0))
  | 0x0C => .ok (.movi (fld w 20 6) (fld w 1 13))
  | 0x0D => readFp w
  | 0x0E => readFcv w
  | 0x0F => readSfu w
  | 0x10 => readPred w
  | 0x11 => readLane w
  | 0x12 => readReds w
  | 0x13 => readTag w
  | 0x14 => readBranch false w
  | 0x15 => readBranch true w
  | 0x16 => readFlow w
  | 0x18 => readMem 0x18 w
  | 0x19 => readMem 0x19 w
  | 0x1A => readMem 0x1A w
  | 0x1B => readOrdm w
  | 0x1C => readAtom w
  | 0x1D => readAtom w
  | 0x1E => readMsys w
  | 0x1F => .ok (.wchk (fld w 0 21))
  | 0x20 => readEng w
  | 0x21 => readStreams w
  | 0x22 => readQue w
  | 0x23 => readWork w
  | 0x24 => readSys w
  | 0x3E => readHint w
  | 0x3F => .error .softwareMajor
  | _ => .error .reservedMajor

/-- The decoder: total on words, in the order of R78. A word whose reserved fields are not zero, or whose operands
break a limit, differs from the word of the instruction it names, or names no well-formed one (R57, R58). -/
def decode (w : Word) : Except Reject Instr :=
  match readWord w with
  | .error r => .error r
  | .ok i => if i.wf = true ∧ i.word? = some w then .ok i else .error .reservedField

/-- The four bytes of a word, as R3 and R55 lay them out. -/
def wordBytes (w : Word) : List Byte :=
  [w.extractLsb' 0 8, w.extractLsb' 8 8, w.extractLsb' 16 8, w.extractLsb' 24 8]

/-- The word that four bytes hold, lowest address first (R3). -/
def wordOf (b0 b1 b2 b3 : Byte) : Word := b3 ++ b2 ++ b1 ++ b0

/-- The decoder on bytes: one word, and the bytes after it. Fewer than four bytes hold no word. -/
def decodeBytes : List Byte → Option (Except Reject Instr × List Byte)
  | b0 :: b1 :: b2 :: b3 :: rest => some (decode (wordOf b0 b1 b2 b3), rest)
  | _ => none

/-- The instruction the decoder reads from an instruction whose bits are `w`, numbered as the opcode table numbers
them; bits above `nbits` are 0. -/
def decodeTableWord (nbits w : Nat) : Option Instr :=
  match decodeBytes (wordBytes (BitVec.ofNat 32 (w % 2 ^ nbits))) with
  | some (.ok i, _) => some i
  | _ => none

/-- A hint word of kinds 0-4: it stands inside a unit and not at its end (R62). -/
def isHint04 (w : Word) : Bool := majorOf w == 0x3E && (fld w 22 4).toNat ≤ 4

/-- A word of format I, the only target a LIMM may have (R61, R65). -/
def isFormatI (w : Word) : Bool :=
  let m := majorOf w
  (0x04 ≤ m && m ≤ 0x0C) || m == 0x36 || m == 0x37

/-- Where a format keeps the fields that o0-o3 map: D, A or BASE, B or V (R79). -/
def oFields (w : Word) : Option RegF × Option RegF × Option RegF :=
  let m := majorOf w
  if m == 0x3E then (none, none, none)
  else if (0x04 ≤ m && m ≤ 0x0C) || m == 0x36 || m == 0x37 then (some (fld w 20 6), some (fld w 14 6), none)
  else if (0x18 ≤ m && m ≤ 0x1A) || (0x30 ≤ m && m ≤ 0x33) then (some (fld w 14 6), some (fld w 8 6), none)
  else if (0x1B ≤ m && m ≤ 0x1D) || m == 0x34 || m == 0x35 then
    (some (fld w 12 6), some (fld w 6 6), some (fld w 0 6))
  else if m == 0x14 || m == 0x15 || m == 0x1F || m == 0x3C || m == 0x3D then (none, none, none)
  else if m == 0x00 || m == 0x1E || (0x20 ≤ m && m ≤ 0x24) || (0x38 ≤ m && m ≤ 0x3B) then
    (none, some (fld w 14 6), some (fld w 8 6))
  else (some (fld w 14 6), some (fld w 8 6), some (fld w 2 6))

end Sys2Proof
end

