-- ==== Sys2Proof/Machine/Store.lean ====
section
/-! DEFINITION. The containers of the state: sorted association lists, sorted sets of numbers, and byte memory with
one tag and one poison mark a sector (R106, R321) in one canonical form. -/

namespace Sys2Proof

/-- A finite map with number keys, kept in rising order of key by `put`. -/
abbrev AMap (α : Type) := List (Nat × α)

/-- The value at a key. -/
def AMap.find {α : Type} : AMap α → Nat → Option α
  | [], _ => none
  | (j, v) :: r, k => if j = k then some v else AMap.find r k

/-- Sets the value at a key. -/
def AMap.put {α : Type} : AMap α → Nat → α → AMap α
  | [], k, v => [(k, v)]
  | (j, w) :: r, k, v =>
    if k < j then (k, v) :: (j, w) :: r else if k = j then (k, v) :: r else (j, w) :: AMap.put r k v

/-- Removes a key. -/
def AMap.del {α : Type} : AMap α → Nat → AMap α
  | [], _ => []
  | (j, w) :: r, k => if j = k then AMap.del r k else (j, w) :: AMap.del r k

/-- Replaces the value at a key that is present. -/
def AMap.upd {α : Type} (m : AMap α) (k : Nat) (f : α → α) : AMap α :=
  match m.find k with
  | some v => m.put k (f v)
  | none => m

/-- Applies a function to every value. -/
def AMap.mapVals {α β : Type} (m : AMap α) (f : Nat → α → β) : AMap β := m.map fun p => (p.1, f p.1 p.2)

/-- A set of numbers, kept in rising order. -/
abbrev NSet := List Nat

/-- Adds a number. -/
def NSet.put : NSet → Nat → NSet
  | [], k => [k]
  | j :: r, k => if k < j then k :: j :: r else if k = j then j :: r else j :: NSet.put r k

/-- Removes a number. -/
def NSet.del : NSet → Nat → NSet
  | [], _ => []
  | j :: r, k => if j = k then NSet.del r k else j :: NSet.del r k

/-- Adds or removes a number. -/
def NSet.set (s : NSet) (k : Nat) (b : Bool) : NSet := if b then NSet.put s k else NSet.del s k

/-- Byte memory: the bytes that are not 0, the sectors whose tag is 1, and the poisoned sectors. A sector is named by
its number, the address divided by 32 (R106). -/
structure Mem where
  cells : List Host.Cell := []
  tags : NSet := []
  poison : NSet := []
  deriving DecidableEq, Repr

/-- Memory before any write: every byte 0, every sector settled (R10, R248). -/
def Mem.empty : Mem := {}

/-- What a byte that nothing has written reads as (R10, R248).
[DESIGN CHOICE: log entry 8] -/
def Mem.unlisted : Byte := 0

/-- Strictly rising from a lower bound. -/
def risingFrom : Nat → List Nat → Bool
  | _, [] => true
  | b, k :: r => b ≤ k && risingFrom (k + 1) r

/-- The canonical form: addresses and sectors strictly rising, no listed byte equal to an unlisted one. -/
def Mem.wf (m : Mem) : Bool :=
  risingFrom 0 (m.cells.map Prod.fst) && m.cells.all (fun c => c.2 != Mem.unlisted)
    && risingFrom 0 m.tags && risingFrom 0 m.poison

/-- Reads one byte.
[DESIGN CHOICE: log entry 8] -/
def Mem.byte (m : Mem) (a : Nat) : Byte := (AMap.find m.cells a).getD Mem.unlisted

/-- Writes one byte; neither tags nor poison change. -/
def Mem.setByte (m : Mem) (a : Nat) (b : Byte) : Mem :=
  { m with cells := if b = Mem.unlisted then AMap.del m.cells a else AMap.put m.cells a b }

/-- Reads consecutive bytes, the lowest address first. -/
def Mem.bytes (m : Mem) (a : Nat) : Nat → List Byte
  | 0 => []
  | n + 1 => m.byte a :: m.bytes (a + 1) n

/-- Writes consecutive bytes; neither tags nor poison change. -/
def Mem.setBytes (m : Mem) (a : Nat) : List Byte → Mem
  | [] => m
  | b :: r => (m.setByte a b).setBytes (a + 1) r

/-- The tag of a sector (R106). -/
def Mem.tag (m : Mem) (sec : Nat) : Bool := m.tags.contains sec
/-- The poison mark of a sector (R321). -/
def Mem.poisoned (m : Mem) (sec : Nat) : Bool := m.poison.contains sec
/-- Sets the tag of a sector. -/
def Mem.setTag (m : Mem) (sec : Nat) (t : Bool) : Mem := { m with tags := NSet.set m.tags sec t }
/-- Sets the poison mark of a sector. -/
def Mem.setPoison (m : Mem) (sec : Nat) (t : Bool) : Mem := { m with poison := NSet.set m.poison sec t }
/-- Marks a sector poisoned; its tag becomes 1 too (R321). -/
def Mem.mark (m : Mem) (sec : Nat) : Mem := (m.setPoison sec true).setTag sec true

/-- The sectors that meet `n` bytes from address `a`. -/
def sectorsOf (a n : Nat) : List Nat :=
  if n = 0 then [] else List.range' (a / 32) ((a + n - 1) / 32 - a / 32 + 1)

/-- The tag of the data in a range: the OR of its sectors' tags (R109). -/
def Mem.tagOf (m : Mem) (a n : Nat) : Bool := (sectorsOf a n).any m.tag
/-- Whether some sector of a range is poisoned. -/
def Mem.poisonOf (m : Mem) (a n : Nat) : Bool := (sectorsOf a n).any m.poisoned

/-- The tag and poison rule of a write of `n` bytes at `a` for one sector: whole replacement takes the data's tag and
clears the mark; a partial write ORs the tag and leaves the mark (R107, R321). -/
def Mem.coverSector (a n : Nat) (t : Bool) (m : Mem) (sec : Nat) : Mem :=
  if a ≤ 32 * sec ∧ 32 * sec + 32 ≤ a + n then (m.setTag sec t).setPoison sec false
  else if t then m.setTag sec true else m

/-- A write of bytes with a data tag (R107). -/
def Mem.store (m : Mem) (a : Nat) (bs : List Byte) (t : Bool) : Mem :=
  (sectorsOf a bs.length).foldl (Mem.coverSector a bs.length t) (m.setBytes a bs)

/-- Bytes with a tag each, stored by the rule of R107 sector by sector. -/
def Mem.storeTagged (m : Mem) : (fuel a : Nat) → List Byte → List Bool → Mem
  | 0, _, _, _ => m
  | k + 1, a, data, tags =>
    let n := 32 - a % 32
    if data.isEmpty then m
    else Mem.storeTagged (m.store a (data.take n) ((tags.take n).any id)) k (a + n) (data.drop n) (tags.drop n)

/-- A little-endian number (R3). -/
def leNat : List Byte → Nat
  | [] => 0
  | b :: r => b.toNat + 256 * leNat r

/-- The `n` bytes of a number, little-endian (R3). -/
def leBytes : (n v : Nat) → List Byte
  | 0, _ => []
  | n + 1, v => BitVec.ofNat 8 v :: leBytes n (v / 256)

/-- A little-endian number in memory. -/
def Mem.num (m : Mem) (a n : Nat) : Nat := leNat (m.bytes a n)

/-- `n` bytes of a memory from address `a`, with their sectors' tags and marks, placed at address 0. `a` is a
multiple of 32. -/
def Mem.slice (m : Mem) (a n : Nat) : Mem :=
  { cells := (m.cells.filter fun c => a ≤ c.1 && c.1 < a + n).map fun c => (c.1 - a, c.2)
    tags := (m.tags.filter fun s => a / 32 ≤ s && s < (a + n + 31) / 32).map fun s => s - a / 32
    poison := (m.poison.filter fun s => a / 32 ≤ s && s < (a + n + 31) / 32).map fun s => s - a / 32 }

/-- Clears a range of whole sectors: bytes 0, settled, not poisoned. -/
def Mem.clear (m : Mem) (a n : Nat) : Mem :=
  { cells := m.cells.filter fun c => !(a ≤ c.1 && c.1 < a + n)
    tags := m.tags.filter fun s => !(a / 32 ≤ s && s < (a + n) / 32)
    poison := m.poison.filter fun s => !(a / 32 ≤ s && s < (a + n) / 32) }

/-- Puts a slice of `n` bytes at address `a`, replacing whole sectors with their tags and marks (R106). -/
def Mem.paste (m : Mem) (a n : Nat) (p : Mem) : Mem :=
  let c := m.clear a n
  { cells := (p.cells.filter fun x => x.1 < n && x.2 != Mem.unlisted).foldl (fun l x => AMap.put l (a + x.1) x.2) c.cells
    tags := (p.tags.filter fun s => 32 * s < n).foldl (fun l s => NSet.put l (a / 32 + s)) c.tags
    poison := (p.poison.filter fun s => 32 * s < n).foldl (fun l s => NSet.put l (a / 32 + s)) c.poison }

/-- The `n` bytes from address `a`, whole sectors, become those of a function, with tag 1 and no mark. -/
def Mem.fill (m : Mem) (a n : Nat) (f : Nat → Byte) : Mem :=
  { cells := (m.cells.filter fun c => c.1 < a)
      ++ (((List.range n).map fun i => (a + i, f i)).filter fun c => c.2 != Mem.unlisted)
      ++ m.cells.filter fun c => a + n ≤ c.1
    tags := (m.tags.filter fun s => s < a / 32) ++ List.range' (a / 32) (n / 32) ++ m.tags.filter fun s => (a + n) / 32 ≤ s
    poison := m.poison.filter fun s => !(a / 32 ≤ s && s < (a + n) / 32) }

end Sys2Proof
end

