-- ==== Sys2Proof/Machine/State.lean ====
section
/-! DEFINITION. The state of one Thrumong device with the memory of its domain, as plain data, and the state after
reset. A number field without a width is a count, an index, an address or an instant in ns of FTIME. -/

namespace Sys2Proof.Machine

open Sys2Proof

/-! ## Fibres (R84, R86) -/

/-- One 32-bit register lane with its tag and full/empty bits (R86). -/
structure Reg where
  val : Word
  tag : Bool
  full : Bool
  deriving DecidableEq, Repr

/-- What every span register holds when a team starts (R89).
[DESIGN CHOICE: log entry 85] -/
def Reg.zero : Reg := ⟨0, false, true⟩

/-- A guard range: predicate, negation, words still to cover (R60, R64). -/
structure Guard where
  q : PredF
  neg : Bool
  left : Nat
  deriving DecidableEq, Repr

/-- A bound stream pattern register (R96, R282). `got` is the next element with its sectors' tag, once its load
returned; a word that pops it takes it. -/
structure Stream where
  slot : RegF
  src : DWord
  stride : Word
  count : Word
  sz : BitVec 3
  pos : Nat
  got : Option (DWord × Bool) := none
  deriving DecidableEq, Repr

/-- The hints of the unit in progress that act on its target (R60). -/
structure Hints where
  limm : Option (BitVec 22) := none
  /-- the subnormal choice, RV and the mode of an RND hint -/
  rnd : Option (BitVec 2 × Bool × BitVec 2) := none
  sat : Bool := false
  deriving DecidableEq, Repr

/-- The horizon class of a scope (R231). -/
inductive Horizon where
  | core | die | all
  deriving DecidableEq, Repr

/-- What a parked fibre waits for (R162).
[DESIGN CHOICE: log entry 11] -/
inductive Wake where
  /-- registers of its span, by number, that must be full (R59, R92) -/
  | regs (ix : List Nat)
  /-- an instruction line of its code object (R191) -/
  | fetch (line : Nat)
  /-- a stash line that is absent (R219) -/
  | stash (line : Nat)
  /-- stash lines into which no copy may be in flight, and write-backs to be acknowledged (R218) -/
  | window (first count : Nat)
  /-- FENCE, STREL, wider atomic, LAUNCH: the wait of a class, and the values due to some fibres, those of the waiting
  braid (R231, R232) -/
  | fence (k : Horizon) (ls : List Nat)
  /-- the element of a stream register, whose load is in flight (R282) -/
  | element (n : Nat)
  /-- the value of an LDACQ or a wider atomic (R233) -/
  | acquire (msg : Nat)
  /-- WCHK (R238) -/
  | watch
  /-- MWAIT, or an engine word whose ticket is pending (R274) -/
  | ticket (t : Nat) (mwait : Bool)
  /-- TFENCE (R305) -/
  | arithmetic
  /-- MRDY of a block as it read it at issue (R278, R399) -/
  | operands (block : List Byte)
  /-- BWAIT on the object at a stash address (R289) -/
  | barrier (obj : Nat)
  /-- TBAR (R424) -/
  | team
  /-- CWAIT: the launches numbered below (R370) -/
  | children (below : Nat)
  /-- LAUNCH on a full device-side queue (R197) -/
  | launchQueue
  /-- LAUNCH or LAUNCHT over several chips (R178, R391) -/
  | span (launch : Nat)
  /-- IINV of other devices' caches, by its number (R244, R388) -/
  | invalidated (id : Nat)
  /-- as the lane for which a word takes effect in its braid -/
  | follow (lane : Nat)
  deriving DecidableEq, Repr

/-- How far a convergence point reaches (R169, R170, R302). -/
inductive Extent where
  | tile | crew | frame
  deriving DecidableEq, Repr

/-- The state of a fibre slot; Frozen and Evicted keep it beneath them (R162). -/
inductive FibreState where
  | free
  | ready
  | parked (w : Wake)
  | converging (e : Extent)
  | ended
  deriving DecidableEq, Repr

/-- What the unit in progress has already done for a fibre whose braid waits.
[DESIGN CHOICE: log entry 11] -/
inductive Did where
  /-- its write-backs are sent (R218, R365) -/
  | sent
  /-- its IINV was told to other devices, by its number (R388) -/
  | told (id : Nat)
  /-- its child launch awaits the other chips of its span (R391) -/
  | child (launch : Nat)
  /-- its child launch was accepted, or refused (R391, R392) -/
  | launched
  | refused
  /-- its MMA passed the test of the ready block and cleared it; the block with its tag, copied at issue (R272, R278) -/
  | armed (bytes : List Byte) (tag : Bool)
  /-- the record that its MRDY, WBLD or DCOR copied at issue, with its tag (R272) -/
  | copied (bytes : List Byte) (tag : Bool)
  deriving DecidableEq, Repr

/-- Fibres whose point of convergence, or whose split, is complete: they perform their words together whoever joins the
tile meanwhile (R169, R170). -/
structure Due where
  lanes : List Nat
  split : Bool
  deriving DecidableEq, Repr

/-- One lane slot of a crew: the fibre's own state (R84) and its span of the lane's registers (R86).
[DESIGN CHOICE: log entry 85] -/
structure Lane where
  state : FibreState := .free
  /-- the crew is in a handler and this fibre is not in EMASK (R301) -/
  frozen : Bool := false
  pc : Word := 0
  wbase : Nat := 0
  /-- q0-q14; bit 15 is never read (R85) -/
  preds : BitVec 16 := 0
  ptags : BitVec 16 := 0
  taint : Bool := false
  fstat : BitVec 8 := 0
  /-- F8SAT is 1 at reset (R101) -/
  fmode : BitVec 5 := 16
  ftrapen : BitVec 8 := 0
  streams : AMap Stream := []
  guard : Option Guard := none
  /-- the span registers that differ from `Reg.zero` may be listed; the others hold `Reg.zero` (R89) -/
  regs : AMap Reg := []
  /-- the registers that hold a poisoned tile (R334) -/
  spoilt : NSet := []
  hints : Hints := {}
  did : Option Did := none
  /-- a point of convergence, or a split, that an end of fibres or a return completed: its fibres issue again (R169) -/
  due : Option Due := none
  /-- PC of the first word of the unit in progress (R63) -/
  ustart : Word := 0
  /-- the guard range as it stood before the unit's first word (R103) -/
  guard0 : Option Guard := none
  /-- R198 -/
  age : Nat := 0
  waits : Nat := 0
  passes : Nat := 0
  deriving DecidableEq, Repr

/-! ## Braids and crews -/

/-- A braid: its fibres, the words of the unit it has begun and how many of them it has issued (R63, R165). -/
structure Braid where
  lanes : List Nat
  unit : List Word := []
  issued : Nat := 0
  /-- the cycle before which SCHED or YIELD holds it (R387) -/
  stall : Nat := 0
  /-- the unit holds a SCHED with YIELD -/
  yield : Bool := false
  /-- the cycle after that of its latest word, within a unit (R63) -/
  last : Nat := 0
  deriving DecidableEq, Repr

/-- A trap frame (R98, R99, R103). The fibres of a braid share one PC but may hold different guard ranges, since a
regroup forms braids by PC alone (R165): a frame holds a range for each fibre of EMASK, and EINFO shows that of the
lowest. -/
structure Frame where
  epc : Word
  cause : BitVec 8
  mask : BitVec 32
  word : Word
  adv : Bool
  ulen : BitVec 3
  /-- the guard range after the unit, of each fibre of EMASK: GACT, GCNT, GQ, GNEG -/
  after : AMap (Option Guard)
  /-- the guard range at the unit's start, of each fibre of EMASK -/
  before : AMap (Option Guard)
  eaddr : DWord
  /-- saved window base of each fibre of EMASK -/
  bases : AMap Nat
  deriving DecidableEq, Repr

/-- The state of a watch entry (R235). -/
inductive WatchState where
  | pending | confirmed | struck
  deriving DecidableEq, Repr

/-- An entry of the watch table (R235, R237, R267). -/
structure WatchEntry where
  /-- a number of its own, so that a reply meant for an entry of the past is known -/
  id : Nat
  line : Nat
  mask : BitVec 32
  state : WatchState
  /-- none while the entry rests on a read at the home -/
  stamp : Option (BitVec 16)
  epoch : Nat
  created : Nat
  fver : BitVec 16
  /-- context-independent name of the frame: object and frame index -/
  obj : Nat
  frame : Nat
  deriving DecidableEq, Repr

/-- Who waits for a ticket's operation (R274, R305), and whether that fibre has ended (R382). -/
structure Ticket where
  lane : Nat
  gone : Bool := false
  deriving DecidableEq, Repr

/-- A crew (R98, R156, R173, R227, R274, R278). -/
structure Crew where
  lanes : AMap Lane := []
  braids : List Braid := []
  part : Nat := 5
  prio : BitVec 4 := 0
  /-- the trap stack, top first -/
  frames : List Frame := []
  /-- watch table: slot 0-31 -/
  watch : AMap WatchEntry := []
  /-- the pending tickets; a ticket not listed is idle -/
  tickets : AMap Ticket := []
  ready : Option Nat := none
  /-- the block as the MRDY of the ready block read it (R399) -/
  readyBlock : List Byte := []
  /-- tickets with a pending mismatch report, each with its first tile -/
  mismatch : AMap Nat := []
  /-- the registers (lane, span number) that an MMA names, by ticket, until the MWAIT of its ticket (R242) -/
  named : AMap (List (Nat × Nat)) := []
  /-- and the regions of the tensor buffer: offset and length -/
  namedBuf : AMap (List (Nat × Nat)) := []
  unacked : Nat := 0
  gdie : Nat := 0
  gall : Nat := 0
  /-- a second copy of every register is kept -/
  mirror : Bool := false
  deriving DecidableEq, Repr

/-- A weight descriptor that WBLD made valid (R279). -/
structure WDesc where
  woff : Nat
  k : Nat
  n : Nat
  fmt : BitVec 4
  sp24 : Bool
  /-- the tag of the WBLD block (R426) -/
  btag : Bool
  deriving DecidableEq, Repr

/-! ## Launches (R159, R177-R179, R186-R189) -/

/-- A launch parameter block (R159). -/
structure Block where
  code : DWord
  entry : Word
  cores : Bool
  gx : Nat
  gy : Nat
  gz : Nat
  nfib : Nat
  part : Nat
  span : Nat
  stash : Nat
  tensor : Nat
  fmode : BitVec 5
  ftrapen : BitVec 8
  trapvec : Word
  emuvec : Word
  args : DWord
  argLen : Nat
  nchip : Nat
  chips : DWord
  deriving DecidableEq, Repr

/-- The entry of a device-side launch queue (R196). -/
inductive QEntry where
  | general
  | reserved (depth : Nat)
  deriving DecidableEq, Repr

/-- Where a launch came from. -/
inductive Source where
  | host (ctx q slot : Nat) (cookie : Word)
  | team (parent die : Nat) (entry : QEntry) (lane : Nat)
  /-- accepted by another device, which leads the span -/
  | span (chip0 : Nat)
  deriving DecidableEq, Repr

/-- The progress of a launch. -/
inductive Phase where
  /-- chip 0 awaits READY; the chips still to answer and the deadline (R178, R179) -/
  | asking (waiting : List Nat) (deadline : Nat)
  /-- a chip that answered READY -/
  | answered
  /-- START carried Tstart (R178) -/
  | armed (tstart : Nat)
  | running
  /-- chip 0 awaits STOPPED (R325) -/
  | stopping (waiting : List Nat) (deadline : Nat) (status : Nat)
  /-- its teams are stopped and writes that they made are still to be performed (R188) -/
  | ending (status : Nat)
  | done (status : Nat)
  deriving DecidableEq, Repr

/-- A launch. -/
structure Launch where
  ctx : Nat
  gen : Word
  block : Block
  depth : Nat
  source : Source
  phase : Phase
  chips : List Nat
  /-- code bytes read at acceptance, from ENTRY (R189) -/
  code : List Byte
  /-- argument bytes and sector tags read at acceptance (R161) -/
  args : List Byte
  argTags : List Bool
  argPoison : List Bool
  /-- team indices waiting for a core, and evicted teams by their own number (R193, R195) -/
  pending : List Nat
  evicted : List Nat := []
  lastCore : Nat := 319
  retired : Nat := 0
  /-- the other chips whose teams have all retired -/
  away : NSet := []
  deriving DecidableEq, Repr

/-! ## Cores -/

/-- A leased copy of a line (R223, R260). -/
structure Copy where
  data : Mem
  /-- the halves that are valid (R260) -/
  half0 : Bool := true
  half1 : Bool := true
  /-- expiry; none under an IMM object's lease (R431) -/
  expiry : Option Nat
  granted : Nat
  /-- the place in the home's order of the read that gave its data (R226) -/
  perf : Nat := 0
  /-- the bytes it took since, in whatever order their replies came: offset, length and place in the home's order -/
  took : List (Nat × Nat × Nat) := []
  version : BitVec 16
  epoch : Nat
  ctx : Nat
  obj : Nat
  deriving DecidableEq, Repr

/-- A word of an instruction cache: context, object, offset and the word (R189, R244). -/
structure IWord where
  ctx : Nat
  obj : Nat
  off : Nat
  word : Word
  deriving DecidableEq, Repr

/-- An operation queued on a core's matrix array (R124, R278). -/
structure MatOp where
  team : Nat
  crew : Nat
  lane : Nat
  dcor : Bool
  addr : Nat
  /-- the block's bytes at issue and the tag of its sectors -/
  bytes : List Byte
  tag : Bool
  /-- guard tag, taint and address tag at issue (R123) -/
  gtag : Bool
  taint : Bool
  atag : Bool
  ticket : Nat
  /-- a write fell on the block or a region (R125) -/
  race : Bool
  /-- the window base of each lane at issue (R277) -/
  bases : AMap Nat
  /-- operands touched in breach of R242 -/
  breach : Bool
  /-- its number among messages and jobs, the weight descriptor it reads, or the WBLD it waits for first (R278) -/
  seq : Nat
  desc : Option WDesc
  after : Option Nat
  deriving DecidableEq, Repr

/-- A core (R12, R98, R200). -/
structure Core where
  cycle : Nat := 0
  /-- the quadrant whose turn it is within the cycle -/
  quadrant : Nat := 0
  regroupDue : Bool := true
  copies : AMap Copy := []
  icache : List IWord := []
  kick : Word := 0
  /-- BANKROLE: the stash and tensor counts of the first team; none while it holds no team (R214) -/
  roles : Option (Nat × Nat) := none
  mats : List MatOp := []
  offline : Bool := false
  /-- the due time of the next Onyx slice and its number (R200) -/
  onyxDue : Nat := 37500000000
  /-- after a lapse, the instant at which the next slice falls due -/
  onyxFree : Nat := 0
  onyxSlice : Nat := 0
  /-- the due time since which it is withheld -/
  withheld : Option Nat := none
  /-- the instant at which the running slice began -/
  testing : Option Nat := none
  deriving DecidableEq, Repr

/-! ## Contexts and queues -/

/-- CTX_STATE (R341). -/
inductive CtxState where
  | free | active | faulted | resetting
  deriving DecidableEq, Repr

/-- A programmable scope entry as derived (R230): class, members by device and cores. -/
structure ScopeEntry where
  horizon : Horizon
  members : List (Nat × List Nat)
  deriving DecidableEq, Repr

/-- A command queue (R184, R433). -/
structure Queue where
  ring : DWord := 0
  cpl : DWord := 0
  en : Bool := false
  irq : Bool := false
  log2n : Nat := 0
  qprio : Nat := 0
  tail : Nat := 0
  head : Nat := 0
  /-- completions held until EN is set again: slot, cookie, status, generation -/
  held : List (Nat × Word × Nat × Word) := []
  /-- g_all of the host writes that reached the device before the latest doorbell (R245) -/
  posted : Nat := 0
  deriving DecidableEq, Repr

/-- A context (R98, R344). -/
structure Context where
  state : CtxState := .free
  otab : Nat := 0
  otsize : Nat := 0
  classen : BitVec 8 := 0
  save : Nat := 0
  savelen : Nat := 0
  scope : Nat := 0
  cring : DWord := 0
  crlen : Nat := 0
  crpos : Nat := 0
  diag : Bool := false
  /-- allotted cores; empty means all (R344) -/
  allot : List Nat := []
  steer : Bool := false
  lease : Nat := 256
  /-- entries 7-31 (R229) -/
  scopes : AMap ScopeEntry := []
  gens : Word := 0
  queues : AMap Queue := []
  /-- MSI-X table words (R341) -/
  msix : AMap Word := []
  deriving DecidableEq, Repr

/-- A command record fetched and not yet executed (R185, R186). -/
structure Record where
  ctx : Nat
  q : Nat
  slot : Nat
  bytes : List Byte
  /-- accepted no earlier than this instant (R245) -/
  ready : Nat
  deriving DecidableEq, Repr

/-! ## Directory (R253) -/

/-- R254. -/
inductive DirState where
  | I | S | E | O | M | migrating
  deriving DecidableEq, Repr

/-- The owner of a line: a team slot of a core of a device (R253). -/
structure Owner where
  dev : Nat
  core : Nat
  slot : Nat
  deriving DecidableEq, Repr

/-- HOSTH of one half (R260). -/
inductive HostHold where
  | HI | HS | HE
  deriving DecidableEq, Repr

/-- A directory entry (R253). -/
structure DirEntry where
  state : DirState := .I
  owner : Option Owner := none
  sha : NSet := []
  shb : NSet := []
  remote : Bool := false
  host0 : HostHold := .HI
  host1 : HostHold := .HI
  hnear : Nat := 0
  hfar : Nat := 0
  version : BitVec 16 := 0
  deriving DecidableEq, Repr

/-! ## Messages in flight and engine operations -/

/-- What one fibre takes from a line it reads. -/
structure Part where
  lane : Nat
  /-- destination span registers; none for a register `z` -/
  dest : List (Option Nat)
  /-- offset within the line, size in bytes, sign extension -/
  off : Nat
  size : Nat
  signed : Bool
  /-- guard, taint and address tag at issue (R109, R112) -/
  tag : Bool
  cap : DWord
  /-- the stream register whose next element it is (R282) -/
  stream : Option Nat := none
  deriving DecidableEq, Repr

/-- One fibre's atomic on a line (R268). -/
structure AtomPart where
  lane : Nat
  dest : List (Option Nat)
  off : Nat
  size : Nat
  op : BitVec 3
  v : DWord
  cmp : DWord
  /-- address tag, guard, taint -/
  tag : Bool
  vtag : Bool
  ctag : Bool
  /-- D = V: exchange (R75) -/
  xchg : Bool
  deriving DecidableEq, Repr

/-- The unit that issued a request, for a reissue (R312). -/
structure Origin where
  team : Nat
  crew : Nat
  core : Nat
  pc : Word
  word : Word
  ulen : BitVec 3
  before : AMap (Option Guard)
  after : AMap (Option Guard)
  /-- number shared by the requests of one word -/
  uid : Nat
  deriving DecidableEq, Repr

/-- Who asked for a write, and what waits for its acknowledgement. -/
inductive Writer where
  | crew (team crew core : Nat) (lanes : List Nat) (uid : Nat)
  /-- a stash write-back by a word of a crew -/
  | window (team crew core : Nat)
  /-- a drain write-back -/
  | drain (team core : Nat)
  deriving DecidableEq, Repr

/-- What kind of load a request is. -/
inductive LoadKind where
  | plain
  /-- LDACQ at a scope; no lease -/
  | acquire
  /-- LDSP miss; the slot and number of the watch entry it created, if any -/
  | spec (entry : Option (Nat × Nat))
  deriving DecidableEq, Repr

/-- A message in flight. Lines and addresses are internal physical addresses, a line being the address divided
by 128 (R210). -/
inductive Msg where
  /-- an instruction-line miss at a fetch agent (R191); `skip` are cores at which an IINV discards it (R244) -/
  | fill (die ctx obj off addr : Nat) (skip : List Nat)
  | read (o : Origin) (line obj : Nat) (kind : LoadKind) (parts : List Part)
  /-- data from the home, with the copy to install if a lease was granted (R223) -/
  | readReply (o : Origin) (line obj : Nat) (kind : LoadKind) (parts : List Part) (data : Mem) (copy : Option Copy)
      (times : Nat × Nat) (perf : Nat)
  | write (w : Writer) (addr : Nat) (data : List Byte) (tag : Bool)
  /-- a stash line written home whole (R218, R220, R365); `leave`: it ceases to be owned -/
  | back (w : Writer) (line : Nat) (data : Mem) (leave : Bool)
  /-- acknowledgement with g_near or g_all by die and g_all (R226, R227); `failed` by R347; `perf` orders what the home
  performed for a line -/
  | ack (w : Writer) (addr : Nat) (data : List Byte) (tag : Bool) (near all : Nat) (failed : Bool) (stamp : BitVec 16)
      (perf : Nat)
  /-- the same for a line written home whole -/
  | backAck (w : Writer) (line : Nat) (data : Mem) (near all : Nat) (failed : Bool) (perf : Nat)
  | atomic (o : Origin) (line : Nat) (wider pdef : Bool) (parts : List AtomPart)
  /-- old values; `left` are the bytes the atomic left at their place in the line, with their tag (R226) -/
  | atomicReply (o : Origin) (line : Nat) (wider : Bool)
      (vals : List (Nat × List (Option Nat) × DWord × Bool)) (left : List (Nat × List Byte × Bool)) (times : Nat × Nat)
      (poison : Bool) (perf : Nat)
  /-- a value that a load found at issue, or an atomic of the stash bank returned, on its way to a fibre (R92, R394) -/
  | held (o : Origin) (lane : Nat) (dest : List (Option Nat)) (val : BitVec 128) (tag atom : Bool)
  /-- acknowledgement to a core of bytes that its engine, a recall or a drain wrote (R226) -/
  | engineAck (core line off : Nat) (data : List Byte) (tags : List Bool) (perf : Nat)
  /-- results of a divider, a special-function unit, or FTIME (R372, R378, R384) -/
  | division (team crew : Nat) (vals : List (Nat × List (Option Nat) × DWord × Bool)) (dz : List Nat)
  | special (team crew : Nat) (vals : List (Nat × List (Option Nat) × DWord × Bool)) (flags : List (Nat × BitVec 8))
  | ftime (team crew : Nat) (lanes : List (Nat × List (Option Nat) × Bool))
  | dirty (line dev core slot : Nat)
  | check (team crew entry id line : Nat) (stamp : BitVec 16) (epoch : Nat)
  | checkReply (team crew entry id : Nat) (ok : Bool)
  /-- a stash-window line fill (R219) -/
  | stashFill (team line addr : Nat)
  deriving DecidableEq, Repr

/-- A rank of a collective on this device (R292). -/
structure Rank where
  team : Nat
  crew : Nat
  lane : Nat
  dev : Nat
  core : Nat
  bytes : List Byte
  addr : Nat
  gtag : Bool
  bar : Nat
  /-- the tag of its block -/
  btag : Bool
  /-- contribution of a rank on another device -/
  remote : Option RemoteRank
  /-- the bytes of its source with their tags, once read -/
  got : Option (List Byte × List Bool)
  /-- the cause of R204 that its capabilities raise; 0 when none -/
  cause : BitVec 8 := 0
  /-- FSTAT bits gathered for RPT -/
  flags : BitVec 8 := 0
  /-- the number at which it joined -/
  issued : Nat := 0
  deriving DecidableEq, Repr

/-- A request list in flight (R287, R390). -/
structure CopyRun where
  team : Nat
  crew : Nat
  core : Nat
  /-- the list, and the object B0 of its first record as KICK read it -/
  addr : Nat
  b0 : Nat
  /-- the tag of KICK's sources -/
  tag : Bool
  /-- the records with their tags, read once after the wait of R273 -/
  recs : Option (List (List Byte × Bool)) := none
  idx : Nat := 0
  chunk : Nat := 0
  /-- the writes not yet counted: chunk, g_all, bytes -/
  uncounted : List (Nat × Nat × Nat) := []
  flags : BitVec 8 := 0
  /-- the record has begun -/
  started : Bool := false
  /-- the FSTATE code, the FADDR and the chunk of the fault that stopped it -/
  short : Option (Nat × DWord × Nat) := none
  deriving DecidableEq, Repr

/-- A collective in flight (R292, R293): what has joined, the chunks sent and acknowledged, and the writes not yet counted
(rank, g_all, bytes). -/
structure CollRun where
  ctx : Nat
  members : List (Nat × List Nat)
  ranks : List Rank
  sent : List Nat := []
  acked : List Nat := []
  uncounted : List (Nat × Nat × Nat) := []
  /-- a rank was stopped -/
  lost : Bool := false
  /-- the ports that failed since it last formed its ring or tree -/
  broken : List Nat := []
  deriving DecidableEq, Repr

/-- An engine operation in flight (R283-R293). -/
inductive Job where
  | copy (r : CopyRun)
  | chain (team crew core : Nat) (addr : Nat) (bytes : List Byte) (tag : Bool) (chunk : Nat)
      (uncounted : List (Nat × Nat × Nat)) (flags : BitVec 8) (short : Option (Nat × DWord × Nat))
  | wbld (team crew lane : Nat) (addr : Nat) (bytes : List Byte) (tag : Bool) (ticket : Nat)
  | coll (r : CollRun)
  /-- a report, or with code 0 a count of bytes, that awaits the line of its barrier object (R219, R368) -/
  | notice (team bar code bytes seq : Nat)
  deriving DecidableEq, Repr

/-! ## Teams -/

/-- A stash window (R217, R218). -/
structure Window where
  cap : DWord
  first : Nat
  count : Nat
  tag : Bool
  deriving DecidableEq, Repr

/-- What eviction saves, rollback restores and a running team uses (R311, R331). -/
structure Body where
  crews : AMap Crew := []
  trapvec : Word := 0
  emuvec : Word := 0
  stash : Mem := Mem.empty
  /-- stash lines that are not present (R217) -/
  absent : NSet := []
  /-- dirty stash lines (R217) -/
  dirty : NSet := []
  windows : AMap Window := []
  /-- FADDR of the fault a barrier object reports, by its address (R362) -/
  faultAddr : AMap DWord := []
  /-- tensor operand buffer (R213) -/
  tensor : Mem := Mem.empty
  deriving DecidableEq, Repr

/-- R173. -/
inductive TeamState where
  | starting | running | draining | retired | evicted
  deriving DecidableEq, Repr

/-- A team (R156, R161, R173). -/
structure Team where
  launch : Nat
  index : Nat
  core : Nat := 0
  slot : Nat := 0
  state : TeamState := .starting
  body : Body := {}
  /-- the team slot's region of the weight buffer and its 16 descriptors (R279) -/
  weights : Mem := Mem.empty
  wdescs : AMap WDesc := []
  /-- child launches not yet retired (R176, R370) -/
  children : Nat := 0
  /-- checkpoint shadow (R331), with the messages then in flight to its fibres (R312) -/
  shadow : Option Body := none
  shadowLoads : AMap Msg := []
  /-- the number of the next message or operation when the shadow was taken: operations of smaller numbers act on it
  too (R332, R333) -/
  shadowSeq : Nat := 0
  /-- stash lines recalled for write since the checkpoint (R332) -/
  recalled : NSet := []
  /-- abandoned loads that the restored team issues again (R312) -/
  owed : List Msg := []
  /-- n(T) (R332) -/
  rollbacks : Nat := 0
  /-- the team consumed an uncorrectable error and waits to roll back (R322) -/
  consumed : Bool := false
  /-- latest g_all of what the team wrote (R175) -/
  gall : Nat := 0
  /-- the launch packet arrived (R189) -/
  packet : Bool := false
  /-- the slots and banks went back to the core (R174) -/
  drained : Bool := false
  /-- the instant eviction began: plain loads hit only later copies (R244) -/
  evictedAt : Nat := 0
  /-- stash lines recalled while the team was evicted (R221) -/
  recalledAway : NSet := []
  /-- where the save area holds its record and its stash, and how many bytes (R310, R311) -/
  saved : Option (Nat × Nat) := none
  /-- software wrote to the saved record (R311) -/
  meddled : Bool := false
  deriving DecidableEq, Repr

/-! ## Device -/

/-- A machine-check bank (R326, R327). -/
structure Bank where
  status : DWord := 0
  addr : DWord := 0
  info : DWord := 0
  ctl : BitVec 3 := 5
  ccount : Nat := 0
  kcount : Nat := 0
  fcount : Nat := 0
  deriving DecidableEq, Repr

/-- A record of the event log (R350). -/
structure LogRecord where
  index : Nat
  ftime : Nat
  kind : Nat
  bank : Nat
  regs : List DWord
  deriving DecidableEq, Repr

/-- An access counter (R212), the least recently incremented first in its list. -/
structure Counter where
  die : Nat
  ctx : Nat
  obj : Nat
  frame : Nat
  dev : Nat
  count : Nat
  deriving DecidableEq, Repr

/-- A claimed entry of a die's launch queue, and the launch that holds it once accepted (R196). -/
structure Claim where
  die : Nat
  entry : QEntry
  launch : Nat
  deriving DecidableEq, Repr

/-- A waiting launcher (R197); the claim a wake gave it. -/
structure Waiter where
  die : Nat
  team : Nat
  crew : Nat
  lanes : List Nat
  depth : Nat
  given : Option QEntry
  deriving DecidableEq, Repr

/-- A page motion in progress (R262-R267). -/
structure Motion where
  ctx : Nat
  obj : Nat
  frame : Nat
  /-- internal physical addresses of the two frames, and the new LOC -/
  src : Nat
  dst : Nat
  loc : Nat
  /-- the descriptor when the motion began, and its address -/
  word : DWord
  place : Nat
  /-- the round's snapshot: all ones, or the listed lines; and the bitmap of lines written since -/
  all : Bool
  snap : NSet
  bits : NSet
  rounds : Nat
  frozen : Bool
  migrating : NSet
  deriving DecidableEq, Repr

/-- A firmware bank (R351). -/
structure Firmware where
  image : List Byte := []
  svn : Nat := 0
  valid : Bool := false
  deriving DecidableEq, Repr

/-- A denial of access by a table (R348): three bits R, W, C for a block and master class. -/
abbrev AccessTables := List (Nat × Nat × BitVec 3)

/-- A collective that a rank of a launch has completed: its core, CTL and SEQ, and the set of its members (R333). -/
structure DoneColl where
  launch : Nat
  members : List (Nat × List Nat)
  core : Nat
  ctl : Word
  seq : Word
  deriving DecidableEq, Repr

/-- A physical upset that the next word to issue meets (R319, R320, R322, R323).
[DESIGN CHOICE: log entry 84] -/
inductive Upset where
  | timing
  /-- a residue check fails once, or twice -/
  | residue (twice : Bool)
  /-- parity of a register of the issuing fibre; both copies when the mirror fails too -/
  | parity (both : Bool)
  deriving DecidableEq, Repr

/-- The braid that is issuing (R198, R199). -/
structure Cur where
  team : Nat := 0
  crew : Nat := 0
  lanes : List Nat := []
  /-- the words of the unit -/
  unit : List Word := []
  /-- the word found an empty source or an absent instruction, so that no word issued (R59, R198) -/
  starved : Bool := false
  deriving DecidableEq, Repr

/-- What stands outside the device when a row of the table takes it up: the direction in which the die-to-die link fails
(0 is A to B), what each sensor would read, whether the next SPDM request comes over DOE, and the physical errors of lines
that no event names.
[DESIGN CHOICE: log entries 5 and 88] -/
structure Outside where
  dieDir : Nat := 0
  readings : AMap Nat := []
  doe : Bool := false
  /-- by line, what the next access that touches it at its home meets (R329, R336) -/
  errs : AMap MemErr := []
  deriving DecidableEq, Repr

/-- A buffer of a team whose words are checked (R318). -/
inductive Buffer where
  | stash | tensor | weights
  deriving DecidableEq, Repr

/-- What may happen to the device and is no row of the opcode table: reads of its registers and memory, Jasper's writes
of the routing table, and physical errors outside the accesses of a line.
[DESIGN CHOICE: log entries 5 and 84] -/
inductive Act where
  /-- a master reads a register (R6, R341, R348) -/
  | registerRead (m : Master) (r : ReadReg)
  /-- the host or a PCI Express peer reads device memory (R321) -/
  | hostRead (addr n : Nat)
  /-- Jasper writes an entry of the routing table (R346) -/
  | routeWrite (dev : Nat) (ports : List (Nat × Bool))
  /-- wrong bits of an 8-byte word of a team's buffer (R318) -/
  | bufferError (team : Nat) (b : Buffer) (word : Nat) (bits : List Nat)
  /-- wrong bits of an 8-byte word of a copy in the L1 banks (R318) -/
  | copyError (core line word : Nat) (bits : List Nat)
  /-- wrong bits of the instruction line that holds a kept word (R318) -/
  | codeError (core index : Nat) (bits : List Nat)
  /-- wrong bits of a directory entry (R318, R329) -/
  | directoryError (line : Nat) (bits : List Nat)
  /-- the die-to-die link replays; direction 0 is A to B (R318, R329) -/
  | d2dReplay (dir : Nat)
  /-- a physical upset that the next word to issue meets (R319, R320, R322, R323) -/
  | upset (u : Upset)
  /-- parity of a message on the die network fails (R318) -/
  | networkError (k : Nat)
  /-- the surroundings change -/
  | outside (x : Outside)
  deriving DecidableEq, Repr

/-- What a master was told (R6, R321, R348). -/
inductive Answer where
  | value (v : DWord)
  /-- Unsupported Request -/
  | unsupported
  /-- bytes of memory, and whether they carry poison -/
  | data (bytes : List Byte) (poison : Bool)
  /-- a response of SPDM over DOE (R352) -/
  | response (bytes : List Byte)
  deriving DecidableEq, Repr

/-- Whose turn is next: an event, a core, or the passing of time. The agenda stands for what the manual leaves to
the instant at which things happen. -/
inductive Turn where
  | event (i : Instr)
  | core (c : Nat)
  | advance (ns : Nat)
  | act (a : Act)
  deriving DecidableEq, Repr

/-- The mailbox (R342).
[DESIGN CHOICE: log entry 7] -/
structure Mailbox where
  /-- MB_REQ: the bytes up to the last that is not 0 may be listed -/
  req : List Byte := []
  busy : Bool := false
  result : Nat := 0
  /-- who wrote MB_GO -/
  asker : Master := .host
  deriving DecidableEq, Repr

/-- The state of the machine. -/
structure State where
  /-- memory of the domain, and of the host beyond 2^57 (R210) -/
  mem : Mem
  /-- supplied by the device (R98) -/
  ftime : Nat
  clkA : Nat
  clkB : Nat
  chipno : Nat
  cores : AMap Core
  ctxs : AMap Context
  launches : AMap Launch
  teams : AMap Team
  /-- directory entries by line (R253) -/
  dir : AMap DirEntry
  /-- floors of the slices: Hnear and Hfar (R225) -/
  floors : AMap (Nat × Nat)
  /-- how often the version of a line became unknown or wrapped (R236) -/
  epochs : AMap Nat
  /-- lines held by the last-level cache (true: dirty) (R336) -/
  llc : AMap Bool
  /-- spare lanes used, by 17 times the DRAM die plus the group (R336) -/
  spares : AMap Nat
  counters : List Counter
  claims : List Claim
  waiters : List Waiter
  /-- the context last served by each command processor, and the queue last served of each context (R185) -/
  served : AMap Nat
  lastQueue : AMap Nat
  records : AMap Record
  motion : Option Motion
  banks : AMap Bank
  log : List LogRecord
  logNext : Nat
  mailbox : Mailbox
  fwA : Firmware
  fwB : Firmware
  /-- the running bank is B; the bank marked to boot; minimum SVN; held in reset (R351) -/
  fwRunB : Bool
  fwMark : Option Bool
  minSvn : Nat
  held : Bool
  access : AccessTables
  /-- MSI-X vectors raised: function and vector (R341) -/
  irqs : List (Nat × Nat)
  /-- the routing table: the ports of a device, and whether each works (R346); see `State.portsOf` -/
  routes : AMap (List (Nat × Bool))
  hostUp : Bool
  hostRate : Nat
  hostWidth : Nat
  /-- g_all of every host write so far (R245) -/
  hostGall : Nat
  /-- a fatal event stopped every context (R324) -/
  fatal : Bool
  /-- sensors past their limit at the last sample, and what the sensors last read (R349) -/
  hot : List Nat
  sensors : AMap Nat
  /-- the die-to-die link has failed (R324, R329) -/
  split : Bool
  /-- what masters were told, the latest last -/
  answers : List (Master × Answer)
  msgs : AMap Msg
  jobs : AMap Job
  doneColls : List DoneColl
  /-- messages received from, and sent to, other devices of the domain (R346) -/
  linkIn : AMap LinkMsg
  linkOut : List (Nat × LinkMsg)
  /-- what the side-band port and the host were told: SPDM responses and fatal signals (R324, R352) -/
  sideband : List (List Byte)
  /-- back-invalidation snoops outstanding: line, half, and whether they invalidate (R260) -/
  snoops : List (Nat × Nat × Bool)
  /-- host requests not yet answered: line, half, exclusive, and the instant from which they may be (R258, R260) -/
  hostWaits : List (Nat × Nat × Bool × Nat)
  /-- IINVs that devices have still to answer, by number (R388) -/
  iinvs : AMap (List Nat)
  /-- recalls sent to owners on other devices and not answered: line, and whether for write (R220) -/
  recalls : List (Nat × Bool)
  /-- records of access counters that wait for their ring's home (R212) -/
  ringDue : List (Nat × List Byte)
  /-- the model's own fields: the oracle, the issuing braid, the next number for messages, jobs, teams and launches,
  the counter of free values, pending upsets, and the surroundings -/
  agenda : List Turn
  cur : Cur
  next : Nat
  freeCtr : Nat
  upsets : List Upset
  outside : Outside
  deriving DecidableEq, Repr

/-- Nothing stops the machine with a fault: every fault of the manual is a trap, which is a next state (R295), or a
machine check (R324). The type is empty, which is safe. -/
inductive Fault where
  deriving DecidableEq, Repr

/-- Why a step has no meaning. -/
inductive Refusal where
  /-- Raised by Dispatch for an instruction whose meaning is not written yet. Safe: no claim rests on it. -/
  | notModelled (mnemonic : String)
  deriving DecidableEq, Repr

/-- The access tables at boot: block 0 context registers, 1 mailbox, 2 machine-check banks, 3 event log and sensors,
4 firmware banks, 5 access tables; master 0 HOST, 1 HOSTVF, 2 MGMT, 3 JASPER, 4 KERNEL, 5 PEER, 6 DEBUG; the bits
are R, W, C (R348). -/
def bootTables : AccessTables :=
  [(0, 1, 6), (0, 3, 7), (0, 6, 4), (1, 0, 7), (1, 3, 7), (2, 0, 6), (2, 2, 4), (2, 3, 7), (2, 4, 4), (2, 6, 4),
   (3, 0, 4), (3, 2, 4), (3, 3, 7), (3, 6, 4), (4, 0, 1), (4, 2, 1), (4, 3, 7), (5, 0, 4), (5, 2, 4), (5, 3, 6),
   (5, 6, 4)]

/-- The machine right after reset: every context Free, no launch, no copy, memory with nothing listed, the
machine-check banks at their reset values (R327, R341). The values of FTIME, CLKNOW, CHIPNO, the host link's rate
and width, the firmware banks and the Onyx due times are the model's (log entry 4).
[DESIGN CHOICE: log entries 4 and 7] -/
def State.reset : State where
  mem := Mem.empty
  ftime := 0
  clkA := 3600
  clkB := 3600
  chipno := 0
  cores := []
  ctxs := []
  launches := []
  teams := []
  dir := []
  floors := []
  epochs := []
  llc := []
  spares := []
  counters := []
  claims := []
  waiters := []
  served := []
  lastQueue := []
  records := []
  motion := none
  banks := []
  log := []
  logNext := 0
  mailbox := {}
  fwA := {}
  fwB := {}
  fwRunB := false
  fwMark := none
  minSvn := 0
  held := false
  access := bootTables
  irqs := []
  routes := []
  hostUp := true
  hostRate := 128
  hostWidth := 16
  hostGall := 0
  fatal := false
  hot := []
  sensors := []
  split := false
  answers := []
  msgs := []
  jobs := []
  doneColls := []
  linkIn := []
  linkOut := []
  sideband := []
  snoops := []
  hostWaits := []
  iinvs := []
  recalls := []
  ringDue := []
  agenda := []
  cur := {}
  next := 1
  freeCtr := 0
  upsets := []
  outside := {}

end Sys2Proof.Machine
end

