-- ==== Sys2Proof/Machine/Access.lean ====
section
/-! DEFINITION. Getting and setting the parts of the state; capabilities, the object table, frames and the check of
R204; the numbering of dies, districts, slices and channels (R12, R430). -/

namespace Sys2Proof.Machine

open Sys2Proof

/-! ## Parts of the state -/

def State.team (s : State) (t : Nat) : Team := (s.teams.find t).getD { launch := 0, index := 0 }
def State.setTeam (s : State) (t : Nat) (T : Team) : State := { s with teams := s.teams.put t T }
def State.crew (s : State) (t c : Nat) : Crew := ((s.team t).body.crews.find c).getD {}
def Team.setCrew (T : Team) (c : Nat) (C : Crew) : Team :=
  { T with body := { T.body with crews := T.body.crews.put c C } }
def State.setCrew (s : State) (t c : Nat) (C : Crew) : State := s.setTeam t ((s.team t).setCrew c C)
def Crew.lane (C : Crew) (l : Nat) : Lane := (C.lanes.find l).getD {}
def Crew.setLane (C : Crew) (l : Nat) (L : Lane) : Crew := { C with lanes := C.lanes.put l L }
def State.lane (s : State) (t c l : Nat) : Lane := (s.crew t c).lane l
def State.core (s : State) (c : Nat) : Core := (s.cores.find c).getD {}
def State.setCore (s : State) (c : Nat) (K : Core) : State := { s with cores := s.cores.put c K }
def State.ctx (s : State) (c : Nat) : Context := (s.ctxs.find c).getD {}
def State.setCtx (s : State) (c : Nat) (X : Context) : State := { s with ctxs := s.ctxs.put c X }
def Context.queue (X : Context) (q : Nat) : Queue := (X.queues.find q).getD {}
def Context.setQueue (X : Context) (q : Nat) (Q : Queue) : Context := { X with queues := X.queues.put q Q }
def State.bank (s : State) (b : Nat) : Bank := (s.banks.find b).getD {}

/-- The launch of a team. -/
def State.launchOf (s : State) (t : Nat) : Option Launch := s.launches.find (s.team t).launch
/-- The context of a team. -/
def State.teamCtx (s : State) (t : Nat) : Nat := ((s.launchOf t).map Launch.ctx).getD 0
/-- Registers of a fibre of a team (R86). -/
def State.spanOf (s : State) (t : Nat) : Nat := ((s.launchOf t).map (·.block.span)).getD 0
/-- Stash banks of a team (R215). -/
def State.stashBanks (s : State) (t : Nat) : Nat := ((s.launchOf t).map (·.block.stash)).getD 0
/-- Tensor banks of a team (R213). -/
def State.tensorBanks (s : State) (t : Nat) : Nat := ((s.launchOf t).map (·.block.tensor)).getD 0
/-- The code capability of a team.
[DEDUCED: log entry 14] -/
def State.codeOf (s : State) (t : Nat) : DWord := ((s.launchOf t).map (·.block.code)).getD 0

/-- The team and crew of the issuing braid. -/
def State.curCrew (s : State) : Crew := s.crew s.cur.team s.cur.crew
def State.curLane (s : State) (l : Nat) : Lane := s.curCrew.lane l
def State.setCurCrew (s : State) (C : Crew) : State := s.setCrew s.cur.team s.cur.crew C

/-- Replaces lanes of a crew. -/
def Crew.setLanes (C : Crew) (us : List (Nat × Lane)) : Crew :=
  { C with lanes := us.foldl (fun m u => m.put u.1 u.2) C.lanes }

/-- Updates the named lanes of the issuing crew. -/
def State.mapLanes (s : State) (ls : List Nat) (f : Nat → Lane → Lane) : State :=
  let C := s.curCrew
  s.setCurCrew (C.setLanes (ls.map fun l => (l, f l (C.lane l))))

/-- Updates a lane of a crew. -/
def State.updLane (s : State) (t c l : Nat) (f : Lane → Lane) : State :=
  let C := s.crew t c
  s.setCrew t c (C.setLane l (f (C.lane l)))

/-- Updates a crew. -/
def State.updCrew (s : State) (t c : Nat) (f : Crew → Crew) : State := s.setCrew t c (f (s.crew t c))
/-- Updates the body of a team. -/
def State.updBody (s : State) (t : Nat) (f : Body → Body) : State :=
  let T := s.team t
  s.setTeam t { T with body := f T.body }
/-- Updates a team. -/
def State.updTeam (s : State) (t : Nat) (f : Team → Team) : State := s.setTeam t (f (s.team t))
/-- Updates a core. -/
def State.updCore (s : State) (c : Nat) (f : Core → Core) : State := s.setCore c (f (s.core c))
/-- Updates a context. -/
def State.updCtx (s : State) (c : Nat) (f : Context → Context) : State := s.setCtx c (f (s.ctx c))

/-- Sends a message. -/
def State.send (s : State) (m : Msg) : State := { s with msgs := s.msgs.put s.next m, next := s.next + 1 }
/-- Removes a message. -/
def State.taken (s : State) (k : Nat) : State := { s with msgs := s.msgs.del k }

/-- The next free byte (R8) and the state after it.
[DESIGN CHOICE: log entry 1] -/
def State.freeBytes (s : State) : Nat → List Byte × State
  | 0 => ([], s)
  | n + 1 =>
    let r := State.freeBytes { s with freeCtr := s.freeCtr + 1 } n
    (Config.freeByte s.freeCtr :: r.1, r.2)

/-- A free register value (R8): tag 1, full.
[DESIGN CHOICE: log entry 1] -/
def State.freeWord (s : State) : Word × State :=
  let r := s.freeBytes 4
  (BitVec.ofNat 32 (leNat r.1), r.2)

/-- A team consumes an uncorrectable error (R322).
[DEDUCED: log entry 56] -/
def State.consume (s : State) (t : Nat) : State := s.updTeam t fun T => { T with consumed := true }

/-- The state of a watch entry at an instant: one still pending 4 µs after its creation is struck (R237).
[DEDUCED: log entry 26] -/
def WatchEntry.stateAt (e : WatchEntry) (now : Nat) : WatchState :=
  if e.state = .pending ∧ e.created + Config.watchAge ≤ now then .struck else e.state

/-- The cycle after the present one of a team's core: the first in which a fibre that becomes Ready now is Ready. -/
def State.nextCycle (s : State) (t : Nat) : Nat := (s.core (s.team t).core).cycle + 1

/-- A value for each of some lanes. -/
def forLanes {α : Type} (ls : List Nat) (f : Nat → α) : AMap α := ls.foldl (fun m l => AMap.put m l (f l)) []

/-! ## Numbering (R12, R210, R430) -/

/-- The die of a core. -/
def dieOf (core : Nat) : Nat := core / 160
/-- The device of an internal physical address.
[DESIGN CHOICE: log entry 21] -/
def devOf (a : Nat) : Nat := a / 2 ^ 43
/-- The local address of an internal physical address. -/
def localOf (a : Nat) : Nat := a % 2 ^ 43
/-- Host memory lies beyond the internal physical addresses. -/
def hostBase : Nat := 2 ^ 57
def isHost (a : Nat) : Bool := hostBase ≤ a
/-- A deep-tier local address. -/
def isDeep (l : Nat) : Bool := l < 0x04000000000
/-- A far-tier local address. -/
def isFar (l : Nat) : Bool := 0x04000000000 ≤ l && l < 0x06000000000
/-- The home die of a local address (R430). -/
def homeDie (l : Nat) : Nat := if isDeep l then (if l < 0x02000000000 then 0 else 1) else l / 2 ^ 36 % 2
/-- The DRAM die of a deep-tier address. -/
def dramDie (l : Nat) : Nat := 8 * homeDie l + l / 128 % 8
/-- The home slice of a local address. -/
def homeSlice (l : Nat) : Nat := 64 * homeDie l + l / 128 % 64
/-- A slice of the domain: device and slice. The bridge is slice 128. -/
def sliceKey (a : Nat) : Nat := if isHost a then 129 * 16384 else 129 * devOf a + homeSlice (localOf a)
/-- The far channel of a local address. -/
def farChannel (l : Nat) : Nat := 8 * homeDie l + l / 128 % 8

/-! ## Routes (R346) -/

/-- The ports to a device, and whether each works. The table lists no port for a device until Jasper has written one.
[DESIGN CHOICE: log entry 4] -/
def State.portsOf (s : State) (dev : Nat) : List (Nat × Bool) := (s.routes.find dev).getD []
/-- Whether a device has no working route.
[DESIGN CHOICE: log entry 21] -/
def State.lost (s : State) (dev : Nat) : Bool := dev != s.chipno && !(s.portsOf dev).any Prod.snd
/-- Whether the home of an address cannot be reached.
[DESIGN CHOICE: log entry 21] -/
def State.lostHome (s : State) (a : Nat) : Bool := !isHost a && s.lost (devOf a)

/-! ## Capabilities (R201) -/

def capObj (c : DWord) : Nat := (c.extractLsb' 42 22).toNat
/-- RIGHTS: R, W, X, A from high to low. -/
def capRights (c : DWord) : BitVec 4 := c.extractLsb' 38 4
def capOff (c : DWord) : Nat := (c.extractLsb' 0 38).toNat
/-- The capability with another offset, modulo 2^38. -/
def capWith (c : DWord) (off : Nat) : DWord := c.extractLsb' 38 26 ++ BitVec.ofNat 38 off
/-- The capability that names a stash address in EADDR (R296). -/
def stashCap (a : Nat) : DWord := BitVec.ofNat 64 a

def needR : BitVec 4 := 8
def needW : BitVec 4 := 4
def needX : BitVec 4 := 2
def needRWA : BitVec 4 := 13

/-! ## Object table (R206, R207) and frames (R209) -/

/-- An entry as read. -/
structure ObjEntry where
  valid : Bool
  length : Nat
  rights : BitVec 4
  imm : Bool
  pdef : Bool
  extents : Nat
  deriving DecidableEq, Repr

/-- The entry of an object. With DIAG, entry 3 is the device's own (R330, R344).
[DESIGN CHOICE: log entry 78] -/
def State.objEntry (s : State) (ctx obj : Nat) : ObjEntry :=
  let X := s.ctx ctx
  if X.diag && obj == 3 then
    { valid := true, length := 4096, rights := needR, imm := false, pdef := false, extents := 0 }
  else
    let a := X.otab + 32 * obj
    let len := s.mem.num a 8
    let attr := BitVec.ofNat 32 (s.mem.num (a + 8) 4)
    let ok := len ≤ 2 ^ 38 && attr.extractLsb' 14 11 == 0 && s.mem.num (a + 14) 2 == 0 && s.mem.num (a + 24) 8 == 0
    let imm := attr.getLsbD 26
    { valid := obj < X.otsize && ok && attr.getLsbD 31
      length := len
      rights := if imm then attr.extractLsb' 27 4 &&& 10 else attr.extractLsb' 27 4
      imm := imm
      pdef := attr.getLsbD 25
      extents := s.mem.num (a + 16) 8 }

/-- A frame descriptor's state. -/
inductive FrameState where
  | hole
  | pending
  /-- memory at an internal physical address, or host memory beyond 2^57 -/
  | mem (base : Nat)
  deriving DecidableEq, Repr

/-- Reads a frame descriptor: its state and FVER. A frame that reaches local addresses without memory is a hole
(R210). -/
def frameOf (d : DWord) : FrameState × BitVec 16 :=
  let fver := d.extractLsb' 45 16
  let st := d.extractLsb' 61 3
  if st == 1 then (.pending, fver)
  else if st == 2 then
    let l := (d.extractLsb' 0 22).toNat * Config.frameBytes
    if l + Config.frameBytes ≤ 0x06000000000 then
      (.mem ((d.extractLsb' 22 14).toNat * 2 ^ 43 + l), fver)
    else (.hole, fver)
  else if st == 3 then (.mem (hostBase + (d.extractLsb' 0 44).toNat * Config.frameBytes), fver)
  else (.hole, fver)

/-- The descriptor of a frame of an object.
[DESIGN CHOICE: log entry 78] -/
def State.frameWord (s : State) (e : ObjEntry) (i : Nat) : DWord := BitVec.ofNat 64 (s.mem.num (e.extents + 8 * i) 8)

/-! ## The check of R204 -/

/-- Where an access that passed its check goes. -/
inductive Loc where
  | stash (off : Nat)
  /-- an internal physical address, with its object, frame index, FVER and the attributes of the entry -/
  | mem (addr obj frame : Nat) (fver : BitVec 16) (imm pdef : Bool)
  /-- the machine-check view object (R330) -/
  | view (off : Nat)
  deriving DecidableEq, Repr

def causeObject : BitVec 8 := 0x20
def causeRights : BitVec 8 := 0x21
def causeAlign : BitVec 8 := 0x22
def causeBounds : BitVec 8 := 0x23
def causeHole : BitVec 8 := 0x24
def causePending : BitVec 8 := 0x25

/-- check(cap, size, need) of R204 in a context, for a team whose stash has `banks` banks. Alignment is to `align`. -/
def State.checkAs (s : State) (ctx banks : Nat) (cap : DWord) (size align : Nat) (need : BitVec 4) :
    Except (BitVec 8) Loc :=
  let obj := capObj cap
  let off := capOff cap
  if obj = 0 then
    if need &&& ~~~ capRights cap ≠ 0 then .error causeRights
    else if off % align ≠ 0 then .error causeAlign
    else if 65536 * banks < off + size then .error causeBounds
    else .ok (.stash off)
  else
    let e := s.objEntry ctx obj
    if !e.valid then .error causeObject
    else if need &&& ~~~ (capRights cap &&& e.rights) ≠ 0 then .error causeRights
    else if off % align ≠ 0 then .error causeAlign
    else if e.length < off + size then .error causeBounds
    else if (s.ctx ctx).diag && obj == 3 then .ok (.view off)
    else
      match frameOf (s.frameWord e (off / Config.frameBytes)) with
      | (.hole, _) => .error causeHole
      | (.pending, _) => .error causePending
      | (.mem base, v) =>
        .ok (.mem (base + off % Config.frameBytes) obj (off / Config.frameBytes) v e.imm e.pdef)

/-- The check for a team.
[DESIGN CHOICE: log entry 78] -/
def State.check (s : State) (t : Nat) (cap : DWord) (size align : Nat) (need : BitVec 4) : Except (BitVec 8) Loc :=
  s.checkAs (s.teamCtx t) (s.stashBanks t) cap size align need

/-- Checks a range of bytes frame by frame: the first failure, or the location of each piece (address, length). -/
def State.checkRange (s : State) (ctx banks : Nat) (cap : DWord) (need : BitVec 4) :
    (fuel n : Nat) → Except (BitVec 8) (List (Loc × Nat))
  | 0, _ => .ok []
  | fuel + 1, n =>
    if n = 0 then .ok []
    else
      let len := if capObj cap = 0 then n else min n (Config.frameBytes - capOff cap % Config.frameBytes)
      match s.checkAs ctx banks cap len 1 need with
      | .error c => .error c
      | .ok l =>
        match State.checkRange s ctx banks (capWith cap (capOff cap + len)) need fuel (n - len) with
        | .error c => .error c
        | .ok r => .ok ((l, len) :: r)

/-! ## Scopes (R229-R231) -/

/-- The horizon class of a scope entry in a context. -/
def State.horizon (s : State) (ctx : Nat) (sc : BitVec 5) : Horizon :=
  if sc.toNat ≤ 1 then .core
  else if sc.toNat = 2 then .die
  else if sc.toNat ≤ 6 then .all
  else match (s.ctx ctx).scopes.find sc.toNat with
    | some e => e.horizon
    | none => .all

/-- Whether the wait of a class holds for a crew (R231). -/
def Crew.waited (C : Crew) (now : Nat) : Horizon → Bool
  | .core => C.unacked == 0
  | .die => C.unacked == 0 && C.gdie ≤ now
  | .all => C.unacked == 0 && C.gall ≤ now

end Sys2Proof.Machine
end

