-- ==== Sys2Proof/Machine/Float.lean ====
section
/-! DEFINITION. Floating-point formats, exact arithmetic and its one rounding (R128-R142), special functions within
their bounds (R143), and narrow records (R145-R148). Values are exact fractions of whole numbers; nothing here is
approximate but where the manual allows it. -/

namespace Sys2Proof.Machine

open Sys2Proof

/-! ## Formats (R128) -/

/-- A format: widths of exponent and fraction, bias, and whether its top exponent is all finite but one pattern
(E4M3). -/
structure Fmt where
  ew : Nat
  fw : Nat
  bias : Nat
  e4 : Bool
  deriving DecidableEq, Repr

def f64 : Fmt := ⟨11, 52, 1023, false⟩
def f32 : Fmt := ⟨8, 23, 127, false⟩
def bf16 : Fmt := ⟨8, 7, 127, false⟩
def f16 : Fmt := ⟨5, 10, 15, false⟩
def e5m2 : Fmt := ⟨5, 2, 15, false⟩
def e4m3 : Fmt := ⟨4, 3, 7, true⟩

/-- The width in bits. -/
def Fmt.width (f : Fmt) : Nat := 1 + f.ew + f.fw
/-- Whether it is an FP8 format (R133, R134). -/
def Fmt.isFp8 (f : Fmt) : Bool := f.ew + f.fw == 7
/-- The biased exponent of all ones. -/
def Fmt.top (f : Fmt) : Nat := 2 ^ f.ew - 1
/-- The exponent of the smallest normal. -/
def Fmt.emin (f : Fmt) : Int := 1 - (f.bias : Int)
/-- The sign bit in place. -/
def Fmt.signBit (f : Fmt) (s : Bool) : Nat := bitNat s * 2 ^ (f.ew + f.fw)
/-- ±∞ of a format that has it. -/
def Fmt.inf (f : Fmt) (s : Bool) : Nat := f.signBit s + f.top * 2 ^ f.fw
/-- The largest finite magnitude's pattern, with a sign. -/
def Fmt.maxFinite (f : Fmt) (s : Bool) : Nat :=
  f.signBit s + (if f.e4 then f.top * 2 ^ f.fw + 6 else f.top * 2 ^ f.fw - 1)
/-- The canonical NaN (R131). -/
def Fmt.nan (f : Fmt) : Nat := if f.e4 then 0x7F else f.top * 2 ^ f.fw + 2 ^ (f.fw - 1)
/-- The NaN of an FP8 overflow keeps the result's sign (R133). -/
def Fmt.nanSigned (f : Fmt) (s : Bool) : Nat := f.signBit s + f.nan

/-! ## Values (R129) -/

/-- A decoded value: a finite one is (−1)^s · n · 2^e. -/
inductive FVal where
  | nan (signalling : Bool)
  | inf (s : Bool)
  | fin (s : Bool) (n : Nat) (e : Int)
  deriving DecidableEq, Repr

/-- Reads a pattern; bits above the format are ignored (R130). A subnormal is read as zero when `flush` (R137). -/
def Fmt.read (f : Fmt) (flush : Bool) (bits : Nat) : FVal :=
  let b := bits % 2 ^ f.width
  let s := b / 2 ^ (f.ew + f.fw) = 1
  let e := b / 2 ^ f.fw % 2 ^ f.ew
  let m := b % 2 ^ f.fw
  if e = 0 then
    if flush && !f.isFp8 then .fin s 0 0 else .fin s m (f.emin - f.fw)
  else if f.e4 then
    if e = f.top ∧ m = 7 then .nan false else .fin s (2 ^ f.fw + m) ((e : Int) - f.bias - f.fw)
  else if e = f.top then
    if m = 0 then .inf s else .nan (m < 2 ^ (f.fw - 1))
  else .fin s (2 ^ f.fw + m) ((e : Int) - f.bias - f.fw)

def FVal.isNan : FVal → Bool
  | .nan _ => true
  | _ => false
def FVal.isSnan : FVal → Bool
  | .nan q => q
  | _ => false
def FVal.isFinite : FVal → Bool
  | .fin .. => true
  | _ => false
def FVal.isZero : FVal → Bool
  | .fin _ 0 _ => true
  | _ => false
def FVal.sign : FVal → Bool
  | .nan _ => false
  | .inf s => s
  | .fin s _ _ => s
def FVal.neg : FVal → FVal
  | .nan q => .nan q
  | .inf s => .inf !s
  | .fin s n e => .fin (!s) n e

/-- An exact fraction num/den, den above 0. -/
structure Frac where
  num : Int
  den : Nat
  deriving DecidableEq, Repr

/-- n · 2^e as a fraction of whole numbers. -/
def scalePow (n : Nat) (e : Int) : Nat × Nat := if 0 ≤ e then (n * 2 ^ e.toNat, 1) else (n, 2 ^ (-e).toNat)

/-- The exact value of a finite value; 0 for the others. -/
def FVal.frac : FVal → Frac
  | .fin s n e =>
    let p := scalePow n e
    ⟨if s then -(p.1 : Int) else p.1, p.2⟩
  | _ => ⟨0, 1⟩

/-- The sum, with the larger denominator when the smaller divides it, which keeps sums of many terms small. -/
def Frac.add (a b : Frac) : Frac :=
  if a.den % b.den = 0 then ⟨a.num + b.num * ((a.den / b.den : Nat) : Int), a.den⟩
  else if b.den % a.den = 0 then ⟨a.num * ((b.den / a.den : Nat) : Int) + b.num, b.den⟩
  else ⟨a.num * b.den + b.num * a.den, a.den * b.den⟩
def Frac.mul (a b : Frac) : Frac := ⟨a.num * b.num, a.den * b.den⟩
def Frac.neg (a : Frac) : Frac := ⟨-a.num, a.den⟩
def Frac.sub (a b : Frac) : Frac := a.add b.neg
def Frac.abs (a : Frac) : Frac := ⟨a.num.natAbs, a.den⟩
def Frac.lt (a b : Frac) : Bool := a.num * b.den < b.num * a.den
def Frac.le (a b : Frac) : Bool := a.num * b.den ≤ b.num * a.den
def Frac.max (a b : Frac) : Frac := if a.lt b then b else a
def Frac.zero : Frac := ⟨0, 1⟩
def Frac.ofInt (i : Int) : Frac := ⟨i, 1⟩
/-- The inverse of a fraction that is not 0. -/
def Frac.inv (a : Frac) : Frac := ⟨if a.num < 0 then -(a.den : Int) else a.den, a.num.natAbs⟩
/-- The exact sum of fractions. -/
def Frac.sumList (l : List Frac) : Frac := l.foldl Frac.add Frac.zero

/-! ## Rounding (R132-R137) -/

/-- R136. -/
inductive RMode where
  | rne | rtz | rup | rdn
  deriving DecidableEq, Repr

def RMode.ofBits (b : BitVec 2) : RMode :=
  if b = 0 then .rne else if b = 1 then .rtz else if b = 2 then .rup else .rdn

/-- FSTAT bits (R102). -/
def flNV : BitVec 8 := 1
def flDZ : BitVec 8 := 2
def flOF : BitVec 8 := 4
def flUF : BitVec 8 := 8
def flNX : BitVec 8 := 16
def flSAT : BitVec 8 := 32
def flNCV : BitVec 8 := 64
def flSTAG : BitVec 8 := 128

/-- Rounds the magnitude num/den of a value with a sign to a whole number (R136): the number and whether it is
inexact. -/
def roundNat (rm : RMode) (s : Bool) (num den : Nat) : Nat × Bool :=
  let q := num / den
  let r := num % den
  let up := match rm with
    | .rne => den < 2 * r || (2 * r == den && q % 2 == 1)
    | .rtz => false
    | .rup => !s && 0 < r
    | .rdn => s && 0 < r
  (if up then q + 1 else q, r != 0)

/-- Rounds a fraction to a whole number. -/
def Frac.round (a : Frac) (rm : RMode) : Int × Bool :=
  let r := roundNat rm (a.num < 0) a.num.natAbs a.den
  (if a.num < 0 then -(r.1 : Int) else r.1, r.2)

/-- The exponent E with 2^E ≤ num/den < 2^(E+1). -/
def binExp (num den : Nat) : Int :=
  let e : Int := (num.log2 : Int) - den.log2
  let p := scalePow den e
  if p.1 ≤ num * p.2 then e else e - 1

/-- num/den times 2^(−q), as a fraction. -/
def shiftBy (num den : Nat) (q : Int) : Nat × Nat :=
  if 0 ≤ q then (num, den * 2 ^ q.toNat) else (num * 2 ^ (-q).toNat, den)

/-- How results of an operation are rounded (R135, R138): mode, whether tiny results are flushed, and F8SAT. -/
structure Attr where
  rm : RMode
  flush : Bool
  f8sat : Bool
  deriving DecidableEq, Repr

/-- Round to nearest even, subnormals kept, FP8 saturating (R138). -/
def Attr.engine : Attr := ⟨.rne, false, true⟩

/-- A pattern with the flags it raised. -/
structure FRes where
  bits : Nat
  flags : BitVec 8 := 0
  deriving DecidableEq, Repr

/-- What a finite result that overflows writes (R132, R133). -/
def Fmt.overflow (f : Fmt) (a : Attr) (s : Bool) : FRes :=
  if f.isFp8 then
    if a.f8sat then ⟨f.maxFinite s, flOF ||| flNX ||| flSAT⟩ else ⟨f.nanSigned s, flOF ||| flNX⟩
  else
    let toInf := match a.rm with
      | .rne => true
      | .rtz => false
      | .rup => !s
      | .rdn => s
    ⟨if toInf then f.inf s else f.maxFinite s, flOF ||| flNX⟩

/-- Rounds the nonzero magnitude num/den with a sign to a format (R132, R133, R137). -/
def Fmt.roundMag (f : Fmt) (a : Attr) (s : Bool) (num den : Nat) : FRes :=
  let e := binExp num den
  let q := e - f.fw
  let sh := shiftBy num den q
  let r := roundNat a.rm s sh.1 sh.2
  let carry : Bool := r.1 = 2 ^ (f.fw + 1)
  let e' : Int := if carry then e + 1 else e
  let m := if carry then 2 ^ f.fw else r.1
  let top : Int := if f.e4 then f.top else f.top - 1
  if (top - f.bias < e') ∨ (f.e4 ∧ e' = top - f.bias ∧ m = 15) then f.overflow a s
  else if e' < f.emin then
    if a.flush && !f.isFp8 then ⟨f.signBit s, flUF ||| flNX⟩
    else
      let sh := shiftBy num den (f.emin - f.fw)
      let r := roundNat a.rm s sh.1 sh.2
      ⟨f.signBit s + r.1, if r.2 then flUF ||| flNX else 0⟩
  else ⟨f.signBit s + ((e' + f.bias).toNat * 2 ^ f.fw + (m - 2 ^ f.fw)), if r.2 then flNX else 0⟩

/-- Rounds an exact value; `s` is the sign of a zero. -/
def Fmt.roundFrac (f : Fmt) (a : Attr) (s : Bool) (x : Frac) : FRes :=
  if x.num = 0 then ⟨f.signBit s, 0⟩ else f.roundMag a (x.num < 0) x.num.natAbs x.den

/-- Rounds an exact value with RNE, saturating in every format (R150). -/
def Fmt.roundSat (f : Fmt) (s : Bool) (x : Frac) : Nat :=
  let r := f.roundFrac Attr.engine s x
  if r.flags &&& flOF = 0 then r.bits else f.maxFinite (x.num < 0)

/-- Writes an infinity (R133). -/
def Fmt.writeInf (f : Fmt) (a : Attr) (s : Bool) : FRes :=
  if f.e4 then if a.f8sat then ⟨f.maxFinite s, flSAT⟩ else ⟨f.nanSigned s, flNV⟩ else ⟨f.inf s, 0⟩

/-- The canonical NaN, with NV when a source signals or the operation is invalid. -/
def Fmt.writeNan (f : Fmt) (nv : Bool) : FRes := ⟨f.nan, if nv then flNV else 0⟩

/-- The sign of an exact zero sum (IEEE 754-2019 6.3, by R136). -/
def zeroSign (rm : RMode) (s t : Bool) : Bool := if s = t then s else rm = .rdn

/-! ## Arithmetic (R139-R142) -/

/-- x + y. -/
def Fmt.add (f : Fmt) (a : Attr) (x y : FVal) : FRes :=
  if x.isNan || y.isNan then f.writeNan (x.isSnan || y.isSnan)
  else match x, y with
    | .inf s, .inf t => if s = t then f.writeInf a s else f.writeNan true
    | .inf s, _ => f.writeInf a s
    | _, .inf t => f.writeInf a t
    | _, _ => f.roundFrac a (zeroSign a.rm x.sign y.sign) (x.frac.add y.frac)

/-- x · y. -/
def Fmt.mul (f : Fmt) (a : Attr) (x y : FVal) : FRes :=
  let s := x.sign != y.sign
  if x.isNan || y.isNan then f.writeNan (x.isSnan || y.isSnan)
  else match x, y with
    | .inf _, _ => if y.isZero then f.writeNan true else f.writeInf a s
    | _, .inf _ => if x.isZero then f.writeNan true else f.writeInf a s
    | _, _ => f.roundFrac a s (x.frac.mul y.frac)

/-- x · y + z, rounded once. -/
def Fmt.fma (f : Fmt) (a : Attr) (x y z : FVal) : FRes :=
  let s := x.sign != y.sign
  let bad := match x, y with
    | .inf _, w => w.isZero
    | w, .inf _ => w.isZero
    | _, _ => false
  if x.isNan || y.isNan || z.isNan then
    f.writeNan (x.isSnan || y.isSnan || z.isSnan || bad)
  else if bad then f.writeNan true
  else if !x.isFinite || !y.isFinite then
    match z with
    | .inf t => if s = t then f.writeInf a s else f.writeNan true
    | _ => f.writeInf a s
  else match z with
    | .inf t => f.writeInf a t
    | _ => f.roundFrac a (zeroSign a.rm s z.sign) ((x.frac.mul y.frac).add z.frac)

/-- Whether x is below y; neither is a NaN; −0 counts as below +0 when `zeros`. -/
def FVal.below (zeros : Bool) (x y : FVal) : Bool :=
  match x, y with
  | .inf s, .inf t => s && !t
  | .inf s, _ => s
  | _, .inf t => !t
  | _, _ => x.frac.lt y.frac || (zeros && x.isZero && y.isZero && x.sign && !y.sign)

/-- Writes a value of the format back, exactly. -/
def Fmt.write (f : Fmt) (x : FVal) : Nat :=
  match x with
  | .nan _ => f.nan
  | .inf s => f.inf s
  | .fin s _ _ => (f.roundFrac ⟨.rne, false, true⟩ s x.frac).bits

/-- FMIN and FMAX (R141). A result is exact; a flushed source is its zero. -/
def Fmt.pick (f : Fmt) (wantMax : Bool) (x y : FVal) : FRes :=
  if x.isSnan || y.isSnan then f.writeNan true
  else if x.isNan && y.isNan then f.writeNan false
  else if x.isNan then ⟨f.write y, 0⟩
  else if y.isNan then ⟨f.write x, 0⟩
  else if x.below true y then ⟨f.write (if wantMax then y else x), 0⟩
  else ⟨f.write (if wantMax then x else y), 0⟩

/-- The comparison code of R66: eq, ne, lt, le, gt, ge, un; the truth and whether it is invalid (R139). -/
def fcmpRel (c : BitVec 3) (x y : FVal) : Bool × Bool :=
  let un := x.isNan || y.isNan
  let sn := x.isSnan || y.isSnan
  let lt := !un && x.below false y
  let gt := !un && y.below false x
  let eq := !un && !lt && !gt
  match c.toNat with
  | 0 => (eq, sn)
  | 1 => (!eq, sn)
  | 2 => (lt, un)
  | 3 => (lt || eq, un)
  | 4 => (gt, un)
  | 5 => (gt || eq, un)
  | _ => (un, sn)

/-- Float to float (R142, R133). -/
def Fmt.convert (dst : Fmt) (a : Attr) (x : FVal) : FRes :=
  match x with
  | .nan q => dst.writeNan q
  | .inf s => dst.writeInf a s
  | .fin s _ _ => dst.roundFrac a s x.frac

/-- Float to an integer of a range (R142). -/
def floatToInt (rm : RMode) (lo hi : Int) (x : FVal) : Int × BitVec 8 :=
  match x with
  | .nan _ => (0, flNV)
  | .inf s => (if s then lo else hi, flNV)
  | .fin .. =>
    let r := x.frac.round rm
    if r.1 < lo then (lo, flNV) else if hi < r.1 then (hi, flNV) else (r.1, if r.2 then flNX else 0)

/-! ## Square root, reciprocal and the special functions (R143) -/

/-- ⌊√n⌋ by bits: `k` bits from the top. -/
def isqrtGo (n : Nat) : (k acc : Nat) → Nat
  | 0, acc => acc
  | k + 1, acc => let t := acc + 2 ^ k; isqrtGo n k (if t * t ≤ n then t else acc)

def isqrt (n : Nat) : Nat := isqrtGo n (n.log2 / 2 + 1) 0

/-- √(num/den), exact or with a last bit that stands for the rest below it, so that rounding it rounds the root. -/
def sqrtFrac (num den : Nat) : Frac :=
  let k := 80 + den.log2
  let m := num * 2 ^ (2 * k) / den
  let exact := num * 2 ^ (2 * k) % den = 0
  let r := isqrt m
  ⟨2 * r + (if exact ∧ r * r = m then 0 else 1), 2 ^ (k + 1)⟩

/-- FSQRT of a value. -/
def Fmt.sqrt (f : Fmt) (a : Attr) (x : FVal) : FRes :=
  match x with
  | .nan q => f.writeNan q
  | .inf s => if s then f.writeNan true else ⟨f.inf false, 0⟩
  | .fin s n _ =>
    if n = 0 then ⟨f.signBit s, 0⟩
    else if s then f.writeNan true
    else
      let y := x.frac
      f.roundFrac a false (sqrtFrac y.num.natAbs y.den)

/-- FRCP of a value. -/
def Fmt.rcp (f : Fmt) (a : Attr) (x : FVal) : FRes :=
  match x with
  | .nan q => f.writeNan q
  | .inf s => ⟨f.signBit s, 0⟩
  | .fin s n _ => if n = 0 then ⟨f.inf s, flDZ⟩ else f.roundFrac a s x.frac.inv

/-- One unit in the last place of a format at a positive exact value (R143). -/
def Fmt.ulp (f : Fmt) (x : Frac) : Frac :=
  let e := max (if x.num = 0 then f.emin else binExp x.num.natAbs x.den) f.emin
  let p := scalePow 1 (e - f.fw)
  ⟨p.1, p.2⟩

/-- Whether an exact value is tiny in a format: it does not reach the smallest normal (R137). It is asked of values
whose rounding to the format's precision is never a power of two above them. -/
def Fmt.isTiny (f : Fmt) (x : Frac) : Bool := x.num != 0 && decide (binExp x.num.natAbs x.den < f.emin)

/-- A candidate within `k` ulp of every value between two bounds, of which one is the exact value, else the rounded lower
bound. NX is set because the exact value is not representable. A tiny exact result is flushed, or sets UF (R137); a
candidate below the smallest normal is not taken when results are flushed.
[DESIGN CHOICE: log entry 2] -/
def Fmt.within (f : Fmt) (a : Attr) (k : Nat) (s : Bool) (lo hi : Frac) (cand : Nat) : FRes :=
  let base := f.roundFrac a s lo
  let c := f.read false cand
  let u := (f.ulp (if lo.abs.lt hi.abs then lo.abs else hi.abs)).mul ⟨k, 1⟩
  let ok := c.isFinite && (hi.sub u).le c.frac && c.frac.le (lo.add u)
    && f.write c == cand % 2 ^ f.width
  let fl := base.flags ||| if f.isTiny lo then flUF ||| flNX else flNX
  let small := c.frac.abs.lt (let p := scalePow 1 f.emin; ⟨p.1, p.2⟩)
  if ok && !(a.flush && (base.flags &&& flUF != 0 || small)) then ⟨cand % 2 ^ f.width, fl⟩
  else ⟨base.bits, fl⟩

/-- FRSQ: within 1 ulp; exact where the result is representable (R143).
[DESIGN CHOICE: log entry 2] -/
def Fmt.rsqrt (f : Fmt) (a : Attr) (cand : Nat) (x : FVal) : FRes :=
  match x with
  | .nan q => f.writeNan q
  | .inf s => if s then f.writeNan true else ⟨f.signBit false, 0⟩
  | .fin s n _ =>
    if n = 0 then ⟨f.inf s, flDZ⟩
    else if s then f.writeNan true
    else
      let y := x.frac
      let r := sqrtFrac y.den y.num.natAbs
      let near := f.roundFrac ⟨.rne, a.flush, true⟩ false r
      if near.flags &&& flNX = 0 then near
      else f.within ⟨.rne, a.flush, true⟩ 1 false r r cand

/-- 2^(1/2^i) · 2^p, rounded down, by repeated square roots. -/
def rootsOfTwo (p : Nat) : (n : Nat) → Nat → List Nat
  | 0, _ => []
  | n + 1, x => let r := isqrt (x * 2 ^ p); r :: rootsOfTwo p n r

/-- 2^g · 2^p for a fraction g = bits/2^n, the bits taken from the top with the roots of two. -/
def exp2Bits (p : Nat) (g : Nat) : (roots : List Nat) → (n : Nat) → Nat → Nat
  | [], _, acc => acc
  | r :: rs, n, acc => exp2Bits p g rs (n - 1) (if g / 2 ^ (n - 1) % 2 = 1 then acc * r / 2 ^ p else acc)

/-- FEXP2 (R143, R378): exact for whole sources with representable results, otherwise within 2 ulp. Values of at least
2^128 overflow to +∞, and those below the smallest subnormal give +0.
[DESIGN CHOICE: log entry 2] -/
def Fmt.exp2 (f : Fmt) (a : Attr) (cand : Nat) (x : FVal) : FRes :=
  match x with
  | .nan q => f.writeNan q
  | .inf s => if s then ⟨0, 0⟩ else ⟨f.inf false, 0⟩
  | .fin _ _ _ =>
    let y := x.frac
    let w := y.num / (y.den : Int)
    let at' : Attr := ⟨.rne, a.flush, true⟩
    if 128 ≤ w then ⟨f.inf false, flOF ||| flNX⟩
    else if w < -149 then ⟨0, flUF ||| flNX⟩
    else
      let rest := (y.num - w * y.den).toNat
      let pw (n d : Nat) : Frac := let p := scalePow n w; ⟨p.1, p.2 * d⟩
      if rest = 0 then f.roundFrac at' false (pw 1 1)
      else
        let g := rest * 2 ^ 160 / y.den
        let m := exp2Bits 200 g (rootsOfTwo 200 160 (2 * 2 ^ 200)) 160 (2 ^ 200)
        f.within at' 2 false (pw m (2 ^ 200)) (pw (m + 2 ^ 60) (2 ^ 200)) cand

/-- The bits of log2 of x/2^p in [1, 2) by repeated squaring. -/
def log2Bits (p : Nat) : (n : Nat) → Nat → Nat → Nat
  | 0, _, acc => acc
  | n + 1, x, acc =>
    let y := x * x / 2 ^ p
    if 2 * 2 ^ p ≤ y then log2Bits p n (y / 2) (2 * acc + 1) else log2Bits p n y (2 * acc)

/-- FLOG2 (R143): exact for powers of two, else within 2 ulp.
[DESIGN CHOICE: log entry 2] -/
def Fmt.log2 (f : Fmt) (a : Attr) (cand : Nat) (x : FVal) : FRes :=
  match x with
  | .nan q => f.writeNan q
  | .inf s => if s then f.writeNan true else ⟨f.inf false, 0⟩
  | .fin s n _ =>
    if n = 0 then ⟨f.inf true, flDZ⟩
    else if s then f.writeNan true
    else
      let y := x.frac
      let e := binExp y.num.natAbs y.den
      let sh := shiftBy y.num.natAbs y.den e
      let at' : Attr := ⟨.rne, a.flush, true⟩
      if sh.1 = sh.2 then f.roundFrac at' false (Frac.ofInt e)
      else
        let m := log2Bits 220 96 (sh.1 * 2 ^ 220 / sh.2) 0
        let lo : Frac := (Frac.ofInt e).add ⟨m, 2 ^ 96⟩
        let hi : Frac := (Frac.ofInt e).add ⟨m + 2, 2 ^ 96⟩
        f.within at' 2 (lo.num < 0) lo hi cand

/-- π · 2^200, rounded down. -/
def piFixed : Nat := 5048344754617993871973410141242436836214643421488662971535368

/-- Σ (−1)^k x^(2k+d)/(2k+d)! in units of 2^−200: `term` is the term for k, `x2` is x² in the same units. -/
def taylor (x2 : Int) : (n k : Nat) → (d : Nat) → (term acc : Int) → Int
  | 0, _, _, _, acc => acc
  | n + 1, k, d, term, acc =>
    taylor x2 n (k + 1) d (-(term * x2 / 2 ^ 200) / (((2 * k + d + 1) * (2 * k + d + 2) : Nat) : Int)) (acc + term)

/-- sin or cos of a fraction, in units of 2^−200, for |x| ≤ 2^16. -/
def trigFixed (cosine : Bool) (x : Frac) : Int :=
  let v := x.num * 2 ^ 200 / (x.den : Int)
  let half : Int := (piFixed : Int) / 2
  let k := (v + half / 2) / half
  let r := v - k * half
  let r2 := r * r / 2 ^ 200
  let q := ((k + if cosine then 1 else 0) % 4).toNat
  let sn := taylor r2 25 0 1 r 0
  let cs := taylor r2 25 0 0 (2 ^ 200) 0
  match q with
  | 0 => sn
  | 1 => cs
  | 2 => -sn
  | _ => -cs

/-- FSIN and FCOS (R143): absolute error at most 2^−21 up to 2^16, the computed value being within 2^−160 of the exact
one; beyond it any value of [−1, 1]. No result is exact but
those of ±0; the sine of a subnormal is tiny (R137).
[DESIGN CHOICE: log entry 2] -/
def Fmt.trig (f : Fmt) (a : Attr) (cosine : Bool) (cand : Nat) (x : FVal) : FRes :=
  match x with
  | .nan q => f.writeNan q
  | .inf _ => f.writeNan true
  | .fin s n _ =>
    if n = 0 then ⟨if cosine then f.write (.fin false 1 0) else f.signBit s, 0⟩
    else
      let c := f.read a.flush cand
      let y := x.frac
      let good := c.isFinite && f.write c == cand % 2 ^ f.width
      if Frac.lt ⟨65536, 1⟩ y.abs then
        if good && c.frac.abs.le ⟨1, 1⟩ then ⟨cand % 2 ^ f.width, flNX⟩ else ⟨f.signBit false, flNX⟩
      else
        let t : Frac := ⟨trigFixed cosine y, 2 ^ 200⟩
        let near := f.roundFrac ⟨.rne, a.flush, true⟩ (t.num < 0) t
        let fl := if f.isTiny t then flUF ||| flNX else flNX
        if good && ((c.frac.sub t).abs).le ⟨2 ^ 139 - 1, 2 ^ 160⟩ then ⟨cand % 2 ^ f.width, fl⟩
        else ⟨near.bits, near.flags ||| fl⟩

/-! ## Narrow records (R145-R148) -/

/-- A narrow record as read. -/
structure Narrow where
  scale : Nat
  zp : Nat
  flags : BitVec 8
  codes : List Nat
  deriving DecidableEq, Repr

/-- Elements of a group by its code. -/
def groupSize (g : BitVec 2) : Nat := if g = 0 then 32 else if g = 1 then 64 else 128

/-- Bytes of a record (R146). -/
def recordBytes (int8 : Bool) (group : Nat) : Nat := 4 + (if int8 then group else group / 2)

/-- The codes of packed bytes. -/
def unpackCodes (int8 : Bool) (bs : List Byte) : List Nat :=
  if int8 then bs.map BitVec.toNat else bs.flatMap fun b => [b.toNat % 16, b.toNat / 16]

/-- INT4 codes in pairs. -/
def packNibbles : List Nat → List Byte
  | a :: b :: r => BitVec.ofNat 8 (a % 16 + 16 * (b % 16)) :: packNibbles r
  | [a] => [BitVec.ofNat 8 (a % 16)]
  | [] => []

/-- Reads a record of INT4 or INT8 codes. -/
def Narrow.ofBytes (int8 : Bool) (bs : List Byte) : Narrow :=
  { scale := leNat (bs.take 2), zp := (bs.getD 2 0).toNat, flags := bs.getD 3 0, codes := unpackCodes int8 (bs.drop 4) }

/-- Writes a record. -/
def Narrow.toBytes (int8 : Bool) (r : Narrow) : List Byte :=
  leBytes 2 r.scale ++ [BitVec.ofNat 8 r.zp, r.flags] ++
    (if int8 then r.codes.map (BitVec.ofNat 8) else packNibbles r.codes)

/-- R147.
[DEDUCED: log entry 52] -/
def Narrow.malformed (r : Narrow) : Bool :=
  r.flags.extractLsb' 1 2 == 3 || r.flags.extractLsb' 3 4 != 0 || !(f16.read false r.scale).isFinite

/-- The exact value of an element (R147). -/
def Narrow.value (r : Narrow) (q : Nat) : Frac :=
  (f16.read false r.scale).frac.mul (Frac.ofInt ((q : Int) - r.zp))

/-- The sign of an element that is zero: that of the product of the scale and the integer. -/
def Narrow.zeroNeg (r : Narrow) (q : Nat) : Bool :=
  (f16.read false r.scale).sign != decide ((q : Int) - r.zp < 0)

/-- Clamps a whole number to 0 .. 2^b − 1: the code and whether it was clamped. -/
def clampCode (b : Nat) (x : Int) : Nat × Bool :=
  if x < 0 then (0, true) else if (2 ^ b : Int) ≤ x then (2 ^ b - 1, true) else (x.toNat, false)

end Sys2Proof.Machine
end

