-- ==== Sys2Proof/Machine/Flags.lean ====
section
/-! DEFINITION. Flag computations: the sticky flags of a fibre (R102, R139), the settings an instruction takes from
its RND hint and FMODE (R135), and saturation (R144). -/

namespace Sys2Proof.Machine

open Sys2Proof

/-- Sets sticky flags of a fibre (R139). -/
def Lane.raise (L : Lane) (fl : BitVec 8) : Lane := { L with fstat := L.fstat ||| fl }

/-- The effective rounding mode (R135). -/
def Lane.rm (L : Lane) : RMode :=
  match L.hints.rnd with
  | some (_, true, m) => RMode.ofBits m
  | _ => RMode.ofBits (L.fmode.extractLsb' 0 2)

/-- Whether subnormals of a format are flushed: `wide` for .d and .f (R135). -/
def Lane.flushes (L : Lane) (wide : Bool) : Bool :=
  let byMode := if wide then L.fmode.getLsbD 2 else L.fmode.getLsbD 3
  match L.hints.rnd with
  | some (k, _, _) => if k = 1 then false else if k = 2 then true else byMode
  | none => byMode

/-- Whether a format follows FTZW (R101). -/
def Fmt.isWide (f : Fmt) : Bool := f == f64 || f == f32

/-- The settings for a destination format (R135). -/
def Lane.attr (L : Lane) (f : Fmt) : Attr := ⟨L.rm, L.flushes f.isWide, L.fmode.getLsbD 4⟩

/-- The format of a type code FN[1:0]: .f, .d, .h, .bf (R70). -/
def fmtOf (t : BitVec 2) : Fmt := if t = 0 then f32 else if t = 1 then f64 else if t = 2 then f16 else bf16

/-- A whole number in two's complement of a width, wrapped, or held to a range under a SAT hint (R144): the bits and
the flags. -/
def settle (sat : Bool) (w : Nat) (lo hi x : Int) : BitVec w × BitVec 8 :=
  if sat && (x < lo || hi < x) then (BitVec.ofInt w (if x < lo then lo else hi), flSAT) else (BitVec.ofInt w x, 0)

/-- The signed range of a width. -/
def minInt (w : Nat) : Int := -(2 ^ (w - 1) : Int)
def maxInt (w : Nat) : Int := 2 ^ (w - 1) - 1

/-- An integer comparison by its condition code (R66). -/
def intRel (c : BitVec 3) (x y : Int) : Bool :=
  match c.toNat with
  | 0 => x == y
  | 1 => x != y
  | 2 => x < y
  | 3 => x ≤ y
  | 4 => y < x
  | _ => y ≤ x

end Sys2Proof.Machine
end

