-- ==== Sys2Proof/Machine/Operands.lean ====
section
/-! DEFINITION. Operand forms: windows and o registers (R86-R95), pairs and quads (R91), predicates (R85), guard ranges
(R64, R103), immediates (R61), and the tag sources of an instruction (R109). -/

namespace Sys2Proof.Machine

open Sys2Proof

/-! ## Values and operands -/

/-- A value read or written: its bits, low member first, and its tag (R91). -/
structure Val where
  bits : BitVec 128
  tag : Bool
  deriving DecidableEq, Repr

def Val.w32 (v : Val) : Word := v.bits.extractLsb' 0 32
def Val.w64 (v : Val) : DWord := v.bits.extractLsb' 0 64
def val32 (w : Word) (t : Bool) : Val := ⟨w.setWidth 128, t⟩
def val64 (w : DWord) (t : Bool) : Val := ⟨w.setWidth 128, t⟩
def Val.zero : Val := ⟨0, false⟩

/-- A source field: its members, whether its wait bit is 1 (R59), and whether a stream bound to it is popped (R96). -/
structure Src where
  f : RegF
  n : Nat := 1
  trapping : Bool := false
  pops : Bool := true
  deriving DecidableEq, Repr

/-- A destination field and its members. -/
structure Dst where
  f : RegF
  n : Nat := 1
  deriving DecidableEq, Repr

/-- Where a member of a field stands: nowhere (`z`), a register of the span, or past the span (R87, R90). -/
inductive Slot where
  | zero
  | reg (n : Nat)
  | bad
  deriving DecidableEq, Repr

/-- What resolves a field: the span, and in emulation mode the vectored word with the saved window bases (R95). -/
structure Env where
  span : Nat
  emu : Option (Word × AMap Nat)
  deriving DecidableEq, Repr

/-- The register field that o0, o1, o2 or o3 maps to; o3 follows D (R95). -/
def oField (w : Word) (k : Nat) : Option RegF :=
  let x := oFields w
  if k = 0 then x.1
  else if k = 1 then x.2.1
  else if k = 2 then x.2.2
  else x.1.map fun d => if d = zF then zF else d + 1

/-- Resolves member `k` of a field of lane `l` (R86, R87, R95).
[DEDUCED: log entry 39] -/
def Env.slot (E : Env) (l : Nat) (L : Lane) (f : RegF) (k : Nat) : Slot :=
  if f = zF then .zero
  else
    let v := f.toNat + k
    let direct : Slot := if L.wbase + v < E.span then .reg (L.wbase + v) else .bad
    match E.emu with
    | none => direct
    | some (w, bases) =>
      if 56 ≤ v ∧ v ≤ 59 then
        match oField w (v - 56) with
        | none => .zero
        | some r =>
          if r = zF then .zero
          else
            let n := (bases.find l).getD 0 + r.toNat
            if n < E.span then .reg n else .bad
      else direct

/-- The members of a field, low first. -/
def Env.slots (E : Env) (l : Nat) (L : Lane) (f : RegF) (n : Nat) : List Slot :=
  (List.range n).map (E.slot l L f)

/-- The span registers that a field reaches. -/
def Env.regsOf (E : Env) (l : Nat) (L : Lane) (f : RegF) (n : Nat) : List Nat :=
  (E.slots l L f n).filterMap fun x => match x with
    | .reg r => some r
    | _ => none

/-- The destination members for a reply: span registers, none for `z`. -/
def Env.dest (E : Env) (l : Nat) (L : Lane) (d : Dst) : List (Option Nat) :=
  (E.slots l L d.f d.n).map fun x => match x with
    | .reg r => some r
    | _ => none

/-- The register at a span number. -/
def Lane.reg (L : Lane) (n : Nat) : Reg := (L.regs.find n).getD Reg.zero
def Lane.setReg (L : Lane) (n : Nat) (r : Reg) : Lane := { L with regs := L.regs.put n r, spoilt := NSet.del L.spoilt n }
/-- A register's tag or fullness changes alone: its value and its mark of a poisoned tile stay. -/
def Lane.remark (L : Lane) (n : Nat) (f : Reg → Reg) : Lane := { L with regs := L.regs.put n (f (L.reg n)) }
/-- A register takes part of a poisoned tile: an undefined value, and the mark (R334). -/
def Lane.spoil (L : Lane) (n : Nat) (w : Word) : Lane :=
  { L with regs := L.regs.put n ⟨w, true, true⟩, spoilt := NSet.put L.spoilt n }

/-- The register a slot shows: `z` reads 0, settled, full (R90). -/
def Lane.at (L : Lane) : Slot → Reg
  | .reg n => L.reg n
  | _ => Reg.zero

/-- Puts members together, low first. -/
def joinWords : List Word → BitVec 128
  | [] => 0
  | w :: r => (joinWords r <<< 32) ||| w.setWidth 128

/-- Reads a field (R91). -/
def Env.get (E : Env) (l : Nat) (L : Lane) (f : RegF) (n : Nat) : Val :=
  let rs := (E.slots l L f n).map L.at
  ⟨joinWords (rs.map Reg.val), rs.any Reg.tag⟩

/-- Writes the members of a destination in turn, each full with the result's tag (R91, R92). -/
def putSlots (t : Bool) : Lane → List Slot → BitVec 128 → Lane
  | L, [], _ => L
  | L, .reg n :: r, v => putSlots t (L.setReg n ⟨v.extractLsb' 0 32, t, true⟩) r (v >>> 32)
  | L, _ :: r, v => putSlots t L r (v >>> 32)

/-- Writes a destination field. -/
def Env.put (E : Env) (l : Nat) (L : Lane) (d : Dst) (v : Val) : Lane :=
  putSlots v.tag L (E.slots l L d.f d.n) v.bits

/-- Marks the members of a destination empty, as a long-latency producer does at issue (R92). -/
def Env.drain (E : Env) (l : Nat) (L : Lane) (d : Dst) : Lane :=
  (E.regsOf l L d.f d.n).foldl (fun L n => L.remark n fun r => { r with full := false }) L

/-! ## Predicates (R85) -/

def Lane.q (L : Lane) (n : PredF) : Bool := if n = 15 then true else L.preds.getLsbD n.toNat
def Lane.qt (L : Lane) (n : PredF) : Bool := if n = 15 then false else L.ptags.getLsbD n.toNat

/-- Sets one bit of a word. -/
def setBit16 (w : BitVec 16) (n : Nat) (b : Bool) : BitVec 16 :=
  if b then w ||| (1#16 <<< n) else w &&& ~~~(1#16 <<< n)

/-- Writes a predicate and its tag; q15 discards (R85). -/
def Lane.setQ (L : Lane) (n : PredF) (v t : Bool) : Lane :=
  if n = 15 then L
  else { L with preds := setBit16 L.preds n.toNat v, ptags := setBit16 L.ptags n.toNat t }

/-! ## Guard ranges (R60, R64, R103) -/

/-- Whether the guard lets a word take effect in a fibre. -/
def Lane.guardTrue (L : Lane) : Bool := match L.guard with
  | none => true
  | some g => L.q g.q != g.neg

/-- The tag the guard contributes where it is true (R109). -/
def Lane.gtag (L : Lane) : Bool := match L.guard with
  | none => false
  | some g => L.qt g.q

/-- The tag that joins every result of a fibre: guard and taint (R109, R116). -/
def Lane.gt (L : Lane) : Bool := L.gtag || L.taint

/-- One covered word passes. -/
def tickGuard : Option Guard → Option Guard
  | some g => if g.left ≤ 1 then none else some { g with left := g.left - 1 }
  | none => none

/-- The range that a word opens, if it is a GUARD hint. -/
def guardOf (w : Word) : Option Guard :=
  if majorOf w = 0x3E ∧ fld w 22 4 = 1 then
    some { q := fld w 18 4, neg := bit w 17, left := (fld w 14 3).toNat }
  else none

/-- The range after one word. -/
def guardStep (g : Option Guard) (w : Word) : Option Guard := match guardOf w with
  | some h => some h
  | none => tickGuard g

/-- The range in force at the target of a unit, from the range at its start.
[DESIGN CHOICE: log entry 42] -/
def guardAtTarget (g : Option Guard) (unit : List Word) : Option Guard := unit.dropLast.foldl guardStep g

/-- The range after a unit of `ulen` words of which the listed ones are known (R103, R306). -/
def guardAfter (g : Option Guard) (unit : List Word) (ulen : Nat) : Option Guard :=
  (List.range (ulen - unit.length)).foldl (fun g _ => tickGuard g) (unit.foldl guardStep g)

/-! ## Progress of a fibre -/

/-- A fibre goes on to another address and is done with its unit. -/
def Lane.goto (L : Lane) (pc : Word) (g : Option Guard) : Lane := { L with pc := pc, guard := g, hints := {}, did := none, due := none }

/-- A fibre goes on past the word it stands at. -/
def Lane.advance (L : Lane) : Lane := L.goto (L.pc + 4) (tickGuard L.guard)

/-- A fibre jumps, which ends its guard range (R64). -/
def Lane.jump (L : Lane) (pc : Word) : Lane := L.goto pc none

/-- A branch target: PC + 4 · OFF21 (R73). -/
def branchTarget (pc : Word) (o : BitVec 21) : Word := pc + (o.signExtend 32 <<< 2)

/-! ## Immediates (R61) -/

/-- The immediate operand of a format-I word. -/
def Lane.imm (L : Lane) (i : BitVec 13) : Word := match L.hints.limm with
  | some p => p ++ i.extractLsb' 0 10
  | none => i.signExtend 32

/-- The registers of a wide or plain operand. -/
def wideN (w : Bool) : Nat := if w then 2 else 1

/-- The registers of a float type code (R70). -/
def typeN (t : BitVec 2) : Nat := if t = 1 then 2 else 1

end Sys2Proof.Machine
end

