-- ==== Sys2Proof/Machine/Blocks.lean ====
section
/-! DEFINITION. The records that engines read from the stash: their fields and the conditions they must meet (R121,
R159, R272, R275-R280, R282, R283, R285, R291). -/

namespace Sys2Proof.Machine

open Sys2Proof

/-- A little-endian field of a record. -/
def fieldOf (bs : List Byte) (off n : Nat) : Nat := leNat ((bs.drop off).take n)
/-- Whether every byte of a range is 0. -/
def zeroAt (bs : List Byte) (off n : Nat) : Bool := ((bs.drop off).take n).all (· == 0)
/-- Bits of a number. -/
def bitsOf (v lo len : Nat) : Nat := v / 2 ^ lo % 2 ^ len
/-- A two's complement number of 32 bits. -/
def signed32 (v : Nat) : Int := (BitVec.ofNat 32 v).toInt

/-- R272: a record of a size lies in the stash of `banks` banks at a multiple of its size. -/
def recordOk (banks a size : Nat) : Bool := a % size == 0 && a + size ≤ 65536 * banks

/-! ## MMA (R275-R277) -/

structure MmaBlock where
  m : Nat
  n : Nat
  k : Nat
  ticket : Nat
  wh : Nat
  rlog : Bool
  red : Bool
  accin : Bool
  dfmt : Nat
  cfmt : Nat
  afmt : Nat
  aloc : Nat
  cloc : Nat
  dloc : Nat
  /-- reserved bits and bytes are 0 -/
  clean : Bool
  deriving DecidableEq, Repr

def mmaBlock (bs : List Byte) : MmaBlock :=
  let sh := fieldOf bs 0 4
  let f := fieldOf bs 4 4
  { m := bitsOf sh 16 8, n := bitsOf sh 8 8, k := bitsOf sh 0 8
    ticket := bitsOf f 24 6, wh := bitsOf f 20 4, rlog := bitsOf f 19 1 == 1, red := bitsOf f 18 1 == 1
    accin := bitsOf f 17 1 == 1, dfmt := bitsOf f 12 4, cfmt := bitsOf f 8 4, afmt := bitsOf f 0 4
    aloc := fieldOf bs 8 4, cloc := fieldOf bs 12 4, dloc := fieldOf bs 16 4
    clean := bitsOf sh 24 8 == 0 && bitsOf f 30 2 == 0 && bitsOf f 16 1 == 0 && bitsOf f 4 4 == 0 && zeroAt bs 24 40 }

/-- Bytes of an element by its type code: .h .bf .f .d .e4 .e5 (R71). -/
def elemBytes (code : Nat) : Nat :=
  if code = 4 ∨ code = 5 then 2 else if code = 6 then 4 else if code = 7 then 8 else 1

/-- The format of a float type code (R71). -/
def fmtCode (code : Nat) : Fmt :=
  if code = 4 then f16 else if code = 5 then bf16 else if code = 6 then f32 else if code = 7 then f64
  else if code = 8 then e4m3 else e5m2

/-- Whether a location word names registers, and the field value or the offset (R275). -/
def locRegs (w : Nat) : Bool := bitsOf w 31 1 == 1
def locField (w : Nat) : Nat := bitsOf w 0 6
def locOffset (w : Nat) : Nat := bitsOf w 0 24
def locClean (w : Nat) : Bool := if locRegs w then bitsOf w 6 25 == 0 else bitsOf w 24 7 == 0 && bitsOf w 0 24 % 32 == 0

/-- The registers that a row of `w` elements of `e` bytes takes (R277). -/
def rowRegs (w e : Nat) : Nat := (w * e + 3) / 4

/-- The field values that a lane's registers of an operand have: rows `lane`, `lane + 32` (R277). -/
def locLaneFields (loc rows w e lane : Nat) : List Nat :=
  let per := rowRegs w e
  ((List.range 2).filter fun g => lane + 32 * g < rows).flatMap fun g => List.range' (locField loc + g * per) per

/-- The field values an MMA block names in a lane: A, C and D in registers. -/
def MmaBlock.laneFields (b : MmaBlock) (lane : Nat) : List Nat :=
  (if locRegs b.aloc then locLaneFields b.aloc b.m b.k (elemBytes b.afmt) lane else []) ++
  (if locRegs b.cloc then locLaneFields b.cloc b.m b.n (elemBytes b.cfmt) lane else []) ++
  (if b.dfmt ≠ 0 ∧ locRegs b.dloc then locLaneFields b.dloc b.m b.n (elemBytes b.dfmt) lane else [])

/-- Bytes of an operand of `rows` rows of `w` elements in the tensor buffer; a narrow row is whole records (R276). -/
def tensorBytes (fmt rows w : Nat) : Nat :=
  if fmt = 10 then rows * (w / 32) * 20 else if fmt = 11 then rows * (w / 32) * 36 else rows * w * elemBytes fmt

/-- The region of the tensor buffer that a location names: offset and length. -/
def locRegion (loc fmt rows w : Nat) : List (Nat × Nat) := if locRegs loc then [] else [(locOffset loc, tensorBytes fmt rows w)]

/-- The regions an MMA writes, and all that it names. -/
def MmaBlock.writes (b : MmaBlock) : List (Nat × Nat) :=
  locRegion b.cloc b.cfmt b.m b.n ++ (if b.dfmt = 0 then [] else locRegion b.dloc b.dfmt b.m b.n)
def MmaBlock.regions (b : MmaBlock) : List (Nat × Nat) := locRegion b.aloc b.afmt b.m b.k ++ b.writes

/-- The regions of A and C in the tensor buffer. -/
def MmaBlock.readyRegions (b : MmaBlock) : List (Nat × Nat) := locRegion b.aloc b.afmt b.m b.k ++ locRegion b.cloc b.cfmt b.m b.n

/-- The field values that MRDY waits for in a lane: A and C (R278, R399). -/
def MmaBlock.readyFields (b : MmaBlock) (lane : Nat) : List Nat :=
  (if locRegs b.aloc then locLaneFields b.aloc b.m b.k (elemBytes b.afmt) lane else []) ++
  (if locRegs b.cloc then locLaneFields b.cloc b.m b.n (elemBytes b.cfmt) lane else [])

/-! ## DCOR (R121, R122) -/

structure DcorBlock where
  step : Nat
  limit : Nat
  pfmt : Nat
  n : Nat
  scount : Nat
  ticket : Nat
  texp : Int
  a : Nat
  b : Nat
  x : Nat
  p : Nat
  status : Nat
  rnorm : Nat
  clean : Bool
  deriving DecidableEq, Repr

def dcorBlock (bs : List Byte) : DcorBlock :=
  let c := fieldOf bs 0 4
  let c2 := fieldOf bs 4 4
  { step := bitsOf c 24 8, limit := bitsOf c 16 8, pfmt := bitsOf c 8 8, n := bitsOf c 0 8
    scount := bitsOf c2 22 2, ticket := bitsOf c2 16 6, texp := (BitVec.ofNat 16 (bitsOf c2 0 16)).toInt
    a := fieldOf bs 8 4, b := fieldOf bs 12 4, x := fieldOf bs 16 4, p := fieldOf bs 20 4
    status := fieldOf bs 24 4, rnorm := fieldOf bs 32 8
    clean := bitsOf c2 24 8 == 0 && zeroAt bs 28 4 && zeroAt bs 48 16 }

/-- Bytes of P (R122). -/
def DcorBlock.pBytes (b : DcorBlock) : Nat :=
  if b.pfmt = 10 then b.n * ((b.n + 31) / 32) * 20
  else if b.pfmt = 11 then b.n * ((b.n + 31) / 32) * 36
  else b.n * b.n * elemBytes b.pfmt

/-- The regions of A, b, x and P: address and length. -/
def DcorBlock.regions (b : DcorBlock) : List (Nat × Nat) :=
  [(b.a, 8 * b.n * b.n), (b.b, 8 * b.n), (b.x, 8 * b.n), (b.p, b.pBytes)]

/-- Two ranges of bytes meet. -/
def meets (a n b m : Nat) : Bool := a < b + m && b < a + n && n != 0 && m != 0

/-- The fields meet R121 and R122 for a block at `addr` in a stash of `banks` banks. -/
def DcorBlock.ok (b : DcorBlock) (addr banks : Nat) : Bool :=
  let rs := (addr, 64) :: b.regions
  b.clean && 1 ≤ b.limit && 4 ≤ b.pfmt && b.pfmt ≤ 11 && 1 ≤ b.n && b.n ≤ 64 && -1074 ≤ b.texp && b.texp ≤ 0
    && b.a % 32 == 0 && b.b % 32 == 0 && b.x % 32 == 0 && b.p % 4 == 0
    && rs.all (fun r => r.1 + r.2 ≤ 65536 * banks)
    && (List.range rs.length).all fun i => (rs.drop (i + 1)).all fun r => !meets (rs.getD i (0, 0)).1 (rs.getD i (0, 0)).2 r.1 r.2

/-! ## WBLD (R279, R280) -/

structure WbldBlock where
  src : DWord
  woff : Nat
  k : Nat
  n : Nat
  fmt : Nat
  sp24 : Bool
  wh : Nat
  ticket : Nat
  clean : Bool
  deriving DecidableEq, Repr

def wbldBlock (bs : List Byte) : WbldBlock :=
  let sh := fieldOf bs 12 4
  let c := fieldOf bs 16 4
  { src := BitVec.ofNat 64 (fieldOf bs 0 8), woff := fieldOf bs 8 4, k := bitsOf sh 0 8, n := bitsOf sh 8 8
    fmt := bitsOf sh 16 4, sp24 := bitsOf sh 20 1 == 1, wh := bitsOf sh 24 4, ticket := bitsOf c 0 6
    clean := bitsOf sh 21 3 == 0 && bitsOf sh 28 4 == 0 && bitsOf c 6 26 == 0 && zeroAt bs 24 8 }

/-- A shape component (R275). -/
def shapeOk (x : Nat) : Bool := x == 16 || x == 32 || x == 48 || x == 64

/-- Bytes of one column of B in the source layout (R280). -/
def columnBytes (fmt k : Nat) (sp24 : Bool) : Nat :=
  let kept := if sp24 then k / 2 else k
  let data := if fmt = 10 then kept / 32 * 20 else if fmt = 11 then kept / 32 * 36 else kept * elemBytes fmt
  if sp24 then data + k / 8 else data

/-! ## Streams, chain (R282, R283) -/

structure ChainBlock where
  src0 : DWord
  src1 : DWord
  dst : DWord
  count : Nat
  nops : Nat
  s0 : Nat
  s1 : Nat
  df : Nat
  mode : RMode
  flush : Bool
  f8sat : Bool
  ops : List Nat
  bar : Nat
  clean : Bool
  deriving DecidableEq, Repr

def chainFmtOk (c : Nat) : Bool := c == 4 || c == 5 || c == 6 || c == 8 || c == 9

def chainBlock (bs : List Byte) : ChainBlock :=
  let c := fieldOf bs 28 4
  let nops := bitsOf c 0 4
  { src0 := BitVec.ofNat 64 (fieldOf bs 0 8), src1 := BitVec.ofNat 64 (fieldOf bs 8 8)
    dst := BitVec.ofNat 64 (fieldOf bs 16 8), count := fieldOf bs 24 4, nops := nops
    s0 := bitsOf c 4 4, s1 := bitsOf c 8 4, df := bitsOf c 12 4
    mode := RMode.ofBits (BitVec.ofNat 2 (bitsOf c 16 2)), flush := bitsOf c 18 1 == 1, f8sat := bitsOf c 19 1 == 1
    ops := (List.range nops).map fun i => fieldOf bs (32 + 4 * i) 4
    bar := fieldOf bs 64 4
    clean := bitsOf c 20 12 == 0 && zeroAt bs (32 + 4 * nops) (32 - 4 * nops) && zeroAt bs 72 56 }

/-- Whether an op word selects stream 1. -/
def opSel1 (o : Nat) : Bool := bitsOf o 26 2 == 1

/-- The block meets R283. -/
def ChainBlock.ok (b : ChainBlock) : Bool :=
  b.clean && 1 ≤ b.nops && b.nops ≤ 8 && 1 ≤ b.count && b.count ≤ 2 ^ 31
    && chainFmtOk b.s0 && chainFmtOk b.s1 && chainFmtOk b.df
    && b.ops.all (fun o => bitsOf o 28 4 < 8 && bitsOf o 26 2 != 3 && bitsOf o 16 7 == 0)
    && (b.ops.any opSel1 || b.src1 == 0)

/-! ## Copy requests (R285) -/

structure CopyRec where
  src : DWord
  dst : DWord
  xlen : Nat
  ycnt : Nat
  zcnt : Nat
  ssy : Int
  ssz : Int
  dsy : Int
  dsz : Int
  bar : Nat
  last : Bool
  dstash : Bool
  conv : Bool
  sfmt : Nat
  dfmt : Nat
  clean : Bool
  deriving DecidableEq, Repr

def copyRec (bs : List Byte) : CopyRec :=
  let f := fieldOf bs 44 4
  { src := BitVec.ofNat 64 (fieldOf bs 0 8), dst := BitVec.ofNat 64 (fieldOf bs 8 8)
    xlen := fieldOf bs 16 4, ycnt := fieldOf bs 20 2, zcnt := fieldOf bs 22 2
    ssy := signed32 (fieldOf bs 24 4), ssz := signed32 (fieldOf bs 28 4)
    dsy := signed32 (fieldOf bs 32 4), dsz := signed32 (fieldOf bs 36 4)
    bar := fieldOf bs 40 4
    last := bitsOf f 0 1 == 1, dstash := bitsOf f 1 1 == 1, conv := bitsOf f 2 1 == 1
    sfmt := bitsOf f 4 4, dfmt := bitsOf f 8 4
    clean := bitsOf f 3 1 == 0 && bitsOf f 12 20 == 0 && zeroAt bs 52 4 }

/-- Bytes of 32 elements of a copy's format (R285). -/
def groupBytes (fmt : Nat) : Nat := if fmt = 10 then 20 else if fmt = 11 then 36 else 32 * elemBytes fmt

def isWideFmt (c : Nat) : Bool := c == 4 || c == 5 || c == 6
def isRecFmt (c : Nat) : Bool := c == 10 || c == 11

/-- Destination bytes of a row: into the stash only whole lines are written (R219).
[DESIGN CHOICE: log entry 48] -/
def CopyRec.rowOut (r : CopyRec) : Nat :=
  let n := if r.conv then r.xlen / groupBytes r.sfmt * groupBytes r.dfmt else r.xlen
  if r.dstash then n / 128 * 128 else n

/-- Destination bytes of the record. -/
def CopyRec.total (r : CopyRec) : Nat := r.rowOut * r.ycnt * r.zcnt

/-- The destination of row y of plane z: an offset of the object, or a stash address. -/
def CopyRec.dstRow (r : CopyRec) (y z : Nat) : Int :=
  (if r.dstash then ((r.dst.extractLsb' 0 32).toNat : Int) else (capOff r.dst : Int)) + y * r.dsy + z * r.dsz
def CopyRec.srcRow (r : CopyRec) (y z : Nat) : Int := (capOff r.src : Int) + y * r.ssy + z * r.ssz

/-- The record meets R285 in a stash of `banks` banks. Narrow records may stand at any address.
[DESIGN CHOICE: log entry 48] -/
def CopyRec.ok (r : CopyRec) (banks : Nat) : Bool :=
  r.clean && 1 ≤ r.xlen && r.xlen ≤ 2 ^ 31 && 1 ≤ r.ycnt && 1 ≤ r.zcnt
    && (!r.conv || (((isWideFmt r.sfmt && isRecFmt r.dfmt) || (isRecFmt r.sfmt && isWideFmt r.dfmt))
        && r.xlen % groupBytes r.sfmt == 0))
    && (!r.dstash || (r.xlen % 128 == 0 && r.dsy % 128 == 0 && r.dsz % 128 == 0
        && (r.dst.extractLsb' 0 32).toNat % 128 == 0
        && ((0 : Int) :: [r.dsy * (r.ycnt - 1 : Nat)]).all fun y => ((0 : Int) :: [r.dsz * (r.zcnt - 1 : Nat)]).all fun z =>
            0 ≤ ((r.dst.extractLsb' 0 32).toNat : Int) + y + z
              && ((r.dst.extractLsb' 0 32).toNat : Int) + y + z + r.rowOut ≤ 65536 * (banks : Int)))

/-- Whether a stash line is a destination line of a DSTASH record.
[DEDUCED: log entry 45] -/
def CopyRec.coversLine (r : CopyRec) (line : Nat) : Bool :=
  r.dstash && (List.range r.zcnt).any fun z => (List.range r.ycnt).any fun y =>
    let a := r.dstRow y z
    a ≤ 128 * (line : Int) && 128 * (line : Int) < a + r.rowOut

/-- Chunk `c` of the record, taken x then y then z (R287): for each row it meets, the row's source and destination, and
the first and the past-the-last byte of the row's output. A chunk is 4 KiB of output.
[DEDUCED: log entry 49] -/
def CopyRec.chunk (r : CopyRec) (c : Nat) : List (Int × Int × Nat × Nat) :=
  let lo := c * 4096
  let hi := min (lo + 4096) r.total
  if r.rowOut = 0 then []
  else
    (List.range' (lo / r.rowOut) ((hi + r.rowOut - 1) / r.rowOut - lo / r.rowOut)).map fun row =>
      let y := row % r.ycnt
      let z := row / r.ycnt
      (r.srcRow y z, r.dstRow y z, max lo (row * r.rowOut) - row * r.rowOut, min hi ((row + 1) * r.rowOut) - row * r.rowOut)

/-! ## Collectives (R291, R292) -/

structure CollBlock where
  src : DWord
  dst : DWord
  count : Nat
  kind : Nat
  op : Nat
  type : Nat
  scope : Nat
  root : Nat
  bar : Nat
  seq : Nat
  ctl : Nat
  clean : Bool
  deriving DecidableEq, Repr

def collBlock (bs : List Byte) : CollBlock :=
  let c := fieldOf bs 20 4
  { src := BitVec.ofNat 64 (fieldOf bs 0 8), dst := BitVec.ofNat 64 (fieldOf bs 8 8), count := fieldOf bs 16 4
    kind := bitsOf c 0 4, op := bitsOf c 4 4, type := bitsOf c 8 4, scope := bitsOf c 16 5
    root := fieldOf bs 24 4, bar := fieldOf bs 28 4, seq := fieldOf bs 32 4, ctl := c
    clean := bitsOf c 13 3 == 0 && bitsOf c 21 11 == 0 && zeroAt bs 40 24 }

/-- Bytes of `count` elements of a collective's type (R368). -/
def collBytes (type count : Nat) : Nat :=
  if type = 10 then count / 32 * 20 else if type = 11 then count / 32 * 36
  else count * (if type ≤ 1 ∨ type = 6 then 4 else if type = 2 ∨ type = 3 ∨ type = 7 then 8 else 2)

/-- The block meets R291, R292 and R368 for `p` ranks. -/
def CollBlock.ok (b : CollBlock) (p : Nat) : Bool :=
  let narrow := b.type == 10 || b.type == 11
  b.clean && b.kind ≤ 3 && b.op ≤ 2 && (b.type ≤ 7 || narrow) && (!narrow || (b.op == 0 && b.count % 32 == 0))
    && (b.kind != 1 || (p != 0 && b.count % p == 0 && (!narrow || b.count % (32 * p) == 0)))
    && (b.kind != 3 || b.root < p)

/-! ## Launch parameter blocks (R159, R160) -/

def launchBlock (bs : List Byte) : Block :=
  { code := BitVec.ofNat 64 (fieldOf bs 0 8), entry := BitVec.ofNat 32 (fieldOf bs 8 4)
    cores := bitsOf (fieldOf bs 12 4) 0 1 == 1
    gx := fieldOf bs 0x10 2, gy := fieldOf bs 0x12 2, gz := fieldOf bs 0x14 2, nfib := fieldOf bs 0x16 2
    part := fieldOf bs 0x18 1, span := fieldOf bs 0x19 1, stash := fieldOf bs 0x1A 1, tensor := fieldOf bs 0x1B 1
    fmode := BitVec.ofNat 5 (fieldOf bs 0x1C 4), ftrapen := BitVec.ofNat 8 (fieldOf bs 0x20 8)
    trapvec := BitVec.ofNat 32 (fieldOf bs 0x28 4), emuvec := BitVec.ofNat 32 (fieldOf bs 0x2C 4)
    args := BitVec.ofNat 64 (fieldOf bs 0x30 8), argLen := fieldOf bs 0x38 2, nchip := fieldOf bs 0x3A 1
    chips := BitVec.ofNat 64 (fieldOf bs 0x40 8) }

/-- The ranges and reserved bytes of R159 and R160, without the checks that read the object table. -/
def blockRangesOk (bs : List Byte) : Bool :=
  let b := launchBlock bs
  bitsOf (fieldOf bs 12 4) 1 31 == 0 && zeroAt bs 0x3B 1 && zeroAt bs 0x48 56
    && b.entry.toNat % 4 == 0 && 1 ≤ b.gx && 1 ≤ b.gy && 1 ≤ b.gz && 1 ≤ b.nfib && b.nfib ≤ 1024
    && 1 ≤ b.part && b.part ≤ 5 && 8 ≤ b.span && b.stash + b.tensor ≤ 32
    && b.trapvec.toNat % 4 == 0 && b.emuvec.toNat % 4 == 0
    && b.argLen ≤ 256 && b.argLen % 4 == 0 && (b.argLen != 0 || b.args == 0)
    && 1 ≤ b.nchip && b.nchip ≤ 64 && (b.argLen == 0 || b.stash != 0)

/-- Teams of the grid. -/
def Block.teams (b : Block) : Nat := b.gx * b.gy * b.gz
/-- Crews of a team. -/
def Block.crews (b : Block) : Nat := (b.nfib + 31) / 32

end Sys2Proof.Machine
end

