-- ==== Sys2Proof/Machine/Home.lean ====
section
/-! DEFINITION. Machine-check records (R326-R329), the arrays and the vertical bus (R335, R336), and the home slices:
the directory and the performing of reads and writes (R225, R226, R253-R257). -/

namespace Sys2Proof.Machine

open Sys2Proof

/-! ## Machine-check banks and the event log -/

/-- Appends a record to the event log, the oldest going when 262,144 are held (R350).
[DESIGN CHOICE: log entry 95] -/
def State.logAdd (s : State) (kind bank : Nat) (regs : List DWord) : State :=
  let l := s.log ++ [{ index := s.logNext, ftime := s.ftime, kind, bank, regs }]
  { s with log := if l.length > 262144 then l.tail else l, logNext := s.logNext + 1 }

/-- MC_COUNT (R327). -/
def Bank.count (b : Bank) : DWord := BitVec.ofNat 64 (b.fcount * 2 ^ 48 + b.kcount * 2 ^ 32 + b.ccount)

/-- The five registers of a bank. -/
def Bank.regs (b : Bank) : List DWord := [b.status, b.addr, b.info, b.ctl.setWidth 64, b.count]

/-- The number of a class: 0 corrected, 1 contained, 2 fatal (R324). -/
inductive McClass where
  | corrected | contained | fatal
  deriving DecidableEq, Repr

def McClass.num : McClass → Nat
  | .corrected => 0
  | .contained => 1
  | .fatal => 2

/-- MC_STATUS of a record (R327). -/
def mcStatus (more : Bool) (cls : McClass) (addrv infov : Bool) (source code : Nat) : DWord :=
  BitVec.ofNat 64 (2 ^ 63 + bitNat more * 2 ^ 62 + cls.num * 2 ^ 60 + bitNat addrv * 2 ^ 59 + bitNat infov * 2 ^ 58
    + source % 65536 * 2 ^ 32 + code)

/-- Counts an event, saturating (R327).
[DEDUCED: log entry 19] -/
def Bank.counted (b : Bank) : McClass → Bank
  | .corrected => { b with ccount := min (b.ccount + 1) (2 ^ 32 - 1) }
  | .contained => { b with kcount := min (b.kcount + 1) 65535 }
  | .fatal => { b with fcount := min (b.fcount + 1) 255 }

/-- An event reaches its bank (R328): counted always, recorded when none is held or its class is higher, copied into
the event log, signalled as MC_CTL says (R327, R341).
[DEDUCED: log entries 19 and 75] -/
def State.mcRecord (s : State) (bank code : Nat) (cls : McClass) (source : Nat) (addr : Option Nat)
    (info : Option Nat) : State :=
  let b := (s.bank bank).counted cls
  if cls = .corrected ∧ b.ctl.getLsbD 0 = false then { s with banks := s.banks.put bank b }
  else
    let valid := b.status.getLsbD 63
    let recorded := !valid || (b.status.extractLsb' 60 2).toNat < cls.num
    let b := if recorded then
        { b with status := mcStatus valid cls addr.isSome info.isSome source code
                 addr := BitVec.ofNat 64 (addr.getD 0 % 2 ^ 57)
                 info := BitVec.ofNat 64 (info.getD 0) }
      else { b with status := b.status ||| (1 <<< 62) }
    let s := { s with banks := s.banks.put bank b }
    if recorded then
      let s := s.logAdd 1 bank b.regs
      let signal := match cls with
        | .corrected => b.ctl.getLsbD 1
        | .contained => b.ctl.getLsbD 2
        | .fatal => false
      let s := if signal then { s with irqs := s.irqs ++ [(0, 0)] } else s
      if cls = .fatal then { s with sideband := s.sideband ++ [leBytes 2 code] } else s
    else s

/-! ## Access tables (R348) -/

/-- The number of a master class. -/
def Master.code : Master → Nat
  | .host => 0
  | .hostVf => 1
  | .mgmt => 2
  | .jasper => 3
  | .kernel => 4
  | .peer => 5
  | .debug => 6

/-- The entry of a block and a master: R, W, C from high to low. -/
def State.rightsOf (s : State) (block : Nat) (m : Nat) : BitVec 3 :=
  ((s.access.find? fun e => e.1 == block && e.2.1 == m).map fun e => e.2.2).getD 0

/-- A denial is logged, with bank number 0 (R350 gives it none).
[DESIGN CHOICE: log entry 95] -/
def State.denied (s : State) : State := s.logAdd 2 0 []

/-- The CORE bank of a core (R326). -/
def State.coreEvent (s : State) (core code : Nat) (cls : McClass) (info : Option Nat) : State :=
  s.mcRecord (core / 20) code cls core none info

/-- A line or address of this device's own memory. -/
def State.own (s : State) (a : Nat) : Bool := !isHost a && devOf a == s.chipno

/-- Marks sectors poisoned, each with tag 1 (R321). -/
def State.poison (s : State) (secs : List Nat) : State := { s with mem := secs.foldl Mem.mark s.mem }

/-! ## Arrays and the vertical bus -/

/-- The bit of an array word that bit `k` of byte `j` of a 16-byte word is, and its metadata and check bits (R335, R339). -/
def arrayBit (j k : Nat) : Nat := 8 * j + k
def metaBit (i : Nat) : Nat := arrayBit 15 7 + 1 + i
def checkBit (i : Nat) : Nat := metaBit 6 + 1 + i
/-- The bits of an array word. -/
def arrayWidth : Nat := checkBit 8 + 1

/-- The wrong bits of a 16-byte word of a line, among the first `width`; none for a word that the line lacks. -/
def wrongBits (width : Nat) (wb : Nat × List Nat) : List Nat :=
  if wb.1 < 8 then (wb.2.filter fun b => b < width).eraseDups else []

/-- An uncorrectable error marks a sector poisoned; it is recorded once, by the access that detects it (R321, R329). -/
def State.detect (s : State) (sector : Nat) (record : State → State) : State :=
  if s.mem.poisoned sector then s else record (s.poison [sector])

/-- The SEC-DED check of one 16-byte word of a deep-tier line as it is read: 128 data bits, 7 metadata bits and 9 check
bits (R335, R339). -/
def State.arrayWord (s : State) (line : Nat) (wb : Nat × List Nat) : State :=
  let a := 128 * line + 16 * wb.1
  let die := dramDie (localOf a)
  match wrongBits arrayWidth wb with
  | [] => s
  | [b] => s.mcRecord (24 + die) 0x0301 .corrected die (some a) (some b)
  | _ => s.detect (a / 32) fun s => s.mcRecord (24 + die) 0x0302 .contained die (some a) none

/-- The SEC-DED check over 64 data bits of one 8-byte word of a far-tier or cached line (R318): the code for a
corrected error and for an uncorrectable one, the bank and the source. -/
def State.wordCheck (s : State) (line bank source sec unc : Nat) (wb : Nat × List Nat) : State :=
  let a := 128 * line + 16 * wb.1
  let half (h : Nat) (s : State) : State :=
    match (wrongBits 128 wb).filter fun b => b / 64 == h with
    | [] => s
    | [_] => s.mcRecord bank sec .corrected source (some (128 * line)) none
    | _ => s.detect (a / 32) fun s => s.mcRecord bank unc .contained source (some (128 * line)) none
  half 1 (half 0 s)

/-- Whether a word's check could not correct its wrong bits: an array word of the deep tier, or one of the 8-byte words of
another (R318, R335). -/
def uncorrectable (deep : Bool) (wb : Nat × List Nat) : Bool :=
  if deep then decide (2 ≤ (wrongBits arrayWidth wb).length)
  else [0, 1].any fun h => decide (2 ≤ ((wrongBits 128 wb).filter fun b => b / 64 == h).length)

/-- The check of a line in the last-level cache as it is read. -/
def State.cacheCheck (s : State) (line : Nat) (e : MemErr) : State :=
  let slice := homeSlice (localOf (128 * line))
  e.bits.foldl (State.wordCheck · line (16 + slice / 16) slice 0x0201 0x0202) s

/-! The lanes of the vertical bus (R336, R339). -/

/-- The lane of bit `k` of byte `j` of a line, and those of the tag and the poison bit of a sector. -/
def dataLane (j k : Nat) : Nat := 8 * j + k
def tagLane (sector : Nat) : Nat := 1024 + 2 * sector
def poisonLane (sector : Nat) : Nat := 1025 + 2 * sector
/-- The data or metadata lanes of the bus. -/
def busLanes : Nat := 1032
/-- The lanes that a parity lane covers: 16 data lanes, or the 8 metadata lanes. -/
def parityLanes (group : Nat) : List Nat := if group < 64 then List.range' (16 * group) 16 else List.range' 1024 8
/-- The spare group of a lane. -/
def spareGroup (lane : Nat) : Nat := lane / 64
/-- The parity group that covers a lane. -/
def laneGroup (lane : Nat) : Nat := if lane < 1024 then lane / 16 else 64

/-- The sectors that failing parity groups spoil: those of which a data bit, the tag or the mark travels on a lane of one
(R336, R339), so that the metadata group spoils all. -/
def groupSectors (line : Nat) (groups : List Nat) : List Nat :=
  let fails (lane : Nat) : Bool := groups.contains (laneGroup lane)
  ((List.range 4).filter fun s => fails (tagLane s) || fails (poisonLane s)
    || (List.range' (32 * s) 32).any fun j => (List.range 8).any fun k => fails (dataLane j k)).map fun s => 4 * line + s

/-- MC_INFO of a VBUS record (R327). -/
def vbusInfo (lane spare tries : Nat) (swap : Bool) : Nat :=
  lane + 2 ^ 12 * spare + 2 ^ 16 * tries + 2 ^ 19 * bitNat swap

/-- One transfer of a deep-tier line over the vertical bus (R336). Sectors spoil by the groups that failed in the last
transfer made. A walking-pattern test can only name a lane of the group that failed.
[DESIGN CHOICE: log entry 88] -/
def State.transfer (s : State) (line : Nat) (e : MemErr) : State :=
  let die := dramDie (localOf (128 * line))
  let log (s : State) (code : Nat) (cls : McClass) (lane spare tries : Nat) (swap : Bool) : State :=
    s.mcRecord (40 + die / 4) code cls die (some (128 * line)) (some (vbusInfo lane spare tries swap))
  let groups (n : Nat) : List Nat := (e.tries.getD n []).filter fun g => g < 65
  let fail (s : State) (bad : List Nat) (lane spare tries : Nat) (swap : Bool) : State :=
    log (s.poison (groupSectors line bad)) 0x0403 .contained lane spare tries swap
  match (List.range 4).find? fun n => (groups n).isEmpty with
  | some 0 => s
  | some n => log s 0x0401 .corrected 0 0 (n + 1) false
  | none =>
    let named : Option Nat := match groups 0, e.lane with
      | [g], some l => if (List.range 4).all (fun n => groups n == [g]) && (parityLanes g).contains l then some l else none
      | _, _ => none
    match named with
    | none => fail s (groups 3) 0 0 4 false
    | some l =>
      let key := 17 * die + spareGroup l
      let used := (s.spares.find key).getD 0
      if used < 2 then
        let s := { s with spares := s.spares.put key (used + 1) }
        if (groups 4).isEmpty then log s 0x0402 .corrected l (used + 1) 5 true else fail s (groups 4) l (used + 1) 5 true
      else fail s (groups 3) l 0 4 false

/-- What an access of a line meets physically: what its event says, or else what the surroundings hold for the line.
[DESIGN CHOICE: log entry 88] -/
def State.errOf (s : State) (line : Nat) (e : MemErr) : MemErr := if e = MemErr.none then (s.outside.errs.find line).getD e else e

/-- The surroundings once the access has met it. -/
def State.errMet (s : State) (line : Nat) : State :=
  if s.outside.errs.isEmpty then s else { s with outside := { s.outside with errs := s.outside.errs.del line } }

/-- A line leaves the last-level cache: a dirty line is read there, and a deep-tier one crosses the bus (R329, R336). -/
def State.dropLine (s : State) (line : Nat) (e : MemErr) : State :=
  let e := s.errOf line e
  let s := s.errMet line
  let s' := if s.llc.find line = some true ∧ s.own (128 * line) then
      let s := s.cacheCheck line e
      if isDeep (localOf (128 * line)) then s.transfer line e else s
    else s
  { s' with llc := s'.llc.del line }

/-- Lines that the last-level cache of one home slice holds: 12 MiB (R14). -/
def sliceLines : Nat := 98304

/-- A full slice gives up the line it holds at the lowest address before it takes another.
[DESIGN CHOICE: log entry 88] -/
def State.sliceRoom (s : State) (line : Nat) : State :=
  let k := sliceKey (128 * line)
  let held := s.llc.filter fun l => sliceKey (128 * l.1) == k
  if held.length < sliceLines then s
  else match held with
    | l :: _ => s.dropLine l.1 MemErr.none
    | [] => s

/-- An access to the save area meddles with the team saved there (R311). -/
def State.noteSaved (s : State) (line : Nat) : State :=
  let holds (T : Team) : Bool := T.saved.any fun r => r.1 < 128 * line + 128 && 128 * line < r.1 + r.2
  if s.teams.any fun p => holds p.2 then
    { s with teams := s.teams.mapVals fun _ T => if holds T then { T with meddled := true } else T }
  else s

/-- The home's last-level cache holds the line after this: a line that it lacks is read from its array, a deep-tier
line crossing the vertical bus (R335, R336). `e` is what goes wrong physically. Lines of other devices are checked by
those devices; an error there that is not correctable arrives as poison (R321).
[DESIGN CHOICE: log entry 88] -/
def State.touchLine (s : State) (line : Nat) (e : MemErr) (dirty : Bool) : State :=
  let a := 128 * line
  let l := localOf a
  let e := s.errOf line e
  let s := (s.noteSaved line).errMet line
  if s.own a then
    match s.llc.find line with
    | some d =>
      let s := s.cacheCheck line e
      { s with llc := s.llc.put line (d || dirty) }
    | none =>
      let s := s.sliceRoom line
      let s := if isDeep l then (e.bits.foldl (State.arrayWord · line) s).transfer line e
        else if isFar l then
          e.bits.foldl (State.wordCheck · line (44 + farChannel l / 4) (farChannel l) 0x0501 0x0502) s
        else s
      { s with llc := s.llc.put line dirty }
  else
    s.poison ((e.bits.filter fun wb => uncorrectable (isDeep l) wb).map fun wb => 4 * line + wb.1 / 2)

/-! ## Directory entries -/

/-- The entry of a line; a line without one takes its slice's floors as horizons (R225).
[DESIGN CHOICE: log entry 21] -/
def State.dirOf (s : State) (line : Nat) : DirEntry :=
  match s.dir.find line with
  | some d => d
  | none =>
    let f := (s.floors.find (sliceKey (128 * line))).getD (0, 0)
    { hnear := f.1, hfar := f.2 }

def State.setDir (s : State) (line : Nat) (d : DirEntry) : State := { s with dir := s.dir.put line d }
def State.epochOf (s : State) (line : Nat) : Nat := (s.epochs.find line).getD 0

/-- The version and epoch of a line as the home knows them. -/
def State.versionOf (s : State) (line : Nat) : BitVec 16 × Nat := ((s.dirOf line).version, s.epochOf line)

/-- A line's version goes up; when it wraps, what older stamps say becomes unknown (R236). -/
def State.bumpVersion (s : State) (line : Nat) : State :=
  let d := s.dirOf line
  let s := s.setDir line { d with version := d.version + 1 }
  if d.version = 0xFFFF then { s with epochs := s.epochs.put line (s.epochOf line + 1) } else s

/-- Whether a core is on the home slice's own die (R225). -/
def State.nearHome (s : State) (line core : Nat) : Bool :=
  let a := 128 * line
  s.own a && dieOf core == homeDie (localOf a)

/-- g_near and g_all of a write performed now (R226). -/
def State.gwct (s : State) (line : Nat) : Nat × Nat :=
  let d := s.dirOf line
  (max s.ftime d.hnear + 8, max (max s.ftime d.hnear) d.hfar + 40)

/-! ## Page motion at the home (R263-R265) -/

/-- Whether an address lies in a frame. -/
def inFrame (base a : Nat) : Bool := base ≤ a && a < base + Config.frameBytes

/-- Whether a line is MIGRATING, so that requests for it wait (R265). -/
def State.migratingLine (s : State) (line : Nat) : Bool :=
  match s.motion with
  | some m => m.frozen && m.migrating.contains line
  | none => false

/-- Where a request for an address is performed: at the destination once the line is forwarding (R264).
[DEDUCED: log entry 64] -/
def State.forwarded (s : State) (a : Nat) : Nat :=
  match s.motion with
  | some m => if m.frozen && inFrame m.src a && !s.migratingLine (a / 128) then m.dst + (a - m.src) else a
  | none => a

/-- A write in the rounds sets the line's bitmap bit (R263). -/
def State.noteWrite (s : State) (line : Nat) : State :=
  match s.motion with
  | some m =>
    if !m.frozen && inFrame m.src (128 * line) then
      { s with motion := some { m with bits := NSet.put m.bits line } }
    else s
  | none => s

/-! ## Owners and recalls (R220, R255) -/

/-- The address in memory of a byte of an object, by the object's descriptor, whatever its rights. -/
def State.placeOf (s : State) (ctx obj off : Nat) : Option Nat :=
  let e := s.objEntry ctx obj
  if obj ≠ 0 ∧ e.valid ∧ off < e.length then
    match frameOf (s.frameWord e (off / Config.frameBytes)) with
    | (.mem b, _) => some (s.forwarded (b + off % Config.frameBytes))
    | _ => none
  else none

/-- The window of a stash line. -/
def Body.windowOf (b : Body) (n : Nat) : Option Window :=
  (b.windows.find? fun w => w.2.first ≤ n && n < w.2.first + w.2.count).map Prod.snd

/-- The global address of a stash line that lies in a window (R217). -/
def State.windowAddr (s : State) (t : Nat) (w : Window) (n : Nat) : Option Nat :=
  s.placeOf (s.teamCtx t) (capObj w.cap) (capOff w.cap + 128 * (n - w.first))

/-- The stash lines, each with its team, that hold a global line for an owner: present lines of its windows. -/
def State.holders (s : State) (line : Nat) (o : Owner) : List (Nat × Nat) :=
  if o.dev ≠ s.chipno then []
  else
    s.teams.flatMap fun p =>
      let T := p.2
      if T.core = o.core ∧ T.slot = o.slot ∧ T.state ≠ .retired ∧ T.drained = false then
        T.body.windows.flatMap fun w =>
          ((List.range' w.2.first w.2.count).filter fun n =>
            !T.body.absent.contains n && s.windowAddr p.1 w.2 n == some (128 * line)).map fun n => (p.1, n)
      else []

/-- The first of them. -/
def State.holder (s : State) (line : Nat) (o : Owner) : Option (Nat × Nat) := (s.holders line o).head?

/-- Bytes of a line performed at the home now: memory, tags by R107, version, LLC, page-motion bit. The directory's
state is the caller's. -/
def State.putLine (s : State) (addr : Nat) (data : List Byte) (tag : Bool) : State :=
  let line := addr / 128
  let s := (s.touchLine line MemErr.none true).bumpVersion line
  { s.noteWrite line with mem := s.mem.store addr data tag }

/-- A whole line with its sectors' tags and marks, performed at the home now (R106, R220). -/
def State.putWhole (s : State) (line : Nat) (data : Mem) : State :=
  let s := (s.touchLine line MemErr.none true).bumpVersion line
  { s.noteWrite line with mem := s.mem.paste (128 * line) 128 data }

/-- The tag of data written through an object (R207): sector marks of a line set when the object is
proposal-default. -/
def pdefMem (m : Mem) (pdef : Bool) : Mem := if pdef then { m with tags := [0, 1, 2, 3] } else m

/-- Whether the object of a window is proposal-default. -/
def State.windowPdef (s : State) (t : Nat) (w : Window) : Bool := (s.objEntry (s.teamCtx t) (capObj w.cap)).pdef

/-- Bytes that a core's engine, a recall or a drain wrote at the home are acknowledged to the core while it holds, or is
about to hold, a copy of the line (R226). -/
def State.ackCopy (s : State) (core line off : Nat) (data : List Byte) (tags : List Bool) : State :=
  if ((s.core core).copies.find line).isSome || s.msgs.any (fun m => match m.2 with
    | .readReply o l .. => o.core == core && l == line
    | _ => false) then s.send (.engineAck core line off data tags s.next)
  else s

/-- The DCOR operations of a team that have not completed (R125). -/
def State.dcors (s : State) (t : Nat) : List MatOp := (s.core (s.team t).core).mats.filter fun m => m.dcor && m.team == t

/-- Whether a range of the stash meets the x of an outstanding DCOR. -/
def State.inDcorX (s : State) (t a n : Nat) : Bool :=
  (s.dcors t).any fun m => let d := dcorBlock m.bytes; meets a n d.x (8 * d.n)

/-- A write into the block or a region of an outstanding DCOR is a race (R125). -/
def MatOp.noteRace (t a n : Nat) (m : MatOp) : MatOp :=
  if m.dcor && m.team == t && ((m.addr, 64) :: (dcorBlock m.bytes).regions).any fun r => meets a n r.1 r.2 then
    { m with race := true }
  else m

def State.noteRace (s : State) (t a n : Nat) : State :=
  if (s.dcors t).isEmpty then s
  else s.updCore (s.team t).core fun K => { K with mats := K.mats.map (MatOp.noteRace t a n) }

/-- A write of another agent at a home is one in the block or the regions of the DCORs whose windows map it, whether their
lines are present or not (R125). -/
def State.raceAt (s : State) (a n : Nat) : State :=
  if s.cores.all fun K => K.2.mats.all fun m => !m.dcor then s
  else
    let line := a / 128
    s.teams.foldl (fun s p =>
      if (s.dcors p.1).isEmpty then s
      else
        (p.2.body.windows.flatMap fun w => (List.range' w.2.first w.2.count).filter fun i =>
          s.windowAddr p.1 w.2 i == some (128 * line)).foldl (fun s i => s.noteRace p.1 (128 * i + a % 128) n) s) s

/-- A stash line as another agent reads it: the bytes of the x of an outstanding DCOR are undefined, with tag 1 (R125). -/
def State.lineAway (s : State) (t n : Nat) : Mem × State :=
  let m := (s.team t).body.stash.slice (128 * n) 128
  if s.inDcorX t (128 * n) 128 then
    let r := s.freeBytes 128
    let bs := (List.range 128).map fun i => if s.inDcorX t (128 * n + i) 1 then r.1.getD i 0 else m.byte i
    let tags := (List.range 4).filter fun k => m.tag k || s.inDcorX t (128 * n + 32 * k) 32
    ({ m.setBytes 0 bs with tags }, r.2)
  else (m, s)

/-- A stash line that holds a recalled line answers (R220): dirty data goes home as a write-back that counts for the
team's retirement (R175); the stash line stays present and clean for a read and ceases to be present for a write. A line
recalled while its team is evicted is restored as not present (R221). -/
def State.recallAt (line : Nat) (forWrite : Bool) (s : State) (x : Nat × Nat) : State :=
  let t := x.1
  let n := x.2
  let T := s.team t
  let pdef := match T.body.windowOf n with
    | some w => s.windowPdef t w
    | none => false
  let s := if T.body.dirty.contains n then
      let g := (s.gwct line).2
      let r := s.lineAway t n
      let m := pdefMem r.1 pdef
      let s := r.2.putWhole line m
      let s := if m.poison.isEmpty then
          s.ackCopy T.core line 0 (m.bytes 0 128) ((List.range 128).map fun i => m.tag (i / 32))
        else s.updCore T.core fun K => { K with copies := K.copies.del line }
      s.updTeam t fun T => { T with gall := max T.gall g }
    else s
  s.updTeam t fun T =>
    { T with
      recalled := if forWrite then NSet.put T.recalled n else T.recalled
      recalledAway := if T.state = .evicted then NSet.put T.recalledAway n else T.recalledAway
      body := { T.body with
        dirty := NSet.del T.body.dirty n
        absent := if forWrite then NSet.put T.body.absent n else T.body.absent } }

/-- A recall of a line from its owner (R220), every stash line of which answers. -/
def State.recallLine (s : State) (line : Nat) (forWrite : Bool) : State :=
  match (s.dirOf line).owner with
  | none => s
  | some o =>
    let s := (s.holders line o).foldl (State.recallAt line forWrite) s
    if forWrite then s.setDir line { s.dirOf line with owner := none } else s

/-- Whether the entry has a sharer. -/
def DirEntry.shared (d : DirEntry) : Bool := !d.sha.isEmpty || !d.shb.isEmpty || d.remote

/-- Read at the home without a lease (R255). -/
def State.readTransition (s : State) (line : Nat) : State :=
  let st := (s.dirOf line).state
  if st = .O ∨ st = .M then
    let s := s.recallLine line false
    s.setDir line { s.dirOf line with state := if st = .O then .S else .E }
  else s

/-- Who is granted a lease. -/
inductive Grantee where
  | core (c : Nat)
  | remote (dev : Nat)
  deriving DecidableEq, Repr

/-- A lease is granted (R223, R225, R255, R431): the new directory entry and the expiry. -/
def State.grant (s : State) (line : Nat) (g : Grantee) (lease : Nat) (imm : Bool) : State × Option Nat :=
  let st := (s.dirOf line).state
  let s := if st = .O ∨ st = .M then s.recallLine line false else s
  let d := s.dirOf line
  let e := s.ftime + lease
  let near := match g with
    | .core c => s.nearHome line c
    | .remote _ => false
  let d := match g with
    | .core c => if dieOf c = 0 then { d with sha := NSet.put d.sha c } else { d with shb := NSet.put d.shb c }
    | .remote _ => { d with remote := true }
  let d := { d with state := .S }
  let d := if imm then d else if near then { d with hnear := max d.hnear e } else { d with hfar := max d.hfar e }
  (s.setDir line d, if imm then none else some e)

/-- The state of a line once its owner has a dirty line, has written it back, or has left it (R255). -/
def DirState.soiled : DirState → DirState
  | .S => .O
  | .E => .M
  | x => x
def DirState.cleaned : DirState → DirState
  | .O => .S
  | .M => .E
  | x => x
def DirState.left : DirState → DirState
  | .S | .O => .S
  | .E | .M => .I
  | x => x

/-- A write by an agent other than the owner (R255). -/
def State.writeTransition (s : State) (line : Nat) : State :=
  let st := (s.dirOf line).state
  let s := s.recallLine line true
  let d := s.dirOf line
  s.setDir line { d with state := if st = .S ∨ st = .O then .S else .I, owner := none }

/-- A write is performed at the line's home now (R226): the state after it, and its g_near and g_all. -/
def State.performWrite (s : State) (addr : Nat) (data : List Byte) (tag : Bool) : State × (Nat × Nat) :=
  let s := (s.raceAt addr data.length).writeTransition (addr / 128)
  let g := s.gwct (addr / 128)
  (s.putLine addr data tag, g)

/-- Bytes of one line with a tag each performed at its home now (R106, R226): the state after it, and g_near and g_all. -/
def State.performBytes (s : State) (a : Nat) (data : List Byte) (tags : List Bool) : State × (Nat × Nat) :=
  let s := (s.raceAt a data.length).writeTransition (a / 128)
  let g := s.gwct (a / 128)
  let s := ((s.touchLine (a / 128) MemErr.none true).bumpVersion (a / 128)).noteWrite (a / 128)
  ({ s with mem := s.mem.storeTagged 5 a data tags }, g)

/-- A whole line written back by its owner (R255): STWB, STUNMAP, drain. -/
def State.performBack (s : State) (line : Nat) (data : Mem) (leave : Bool) : State × (Nat × Nat) :=
  let g := s.gwct line
  let s := s.putWhole line data
  let d := s.dirOf line
  let st : DirState := match d.state with
    | .O => .S
    | .M => if leave then .I else .E
    | .E => if leave then .I else .E
    | x => x
  (s.setDir line { d with state := st, owner := if leave then none else d.owner }, g)

/-- An owner fill: a stash line in a window takes the global line (R217, R255). -/
def State.ownerFill (s : State) (line : Nat) (o : Owner) : State :=
  let d := s.dirOf line
  let st : DirState := match d.state with
    | .S | .O => .S
    | _ => .E
  let s := if d.owner.isSome then s.recallLine line true else s
  s.setDir line { s.dirOf line with state := st, owner := some o }

/-- The home's data of a line with tags and marks. -/
def State.lineData (s : State) (line : Nat) : Mem := s.mem.slice (128 * line) 128

/-! ## Host-held halves (R260) -/

/-- The holding of a half. -/
def DirEntry.hostHalf (d : DirEntry) (half : Nat) : HostHold := if half = 0 then d.host0 else d.host1
def DirEntry.setHalf (d : DirEntry) (half : Nat) (h : HostHold) : DirEntry :=
  if half = 0 then { d with host0 := h } else { d with host1 := h }

/-- The halves of a line that bytes `off` to `off + n - 1` touch. -/
def halvesOf (off n : Nat) : List Nat :=
  if n = 0 then [] else (if off < 64 then [0] else []) ++ (if 64 < off + n then [1] else [])

/-- The snoops a device access needs first: BISnpInv for a write or an owner fill of a half that the host holds,
BISnpData for a read of a half it holds exclusively (R260). -/
def State.snoopsFor (s : State) (line : Nat) (halves : List Nat) (write : Bool) : List (Nat × Nat × Bool) :=
  let d := s.dirOf line
  (halves.filter fun h => if write then d.hostHalf h ≠ .HI else d.hostHalf h = .HE).map fun h => (line, h, write)

/-- Sends back-invalidation snoops that are not outstanding (R259). -/
def State.sendSnoops (s : State) (xs : List (Nat × Nat × Bool)) : State :=
  { s with snoops := s.snoops ++ xs.filter fun x => !s.snoops.contains x }

/-! ## What an access must wait for at its home (R220, R260, R261, R265) -/

/-- Whether the owner's write-back of a line is on its way; a recall waits for it (R220). -/
def State.backDue (s : State) (line : Nat) : Bool := s.msgs.any fun m => match m.2 with
  | .back _ l _ _ => l == line
  | _ => false

/-- Whether a line's owner is a stash of another device that must answer a recall first (R220, R255): for a read when it may
be dirty. One without a working route cannot.
[DESIGN CHOICE: log entry 22] -/
def State.ownedAway (s : State) (line : Nat) (forWrite : Bool) : Bool :=
  let d := s.dirOf line
  d.owner.any fun o => o.dev != s.chipno && !s.lost o.dev && (forWrite || d.state == .O || d.state == .M)

/-- The recall goes to the owner's device, once.
[DESIGN CHOICE: log entry 22] -/
def State.sendRecall (s : State) (line : Nat) (forWrite : Bool) : State :=
  if s.recalls.contains (line, forWrite) then s
  else match (s.dirOf line).owner with
    | some o => { s with recalls := s.recalls ++ [(line, forWrite)], linkOut := s.linkOut ++ [(o.dev, .recall s.chipno line forWrite)] }
    | none => s

/-- Whether the host waits to hold a half of a line exclusively (R260, R261).
[DEDUCED: log entry 65] -/
def State.hostClaims (s : State) (line : Nat) (halves : List Nat) : Bool :=
  s.hostWaits.any fun w => w.1 == line && w.2.2.1 && (isHost (128 * line) || halves.contains w.2.1)

/-- Whether a read of bytes must wait at the home: a MIGRATING line, a dirty line on its way home or in a stash of another
device, a half that the host holds exclusively or that it waits to hold. The snoops and the recall that it needs are sent
(R220, R260, R261, R265). -/
def State.readBlocked (s : State) (a n : Nat) : Option State :=
  let f := s.forwarded a
  let st := (s.dirOf (f / 128)).state
  if s.migratingLine (a / 128) || ((st == .O || st == .M) && s.backDue (a / 128)) then some s
  else if s.ownedAway (f / 128) false then some (s.sendRecall (f / 128) false)
  else
    let halves := halvesOf (f % 128) n
    let xs := s.snoopsFor (f / 128) halves false
    if !xs.isEmpty then some (s.sendSnoops xs) else if s.hostClaims (f / 128) halves then some s else none

/-- Whether a write of bytes, or an owner fill, must wait at the home: also while the host waits to hold them. -/
def State.writeBlocked (s : State) (a n : Nat) : Option State :=
  let f := s.forwarded a
  if s.migratingLine (a / 128) || s.backDue (a / 128) || s.hostClaims (f / 128) (halvesOf (f % 128) n) then some s
  else if s.ownedAway (f / 128) true then some (s.sendRecall (f / 128) true)
  else
    let xs := s.snoopsFor (f / 128) (halvesOf (f % 128) n) true
    if xs.isEmpty then none else some (s.sendSnoops xs)

/-- Pieces of a range that each lie in one line: address and length. -/
def linePieces : (fuel a n : Nat) → List (Nat × Nat)
  | 0, _, _ => []
  | k + 1, a, n =>
    if n = 0 then []
    else
      let m := min n (128 - a % 128)
      (a, m) :: linePieces k (a + m) (n - m)

/-- Whether writes of several pieces must wait; the snoops that any of them needs are sent. -/
def State.writesBlocked (s : State) : List (Nat × Nat) → Option State
  | [] => none
  | (a, n) :: r => match s.writeBlocked a n with
    | some s => some ((State.writesBlocked s r).getD s)
    | none => State.writesBlocked s r

end Sys2Proof.Machine
end

