-- ==== Sys2Proof/Machine/Life.lean ====
section
/-! DEFINITION. How launches and teams end: completions (R188, R433), the device-side launch queue (R196, R197), the
kill path (R313), contained events over a span (R324, R325) and escalation (R300). -/

namespace Sys2Proof.Machine

open Sys2Proof

/-- STATUS codes of a completion (R188). -/
def stOk : Nat := 1
def stBadParam : Nat := 2
def stBadRecord : Nat := 3
def stCoRefused : Nat := 4
def stSpanTimeout : Nat := 5
def stFaulted : Nat := 6
def stKilled : Nat := 7

/-- The 16 bytes of a completion slot (R188). -/
def completionBytes (cookie : Word) (status : Nat) (gen : Word) : List Byte :=
  leBytes 4 cookie.toNat ++ leBytes 2 status ++ leBytes 2 0 ++ leBytes 4 gen.toNat ++ leBytes 4 0

/-- What a write of the device itself comes to. -/
inductive DeviceWrote where
  | done (s : State)
  /-- a home has it wait (R260, R265) -/
  | wait (s : State)
  /-- the check of R204 fails -/
  | fail

/-- Writes bytes that the device itself produces through a capability of a context, the object's PDEF applying
(R108, R207), once every line of them may be written.
[DEDUCED: log entry 45] -/
def State.deviceWrite (s : State) (ctx : Nat) (cap : DWord) (data : List Byte) : DeviceWrote :=
  match s.checkAs ctx 0 cap data.length 1 needW with
  | .ok (.mem a _ _ _ _ pdef) =>
    let ps := linePieces (data.length / 128 + 2) a data.length
    match s.writesBlocked ps with
    | some s => .wait s
    | none => .done (ps.foldl (fun (r : State × List Byte) p =>
        ((r.1.performWrite (r.1.forwarded p.1) (r.2.take p.2) pdef).1, r.2.drop p.2)) (s, data)).1
  | _ => .fail

/-- Whether a failed route, or a failed die-to-die link, cuts an address off from the host link, which die A holds.
[DEDUCED: log entry 18] -/
def State.cutOff (s : State) (a : Nat) : Bool :=
  s.lostHome a || (s.split && s.own a && homeDie (localOf a) == 1)

/-- Whether a fatal event made the slot of a completion unreachable, so that the completion is not written (R324). -/
def State.slotLost (s : State) (ctx : Nat) (cap : DWord) : Bool :=
  s.fatal && (match s.checkAs ctx 0 cap 16 1 needW with
    | .ok (.mem a ..) => s.cutOff (s.forwarded a)
    | _ => false)

/-- One completion of a queue is written, or held when its check fails or earlier ones are held (R188, R433). While
the host link is down none is written over it (R22).
[DEDUCED: log entry 18] -/
def State.writeCompletion (s : State) (ctx q slot : Nat) (cookie : Word) (status : Nat) (gen : Word) : State :=
  let Q := (s.ctx ctx).queue q
  let hold (s : State) (en : Bool) : State :=
    s.updCtx ctx fun X => X.setQueue q { Q with en := en, held := Q.held ++ [(slot, cookie, status, gen)] }
  if !Q.held.isEmpty then hold s Q.en
  else if !s.hostUp then hold s Q.en
  else if s.slotLost ctx (capWith Q.cpl (capOff Q.cpl + 16 * slot)) then s
  else
    match s.deviceWrite ctx (capWith Q.cpl (capOff Q.cpl + 16 * slot)) (completionBytes cookie status gen) with
    | .fail => hold s false
    | .wait s => s.updCtx ctx fun X => X.setQueue q { Q with held := Q.held ++ [(slot, cookie, status, gen)] }
    | .done s => if Q.irq then { s with irqs := s.irqs ++ [(ctx + 1, q)] } else s

/-- Writes the held completions of a queue in order until one fails (R433).
[DEDUCED: log entry 18] -/
def State.flushHeld (s : State) (ctx q : Nat) : State :=
  let Q := (s.ctx ctx).queue q
  let s := s.updCtx ctx fun X => X.setQueue q { X.queue q with held := [] }
  Q.held.foldl (fun s h => s.writeCompletion ctx q h.1 h.2.1 h.2.2.1 h.2.2.2) s

/-- Lines that the L1 banks and the cache-role banks of a core hold (R13, R214): both slots of a core have banks of their
own where twice the first team's fit into 32. -/
def Core.copyRoom (K : Core) : Nat :=
  let used := match K.roles with
    | some r => if 2 * (r.1 + r.2) ≤ 32 then 2 * (r.1 + r.2) else r.1 + r.2
    | none => 0
  512 * (8 + (32 - used))

/-- Copies without the one granted first. -/
def dropOldest (m : AMap Copy) : AMap Copy :=
  let oldest := m.foldl (fun (o : Option (Nat × Nat)) x => match o with
    | some y => if x.2.granted < y.2 then some (x.1, x.2.granted) else o
    | none => some (x.1, x.2.granted)) none
  (oldest.map fun x => m.del x.1).getD m

/-- Copies of which at most `n` are left, those granted first gone.
[DESIGN CHOICE: log entry 88] -/
def trimTo (n : Nat) (m : AMap Copy) : AMap Copy := (List.range (m.length - n)).foldl (fun m _ => dropOldest m) m

/-- Banks take their roles (R214), and copies for which no bank is left go (R13). -/
def Core.takeRoles (K : Core) (r : Nat × Nat) : Core :=
  let K := { K with roles := K.roles.orElse fun _ => some r }
  { K with copies := trimTo K.copyRoom K.copies }

/-- Completions of enabled queues that a home had wait are written as soon as they can be (R188, R260, R265).
[DEDUCED: log entry 18] -/
def State.settleHeld (s : State) : State :=
  if !s.hostUp then s
  else
    let qs := s.ctxs.flatMap fun c => (c.2.queues.filter fun q => q.2.en && !q.2.held.isEmpty).map fun q => (c.1, q.1)
    qs.foldl (fun s x => s.flushHeld x.1 x.2) s

/-- Whether a team stands on a core with its slots and banks (R173, R174). -/
def Team.resident (T : Team) : Bool :=
  !T.drained && match T.state with
    | .starting | .running | .draining => true
    | _ => false

/-- The teams resident on a core. -/
def State.residents (s : State) (c : Nat) : List (Nat × Team) := s.teams.filter fun p => p.2.resident && p.2.core == c

/-- Bank roles end with the last team (R214). -/
def State.coreVacated (s : State) (c : Nat) : State :=
  if (s.residents c).isEmpty then s.updCore c fun K => { K with roles := none } else s

/-- A general entry wakes the oldest waiter, a reserved entry the oldest waiter of its depth (R197).
[DEDUCED: log entry 23] -/
def wakeWaiter (die : Nat) (e : QEntry) : List Waiter → List Waiter × Bool
  | [] => ([], false)
  | w :: r =>
    if w.die = die ∧ w.given.isNone ∧ (e = .general ∨ e = .reserved w.depth) then ({ w with given := some e } :: r, true)
    else
      let x := wakeWaiter die e r
      (w :: x.1, x.2)

/-- An entry has become free: a waiter is woken and holds it (R197). -/
def State.passEntry (s : State) (die : Nat) (e : QEntry) : State :=
  let w := wakeWaiter die e s.waiters
  { s with waiters := w.1, claims := if w.2 then s.claims ++ [{ die, entry := e, launch := 0 }] else s.claims }

/-- Frees the queue entry a launch holds (R196). -/
def State.freeClaim (s : State) (die : Nat) (e : QEntry) (launch : Nat) : State :=
  { s with claims := s.claims.filter fun c => !(c.die == die && c.launch == launch) }.passEntry die e

/-- Copies that only an IMM lease keeps go, held or on their way (R431). -/
def State.dropLeased (s : State) (which : Copy → Bool) : State :=
  let gone (c : Copy) : Bool := c.expiry.isNone && which c
  { s with
    cores := s.cores.mapVals fun _ K => { K with copies := K.copies.filter fun c => !gone c.2 }
    msgs := s.msgs.mapVals fun _ m => match m with
      | .readReply o line obj kind parts data (some c) times perf =>
        .readReply o line obj kind parts data (if gone c then none else some c) times perf
      | m => m }

/-- Copies under an IMM lease of a context go (R431). -/
def State.dropImm (s : State) (ctx : Nat) : State := s.dropLeased fun c => c.ctx == ctx

/-- Whether a launch has ended. -/
def Launch.ended (L : Launch) : Bool := match L.phase with
  | .done _ => true
  | _ => false

/-- A launch ends with a status: its completion is written, or its queue entry freed and its parent told (R175, R188,
R197). -/
def State.endLaunch (s : State) (l status : Nat) : State :=
  match s.launches.find l with
  | none => s
  | some L =>
    if L.ended then s
    else
      let s := { s with
        launches := s.launches.put l { L with phase := .done status, pending := [], evicted := [] }
        doneColls := s.doneColls.filter fun d => d.launch != l }
      let s := match L.source with
        | .host ctx q slot cookie =>
          s.writeCompletion ctx q slot cookie status (if status = stBadParam ∨ status = stCoRefused ∨ status = stSpanTimeout then 0 else L.gen)
        | .team parent die entry _ =>
          (s.freeClaim die entry l).updTeam parent fun T => { T with children := T.children - 1 }
        | .span _ => s
      if s.launches.any fun p => p.2.ctx == L.ctx && !p.2.ended then s else s.dropImm L.ctx

/-- Whether writes that teams of a launch made are not performed or acknowledged yet, or their GWCTs not passed (R188). -/
def State.owesWrites (s : State) (l : Nat) : Bool :=
  let mine (t : Nat) : Bool := (s.team t).launch == l
  let by' (w : Writer) : Bool := match w with
    | .crew t .. => mine t
    | .window t .. => mine t
    | .drain t _ => mine t
  s.msgs.any (fun m => match m.2 with
    | .write w .. => by' w
    | .ack w .. => by' w
    | .back w .. => by' w
    | .backAck w .. => by' w
    | .atomic o .. => mine o.team
    | .atomicReply o .. => mine o.team
    | _ => false)
  || s.teams.any fun p => p.2.launch == l && (decide (s.ftime < p.2.gall) || p.2.body.crews.any fun c => decide (s.ftime < c.2.gall))

/-- A launch whose teams are stopped ends once what they wrote is performed, so that its completion covers it (R188).
[DEDUCED: log entry 18] -/
def State.endWhenDone (s : State) (l status : Nat) : State :=
  if s.owesWrites l then
    { s with launches := s.launches.upd l fun L => if L.ended then L else { L with phase := .ending status, pending := [], evicted := [] } }
  else s.endLaunch l status

/-- Launches whose last writes have been performed end. -/
def State.settleEnding (s : State) : State :=
  s.launches.foldl (fun s p => match p.2.phase with
    | .ending status => if s.owesWrites p.1 then s else s.endLaunch p.1 status
    | _ => s) s

/-- Engine operations after a team stops: its own end with it, and a collective of it is lost to the ranks that
remain (R325). -/
def Job.without (t : Nat) (j : Job) : Option Job := match j with
  | .copy r => if r.team = t then none else some j
  | .chain u .. => if u = t then none else some j
  | .wbld u .. => if u = t then none else some j
  | .notice u .. => if u = t then none else some j
  | .coll x =>
    let mine (r : Rank) : Bool := r.remote.isNone && r.team == t
    if x.ranks.any mine then
      let rest := x.ranks.filter fun r => !mine r
      if rest.any fun r => r.remote.isNone then some (.coll { x with ranks := rest, lost := true }) else none
    else some j

/-- The kill path stops a team at a word boundary and discards its dirty stash lines (R313). -/
def State.stopTeam (s : State) (t : Nat) : State :=
  let T := s.team t
  let b := T.body
  let crews := b.crews.mapVals fun _ C =>
    { C with braids := [], frames := [], watch := [], tickets := [], ready := none,
             lanes := C.lanes.mapVals fun _ L => { L with state := .free, frozen := false } }
  let s := s.setTeam t
    { T with state := .retired, drained := true,
             body := { b with crews := crews, dirty := [], windows := [] }, shadow := none }
  let gone := s.waiters.filter fun w => w.team == t
  let s := { s with
    jobs := s.jobs.filterMap fun (j : Nat × Job) => (j.2.without t).map fun x => (j.1, x)
    waiters := s.waiters.filter fun w => w.team != t }
  let s := gone.foldl (fun s w => match w.given with
    | some e => { s with claims := s.claims.erase { die := w.die, entry := e, launch := 0 } }.passEntry w.die e
    | none => s) s
  let s := s.updCore T.core fun K => { K with mats := K.mats.filter fun m => m.team != t }
  s.coreVacated T.core

/-- Owners that no longer hold their line are forgotten when the directory next asks them (R255). -/
def State.launchTeams (s : State) (l : Nat) : List Nat :=
  (s.teams.filter fun p => p.2.launch == l && p.2.state != .retired).map Prod.fst

/-- Stops a launch with a status on this chip and, for a span, on every other chip (R313, R324, R325). -/
def State.stopLaunch (s : State) (l status : Nat) : State :=
  match s.launches.find l with
  | none => s
  | some L =>
    if L.ended then s
    else
      let s := (s.launchTeams l).foldl State.stopTeam s
      let L := { L with pending := [], evicted := [] }
      let s := { s with launches := s.launches.put l L }
      -- the kill path takes over a launch that is already stopping (R345)
      let later (old : Nat) : Nat := if status = stKilled then stKilled else old
      match L.phase with
      | .stopping w d old => { s with launches := s.launches.put l { L with phase := .stopping w d (later old) } }
      | .ending old => { s with launches := s.launches.put l { L with phase := .ending (later old) } }
      | _ =>
        match L.source with
        | .span chip0 =>
          { s with linkOut := s.linkOut ++ [(chip0, LinkMsg.stop L.ctx L.gen.toNat s.chipno)] }.endWhenDone l status
        | _ =>
          let others := (L.chips.filter fun c => c != s.chipno).filter fun c => !s.lost c
          if others.isEmpty then s.endWhenDone l status
          else
            { s with
              linkOut := s.linkOut ++ others.map fun c => (c, LinkMsg.stop L.ctx L.gen.toNat s.chipno)
              launches := s.launches.put l { L with phase := .stopping others (s.ftime + 100000) status } }

/-- The launches of a context that have not ended. -/
def State.liveLaunches (s : State) (ctx : Nat) : List Nat :=
  (s.launches.filter fun p => p.2.ctx == ctx && !p.2.ended).map Prod.fst

/-- Escalation to Jasper (R300): the context is contained-faulted, every launch of it stops with FAULTED, and ESCALATE
is logged. -/
def State.escalate (s : State) (t : Nat) : State :=
  let ctx := s.teamCtx t
  let core := (s.team t).core
  let s := s.updCtx ctx fun X => { X with state := .faulted }
  let s := { s with irqs := s.irqs ++ [(ctx + 1, 16)] }
  let s := s.mcRecord 54 0x0901 .contained core none none
  (s.liveLaunches ctx).foldl (fun s l => s.stopLaunch l stFaulted) s

/-- A fatal event stops every team of every context (R324). -/
def State.fatalStop (s : State) : State :=
  let s := { s with fatal := true }
  ((s.launches.filter fun p => !p.2.ended).map Prod.fst).foldl (fun s l => s.stopLaunch l stFaulted) s

end Sys2Proof.Machine
end

