-- ==== Sys2Proof/Machine/Stash.lean ====
section
/-! DEFINITION. The machine-check view (R330), access counters (R212), and the stash of a team: presence, fills, reads
and writes in the bank (R215-R220), and the barrier objects that act there as atomics (R288, R289). -/

namespace Sys2Proof.Machine

open Sys2Proof

/-! ## The machine-check view object (R330) -/

/-- One byte of the view object. -/
def State.viewByte (s : State) (off : Nat) : Byte :=
  if 3520 ≤ off then 0
  else
    let r := off % 64 / 8
    match (s.bank (off / 64)).regs[r]? with
    | some d => BitVec.ofNat 8 (d.toNat / 2 ^ (8 * (off % 8)))
    | none => 0

/-- Consecutive bytes of the view object. -/
def State.viewBytes (s : State) (off n : Nat) : List Byte := (List.range n).map fun i => s.viewByte (off + i)

/-- A program's read of the view object: the table of the banks gives KERNEL its right (R348). A denied read finds zeros
and is logged.
[DESIGN CHOICE: log entry 78] -/
def State.viewRead (s : State) (off n : Nat) : State × List Byte :=
  if (s.rightsOf 2 (Master.code .kernel)).getLsbD 2 then (s, s.viewBytes off n) else (s.denied, List.replicate n 0)

/-! ## Access counters (R212) -/

/-- Writes a record to its context's ring, behind those that wait; a full ring discards it. -/
def State.ringWrite (s : State) (ctx : Nat) (data : List Byte) : State :=
  let X := s.ctx ctx
  if X.cring = 0 ∨ X.crlen ≤ X.crpos then s
  else if s.ringDue.any fun r => r.1 == ctx then { s with ringDue := s.ringDue ++ [(ctx, data)] }
  else
    match s.deviceWrite ctx (capWith X.cring (capOff X.cring + 16 * X.crpos)) data with
    | .done s => s.updCtx ctx fun X => { X with crpos := X.crpos + 1 }
    | .wait s => { s with ringDue := s.ringDue ++ [(ctx, data)] }
    | .fail => s

/-- Records that a home had wait are written as soon as they can be (R260, R265). -/
def State.settleRings (s : State) : State :=
  if s.ringDue.isEmpty then s
  else s.ringDue.foldl (fun s r => s.ringWrite r.1 r.2) { s with ringDue := [] }

/-- Writes a counter's record to its context's ring. -/
def State.counterRecord (s : State) (c : Counter) (cause : Nat) : State :=
  s.ringWrite c.ctx
    (leBytes 4 c.obj ++ leBytes 4 c.frame ++ leBytes 2 c.dev ++ leBytes 1 c.count ++ leBytes 1 cause ++ leBytes 4 0)

/-- A forwarded line access of a core counts against its frame. -/
def State.countAccess (s : State) (core ctx obj frame addr : Nat) : State :=
  if isHost addr ∨ devOf addr = s.chipno then s
  else
    let die := dieOf core
    let own (c : Counter) : Bool := c.die == die && c.ctx == ctx && c.obj == obj && c.frame == frame
    match s.counters.find? own with
    | some c =>
      let rest := s.counters.filter fun x => !own x
      let c := { c with count := c.count + 1 }
      if c.count = 255 then { s with counters := rest }.counterRecord c 1
      else { s with counters := rest ++ [c] }
    | none =>
      let c : Counter := { die, ctx, obj, frame, dev := s.chipno, count := 1 }
      if (s.counters.filter fun x => x.die == die).length < 4096 then { s with counters := s.counters ++ [c] }
      else
        match s.counters.find? fun x => x.die == die with
        | some old => { s with counters := s.counters.erase old ++ [c] }.counterRecord old 2
        | none => s

/-! ## Lines of the stash -/

/-- The records of a list as they stand in the stash, up to the first with LAST, the end of the stash, or 256 (R287). -/
def Body.listNow (b : Body) (limit : Nat) : (fuel a : Nat) → List (List Byte × Bool)
  | 0, _ => []
  | n + 1, a =>
    if limit < a + 64 then []
    else
      let r := (b.stash.bytes a 64, b.stash.tagOf a 64)
      if (copyRec r.1).last then [r] else r :: Body.listNow b limit n (a + 64)

/-- Whether a request list has a destination line still to write at a stash line (R219). A list that the engine has not
read yet counts as it stands.
[DEDUCED: log entry 51] -/
def Job.copiesInto (b : Body) (limit t n : Nat) : Job → Bool
  | .copy r => r.team == t && r.short.isNone
      && ((r.recs.getD (b.listNow limit 256 r.addr)).drop r.idx).any fun x => (copyRec x.1).coversLine n
  | _ => false

def State.copyInto (s : State) (t n : Nat) : Bool :=
  s.jobs.any fun j => j.2.copiesInto (s.team t).body (65536 * s.stashBanks t) t n

/-- Whether a fill of a stash line is in flight.
[DEDUCED: log entry 51] -/
def State.fillInFlight (s : State) (t n : Nat) : Bool := s.msgs.any fun m => match m.2 with
  | .stashFill u l _ => u == t && l == n
  | _ => false

/-- What an access to a stash line finds (R219). -/
inductive Touch where
  | ready (s : State)
  /-- a copy or a fill is awaited -/
  | wait (s : State)
  /-- the fill's source fails R204 -/
  | fail (cause : BitVec 8) (eaddr : DWord)

/-- A stash line becomes present and clean with a line's data, the window's tag joining each sector (R219). -/
def Body.stashTake (b : Body) (n : Nat) (wtag : Bool) (data : Mem) : Body :=
  { b with
    absent := NSet.del b.absent n, dirty := NSet.del b.dirty n
    stash := b.stash.paste (128 * n) 128 (if wtag then { data with tags := [0, 1, 2, 3] } else data) }

/-- An access to a stash line: present, or waiting for a copy, or a fill begun from its window; a line in no window
becomes present holding zeros (R219). -/
def State.touchStash (s : State) (t n : Nat) : Touch :=
  let b := (s.team t).body
  if !b.absent.contains n then .ready s
  else if s.copyInto t n then .wait s
  else
    match b.windowOf n with
    | some w =>
      if s.fillInFlight t n then .wait s
      else
        let cap := capWith w.cap (capOff w.cap + 128 * (n - w.first))
        match s.check t cap 128 1 needR with
        | .ok (.mem a obj frame _ _ _) =>
          .wait ((s.countAccess (s.team t).core (s.teamCtx t) obj frame a).send (.stashFill t n a))
        | .ok (.stash off) => .ready (s.updBody t fun b => b.stashTake n w.tag (b.stash.slice off 128))
        | .ok (.view off) =>
          let v := s.viewRead off 128
          .ready (v.1.updBody t fun b => b.stashTake n w.tag (Mem.empty.setBytes 0 v.2))
        | .error c => .fail c cap
    | none => .ready (s.updBody t fun b => b.stashTake n false Mem.empty)

/-- The first store to a clean window line sends a dirty notice (R256). -/
def State.dirtyNotice (s : State) (t n : Nat) : State :=
  let T := s.team t
  if T.body.dirty.contains n then s
  else
    match T.body.windowOf n with
    | some w =>
      match s.windowAddr t w n with
      | some a => s.send (.dirty (a / 128) s.chipno T.core T.slot)
      | none => s
    | none => s

/-- The lines that `n` bytes at an address touch. -/
def regionLines (a n : Nat) : List Nat := if n = 0 then [] else List.range' (a / 128) ((a + n - 1) / 128 - a / 128 + 1)

/-- The notices of every line that a write touches (R256). -/
def State.dirtyNotices (s : State) (t a n : Nat) : State := (regionLines a n).foldl (fun s l => s.dirtyNotice t l) s

/-- Lines become dirty (R219). -/
def Body.soil (b : Body) (a n : Nat) : Body := { b with dirty := (regionLines a n).foldl NSet.put b.dirty }

/-- Writes bytes into the stash bank and nothing else: tags by R107, the lines they touch dirty (R219). -/
def Body.stashPut (b : Body) (a : Nat) (data : List Byte) (tag : Bool) : Body :=
  { b.soil a data.length with stash := b.stash.store a data tag }

/-- An atomic or a store makes its lines dirty (R219, R256). -/
def State.stashSoil (s : State) (t a n : Nat) : State := (s.dirtyNotices t a n).updBody t fun b => b.soil a n

/-- A store into the stash by a fibre, an atomic or an engine (R216, R219). The lines are present. -/
def State.stashWrite (s : State) (t a : Nat) (data : List Byte) (tag : Bool) : State :=
  let s := (s.noteRace t a data.length).dirtyNotices t a data.length
  s.updBody t fun b => b.stashPut a data tag

/-- Bytes of the stash as a fibre reads them; bytes of the x of an outstanding DCOR are undefined (R125). -/
def State.stashRead (s : State) (t a n : Nat) : State × Nat × Bool :=
  if s.inDcorX t a n then
    let r := s.freeBytes n
    (r.2, leNat r.1, true)
  else (s, (s.team t).body.stash.num a n, (s.team t).body.stash.tagOf a n)

/-- Bytes of a record in the stash, and the OR of its sectors' tags. -/
def State.stashBytes (s : State) (t a n : Nat) : List Byte × Bool :=
  let m := (s.team t).body.stash
  (m.bytes a n, m.tagOf a n)

/-- The device writes result words into a record in the stash as settled data (R272). -/
def State.report (s : State) (t a : Nat) (data : List Byte) : State := s.stashWrite t a data false

/-! ## Barrier objects (R288, R289) -/

def State.barRemain (s : State) (t a : Nat) : Nat := (s.team t).body.stash.num a 4
def State.barState (s : State) (t a : Nat) : Nat := (s.team t).body.stash.num (a + 4) 4
def State.barFstate (s : State) (t a : Nat) : Nat := bitsOf (s.barState t a) 24 8

/-- Writes REMAIN and STATE with a tag. -/
def State.barPut (s : State) (t a remain state : Nat) (tag : Bool) : State :=
  s.updBody t fun b => b.stashPut a (leBytes 4 remain ++ leBytes 4 state) tag

/-- dec(u): REMAIN goes down, OVERRUN when it cannot, PHASE turns when it has become 0 (R289).
[DEDUCED: log entry 47] -/
def State.barDec (s : State) (t a u : Nat) (tag : Bool := false) : State :=
  let r := s.barRemain t a
  let st := s.barState t a
  let more := r < u
  let r' := if more then 0 else r - u
  let st := if more && bitsOf st 24 8 == 0 then st + 7 * 2 ^ 24 else st
  let st := if r' = 0 ∧ r ≠ 0 then (if bitsOf st 16 1 = 1 then st - 2 ^ 16 else st + 2 ^ 16) else st
  s.barPut t a r' st tag

/-- The first fault sets FSTATE, RESUME and RIDX (R289). -/
def State.barFault (s : State) (t a code resume ridx : Nat) : State :=
  if s.barFstate t a ≠ 0 then s
  else
    let st := bitsOf (s.barState t a) 0 24 + code * 2 ^ 24
    let s := s.barPut t a (s.barRemain t a) st false
    s.updBody t fun b => b.stashPut (a + 8) (leBytes 4 resume ++ leBytes 4 (ridx % 65536)) false

/-- BARI (R289, R361). -/
def State.barInit (s : State) (t a count : Nat) (tag : Bool) : State :=
  let phase := bitsOf (s.barState t a) 16 1
  s.updBody t fun b => b.stashPut a (leBytes 4 count ++ leBytes 4 (phase * 2 ^ 16) ++ leBytes 8 0) tag

/-- BARA (R289, R361): one arrival, then dec(1), written with the tag of the word's sources (R116, R353).
[DEDUCED: log entry 47] -/
def State.barArrive (s : State) (t a : Nat) (tag : Bool) : State :=
  let st := s.barState t a
  let arr := (bitsOf st 0 16 + 1) % 65536
  (s.barPut t a (s.barRemain t a) (bitsOf st 16 16 * 65536 + arr) tag).barDec t a 1 tag

/-- FSTATE codes of R204 causes and others (R288). -/
def fstateOf (c : BitVec 8) : Nat :=
  if c = causeObject then 1 else if c = causeRights then 2 else if c = causeBounds then 3
  else if c = causeHole then 4 else if c = causePending then 5 else 6
def fsBadRecord : Nat := 6
def fsMismatch : Nat := 8
def fsUncorr : Nat := 9
def fsLinkLost : Nat := 10

end Sys2Proof.Machine
end

