-- ==== Sys2Proof/Machine/Memory.lean ====
section
/-! DEFINITION. Memory as a core reaches it: copies and leases (R223, R224), a fibre's own unacknowledged stores (R226),
reads performed at the home at once (R255), and the pop of a stream (R96, R282). -/

namespace Sys2Proof.Machine

open Sys2Proof

/-! ## Copies (R223, R224, R260) -/

/-- The half of a line that an offset lies in. -/
def halfOf (off : Nat) : Nat := if off < 64 then 0 else 1

def Copy.holds (c : Copy) (half : Nat) : Bool := if half = 0 then c.half0 else c.half1

/-- Whether a lease still runs (R224). -/
def Copy.live (c : Copy) (now : Nat) : Bool := match c.expiry with
  | some e => now < e
  | none => true

/-- The copy that a plain load of a team's core may hit (R224, R244). -/
def State.hit (s : State) (t line half : Nat) : Option Copy :=
  let T := s.team t
  match (s.core T.core).copies.find line with
  | some c => if c.holds half && c.live s.ftime && (T.evictedAt = 0 || T.evictedAt < c.granted) then some c else none
  | none => none

/-- Whether a message carries a store of a lane that it has issued and that is not yet acknowledged, laid over a line
(R226). -/
def Msg.overlay (t c l line : Nat) (m : Mem) : Msg → Mem
  | .write (.crew u d _ lanes _) addr data tag =>
    if u = t ∧ d = c ∧ lanes.contains l ∧ addr / 128 = line then m.store (addr % 128) data tag else m
  | .ack (.crew u d _ lanes _) addr data tag _ _ _ _ _ =>
    if u = t ∧ d = c ∧ lanes.contains l ∧ addr / 128 = line then m.store (addr % 128) data tag else m
  | _ => m

/-- A line as a fibre of lane `l` sees it: its own latest stores over it.
[DEDUCED: log entry 27] -/
def State.overlay (s : State) (t c l line : Nat) (m : Mem) : Mem :=
  s.msgs.foldl (fun m x => x.2.overlay t c l line m) m

/-- Whether a message is a read of a line that a fibre has issued and not received. -/
def Msg.readsFor (t c l line : Nat) : Msg → Bool
  | .read o n _ _ parts => o.team == t && o.crew == c && n == line && parts.any (·.lane == l)
  | .readReply o n _ _ parts _ _ _ _ => o.team == t && o.crew == c && n == line && parts.any (·.lane == l)
  | .atomic o n _ _ parts => o.team == t && o.crew == c && n == line && parts.any (·.lane == l)
  | .atomicReply o n _ vals .. => o.team == t && o.crew == c && n == line && vals.any (·.1 == l)
  | _ => false

def State.readsFor (s : State) (t c l line : Nat) : Bool := s.msgs.any fun x => x.2.readsFor t c l line

/-- The unit that issues a request (R312), with the guard ranges of the braid's fibres. -/
def State.origin (s : State) : Origin :=
  let g (l : Nat) : Option Guard := (s.curLane l).guard0
  { team := s.cur.team, crew := s.cur.crew, core := (s.team s.cur.team).core
    pc := (s.curLane (s.cur.lanes.headD 0)).ustart
    word := s.cur.unit.getLastD 0, ulen := BitVec.ofNat 3 s.cur.unit.length, before := forLanes s.cur.lanes g
    after := forLanes s.cur.lanes fun l => guardAfter (g l) s.cur.unit s.cur.unit.length, uid := s.next }

/-! ## Reads at the home (R255, R273) -/

/-- A read performed at the home now, without a lease, of bytes of one line. -/
def State.readHome (s : State) (a n : Nat) (e : MemErr := MemErr.none) : State × List Byte × Bool × Bool :=
  let f := s.forwarded a
  let s := (s.readTransition (f / 128)).touchLine (f / 128) e false
  (s, s.mem.bytes f n, s.mem.tagOf f n, s.mem.poisonOf f n)

/-- Bytes with the tag and the mark of each byte's sector. -/
structure Bytes where
  data : List Byte := []
  tags : List Bool := []
  marks : List Bool := []
  deriving DecidableEq, Repr

def Bytes.append (x y : Bytes) : Bytes := ⟨x.data ++ y.data, x.tags ++ y.tags, x.marks ++ y.marks⟩

/-- Bytes of a memory. -/
def Mem.taken (m : Mem) (a n : Nat) : Bytes :=
  ⟨m.bytes a n, (List.range n).map fun i => m.tag ((a + i) / 32), (List.range n).map fun i => m.poisoned ((a + i) / 32)⟩

/-- What a read of a range by the device gives. -/
inductive RangeRead where
  | ok (s : State) (b : Bytes)
  | wait (s : State)
  | fail (cause : BitVec 8)

/-- Reads pieces at the home, each line at one instant. -/
def State.readPieces (s : State) : List (Nat × Nat) → RangeRead
  | [] => .ok s {}
  | (a, n) :: r => match s.readBlocked a n with
    | some s => .wait s
    | none =>
      let f := s.forwarded a
      if s.lostHome f then
        match State.readPieces s r with
        | .ok s' b => .ok s' (Bytes.append ⟨(Mem.taken s.mem f n).data, List.replicate n true, List.replicate n true⟩ b)
        | x => x
      else
        let s := (s.readHome a n).1
        match State.readPieces s r with
        | .ok s' b => .ok s' ((Mem.taken s.mem f n).append b)
        | x => x

/-- Reads locations in turn; stash locations are the caller's. -/
def State.readLocs (s : State) : List (Loc × Nat) → RangeRead
  | [] => .ok s {}
  | (.mem a .., n) :: r => match s.readPieces (linePieces (n / 128 + 2) a n) with
    | .ok s b => match State.readLocs s r with
      | .ok s c => .ok s (b.append c)
      | x => x
    | x => x
  | (.view off, n) :: r => match State.readLocs (s.viewRead off n).1 r with
    | .ok s' c => .ok s' (Bytes.append ⟨(s.viewRead off n).2, List.replicate n false, List.replicate n false⟩ c)
    | x => x
  | (.stash _, _) :: r => State.readLocs s r

/-- Reads a range of an object through a capability of a context, for the device itself. -/
def State.readRange (s : State) (ctx : Nat) (cap : DWord) (n : Nat) (need : BitVec 4) : RangeRead :=
  match s.checkRange ctx 0 cap need (n / Config.frameBytes + 2) n with
  | .error c => .fail c
  | .ok ls => s.readLocs ls

/-! ## Loaded values -/

/-- Bytes, sign extension and registers of a size code (R74). -/
def sizeBytes (z : BitVec 3) : Nat := if z.toNat ≤ 1 then 1 else if z.toNat ≤ 3 then 2 else if z = 4 then 4 else if z = 5 then 8 else 16
def sizeSigned (z : BitVec 3) : Bool := z == 1 || z == 3
def sizeRegs (z : BitVec 3) : Nat := if z = 6 then 4 else if z = 5 then 2 else 1

/-- A loaded number as register bits: a value under four bytes is extended (R74). -/
def extendTo (size : Nat) (signed : Bool) (v : Nat) : BitVec 128 :=
  if signed then ((BitVec.ofNat (8 * size) v).signExtend 32).setWidth 128 else BitVec.ofNat 128 v

/-! ## Stream pops (R96, R282) -/

/-- What a pop gives. -/
inductive Fetched where
  /-- number, tag -/
  | value (s : State) (v : Nat) (tag : Bool)
  | wait (s : State) (w : Wake)
  | fail (cause : BitVec 8) (eaddr : DWord)

/-- Whether a part is the next element of a fibre's stream. -/
def Part.elementOf (l n : Nat) (p : Part) : Bool := p.lane == l && p.stream == some n

/-- Whether a message is the load of the next element of a fibre's stream. -/
def Msg.fetches (t c l n : Nat) : Msg → Bool
  | .read o _ _ _ parts => o.team == t && o.crew == c && parts.any (Part.elementOf l n)
  | .readReply o _ _ _ parts _ _ _ _ => o.team == t && o.crew == c && parts.any (Part.elementOf l n)
  | _ => false

def State.elementDue (s : State) (t c l n : Nat) : Bool := s.msgs.any fun m => m.2.fetches t c l n

/-- The message without the elements of a crew's streams that `gone` names by lane and stream register. -/
def Msg.withoutElements (t c : Nat) (gone : Nat → Nat → Bool) (m : Msg) : Msg :=
  let keep (p : Part) : Bool := !p.stream.any fun n => gone p.lane n
  match m with
  | .read o line obj kind parts =>
    if o.team = t ∧ o.crew = c then .read o line obj kind (parts.filter keep) else m
  | .readReply o line obj kind parts data copy times perf =>
    if o.team = t ∧ o.crew = c then .readReply o line obj kind (parts.filter keep) data copy times perf else m
  | m => m

/-- A fibre without the elements of its streams that `gone` names (R282). -/
def Lane.unread (gone : Nat → Bool) (L : Lane) : Lane :=
  { L with streams := L.streams.mapVals fun n x => if gone n then { x with got := none } else x }

/-- Elements read ahead, or on their way, are discarded (R282). -/
def State.discardElements (s : State) (gone : Nat → Nat → Bool) : State :=
  if s.curCrew.lanes.all fun x => x.2.streams.all fun y => !gone x.1 y.1 then s
  else
    ({ s with msgs := s.msgs.mapVals fun _ m => m.withoutElements s.cur.team s.cur.crew gone }).updCrew s.cur.team s.cur.crew fun C =>
      { C with lanes := C.lanes.mapVals fun l L => L.unread (gone l) }

/-- FENCE, LDACQ, MWAIT, BWAIT and wider atomics discard the elements read ahead of their fibres (R282). -/
def State.discardAhead (s : State) (ls : List Nat) : State := s.discardElements fun l _ => ls.contains l

/-- The load of a stream's next element of `size` bytes (R282): from the stash, the view or a copy at once, else by a
request for its line, as any plain load. -/
def State.loadElement (s : State) (t c l n : Nat) (cap : DWord) (size : Nat) (signed : Bool) : Fetched :=
  match s.check t cap size size needR with
  | .error cause => .fail cause cap
  | .ok (.view off) => .value (s.viewRead off size).1 (leNat (s.viewRead off size).2) false
  | .ok (.stash off) =>
    match s.touchStash t (off / 128) with
    | .wait s => .wait s (.stash (off / 128))
    | .fail cause a => .fail cause a
    | .ready s =>
      if (s.team t).body.stash.poisonOf off size then .wait (s.consume t) (.stash (off / 128))
      else
        let r := s.stashRead t off size
        .value r.1 r.2.1 r.2.2
  | .ok (.mem a obj frame _ _ _) =>
    let line := a / 128
    match if s.readsFor t c l line then none else s.hit t line (halfOf (a % 128)) with
    | some k =>
      let m := s.overlay t c l line k.data
      if m.poisonOf (a % 128) size then .wait (s.consume t) (.regs [])
      else .value s (m.num (a % 128) size) (m.tagOf (a % 128) size)
    | none =>
      if s.elementDue t c l n then .wait s (.element n)
      else
        .wait ((s.countAccess (s.team t).core (s.teamCtx t) obj frame a).send (.read s.origin line obj .plain
          [{ lane := l, dest := [], off := a % 128, size, signed, tag := false, cap, stream := some n }])) (.element n)

/-- The stream bound to a field value (R96).
[DEDUCED: log entry 39] -/
def Lane.streamAt (L : Lane) (f : RegF) : Option (Nat × Stream) := L.streams.find? fun x => x.2.slot == f

def causeStreamEnd : BitVec 8 := 0x32

/-- The next element of a stream: the one that arrived, or its load (R96, R282). Its tag is that of its sector.
[DEDUCED: log entries 30 and 39] -/
def State.pop (s : State) (t c l n : Nat) (x : Stream) : Fetched :=
  if x.pos = x.count.toNat then .fail causeStreamEnd 0
  else match x.got with
    | some e => .value s e.1.toNat e.2
    | none =>
      let off := ((capOff x.src : Int) + x.pos * x.stride.toInt) % (2 ^ 38 : Int)
      match s.loadElement t c l n (capWith x.src off.toNat) (sizeBytes x.sz) (sizeSigned x.sz) with
      | .value s v tag => .value s (extendTo (sizeBytes x.sz) (sizeSigned x.sz) v).toNat tag
      | r => r

end Sys2Proof.Machine
end

