-- ==== Sys2Proof/Machine/Ops.lean ====
section
/-! DEFINITION. The shared operations of instructions: taking a trap (R298) and leaving a frame (R301, R302), the order
in which a word's causes rank (R297), its waits (R59, R92), completing a word, parking, and convergence points
(R169-R171). -/

namespace Sys2Proof.Machine

open Sys2Proof

/-- What a meaning answers: always a next state (R295). -/
abbrev Result := Host.Outcome State Fault Refusal

/-! ## The issuing braid -/

/-- The fibres for which the word takes effect (R64). -/
def State.effective (s : State) : List Nat := s.cur.lanes.filter fun l => (s.curLane l).guardTrue

/-- What resolves the fields of the issuing crew (R86, R94, R95). -/
def State.env (s : State) : Env :=
  { span := s.spanOf s.cur.team
    emu := match s.curCrew.frames with
      | fr :: _ => if fr.cause.toNat ≤ 7 then some (fr.word, fr.bases) else none
      | [] => none }

/-- The policy on proposal steering of the issuing context (R114, R115). -/
def State.steers (s : State) : Bool := (s.ctx (s.teamCtx s.cur.team)).steer

/-- A fibre goes back to the start of its unit.
[DESIGN CHOICE: log entry 11] -/
def Lane.restart (L : Lane) : Lane := { L with pc := L.ustart, guard := L.guard0, hints := {} }

/-- A fibre goes back to the start of its unit unless it waits at the word of a convergence point (R169). -/
def Lane.stepBack (L : Lane) : Lane := match L.state with
  | .converging _ => L
  | _ => L.restart

/-- Whether what a fibre is due to do at a convergence point is due to some others too. -/
def Lane.sharesDue (L : Lane) (E : List Nat) : Bool := L.due.any fun d => d.lanes.any E.contains

/-- Every fibre of the issuing braid goes on past the word (R63). -/
def State.advanceAll (s : State) : State := s.mapLanes s.cur.lanes fun _ L => L.advance

/-- The whole braid parks at the start of its unit, each fibre with its own wake condition (R166).
[DESIGN CHOICE: log entry 11] -/
def State.park (s : State) (w : Nat → Wake) : State :=
  s.mapLanes s.cur.lanes fun l L => { L.restart with state := .parked (w l) }

/-- The whole braid parks for a word that takes effect in one fibre: that fibre's wake condition is the braid's. -/
def State.parkOne (s : State) (w : Wake) : State :=
  match s.effective with
  | [] => s
  | l0 :: r => s.park fun l => if l = l0 then w else if r.contains l then .follow l0 else .regs []

/-- The braid consumes an uncorrectable error: the unit takes no effect (R322). -/
def State.spoiled (s : State) : State := (s.consume s.cur.team).park fun _ => .regs []

/-- Whether a fibre's slot holds a fibre that has not ended. -/
def Lane.live (L : Lane) : Bool := match L.state with
  | .free | .ended => false
  | _ => true

/-! ## Traps (R295-R300) -/

/-- The lanes of a mask. -/
def maskOf (ls : List Nat) : BitVec 32 := ls.foldl (fun m l => m ||| (1#32 <<< l)) 0
def lanesOf (m : BitVec 32) : List Nat := (List.range 32).filter fun l => m.getLsbD l

/-- take_trap (R298): the fibres `E` of the issuing braid take a cause; `word` and `ulen` are EWORD and ULEN. The frame
holds the guard range of each fibre of E: R298 takes them to share one, R165 does not see to it. Where fibres of a split
trap, those that stay behind wait at their word as before it, and are due nothing there (R170).
[DESIGN CHOICE: log entry 42] -/
def State.trapWith (s : State) (E : List Nat) (cause : BitVec 8) (word : Word) (ulen : BitVec 3) (eaddr : DWord) : State :=
  let t := s.cur.team
  let C := s.curCrew
  let b := (s.team t).body
  let v := if cause.toNat ≤ 7 then b.emuvec else b.trapvec
  if Config.maxFrames ≤ C.frames.length ∨ v = 0 then s.escalate t
  else
    let frame : Frame :=
      { epc := (C.lane (E.headD 0)).ustart, cause, mask := maskOf E, word, adv := true, ulen
        after := forLanes E fun l => guardAfter (C.lane l).guard0 s.cur.unit ulen.toNat
        before := forLanes E fun l => (C.lane l).guard0, eaddr
        bases := forLanes E fun l => (C.lane l).wbase }
    let C := C.setLanes (s.cur.lanes.map fun l => (l, (C.lane l).stepBack))
    let lanes := C.lanes.mapVals fun l L =>
      if E.contains l then { L.restart with pc := v, guard := none, state := .ready, did := none, due := none, frozen := false }
      else if L.live then { L with frozen := true, due := if L.sharesDue E then none else L.due } else L
    s.setCurCrew { C with lanes := lanes, frames := frame :: C.frames }

/-- A trap of the issuing unit. -/
def State.trap (s : State) (E : List Nat) (cause : BitVec 8) (eaddr : DWord) : State :=
  s.trapWith E cause (s.cur.unit.getLastD 0) (BitVec.ofNat 3 s.cur.unit.length) eaddr

/-- Trap causes (R296). -/
def causeTrapInsn : BitVec 8 := 0x10
def causeArith : BitVec 8 := 0x11
def causeEmptyRead : BitVec 8 := 0x12
def causeRegRange : BitVec 8 := 0x13
def causeWinRange : BitVec 8 := 0x14
def causeStateWrite : BitVec 8 := 0x15
def causeProposalSteer : BitVec 8 := 0x16
def causeTargetAlign : BitVec 8 := 0x17
def causeSplit : BitVec 8 := 0x18
def causeUncheckedWatch : BitVec 8 := 0x19
def causeEretNoFrame : BitVec 8 := 0x1A
def causeStashParam : BitVec 8 := 0x28
def causeStashWindow : BitVec 8 := 0x29
def causeStashRange : BitVec 8 := 0x2A
def causeEngParam : BitVec 8 := 0x30
def causeEngOrder : BitVec 8 := 0x31
def causeCopyFault : BitVec 8 := 0x33
def causeMatrixMismatch : BitVec 8 := 0x34
def causeLaunchDepth : BitVec 8 := 0x38
def causeLaunchRefused : BitVec 8 := 0x39

/-- The frame pops (R301): the fibres of the new top frame, or all, leave Frozen; the others are in its handler's shade.
[DEDUCED: log entry 38] -/
def Crew.popFrame (C : Crew) : Crew :=
  match C.frames with
  | [] => C
  | _ :: rest =>
    let thaw (l : Nat) : Bool := match rest with
      | [] => true
      | fr :: _ => fr.mask.getLsbD l
    { C with frames := rest, lanes := C.lanes.mapVals fun l L => { L with frozen := !thaw l && L.live } }

/-! ## Convergence (R169-R171) -/

/-- Whether a fibre counts at convergence points (R169, R171). -/
def Crew.counts (C : Crew) (l : Nat) : Bool :=
  (C.lane l).live && (match C.frames with
    | fr :: _ => fr.mask.getLsbD l
    | [] => true)

/-- Where a fibre waits at a convergence point: its extent and its word; different ERET words count as one (R302). -/
def Lane.waitsAt (L : Lane) : Option (Extent × Word) := match L.state with
  | .converging .frame => some (.frame, 0)
  | .converging e => some (e, L.pc)
  | _ => none

/-- The lanes of a tile (R168). -/
def Crew.tileOf (C : Crew) (l : Nat) : List Nat := List.range' (l / 2 ^ C.part * 2 ^ C.part) (2 ^ C.part)

/-- The counting fibres among lanes, all of which wait at one point of an extent.
[DEDUCED: log entry 13] -/
def Crew.allAt (C : Crew) (e : Extent) (ls : List Nat) : Option (List Nat) :=
  let xs := ls.filter C.counts
  match xs with
  | [] => none
  | x :: _ =>
    match (C.lane x).waitsAt with
    | some w => if w.1 = e && xs.all (fun l => (C.lane l).waitsAt == some w) then some xs else none
    | none => none

/-- The first lanes of the tiles of a crew. -/
def Crew.tileHeads (C : Crew) : List Nat := (List.range 32).filter fun l => l % 2 ^ C.part == 0

/-- The sets of fibres whose point of convergence is complete: tiles, the whole crew, or the fibres of EMASK.
[DEDUCED: log entry 13] -/
def Crew.complete (C : Crew) : List (List Nat) :=
  (C.tileHeads.filterMap fun h => C.allAt .tile (C.tileOf h))
    ++ (C.allAt .crew (List.range 32)).toList ++ (if C.frames.isEmpty then [] else (C.allAt .frame (List.range 32)).toList)

/-- The sets that were complete, or split, before and whose fibres have all arrived again (R169, R170). -/
def Crew.dues (C : Crew) (split : Bool) : List (List Nat) :=
  (((List.range 32).filterMap fun l => (C.lane l).due).eraseDups.filter fun d =>
      d.split == split && d.lanes.all fun l => !C.counts l || ((C.lane l).due == some d && (C.lane l).waitsAt.isSome)).map
    fun d => d.lanes.filter C.counts

/-- The complete sets that a braid's arrival finds: those due from before, and new ones that hold no fibre of these. -/
def Crew.arrived (C : Crew) : List (List Nat) :=
  C.dues false ++ C.complete.filter fun xs => xs.all fun l => (C.lane l).due.isNone

/-- The fibres of a set that stand at the lowest PC. -/
def Crew.lowest (C : Crew) (ls : List Nat) : List Nat :=
  match ls with
  | [] => []
  | x :: r =>
    let p := r.foldl (fun p l => Nat.min p (C.lane l).pc.toNat) (C.lane x).pc.toNat
    ls.filter fun l => (C.lane l).pc.toNat == p

/-- A set of counting fibres that all wait, but not at one point.
[DESIGN CHOICE: log entry 34] -/
def Crew.allMixed (C : Crew) (ls : List Nat) : Option (List Nat) :=
  let xs := ls.filter C.counts
  if !xs.isEmpty && xs.all (fun l => (C.lane l).waitsAt.isSome && (C.lane l).due.isNone)
      && xs.any (fun l => (C.lane l).waitsAt != (C.lane (xs.headD 0)).waitsAt) then some xs
  else none

/-- The trapping braid of a CONVERGENCE_SPLIT, if there is one (R170): one that is due, a tile's fibres, or the crew's
when no tile is complete.
[DEDUCED: log entries 13 and 40] -/
def Crew.split (C : Crew) : Option (List Nat) :=
  match (C.dues true).head?.orElse fun _ => (C.tileHeads.findSome? fun h => C.allMixed (C.tileOf h)).map C.lowest with
  | some xs => some xs
  | none => if C.complete.isEmpty then (C.allMixed (List.range 32)).map C.lowest else none

/-- Fibres leave a convergence point to issue its unit again, Ready from a cycle on: what they are due to do there
stands. -/
def Crew.release (C : Crew) (age : Nat) (split : Bool) (ls : List Nat) : Crew :=
  C.setLanes (ls.map fun l =>
    (l, { (C.lane l).restart with state := .ready, age, due := some { lanes := ls, split } }))

/-- After fibres ended, a frame popped or other fibres went on: points now complete, and the braid of a split, issue
again (R169, R170). -/
def Crew.recheck (C : Crew) (age : Nat) : Crew :=
  match C.arrived with
  | [] => match C.split with
    | some xs => C.release age true xs
    | none => C
  | xs => xs.foldl (fun C ls => C.release age false ls) C

/-! ## Operands, waits and the order of causes (R59, R87, R92, R297) -/

/-- What a word asks of its operands. -/
structure Ask where
  srcs : List Src := []
  dsts : List Dst := []
  /-- the fibres whose destinations it writes -/
  fills : Lane → Bool := fun _ => true
  /-- a release of R240 -/
  release : Bool := false
  /-- it takes effect in the lowest fibre only (R218) -/
  single : Bool := false
  /-- the steering tag without the guard's (R113) -/
  steer : Lane → List Val → Option Bool := fun _ _ => none
  /-- a cause of group 6 of R297 -/
  early : Nat → Lane → List Val → Option (BitVec 8 × DWord) := fun _ _ _ => none
  /-- a cause of group 6 that rests on no operand, or on those that a fibre has whose other pops failed: it raises it
  too. The first argument says which sources, by position, it has -/
  known : (Nat → Bool) → Lane → List Val → Option (BitVec 8 × DWord) := fun _ _ _ => none
  /-- a cause of group 7 of R297 -/
  late : Nat → Lane → List Val → Option (BitVec 8 × DWord) := fun _ _ _ => none

/-- The braid parks, each fibre with its own wake condition, or as its lowest fibre. -/
def State.parkFor (s : State) (a : Ask) (w : Nat → Wake) : State :=
  if a.single then s.parkOne (w (s.effective.headD 0)) else s.park w

/-- The fibres whose operands a word reads. -/
def State.readers (s : State) (a : Ask) : List Nat := if a.single then s.effective.take 1 else s.effective

/-- Whether a source is taken from a stream. -/
def Src.popped (a : Src) (L : Lane) : Bool := a.pops && (L.streamAt a.f).isSome

/-- The members of a source that are registers: a popped source's first member is the element. -/
def Src.slots (a : Src) (E : Env) (l : Nat) (L : Lane) : List Slot :=
  if a.popped L then (E.slots l L a.f a.n).tail else E.slots l L a.f a.n

/-- The empty registers of a source. -/
def Src.empty (a : Src) (E : Env) (l : Nat) (L : Lane) : List Nat :=
  (a.slots E l L).filterMap fun x => match x with
    | .reg n => if (L.reg n).full then none else some n
    | _ => none

/-- The empty registers of a destination. -/
def Dst.empty (d : Dst) (E : Env) (l : Nat) (L : Lane) : List Nat :=
  (E.regsOf l L d.f d.n).filter fun n => !(L.reg n).full

/-- Whether a field of the word reaches past the span (R87). -/
def Ask.outOfRange (a : Ask) (E : Env) (l : Nat) (L : Lane) : Bool :=
  a.srcs.any (fun x => (x.slots E l L).contains .bad) || a.dsts.any fun d => (E.slots l L d.f d.n).contains .bad

/-- The registers that a fibre waits for (R59, R92). -/
def Ask.waits (a : Ask) (E : Env) (l : Nat) (L : Lane) : List Nat :=
  a.srcs.flatMap (fun x => x.empty E l L) ++ (if a.fills L then a.dsts.flatMap fun d => d.empty E l L else [])

/-- Whether a fibre's lane is in a watch entry (R240). -/
def Crew.watched (C : Crew) (l : Nat) : Bool := C.watch.any fun e => e.2.mask.getLsbD l

/-- Whether some source register holds part of a poisoned tile (R334). -/
def State.readsSpoilt (s : State) (a : Ask) (ls : List Nat) : Bool :=
  let E := s.env
  ls.any fun l =>
    let L := s.curLane l
    !L.spoilt.isEmpty && a.srcs.any fun y => (y.slots E l L).any fun z => match z with
      | .reg n => L.spoilt.contains n
      | _ => false

/-- The causes of groups 2 to 4 of R297, and the waits: the state in which the word does not go on. A word that waits for
a source has not issued (R59).
[DESIGN CHOICE: log entry 37] -/
def State.notReady (s : State) (a : Ask) : Option State :=
  let E := s.env
  let C := s.curCrew
  let ls := s.readers a
  if ls.any fun l => a.outOfRange E l (C.lane l) then some (s.trap s.effective causeRegRange 0)
  else if ls.any fun l => a.srcs.any fun x => x.trapping && !(x.empty E l (C.lane l)).isEmpty then
    some (s.trap s.effective causeEmptyRead 0)
  else if a.release && ls.any C.watched then some (s.trap s.effective causeUncheckedWatch 0)
  else if ls.any fun l => !(a.waits E l (C.lane l)).isEmpty then
    let t := s.parkFor a fun l => .regs (if ls.contains l then a.waits E l (C.lane l) else [])
    let starved := ls.any fun l => a.srcs.any fun x => !(x.empty E l (C.lane l)).isEmpty
    some (if starved then { t with cur := { t.cur with starved := true } } else t)
  else if s.readsSpoilt a ls then some s.spoiled
  else none

/-- The fields of a word that pop, each once (R96). -/
def Ask.popFields (a : Ask) (L : Lane) : List RegF := ((a.srcs.filter (·.popped L)).map Src.f).eraseDups

/-- What the pops of one fibre give. -/
inductive Popped where
  | got (s : State) (L : Lane) (els : List (RegF × Val))
  | wait (s : State) (w : Wake)
  /-- with the elements of the fields popped before, and the fields that have none -/
  | fail (els : List (RegF × Val)) (none' : List RegF) (cause : BitVec 8) (eaddr : DWord)

/-- Pops the streams bound to fields, in turn.
[DEDUCED: log entry 39] -/
def State.popAll (s : State) (t c l : Nat) (L : Lane) : List RegF → List (RegF × Val) → Popped
  | [], els => .got s L els
  | f :: r, els =>
    match L.streamAt f with
    | none => State.popAll s t c l L r els
    | some (n, x) =>
      match s.pop t c l n x with
      | .value s v tag =>
        State.popAll s t c l { L with streams := L.streams.put n { x with pos := x.pos + 1, got := none } } r
          (els ++ [(f, ⟨BitVec.ofNat 128 v, tag⟩)])
      | .wait s w => .wait s w
      | .fail cause a => .fail (els ++ (f :: r).map fun g => (g, Val.zero)) (f :: r) cause a

/-- Reads a source, a popped element standing in the place of its first member. -/
def Src.read (a : Src) (E : Env) (l : Nat) (L : Lane) (els : List (RegF × Val)) : Val :=
  match if a.pops then els.find? (·.1 == a.f) else none with
  | none => E.get l L a.f a.n
  | some (_, v) =>
    let rs := (E.slots l L a.f a.n).tail.map L.at
    ⟨joinWords (v.w32 :: rs.map Reg.val), v.tag || rs.any Reg.tag⟩

/-- The fibres with their operands, and the fibres whose pops failed, with the operands they do have and the cause of
group 6 that these raise, if any. -/
inductive Gathered where
  | all (s : State) (xs : List (Nat × Lane × List Val))
      (bad : List ((Nat × Lane × List Val) × Option (BitVec 8 × DWord) × BitVec 8 × DWord))
  | wait (s : State) (l : Nat) (w : Wake)

/-- Reads the operands of the fibres, ascending (R9). -/
def State.gather (s : State) (a : Ask) (E : Env) : List Nat → Gathered
  | [] => .all s [] []
  | l :: r =>
    let L := s.curLane l
    match s.popAll s.cur.team s.cur.crew l L (a.popFields L) [] with
    | .wait s w => .wait s l w
    | .fail els gone c e =>
      match State.gather s a E r with
      | .all s xs bad =>
        let vs := a.srcs.map fun x => x.read E l L els
        let has (i : Nat) : Bool := (a.srcs[i]?).any fun x => !(x.pops && gone.contains x.f)
        .all s xs (((l, L, vs), a.known has L vs, c, e) :: bad)
      | g => g
    | .got s L els =>
      match State.gather s a E r with
      | .all s xs bad => .all s ((l, L, a.srcs.map fun x => x.read E l L els) :: xs) bad
      | g => g

/-! ### Registers that an MMA names (R242) -/

/-- The tickets of the issuing crew whose named registers meet a list of registers. -/
def Crew.breached (C : Crew) (rs : List (Nat × Nat)) : List Nat :=
  (C.named.filter fun x => x.2.any rs.contains).map Prod.fst

/-- Regions of a team's tensor buffer hold undefined values (R8). -/
def State.blurRegions (s : State) (t : Nat) (rs : List (Nat × Nat)) : State :=
  rs.foldl (fun s r =>
    let x := s.freeBytes r.2
    x.2.updBody t fun b => { b with tensor := b.tensor.store r.1 x.1 true }) s

/-- Every register and every region of the tensor buffer that a breached ticket names holds an undefined value (R8,
R242). -/
def State.scramble (s : State) (t c ticket : Nat) : State :=
  let rs := ((s.crew t c).named.find ticket).getD []
  let s := s.blurRegions t (((s.crew t c).namedBuf.find ticket).getD [])
  let s := rs.foldl (fun s x =>
    let w := s.freeWord
    w.2.updLane t c x.1 fun L => L.setReg x.2 ⟨w.1, true, true⟩) s
  s.updCore (s.team t).core fun K =>
    { K with mats := K.mats.map fun m =>
        if m.team = t ∧ m.crew = c ∧ m.ticket = ticket ∧ !m.dcor then { m with breach := true } else m }

/-- The registers a word touches in its fibres. -/
def Ask.touched (a : Ask) (s : State) (writes : Bool) : List (Nat × Nat) :=
  let E := s.env
  (s.readers a).flatMap fun l =>
    let L := s.curLane l
    let rs := (if writes then [] else a.srcs.flatMap fun x => (x.slots E l L).filterMap fun y => match y with
        | .reg n => some n
        | _ => none)
      ++ a.dsts.flatMap fun d => E.regsOf l L d.f d.n
    rs.map fun n => (l, n)
/-- The tickets whose named registers a word touches, or only writes, before it takes effect. -/
def State.breaches (s : State) (a : Ask) (writes : Bool) : List Nat :=
  if s.curCrew.named.isEmpty then [] else s.curCrew.breached (a.touched s writes)

/-- A word that touches registers named by an MMA breaks R242. -/
def State.breach (s : State) (tickets : List Nat) : State :=
  tickets.foldl (fun s k => s.scramble s.cur.team s.cur.crew k) s

/-- Registers of fibres for which the word does not take effect are read too (R415, R410): one that an MMA names is a
breach, and none when one holds part of a poisoned tile (R242, R334).
[DESIGN CHOICE: log entry 37] -/
def State.peek (s : State) (rs : List (Nat × Nat)) : Option State :=
  if rs.any fun r => (s.curLane r.1).spoilt.contains r.2 then none else some (s.breach (s.curCrew.breached rs))

/-! ### The prologue of a word -/

/-- A word goes on with its operands, or has already stopped: trapped, parked, or without effect. -/
inductive Prologue where
  | stop (s : State)
  | go (s : State) (xs : List (Nat × Lane × List Val))

/-- Group 5 of R297 and its lowest fibre's cause: whether some fibre's steering tag is 1 while STEER is 0 (R113,
R114). -/
def Ask.steered (a : Ask) (xs : List (Nat × Lane × List Val)) : Bool :=
  xs.any fun x => match a.steer x.2.1 x.2.2 with
    | some t => t || x.2.1.gtag
    | none => false

/-- The cause of the lowest fibre among some (R297). -/
def lowestCause (xs : List (Nat × BitVec 8 × DWord)) : Option (BitVec 8 × DWord) :=
  (xs.foldl (fun (m : Option (Nat × BitVec 8 × DWord)) x => match m with
    | some y => if x.1 < y.1 then some x else m
    | none => some x) none).map Prod.snd

/-- What comes before the effect of a word in the fibres for which it takes effect (R59, R92, R96, R297).
[DEDUCED: log entry 13] -/
def State.prepare (s : State) (a : Ask) : Prologue :=
  if s.effective.isEmpty then .stop s.advanceAll
  else
    match s.notReady a with
    | some s => .stop s
    | none =>
      let s := s.breach (s.breaches a false)
      match s.gather a s.env (s.readers a) with
      | .wait s l w =>
        let t := s.parkFor a fun k => if k = l then w else .regs []
        .stop { t with cur := { t.cur with starved := true } }
      | .all s1 xs bad =>
        if !s.steers && a.steered (xs ++ bad.map Prod.fst) then .stop (s.trap s.effective causeProposalSteer 0)
        else
          let early := (xs.filterMap fun x => (a.early x.1 x.2.1 x.2.2).map fun c => (x.1, c))
            ++ bad.filterMap fun x => x.2.1.map fun c => (x.1.1, c)
          match lowestCause early with
          | some c => .stop (s.trap s.effective c.1 c.2)
          | none =>
            let late := xs.filterMap fun x => (a.late x.1 x.2.1 x.2.2).map fun c => (x.1, c)
            match lowestCause ((bad.map fun x => (x.1.1, x.2.2)) ++ late) with
            | some c => .stop (s.trap s.effective c.1 c.2)
            | none => .go s1 xs

/-! ## Completing a word -/

/-- The fibres take their new states and every fibre of the braid goes on past the word. -/
def State.finish (s : State) (a : Ask) (us : List (Nat × Lane)) : State :=
  let C := s.curCrew
  (s.setCurCrew (C.setLanes (s.cur.lanes.map fun l =>
    (l, ((us.find? (·.1 == l)).map Prod.snd |>.getD (C.lane l)).advance)))).breach (s.breaches a true)

/-- The fibres take their new states, their PCs included; the braid's other fibres go on past the word. -/
def State.finishAt (s : State) (a : Ask) (us : List (Nat × Lane)) : State :=
  let C := s.curCrew
  (s.setCurCrew (C.setLanes (s.cur.lanes.map fun l =>
    (l, ((us.find? (·.1 == l)).map Prod.snd).getD (C.lane l).advance)))).breach (s.breaches a true)

/-- A word that changes only the fibres for which it takes effect. -/
def State.operate (s : State) (a : Ask) (f : Env → Nat → Lane → List Val → Lane) : Result :=
  match s.prepare a with
  | .stop s => .next s
  | .go s1 xs => .next (s1.finish a (xs.map fun x => (x.1, f s1.env x.1 x.2.1 x.2.2)))

/-- A word that writes one value, and flags, from its operands. -/
def State.compute (s : State) (a : Ask) (d : Dst) (f : Lane → List Val → Val × BitVec 8) : Result :=
  s.operate { a with dsts := [d] } fun E l L vs =>
    let r := f L vs
    (E.put l L d { r.1 with tag := r.1.tag || L.gt }).raise r.2

/-- A word that writes one predicate from its operands. -/
def State.computeQ (s : State) (a : Ask) (n : PredF) (f : Lane → List Val → (Bool × Bool) × BitVec 8) : Result :=
  s.operate a fun _ _ L vs =>
    let r := f L vs
    (L.setQ n r.1.1 (r.1.2 || L.gt)).raise r.2

/-- The OR of the tags of values (R109). -/
def tagsOf (vs : List Val) : Bool := vs.any Val.tag

/-- A source by position. -/
def valAt (vs : List Val) (i : Nat) : Val := vs.getD i Val.zero

/-! ## Convergence points -/

/-- The braid arrives at a convergence point once its registers are ready; when a tile, the crew or EMASK is complete,
its fibres perform the word together (R169). A split traps (R170).
[DEDUCED: log entries 13 and 40] -/
def State.converge (s : State) (e : Extent) (a : Ask) (perform : State → Result) : Result :=
  match s.notReady a with
  | some s => .next s
  | none =>
    let s := s.mapLanes s.cur.lanes fun _ L => { L with state := .converging e }
    let C := s.curCrew
    let age := s.nextCycle s.cur.team
    match C.arrived.filter fun xs => xs.any s.cur.lanes.contains with
    | [] =>
      match C.split with
      | none => .next s
      | some xs =>
        if xs.any s.cur.lanes.contains then
          let s := { s with cur := { s.cur with lanes := xs } }
          let E := s.effective
          .next (s.trap (if E.isEmpty then xs else E) causeSplit 0)
        else .next (s.setCurCrew (C.release age true xs))
    | sets =>
      let ls := (List.range 32).filter fun l => sets.any (·.contains l)
      let torn := (C.split.toList.filter fun xs => xs.all fun l => !ls.contains l)
      let s := if torn.isEmpty then s else s.setCurCrew (torn.foldl (fun C xs => C.release age true xs) C)
      let s := { s with cur := { s.cur with lanes := ls } }
      perform (s.mapLanes ls fun _ L => { L with state := .ready, age })

end Sys2Proof.Machine
end

