-- ==== Sys2Proof/Machine/Fibre.lean ====
section
/-! DEFINITION. The life of fibres and teams as instructions touch it: what is still in flight for a fibre (R162, R305),
ending (R164, R382), checkpoints (R331), and a team's move to Draining (R173). -/

namespace Sys2Proof.Machine

open Sys2Proof

/-- The lanes whose registers a message in flight will write, for a crew (R92). -/
def Msg.writesLanes (t c : Nat) : Msg → List Nat
  | .read o _ _ _ parts => if o.team = t ∧ o.crew = c then parts.map Part.lane else []
  | .readReply o _ _ _ parts _ _ _ _ => if o.team = t ∧ o.crew = c then parts.map Part.lane else []
  | .atomic o _ _ _ parts => if o.team = t ∧ o.crew = c then parts.map AtomPart.lane else []
  | .atomicReply o _ _ vals .. => if o.team = t ∧ o.crew = c then vals.map Prod.fst else []
  | .held o lane .. => if o.team = t ∧ o.crew = c then [lane] else []
  | .division u d vals _ => if u = t ∧ d = c then vals.map Prod.fst else []
  | .special u d vals _ => if u = t ∧ d = c then vals.map Prod.fst else []
  | .ftime u d lanes => if u = t ∧ d = c then lanes.map Prod.fst else []
  | _ => []

/-- Whether a long-latency value of a fibre is still to come. -/
def State.inFlight (s : State) (t c l : Nat) : Bool := s.msgs.any fun m => (m.2.writesLanes t c).contains l

/-- Whether a load or an atomic of a fibre is still to come. -/
def State.valueDue (s : State) (t c l : Nat) : Bool := s.msgs.any fun m => match m.2 with
  | .division .. | .special .. | .ftime .. => false
  | x => (x.writesLanes t c).contains l

/-- Ended fibres whose long-latency writes have all arrived free their slots (R89, R162). -/
def State.reap (s : State) (t c : Nat) : State :=
  s.updCrew t c fun C =>
    { C with lanes := C.lanes.mapVals fun l L =>
        if L.state = .ended ∧ !s.inFlight t c l then { L with state := .free } else L }

/-- Frames whose EMASK is empty pop, from the top (R164, R301).
[DEDUCED: log entry 30] -/
def popEmpty : (fuel : Nat) → Crew → Crew
  | 0, C => C
  | n + 1, C => match C.frames with
    | fr :: _ => if fr.mask = 0 then popEmpty n C.popFrame else C
    | [] => C

/-- A team whose every fibre has ended begins to drain (R173). -/
def Team.ended (T : Team) : Bool := T.body.crews.all fun c => c.2.lanes.all fun l => !l.2.live

/-- Fibres of a crew end (R164, R382): their stream bindings go, and they leave every EMASK.
[DEDUCED: log entry 38] -/
def State.endFibres (s : State) (t c : Nat) (ls : List Nat) : State :=
  let C := s.crew t c
  let C := C.setLanes (ls.map fun l =>
    (l, { (C.lane l) with state := .ended, frozen := false, streams := [], guard := none, hints := {}, due := none }))
  let C :=
    { C with
      frames := C.frames.map fun fr => { fr with mask := fr.mask &&& ~~~(maskOf ls) }
      tickets := C.tickets.mapVals fun _ k => { k with gone := k.gone || ls.contains k.lane } }
  let C := (popEmpty Config.maxFrames C).recheck (s.nextCycle t)
  let s := (s.setCrew t c C).reap t c
  let T := s.team t
  if T.ended ∧ T.state = .running then s.setTeam t { T with state := .draining } else s

/-- The state of a crew at a unit boundary: a braid within a unit stands at the unit's start. -/
def Crew.atBoundary (C : Crew) (skip : List Nat) : Crew :=
  let open' := (C.braids.filter fun b => 0 < b.issued && b.issued < b.unit.length).flatMap Braid.lanes
  let ls := open'.filter fun l => !skip.contains l
  { C.setLanes (ls.map fun l => (l, (C.lane l).restart)) with braids := [] }

/-- The messages in flight for the fibres of a team. -/
def State.loadsOf (s : State) (t : Nat) : AMap Msg :=
  s.msgs.filter fun m => match m.2 with
    | .read o .. | .readReply o .. | .atomic o .. | .atomicReply o .. | .held o .. => o.team == t
    | .division u .. | .special u .. | .ftime u .. => u == t
    | _ => false

/-- A checkpoint (R331): the shadow of the whole team, and a new interval. `skip` names the crew and the fibres whose
unit has just taken effect.
[DESIGN CHOICE: log entry 24] -/
def State.checkpoint (s : State) (t : Nat) (skip : Option (Nat × List Nat)) : State :=
  let T := s.team t
  let crews := T.body.crews.mapVals fun c C => C.atBoundary (match skip with
    | some k => if k.1 = c then k.2 else []
    | none => [])
  s.setTeam t
    { T with
      shadow := some { T.body with crews := crews }, shadowLoads := s.loadsOf t, shadowSeq := s.next, recalled := []
      rollbacks := 0 }

/-- What an operation numbered `seq` does to a team reaches its shadow too when it was issued before the checkpoint: a
rollback waits for it, and what it wrote stands (R332, R333).
[DESIGN CHOICE: log entry 24] -/
def State.alsoShadow (s : State) (t seq : Nat) (f : State → State) (s1 : State) : State :=
  match (s.team t).shadow with
  | some b =>
    if seq < (s.team t).shadowSeq then
      let s2 := f (s.updTeam t fun T => { T with body := b })
      s1.updTeam t fun T => { T with shadow := some (s2.team t).body }
    else s1
  | none => s1

/-- An operation of one team acts on the team and, where that is due, on its shadow. -/
def State.bothBodies (s : State) (t seq : Nat) (f : State → State) : State := s.alsoShadow t seq f (f s)

/-- A checkpoint that the issuing word makes. -/
def State.checkpointHere (s : State) : State := s.checkpoint s.cur.team (some (s.cur.crew, s.cur.lanes))

/-! ## Braids that form (R165, R166) -/

/-- Whether a fibre may join a braid. -/
def Lane.canJoin (L : Lane) : Bool := L.state == .ready && !L.frozen

/-- Whether a braid has issued some but not all words of its unit (R63, R165). -/
def Braid.midUnit (b : Braid) : Bool := decide (0 < b.issued) && decide (b.issued < b.unit.length)

/-- The cycle before which some fibres stay ineligible: the latest of the braids that they come from (R60, R387). R165 does
not list it among what a regroup carries.
[DESIGN CHOICE: log entry 34] -/
def Crew.stallOf (C : Crew) (ls : List Nat) : Nat :=
  C.braids.foldl (fun m b => if !b.midUnit && b.lanes.any ls.contains then max m b.stall else m) 0

/-- Fibres by PC, one braid for each.
[DESIGN CHOICE: log entry 34] -/
def Crew.byPc (C : Crew) (ls : List Nat) : List Braid :=
  ((ls.map fun l => (C.lane l).pc).eraseDups).map fun p =>
    let xs := ls.filter fun l => (C.lane l).pc == p
    { lanes := xs, stall := C.stallOf xs }

/-- The fibres of a braid that forms carry its counts: the oldest age stamp, the largest wait and pass counts (R165). -/
def Crew.level (C : Crew) (b : Braid) : Crew :=
  let age := b.lanes.foldl (fun m l => min m (C.lane l).age) (C.lane (b.lanes.headD 0)).age
  let waits := b.lanes.foldl (fun m l => max m (C.lane l).waits) 0
  let passes := b.lanes.foldl (fun m l => max m (C.lane l).passes) 0
  C.setLanes (b.lanes.map fun l => (l, { (C.lane l) with age, waits, passes }))

/-- Braids form beside the others of a crew. -/
def Crew.form (C : Crew) (bs : List Braid) : Crew := bs.foldl Crew.level { C with braids := C.braids ++ bs }

/-- The fibres that stand in no kept braid form new ones.
[DESIGN CHOICE: log entry 34] -/
def Crew.rebraid (C : Crew) (kept : List Braid) : Crew :=
  let ls := (List.range 32).filter fun l => (C.lane l).canJoin && !kept.any fun b => b.lanes.contains l
  Crew.form { C with braids := kept } (C.byPc ls)

/-- Whether a fibre waits at the team barrier; a Frozen one waits once its crew leaves the handler (R425).
[DEDUCED: log entry 43] -/
def Lane.atBarrier (L : Lane) : Bool := L.state == .parked .team && !L.frozen

/-- The fibres of a crew that wait at the team barrier go on, Ready from a cycle on, and form braids of their own by PC
(R166, R424); a YIELD of the unit that arrived last holds the braid of its fibres one cycle more (R387).
[DEDUCED: log entry 43] -/
def Crew.passBarrier (C : Crew) (age : Nat) : Crew :=
  let ls := (List.range 32).filter fun l => (C.lane l).atBarrier
  let C1 := C.setLanes (ls.map fun l => (l, { (C.lane l).advance with state := .ready, age }))
  let stall (b : Braid) : Nat :=
    if C.braids.any fun x => x.yield && x.lanes.any b.lanes.contains then age + 1 else age
  let old := C.braids.map fun b => { b with lanes := b.lanes.filter fun l => !ls.contains l }
  Crew.form { C1 with braids := old.filter fun b => !b.lanes.isEmpty } ((C1.byPc ls).map fun b => { b with stall := stall b })

/-- When every fibre of a team that counts waits at TBAR, the checkpoint is taken and all go on (R424).
[DEDUCED: log entry 43] -/
def State.barrierCheck (s : State) (t : Nat) (skip : Option (Nat × List Nat)) : State :=
  let crews := (s.team t).body.crews
  let live := crews.flatMap fun c => (c.2.lanes.filter fun l => l.2.live).map Prod.snd
  if live.isEmpty || !live.all Lane.atBarrier then s
  else
    (s.updBody t fun b =>
      { b with crews := b.crews.mapVals fun _ C => C.passBarrier (s.nextCycle t) }).checkpoint t skip

/-- The fibre state of R84 in a lane slot; the slot's registers stay (R89).
[DESIGN CHOICE: log entry 85] -/
def Lane.start (L : Lane) (pc : Word) (fmode : BitVec 5) (ftrapen : BitVec 8) (taint frozen : Bool) (age : Nat) : Lane :=
  { state := .ready, frozen, pc, taint, fmode, ftrapen, regs := L.regs, spoilt := L.spoilt, age }

/-- Under STEER 1 a fibre whose steering tag is 1 becomes tainted (R115). -/
def Lane.steered (L : Lane) (own : Bool) : Lane := { L with taint := L.taint || own || L.gtag }

/-- Lanes leave every watch entry; an entry without lanes is freed (R238, R302). -/
def Crew.unwatch (C : Crew) (ls : List Nat) : Crew :=
  { C with watch := (C.watch.mapVals fun _ e => { e with mask := e.mask &&& ~~~(maskOf ls) }).filter fun e => e.2.mask != 0 }

end Sys2Proof.Machine
end

