-- ==== Sys2Proof/Machine/Flow.lean ====
section
/-! DEFINITION. Control flow: branches, calls and jumps (R363, R389, R413), the start and end of fibres (R163, R164),
windows (R88), TFENCE (R305), traps and returns (R79, R302, R303), and hint words (R385-R387). -/

namespace Sys2Proof.Machine

open Sys2Proof

/-- The link register.
[DEDUCED: log entry 87] -/
def linkDst : Dst := { f := 62 }

/-- The own steering tag of a conditional branch (R113). -/
def branchTag (q : PredF) (L : Lane) : Bool := L.qt q

/-- A branch or call (R363): `link` writes g62 when it is taken.
[DEDUCED: log entry 87] -/
def State.branch (s : State) (q : PredF) (neg link : Bool) (o : BitVec 21) : Result :=
  let takes (L : Lane) : Bool := L.q q != neg
  let ask : Ask :=
    { dsts := if link then [linkDst] else [], fills := takes, steer := fun L _ => some (branchTag q L) }
  match s.prepare ask with
  | .stop s => .next s
  | .go s1 xs =>
    let E := s1.env
    .next (s1.finishAt ask (xs.map fun x =>
      let L := x.2.1.steered (branchTag q x.2.1)
      if takes x.2.1 then
        let M := if link then E.put x.1 L linkDst (val32 (L.pc + 4) L.gt) else L
        (x.1, M.jump (branchTarget L.pc o))
      else (x.1, L.advance)))

/-- BR (R363). -/
def execBr (q : PredF) (o : BitVec 21) (s : State) : Result := s.branch q false false o
/-- BRN (R363). -/
def execBrn (q : PredF) (o : BitVec 21) (s : State) : Result := s.branch q true false o
/-- CALL (R363). -/
def execCall (q : PredF) (o : BitVec 21) (s : State) : Result := s.branch q false true o
/-- CALLN (R363). -/
def execCalln (q : PredF) (o : BitVec 21) (s : State) : Result := s.branch q true true o

/-- A target whose low two bits are not 0 (R73). -/
def misaligned (w : Word) : Bool := w.extractLsb' 0 2 != 0

/-- A jump through a register (R363, R389): a is read before g62 is written.
[DEDUCED: log entry 87] -/
def State.jumpReg (s : State) (a : RegF) (p link : Bool) : Result :=
  let ask : Ask :=
    { srcs := [{ f := a, trapping := p }], dsts := if link then [linkDst] else []
      steer := fun _ vs => some (tagsOf vs)
      early := fun _ _ vs => if misaligned (valAt vs 0).w32 then some (causeTargetAlign, 0) else none }
  match s.prepare ask with
  | .stop s => .next s
  | .go s1 xs =>
    let E := s1.env
    .next (s1.finishAt ask (xs.map fun x =>
      let L := x.2.1.steered (tagsOf x.2.2)
      let M := if link then E.put x.1 L linkDst (val32 (L.pc + 4) L.gt) else L
      (x.1, M.jump (valAt x.2.2 0).w32)))

/-- JMPI (R389). -/
def execJmpi (a : RegF) (p : Bool) (s : State) : Result := s.jumpReg a p false
/-- CALLI (R363). -/
def execCalli (a : RegF) (p : Bool) (s : State) : Result := s.jumpReg a p true
/-- RET (R413). -/
def execRet (a : RegF) (p : Bool) (s : State) : Result := s.jumpReg a p false

/-- FEND (R164, R382): a release and a checkpoint. -/
def execFend (s : State) : Result :=
  match s.prepare { release := true } with
  | .stop s => .next s
  | .go s1 xs =>
    let ls := xs.map Prod.fst
    let s2 := s1.mapLanes s1.cur.lanes fun l L => if ls.contains l then L else L.advance
    let s3 := s2.endFibres s.cur.team s.cur.crew ls
    .next (s3.barrierCheck s.cur.team (some (s.cur.crew, s.cur.lanes))).checkpointHere

/-- FSPAWN (R163, R383): the fibres take slots in ascending order.
[DEDUCED: log entry 41] -/
def State.spawn (s : State) (d : RegF) : List (Nat × Lane × List Val) → State
  | [] => s
  | x :: r =>
    let E := s.env
    let C := s.curCrew
    let B := (s.launchOf s.cur.team).map Launch.block
    let a := valAt x.2.2 0
    let L := x.2.1.steered a.tag
    let free := (List.range 32).find? fun l => (C.lane l).state == .free
    let C' := match free with
      | some l => C.setLane l ((C.lane l).start a.w32 ((B.map Block.fmode).getD 0) ((B.map Block.ftrapen).getD 0) L.taint
          (!C.frames.isEmpty) (s.nextCycle s.cur.team))
      | none => C
    let v : Word := match free with
      | some l => BitVec.ofNat 32 l
      | none => 0xFFFFFFFF
    let M := (E.put x.1 L { f := d } (val32 v (a.tag || L.gt))).advance
    State.spawn (s.setCurCrew (C'.setLane x.1 M)) d r

/-- FSPAWN.
[DEDUCED: log entry 41] -/
def execFspawn (d a : RegF) (p : Bool) (s : State) : Result :=
  let ask : Ask :=
    { srcs := [{ f := a, trapping := p }], dsts := [{ f := d }]
      steer := fun _ vs => some (tagsOf vs)
      early := fun _ _ vs => if misaligned (valAt vs 0).w32 then some (causeTargetAlign, 0) else none }
  match s.prepare ask with
  | .stop s => .next s
  | .go s1 xs =>
    let rest := s1.cur.lanes.filter fun l => !xs.any (·.1 == l)
    .next (((s1.mapLanes rest fun _ L => L.advance).spawn d xs).breach (s1.breaches ask true))

/-- The window base that WIN moves to (R88). -/
def windowMoved (L : Lane) (n : BitVec 6) : Int := L.wbase + 8 * n.toInt

/-- WIN (R88, R428). -/
def execWin (n : BitVec 6) (s : State) : Result :=
  s.operate
    { early := fun _ L _ =>
        if windowMoved L n < 0 ∨ s.env.span ≤ windowMoved L n then some (causeWinRange, 0) else none }
    fun _ _ L _ => { L with wbase := (windowMoved L n).toNat }

/-- Whether TFENCE still waits for a fibre: a long-latency result, or an MMA or DCOR it issued (R305).
[DEDUCED: log entry 17] -/
def State.arithmeticDue (s : State) (t c l : Nat) : Bool :=
  s.inFlight t c l ||
    (s.core (s.team t).core).mats.any fun m => m.team == t && m.crew == c && m.lane == l
      && !((s.crew t c).tickets.find m.ticket).any Ticket.gone

/-- TFENCE (R305).
[DEDUCED: log entry 17] -/
def execTfence (s : State) : Result :=
  match s.prepare {} with
  | .stop s => .next s
  | .go s1 xs =>
    let t := s.cur.team
    let c := s.cur.crew
    let ls := xs.map Prod.fst
    if ls.any (s1.arithmeticDue t c) then
      .next (s1.park fun l => if ls.contains l then .arithmetic else .regs [])
    else if !s1.curCrew.mismatch.isEmpty then
      .next ((s1.updCrew t c fun C => { C with mismatch := C.mismatch.tail }).trap ls causeMatrixMismatch 0)
    else if xs.any fun x => x.2.1.fstat &&& x.2.1.ftrapen != 0 then .next (s1.trap ls causeArith 0)
    else .next s1.advanceAll

/-- Where a fibre resumes from a frame (R103, R302). -/
def Frame.resume (fr : Frame) (l : Nat) (L : Lane) : Lane :=
  let pc := if fr.adv then fr.epc + 4 * fr.ulen.setWidth 32 else fr.epc
  { L.goto pc (((if fr.adv then fr.after else fr.before).find l).getD none) with
    wbase := (fr.bases.find l).getD L.wbase, state := .ready }

/-- The return from a frame, in every fibre of its EMASK (R301, R302). -/
def State.returnFrom (s : State) (t c : Nat) : State :=
  let C := s.crew t c
  match C.frames with
  | [] => s
  | fr :: _ =>
    let ls := (lanesOf fr.mask).filter fun l => (C.lane l).live
    if fr.cause = causeHole then (s.setCrew t c (C.unwatch (lanesOf fr.mask))).endFibres t c ls
    else
      let C := C.setLanes (ls.map fun l => (l, fr.resume l (C.lane l)))
      s.setCrew t c (C.popFrame.recheck (s.nextCycle t))

/-- ERET (R302, R373, R374). -/
def execEret (s : State) : Result :=
  if s.curCrew.frames.isEmpty then
    match s.prepare { early := fun _ _ _ => some (causeEretNoFrame, 0) } with
    | .stop s => .next s
    | .go s _ => .next s
  else
    s.converge .frame {} fun s =>
      if s.effective.isEmpty then .next s.advanceAll
      else .next ((s.returnFrom s.cur.team s.cur.crew).barrierCheck s.cur.team (some (s.cur.crew, s.cur.lanes)))

/-- TRAP (R303): n stands in EWORD. -/
def execTrap (_n : BitVec 8) (s : State) : Result :=
  match s.prepare { early := fun _ _ _ => some (causeTrapInsn, 0) } with
  | .stop s => .next s
  | .go s _ => .next s

/-! ## Hints (R60-R64, R385-R387) -/

/-- A hint word of a unit passes in every fibre; it acts where the guard is true (R386). -/
def State.hint (s : State) (f : Lane → Lane) : Result :=
  .next (s.mapLanes s.cur.lanes fun _ L =>
    let M := if L.guardTrue then f L else L
    { M with pc := L.pc + 4, guard := tickGuard L.guard })

/-- LIMM (R61). -/
def execLimm (v : BitVec 22) (s : State) : Result := s.hint fun L => { L with hints := { L.hints with limm := some v } }
/-- GUARD (R64, R386): the range covers the words that follow. -/
def execGuard (q : PredF) (n : Bool) (c : BitVec 3) (s : State) : Result :=
  .next (s.mapLanes s.cur.lanes fun _ L =>
    { L with pc := L.pc + 4, guard := some { q := q, neg := n, left := c.toNat } })
/-- RND (R135). -/
def execRnd (k : BitVec 2) (r : Bool) (m : BitVec 2) (s : State) : Result :=
  s.hint fun L => { L with hints := { L.hints with rnd := some (k, r, m) } }
/-- SAT (R144). -/
def execSat (s : State) : Result := s.hint fun L => { L with hints := { L.hints with sat := true } }

/-- SCHED (R387): the braid's target issues no earlier than `n` cycles after this word. -/
def execSched (y : Bool) (n : BitVec 4) (s : State) : Result :=
  let cyc := (s.core (s.team s.cur.team).core).cycle
  (s.updCrew s.cur.team s.cur.crew fun C =>
    { C with braids := C.braids.map fun b =>
        if b.lanes = s.cur.lanes then { b with stall := cyc + n.toNat, yield := y } else b }).hint id

/-- NOP (R387). -/
def execNop (_v : BitVec 22) (s : State) : Result := .next s.advanceAll
/-- A hint of kinds 8-15 (R83, R387). -/
def execHintIgnored (_k : BitVec 3) (_v : BitVec 22) (s : State) : Result := .next s.advanceAll

/-- The fibres whose guard is true at a word of their unit, which `reach` finds from the range at its start, take a cause
there (R298); where it is true in none, all go on past the unit (R64).
[DESIGN CHOICE: log entry 42] -/
def State.trapAt (s : State) (reach : Option Guard → Option Guard) (cause : BitVec 8) (word : Word) (ulen : BitVec 3) (eaddr : DWord) : State :=
  let on (l : Nat) : Bool :=
    let L := s.curLane l
    { L with guard := reach L.guard0 }.guardTrue
  let E := s.cur.lanes.filter on
  if E.isEmpty then
    s.mapLanes s.cur.lanes fun _ L =>
      L.goto (L.ustart + 4 * ulen.setWidth 32) (guardAfter L.guard0 s.cur.unit ulen.toNat)
  else s.trapWith E cause word ulen eaddr

/-- A vector to the emulation handler (R78, R79): no operand is read, and the fibres whose guard at the unit's target
is true enter it.
[DESIGN CHOICE: log entry 42] -/
def execEmulationVector (cause : BitVec 8) (word : Word) (ulen : BitVec 3) (s : State) : Result :=
  .next (s.trapAt (fun g => guardAtTarget g s.cur.unit) cause word ulen 0)

end Sys2Proof.Machine
end

