-- ==== Sys2Proof/Machine/Loads.lean ====
section
/-! DEFINITION. Memory words: the check of every fibre (R204, R205, R219), plain loads and stores (R393-R396, R419,
R420), stale-allowed loads (R235-R240), LDACQ and STREL (R395, R421), FENCE (R232) and the atomics (R358, R359). -/

namespace Sys2Proof.Machine

open Sys2Proof

/-! ## Reaching memory -/

/-- One fibre's access that passed its check. -/
structure Access where
  lane : Nat
  L : Lane
  vs : List Val
  cap : DWord
  loc : Loc

/-- A memory word has stopped, or goes on with every fibre's access. -/
inductive Reached where
  | stop (s : State)
  | go (s : State) (xs : List Access)

/-- The capability of a format-M access: OFF advanced by OFF7 times the size, modulo 2^38 (R393). -/
def movedCap (c : DWord) (o : BitVec 7) (size : Nat) : DWord :=
  capWith c (((capOff c : Int) + o.toInt * size) % (2 ^ 38 : Int)).toNat

/-- Whether a stash address lies in a window whose capability lacks W (R219). -/
def State.windowLacksW (s : State) (t off : Nat) : Bool := match (s.team t).body.windowOf (off / 128) with
  | some w => needW &&& ~~~ capRights w.cap != 0
  | none => false

/-- The check of a fibre's access (R204, R219). -/
def State.place (s : State) (cap : DWord) (size : Nat) (need : BitVec 4) : Except (BitVec 8) Loc :=
  match s.check s.cur.team cap size size need with
  | .ok (.stash off) =>
    if need &&& needW ≠ 0 ∧ s.windowLacksW s.cur.team off then .error causeRights else .ok (.stash off)
  | r => r

/-- The stash lines that accesses touch: each is present, or waits, or its fill fails (R219). -/
inductive Touched where
  /-- the lanes that wait, with the line -/
  | ok (s : State) (waits : List (Nat × Nat))
  | fail (cause : BitVec 8) (eaddr : DWord)

/-- Touches stash lines for lanes, in turn. -/
def State.touchAll (s : State) (t : Nat) : List (Nat × Nat) → Touched
  | [] => .ok s []
  | x :: r => match s.touchStash t x.2 with
    | .fail c a => .fail c a
    | .ready s => State.touchAll s t r
    | .wait s => match State.touchAll s t r with
      | .ok s ws => .ok s (x :: ws)
      | f => f

/-- The stash line of an access, with its lane. -/
def Access.stashLine (x : Access) : Option (Nat × Nat) := match x.loc with
  | .stash off => some (x.lane, off / 128)
  | _ => none

/-- The wake condition of a lane that waits for a stash line. -/
def stashWake (ws : List (Nat × Nat)) (l : Nat) : Wake := match ws.find? (·.1 == l) with
  | some w => .stash w.2
  | none => .regs []

/-- What comes before a memory word's accesses: operands, every fibre's check, present stash lines. The capability
comes from the operands. -/
def State.reach (s : State) (a : Ask) (capOf : List Val → DWord) (size : Nat) (need : BitVec 4) : Reached :=
  let ask : Ask := { a with late := fun _ _ vs => match s.place (capOf vs) size need with
    | .error c => some (c, capOf vs)
    | .ok _ => none }
  match s.prepare ask with
  | .stop s => .stop s
  | .go s1 xs =>
    let acs := xs.filterMap fun x => match s1.place (capOf x.2.2) size need with
      | .ok loc => some { lane := x.1, L := x.2.1, vs := x.2.2, cap := capOf x.2.2, loc := loc }
      | .error _ => none
    match s1.touchAll s1.cur.team (acs.filterMap Access.stashLine) with
    | .fail c e => .stop (s.trap s.effective c e)
    | .ok s2 [] => .go s2 acs
    | .ok s2 ws => .stop (s2.park (stashWake ws))

/-- The line of an access to memory. -/
def Access.line (x : Access) : Nat := match x.loc with
  | .mem a .. => a / 128
  | _ => 0
def Access.isMem (x : Access) : Bool := match x.loc with
  | .mem .. => true
  | _ => false
/-- The offset in its line. -/
def Access.off (x : Access) : Nat := match x.loc with
  | .mem a .. => a % 128
  | _ => 0
def Access.pdef (x : Access) : Bool := match x.loc with
  | .mem _ _ _ _ _ p => p
  | _ => false
/-- FVER, object and frame index. -/
def Access.frame (x : Access) : BitVec 16 × Nat × Nat := match x.loc with
  | .mem _ obj fr v _ _ => (v, obj, fr)
  | _ => (0, 0, 0)
/-- The tag of its address, guard and taint (R109, R112). -/
def Access.tag (x : Access) : Bool := (valAt x.vs 0).tag || x.L.gt

/-- A core's line access counts when it is forwarded (R212). -/
def State.counted (s : State) (x : Access) : State := match x.loc with
  | .mem a obj frame .. => s.countAccess (s.team s.cur.team).core (s.teamCtx s.cur.team) obj frame a
  | _ => s
def Access.obj (x : Access) : Nat := match x.loc with
  | .mem _ obj .. => obj
  | _ => 0

/-! ## Loads -/

/-- What a load finds at issue. -/
inductive Found where
  | value (v : Nat) (tag : Bool)
  | poison
  | miss
  deriving DecidableEq, Repr

/-- Bytes of a copy as a fibre sees them. -/
def State.fromCopy (s : State) (x : Access) (k : Copy) (size : Nat) : Found :=
  let m := s.overlay s.cur.team s.cur.crew x.lane x.line k.data
  if m.poisonOf x.off size then .poison else .value (m.num x.off size) (m.tagOf x.off size)

/-- A load of one fibre: from the stash, the view, a copy that it hits, or a miss (R394). -/
def State.seek (s : State) (x : Access) (size : Nat) (hits : Bool) : State × Found :=
  let t := s.cur.team
  match x.loc with
  | .view off => ((s.viewRead off size).1, .value (leNat (s.viewRead off size).2) false)
  | .stash off =>
    if (s.team t).body.stash.poisonOf off size then (s, .poison)
    else
      let r := s.stashRead t off size
      (r.1, .value r.2.1 r.2.2)
  | .mem .. =>
    if !hits || s.readsFor t s.cur.crew x.lane x.line then (s, .miss)
    else
      match s.hit t x.line (halfOf x.off) with
      | some k => (s, s.fromCopy x k size)
      | none => (s, .miss)

def State.seekAll (s : State) (size : Nat) (hits : Bool) : List Access → State × List (Access × Found)
  | [] => (s, [])
  | x :: r =>
    let f := s.seek x size hits
    let g := State.seekAll f.1 size hits r
    (g.1, (x, f.2) :: g.2)

/-- A load's size, sign extension and destination. -/
structure Load where
  dst : Dst
  size : Nat
  signed : Bool

/-- The lane after its load issued: its destination is empty (R92). -/
def Load.issued (ld : Load) (E : Env) (x : Access) : Lane := E.drain x.lane x.L ld.dst

/-- What a fibre takes from the line of its request. -/
def Load.part (ld : Load) (E : Env) (x : Access) : Part :=
  { lane := x.lane, dest := E.dest x.lane x.L ld.dst, off := x.off, size := ld.size, signed := ld.signed, tag := x.tag
    cap := x.cap }

/-- The values that loads found at issue are on their way (R92, R394): the keys by lane. -/
def State.sendHeld (s : State) (o : Origin) (E : Env) (ld : Load) : List (Access × Found) → State × List (Nat × Nat)
  | [] => (s, [])
  | (x, .value v tag) :: r =>
    let g := State.sendHeld
      (s.send (.held o x.lane (E.dest x.lane x.L ld.dst) (extendTo ld.size ld.signed v) (tag || x.tag) false)) o E ld r
    (g.1, (x.lane, s.next) :: g.2)
  | _ :: r => State.sendHeld s o E ld r

/-- Requests for the lines of accesses, one a line, in the order in which the lines first appear: the keys by lane. -/
def State.sendReads (s : State) (o : Origin) (kind : LoadKind) (E : Env) (ld : Load) (xs : List Access) :
    List Nat → State × List (Nat × Nat)
  | [] => (s, [])
  | line :: r =>
    let ys := xs.filter (·.line == line)
    let s := ys.head?.elim s s.counted
    let k := s.next
    let g := State.sendReads (s.send (.read o line (ys.head?.elim 0 Access.obj) kind (ys.map (ld.part E)))) o kind E ld xs r
    (g.1, ys.map (fun y => (y.lane, k)) ++ g.2)

/-- The lines of accesses. -/
def linesOf (xs : List Access) : List Nat := (xs.map Access.line).eraseDups

/-- The accesses that missed. -/
def misses (fs : List (Access × Found)) : List Access := (fs.filter fun f => f.2 == .miss).map Prod.fst
def anyPoison (fs : List (Access × Found)) : Bool := fs.any fun f => f.2 == .poison

/-- What loads found goes on its way: requests of a kind for the lines that missed, and held values, with the keys by
lane. -/
def State.sendFound (s : State) (kind : LoadKind) (E : Env) (ld : Load) (fs : List (Access × Found)) :
    State × List (Nat × Nat) :=
  let o := s.origin
  let ms := misses fs
  let g := s.sendReads o kind E ld ms (linesOf ms)
  let h := g.1.sendHeld o E ld fs
  (h.1, g.2 ++ h.2)

/-- The operands of a format-M load. -/
def loadAsk (ld : Load) (b : RegF) (q : Bool) : Ask :=
  { srcs := [{ f := b, n := 2, trapping := q }], dsts := [ld.dst] }

/-- The load that a size code names (R74). -/
def loadOf (z : BitVec 3) (d : RegF) : Load := { dst := { f := d, n := sizeRegs z }, size := sizeBytes z, signed := sizeSigned z }

/-- LD (R394). -/
def execLd (z : BitVec 3) (d b : RegF) (o : BitVec 7) (q : Bool) (s : State) : Result :=
  let ld := loadOf z d
  let ask := loadAsk ld b q
  match s.reach ask (fun vs => movedCap (valAt vs 0).w64 o ld.size) ld.size needR with
  | .stop s => .next s
  | .go s1 xs =>
    let E := s1.env
    let f := s1.seekAll ld.size true xs
    if anyPoison f.2 then .next s1.spoiled
    else .next ((f.1.sendFound .plain E ld f.2).1.finish ask (xs.map fun x => (x.lane, ld.issued E x)))

/-! ### LDSP (R235, R396) -/

/-- The lowest free slot of the watch table. -/
def Crew.freeWatch (C : Crew) : Option Nat := (List.range Config.watchEntries).find? fun k => (C.watch.find k).isNone

/-- The copy of a line that stale-allowed loads may read: expired or not, with every half they touch. -/
def State.specCopy (s : State) (line : Nat) (F : List Access) : Option Copy :=
  let t := s.cur.team
  match (s.core (s.team t).core).copies.find line with
  | some k =>
    if F.all fun x => k.holds (halfOf x.off) then some k else none
  | none => none

/-- Sets an entry of the issuing crew's watch table. -/
def State.setWatch (s : State) (k : Nat) (e : WatchEntry) : State :=
  s.updCrew s.cur.team s.cur.crew fun C => { C with watch := C.watch.put k e }

/-- One line of an LDSP: the state after it, and what its fibres find.
[DEDUCED: log entry 26] -/
def State.specLine (s : State) (o : Origin) (E : Env) (ld : Load) (line : Nat) (F : List Access) :
    State × List (Access × Found) :=
  let mask := maskOf (F.map Access.lane)
  let read (s : State) (kind : LoadKind) : State × List (Access × Found) :=
    ((s.sendReads o kind E ld F [line]).1, F.map fun x => (x, .miss))
  let copied (s : State) (k : Copy) : List (Access × Found) := F.map fun x => (x, s.fromCopy x k ld.size)
  match s.curCrew.watch.find? fun e => e.2.line == line with
  | some (k, e) =>
    let e := { e with mask := e.mask ||| mask }
    match s.specCopy line F with
    | some c =>
      let same := e.stamp == some c.version && e.epoch == c.epoch
      (s.setWatch k (if e.stateAt s.ftime = .pending ∧ same then e else { e with state := .struck }), copied s c)
    | none => read (s.setWatch k e) (.spec none)
  | none =>
    match s.curCrew.freeWatch with
    | none =>
      let f := s.seekAll ld.size true F
      let ms := misses f.2
      ((f.1.sendReads o .plain E ld ms (linesOf ms)).1, f.2)
    | some k =>
      let x := F.head?.elim (0, 0, 0) Access.frame
      let id := s.next
      let s := { s with next := s.next + 1 }
      let entry (c : Option Copy) : WatchEntry :=
        { id, line, mask, state := .pending, stamp := c.map Copy.version, epoch := (c.map Copy.epoch).getD 0
          created := s.ftime, fver := x.1, obj := x.2.1, frame := x.2.2 }
      match s.specCopy line F with
      | some c =>
        ((s.setWatch k (entry c)).send (.check s.cur.team s.cur.crew k id line c.version c.epoch), copied s c)
      | none => read (s.setWatch k (entry none)) (.spec (some (k, id)))

/-- The lines of an LDSP in turn. -/
def State.specAll (s : State) (o : Origin) (E : Env) (ld : Load) (xs : List Access) : List Nat → State × List (Access × Found)
  | [] => (s, [])
  | line :: r =>
    let f := s.specLine o E ld line (xs.filter (·.line == line))
    let g := State.specAll f.1 o E ld xs r
    (g.1, f.2 ++ g.2)

/-- LDSP (R235, R396). -/
def execLdsp (z : BitVec 3) (d b : RegF) (o : BitVec 7) (q : Bool) (s : State) : Result :=
  let ld := loadOf z d
  let ask := loadAsk ld b q
  match s.reach ask (fun vs => movedCap (valAt vs 0).w64 o ld.size) ld.size needR with
  | .stop s => .next s
  | .go s1 xs =>
    let E := s1.env
    let near := s1.seekAll ld.size true (xs.filter fun x => !x.isMem)
    let ms := xs.filter Access.isMem
    let o := near.1.origin
    let far := near.1.specAll o E ld ms (linesOf ms)
    let fs := near.2 ++ far.2
    if anyPoison fs then .next s1.spoiled
    else .next ((far.1.sendHeld o E ld fs).1.finish ask (xs.map fun x => (x.lane, ld.issued E x)))

/-! ### LDACQ (R395) -/

/-- A fibre whose value is on its way waits for it (R233): `keys` are by lane. -/
def Lane.awaits (L : Lane) (keys : List (Nat × Nat)) (l : Nat) : Lane :=
  match keys.find? (·.1 == l) with
  | some k => { L with state := .parked (.acquire k.2) }
  | none => L

/-- The width of a format-O access (R75). -/
def wideBytes (w : Bool) : Nat := if w then 8 else 4

/-- LDACQ. The scope does not change its effect.
[DEDUCED: log entry 12] -/
def execLdacq (_s : BitVec 5) (w : Bool) (d b : RegF) (s : State) : Result :=
  let ld : Load := { dst := { f := d, n := wideN w }, size := wideBytes w, signed := false }
  let ask := loadAsk ld b false
  match s.reach ask (fun vs => (valAt vs 0).w64) ld.size needR with
  | .stop s => .next s
  | .go s1 xs =>
    let E := s1.env
    let f := s1.seekAll ld.size false xs
    if anyPoison f.2 then .next s1.spoiled
    else
      let g := (f.1.discardAhead (xs.map Access.lane)).sendFound .acquire E ld f.2
      .next (g.1.finish ask (xs.map fun x => (x.lane, ((ld.issued E x).unread fun _ => true).awaits g.2 x.lane)))

/-! ## Stores (R419-R421) -/

/-- One more write of the issuing crew is unacknowledged (R227). -/
def State.owe (s : State) : State := s.updCrew s.cur.team s.cur.crew fun C => { C with unacked := C.unacked + 1 }

/-- The store of one fibre: in the stash bank, or sent to the home. -/
def State.storeOne (s : State) (o : Origin) (size : Nat) (x : Access) : State :=
  let v := valAt x.vs 1
  let data := leBytes size v.bits.toNat
  let tag := v.tag || x.tag
  match x.loc with
  | .stash off => s.stashWrite s.cur.team off data tag
  | .mem a _ _ _ _ pdef =>
    ((s.counted x).send (.write (.crew o.team o.crew o.core [x.lane] o.uid) a data (tag || pdef))).owe
  | .view _ => s

/-- The stores of a word, ascending. -/
def State.storeAll (s : State) (size : Nat) (xs : List Access) : State :=
  xs.foldl (fun s' x => s'.storeOne s.origin size x) s

/-- ST (R419). -/
def execSt (z : BitVec 3) (d b : RegF) (o : BitVec 7) (q : Bool) (s : State) : Result :=
  let size := sizeBytes z
  let ask : Ask := { srcs := [{ f := b, n := 2, trapping := q }, { f := d, n := sizeRegs z }] }
  match s.reach ask (fun vs => movedCap (valAt vs 0).w64 o size) size needW with
  | .stop s => .next s
  | .go s1 xs => .next ((s1.storeAll size xs).finish ask (xs.map fun x => (x.lane, x.L)))

/-! ## Fences (R231, R232) -/

/-- Whether a fence of a class lets its fibres pass: the crew's writes, and the earlier values of all of them.
[DEDUCED: log entry 16] -/
def State.fenceOpen (s : State) (t c : Nat) (k : Horizon) (ls : List Nat) : Bool :=
  (s.crew t c).waited s.ftime k && ls.all fun l => !s.valueDue t c l

/-- The wait of a fence for fibres: the braid parked as one, or none when it is over (R232).
[DEDUCED: log entry 16] -/
def State.fenceWait (s : State) (ls : List Nat) (k : Horizon) : Option State :=
  if s.fenceOpen s.cur.team s.cur.crew k ls then none else some (s.park fun _ => .fence k ls)

/-- The horizon class of a scope for the issuing team. -/
def State.horizonHere (s : State) (sc : BitVec 5) : Horizon := s.horizon (s.teamCtx s.cur.team) sc

/-- FENCE (R232, R381): every fibre of the braid counts once some guard is true.
[DEDUCED: log entry 16] -/
def execFence (sc : BitVec 5) (s : State) : Result :=
  if s.effective.isEmpty then .next s.advanceAll
  else if s.cur.lanes.any s.curCrew.watched then .next (s.trap s.effective causeUncheckedWatch 0)
  else
    match s.fenceWait s.cur.lanes (s.horizonHere sc) with
    | some s => .next s
    | none => .next (s.discardAhead s.cur.lanes).advanceAll.checkpointHere

/-- STREL (R421). -/
def execStrel (sc : BitVec 5) (w : Bool) (b v : RegF) (s : State) : Result :=
  let size := wideBytes w
  let ask : Ask := { srcs := [{ f := b, n := 2 }, { f := v, n := wideN w }], release := true }
  match s.reach ask (fun vs => (valAt vs 0).w64) size needW with
  | .stop s => .next s
  | .go s1 xs =>
    match s1.fenceWait s1.cur.lanes (s.horizonHere sc) with
    | some s => .next s
    | none => .next ((s1.storeAll size xs).finish ask (xs.map fun x => (x.lane, x.L))).checkpointHere

/-! ## Atomics (R268, R358, R359) -/

/-- The value an atomic writes, or none (R358): `cmp` and `v` are the comparand and the operand. -/
def atomOp (op : BitVec 3) (xchg : Bool) (size old cmp v : Nat) : Option Nat :=
  let w := 8 * size
  let o := BitVec.ofNat w old
  let x := BitVec.ofNat w v
  match op.toNat with
  | 0 => some (o + x).toNat
  | 1 => some (o &&& x).toNat
  | 2 => some (o ||| x).toNat
  | 3 => some (o ^^^ x).toNat
  | 4 => some (if x.slt o then x else o).toNat
  | 5 => some (if o.slt x then x else o).toNat
  | 6 =>
    let f := if size = 8 then f64 else f32
    some (f.add Attr.engine (f.read false old) (f.read false v)).bits
  | _ => if xchg then some x.toNat else if o = BitVec.ofNat w cmp then some x.toNat else none

/-- The part of an atomic at its line. -/
def atomPart (E : Env) (op : BitVec 3) (xchg : Bool) (size : Nat) (d : Dst) (x : Access) : AtomPart :=
  let dv := valAt x.vs 2
  let v := if xchg then dv else valAt x.vs 1
  { lane := x.lane, dest := E.dest x.lane x.L d, off := x.off, size, op, v := v.w64, cmp := dv.w64
    tag := x.tag, vtag := v.tag, ctag := op == 7 && !xchg && dv.tag, xchg }

/-- The tag of the data an atomic writes (R112, R116). -/
def AtomPart.dataTag (p : AtomPart) : Bool := p.vtag || p.tag || p.ctag

/-- An atomic performed in the stash bank (R216): the state after it, the old value and its tag.
[DEDUCED: log entry 62] -/
def State.atomStash (s : State) (t off : Nat) (p : AtomPart) : State × Nat × Bool :=
  let r := s.stashRead t off p.size
  let s := match atomOp p.op p.xchg p.size r.2.1 p.cmp.toNat p.v.toNat with
    | some n => r.1.stashWrite t off (leBytes p.size n) p.dataTag
    | none => r.1.stashSoil t off p.size
  (s, r.2.1, r.2.2)

/-- The atomics of a word, ascending (R9, R268): in the stash bank at once, the old value on its way, or sent to the home,
each by itself, a forwarded line counted once. The keys are by lane. -/
def State.sendAtoms (s : State) (o : Origin) (wider : Bool) (part : Access → AtomPart) (lines : List Nat) :
    List Access → State × List (Nat × Nat)
  | [] => (s, [])
  | x :: r =>
    let p := part x
    match x.loc with
    | .stash off =>
      let a := s.atomStash s.cur.team off p
      let g := State.sendAtoms
        (a.1.send (.held o x.lane p.dest (BitVec.ofNat 128 a.2.1) (a.2.2 || x.tag) true)) o wider part lines r
      (g.1, (x.lane, a.1.next) :: g.2)
    | .mem .. =>
      let s := if lines.contains x.line then s else s.counted x
      let g := State.sendAtoms (s.send (.atomic o x.line wider x.pdef [p])).owe o wider part (x.line :: lines) r
      (g.1, (x.lane, s.next) :: g.2)
    | .view _ => State.sendAtoms s o wider part lines r

/-- An atomic word (R358): `xchg` names ATXCH. -/
def State.atomicWord (s : State) (op : BitVec 3) (xchg w : Bool) (sc : BitVec 5) (d b v : RegF) : Result :=
  let size := wideBytes w
  let n := wideN w
  let dst : Dst := { f := d, n := n }
  let wider := sc != 0
  let vs : List Src := if xchg then [{ f := zF, n := n }, { f := d, n := n }]
    else if op = 7 then [{ f := v, n := n }, { f := d, n := n }] else [{ f := v, n := n }]
  let ask : Ask := { srcs := { f := b, n := 2 } :: vs, dsts := [dst], release := wider }
  match s.reach ask (fun vs => (valAt vs 0).w64) size needRWA with
  | .stop s => .next s
  | .go s1 xs =>
    match if wider then s1.fenceWait s1.cur.lanes (s.horizonHere sc) else none with
    | some s => .next s
    | none =>
      if xs.any fun x => match x.loc with
        | .stash off => (s1.team s1.cur.team).body.stash.poisonOf off size
        | _ => false
      then .next s1.spoiled
      else
        let E := s1.env
        let s2 := if wider then s1.discardAhead (xs.map Access.lane) else s1
        let g := s2.sendAtoms s2.origin wider (atomPart E op xchg size dst) [] xs
        let keys := if wider then g.2 else []
        let s3 := g.1.finish ask (xs.map fun x =>
          (x.lane, ((E.drain x.lane x.L dst).unread fun _ => wider).awaits keys x.lane))
        .next (if wider || xs.any Access.isMem then s3.checkpointHere else s3)

/-- ATADD. -/
def execAtadd (w : Bool) (sc : BitVec 5) (d b v : RegF) (s : State) : Result := s.atomicWord 0 false w sc d b v
/-- ATAND. -/
def execAtand (w : Bool) (sc : BitVec 5) (d b v : RegF) (s : State) : Result := s.atomicWord 1 false w sc d b v
/-- ATOR. -/
def execAtor (w : Bool) (sc : BitVec 5) (d b v : RegF) (s : State) : Result := s.atomicWord 2 false w sc d b v
/-- ATXOR. -/
def execAtxor (w : Bool) (sc : BitVec 5) (d b v : RegF) (s : State) : Result := s.atomicWord 3 false w sc d b v
/-- ATMIN. -/
def execAtmin (w : Bool) (sc : BitVec 5) (d b v : RegF) (s : State) : Result := s.atomicWord 4 false w sc d b v
/-- ATMAX. -/
def execAtmax (w : Bool) (sc : BitVec 5) (d b v : RegF) (s : State) : Result := s.atomicWord 5 false w sc d b v
/-- ATFADD. -/
def execAtfadd (w : Bool) (sc : BitVec 5) (d b v : RegF) (s : State) : Result := s.atomicWord 6 false w sc d b v
/-- ATCAS. -/
def execAtcas (w : Bool) (sc : BitVec 5) (d b v : RegF) (s : State) : Result := s.atomicWord 7 false w sc d b v
/-- ATXCH. -/
def execAtxch (w : Bool) (sc : BitVec 5) (d b : RegF) (s : State) : Result := s.atomicWord 7 true w sc d b d

/-! ## WCLR and WCHK (R238, R239, R427) -/

/-- WCLR: every entry of the crew is discarded (R239), but for the lane bits of guard-false fibres of its braid, which keep
them (R427).
[DEDUCED: log entry 97] -/
def execWclr (s : State) : Result :=
  match s.prepare {} with
  | .stop s => .next s
  | .go s1 xs =>
    let kept := s1.cur.lanes.filter fun l => !xs.any fun x => x.1 == l
    .next (s1.updCrew s.cur.team s.cur.crew fun C => C.unwatch ((List.range 32).filter fun l => !kept.contains l)).advanceAll

/-- The entries of a watch table that hold a lane. -/
def Crew.entriesOf (C : Crew) (l : Nat) : List WatchEntry := (C.watch.map Prod.snd).filter (·.mask.getLsbD l)

/-- WCHK. -/
def execWchk (o : BitVec 21) (s : State) : Result :=
  let ask : Ask := { steer := fun _ _ => some false }
  match s.prepare ask with
  | .stop s => .next s
  | .go s1 xs =>
    let C := s1.curCrew
    let ls := xs.map Prod.fst
    if ls.any fun l => (C.entriesOf l).any fun e => e.stateAt s1.ftime == .pending then
      .next (s1.park fun l => if ls.contains l then .watch else .regs [])
    else
      let us := xs.map fun x =>
        let L := x.2.1.steered false
        (x.1, if (C.entriesOf x.1).any fun e => e.stateAt s1.ftime == .struck then L.jump (branchTarget L.pc o) else L.advance)
      .next ((s1.updCrew s.cur.team s.cur.crew fun C => C.unwatch ls).finishAt ask us)

end Sys2Proof.Machine
end

