-- ==== Sys2Proof/Machine/MemSys.lean ====
section
/-! DEFINITION. Memory management words: CFLUSH, CINV and PREF (R365, R406), IINV (R244, R388), and the stash window
words (R217-R220, R405, R432). -/

namespace Sys2Proof.Machine

open Sys2Proof

/-! ## Writing stash lines home (R220, R432) -/

/-- What one fibre's word may write home, stash lines in windows, and the stash lines into which no copy may be in flight;
both ascending. -/
structure Flush where
  lane : Nat
  L : Lane
  lines : List Nat
  watched : List Nat := lines

/-- The check with need W of a line's global bytes against its window's capability (R432). -/
def State.homeFails (s : State) (t n : Nat) : Option (BitVec 8 × DWord) :=
  match (s.team t).body.windowOf n with
  | some w =>
    let cap := capWith w.cap (capOff w.cap + 128 * (n - w.first))
    match s.check t cap 128 128 needW with
    | .error c => some (c, cap)
    | .ok _ => none
  | none => none

/-- A dirty line is sent home as it stands and is clean (R220).
[DEDUCED: log entry 66] -/
def State.sendBack (s : State) (w : Writer) (t n : Nat) (leave : Bool) : State :=
  let b := (s.team t).body
  let s1 := s.updBody t fun b => { b with dirty := NSet.del b.dirty n }
  match b.windowOf n with
  | some win =>
    match s.windowAddr t win n with
    | some a =>
      let off := capOff win.cap + 128 * (n - win.first)
      (s1.countAccess (s.team t).core (s.teamCtx t) (capObj win.cap) (off / Config.frameBytes) a).send
        (.back w (a / 128) (pdefMem (b.stash.slice (128 * n) 128) (s.windowPdef t win)) leave)
    | none => s1
  | none => s1

/-- Whether a write-back of a crew's own words is in flight. -/
def State.windowBusy (s : State) (t c : Nat) : Bool := s.msgs.any fun m => match m.2 with
  | .back (.window u d _) .. => u == t && d == c
  | .backAck (.window u d _) .. => u == t && d == c
  | _ => false

/-- The wake condition of a fibre that waits for its lines. -/
def Flush.wake (x : Flush) : Wake := match x.watched with
  | [] => .regs []
  | n :: r => .window n (r.getLastD n - n + 1)

/-- Parks the braid, the fibres of a word on their lines. -/
def State.parkFlush (s : State) (a : Ask) (xs : List Flush) : State := s.parkFor a fun l => match xs.find? (·.lane == l) with
  | some x => x.wake
  | none => .regs []

/-- Writes lines home and waits (R218, R365): the checks of R432, the copies in flight, the write-backs, their
acknowledgements, and then the rest of the word. With `again`, lines dirtied meanwhile go home too (R405). -/
def State.flush (s : State) (a : Ask) (xs : List Flush) (again : Bool) (done : State → State) : Result :=
  let t := s.cur.team
  let b := (s.team t).body
  let dirty := ((xs.filter fun x => again || x.L.did.isNone).flatMap fun x => x.lines.filter b.dirty.contains).eraseDups
  match dirty.findSome? (s.homeFails t) with
  | some c => .next (s.trap s.effective c.1 c.2)
  | none =>
    if xs.any fun x => x.watched.any (s.copyInto t) then .next (s.parkFlush a xs)
    else
      let s1 := dirty.foldl (fun s' n =>
        let s2 := s'.sendBack (.window t s.cur.crew (s.team t).core) t n false
        if (b.windowOf n).any fun w => (s.windowAddr t w n).isSome then s2.owe else s2) s
      let s2 := s1.mapLanes (xs.map Flush.lane) fun _ L => { L with did := some .sent }
      if s2.windowBusy t s.cur.crew then .next (s2.parkFlush a xs) else .next (done s2)

/-! ## CFLUSH and CINV (R365) -/

/-- The lines of a range, as line numbers of its object or of the stash: the first and how many. -/
def rangeLines (cap : DWord) (b : Word) : Nat × Nat :=
  if b = 0 then (0, 0)
  else
    let lo := capOff cap / 128
    (lo, (capOff cap + b.toNat - 1) / 128 - lo + 1)

/-- The capability of the first byte of line `n` of the object of a capability. -/
def lineCap (cap : DWord) (n : Nat) : DWord := capWith cap (128 * n)

/-- The checks of a range: at its first byte, then at each further line (R204). -/
def State.rangeFails (s : State) (cap : DWord) (b : Word) : Option (BitVec 8 × DWord) :=
  let r := rangeLines cap b
  let one (c : DWord) (n : Nat) : Option (BitVec 8 × DWord) :=
    if 2 ^ 38 ≤ 128 * n then some (causeBounds, c)
    else match s.check s.cur.team c 16 16 needR with
      | .error e => some (e, c)
      | .ok _ => none
  if r.2 = 0 then none
  else match one cap r.1 with
    | some e => some e
    | none => (List.range' (r.1 + 1) (r.2 - 1)).findSome? fun n => one (lineCap cap n) n

/-- The stash lines in windows that hold lines of a range. -/
def Body.rangeStash (b : Body) (cap : DWord) (r : Nat × Nat) : List Nat :=
  let at' (w : Window) : List Nat := (List.range' w.first w.count).filter fun n =>
    if capObj cap = 0 then r.1 ≤ n && n < r.1 + r.2
    else capObj w.cap == capObj cap &&
      (let g := capOff w.cap / 128 + (n - w.first); r.1 ≤ g && g < r.1 + r.2)
  (b.windows.flatMap fun w => at' w.2).foldl NSet.put []

/-- The stash lines of a range: of the stash itself, or of windows. -/
def Body.watchedStash (b : Body) (cap : DWord) (r : Nat × Nat) : List Nat :=
  if capObj cap = 0 then List.range' r.1 r.2 else b.rangeStash cap r

/-- The core drops its copies of the lines of a range.
[DEDUCED: log entry 25] -/
def State.dropCopies (s : State) (t : Nat) (cap : DWord) (r : Nat × Nat) : State :=
  (List.range' r.1 r.2).foldl (fun s n => match s.check t (lineCap cap n) 16 16 needR with
    | .ok (.mem a ..) => s.updCore (s.team t).core fun K => { K with copies := K.copies.del (a / 128) }
    | _ => s) s

/-- Stash lines cease to be present.
[DEDUCED: log entry 25] -/
def State.dropStash (s : State) (t : Nat) (ns : List Nat) : State :=
  s.updBody t fun b => { b with absent := ns.foldl NSet.put b.absent }

/-- CFLUSH, and CINV when `inv`. -/
def State.cflushWord (s : State) (inv : Bool) (a b : RegF) : Result :=
  let ask : Ask :=
    { srcs := [{ f := a, n := 2 }, { f := b }], late := fun _ _ vs => s.rangeFails (valAt vs 0).w64 (valAt vs 1).w32 }
  match s.prepare ask with
  | .stop s => .next s
  | .go s1 xs =>
    let t := s.cur.team
    let body := (s1.team t).body
    let jobs : List (DWord × (Nat × Nat) × Flush) := xs.map fun x =>
      let cap := (valAt x.2.2 0).w64
      let r := rangeLines cap (valAt x.2.2 1).w32
      (cap, r, { lane := x.1, L := x.2.1, lines := body.rangeStash cap r, watched := body.watchedStash cap r })
    s1.flush ask (jobs.map fun j => j.2.2) false fun s2 =>
      let s3 := if inv then
          jobs.foldl (fun s j =>
            if capObj j.1 = 0 then s.dropStash t j.2.2.lines else s.dropCopies t j.1 j.2.1) s2
        else s2
      s3.finish ask (xs.map fun x => (x.1, x.2.1))

/-- CFLUSH. -/
def execCflush (a b : RegF) (s : State) : Result := s.cflushWord false a b
/-- CINV.
[DEDUCED: log entry 25] -/
def execCinv (a b : RegF) (s : State) : Result := s.cflushWord true a b

/-! ## PREF (R406) -/

/-- What PREF does for one fibre. -/
def State.prefOne (s : State) (o : Origin) (x : Access) : State ⊕ (BitVec 8 × DWord) :=
  let t := s.cur.team
  match x.loc with
  | .view _ => .inl s
  | .stash off =>
    let n := off / 128
    let b := (s.team t).body
    if b.absent.contains n && (b.windowOf n).isSome && !s.copyInto t n then
      match s.touchStash t n with
      | .ready s => .inl s
      | .wait s => .inl s
      | .fail c e => .inr (c, e)
    else .inl s
  | .mem .. =>
    let live := match (s.core o.core).copies.find x.line with
      | some c => c.live s.ftime
      | none => false
    if live then .inl s else .inl ((s.counted x).send (.read o x.line x.obj .plain []))

def State.prefAll (s : State) (o : Origin) : List Access → State ⊕ (BitVec 8 × DWord)
  | [] => .inl s
  | x :: r => match s.prefOne o x with
    | .inl s => State.prefAll s o r
    | .inr c => .inr c

/-- PREF: `k` = 1 changes only timing. -/
def execPref (a : RegF) (_k : Bool) (s : State) : Result :=
  let ask : Ask :=
    { srcs := [{ f := a, n := 2 }]
      late := fun _ _ vs => match s.check s.cur.team (valAt vs 0).w64 16 16 needR with
        | .error c => some (c, (valAt vs 0).w64)
        | .ok _ => none }
  match s.prepare ask with
  | .stop s => .next s
  | .go s1 xs =>
    let acs : List Access := xs.filterMap fun x =>
      match s1.check s1.cur.team (valAt x.2.2 0).w64 16 16 needR with
      | .ok loc => some { lane := x.1, L := x.2.1, vs := x.2.2, cap := (valAt x.2.2 0).w64, loc }
      | .error _ => none
    match s1.prefAll s1.origin acs with
    | .inr c => .next (s.trap s.effective c.1 c.2)
    | .inl s2 => .next (s2.finish ask (xs.map fun x => (x.1, x.2.1)))

/-! ## IINV (R244, R388) -/

/-- The cores of this device that a scope names for an issuing core. -/
def State.scopeCores (s : State) (ctx core : Nat) (sc : BitVec 5) : List Nat :=
  if sc.toNat ≤ 1 then [core]
  else if sc.toNat = 2 then List.range' (160 * dieOf core) 160
  else if sc.toNat ≤ 6 then List.range Config.cores
  else match (s.ctx ctx).scopes.find sc.toNat with
    | some e => (e.members.filter (·.1 == s.chipno)).flatMap Prod.snd
    | none => List.range Config.cores

/-- The set of cores a scope names for a core of a team: devices ascending, each with its cores ascending. -/
def State.scopeMembers (s : State) (t core sc : Nat) : List (Nat × List Nat) :=
  let all := List.range Config.cores
  if sc ≤ 1 then [(s.chipno, [core])]
  else if sc = 2 then [(s.chipno, List.range' (160 * dieOf core) 160)]
  else if sc = 3 then [(s.chipno, all)]
  else if sc = 4 then (((s.launchOf t).map Launch.chips).getD []).foldl (fun m d => AMap.put m d all) []
  else
    let domain := (List.range Config.domainDevices).map fun d => (d, all)
    if sc ≤ 6 then domain
    else match (s.ctx (s.teamCtx t)).scopes.find sc with
      | some e => e.members
      | none => domain

/-- Instruction copies of a code object go from cores, and fills in flight to them are discarded. -/
def State.dropCode (s : State) (ctx obj : Nat) (cs : List Nat) : State :=
  { s with
    cores := s.cores.mapVals fun c K =>
      if cs.contains c then { K with icache := K.icache.filter fun w => !(w.ctx == ctx && w.obj == obj) } else K
    msgs := s.msgs.mapVals fun _ m => match m with
      | .fill die x o off addr skip => if x = ctx ∧ o = obj then .fill die x o off addr (cs.foldl NSet.put skip) else m
      | m => m }

/-- The other devices that a scope names, and can be reached, with their cores.
[DESIGN CHOICE: log entry 22] -/
def State.othersIn (s : State) (ms : List (Nat × List Nat)) : List (Nat × List Nat) :=
  ms.filter fun m => m.1 != s.chipno && !s.lost m.1

/-- The other devices are told which of their cores drop a code object (R244, R388), under a number by which they answer.
[DESIGN CHOICE: log entry 22] -/
def State.tellCode (s : State) (ctx obj : Nat) (ms : List (Nat × List Nat)) : State :=
  { s with
    linkOut := s.linkOut ++ ms.map fun m => (m.1, .iinv s.chipno s.next ctx obj m.2)
    iinvs := s.iinvs.put s.next (ms.map Prod.fst), next := s.next + 1 }

/-- Whether every device that an IINV told has answered; one that is no longer reached holds nothing that matters here. -/
def State.invalidated (s : State) (id : Nat) : Bool := (s.iinvs.find id).all fun ds => ds.all s.lost

/-- The IINV of a fibre that has told other devices. -/
def Lane.iinvId (L : Lane) : Option Nat := match L.did with
  | some (.told id) => some id
  | _ => none

/-- IINV (R244, R388): the cores within scope on this device drop the object, and the braid parks until those of other
devices have; what was filled meanwhile goes too.
[DESIGN CHOICE: log entry 22] -/
def execIinv (sc : BitVec 5) (s : State) : Result :=
  match s.prepare {} with
  | .stop s => .next s
  | .go s1 xs =>
    let t := s.cur.team
    let ctx := s.teamCtx t
    let obj := capObj (s.codeOf t)
    let core := (s.team t).core
    let drop (s : State) : State := s.dropCode ctx obj (s.scopeCores ctx core sc)
    let wait (s : State) (id : Nat) : State :=
      (s.park fun _ => .invalidated id).mapLanes (xs.map Prod.fst) fun _ L => { L with did := some (.told id) }
    match xs.findSome? fun x => x.2.1.iinvId with
    | some id =>
      .next (if s1.invalidated id then (drop { s1 with iinvs := s1.iinvs.del id }).advanceAll else wait s1 id)
    | none =>
      let ms := s1.othersIn (s1.scopeMembers t core sc.toNat)
      .next (if ms.isEmpty then (drop s1).advanceAll else wait ((drop s1).tellCode ctx obj ms) s1.next)

/-! ## Stash windows (R217, R218, R405) -/

/-- Whether lines meet a mapped window. -/
def Body.meetsWindow (b : Body) (first count : Nat) : Bool :=
  b.windows.any fun w => first < w.2.first + w.2.count && w.2.first < first + count

/-- The check of the bytes a window maps, line by line (R204). -/
def State.mapFails (s : State) (cap : DWord) (count : Nat) : Option (BitVec 8 × DWord) :=
  (List.range count).findSome? fun i =>
    let c := capWith cap (capOff cap + 128 * i)
    if 2 ^ 38 ≤ capOff cap + 128 * i then some (causeBounds, c)
    else match s.check s.cur.team c 128 128 needR with
      | .error e => some (e, c)
      | .ok _ => none

/-- STMAP.
[DEDUCED: log entry 28] -/
def execStmap (a b : RegF) (w : BitVec 4) (s : State) : Result :=
  let t := s.cur.team
  let lineWord (vs : List Val) : Nat × Nat :=
    (((valAt vs 1).w32.extractLsb' 16 16).toNat, ((valAt vs 1).w32.extractLsb' 0 16).toNat)
  let ask : Ask :=
    { srcs := [{ f := a, n := 2 }, { f := b }], single := true
      early := fun _ _ vs =>
        let r := lineWord vs
        let body := (s.team t).body
        if capOff (valAt vs 0).w64 % 128 ≠ 0 ∨ r.2 = 0 ∨ 512 * s.stashBanks t < r.1 + r.2 then some (causeStashParam, 0)
        else if (body.windows.find w.toNat).isSome || body.meetsWindow r.1 r.2 then some (causeStashWindow, 0)
        else none
      known := fun has _ vs =>
        let r := lineWord vs
        let body := (s.team t).body
        if (has 0 && capOff (valAt vs 0).w64 % 128 != 0) || (has 1 && (r.2 == 0 || decide (512 * s.stashBanks t < r.1 + r.2))) then
          some (causeStashParam, 0)
        else if (body.windows.find w.toNat).isSome || (has 1 && body.meetsWindow r.1 r.2) then some (causeStashWindow, 0)
        else none
      late := fun _ _ vs => s.mapFails (valAt vs 0).w64 (lineWord vs).2 }
  match s.prepare ask with
  | .stop s => .next s
  | .go s1 xs =>
    match xs with
    | [] => .next s1.advanceAll
    | x :: _ =>
      let r := lineWord x.2.2
      let lines := List.range' r.1 r.2
      if lines.any (s1.copyInto t) then .next (s1.parkFlush ask [{ lane := x.1, L := x.2.1, lines := [], watched := lines }])
      else
        let win : Window :=
          { cap := (valAt x.2.2 0).w64, first := r.1, count := r.2, tag := tagsOf x.2.2 || x.2.1.gt }
        .next ((s1.updBody t fun body =>
          { body with
            windows := body.windows.put w.toNat win
            absent := lines.foldl NSet.put body.absent
            dirty := lines.foldl NSet.del body.dirty }).finish ask [(x.1, x.2.1)])

/-- Whether another present window line of a team holds the global line that one of its window lines does (R217). -/
def State.heldElsewhere (s : State) (t n line : Nat) : Bool :=
  let b := (s.team t).body
  b.windows.any fun w => (List.range' w.2.first w.2.count).any fun i =>
    i != n && !b.absent.contains i && s.windowAddr t w.2 i == some (128 * line)

/-- The owner leaves a line of its window (R255), unless another line of its windows holds the same bytes.
[DESIGN CHOICE: log entry 20] -/
def State.leaveLine (s : State) (t n : Nat) : State :=
  let T := s.team t
  match T.body.windowOf n with
  | none => s
  | some w =>
    match s.windowAddr t w n with
    | none => s
    | some a =>
      let line := a / 128
      let d := s.dirOf line
      if d.owner = some { dev := s.chipno, core := T.core, slot := T.slot } && !s.heldElsewhere t n line then
        let st : DirState := match d.state with
          | .S | .O => .S
          | .E | .M => .I
          | x => x
        s.setDir line { d with owner := none, state := st }
      else s

/-- A window goes: its lines keep their data, present as they are. -/
def State.unmap (s : State) (t w : Nat) : State :=
  match (s.team t).body.windows.find w with
  | none => s
  | some win =>
    let s := (List.range' win.first win.count).foldl (fun s n => s.leaveLine t n) s
    s.updBody t fun b => { b with windows := b.windows.del w }

/-- STWB and STUNMAP.
[DEDUCED: log entry 28] -/
def State.windowBack (s : State) (w : BitVec 4) (unmaps : Bool) : Result :=
  match s.prepare { single := true } with
  | .stop s => .next s
  | .go s1 xs =>
    let t := s.cur.team
    match xs, (s1.team t).body.windows.find w.toNat with
    | x :: _, some win =>
      s1.flush { single := true } [{ lane := x.1, L := x.2.1, lines := List.range' win.first win.count }] unmaps fun s2 =>
        (if unmaps then s2.unmap t w.toNat else s2).advanceAll
    | _, _ => .next s1.advanceAll

/-- STWB. -/
def execStwb (w : BitVec 4) (s : State) : Result := s.windowBack w false
/-- STUNMAP. -/
def execStunmap (w : BitVec 4) (s : State) : Result := s.windowBack w true

/-- PQRY. -/
def execPqry (a : RegF) (n : PredF) (s : State) : Result :=
  let t := s.cur.team
  s.operate
    { srcs := [{ f := a }], single := true
      early := fun _ _ vs =>
        let x := (valAt vs 0).w32.toNat
        if 65536 * s.stashBanks t ≤ x then some (causeStashRange, stashCap x) else none }
    fun _ _ L vs => L.setQ n (!(s.team t).body.absent.contains ((valAt vs 0).w32.toNat / 128)) (tagsOf vs || L.gt)

end Sys2Proof.Machine
end

