-- ==== Sys2Proof/Machine/Engines.lean ====
section
/-! DEFINITION. The issue of engine words: records (R272), tickets (R274, R402), the matrix array and the weight buffer
(R278, R371, R399, R400, R426), streams (R282), the chain and request engines (R366, R390), barrier objects (R289,
R361, R362) and collectives (R292, R368). -/

namespace Sys2Proof.Machine

open Sys2Proof

/-! ## Records -/

/-- The stash address in a record word's register. -/
def recAddr (x : Nat × Lane × List Val) : Nat := (valAt x.2.2 0).w32.toNat

/-- What a record word asks: the register `a`, its effect in the lowest fibre or in each.
[DEDUCED: log entry 15] -/
def recAsk (a : RegF) (single : Bool) : Ask := { srcs := [{ f := a }], single }

/-- The record that a word which waits copied at issue, with its tag (R272). -/
def Did.record : Did → Option (List Byte × Bool)
  | .armed bytes tag => some (bytes, tag)
  | .copied bytes tag => some (bytes, tag)
  | _ => none

/-- The record that a fibre's word copied at issue, or that it copies now (R272). -/
def State.recordOf (s : State) (x : Nat × Lane × List Val) (size : Nat) : List Byte × Bool :=
  (x.2.1.did.bind Did.record).getD (s.stashBytes s.cur.team (recAddr x) size)

/-- A record word: every address meets R272 for a size, and the records' lines are present (R219), but for those of
records that the word has copied. -/
def State.recordWord (s : State) (a : Ask) (size : Nat) (go : State → List (Nat × Lane × List Val) → Result) : Result :=
  let t := s.cur.team
  let banks := s.stashBanks t
  let ask : Ask :=
    { a with
      early := fun l L vs => if recordOk banks (valAt vs 0).w32.toNat size then a.early l L vs else some (causeEngParam, 0)
      known := fun has L vs =>
        if has 0 && !recordOk banks (valAt vs 0).w32.toNat size then some (causeEngParam, 0) else a.known has L vs }
  match s.prepare ask with
  | .stop s => .next s
  | .go s1 xs =>
    match s1.touchAll t ((xs.filter fun x => (x.2.1.did.bind Did.record).isNone).map fun x => (x.1, recAddr x / 128)) with
    | .fail c e => .next (s.trap s.effective c e)
    | .ok s2 [] => go s2 xs
    | .ok s2 ws => .next (s2.parkFor ask (stashWake ws))

/-- A record word of the lowest fibre. -/
def State.recordOne (s : State) (a : Ask) (size : Nat) (go : State → Nat × Lane × List Val → Result) : Result :=
  s.recordWord a size fun s1 xs => match xs with
    | [] => .next s1.advanceAll
    | x :: _ => go s1 x

/-! ## Tickets (R274) -/

/-- Whether a ticket of the issuing crew is pending. -/
def Crew.pendingTicket (C : Crew) (k : Nat) : Bool := (C.tickets.find k).isSome

/-- A ticket becomes pending. -/
def State.takeTicket (s : State) (k lane : Nat) : State :=
  s.updCrew s.cur.team s.cur.crew fun C => { C with tickets := C.tickets.put k { lane } }

/-- MWAIT (R402). -/
def execMwait (k : BitVec 6) (s : State) : Result :=
  match s.prepare {} with
  | .stop s => .next s
  | .go s1 xs =>
    let C := s1.curCrew
    let ls := xs.map Prod.fst
    if C.pendingTicket k.toNat then .next (s1.park fun l => if ls.contains l then .ticket k.toNat true else .regs [])
    else
      let s2 := s1.updCrew s.cur.team s.cur.crew fun C =>
        { C with named := C.named.del k.toNat, namedBuf := C.namedBuf.del k.toNat }
      if (C.mismatch.find k.toNat).isSome then
        .next ((s2.updCrew s.cur.team s.cur.crew fun C => { C with mismatch := C.mismatch.del k.toNat }).trap ls
          causeMatrixMismatch 0)
      else .next (s2.discardAhead ls).advanceAll

/-! ## The matrix array -/

/-- Whether the operands of a block are ready (R278, R399): registers of A and C full in every live lane, and no engine
write in flight to its tensor regions. -/
def State.operandsReady (s : State) (t c : Nat) (block : List Byte) : Bool :=
  let b := mmaBlock block
  let span := s.spanOf t
  let C := s.crew t c
  (C.lanes.all fun x => !x.2.live || (b.readyFields x.1).all fun f =>
      let n := x.2.wbase + f
      span ≤ n || (x.2.reg n).full)
    && (s.core (s.team t).core).mats.all fun m =>
      m.team != t || m.dcor || !(mmaBlock m.bytes).writes.any fun w => b.regions.any fun r => meets w.1 w.2 r.1 r.2

/-- The word waits with the record that it copied (R272). -/
def State.parkCopied (s : State) (a : Ask) (l : Nat) (r : List Byte × Bool) (w : Wake) : State :=
  (s.parkFor a fun _ => w).mapLanes [l] fun _ L => { L with did := some (.copied r.1 r.2) }

/-- MRDY (R278, R399): it reads the block at issue. -/
def execMrdy (a : RegF) (s : State) : Result :=
  let ask := recAsk a true
  s.recordOne ask 64 fun s1 x =>
    let r := s1.recordOf x 64
    if s1.operandsReady s.cur.team s.cur.crew r.1 then
      .next ((s1.updCrew s.cur.team s.cur.crew fun C => { C with ready := some (recAddr x), readyBlock := r.1 }).finish ask
        [(x.1, x.2.1)])
    else .next (s1.parkCopied ask x.1 r (.operands r.1))

/-- The registers of the issuing crew's live lanes that an MMA block names (R242, R277). -/
def State.namedBy (s : State) (b : MmaBlock) : List (Nat × Nat) :=
  let span := s.spanOf s.cur.team
  s.curCrew.lanes.flatMap fun x =>
    if x.2.live then
      ((b.laneFields x.1).filter fun f => x.2.wbase + f < span).map fun f => (x.1, x.2.wbase + f)
    else []

/-- The WBLD in flight that a descriptor of a team waits for. -/
def State.wbldOf (s : State) (t wh : Nat) : Option Nat :=
  ((s.jobs.filter fun j => match j.2 with
    | .wbld u _ _ _ bytes _ _ => u == t && (wbldBlock bytes).wh == wh
    | _ => false).getLast?).map Prod.fst

/-- An operation joins the queue of the core's matrix array (R124, R278). -/
def State.queueMat (s : State) (x : Nat × Lane × List Val) (r : List Byte × Bool) (dcor : Bool) (ticket wh : Nat) : State :=
  let t := s.cur.team
  let op : MatOp :=
    { team := t, crew := s.cur.crew, lane := x.1, dcor, addr := recAddr x, bytes := r.1, tag := r.2
      gtag := x.2.1.gtag, taint := x.2.1.taint, atag := tagsOf x.2.2, ticket, race := false
      bases := s.curCrew.lanes.mapVals fun _ L => L.wbase
      breach := false, seq := s.next, desc := (s.team t).wdescs.find wh
      after := if dcor then none else s.wbldOf t wh }
  ({ s with next := s.next + 1 }.updCore (s.team t).core fun K => { K with mats := K.mats ++ [op] }).takeTicket ticket x.1

/-- Whether a fibre's MMA has passed the test of the ready block and waits for its ticket. -/
def Lane.armed (L : Lane) : Bool := match L.did with
  | some (.armed ..) => true
  | _ => false

/-- Whether the braid's MMA has passed the test of the ready block and waits for its ticket. -/
def State.armed (s : State) : Bool := s.cur.lanes.any fun l => (s.curLane l).armed

/-- The tickets of a team, with their crews, whose regions of the tensor buffer meet some regions (R242). -/
def State.breachedBuf (s : State) (t : Nat) (rs : List (Nat × Nat)) : List (Nat × Nat) :=
  (s.team t).body.crews.flatMap fun c =>
    (c.2.namedBuf.filter fun x => x.2.any fun a => rs.any fun b => meets a.1 a.2 b.1 b.2).map fun x => (c.1, x.1)

/-- The operands A and C of an MMA that its MRDY did not wait for hold undefined values (R8, R399): registers and regions of
the tensor buffer that the block names now and did not name then, and registers that a word has emptied since.
[DEDUCED: log entry 55] -/
def State.unready (s : State) (waited b : MmaBlock) : State :=
  let t := s.cur.team
  let span := s.spanOf t
  let fields : List (Nat × Nat) := s.curCrew.lanes.flatMap fun x =>
    if x.2.live then
      ((b.readyFields x.1).filter fun f => x.2.wbase + f < span
        && !((waited.readyFields x.1).contains f && (x.2.reg (x.2.wbase + f)).full)).map fun f => (x.1, x.2.wbase + f)
    else []
  let regions := b.readyRegions.filter fun r => !waited.readyRegions.any fun w => w.1 ≤ r.1 && r.1 + r.2 ≤ w.1 + w.2
  let s := fields.foldl (fun s x => let w := s.freeWord; w.2.updLane t s.cur.crew x.1 fun L => L.setReg x.2 ⟨w.1, true, true⟩) s
  s.blurRegions t (regions.filter fun r => r.1 + r.2 ≤ 65536 * s.tensorBanks t)

/-- MMA (R278, R400): it clears the ready block, and copies its own, before it waits for its ticket. The registers and
regions that it names and that a ticket not yet waited for names too are touched in breach of R242. -/
def execMma (a : RegF) (s : State) : Result :=
  let ask : Ask :=
    { recAsk a true with
      early := fun _ _ vs =>
        if s.armed || s.curCrew.ready = some (valAt vs 0).w32.toNat then none else some (causeEngOrder, 0) }
  s.recordOne ask 64 fun s1 x =>
    let t := s.cur.team
    let r := s1.recordOf x 64
    let b := mmaBlock r.1
    let s1 := if s1.armed then s1
      else ((s1.unready (mmaBlock s1.curCrew.readyBlock) b).updCrew t s.cur.crew fun C =>
        { C with ready := none, readyBlock := [] }).mapLanes s.cur.lanes fun _ L => { L with did := some (.armed r.1 r.2) }
    if s1.curCrew.pendingTicket b.ticket then .next (s1.parkFor ask fun _ => .ticket b.ticket false)
    else
      let named := s1.namedBy b
      let regions := b.regions.filter fun r => r.1 + r.2 ≤ 65536 * s.tensorBanks t
      let s1 := s1.breach (s1.curCrew.breached named)
      let s1 := (s1.breachedBuf t regions).foldl (fun s k => s.scramble t k.1 k.2) s1
      let s2 := s1.updCrew t s.cur.crew fun C =>
        { C with
          named := if named.isEmpty then C.named.del b.ticket else C.named.put b.ticket named
          namedBuf := if regions.isEmpty then C.namedBuf.del b.ticket else C.namedBuf.put b.ticket regions }
      .next ((s2.queueMat x r false b.ticket b.wh).finish ask [(x.1, x.2.1)])

/-- DCOR (R120, R123, R371): its only fault is that of R272. -/
def execDcor (a : RegF) (s : State) : Result :=
  let ask := recAsk a true
  s.recordOne ask 64 fun s1 x =>
    let r := s1.recordOf x 64
    let b := dcorBlock r.1
    if s1.curCrew.pendingTicket b.ticket then .next (s1.parkCopied ask x.1 r (.ticket b.ticket false))
    else .next ((s1.queueMat x r true b.ticket 0).finish ask [(x.1, x.2.1)])

/-- A job starts. -/
def State.addJob (s : State) (j : Job) : State := { s with jobs := s.jobs.put s.next j, next := s.next + 1 }

/-- WBLD (R426): the descriptor is invalid from here until the load succeeds.
[DEDUCED: log entry 29] -/
def execWbld (a : RegF) (s : State) : Result :=
  let ask := recAsk a true
  s.recordOne ask 32 fun s1 x =>
    let t := s.cur.team
    let r := s1.recordOf x 32
    let b := wbldBlock r.1
    if s1.curCrew.pendingTicket b.ticket then .next (s1.parkCopied ask x.1 r (.ticket b.ticket false))
    else
      let s2 := (s1.updTeam t fun T => { T with wdescs := T.wdescs.del b.wh }).takeTicket b.ticket x.1
      .next ((s2.addJob (.wbld t s.cur.crew x.1 (recAddr x) r.1 (r.2 || tagsOf x.2.2 || x.2.1.gt) b.ticket)).finish ask
        [(x.1, x.2.1)])

/-! ## Streams (R282, R422) -/

/-- A stream register is unbound. -/
def Lane.unbind (L : Lane) (n : BitVec 3) : Lane := { L with streams := L.streams.del n.toNat }

/-- The binding that a pattern block names. -/
def streamOf (slot : RegF) (bs : List Byte) : Stream :=
  { slot, src := BitVec.ofNat 64 (fieldOf bs 0 8), stride := BitVec.ofNat 32 (fieldOf bs 8 4)
    count := BitVec.ofNat 32 (fieldOf bs 12 4), sz := BitVec.ofNat 3 (fieldOf bs 16 4), pos := 0 }

/-- Whether a pattern block's size and reserved bits are right. -/
def patternOk (bs : List Byte) : Bool := fieldOf bs 16 4 ≤ 4 && zeroAt bs 20 12

/-- The streams, by lane and number, that STRM unbinds or binds anew. -/
def State.unboundBy (s : State) (n : BitVec 3) (slot : RegF) (l k : Nat) : Bool :=
  s.effective.contains l && (k == n.toNat || slot != zF && ((s.curLane l).streams.find k).any fun x => x.slot == slot)

/-- STRM: a stream bound to the slot that the word names, as B, is not popped (R422). An element of a stream that is
unbound or bound anew is no longer awaited. -/
def execStrm (n : BitVec 3) (b : RegF) (slot : RegF) (s : State) : Result :=
  let gone := s.unboundBy n slot
  if slot = zF then (s.discardElements gone).operate {} fun _ _ L _ => L.unbind n
  else
    let ask : Ask := { srcs := [{ f := b, pops := false }] }
    s.recordWord ask 32 fun s1 xs =>
      let t := s.cur.team
      if xs.any fun x => !patternOk (s1.stashBytes t (recAddr x) 32).1 then .next (s.trap s.effective causeEngParam 0)
      else
        .next ((s1.discardElements gone).finish ask (xs.map fun x =>
          let r := s1.stashBytes t (recAddr x) 32
          let others := x.2.1.streams.filter fun y => y.2.slot != slot
          (x.1, { x.2.1 with
            streams := AMap.put others n.toNat (streamOf slot r.1) })))

/-! ## Barrier objects (R289, R361, R362) -/

/-- A barrier word writes its object as a stash atomic does (R216, R256).
[DEDUCED: log entry 47] -/
def State.barTouch (s : State) (t a : Nat) : State := (s.noteRace t a 16).dirtyNotice t (a / 128)

/-- Whether an operation in flight names a barrier object (R289): of a request list, the records not yet complete; one
that the engine has not read yet counts as it stands.
[DEDUCED: log entry 47] -/
def Job.namesBar (b : Body) (limit t a : Nat) : Job → Bool
  | .copy r => r.team == t && ((r.recs.isNone && r.b0 == a)
      || ((r.recs.getD (b.listNow limit 256 r.addr)).drop r.idx).any fun x => (copyRec x.1).bar == a)
  | .chain u _ _ _ bytes .. => u == t && (chainBlock bytes).bar == a
  | .coll j => j.ranks.any fun r => r.remote.isNone && r.team == t && r.bar == a
  | .notice u bar .. => u == t && bar == a
  | .wbld .. => false

/-- BARI in one fibre. -/
def State.bariOne (s : State) (t a count : Nat) (tag : Bool) : State :=
  let s := s.barTouch t a
  let s := s.updBody t fun b => { b with faultAddr := b.faultAddr.del a }
  if s.jobs.any fun j => j.2.namesBar (s.team t).body (65536 * s.stashBanks t) t a then
    let r := s.freeBytes 16
    r.2.updBody t fun b => b.stashPut a r.1 true
  else s.barInit t a count tag

/-- BARI. -/
def execBari (a b : RegF) (s : State) : Result :=
  let ask : Ask := { srcs := [{ f := a }, { f := b }] }
  s.recordWord ask 16 fun s1 xs =>
    .next ((xs.foldl (fun s' x =>
      s'.bariOne s.cur.team (recAddr x) (valAt x.2.2 1).w32.toNat (tagsOf x.2.2 || x.2.1.gt)) s1).finish ask
      (xs.map fun x => (x.1, x.2.1)))

/-- BARA: an arrival writes tag 0, which a guard's tag or the fibre's taint joins (R353, R361).
[DEDUCED: log entry 47] -/
def execBara (a : RegF) (s : State) : Result :=
  let ask := recAsk a false
  s.recordWord ask 16 fun s1 xs =>
    .next ((xs.foldl (fun s' x =>
      (s'.barTouch s.cur.team (recAddr x)).barArrive s.cur.team (recAddr x) x.2.1.gt) s1).finish ask
      (xs.map fun x => (x.1, x.2.1)))

/-- Whether BWAIT ends its wait on an object.
[DEDUCED: log entry 47] -/
def State.barOver (s : State) (t a : Nat) : Bool := s.barRemain t a == 0 || s.barFstate t a != 0

/-- BWAIT.
[DEDUCED: log entry 53] -/
def execBwait (a : RegF) (s : State) : Result :=
  let ask := recAsk a false
  s.recordWord ask 16 fun s1 xs =>
    let t := s.cur.team
    if xs.any fun x => !s1.barOver t (recAddr x) then
      .next (s1.park fun l => match xs.find? (·.1 == l) with
        | some x => .barrier (recAddr x)
        | none => .regs [])
    else
      match xs.find? fun x => s1.barFstate t (recAddr x) != 0 with
      | some x =>
        let faddr := ((s1.team t).body.faultAddr.find (recAddr x)).getD 0
        .next ((s.discardAhead (xs.map Prod.fst)).trap s.effective causeCopyFault faddr)
      | none => .next ((s1.discardAhead (xs.map Prod.fst)).finish ask (xs.map fun x => (x.1, x.2.1.unread fun _ => true)))

/-! ## Barrier objects named by engines -/

/-- A count of bytes, once the object's line is present (R216, R241). -/
def State.count (s : State) (t bar n : Nat) : State :=
  if n = 0 then s else (s.barTouch t bar).barDec t bar n

/-- Whether the line of an object is absent; its fill is begun. -/
def State.barAbsent (s : State) (t bar : Nat) : Option State :=
  match s.touchStash t (bar / 128) with
  | .wait s => some s
  | _ => none

/-- A report on an object, with the FADDR that BWAIT gives when this is its first fault (R289, R362).
[DEDUCED: log entry 53] -/
def State.reportFault (s : State) (t bar code resume ridx : Nat) (faddr : DWord) : State :=
  if s.barFstate t bar ≠ 0 then s
  else
    ((s.barTouch t bar).barFault t bar code resume ridx).updBody t fun b => { b with faultAddr := b.faultAddr.put bar faddr }

/-- A report on an object by the operation numbered `seq`, or with code 0 a count of bytes: at once, or once its absent
line is present (R219, R368). -/
def State.tellBar (s : State) (t bar code bytes seq : Nat) : State :=
  match s.barAbsent t bar with
  | some s => s.addJob (.notice t bar code bytes seq)
  | none => if code = 0 then s.count t bar bytes else s.reportFault t bar code 0 0 0

/-! ## The chain and request engines -/

/-- CHAIN (R366). -/
def execChain (a : RegF) (s : State) : Result :=
  let ask := recAsk a true
  s.recordOne ask 128 fun s1 x =>
    let t := s.cur.team
    let r := s1.stashBytes t (recAddr x) 128
    if recordOk (s.stashBanks t) (chainBlock r.1).bar 16 then
      .next ((s1.addJob (.chain t s.cur.crew (s1.team t).core (recAddr x) r.1 (r.2 || tagsOf x.2.2 || x.2.1.gt) 0 [] 0 none)).finish ask
        [(x.1, x.2.1)])
    else .next (s.trap s.effective causeEngParam 0)

/-- KICK (R287, R390): it checks each list's first record and its barrier object, and does not wait for the others. -/
def execKick (a : RegF) (s : State) : Result :=
  let ask := recAsk a false
  s.recordWord ask 64 fun s1 xs =>
    let t := s.cur.team
    let b0 (x : Nat × Lane × List Val) : Nat := (copyRec (s1.stashBytes t (recAddr x) 64).1).bar
    if xs.any fun x => !recordOk (s.stashBanks t) (b0 x) 16 then .next (s.trap s.effective causeEngParam 0)
    else
      let core := (s1.team t).core
      .next ((xs.foldl (fun s' x =>
        (s'.updCore core fun K => { K with kick := BitVec.ofNat 32 (recAddr x) }).addJob
          (.copy { team := t, crew := s.cur.crew, core, addr := recAddr x, b0 := b0 x
                   tag := tagsOf x.2.2 || x.2.1.gt })) s1).finish ask (xs.map fun x => (x.1, x.2.1)))

/-! ## Collectives (R229, R230, R292, R368) -/

/-- The ranks of a set: how many, and the number of a core's rank. -/
def rankCount (ms : List (Nat × List Nat)) : Nat := (ms.map fun m => m.2.length).sum
def inSet (ms : List (Nat × List Nat)) (dev core : Nat) : Bool := ms.any fun m => m.1 == dev && m.2.contains core
def rankOf (ms : List (Nat × List Nat)) (dev core : Nat) : Nat :=
  ((ms.filter fun m => m.1 < dev).map fun m => m.2.length).sum
    + ((ms.filter fun m => m.1 == dev).map fun m => (m.2.filter fun c => c < core).length).sum

/-- Destination bytes of each rank (R368). -/
def CollBlock.destBytes (b : CollBlock) (p : Nat) : Nat :=
  if b.kind = 1 then collBytes b.type (b.count / p) else if b.kind = 2 then collBytes b.type (p * b.count)
  else collBytes b.type b.count

/-- The sequence number of a rank. -/
def Rank.seq (r : Rank) : Nat := match r.remote with
  | some x => x.seq.toNat
  | none => (collBlock r.bytes).seq

/-- A rank joins a collective of its set: the one with its SEQ that it has not joined, else any, else a new one.
[DEDUCED: log entry 59] -/
def State.joinColl (s : State) (ctx : Nat) (ms : List (Nat × List Nat)) (r : Rank) : State :=
  let lacks (j : Job) : Bool := match j with
    | .coll x => x.ctx == ctx && x.members == ms && !x.ranks.any fun q => q.dev == r.dev && q.core == r.core
    | _ => false
  let same (j : Job) : Bool := match j with
    | .coll x => x.ranks.any fun q => q.seq == r.seq
    | _ => false
  let open' := s.jobs.filter fun j => lacks j.2
  match (open'.find? fun j => same j.2).orElse fun _ => open'.head? with
  | some (k, .coll x) => { s with jobs := s.jobs.put k (.coll { x with ranks := x.ranks ++ [r] }) }
  | _ => s.addJob (.coll { ctx, members := ms, ranks := [r] })

/-- COLL. -/
def execColl (a : RegF) (s : State) : Result :=
  let ask := recAsk a true
  s.recordOne ask 64 fun s1 x =>
    let t := s.cur.team
    let r := s1.stashBytes t (recAddr x) 64
    let b := collBlock r.1
    if !recordOk (s.stashBanks t) b.bar 16 then .next (s.trap s.effective causeEngParam 0)
    else
      let core := (s.team t).core
      let ctx := s.teamCtx t
      let ms := s.scopeMembers t core b.scope
      let p := rankCount ms
      let s2 :=
        if !b.ok p || !inSet ms s.chipno core then s1.tellBar t b.bar fsBadRecord 0 s1.next
        else if s1.doneColls.contains { launch := (s.team t).launch, members := ms, core, ctl := BitVec.ofNat 32 b.ctl, seq := BitVec.ofNat 32 b.seq } then
          s1.tellBar t b.bar 0 (b.destBytes p) s1.next
        else s1.joinColl ctx ms
          { team := t, crew := s.cur.crew, lane := x.1, dev := s.chipno, core, bytes := r.1, addr := recAddr x
            gtag := tagsOf x.2.2 || x.2.1.gt, bar := b.bar, btag := r.2, remote := none, got := none, issued := s.next }
      .next (s2.finish ask [(x.1, x.2.1)])

end Sys2Proof.Machine
end

