-- ==== Sys2Proof/Machine/Launching.lean ====
section
/-! DEFINITION. The checks and the acceptance of a launch (R158-R161, R178, R189, R194, R308), the device-side launch
queue (R196), LAUNCH and LAUNCHT (R391, R392), CWAIT (R370) and TBAR (R424). -/

namespace Sys2Proof.Machine

open Sys2Proof

/-! ## Room on cores (R158, R193, R214) -/

/-- Crews of a block on a quadrant (R157). -/
def Block.crewsOn (b : Block) (q : Nat) : Nat := (b.crews + 3 - q) / 4

/-- Whether a team of a block fits on a core beside the teams it holds (R158, R214). -/
def Block.fits (b : Block) (held : List Block) : Bool :=
  held.length < 2
    && held.all (fun h => h.stash == b.stash && h.tensor == b.tensor)
    && (held.isEmpty || 2 * (b.stash + b.tensor) ≤ 32)
    && (List.range 4).all fun q =>
        ((b :: held).map fun h => h.crewsOn q * h.span).sum ≤ 1024 && ((b :: held).map fun h => h.crewsOn q).sum ≤ 16

/-- The blocks of the teams that a core holds. -/
def State.heldBlocks (s : State) (c : Nat) : List Block := (s.residents c).filterMap fun p => (s.launchOf p.1).map Launch.block

/-- The cores that a context's teams may use: allotted and online (R192), ascending. -/
def State.allotted (s : State) (ctx : Nat) : List Nat :=
  (List.range Config.cores).filter fun c =>
    ((s.ctx ctx).allot.isEmpty || (s.ctx ctx).allot.contains c) && !(s.core c).offline

/-- The instant from which a core's next slice is due (R200): its due time, or later where one has lapsed.
[DESIGN CHOICE: log entry 93] -/
def Core.slotDue (K : Core) : Nat := max K.onyxDue K.onyxFree

/-- Whether placement may use a core at an instant: it is not withheld, its due time included, and runs no slice (R200). -/
def Core.open (K : Core) (now : Nat) : Bool := K.withheld.isNone && K.testing.isNone && decide (now < K.slotDue)

/-- The core that R193 chooses: fewest resident crews, then the lowest number above the last, wrapping. -/
def chooseCore (b : Block) (last : Nat) : List (Nat × List Block) → Option Nat
  | [] => none
  | (c, held) :: r =>
    let key (c : Nat) (held : List Block) : Nat := (held.map Block.crews).sum * 320 + (c + 640 - last - 1) % 320
    let rest := chooseCore b last r
    if b.fits held then
      match rest with
      | some d => match r.find? (·.1 == d) with
        | some x => if key x.1 x.2 < key c held then some d else some c
        | none => some c
      | none => some c
    else rest

/-- Places teams of a block one after another: the cores chosen, until one finds no room. -/
def placeRun (b : Block) : List Nat → Nat → AMap (List Block) → List (Nat × Nat)
  | [], _, _ => []
  | t :: ts, last, held => match chooseCore b last held with
    | none => []
    | some c => (t, c) :: placeRun b ts c (held.upd c fun h => h ++ [b])

/-- The teams of this chip in a launch (R177).
[DEDUCED: log entry 86] -/
def chipTeams (b : Block) (chips : List Nat) (chip : Nat) : List Nat :=
  let n := chips.length
  let k := (chips.idxOf? chip).getD 0
  List.range' (k * b.teams / n) ((k + 1) * b.teams / n - k * b.teams / n)

/-- The co-residency check (R194).
[DEDUCED: log entry 33] -/
def State.coResident (s : State) (ctx : Nat) (b : Block) (ts : List Nat) : Bool :=
  let held : AMap (List Block) := ((s.allotted ctx).filter fun c => (s.core c).open s.ftime).map fun c =>
    (c, (s.residents c).filterMap fun p => match s.launchOf p.1 with
      | some L => if L.ctx = ctx ∧ L.block.cores ∧ !L.ended then some L.block else none
      | none => none)
  (placeRun b ts 319 held).length == ts.length

/-! ## Acceptance (R160, R178, R189) -/

/-- What is read at acceptance. -/
structure Intake where
  block : Block
  code : List Byte
  args : Bytes
  chips : List Nat

inductive Verdict where
  | refused (status : Nat)
  | wait (s : State)
  | ok (s : State) (x : Intake)

/-- The device numbers of a span. -/
def chipList (bs : List Byte) : (n : Nat) → List Nat
  | 0 => []
  | n + 1 => fieldOf bs 0 2 :: chipList (bs.drop 2) n

/-- Words of code read at acceptance; a poisoned word is not carried. -/
def cleanCode (b : Bytes) : List Byte := (b.data.zip b.marks).takeWhile (fun x => !x.2) |>.map Prod.fst

/-- The stash lines of a range that are absent, their fills begun, or the cause that a fill raises (R219). -/
def State.argLines (s : State) (t : Nat) : List Nat → RangeRead
  | [] => .ok s {}
  | n :: r => match s.touchStash t n with
    | .ready s => State.argLines s t r
    | .wait s => .wait s
    | .fail c _ => .fail c

/-- The bytes that ARGS or CHIPS of a block names (R160, R161): a capability with OBJ 0 names the stash of the team that
launches.
[DEDUCED: log entry 32] -/
def State.readFrom (s : State) (ctx : Nat) (team : Option Nat) (cap : DWord) (n : Nat) : RangeRead :=
  if n = 0 then .ok s {}
  else if capObj cap ≠ 0 then s.readRange ctx cap n needR
  else
    match team with
    | none => .fail causeBounds
    | some t => match s.check t cap n 1 needR with
      | .error c => .fail c
      | .ok _ => match s.argLines t (regionLines (capOff cap) n) with
        | .ok s _ => .ok s (Mem.taken (s.team t).body.stash (capOff cap) n)
        | x => x

/-- The same on a chip that received with the block what a capability with OBJ 0 names: the bytes it was sent.
[DEDUCED: log entries 32 and 86] -/
def State.readSent (s : State) (ctx : Nat) (sent : List Byte) (cap : DWord) (n : Nat) : RangeRead :=
  if n ≠ 0 ∧ capObj cap = 0 then .ok s { data := sent.take n } else s.readFrom ctx none cap n

/-- The checks of R160, R194 and R308 on a v4 block that device `lead` accepts, and what acceptance reads: `read` gives the
bytes of CHIPS. A CHIPS capability that fails the check of R204 is refused as ARGS is.
[DEDUCED: log entry 32; DESIGN CHOICE: log entry 92] -/
def State.examineAs (s : State) (lead ctx : Nat) (read : State → DWord → Nat → RangeRead) (bytes : List Byte) : Verdict :=
  let b := launchBlock bytes
  let cap := capWith b.code b.entry.toNat
  let len := (s.objEntry ctx (capObj b.code)).length
  if !blockRangesOk bytes || (b.tensor != 0 && !(s.ctx ctx).classen.getLsbD 1) || capObj b.code == 0
      || len ≤ b.entry.toNat then .refused stBadParam
  else
    match s.readRange ctx cap (min 256 (len - b.entry.toNat)) needX with
    | .fail _ => .refused stBadParam
    | .wait s => .wait s
    | .ok s1 code =>
      match read s1 b.args b.argLen with
      | .fail _ => .refused stBadParam
      | .wait s => .wait s
      | .ok s2 args =>
        let chips : RangeRead := if b.nchip = 1 then .ok s2 {} else read s2 b.chips (2 * b.nchip)
        match chips with
        | .fail _ => .refused stBadParam
        | .wait s => .wait s
        | .ok s3 cs =>
          let chips := if b.nchip = 1 then [s.chipno] else chipList cs.data b.nchip
          if chips.head? ≠ some lead ∨ !chips.contains s.chipno ∨ chips.eraseDups.length ≠ chips.length then
            .refused stBadParam
          else if b.cores ∧ !s3.coResident ctx b (chipTeams b chips s.chipno) then .refused stCoRefused
          else .ok s3 { block := b, code := cleanCode code, args, chips }

/-- Whether a launch of a context that this device leads still awaits its replies: the context's launch counter advances
only when it is accepted, so that no other takes a number meanwhile (R178, R270).
[DEDUCED: log entry 70] -/
def State.deciding (s : State) (ctx : Nat) : Bool := s.launches.any fun p => p.2.ctx == ctx && (match p.2.phase with
  | .asking .. => true
  | _ => false)

/-- The checks on a block that this device accepts, from the host or from a team. -/
def State.examine (s : State) (ctx : Nat) (team : Option Nat) (bytes : List Byte) : Verdict :=
  if s.deciding ctx then .wait s
  else s.examineAs s.chipno ctx (fun s cap n => s.readFrom ctx team cap n) bytes

/-- The next generation number of a context (R178). -/
def Context.nextGen (X : Context) : Word := if X.gens + 1 = 0 then 1 else X.gens + 1

/-- Before a launch of a context is accepted while none remains unretired, copies under IMM leases go (R431). -/
def State.freshImm (s : State) (ctx : Nat) : State := if (s.liveLaunches ctx).isEmpty then s.dropImm ctx else s

/-- Accepts a launch: its number, its generation number, and the state. Over several chips the block goes to the
others, and their replies are awaited (R178).
[DEDUCED: log entries 70 and 86] -/
def State.accept (s : State) (ctx : Nat) (bytes : List Byte) (x : Intake) (depth : Nat) (source : Source) : State :=
  let gen := (s.ctx ctx).nextGen
  let others := x.chips.filter (· != s.chipno)
  let L : Launch :=
    { ctx, gen, block := x.block, depth, source
      phase := if others.isEmpty then .running else .asking others (s.ftime + 100000)
      chips := x.chips, code := x.code, args := x.args.data, argTags := x.args.tags, argPoison := x.args.marks
      pending := chipTeams x.block x.chips s.chipno }
  let s := (s.freshImm ctx).updCtx ctx fun X => if others.isEmpty then { X with gens := gen } else X
  { s with
    launches := s.launches.put s.next L, next := s.next + 1
    linkOut := s.linkOut ++ others.map fun c =>
      (c, LinkMsg.spanBlock ctx gen.toNat s.chipno depth bytes x.code x.args.data x.args.tags x.args.marks x.chips) }

/-! ## The device-side launch queue (R196) -/

/-- The entry that a child of a depth can claim on a die. -/
def State.claimable (s : State) (die depth : Nat) : Option QEntry :=
  let held := s.claims.filter (·.die == die)
  if (held.filter (·.entry == .general)).length < Config.launchQueueGeneral then some .general
  else if held.any (·.entry == .reserved depth) then none
  else some (.reserved depth)

/-! ## LAUNCH and LAUNCHT (R391, R392) -/

/-- Writes GEN into a block in the stash as settled data. -/
def State.putGen (s : State) (t a : Nat) (gen : Word) : State :=
  s.report t (a + 0x3C) (leBytes 4 gen.toNat)

/-- Where one fibre's launch stands. -/
inductive Launched where
  | done (s : State) (ok : Bool)
  /-- it waits, with what it has already done -/
  | wait (s : State) (w : Wake) (did : Option Did)

/-- The status of a launch that ended before it started: it was refused. -/
def Phase.refused : Phase → Bool
  | .done st => st == stBadParam || st == stCoRefused || st == stSpanTimeout
  | _ => false

/-- One fibre's part of the word: `a` is its block, `try'` for LAUNCHT.
[DEDUCED: log entry 23] -/
def State.launchOne (s : State) (lane a : Nat) (did : Option Did) (try' : Bool) : Launched :=
  let t := s.cur.team
  let T := s.team t
  let die := dieOf T.core
  let depth := ((s.launchOf t).map Launch.depth).getD 0 + 1
  match did with
  | some .launched => .done s true
  | some .refused => .done s false
  | some .sent | some (.armed ..) | some (.copied ..) | some (.told _) => .done s false
  | some (.child l) => match s.launches.find l with
    | some L => match L.phase with
      | .asking .. => .wait s (.span l) (some (.child l))
      | p => if p.refused then .done (s.putGen t a 0) false else .done (s.putGen t a L.gen) true
    | none => .done (s.putGen t a 0) false
  | none =>
    let mine (w : Waiter) : Bool := w.team == t && w.crew == s.cur.crew && w.lanes == [lane]
    let given := (s.waiters.find? mine).bind Waiter.given
    match given.orElse fun _ => if s.waiters.any mine then none else s.claimable die depth with
    | none =>
      if try' then .done s false
      else if s.waiters.any mine then .wait s .launchQueue none
      else .wait { s with waiters := s.waiters ++ [({ die, team := t, crew := s.cur.crew, lanes := [lane], depth, given := none } : Waiter)] }
        .launchQueue none
    | some e =>
      let bytes := (s.stashBytes t a 128).1
      match s.examine (s.teamCtx t) (some t) bytes with
      | .wait s => .wait s (.regs []) none
      | v =>
        let s0 := if given.isSome then
            { s with waiters := s.waiters.filter fun w => !mine w
                     claims := s.claims.erase ({ die, entry := e, launch := 0 } : Claim) }
          else s
        match v with
        | .ok s1 x =>
          let s1 := { s1 with waiters := s0.waiters, claims := s0.claims }
          let l := s1.next
          let s2 := s1.accept (s.teamCtx t) bytes x depth (.team t die e lane)
          let s3 := { s2 with claims := s2.claims ++ [({ die, entry := e, launch := l } : Claim)] }
          let s4 := s3.updTeam t fun T => { T with children := T.children + 1 }
          if x.chips.length = 1 then .done (s4.putGen t a ((s4.launches.find l).map Launch.gen |>.getD 0)) true
          else .wait s4 (.span l) (some (.child l))
        | _ => .done ((s0.passEntry die e).putGen t a 0) false

/-- The fibres' launches in ascending order: all done, or the braid waits from one of them on. -/
inductive AllLaunched where
  | done (s : State) (oks : List (Nat × Bool))
  | wait (s : State) (lane : Nat) (w : Wake) (dids : List (Nat × Option Did))

def State.launchAll (s : State) (try' : Bool) : List (Nat × Lane × List Val) → List (Nat × Bool) → AllLaunched
  | [], oks => .done s oks
  | x :: r, oks => match s.launchOne x.1 (recAddr x) x.2.1.did try' with
    | .done s ok => State.launchAll s try' r (oks ++ [(x.1, ok)])
    | .wait s w d =>
      .wait s x.1 w (oks.map (fun o => (o.1, some (if o.2 then .launched else .refused))) ++ [(x.1, d)])

/-- LAUNCH and LAUNCHT: `n` is the predicate of LAUNCHT.
[DEDUCED: log entry 23] -/
def State.launchWord (s : State) (a : RegF) (n : Option PredF) : Result :=
  let t := s.cur.team
  let deep := ((s.launchOf t).map Launch.depth).getD 0 == 10
  let ask : Ask :=
    { recAsk a false with
      release := true
      known := fun _ _ _ => if deep && n.isNone then some (causeLaunchDepth, 0) else none
      early := fun _ _ _ => if deep && n.isNone then some (causeLaunchDepth, 0) else none }
  s.recordWord ask 128 fun s1 xs =>
    let settle (s2 : State) (oks : List (Nat × Bool)) : State :=
      s2.finish ask (xs.map fun x =>
        (x.1, match n with
          | some q => x.2.1.setQ q ((oks.find? (·.1 == x.1)).map Prod.snd |>.getD false)
              (tagsOf x.2.2 || (s1.stashBytes t (recAddr x) 128).2 || x.2.1.gt)
          | none => x.2.1))
    if deep then .next (settle s1 []).checkpointHere
    else
      match if xs.any fun x => x.2.1.did.isSome then none else s1.fenceWait s.cur.lanes .all with
      | some s => .next s
      | none =>
        match s1.launchAll n.isSome xs [] with
        | .wait s2 lane w dids =>
          let s3 := s2.park fun l => if l = lane then w else if xs.any (·.1 == l) then .follow lane else .regs []
          let s4 := s3.mapLanes (dids.map Prod.fst) fun l L =>
            { L with did := ((dids.find? (·.1 == l)).map Prod.snd).getD L.did }
          .next (if dids.any fun d => d.2.isSome then s4.checkpoint t (some (s.cur.crew, s.cur.lanes)) else s4)
        | .done s2 oks =>
          if n.isNone && oks.any fun o => !o.2 then
            .next ((s2.trap s2.effective causeLaunchRefused 0).checkpoint t (some (s.cur.crew, s.cur.lanes)))
          else .next (settle s2 oks).checkpointHere

/-- LAUNCH. -/
def execLaunch (a : RegF) (s : State) : Result := s.launchWord a none
/-- LAUNCHT. -/
def execLauncht (a : RegF) (n : PredF) (s : State) : Result := s.launchWord a (some n)

/-! ## CWAIT (R370) and TBAR (R424) -/

/-- Whether every child of a team launched under a number has retired.
[DEDUCED: log entry 31] -/
def State.childrenDone (s : State) (t below : Nat) : Bool :=
  s.launches.all fun p => match p.2.source with
    | .team parent _ _ _ => parent != t || below ≤ p.1 || p.2.ended
    | _ => true

/-- CWAIT: the fibres go on once the children that stand now have retired, and act as LDACQ: no access of theirs issues
while they wait, so what streams read ahead is discarded here.
[DEDUCED: log entries 12 and 31] -/
def execCwait (s : State) : Result :=
  match s.prepare {} with
  | .stop s => .next s
  | .go s1 xs =>
    let below := s1.next
    let w (L : Lane) : Lane :=
      if s1.childrenDone s.cur.team below then L else { L with state := .parked (.children below) }
    .next ((s1.discardAhead (xs.map Prod.fst)).finish {} (xs.map fun x => (x.1, (w x.2.1).unread fun _ => true)))

/-- TBAR: guard-false fibres arrive too, and the wait is there once some guard is true. What streams read ahead is discarded
as the fibres arrive: they go on as LDACQ does, and no access of theirs issues meanwhile.
[DEDUCED: log entry 43] -/
def execTbar (s : State) : Result :=
  let E := s.effective
  if s.cur.lanes.any s.curCrew.watched then
    .next (s.trap (if E.isEmpty then s.cur.lanes else E) causeUncheckedWatch 0)
  else
    match if E.isEmpty then none else s.fenceWait s.cur.lanes .core with
    | some s => .next s
    | none =>
      let s1 := (s.discardAhead s.cur.lanes).mapLanes s.cur.lanes fun _ L => { L with state := .parked .team, hints := {} }
      .next (s1.barrierCheck s.cur.team (some (s.cur.crew, s.cur.lanes)))

end Sys2Proof.Machine
end

