-- ==== Sys2Proof/Machine/MemEvents.lean ====
section
/-! DEFINITION. Memory events: what the home does with a request (R226, R236, R255-R257, R268) and what its reply does
at the core (R92, R223, R226, R227, R235, R394), with the other long-latency results (R372, R378, R384). -/

namespace Sys2Proof.Machine

open Sys2Proof

/-- The core whose request a writer's is. -/
def Writer.core : Writer → Nat
  | .crew _ _ core _ _ => core
  | .window _ _ core => core
  | .drain _ core => core

/-! ## Order of requests and replies (R226, R247) -/

/-- What places a request in the order of its line: who sent it, by which word and for which fibres. -/
structure Bound where
  line : Nat
  who : Nat × Nat
  uid : Nat
  lanes : List Nat
  /-- all that a stash bank sends about a line is in order -/
  bank : Bool

/-- The place of a request on its way to a home.
[DEDUCED: log entry 60] -/
def State.bound (s : State) : Msg → Option Bound
  | .read o line _ _ parts => some ⟨line, (o.team, o.crew), o.uid, parts.map Part.lane, false⟩
  | .atomic o line _ _ parts => some ⟨line, (o.team, o.crew), o.uid, parts.map AtomPart.lane, false⟩
  | .write (.crew t c _ lanes uid) addr _ _ => some ⟨addr / 128, (t, c), uid, lanes, false⟩
  | .back (.window t _ core) line _ _ => some ⟨line, (core, (s.team t).slot), 0, [], true⟩
  | .back (.drain t core) line _ _ => some ⟨line, (core, (s.team t).slot), 0, [], true⟩
  | .dirty line _ core slot => some ⟨line, (core, slot), 0, [], true⟩
  | .stashFill t _ addr => some ⟨addr / 128, ((s.team t).core, (s.team t).slot), 0, [], true⟩
  | _ => none

/-- Whether one request must be performed before another that was sent later: those of one fibre, and those of one word,
which it sends in lane order (R268).
[DEDUCED: log entry 60] -/
def Bound.before (a b : Bound) : Bool :=
  a.line == b.line && a.who == b.who && a.bank == b.bank && (a.bank || a.uid == b.uid || a.lanes.any b.lanes.contains)

/-- Whether no request sent earlier must be performed before this one.
[DEDUCED: log entries 27 and 60] -/
def State.firstAtHome (s : State) (k : Nat) (m : Msg) : Bool :=
  match s.bound m with
  | none => true
  | some b => s.msgs.all fun x => k ≤ x.1 || (match s.bound x.2 with
    | some a => !a.before b
    | none => true)

/-- The core, the line and the place in the home's order of a reply. -/
def Msg.reply : Msg → Option (Nat × Nat × Nat)
  | .readReply o line _ _ _ _ _ _ perf => some (o.core, line, perf)
  | .atomicReply o line _ _ _ _ _ perf => some (o.core, line, perf)
  | .ack (.crew _ _ core _ _) addr _ _ _ _ _ _ perf => some (core, addr / 128, perf)
  | .backAck (.window _ _ core) line _ _ _ _ perf => some (core, line, perf)
  | .backAck (.drain _ core) line _ _ _ _ perf => some (core, line, perf)
  | .engineAck core line _ _ _ perf => some (core, line, perf)
  | _ => none

/-- Whether a message is the reply of an atomic. -/
def Msg.atomicValue : Msg → Bool
  | .atomicReply .. => true
  | _ => false

/-- Whether no reply to the same core for the same line was performed earlier. The replies of atomics come back in any
order (R268).
[DEDUCED: log entry 60] -/
def State.firstAtCore (s : State) (m : Msg) : Bool :=
  match m.reply with
  | none => true
  | some (c, l, p) => s.msgs.all fun x => match x.2.reply with
    | some (d, n, q) => d != c || n != l || p ≤ q || m.atomicValue || x.2.atomicValue
    | none => true

/-- The next number in the home's order, and a message that takes the place of another. -/
def State.answer (s : State) (k : Nat) (m : Nat → Msg) : State :=
  { s with msgs := s.msgs.put k (m s.next), next := s.next + 1 }

/-! ## Requests at the home -/

/-- A whole line whose every sector is poisoned: what a device without a route delivers (R346). -/
def lostLine (m : Mem) : Mem := { m with tags := [0, 1, 2, 3], poison := [0, 1, 2, 3] }

/-- Whether a half of a line may be leased: the host neither holds it nor waits for it (R260).
[DEDUCED: log entry 65] -/
def State.halfFree (s : State) (line half : Nat) : Bool :=
  (s.dirOf line).hostHalf half == .HI && !s.hostWaits.any fun w => w.1 == line && (isHost (128 * line) || w.2.1 == half)

/-- A pending watch entry of a crew becomes confirmed or struck; one pending for 4 µs is struck whatever the home says
(R237).
[DEDUCED: log entry 26] -/
def State.settleWatch (s : State) (t c slot id : Nat) (ok : Bool) : State :=
  s.updCrew t c fun C => match C.watch.find slot with
    | some e => if e.id = id ∧ e.state = .pending then
        let st : WatchState := if ok && e.stateAt s.ftime == .pending then .confirmed else .struck
        { C with watch := C.watch.put slot { e with state := st } } else C
    | none => C

/-- The bytes of a line that the parts of a read touch: the first and how many; a prefetch touches none. -/
def partRange (parts : List (Nat × Nat)) : Nat × Nat :=
  match parts with
  | [] => (0, 0)
  | p :: r =>
    let lo := r.foldl (fun m q => min m q.1) p.1
    let hi := r.foldl (fun m q => max m (q.1 + q.2)) (p.1 + p.2)
    (lo, hi - lo)

/-- The times that an acquire returns for its line (R227): for Gdie and Gall. -/
def State.timesAt (s : State) (line core : Nat) : Nat × Nat :=
  let g := s.gwct line
  (if s.nearHome line core then g.1 else g.2, g.2)

/-- A lease for the requesting core: a read of a half that is not free takes none, and a prefetch takes one while some
half is free (R223, R260). An IMM line's lease has no expiry; while no launch of the context remains unretired, which would
have its copies dropped, it is not leased (R431).
[DEDUCED: log entry 98] -/
def State.lease (s : State) (o : Origin) (line f obj : Nat) (halves : List Nat) : State × Option Copy :=
  if halves.any (fun h => !s.halfFree f h) || (!s.halfFree f 0 && !s.halfFree f 1) then (s.readTransition f, none)
  else
    let ctx := s.teamCtx o.team
    let a := 128 * f
    let who : Grantee := if isHost a || devOf a == s.chipno then .core o.core else .remote s.chipno
    let e := s.objEntry ctx obj
    let imm := e.valid && e.imm
    if imm && (s.liveLaunches ctx).isEmpty then (s.readTransition f, none)
    else
      let g := s.grant f who (s.ctx ctx).lease imm
      let v := g.1.versionOf f
      (g.1, some
        { data := g.1.lineData f, half0 := g.1.halfFree f 0, half1 := g.1.halfFree f 1, expiry := g.2, granted := g.1.ftime
          version := v.1, epoch := if line = f then v.2 else v.2 + 1, ctx, obj })

/-- HOME_READ (R248, R255, R260): the value is the line's at this instant. -/
def execHomeRead (k : Nat) (e : MemErr) (s : State) : Result :=
  match s.msgs.find k with
  | some (.read o line obj kind parts) =>
    let r := partRange (parts.map fun p => (p.off, p.size))
    let f := s.forwarded (128 * line) / 128
    if !s.firstAtHome k (.read o line obj kind parts) then .next s
    else if s.lostHome (128 * f) then
      .next (s.answer k (.readReply o line obj kind parts (lostLine (s.lineData f)) none (0, 0)))
    else
      match s.readBlocked (128 * line + r.1) r.2 with
      | some s => .next s
      | none =>
        let s := s.touchLine f e false
        let g : State × Option Copy := match kind with
          | .acquire => (s.readTransition f, none)
          | _ => s.lease o line f obj (halvesOf r.1 r.2)
        let s := match kind with
          | .spec (some (slot, id)) => g.1.settleWatch o.team o.crew slot id true
          | _ => g.1
        .next (s.answer k (.readReply o line obj kind parts (s.lineData f) g.2 (s.timesAt f o.core)))
  | _ => .next s

/-- Whether a home may take a line written back whole (R260). What an owner had sent before the freeze is part of its recall:
it is performed at the MIGRATING line, which is copied afterwards (R264).
[DESIGN CHOICE: log entry 76] -/
def State.backBlocked (s : State) (line : Nat) : Option State :=
  let xs := s.snoopsFor (s.forwarded (128 * line) / 128) [0, 1] true
  if xs.isEmpty then none else some (s.sendSnoops xs)

/-- Whether an address lies in memory of the domain or of the host (R210). -/
def addressed (a : Nat) : Bool := isHost a || (devOf a < Config.domainDevices && localOf a < 0x06000000000)

/-- Whether a host write is one half of a line that the host holds exclusively, so that it is the host's own
write-back (R260).
[DEDUCED: log entry 65] -/
def State.hostReturns (s : State) (addr n : Nat) : Bool :=
  addr % 64 == 0 && n == 64 && (s.dirOf (addr / 128)).hostHalf (halfOf (addr % 128)) == .HE

/-- A write of the host or a PCI Express peer: its bytes are settled (R108); its g_all counts for doorbells (R245).
[DEDUCED: log entry 89] -/
def State.hostWrite (s : State) (addr : Nat) (data : List Byte) : State :=
  let w := s.performWrite (s.forwarded addr) data false
  { w.1 with hostGall := max w.1.hostGall w.2.2 }

/-- WRITE_PERFORM of a host's bytes, line by line; each piece of a line that is not free waits.
[DEDUCED: log entry 89] -/
def State.hostArrival (s : State) (e : MemErr) (data : List Byte) : List (Nat × Nat) → State
  | [] => s
  | (a, n) :: r =>
    let line := s.forwarded a / 128
    let bytes := data.take n
    let d := s.dirOf line
    if isHost a then
      -- host memory: only once the bridge has answered the snoop (R258)
      if d.owner.isSome || s.ftime < max d.hnear d.hfar then s
      else
        let s := s.raceAt a n
        State.hostArrival ({ s with mem := s.mem.store a bytes false }.bumpVersion line) e (data.drop n) r
    else if s.hostReturns (s.forwarded a) n then
      let s := (s.touchLine line e true).hostWrite a bytes
      -- the half becomes HI with the host's answer to a snoop that is outstanding (R260)
      let s := if s.snoops.any fun x => x.1 == line && x.2.1 == halfOf (a % 128) then s
        else s.setDir line ((s.dirOf line).setHalf (halfOf (a % 128)) .HI)
      State.hostArrival s e (data.drop n) r
    else
      match s.writeBlocked a n with
      | some s => s
      | none => State.hostArrival ((s.touchLine line e true).hostWrite a bytes) e (data.drop n) r

/-- WRITE_PERFORM (R226): a store, a write-back or a host write is performed at its home. A host write that has to
wait leaves the rest of its bytes to a later event.
[DESIGN CHOICE: log entry 9] -/
def execWritePerform (w : Arrival) (e : MemErr) (s : State) : Result :=
  match w with
  | .host addr data =>
    .next (if addressed addr && addressed (addr + data.length) then
      s.hostArrival e data (linePieces (data.length / 128 + 2) addr data.length) else s)
  | .flight k =>
    match s.msgs.find k with
    | some (.write w addr data tag) =>
      let f := s.forwarded addr
      let core := w.core
      if !s.firstAtHome k (.write w addr data tag) || s.lostHome f then .next s
      else
        match s.writeBlocked addr data.length with
        | some s => .next s
        | none =>
          let r := (s.touchLine (f / 128) e true).performWrite f data tag
          let near := if s.nearHome (f / 128) core then r.2.1 else r.2.2
          .next (r.1.answer k (.ack w addr data tag near r.2.2 false (r.1.dirOf (f / 128)).version))
    | some (.back w line data leave) =>
      let f := s.forwarded (128 * line) / 128
      let core := w.core
      if !s.firstAtHome k (.back w line data leave) || s.lostHome (128 * f) then .next s
      else
        match s.backBlocked line with
        | some s => .next s
        | none =>
          let r := (s.touchLine f e true).performBack f data leave
          let near := if s.nearHome f core then r.2.1 else r.2.2
          .next (r.1.answer k (.backAck w line data near r.2.2 false))
    | _ => .next s

/-- What atomics at a home give: the replies, what each left at its place in the line, and whether some part wrote. -/
structure AtomsDone where
  vals : List (Nat × List (Option Nat) × DWord × Bool) := []
  left : List (Nat × List Byte × Bool) := []
  wrote : Bool := false

/-- The atomics of a line in lane order (R268). One that reads poisoned data takes no effect (R322).
[DEDUCED: log entries 12 and 62] -/
def State.atomics (s : State) (f : Nat) (pdef : Bool) : List AtomPart → State × AtomsDone
  | [] => (s, {})
  | p :: r =>
    let a := 128 * f + p.off
    let old := s.mem.num a p.size
    let tag := s.mem.tagOf a p.size || p.tag
    let new := if s.mem.poisonOf a p.size then none else atomOp p.op p.xchg p.size old p.cmp.toNat p.v.toNat
    let s := match new with
      | some n => (s.raceAt a p.size).putLine a (leBytes p.size n) (p.dataTag || pdef)
      | none => s
    let g := State.atomics s f pdef r
    (g.1,
      { vals := (p.lane, p.dest, BitVec.ofNat 64 old, tag) :: g.2.vals
        left := (p.off, s.mem.bytes a p.size, s.mem.tagOf a p.size) :: g.2.left
        wrote := new.isSome || g.2.wrote })

/-- ATOMIC_PERFORM (R268, R358).
[DEDUCED: log entry 62] -/
def execAtomicPerform (k : Nat) (e : MemErr) (s : State) : Result :=
  match s.msgs.find k with
  | some (.atomic o line wider pdef parts) =>
    let f := s.forwarded (128 * line) / 128
    let r := partRange (parts.map fun p => (p.off, p.size))
    if !s.firstAtHome k (.atomic o line wider pdef parts) || s.lostHome (128 * f) then .next s
    else
      match s.writeBlocked (128 * line + r.1) r.2 with
      | some s => .next s
      | none =>
        let s := (s.touchLine f e false).writeTransition f
        let bad := parts.any fun p => s.mem.poisonOf (128 * f + p.off) p.size
        let times := s.timesAt f o.core
        let g := s.atomics f pdef (parts.mergeSort fun a b => a.lane ≤ b.lane)
        .next (g.1.answer k (.atomicReply o line wider g.2.vals g.2.left
          (if wider || g.2.wrote then times else (0, 0)) bad))
  | _ => .next s

/-- LDSP_CHECK (R236): the home confirms only what it can show.
[DEDUCED: log entry 64] -/
def execLdspCheck (k : Nat) (s : State) : Result :=
  match s.msgs.find k with
  | some (.check t c slot id line stamp epoch) =>
    let f := s.forwarded (128 * line) / 128
    let ok := f == line && (s.dir.find line).isSome && s.versionOf line == (stamp, epoch) && !s.lostHome (128 * line)
    .next (if s.migratingLine line then s else { s with msgs := s.msgs.put k (.checkReply t c slot id ok) })
  | _ => .next s

/-- CHECK_REPLY (R235). -/
def execCheckReply (k : Nat) (s : State) : Result :=
  match s.msgs.find k with
  | some (.checkReply t c slot id ok) => .next ((s.taken k).settleWatch t c slot id ok)
  | _ => .next s

/-- WATCH_AGE_STRIKE (R237). -/
def execWatchAgeStrike (team crew : Nat) (s : State) : Result :=
  .next (s.updCrew team crew fun C =>
    { C with watch := C.watch.mapVals fun _ e =>
        if e.state = .pending ∧ e.created + Config.watchAge ≤ s.ftime then { e with state := .struck } else e })

/-- DIRTY_NOTICE (R256). -/
def execDirtyNotice (k : Nat) (s : State) : Result :=
  match s.msgs.find k with
  | some (.dirty line dev core slot) =>
    if !s.firstAtHome k (.dirty line dev core slot) then .next s
    else
      let d := s.dirOf line
      let st : DirState := match d.state with
        | .S => .O
        | .E => .M
        | x => x
      .next (if d.owner = some { dev, core, slot } then (s.taken k).setDir line { d with state := st } else s.taken k)
  | _ => .next s

/-- STASH_FILL (R219, R255): the line becomes present and clean unless its window or its team is gone. -/
def execStashFill (k : Nat) (e : MemErr) (s : State) : Result :=
  match s.msgs.find k with
  | some (.stashFill t n addr) =>
    let T := s.team t
    let f := s.forwarded addr / 128
    match T.body.windowOf n with
    | some w =>
      if !(T.resident && T.body.absent.contains n && s.windowAddr t w n == some (128 * f)) then .next (s.taken k)
      else if !s.firstAtHome k (.stashFill t n addr) then .next s
      else if s.lostHome (128 * f) then
        .next ((s.taken k).updBody t fun b => b.stashTake n w.tag (lostLine (s.lineData f)))
      else
        match s.writeBlocked (128 * f) 128 with
        | some s => .next s
        | none =>
          let s := ((s.taken k).touchLine f e false).ownerFill f { dev := s.chipno, core := T.core, slot := T.slot }
          .next (s.updBody t fun b => b.stashTake n w.tag (s.lineData f))
    | none => .next (s.taken k)
  | _ => .next s

/-! ## Replies at the core -/

/-- Fills a destination (R92). -/
def Lane.fill (dest : List (Option Nat)) (v : BitVec 128) (tag : Bool) (L : Lane) : Lane :=
  putSlots tag L (dest.map fun d => match d with
    | some r => .reg r
    | none => .zero) v

/-- The request that a load in flight is issued again as: a plain load, without the elements that streams read ahead. An
LDACQ never is (R312). -/
def Msg.again : Msg → Option Msg
  | .read o line obj kind parts =>
    if kind = .acquire then none else some (.read o line obj .plain (parts.filter (·.stream.isNone)))
  | .readReply o line obj kind parts _ _ _ _ =>
    if kind = .acquire then none else some (.read o line obj .plain (parts.filter (·.stream.isNone)))
  | _ => none

/-- Changes lanes of a crew of a team: of its checkpoint shadow too when the message was in flight then and a rollback
would not issue it again (R312, R332). -/
def State.arrive (s : State) (k t c : Nat) (us : List (Nat × (Lane → Lane))) : State :=
  let one (C : Crew) : Crew := C.setLanes (us.map fun u => (u.1, u.2 (C.lane u.1)))
  let upd (b : Body) : Body := { b with crews := b.crews.upd c one }
  s.updTeam t fun T =>
    let kept := match T.shadowLoads.find k with
      | some m => m.again.isNone
      | none => false
    { T with
      body := upd T.body
      shadow := if kept then T.shadow.map upd else T.shadow
      shadowLoads := if kept then T.shadowLoads.del k else T.shadowLoads }

/-- Registers that an MMA names and that an arriving value touched hold undefined values (R242). -/
def State.arriveNamed (s : State) (t c : Nat) (rs : List (Nat × Nat)) : State :=
  ((s.crew t c).breached rs).foldl (fun s x => s.scramble t c x) s

/-- The registers that destinations name. -/
def destRegs (ds : List (Nat × List (Option Nat))) : List (Nat × Nat) :=
  ds.flatMap fun d => d.2.filterMap fun r => r.map fun n => (d.1, n)

/-- A held value reaches its register (R92, R394). -/
def State.deliver (s : State) (k : Nat) (o : Origin) (lane : Nat) (dest : List (Option Nat)) (val : BitVec 128) (tag : Bool) :
    State :=
  let s := (s.taken k).arrive k o.team o.crew [(lane, Lane.fill dest val tag)]
  (s.arriveNamed o.team o.crew (destRegs [(lane, dest)])).reap o.team o.crew

/-- Folds times into a crew (R227). -/
def Crew.fold (C : Crew) (near all : Nat) : Crew := { C with gdie := max C.gdie near, gall := max C.gall all }
/-- One write fewer is unacknowledged (R227). -/
def Crew.paid (C : Crew) : Crew := { C with unacked := C.unacked - 1 }

/-- Whether a byte of a copy is older than what a home performed at a place in its order.
[DEDUCED: log entry 61] -/
def Copy.older (c : Copy) (perf i : Nat) : Bool :=
  c.perf < perf && c.took.all fun t => !(t.1 ≤ i && i < t.1 + t.2.1 && perf < t.2.2)

/-- A copy takes bytes that the home performed, where it holds older ones, and keeps its expiry (R226).
[DEDUCED: log entry 61] -/
def Copy.takes (perf : Nat) (c : Copy) (x : Nat × List Byte × List Bool) : Copy :=
  let n := x.2.1.length
  if !(List.range n).any fun i => c.older perf (x.1 + i) then c
  else
    let bs := (List.range n).map fun i => if c.older perf (x.1 + i) then x.2.1.getD i 0 else c.data.byte (x.1 + i)
    { c with data := c.data.storeTagged 5 x.1 bs x.2.2, took := c.took ++ [(x.1, n, perf)] }

/-- A core's copy of a line, or one on its way to it, takes pieces that the home performed: the offset, the bytes and a tag
for each.
[DEDUCED: log entry 61] -/
def State.copyTakes (s : State) (core line perf : Nat) (xs : List (Nat × List Byte × List Bool)) : State :=
  let s := s.updCore core fun K => match K.copies.find line with
    | some c => { K with copies := K.copies.put line (xs.foldl (Copy.takes perf) c) }
    | none => K
  if s.msgs.all fun m => match m.2 with
    | .readReply _ _ _ _ _ _ (some _) .. => false
    | _ => true
  then s
  else { s with msgs := s.msgs.mapVals fun _ m => match m with
    | .readReply o l obj kind parts data (some c) times p =>
      if o.core = core ∧ l = line then
        .readReply o l obj kind parts data (some (xs.foldl (Copy.takes perf) { c with perf := p })) times p
      else m
    | m => m }

/-- A core gives up its copy of a line. -/
def State.dropCopy (s : State) (core line : Nat) : State := s.updCore core fun K => { K with copies := K.copies.del line }

/-- A piece with one tag. -/
def plainPiece (off : Nat) (data : List Byte) (tag : Bool) : Nat × List Byte × List Bool := (off, data, data.map fun _ => tag)

/-- A core takes a copy; one that is full gives up the copies granted first.
[DESIGN CHOICE: log entry 88] -/
def Core.takeCopy (K : Core) (line : Nat) (c : Copy) : Core :=
  { K with copies := (trimTo (K.copyRoom - 1) (K.copies.del line)).put line c }

/-- What a part takes from the data of a line: the value and the tag of its sectors. -/
def Part.value (p : Part) (data : Mem) : BitVec 128 × Bool :=
  (extendTo p.size p.signed (data.num p.off p.size), data.tagOf p.off p.size)

/-- A fibre takes its part of a line: in registers, or as the next element of a stream (R92, R282). -/
def Part.arrives (p : Part) (data : Mem) (L : Lane) : Lane :=
  let v := p.value data
  match p.stream with
  | some n => { L with streams := L.streams.upd n fun x => { x with got := some (v.1.setWidth 64, v.2) } }
  | none => L.fill p.dest v.1 (v.2 || p.tag)

/-- LOAD_REPLY (R394): the registers fill, the copy is installed; poisoned data is consumed instead (R322). An LDACQ
installs no copy, and its core gives up a copy of the line that it holds, which may be older.
[DEDUCED: log entries 27 and 61; DESIGN CHOICE: log entry 9] -/
def execLoadReply (k : Nat) (s : State) : Result :=
  match s.msgs.find k with
  | some (.readReply o line obj kind parts data copy times perf) =>
    if !s.firstAtCore (.readReply o line obj kind parts data copy times perf) then .next s
    else
      let acq := match kind with
        | .acquire => true
        | _ => false
      let kept := acq && ((s.team o.team).shadowLoads.find k).isSome
      if parts.any fun p => data.poisonOf p.off p.size then
        .next ((if kept then s else s.taken k).consume o.team)
      else
        let s := s.taken k
        let s := match copy with
          | some c => s.updCore o.core fun K => K.takeCopy line { c with perf }
          | none => if acq then s.dropCopy o.core line else s
        let s := s.arrive k o.team o.crew (parts.map fun p => (p.lane, p.arrives data))
        let s := s.arriveNamed o.team o.crew (destRegs (parts.map fun p => (p.lane, p.dest)))
        let s := if acq then s.updCrew o.team o.crew fun C => C.fold times.1 times.2 else s
        .next (s.reap o.team o.crew)
  | some (.held o lane dest val tag false) => .next (s.deliver k o lane dest val tag)
  | _ => .next s

/-- Fills that carry a value of up to 64 bits each. -/
def valueFills (vals : List (Nat × List (Option Nat) × DWord × Bool)) : List (Nat × (Lane → Lane)) :=
  vals.map fun v => (v.1, Lane.fill v.2.1 (v.2.2.1.setWidth 128) v.2.2.2)

/-- ATOMIC_REPLY (R358, R227). A poisoned reply is consumed and stands for the restored team (R347, R312); a stopped team
has no use for it.
[DEDUCED: log entries 61 and 62] -/
def execAtomicReply (k : Nat) (s : State) : Result :=
  match s.msgs.find k with
  | some (.atomicReply o line wider vals left times poison perf) =>
    if !s.firstAtCore (.atomicReply o line wider vals left times poison perf) then .next s
    else if poison then
      let s1 := s.updCrew o.team o.crew Crew.paid
      .next (if (s.team o.team).state = .retired then s1.taken k
        else if (s.team o.team).consumed then s else s1.consume o.team)
    else
      let s := (s.taken k).copyTakes o.core line perf (left.map fun x => plainPiece x.1 x.2.1 x.2.2)
      let s := s.arrive k o.team o.crew (valueFills vals)
      let s := s.arriveNamed o.team o.crew (destRegs (vals.map fun v => (v.1, v.2.1)))
      let s := s.updCrew o.team o.crew fun C => C.paid.fold times.1 times.2
      .next (s.reap o.team o.crew)
  | some (.held o lane dest val tag true) => .next (s.deliver k o lane dest val tag)
  | _ => .next s

/-- Folds a write-back's times where it counts: the crew, or the draining team (R175, R227). -/
def State.paidBack (s : State) (w : Writer) (near all : Nat) (failed : Bool) : State :=
  let fold (C : Crew) : Crew := if failed then C.paid else C.paid.fold near all
  match w with
  | .crew t c _ _ _ => s.updCrew t c fold
  | .window t c _ => s.updCrew t c fold
  | .drain t _ => s.updTeam t fun T => { T with gall := if failed then T.gall else max T.gall all }

/-- What a failed acknowledgement does to the writer's team (R347). -/
def State.failedFor (s : State) (w : Writer) : State := match w with
  | .crew t _ _ _ _ => s.consume t
  | .window t _ _ => s.consume t
  | .drain t _ => s.stopLaunch (s.team t).launch stFaulted

/-- The team whose write a writer's is. -/
def Writer.team : Writer → Nat
  | .crew t .. => t
  | .window t .. => t
  | .drain t _ => t

/-- Whether a failed write stands from before its running team's checkpoint, so that each rollback meets it again (R347). -/
def State.standing (s : State) (k : Nat) (w : Writer) : Bool := match w with
  | .drain .. => false
  | w => let T := s.team w.team; T.shadow.isSome && decide (k < T.shadowSeq) && T.state != .retired

/-- A failed acknowledgement arrives (R347). -/
def State.failedArrives (s : State) (k : Nat) (w : Writer) : State :=
  if s.standing k w then (if (s.team w.team).consumed then s else s.consume w.team)
  else ((s.taken k).paidBack w 0 0 true).failedFor w

/-- WRITE_ACKNOWLEDGE (R226, R227, R347).
[DEDUCED: log entry 63] -/
def execWriteAcknowledge (k : Nat) (s : State) : Result :=
  match s.msgs.find k with
  | some (.ack w addr data tag near all failed stamp perf) =>
    if !s.firstAtCore (.ack w addr data tag near all failed stamp perf) then .next s
    else if failed then .next (s.failedArrives k w)
    else .next (((s.taken k).paidBack w near all false).copyTakes w.core (addr / 128) perf [plainPiece (addr % 128) data tag])
  | some (.backAck w line data near all failed perf) =>
    if !s.firstAtCore (.backAck w line data near all failed perf) then .next s
    else if failed then .next (s.failedArrives k w)
    else .next (((s.taken k).paidBack w near all false).copyTakes w.core line perf
      [(0, data.bytes 0 128, (List.range 128).map fun i => data.tag (i / 32))])
  | some (.engineAck core line off data tags perf) =>
    if !s.firstAtCore (.engineAck core line off data tags perf) then .next s
    else .next ((s.taken k).copyTakes core line perf [(off, data, tags)])
  | _ => .next s

/-- DIVISION_COMPLETE (R372). -/
def execDivisionComplete (k : Nat) (s : State) : Result :=
  match s.msgs.find k with
  | some (.division t c vals dz) =>
    let s := (s.taken k).arrive k t c
      ((valueFills vals).map fun u => (u.1, fun L => (u.2 L).raise (if dz.contains u.1 then flDZ else 0)))
    .next ((s.arriveNamed t c (destRegs (vals.map fun v => (v.1, v.2.1)))).reap t c)
  | _ => .next s

/-- SFU_COMPLETE (R378). -/
def execSfuComplete (k : Nat) (s : State) : Result :=
  match s.msgs.find k with
  | some (.special t c vals flags) =>
    let s := (s.taken k).arrive k t c
      ((valueFills vals).map fun u => (u.1, fun L => (u.2 L).raise (((flags.find? (·.1 == u.1)).map Prod.snd).getD 0)))
    .next ((s.arriveNamed t c (destRegs (vals.map fun v => (v.1, v.2.1)))).reap t c)
  | _ => .next s

/-- Whether no earlier read of FTIME by one of these fibres is still due (R384).
[DEDUCED: log entry 60] -/
def State.firstFtime (s : State) (k t c : Nat) (ls : List Nat) : Bool := s.msgs.all fun m => k ≤ m.1 || (match m.2 with
  | .ftime u d lanes => u != t || d != c || !lanes.any fun l => ls.contains l.1
  | _ => true)

/-- FTIME_READ_COMPLETE (R384). -/
def execFtimeReadComplete (k : Nat) (s : State) : Result :=
  match s.msgs.find k with
  | some (.ftime t c lanes) =>
    if !s.firstFtime k t c (lanes.map Prod.fst) then .next s
    else
      let v := BitVec.ofNat 128 (s.ftime % 2 ^ 64)
      let s := (s.taken k).arrive k t c (lanes.map fun l => (l.1, Lane.fill l.2.1 v l.2.2))
      .next ((s.arriveNamed t c (destRegs (lanes.map fun l => (l.1, l.2.1)))).reap t c)
  | _ => .next s

/-! ## Instruction lines (R191, R244) -/

/-- The instruction words of a line that may be kept: those of sectors without a mark. -/
def fillWords (ctx obj off : Nat) (m : Mem) : List IWord :=
  (List.range 32).filterMap fun i =>
    if m.poisoned (i / 8) then none else some { ctx, obj, off := off + 4 * i, word := BitVec.ofNat 32 (m.num (4 * i) 4) }

/-- A core that runs a team of the code object and lacks words of the line takes them. The 128 KiB cache keeps the words
that came last (R13, R244).
[DESIGN CHOICE: log entry 88] -/
def Core.takeWords (K : Core) (ws : List IWord) : Core :=
  let all := K.icache ++ ws.filter fun w => !K.icache.any fun x => x.ctx == w.ctx && x.obj == w.obj && x.off == w.off
  { K with icache := all.drop (all.length - 32768) }

/-- Whether a parked fibre's next missing word is in a poisoned sector of an arriving line (R322). -/
def Core.starves (K : Core) (ctx obj off : Nat) (m : Mem) (L : Lane) : Bool :=
  let held (q : Nat) : Bool := K.icache.any fun x => x.ctx == ctx && x.obj == obj && x.off == q
  match L.state with
  | .parked (.fetch n) =>
    n == off / 128 && (match ((List.range 8).map fun i => L.pc.toNat + 4 * i).find? fun q => !held q with
      | some q => q / 128 == n && m.poisoned (q % 128 / 32)
      | none => false)
  | _ => false

/-- ICACHE_FILL (R191): one read of the line serves every core of the die that runs the code object. -/
def execIcacheFill (k : Nat) (e : MemErr) (s : State) : Result :=
  match s.msgs.find k with
  | some (.fill die ctx obj off addr skip) =>
    let f := s.forwarded addr / 128
    let lost := s.lostHome (128 * f)
    match if lost then none else s.readBlocked (128 * f) 128 with
    | some s => .next s
    | none =>
      let s1 := if lost then s.taken k else ((s.taken k).readTransition f).touchLine f e false
      let m := if lost then lostLine (s1.lineData f) else s1.lineData f
      let ws := fillWords ctx obj off m
      let mine (p : Nat × Team) : Bool := p.2.resident && dieOf p.2.core == die && !skip.contains p.2.core
        && s.teamCtx p.1 == ctx && capObj (s.codeOf p.1) == obj
      let ts := s1.teams.filter mine
      let s2 := ((ts.map fun p => p.2.core).eraseDups).foldl (fun s' c => s'.updCore c fun K => K.takeWords ws) s1
      let hungry := ts.filter fun p => p.2.body.crews.any fun c => c.2.lanes.any fun l => (s2.core p.2.core).starves ctx obj off m l.2
      .next (hungry.foldl (fun s' p => s'.consume p.1) s2)
  | _ => .next s

end Sys2Proof.Machine
end

