-- ==== Sys2Proof/Machine/HostMem.lean ====
section
/-! DEFINITION. Directory housekeeping (R220, R256, R257) and the host's part in coherence (R258-R261). -/

namespace Sys2Proof.Machine

open Sys2Proof

/-! ## Directory entries -/

/-- The entry once its expired sharers are forgotten (R255, R256). -/
def DirEntry.expire (d : DirEntry) (line now : Nat) : DirEntry :=
  let die := homeDie (localOf (128 * line))
  let far := d.hfar ≤ now
  let past (k : Nat) : Bool := if !isHost (128 * line) && die == k then decide (d.hnear ≤ now) else decide far
  let e := { d with sha := if past 0 then [] else d.sha, shb := if past 1 then [] else d.shb, remote := d.remote && !far }
  if e.shared then e
  else { e with state := match d.state with
    | .S => if d.owner.isSome then .E else .I
    | .O => .M
    | x => x }

/-- LEASE_EXPIRY (R256). -/
def execLeaseExpiry (line : Nat) (s : State) : Result :=
  match s.dir.find line with
  | some d => .next (s.setDir line (d.expire line s.ftime))
  | none => .next s

/-- Folds the horizons of a line into its slice's floors (R225). -/
def State.foldFloors (s : State) (line : Nat) (d : DirEntry) : State :=
  let k := sliceKey (128 * line)
  let f := (s.floors.find k).getD (0, 0)
  { s with floors := s.floors.put k (max f.1 d.hnear, max f.2 d.hfar) }

/-- A directory entry goes (R257): its version is unknown from here on (R236). -/
def State.forgetLine (s : State) (line : Nat) : State :=
  let d := s.dirOf line
  let s := if !d.shared && d.hnear ≤ s.ftime && d.hfar ≤ s.ftime then s else s.foldFloors line d
  { s with dir := s.dir.del line, epochs := s.epochs.put line (s.epochOf line + 1) }

/-- DIRECTORY_EVICT (R257). The line leaves the last-level cache with its entry; a cached line without an entry leaves it
alone.
[DESIGN CHOICE: log entry 20] -/
def execDirectoryEvict (line : Nat) (e : MemErr) (s : State) : Result :=
  match s.dir.find line with
  | none => .next (if s.backDue line then s else s.dropLine line e)
  | some d =>
    if d.state = .migrating ∨ s.migratingLine line ∨ d.host0 ≠ .HI ∨ d.host1 ≠ .HI ∨ s.backDue line
        ∨ s.lostHome (128 * line) then .next s
    else if s.ownedAway line true then .next (s.sendRecall line true)
    else .next (((s.recallLine line true).forgetLine line).dropLine line e)

/-- Whether an agent other than the owner waits at the home for a line, for a write or for a read.
[DEDUCED: log entry 66] -/
def State.wanted (s : State) (line : Nat) (forWrite : Bool) : Bool :=
  s.hostWaits.any (fun w => w.1 == line && w.2.2.1 == forWrite) ||
  s.msgs.any fun m => match m.2 with
    | .read _ l _ _ _ => !forWrite && l == line
    | .fill _ _ _ _ a _ => !forWrite && a / 128 == line
    | .write _ a _ _ => forWrite && a / 128 == line
    | .atomic _ l _ _ _ => forWrite && l == line
    | .stashFill _ _ a => forWrite && a / 128 == line
    | _ => false

/-- RECALL (R220, R255): the owner answers before the access that asked for it is performed. What an owner would write back
to a home without a working route is not performed (R347).
[DEDUCED: log entry 66] -/
def execRecall (line : Nat) (forWrite : Bool) (s : State) : Result :=
  if !s.wanted line forWrite || s.migratingLine line || s.backDue line || s.lostHome (128 * line) then .next s
  else if s.ownedAway line forWrite then .next (s.sendRecall line forWrite)
  else .next (if forWrite then s.writeTransition line else s.readTransition line)

/-! ## Host requests (R258, R260, R261) -/

/-- A master is told something (R6, R321). -/
def State.tellMaster (s : State) (m : Master) (a : Answer) : State := { s with answers := s.answers ++ [(m, a)] }

/-- Bytes of memory that the host or a peer reads: poisoned data carries poison and is recorded (R321, R329). -/
def State.hostTold (s : State) (addr : Nat) (b : Bytes) : State :=
  let s := s.tellMaster .host (.data b.data (b.marks.any id))
  match b.marks.findIdx? id with
  | some i => s.mcRecord 52 0x0701 .contained 0 (some ((addr + i) / 128 * 128)) none
  | none => s

/-- A host request is answered with the half's data: an exclusive one gives the host the half, and one in host memory
gives up what the device held. -/
def State.hostAnswer (s : State) (line half : Nat) (excl : Bool) : State :=
  let s := { s with hostWaits := s.hostWaits.filter fun w => !(w.1 == line && w.2.1 == half && w.2.2.1 == excl) }
  if isHost (128 * line) then s
  else
    let a := 128 * line + 64 * half
    (s.setDir line ((s.dirOf line).setHalf half (if excl then .HE else .HS))).hostTold a (Mem.taken s.mem a 64)

/-- A host request reaches the bridge or the home. The owner is recalled; an answer that must wait for the horizons of
the line (R258, R260) is given by a later event of the same request.
[DEDUCED: log entry 65] -/
def State.hostAsks (s : State) (line half : Nat) (excl waits : Bool) : State :=
  match s.hostWaits.find? fun w => w.1 == line && w.2.1 == half && w.2.2.1 == excl with
  | some w => if w.2.2.2 ≤ s.ftime then s.hostAnswer line half excl else s
  | none =>
    if s.backDue line then s
    else if s.ownedAway line excl && (excl || !isHost (128 * line)) then s.sendRecall line excl
    else
      let s := if excl then s.writeTransition line else if isHost (128 * line) then s else s.readTransition line
      let d := s.dirOf line
      let h := if waits then max d.hnear d.hfar else 0
      if h ≤ s.ftime then s.hostAnswer line half excl
      else { s with hostWaits := s.hostWaits ++ [(line, half, excl, h)] }

/-- HOST_SNOOP (R258): of a half of a line of host memory; `inv` asks for invalidation. -/
def execHostSnoop (line half : Nat) (inv : Bool) (s : State) : Result :=
  .next (if isHost (128 * line) ∧ half ≤ 1 then s.hostAsks line half inv true else s)

/-- Whether a line of device memory is at this device. -/
def State.ownLine (s : State) (line half : Nat) : Bool :=
  s.own (128 * line) && decide (localOf (128 * line) < 0x06000000000) && decide (half ≤ 1)

/-- Whether a back-invalidation snoop of a half is outstanding. -/
def State.snooping (s : State) (line half : Nat) : Bool := s.snoops.any fun x => x.1 == line && x.2.1 == half

/-- HOST_HALF_REQUEST (R260): one that meets an outstanding snoop is a collision (R261), and one for a MIGRATING line
waits (R265). A line that forwards is asked of its new place (R264). -/
def execHostHalfRequest (line half : Nat) (excl : Bool) (s : State) : Result :=
  let f := s.forwarded (128 * line) / 128
  .next (if s.ownLine line half && !s.snooping f half && !s.migratingLine line then s.hostAsks f half excl excl else s)

/-- BISNP_RESPONSE (R260): modified data is performed as a host write, and the half becomes HI.
[DEDUCED: log entry 65] -/
def execBisnpResponse (line half : Nat) (dirty : Option (List Byte)) (s : State) : Result :=
  if !s.snooping line half then .next s
  else
    let s := match dirty with
      | some data => s.hostWrite (128 * line + 64 * half) (data.take 64)
      | none => s
    let s := s.setDir line ((s.dirOf line).setHalf half .HI)
    .next { s with snoops := s.snoops.filter fun x => !(x.1 == line && x.2.1 == half) }

/-- BICONFLICT (R261): the host's request is served as though it had come before the snoop, which is issued again if
the access still needs it. A request for a MIGRATING line waits (R265). -/
def execBiconflict (line half : Nat) (excl : Bool) (s : State) : Result :=
  if !s.snooping line half || s.migratingLine line then .next s
  else
    let s := s.hostAsks line half excl excl
    .next (if (s.dirOf line).hostHalf half = .HS then
      { s with snoops := s.snoops.filter fun x => !(x.1 == line && x.2.1 == half && !x.2.2) } else s)

end Sys2Proof.Machine
end

