-- ==== Sys2Proof/Machine/Queues.lean ====
section
/-! DEFINITION. The host's registers with their access tables (R4, R6, R184, R327, R341, R342, R348) and the command
processors (R183-R188, R245, R433). -/

namespace Sys2Proof.Machine

open Sys2Proof

/-! ## Access tables (R348) -/

/-- Whether a master may write a block, or command it. -/
def State.mayWrite (s : State) (block : Nat) (m : Master) : Bool := (s.rightsOf block (Master.code m)).getLsbD 1
def State.mayCommand (s : State) (block : Nat) (m : Master) : Bool := (s.rightsOf block (Master.code m)).getLsbD 0

/-- A write that a block's table lets pass, or denies. -/
def State.gated (s : State) (block : Nat) (m : Master) (f : State → State) : State :=
  if s.mayWrite block m then f s else s.denied

/-! ## Queue registers (R184) -/

/-- Updates a queue that exists. -/
def State.updQueue (s : State) (ctx q : Nat) (f : Queue → Queue) : State :=
  if ctx < 64 ∧ q < 16 then s.updCtx ctx fun X => X.setQueue q (f (X.queue q)) else s

/-- Slots of a ring. -/
def Queue.slots (Q : Queue) : Nat := 2 ^ Q.log2n

/-- Q_TAIL (R185, R245).
[DEDUCED: log entry 71] -/
def execQTail (ctx q : Nat) (v : Word) (s : State) : Result :=
  .next (s.gated 0 .hostVf fun s => s.updQueue ctx q fun Q =>
    if v.toNat < Q.slots then { Q with tail := v.toNat, posted := s.hostGall } else Q)

/-- The check of a ring's capability when EN is set: right, object and length, without its frames. -/
def State.ringOk (s : State) (ctx : Nat) (cap : DWord) (n : Nat) (need : BitVec 4) : Bool :=
  let e := s.objEntry ctx (capObj cap)
  capObj cap != 0 && e.valid && need &&& ~~~ (capRights cap &&& e.rights) == 0 && capOff cap + n ≤ e.length

/-- Q_CTL (R184, R433): setting EN writes the completions that were held. A smaller LOG2N leaves Q_HEAD and Q_TAIL as they
stand (R185 says only where they lie).
[DEDUCED: log entry 71; DESIGN CHOICE: log entry 94] -/
def execQCtl (ctx q : Nat) (v : Word) (s : State) : Result :=
  .next (s.gated 0 .hostVf fun s =>
    if 64 ≤ ctx ∨ 16 ≤ q then s
    else
      let Q := (s.ctx ctx).queue q
      let Q1 := { Q with
        irq := v.getLsbD 8
        qprio := (v.extractLsb' 2 2).toNat
        log2n := if Q.en then Q.log2n else (v.extractLsb' 4 4).toNat }
      let ok := Q.en || (decide (4 ≤ Q1.log2n) && s.ringOk ctx Q1.ring (256 * Q1.slots) needR
        && s.ringOk ctx Q1.cpl (16 * Q1.slots) needW)
      let en := v.getLsbD 31 && ok
      let s := s.updQueue ctx q fun _ => { Q1 with en := en }
      if en && !Q.en then s.flushHeld ctx q else s)

/-! ## Registers without behaviour of their own -/

/-- The byte of a list at a position, set. -/
def setByteAt (bs : List Byte) (n i : Nat) (b : Byte) : List Byte :=
  (List.range n).map fun j => if j = i then b else bs.getD j 0

/-- A bank's counts as software writes them. -/
def Bank.setCounts (b : Bank) (v : DWord) : Bank :=
  { b with ccount := (v.extractLsb' 0 32).toNat, kcount := (v.extractLsb' 32 16).toNat, fcount := (v.extractLsb' 48 8).toNat }

/-- A bank that exists is changed. -/
def State.updBank (s : State) (n : Nat) (f : Bank → Bank) : State :=
  if n < 55 then { s with banks := s.banks.put n (f (s.bank n)) } else s

/-- REGISTER_WRITE (R4, R6). Jasper alone writes the access tables, and only once its firmware has booted (R22, R348).
[DEDUCED: log entry 68] -/
def execRegisterWrite (m : Master) (r : DevReg) (v : DWord) (s : State) : Result :=
  .next (match r with
  | .qRing ctx q => s.gated 0 m fun s => s.updQueue ctx q fun Q => if Q.en then Q else { Q with ring := v }
  | .qCpl ctx q => s.gated 0 m fun s => s.updQueue ctx q fun Q => if Q.en then Q else { Q with cpl := v }
  | .qHead .. => s.gated 0 m id
  | .ctxState _ => s.gated 0 m id
  | .msix ctx word => s.gated 0 m fun s =>
      if ctx < 64 ∧ word < 68 then s.updCtx ctx fun X => { X with msix := X.msix.put word (v.setWidth 32) } else s
  | .mbReq i => s.gated 1 m fun s =>
      if s.mailbox.busy ∨ 64 ≤ i ∨ (2 ≤ i ∧ i < 8) then s
      else { s with mailbox := { s.mailbox with req := setByteAt s.mailbox.req 64 i (v.setWidth 8) } }
  | .mbGo => s.gated 1 m fun s =>
      if s.mailbox.busy ∨ v.setWidth 32 ≠ (1 : Word) then s
      else { s with mailbox := { s.mailbox with busy := true, asker := m } }
  | .mbStat => s.gated 1 m id
  | .mcAddr _ => s.gated 2 m id
  | .mcInfo _ => s.gated 2 m id
  | .mcCtl n => s.gated 2 m fun s => s.updBank n fun b => { b with ctl := v.setWidth 3 }
  | .mcCount n => s.gated 2 m fun s => s.updBank n fun b => b.setCounts v
  | .access block x => s.gated 5 m fun s =>
      if m = .jasper ∧ !s.held ∧ block < 6 ∧ x < 7 then
        { s with access := (s.access.filter fun e => !(e.1 == block && e.2.1 == x)) ++ [(block, x, v.setWidth 3)] }
      else s
  | .unlisted _ => s)

/-- MC_STATUS (R327): a 1 written to VALID clears the register. -/
def execMcStatus (m : Master) (bank : Nat) (v : DWord) (s : State) : Result :=
  .next (s.gated 2 m fun s => s.updBank bank fun b => if v.getLsbD 63 then { b with status := 0 } else b)

/-! ## Fetching records (R185, R433) -/

/-- Whether a queue has a record to fetch. -/
def Queue.waiting (Q : Queue) : Bool := Q.en && Q.head != Q.tail % Q.slots

/-- The queue of a context that a die's command processor serves next: highest QPRIO, then the first after the one
last served. -/
def State.queueChoice (s : State) (die ctx : Nat) : Option Nat :=
  let X := s.ctx ctx
  let last := (s.lastQueue.find (2 * ctx + die)).getD (8 * die + 7)
  let order := (List.range 8).map fun i => 8 * die + (last + 1 + i) % 8
  let ws := order.filter fun q => (X.queue q).waiting
  let top := ws.foldl (fun m q => max m (X.queue q).qprio) 0
  ws.find? fun q => (X.queue q).qprio == top

/-- The context and queue whose turn it is.
[DESIGN CHOICE: log entry 7] -/
def State.turn (s : State) (die : Nat) : Option (Nat × Nat) :=
  let last := (s.served.find die).getD 63
  ((List.range 64).map fun i => (last + 1 + i) % 64).findSome? fun c =>
    if (s.ctx c).state = .active then (s.queueChoice die c).map fun q => (c, q) else none

/-- COMMAND_FETCH (R185, R433, R324).
[DEDUCED: log entry 71] -/
def execCommandFetch (die : Nat) (s : State) : Result :=
  if s.fatal || s.held || decide (2 ≤ die) then .next s
  else
    match s.turn die with
    | none => .next s
    | some (ctx, q) =>
      let Q := (s.ctx ctx).queue q
      let served (s : State) : State :=
        { s with served := s.served.put die ctx, lastQueue := s.lastQueue.put (2 * ctx + die) q }
      match s.readRange ctx (capWith Q.ring (capOff Q.ring + 256 * Q.head)) 256 needR with
      | .wait s => .next s
      | .fail _ => .next (served (s.updQueue ctx q fun Q => { Q with en := false }))
      | .ok s b =>
        let s := s.updQueue ctx q fun Q => { Q with head := (Q.head + 1) % Q.slots }
        .next (served { s with
          records := s.records.put s.next { ctx, q, slot := Q.head, bytes := b.data, ready := Q.posted }
          next := s.next + 1 })

/-! ## Executing records (R186, R187, R245) -/

/-- The version and kind of a slot, its cookie and its body. -/
def Record.ver (r : Record) : Nat := fieldOf r.bytes 0 1
def Record.kind (r : Record) : Nat := fieldOf r.bytes 1 1
def Record.cookie (r : Record) : Word := BitVec.ofNat 32 (fieldOf r.bytes 4 4)
def Record.body (r : Record) : List Byte := (r.bytes.drop 128).take 128

/-- The header checks of R187. -/
def Record.headerOk (r : Record) : Bool :=
  decide (1 ≤ r.ver) && decide (r.ver ≤ 4) && decide (r.kind ≤ 2) && zeroAt r.bytes 2 2 && zeroAt r.bytes 8 120
    && (r.kind == 1 || zeroAt r.bytes 128 128)

/-- Whether a record may be executed now: the oldest of its queue, past the horizon of R245. -/
def State.recordDue (s : State) (k : Nat) (r : Record) : Bool :=
  !s.fatal && decide (r.ready ≤ s.ftime) && s.records.all fun x => k ≤ x.1 || x.2.ctx != r.ctx || x.2.q != r.q

/-- A record completes without a launch. -/
def State.recordDone (s : State) (k : Nat) (r : Record) (status : Nat) : State :=
  { s with records := s.records.del k }.writeCompletion r.ctx r.q r.slot r.cookie status 0

/-- COMMAND_NOP (R186): a kind above 2 is no record and completes as one that fails the header checks. A context that is
not Active accepts no record (R300).
[DEDUCED: log entry 67] -/
def execCommandNop (k : Nat) (s : State) : Result :=
  match s.records.find k with
  | some r =>
    if !s.recordDue k r || r.kind == 1 || r.kind == 2 then .next s
    else if (s.ctx r.ctx).state ≠ .active then .next (s.recordDone k r stFaulted)
    else .next (s.recordDone k r (if r.headerOk then stOk else stBadRecord))
  | none => .next s

/-- COMMAND_WAIT (R186).
[DEDUCED: log entry 67] -/
def execCommandWait (k : Nat) (s : State) : Result :=
  match s.records.find k with
  | some r =>
    if !s.recordDue k r || r.kind != 2 then .next s
    else if (s.ctx r.ctx).state ≠ .active then .next (s.recordDone k r stFaulted)
    else if !r.headerOk then .next (s.recordDone k r stBadRecord)
    else
      let open' (L : Launch) : Bool := !L.ended && (match L.source with
        | .host ctx q _ _ => ctx == r.ctx && q == r.q
        | _ => false)
      .next (if s.launches.any fun p => open' p.2 then s else s.recordDone k r stOk)
  | none => .next s

/-- The body in the v4 layout, when the bytes that its version does not define are 0 (R187). -/
def Record.v4 (r : Record) : Option (List Byte) :=
  let b := r.body
  let plain := bitsOf (fieldOf b 12 4) 0 1 == 0
  let one : List Byte := leBytes 1 1
  if r.ver = 1 then
    if plain && zeroAt b 0x2A 86 then
      some (b.take 0x20 ++ leBytes 16 0 ++ (b.drop 0x20).take 8 ++ (b.drop 0x28).take 2 ++ one ++ leBytes 69 0)
    else none
  else if r.ver = 2 then
    if plain && zeroAt b 0x3A 70 then some (b.take 0x3A ++ one ++ leBytes 69 0) else none
  else if r.ver = 3 then
    if plain && zeroAt b 0x48 56 then some b else none
  else some b

/-- COMMAND_LAUNCH (R187-R189).
[DEDUCED: log entry 67] -/
def execCommandLaunch (k : Nat) (s : State) : Result :=
  match s.records.find k with
  | some r =>
    if !s.recordDue k r || r.kind != 1 then .next s
    else if (s.ctx r.ctx).state ≠ .active then .next (s.recordDone k r stFaulted)
    else if !r.headerOk then .next (s.recordDone k r stBadRecord)
    else
      match r.v4 with
      | none => .next (s.recordDone k r stBadParam)
      | some b =>
        match s.examine r.ctx none b with
        | .refused st => .next (s.recordDone k r st)
        | .wait s => .next s
        | .ok s x =>
          .next ({ s with records := s.records.del k }.accept r.ctx b x 0 (.host r.ctx r.q r.slot r.cookie))
  | none => .next s

end Sys2Proof.Machine
end

