-- ==== Sys2Proof/Machine/Waking.lean ====
section
/-! DEFINITION. Wake conditions (R162), blocking points (R309), and the regroup (R165, R166). -/

namespace Sys2Proof.Machine

open Sys2Proof

/-- Whether a fill of an instruction line is on its way to a core. -/
def State.fillDue (s : State) (t line : Nat) : Bool :=
  let core := (s.team t).core
  s.msgs.any fun m => match m.2 with
    | .fill die ctx obj off _ skip =>
      die == dieOf core && ctx == s.teamCtx t && obj == capObj (s.codeOf t) && off / 128 == line && !skip.contains core
    | _ => false

/-- Whether the wake condition of a fibre holds. -/
def State.wakes (s : State) (t c l : Nat) (L : Lane) : Wake → Bool
  | .regs ix => ix.all fun n => (L.reg n).full
  | .fetch line => !s.fillDue t line
  | .stash n => !(s.team t).body.absent.contains n || (!s.fillInFlight t n && !s.copyInto t n)
  | .window f n => (List.range' f n).all (fun i => !s.copyInto t i) && (L.did.isNone || !s.windowBusy t c)
  | .fence k ls => s.fenceOpen t c k ls
  | .element n => !s.elementDue t c l n
  | .acquire m => (s.msgs.find m).isNone
  | .watch => ((s.crew t c).entriesOf l).all fun e => e.stateAt s.ftime != .pending
  | .ticket k _ => !(s.crew t c).pendingTicket k
  | .arithmetic => !s.arithmeticDue t c l
  | .operands bytes => s.operandsReady t c bytes
  | .barrier a => s.barOver t a
  | .team => false
  | .children below => s.childrenDone t below
  | .launchQueue => s.waiters.all fun w => w.team != t || w.crew != c || w.lanes != [l] || w.given.isSome
  | .span k => match s.launches.find k with
    | some x => match x.phase with
      | .asking .. => false
      | _ => true
    | none => true
  | .invalidated id => s.invalidated id
  | .follow _ => true

/-- Whether a fibre may go on: its own condition, or that of the fibre it follows.
[DESIGN CHOICE: log entry 11] -/
def State.awake (s : State) (t c l : Nat) (L : Lane) : Bool :=
  match L.state with
  | .parked (.follow k) =>
    let K := (s.crew t c).lane k
    match K.state with
    | .parked w => s.wakes t c k K w
    | _ => true
  | .parked w => s.wakes t c l L w
  | _ => false

/-! ## Regroup (R165, R166) -/

/-- Fibres whose wake condition holds become Ready; then the crew's braids form anew.
[DESIGN CHOICE: log entries 11 and 34] -/
def State.regroupCrew (s : State) (cycle t c : Nat) : State :=
  let C := s.crew t c
  let C := { C with lanes := C.lanes.mapVals fun l L =>
    if !L.frozen && s.awake t c l L then { L with state := .ready, age := cycle } else L }
  s.setCrew t c (C.rebraid (C.braids.filter Braid.midUnit))

/-- Whether a team's fibres may issue: it runs, and no consumed error holds it back (R173, R332). -/
def Team.issues (T : Team) : Bool := T.state == .running && !T.consumed

/-- The crews of a core that may issue: team and crew. -/
def State.crewsOn (s : State) (core : Nat) : List (Nat × Nat) :=
  (s.teams.filter fun p => p.2.core == core && p.2.issues).flatMap fun p => p.2.body.crews.map fun c => (p.1, c.1)

/-- Every crew of a core regroups. -/
def State.regroupCore (s : State) (core : Nat) : State :=
  let s := (s.crewsOn core).foldl (fun s' x => s'.regroupCrew (s.core core).cycle x.1 x.2) s
  s.updCore core fun K => { K with regroupDue := false }

/-- REGROUP (R165): at every cycle that is a multiple of 4. -/
def execRegroup (core : Nat) (s : State) : Result :=
  .next (if (s.core core).regroupDue then s.regroupCore core else s)

/-! ## Blocking points (R309) -/

/-- Whether a request goes to another device or the host (R211). -/
def State.goesFar (s : State) (a : Nat) : Bool := !s.own a

/-- Whether a message will fill a register of a fibre. -/
def Msg.fillsReg (t c l n : Nat) : Msg → Bool
  | .read o _ _ _ parts => o.team == t && o.crew == c && parts.any fun p => p.lane == l && p.dest.contains (some n)
  | .readReply o _ _ _ parts .. => o.team == t && o.crew == c && parts.any fun p => p.lane == l && p.dest.contains (some n)
  | .atomic o _ _ _ parts => o.team == t && o.crew == c && parts.any fun p => p.lane == l && p.dest.contains (some n)
  | .atomicReply o _ _ vals .. => o.team == t && o.crew == c && vals.any fun v => v.1 == l && v.2.1.contains (some n)
  | _ => false

/-- The line of a request or a reply that went far. -/
def State.farMsg (s : State) : Msg → Bool
  | .read _ line .. => s.goesFar (128 * line)
  | .readReply _ line .. => s.goesFar (128 * line)
  | .atomic _ line .. => s.goesFar (128 * line)
  | .atomicReply _ line .. => s.goesFar (128 * line)
  | _ => false

/-- Whether a register is the empty destination of a forwarded load, LDACQ or atomic that has not returned (R309). -/
def State.farReg (s : State) (t c l n : Nat) : Bool := s.msgs.any fun m => s.farMsg m.2 && m.2.fillsReg t c l n

/-- Whether a wait is at a blocking point: one on registers when each that is still empty is such a destination.
[DESIGN CHOICE: log entry 77] -/
def State.blocking (s : State) (t c l : Nat) : Wake → Bool
  | .team => true
  | .barrier _ => true
  | .ticket _ mwait => mwait
  | .children _ => true
  | .launchQueue => true
  | .acquire k => (s.msgs.find k).any s.farMsg
  | .element n => s.msgs.any fun m => s.farMsg m.2 && m.2.fetches t c l n
  | .regs ix =>
    let L := (s.crew t c).lane l
    ix.any (s.farReg t c l) && ix.all fun n => (L.reg n).full || s.farReg t c l n
  | _ => false

/-- Whether a fibre stands where its crew may be evicted (R195, R309). -/
def State.evictable (s : State) (t c l : Nat) (L : Lane) : Bool :=
  !L.live || L.frozen || (match L.state with
    | .parked (.follow k) => match ((s.crew t c).lane k).state with
      | .parked w => s.blocking t c k w
      | _ => false
    | .parked w => s.blocking t c l w
    | _ => false)

end Sys2Proof.Machine
end

