-- ==== Sys2Proof/Machine/Teams.lean ====
section
/-! DEFINITION. Launches over several chips (R178, R179, R325), the placement, start, draining and retirement of teams
(R161, R173-R175, R189, R193, R432), eviction and restore (R195, R309-R314), and Onyx slices (R200, R337). -/

namespace Sys2Proof.Machine

open Sys2Proof

/-- The crew slot of a crew on its core, as a machine-check record names it (R327).
[DEDUCED: log entry 75] -/
def Team.crewSlot (T : Team) (c : Nat) : Nat := 32 * T.slot + c

/-- MC_INFO of a CORE record about an output tile (R327). -/
def Team.tileInfo (T : Team) (c tile : Nat) : Nat := T.crewSlot c + 2 ^ 16 * (tile % 256)

/-! ## Spans (R178, R179, R325) -/

/-- The launch of a context that this device leads, by its generation number, until it ends (R178). -/
def State.launchNamed (s : State) (ctx gen : Nat) : Option (Nat × Launch) :=
  s.launches.find? fun p => p.2.ctx == ctx && p.2.gen.toNat == gen && !p.2.ended && (match p.2.source with
    | .span _ => false
    | _ => true)

/-- The launch that another device leads, by its generation number there: the one that has not ended, else the latest. -/
def State.spanNamed (s : State) (ctx gen chip0 : Nat) : Option (Nat × Launch) :=
  let ls := s.launches.filter fun p => p.2.ctx == ctx && p.2.gen.toNat == gen && p.2.source == .span chip0
  (ls.find? fun p => !p.2.ended).orElse fun _ => ls.getLast?

def State.setPhase (s : State) (l : Nat) (p : Phase) : State :=
  { s with launches := s.launches.upd l fun L => { L with phase := p } }

/-- Sends a message to devices.
[DEDUCED: log entry 86] -/
def State.tell (s : State) (devs : List Nat) (m : LinkMsg) : State := { s with linkOut := s.linkOut ++ devs.map fun d => (d, m) }

/-- A message received from another device is taken.
[DESIGN CHOICE: log entry 22] -/
def State.linkTaken (s : State) (k : Nat) : State := { s with linkIn := s.linkIn.del k }

/-- The other chips of a launch. -/
def State.othersOf (s : State) (L : Launch) : List Nat := L.chips.filter (· != s.chipno)

/-- SPAN_BLOCK (R178): the chip checks the block, and co-residency for its own range, and replies.
[DEDUCED: log entry 86; DESIGN CHOICE: log entry 9] -/
def execSpanBlock (k : Nat) (s : State) : Result :=
  match s.linkIn.find k with
  | some (.spanBlock ctx gen src depth block code args argTags argMarks chips) =>
    let reply (s : State) (st : Nat) : State := (s.linkTaken k).tell [src] (.spanReply ctx gen s.chipno st)
    let sent (cap : DWord) (n : Nat) : List Byte :=
      if cap == (launchBlock block).args && n ≤ args.length then args else chips.flatMap (leBytes 2)
    match s.examineAs src ctx (fun s cap n => s.readSent ctx (sent cap n) cap n) block with
    | .wait s => .next s
    | .refused st => .next (reply s st)
    | .ok s x =>
      let L : Launch :=
        { ctx, gen := BitVec.ofNat 32 gen, block := x.block, depth, source := .span src, phase := .answered
          chips := x.chips, code := code, args := args, argTags := argTags
          argPoison := argMarks, pending := chipTeams x.block x.chips s.chipno }
      let s := s.freshImm ctx
      .next (reply { s with launches := s.launches.put s.next L, next := s.next + 1 } stOk)
  | _ => .next s

/-- A launch over several chips fails before it starts: ABORT to the others, and its status. Its number was never taken
(R179, R270).
[DEDUCED: log entry 70] -/
def State.abortLaunch (s : State) (l : Nat) (L : Launch) (status : Nat) : State :=
  (s.tell (s.othersOf L) (.spanAbort L.ctx L.gen.toNat s.chipno)).endLaunch l status

/-- SPAN_REPLY (R178, R179): a READY that comes after the limit comes too late.
[DEDUCED: log entries 70 and 86] -/
def execSpanReply (k : Nat) (s : State) : Result :=
  match s.linkIn.find k with
  | some (.spanReply ctx gen chip status) =>
    let s := s.linkTaken k
    match s.launchNamed ctx gen with
    | some (l, L) =>
      match L.phase with
      | .asking waiting deadline =>
        if !waiting.contains chip then .next s
        else if deadline < s.ftime then .next (s.abortLaunch l L stSpanTimeout)
        else if status ≠ stOk then .next (s.abortLaunch l L status)
        else if (waiting.erase chip).isEmpty then
          let tstart := s.ftime + 2000
          let s := s.updCtx ctx fun X => { X with gens := L.gen }
          .next ((s.tell (s.othersOf L) (.spanStart ctx gen s.chipno tstart)).setPhase l (.armed tstart))
        else .next (s.setPhase l (.asking (waiting.erase chip) deadline))
      | _ => .next s
    | none => .next s
  | _ => .next s

/-- SPAN_START (R178). -/
def execSpanStart (k : Nat) (s : State) : Result :=
  match s.linkIn.find k with
  | some (.spanStart ctx gen src tstart) =>
    let s := s.linkTaken k
    match s.spanNamed ctx gen src with
    | some (l, L) => match L.phase with
      | .answered => .next (s.setPhase l (.armed tstart))
      | _ => .next s
    | none => .next s
  | _ => .next s

/-- A chip of a span has no team left: chip 0 is told, or waits for the others and completes (R175). -/
def State.spanCheck (s : State) (l : Nat) : State :=
  match s.launches.find l with
  | none => s
  | some L =>
    let own := (chipTeams L.block L.chips s.chipno).length
    if L.phase ≠ .running ∨ L.retired < own then s
    else
      match L.source with
      | .span chip0 => (s.tell [chip0] (.retired L.ctx L.gen.toNat s.chipno)).endLaunch l stOk
      | _ => if (s.othersOf L).all L.away.contains then s.endLaunch l stOk else s

/-- SPAN_TSTART (R178). -/
def execSpanTstart (launch : Nat) (s : State) : Result :=
  match s.launches.find launch with
  | some L => match L.phase with
    | .armed t => .next (if t ≤ s.ftime then (s.setPhase launch .running).spanCheck launch else s)
    | _ => .next s
  | none => .next s

/-- ABORT (R179). -/
def execAbort (k : Nat) (s : State) : Result :=
  match s.linkIn.find k with
  | some (.spanAbort ctx gen src) =>
    let s := s.linkTaken k
    match s.spanNamed ctx gen src with
    | some (l, L) => match L.phase with
      | .answered => .next (s.endLaunch l stSpanTimeout)
      | _ => .next s
    | none => .next s
  | _ => .next s

/-- SPAN_TIMEOUT (R179). -/
def execSpanTimeout (launch : Nat) (s : State) : Result :=
  match s.launches.find launch with
  | some L => match L.phase with
    | .asking _ deadline => .next (if deadline ≤ s.ftime then s.abortLaunch launch L stSpanTimeout else s)
    | _ => .next s
  | none => .next s

/-- STOP (R325): a chip stops its teams, and replies once what they wrote is performed, also when its launch has ended
already; chip 0 stops every chip.
[DEDUCED: log entry 86] -/
def execStop (k : Nat) (s : State) : Result :=
  match s.linkIn.find k with
  | some (.stop ctx gen src) =>
    match s.spanNamed ctx gen src with
    | some (l, L) =>
      let s1 := match L.phase with
        | .done _ => s
        | .ending _ => s
        | _ => ((s.launchTeams l).foldl State.stopTeam s).endWhenDone l stFaulted
      .next (if (s1.launches.find l).any Launch.ended then (s1.linkTaken k).tell [src] (.stopped ctx gen s1.chipno) else s1)
    | none =>
      let s := s.linkTaken k
      match s.launchNamed ctx gen with
      | some (l, _) => .next (s.stopLaunch l stFaulted)
      | none => .next s
  | _ => .next s

/-- STOPPED (R325). -/
def execStopped (k : Nat) (s : State) : Result :=
  match s.linkIn.find k with
  | some (.stopped ctx gen src) =>
    let s := s.linkTaken k
    match s.launchNamed ctx gen with
    | some (l, L) => match L.phase with
      | .stopping waiting deadline status =>
        .next (if (waiting.erase src).isEmpty then s.endWhenDone l status
          else s.setPhase l (.stopping (waiting.erase src) deadline status))
      | _ => .next s
    | none => .next s
  | _ => .next s

/-- STOP_TIMEOUT (R325). -/
def execStopTimeout (launch : Nat) (s : State) : Result :=
  match s.launches.find launch with
  | some L => match L.phase with
    | .stopping _ deadline status => .next (if deadline ≤ s.ftime then s.endWhenDone launch status else s)
    | _ => .next s
  | none => .next s

/-! ## Placement (R193) -/

/-- The team slot that a new team of a core takes. -/
def State.freeSlot (s : State) (c : Nat) : Nat := if (s.residents c).any fun p => p.2.slot == 0 then 1 else 0

/-- The spans of the crews on a quadrant of a core, and of those with a mirror. -/
def State.laneUse (s : State) (c q : Nat) : Nat × Nat :=
  let xs := (s.residents c).flatMap fun p =>
    (p.2.body.crews.filter fun k => k.1 % 4 == q).map fun k => (s.spanOf p.1, k.2.mirror)
  ((xs.map Prod.fst).sum, ((xs.filter Prod.snd).map Prod.fst).sum)

/-- Mirrors go, the lowest crew slot first, until the registers of a quadrant suffice (R323). -/
def State.trimMirrors (s : State) (q : Nat) : List (Nat × Nat) → State
  | [] => s
  | (t, c) :: r =>
    let u := s.laneUse (s.team t).core q
    if u.1 + u.2 ≤ 1024 then s
    else State.trimMirrors (s.updCrew t c fun C => { C with mirror := false }) q r

/-- The crews of a team are mirrored where the quadrant has room (R323). -/
def State.mirrorTeam (s : State) (t : Nat) : State :=
  let c := (s.team t).core
  let s := s.updBody t fun b =>
    { b with crews := b.crews.mapVals fun k C => { C with mirror := decide ((s.laneUse c (k % 4)).1 ≤ 512) } }
  let slots := (s.residents c).mergeSort fun a b => a.2.slot ≤ b.2.slot
  (List.range 4).foldl (fun s q =>
    s.trimMirrors q (slots.flatMap fun p => (p.2.body.crews.filter fun k => k.1 % 4 == q).map fun k => (p.1, k.1))) s

/-- A team of a launch is placed on a core, without its fibres yet (R89, R173). -/
def State.placeTeam (s : State) (l t c : Nat) : State :=
  match s.launches.find l with
  | none => s
  | some L =>
    let id := s.next
    let crews : AMap Crew := (List.range L.block.crews).map fun k => (k, { part := L.block.part })
    let T : Team :=
      { launch := l, index := t, core := c, slot := s.freeSlot c
        body := { crews, trapvec := L.block.trapvec, emuvec := L.block.emuvec } }
    ({ s with
      teams := s.teams.put id T, next := s.next + 1
      launches := s.launches.put l { L with pending := L.pending.erase t, lastCore := c } }).mirrorTeam id

/-- The cores where teams of a launch may be placed, with the blocks they hold.
[DEDUCED: log entry 33] -/
def State.candidates (s : State) (ctx : Nat) : AMap (List Block) :=
  ((s.allotted ctx).filter fun c => (s.core c).open s.ftime).map fun c => (c, s.heldBlocks c)

/-- LAUNCH_PACKET (R189, R214): the bank roles, and the words of code in the instruction cache. -/
def execLaunchPacket (team : Nat) (s : State) : Result :=
  let T := s.team team
  match s.launchOf team with
  | none => .next s
  | some L =>
    if T.state ≠ .starting ∨ T.packet then .next s
    else
      let obj := capObj L.block.code
      let ws : List IWord := (List.range (L.code.length / 4)).map fun i =>
        { ctx := L.ctx, obj, off := L.block.entry.toNat + 4 * i, word := BitVec.ofNat 32 (fieldOf L.code (4 * i) 4) }
      let s := s.updCore T.core fun K =>
        Core.takeWords
          { (K.takeRoles (L.block.stash, L.block.tensor)) with
            icache := K.icache.filter fun w => !ws.any fun x => x.ctx == w.ctx && x.obj == w.obj && x.off == w.off } ws
      .next (s.updTeam team fun T => { T with packet := true })

/-- The argument bytes of a launch as they stand in a team's stash (R161). -/
def Launch.argMem (L : Launch) : Mem :=
  let secs (xs : List Bool) : NSet := (List.range ((L.args.length + 31) / 32)).filter fun n => ((xs.drop (32 * n)).take 32).any id
  { (Mem.empty.setBytes 0 L.args) with tags := secs L.argTags, poison := secs L.argPoison }

/-- The fibres of a crew at team start (R84, R161). -/
def startLanes (b : Block) (c cycle : Nat) : AMap Lane :=
  (List.range (min 32 (b.nfib - 32 * c))).map fun l =>
    (l, Lane.start {} b.entry b.fmode b.ftrapen false false cycle)

/-- TEAM_START (R161): the fibres start, and the first interval begins (R331).
[DEDUCED: log entry 14] -/
def execTeamStart (team : Nat) (s : State) : Result :=
  let T := s.team team
  match s.launchOf team with
  | none => .next s
  | some L =>
    if T.state ≠ .starting ∨ T.packet = false then .next s
    else
      let cycle := (s.core T.core).cycle
      let s := s.setTeam team
        { T with
          state := .running
          body := { T.body with
            stash := L.argMem
            crews := T.body.crews.mapVals fun c C => Crew.rebraid { C with lanes := startLanes L.block c cycle } [] } }
      .next (s.checkpoint team none)

/-! ## Draining and retirement (R174, R175, R432) -/

/-- Dirty lines in windows go home as drain write-backs; lines whose check fails are counted (R432).
[DESIGN CHOICE: log entry 44] -/
def State.drainLines (s : State) (t : Nat) (ns : List Nat) : State × Nat :=
  ns.foldl (fun r n => match r.1.homeFails t n with
    | some _ => (r.1.updBody t fun b => { b with dirty := NSet.del b.dirty n }, r.2 + 1)
    | none => (r.1.sendBack (.drain t (s.team t).core) t n true, r.2)) (s, 0)

/-- Whether a drain write-back of a team is in flight. -/
def State.drainDue (s : State) (t : Nat) : Bool := s.msgs.any fun m => match m.2 with
  | .back (.drain u _) .. => u == t
  | .backAck (.drain u _) .. => u == t
  | _ => false

/-- Mismatches of a team that no word reported: its crew slots, tickets and first tiles (R281). -/
def Team.unreported (T : Team) : List (Nat × Nat) := T.body.crews.flatMap fun c => c.2.mismatch.map fun m => (c.1, m.2)

/-- TEAM_DRAIN (R174, R281, R432): the write-backs are sent, and once they are acknowledged the slots and banks go back
to the core. A mismatch that no word reported is a contained event, which stops the launch (R324, R334). A team that
consumed an error rolls back first (R322).
[DEDUCED: log entry 75; DESIGN CHOICE: log entry 44] -/
def execTeamDrain (team : Nat) (s : State) : Result :=
  let T := s.team team
  let b := T.body
  if T.state ≠ .draining ∨ T.drained ∨ T.consumed then .next s
  else
    let dirty := b.dirty.filter fun n => (b.windowOf n).isSome
    if !dirty.isEmpty then
      let r := s.drainLines team dirty
      if r.2 = 0 then .next r.1
      else .next ((r.1.coreEvent T.core 0x010A .contained none).stopLaunch T.launch stFaulted)
    else if s.drainDue team || b.crews.any fun c => !c.2.tickets.isEmpty then .next s
    else
      let s := b.windows.foldl (fun s w => s.unmap team w.1) s
      let s := T.unreported.foldl (fun s x => s.coreEvent T.core 0x0108 .contained (some (T.tileInfo x.1 x.2))) s
      let s := (s.updTeam team fun T => { T with drained := true }).coreVacated T.core
      .next (if T.unreported.isEmpty then s else s.stopLaunch T.launch stFaulted)

/-- TEAM_RETIRE (R175). -/
def execTeamRetire (team : Nat) (s : State) : Result :=
  let T := s.team team
  let open' (C : Crew) : Bool := C.unacked != 0 || decide (s.ftime < C.gall)
  if T.state ≠ .draining ∨ T.drained = false ∨ T.consumed ∨ T.children ≠ 0 ∨ s.ftime < T.gall ∨ (T.body.crews.any fun c => open' c.2) then
    .next s
  else
    let s := s.updTeam team fun T => { T with state := .retired, shadow := none }
    let s := { s with launches := s.launches.upd T.launch fun L => { L with retired := L.retired + 1 } }
    .next (s.spanCheck T.launch)

/-! ## Eviction and restore (R195, R310-R314) -/

/-- Bytes of a team's save record and stash image (R311): the manual gives them no layout.
[DESIGN CHOICE: log entry 77] -/
def State.saveBytes (s : State) (t : Nat) : Nat :=
  65536 * s.stashBanks t + 128 * (s.team t).body.crews.length * s.spanOf t

/-- Where the save area of a team's context has room for it: behind the teams it holds (R311, R344).
[DESIGN CHOICE: log entry 77] -/
def State.saveStart (s : State) (t : Nat) : Nat :=
  let c := s.teamCtx t
  s.teams.foldl (fun m p => match p.2.saved with
    | some r => if s.teamCtx p.1 = c then max m (r.1 + r.2) else m
    | none => m) (s.ctx c).save

/-- Whether the save area has room for bytes of a team's context. -/
def State.saveFits (s : State) (t n : Nat) : Bool :=
  let X := s.ctx (s.teamCtx t)
  s.saveStart t + n ≤ X.save + X.savelen

/-- Whether a team can be saved now: every crew at blocking points, tickets idle, writes acknowledged, division results
in (R195, R310, R372). A failed acknowledgement that the team has consumed ends the wait for its write (R347).
[DESIGN CHOICE: log entry 77] -/
def State.canSave (s : State) (t : Nat) : Bool :=
  let T := s.team t
  T.state == .running
    && T.body.crews.all (fun c => c.2.lanes.all (fun l => s.evictable t c.1 l.1 l.2) && c.2.tickets.isEmpty)
    && !(s.core T.core).mats.any (fun m => m.team == t)
    && !s.msgs.any fun m => match m.2 with
      | .write (.crew u _ _ _ _) .. => u == t
      | .ack (.crew u c k ls i) _ _ _ _ _ failed _ _ => u == t && !(failed && T.consumed && s.standing m.1 (.crew u c k ls i))
      | .back (.window u _ _) .. => u == t
      | .backAck (.window u c k) _ _ _ _ failed _ => u == t && !(failed && T.consumed && s.standing m.1 (.window u c k))
      | .division u .. => u == t
      | .special u .. => u == t
      | _ => false

/-- Whether an evicted team is pending again: a wake condition of it holds, or it has a load to issue again or an error to
roll back (R195, R311, R312).
[DESIGN CHOICE: log entry 77] -/
def State.wakeable (s : State) (t : Nat) : Bool :=
  let T := s.team t
  T.consumed || !T.owed.isEmpty || T.body.crews.any fun c => c.2.lanes.any fun l => !l.2.frozen && s.awake t c.1 l.1 l.2

/-- Whether a child of a team that has not been placed waits for room.
[DESIGN CHOICE: log entry 77] -/
def State.makesRoom (s : State) (t : Nat) : Bool :=
  let T := s.team t
  let c := T.core
  let rest := ((s.residents c).filter fun p => p.1 != t).filterMap fun p => (s.launchOf p.1).map Launch.block
  s.launches.any fun p =>
    let L := p.2
    L.phase == .running && (!L.pending.isEmpty || L.evicted.any s.wakeable) && (s.allotted L.ctx).contains c && L.block.fits rest
      && (decide (p.1 < T.launch) || (match L.source with
        | .team parent _ _ _ => (s.team parent).body.crews.any fun k => k.2.lanes.any fun l => match l.2.state with
          | .parked (.children _) => true
          | _ => false
        | _ => false))

/-- Whether a message is a plain load of a team that eviction abandons (R312). -/
def Msg.abandoned (t : Nat) (m : Msg) : Bool := match m.again with
  | some (.read o ..) => o.team == t
  | _ => false

/-- Values held on their way to fibres of a team reach their registers before the team is saved. -/
def State.deliverHeld (s : State) (t : Nat) : State :=
  s.msgs.foldl (fun s' m => match m.2 with
    | .held o lane dest val tag _ => if o.team = t then s'.deliver m.1 o lane dest val tag else s'
    | _ => s') s

/-- A crew as its save record holds it: no braids, pending watch entries struck, nothing read ahead (R310, R311). -/
def Crew.saved (C : Crew) : Crew :=
  { C with
    braids := []
    watch := C.watch.mapVals fun _ e => if e.state = .pending then { e with state := .struck } else e
    lanes := C.lanes.mapVals fun _ L => L.unread fun _ => true }

/-- A team is saved (R310): pending watch entries are struck, loads in flight are abandoned, the record and the stash
image stand in the save area, and what the team held on the core goes back. What the area's bytes are is the device's.
[DESIGN CHOICE: log entry 77] -/
def State.saveTeam (s : State) (t : Nat) : State :=
  let s := s.deliverHeld t
  let T := s.team t
  let gone := s.msgs.filter fun m => m.2.abandoned t
  let n := s.saveBytes t
  let a := s.saveStart t
  let k := s.freeCtr
  let s := { s with
    mem := s.mem.fill a n fun i => Config.freeByte (k + i)
    freeCtr := k + n
    msgs := s.msgs.filter fun m => !m.2.abandoned t
    launches := s.launches.upd T.launch fun L => { L with evicted := L.evicted ++ [t] } }
  let s := s.setTeam t
    { T with
      state := .evicted, evictedAt := max 1 s.ftime, saved := some (a, n), meddled := false, recalledAway := []
      owed := T.owed ++ (gone.filterMap fun m => m.2.again)
      body := { T.body with crews := T.body.crews.mapVals fun _ C => C.saved } }
  s.coreVacated T.core

/-- The teams that leave their cores with a team: those of a CORES launch that run, all together (R182).
[DESIGN CHOICE: log entry 77] -/
def State.evictSet (s : State) (t : Nat) : List Nat :=
  match s.launchOf t with
  | some L =>
    if L.block.cores then (s.launchTeams (s.team t).launch).filter fun u =>
      (s.team u).state == .starting || (s.team u).state == .running
    else [t]
  | none => []

/-- EVICT_TEAM (R195, R310).
[DESIGN CHOICE: log entry 77] -/
def execEvictTeam (team : Nat) (s : State) : Result :=
  let ts := s.evictSet team
  .next (if ts.contains team && ts.all s.canSave && s.saveFits team (ts.map s.saveBytes).sum && s.makesRoom team then ts.foldl State.saveTeam s else s)

/-- The FVER of a watch entry's frame now. -/
def State.fverOf (s : State) (ctx obj frame : Nat) : BitVec 16 := (frameOf (s.frameWord (s.objEntry ctx obj) frame)).2

/-- A register that is full with what it holds. -/
def Lane.refill (L : Lane) (n : Nat) : Lane := L.remark n fun r => { r with full := true }

/-- A fault of accesses issued again (R312): precise, with EPC at the load's unit. Their destinations are full, as they
were before the load, so that it may run again. -/
def State.faultAgain (s : State) (o : Origin) (parts : List Part) (cause : BitVec 8) (cap : DWord) : State :=
  let C := s.crew o.team o.crew
  let ls := (parts.map Part.lane).eraseDups
  let range (m : AMap (Option Guard)) : AMap (Option Guard) := forLanes ls fun l => (m.find l).getD none
  let dests (l : Nat) : List Nat := ((parts.filter (·.lane == l)).flatMap Part.dest).filterMap id
  let cur := s.cur
  let s := s.setCrew o.team o.crew (C.setLanes (ls.map fun l =>
    (l, (dests l).foldl Lane.refill { (C.lane l) with ustart := o.pc, guard0 := (o.before.find l).getD none, state := .ready })))
  let s := { s with cur := { team := o.team, crew := o.crew, lanes := ls, unit := List.replicate o.ulen.toNat o.word } }
  let s := s.trapWith ls cause o.word o.ulen cap
  let s := s.updCrew o.team o.crew fun C => { C with frames := match C.frames with
    | fr :: r => if C.frames.length = (s.crew o.team o.crew).frames.length ∧ fr.mask = maskOf ls ∧ fr.epc = o.pc then
        { fr with after := range o.after, before := range o.before } :: r else fr :: r
    | [] => [] }
  { s with cur := cur }

/-- The accesses of a line of a load, each checked anew and issued again (R312), a forwarded line counted once (R212): those
that still pass, and those that fail with their causes. -/
def State.partsAgain (s : State) (o : Origin) (obj : Nat) (kind : LoadKind) :
    (counted : Bool) → List Part → State × List (Part × BitVec 8)
  | _, [] => (s, [])
  | n, p :: r =>
    let held (v : Nat) (tag : Bool) (s : State) : State :=
      s.send (.held o p.lane p.dest (extendTo p.size p.signed v) (tag || p.tag) false)
    match s.check o.team p.cap p.size p.size needR with
    | .ok (.mem a obj' frame _ _ _) =>
      let s := if n then s else s.countAccess o.core (s.teamCtx o.team) obj' frame a
      State.partsAgain (s.send (.read o (a / 128) obj kind [{ p with off := a % 128 }])) o obj kind true r
    | .ok (.view off) => State.partsAgain (held (leNat (s.viewRead off p.size).2) false (s.viewRead off p.size).1) o obj kind n r
    | .ok (.stash off) =>
      let x := s.stashRead o.team off p.size
      State.partsAgain (held x.2.1 x.2.2 x.1) o obj kind n r
    | .error c =>
      let g := State.partsAgain s o obj kind n r
      (g.1, (p, c) :: g.2)

/-- The messages of one word in turn: the accesses of it that fail. -/
def State.wordAgain (s : State) (core : Nat) : List Msg → State × List (Part × BitVec 8)
  | [] => (s, [])
  | .read o _ obj kind parts :: r =>
    let x := s.partsAgain { o with core } obj kind false parts
    let y := State.wordAgain x.1 core r
    (y.1, x.2 ++ y.2)
  | _ :: r => State.wordAgain s core r

/-- The word that a read belongs to. -/
def Msg.wordOf : Msg → Option Origin
  | .read o .. => some o
  | _ => none

/-- Registers of fibres that an abandoned load would have filled are full, as they were before it. -/
def State.refillParts (s : State) (t c : Nat) (parts : List Part) : State :=
  parts.foldl (fun s p => s.updLane t c p.lane fun L => (p.dest.filterMap id).foldl Lane.refill L) s

/-- Loads are issued again, word by word, the oldest first (R312). A word of which accesses fail faults once, in the fibres
that these are of: one that goes back to an earlier word runs this one again with the others.
[DESIGN CHOICE: log entry 77] -/
def State.issueAgain (s : State) (t : Nat) (ms : List Msg) : State :=
  let core := (s.team t).core
  let words := (ms.filterMap fun m => m.wordOf.map fun o => (o.crew, o.uid)).eraseDups
  (words.foldl (fun (r : State × List (Nat × Nat)) w =>
    let mine := ms.filter fun m => m.wordOf.any fun o => o.crew == w.1 && o.uid == w.2
    let x := r.1.wordAgain core mine
    match mine.head?.bind Msg.wordOf with
    | none => r
    | some o =>
      let fails := x.2.filter fun f => !r.2.contains (w.1, f.1.lane)
      let s := x.1.refillParts t w.1 (x.2.map Prod.fst)
      match fails with
      | [] => (s, r.2)
      | f :: fs =>
        let low := fs.foldl (fun m y => if y.1.lane < m.1.lane then y else m) f
        (s.faultAgain { o with core } (fails.map Prod.fst) low.2 low.1.cap, r.2 ++ fails.map fun y => (w.1, y.1.lane))) (s, [])).1

/-- Lines of windows that the team owns become its new core's (R253). -/
def State.moveOwner (s : State) (t : Nat) (old new : Owner) : State :=
  (s.team t).body.windows.foldl (fun s w =>
    (List.range' w.2.first w.2.count).foldl (fun s n => match s.windowAddr t w.2 n with
      | some a =>
        let d := s.dirOf (a / 128)
        if d.owner = some old ∧ !(s.team t).body.absent.contains n then s.setDir (a / 128) { d with owner := some new } else s
      | none => s) s) s

/-- Four free bytes as a word (R8).
[DESIGN CHOICE: log entry 1] -/
def freeWordAt (k : Nat) : Word := BitVec.ofNat 32 (leNat ((List.range 4).map fun i => Config.freeByte (k + i)))

/-- A number below a bound that is free. -/
def freeBelow (k n : Nat) : Nat := (freeWordAt k).toNat % n

/-- A guard range of undefined values, or none.
[DESIGN CHOICE: log entry 77] -/
def freeGuard (k : Nat) : Option Guard :=
  let w := freeWordAt k
  if w.getLsbD 0 then some { q := w.extractLsb' 1 4, neg := w.getLsbD 5, left := (w.extractLsb' 6 3).toNat } else none

/-- A fibre whose saved items are undefined (R311): one that waits may be Ready too.
[DESIGN CHOICE: log entry 77] -/
def Lane.undefined (span k : Nat) (L : Lane) : Lane :=
  { L with
    pc := freeWordAt k &&& 0xFFFFFFFC, preds := (freeWordAt (k + 4)).setWidth 16, ptags := 0xFFFF
    fstat := (freeWordAt (k + 8)).setWidth 8, fmode := (freeWordAt (k + 12)).setWidth 5
    ftrapen := (freeWordAt (k + 16)).setWidth 8, wbase := freeBelow (k + 20) (max 1 span)
    taint := (freeWordAt (k + 24)).getLsbD 0, guard := freeGuard (k + 28)
    state := if L.live && (freeWordAt (k + 32)).getLsbD 0 then .ready else L.state
    streams := L.streams.mapVals fun n x =>
      { x with
        src := freeWordAt (k + 36 + 16 * n) ++ freeWordAt (k + 40 + 16 * n), stride := freeWordAt (k + 44 + 16 * n)
        pos := freeBelow (k + 48 + 16 * n) (x.count.toNat + 1) }
    regs := (List.range span).map fun n => (n, ⟨freeWordAt (k + 164 + 4 * n), true, true⟩) }

/-- A trap frame of undefined values. -/
def Frame.undefined (k : Nat) (fr : Frame) : Frame :=
  { epc := freeWordAt k &&& 0xFFFFFFFC, cause := (freeWordAt (k + 4)).setWidth 8, mask := freeWordAt (k + 8)
    word := freeWordAt (k + 12), adv := (freeWordAt (k + 16)).getLsbD 0, ulen := (freeWordAt (k + 20)).setWidth 3
    after := fr.after.mapVals fun l _ => freeGuard (k + 32 + 4 * l)
    before := fr.before.mapVals fun l _ => freeGuard (k + 160 + 4 * l)
    eaddr := freeWordAt (k + 24) ++ freeWordAt (k + 28)
    bases := fr.bases.mapVals fun l _ => freeBelow (k + 288 + 4 * l) 256 }

/-- A watch entry of undefined values; no home is asked about it any more (R267). -/
def WatchEntry.undefined (k : Nat) (e : WatchEntry) : WatchEntry :=
  { e with mask := freeWordAt k, state := if (freeWordAt (k + 4)).getLsbD 0 then .confirmed else .struck }

/-- A crew whose saved items are undefined (R311).
[DESIGN CHOICE: log entry 77] -/
def Crew.undefined (span k : Nat) (C : Crew) : Crew :=
  { C with
    lanes := C.lanes.mapVals fun l L => L.undefined span (k + 4096 + (164 + 4 * span) * l)
    part := freeBelow k 6, prio := (freeWordAt (k + 4)).setWidth 4
    ready := if (freeWordAt (k + 8)).getLsbD 0 then some (freeWordAt (k + 12)).toNat else none
    mismatch := C.mismatch.mapVals fun n _ => freeBelow (k + 16 + 4 * n) 16
    frames := (List.range C.frames.length).zip C.frames |>.map fun f => f.2.undefined (k + 512 + 512 * f.1)
    watch := C.watch.mapVals fun n e => e.undefined (k + 2560 + 8 * n)
    gdie := (freeWordAt (k + 272)).toNat, gall := (freeWordAt (k + 276)).toNat }

/-- The reply slot of an LDACQ or an atomic with an undefined destination (R311, R312). -/
def Msg.undefinedSlot (t span k : Nat) (m : Msg) : Msg :=
  let reg (d : List (Option Nat)) : List (Option Nat) := d.map fun r => r.map fun _ => freeBelow k (max 1 span)
  match m with
  | .read o line obj .acquire parts => if o.team = t then .read o line obj .acquire (parts.map fun p => { p with dest := reg p.dest }) else m
  | .readReply o line obj .acquire parts data copy times perf =>
    if o.team = t then .readReply o line obj .acquire (parts.map fun p => { p with dest := reg p.dest }) data copy times perf else m
  | .atomic o line wider pdef parts =>
    if o.team = t then .atomic o line wider pdef (parts.map fun p => { p with dest := reg p.dest }) else m
  | .atomicReply o line wider vals left times poison perf =>
    if o.team = t then
      .atomicReply o line wider (vals.map fun v => (v.1, reg v.2.1, v.2.2)) left times poison perf
    else m
  | m => m

/-- Software meddled with a saved team: every item of its save records and of its stash image is undefined (R311).
[DESIGN CHOICE: log entry 77] -/
def State.undefineTeam (s : State) (t : Nat) : State :=
  let k := s.freeCtr
  let span := s.spanOf t
  let n := 65536 * s.stashBanks t
  let lines := 512 * s.stashBanks t
  let room := 4096 + 32 * (164 + 4 * span)
  let bit (i : Nat) : Bool := (freeWordAt (k + n + 4 * i)).getLsbD 0
  let base := k + n + 8 * lines + 512
  let s := s.updBody t fun b =>
    { b with
      stash := b.stash.fill 0 n fun i => Config.freeByte (k + i)
      absent := (List.range lines).filter bit
      dirty := (List.range lines).filter fun i => bit (lines + i)
      windows := b.windows.mapVals fun w x => { x with cap := freeWordAt (base - 512 + 16 * w) ++ freeWordAt (base - 508 + 16 * w) }
      crews := b.crews.mapVals fun c C => C.undefined span (base + room * c) }
  let free := base + room * 32
  { s with
    freeCtr := free + 4 * s.msgs.length
    msgs := s.msgs.mapVals fun i m => m.undefinedSlot t span (free + i) }

/-- A waiting launcher that has come to a die takes an entry that is free there.
[DEDUCED: log entry 23] -/
def State.seatWaiter (s : State) (die : Nat) (w : Waiter) : State :=
  match s.claimable die w.depth with
  | none => s
  | some e =>
    { s with
      waiters := s.waiters.map fun x => if x.team == w.team && x.crew == w.crew && x.lanes == w.lanes then { x with given := some e } else x
      claims := s.claims ++ [{ die, entry := e, launch := 0 }] }

/-- Waiting launchers of a team follow it to its die, in the order in which they wait: entries of the old die that they were
given go on to the oldest waiters that stay there, and entries that are free on the new die are theirs (R196, R197,
R392).
[DEDUCED: log entry 23] -/
def State.moveWaiters (s : State) (t die : Nat) : State :=
  let moved := s.waiters.filter fun w => w.team == t && w.die != die
  let s := { s with
    waiters := s.waiters.map fun w => if w.team == t && w.die != die then { w with die, given := none } else w }
  let s := moved.foldl (fun s w => match w.given with
    | some e => { s with claims := s.claims.erase { die := w.die, entry := e, launch := 0 } }.passEntry w.die e
    | none => s) s
  moved.foldl (State.seatWaiter · die ·) s

/-- Fibres of a team whose wake condition holds become Ready, and its Ready fibres form braids (R166, R314). -/
def State.wakeTeam (s : State) (t : Nat) : State :=
  (s.team t).body.crews.foldl (fun s c => s.regroupCrew (s.nextCycle t) t c.1) s

/-- A team is restored on a core (R314): IINV of its code there, lines recalled meanwhile not present (R221), watch entries
of moved frames struck, the abandoned loads issued again. -/
def State.loadTeam (s : State) (t c : Nat) : State :=
  let ctx := s.teamCtx t
  let s := if (s.team t).meddled then s.undefineTeam t else s
  let T := s.team t
  let slot := s.freeSlot c
  let moved (e : WatchEntry) : WatchEntry :=
    if e.fver ≠ s.fverOf ctx e.obj e.frame then { e with state := .struck } else e
  let strike (C : Crew) : Crew := { C with watch := C.watch.mapVals fun _ e => moved e }
  let s := s.updBody t fun b =>
    { b with absent := T.recalledAway.foldl NSet.put b.absent, dirty := T.recalledAway.foldl NSet.del b.dirty }
  let s := T.recalledAway.foldl (fun s n => s.leaveLine t n) s
  let T := s.team t
  let s := (s.dropCode ctx (capObj (s.codeOf t)) [c]).moveOwner t
    { dev := s.chipno, core := T.core, slot := T.slot } { dev := s.chipno, core := c, slot := slot }
  let s := s.setTeam t
    { T with
      state := .running, core := c, slot := slot, owed := [], saved := none, meddled := false, recalledAway := []
      body := { T.body with crews := T.body.crews.mapVals fun _ C => strike C } }
  let s := { s with launches := s.launches.upd T.launch fun L => { L with evicted := L.evicted.erase t, lastCore := c } }
  let s := s.updCore c fun K => K.takeRoles (s.stashBanks t, s.tensorBanks t)
  (((s.mirrorTeam t).moveWaiters t (dieOf c)).issueAgain t T.owed).wakeTeam t

/-! ## The order of placement (R193, R195) -/

/-- The evicted teams of a launch that are pending again: under CORES all of them as soon as one is.
[DESIGN CHOICE: log entry 77] -/
def State.returning (s : State) (L : Launch) : List Nat :=
  let back := L.evicted.filter s.wakeable
  if L.block.cores then (if back.isEmpty then [] else L.evicted) else back

/-- The indices of a launch's teams that wait for a core, ascending.
[DESIGN CHOICE: log entry 77] -/
def State.itemsOf (s : State) (L : Launch) : List Nat :=
  (((s.returning L).map fun u => (s.team u).index) ++ L.pending).mergeSort fun a b => a ≤ b

/-- Where the teams of a launch that are pending would be placed, evicted ones that are pending again among them: all or
none under CORES, else in ascending index until one finds no room. -/
def State.places (s : State) (L : Launch) : List (Nat × Nat) :=
  let items := s.itemsOf L
  if L.phase ≠ .running then []
  else
    let run := placeRun L.block items L.lastCore (s.candidates L.ctx)
    if L.block.cores && (run.length != items.length || (s.returning L).length != L.evicted.length) then [] else run

/-- Places the teams of a launch that are pending.
[DESIGN CHOICE: log entry 77] -/
def State.placeLaunch (s : State) (l : Nat) : State :=
  match s.launches.find l with
  | none => s
  | some L =>
    (s.places L).foldl (fun s' x => match (s.returning L).find? fun u => (s.team u).index == x.1 with
      | some u => s'.loadTeam u x.2
      | none => s'.placeTeam l x.1 x.2) s

/-- Whether it is a launch's turn: no team of a launch accepted before it could be placed (R193, R195).
[DESIGN CHOICE: log entry 77] -/
def State.turnOf (s : State) (l : Nat) : Bool := s.launches.all fun p => l ≤ p.1 || (s.places p.2).isEmpty

/-- PLACE_TEAMS (R193): the launches in acceptance order. -/
def execPlaceTeams (s : State) : Result :=
  .next (if s.fatal || s.held then s else (s.launches.map Prod.fst).foldl State.placeLaunch s)

/-- RESTORE_TEAM (R314, R182, R195): a team that is pending again, on a named core that has room, when it is its turn among
the teams that are pending; the teams of a CORES launch come back together, the others on cores that R193 would choose.
[DESIGN CHOICE: log entry 77] -/
def execRestoreTeam (team core : Nat) (s : State) : Result :=
  let T := s.team team
  match s.launchOf team with
  | none => .next s
  | some L =>
    if T.state ≠ .evicted ∨ L.ended ∨ s.fatal ∨ !(s.allotted L.ctx).contains core ∨ !(s.core core).open s.ftime
        ∨ !L.block.fits (s.heldBlocks core) ∨ !s.turnOf T.launch then .next s
    else if L.block.cores then
      let rest := L.evicted.erase team
      let held := (s.candidates L.ctx).upd core fun h => h ++ [L.block]
      let run := placeRun L.block rest core held
      .next (if run.length = rest.length && L.evicted.any s.wakeable then
        run.foldl (fun s x => s.loadTeam x.1 x.2) (s.loadTeam team core) else s)
    else .next (if s.wakeable team && (s.itemsOf L).head? == some T.index then s.loadTeam team core else s)

/-! ## Onyx (R200, R337) -/

/-- 37.5 s, 60 s and 50 µs in ns. -/
def onyxStep : Nat := 37500000000
def onyxLimit : Nat := 60000000000
def onyxTime : Nat := 50000

/-- Whether a core holds a team in any state other than Retired; an evicted team is on no core (R200). -/
def State.occupied (s : State) (core : Nat) : Bool :=
  s.teams.any fun p => p.2.core == core && p.2.state != .retired && p.2.state != .evicted

/-- ONYX_DUE: the core is withheld, since its due time. -/
def execOnyxDue (core : Nat) (s : State) : Result :=
  let K := s.core core
  .next (if (core < Config.cores) ∧ K.slotDue ≤ s.ftime ∧ K.withheld = none ∧ K.testing = none ∧ K.offline = false then
    s.setCore core { K with withheld := some K.slotDue } else s)

/-- ONYX_SLICE: a withheld core that holds no team runs its slice, unless it has been withheld for 60 s (R23). -/
def execOnyxSlice (core : Nat) (s : State) : Result :=
  let K := s.core core
  match K.withheld with
  | some t =>
    .next (if s.ftime < t + onyxLimit ∧ s.occupied core = false then
      s.setCore core { K with testing := some s.ftime, withheld := none } else s)
  | none => .next s

/-- ONYX_SLICE_END (R337): after 50 µs; a failing core leaves every allotment. -/
def execOnyxSliceEnd (core : Nat) (fail : Bool) (s : State) : Result :=
  let K := s.core core
  match K.testing with
  | none => .next s
  | some t =>
    if s.ftime < t + onyxTime then .next s
    else
      let s := s.setCore core
        { K with
          testing := none, onyxDue := K.onyxDue + onyxStep, onyxFree := 0, onyxSlice := (K.onyxSlice + 1) % 16
          offline := K.offline || fail }
      .next (if fail then s.mcRecord 54 0x0902 .contained core none none else s)

/-- The first due time after an instant in steps from a due time.
[DESIGN CHOICE: log entry 93] -/
def nextDue (due now : Nat) : Nat := due + onyxStep * ((now - due) / onyxStep + 1)

/-- ONYX_LAPSE: after 60 s the test content of the slice moves back by one slice, 37.5 s of the pass (R23), and the core is
not withheld before the next due time still to come (R200): the slice of the due time that passed meanwhile runs then.
[DESIGN CHOICE: log entry 93] -/
def execOnyxLapse (core : Nat) (s : State) : Result :=
  let K := s.core core
  match K.withheld with
  | some t =>
    .next (if t + onyxLimit ≤ s.ftime then
      (s.setCore core { K with
        withheld := none, onyxDue := K.onyxDue + onyxStep, onyxFree := nextDue K.onyxDue s.ftime }).mcRecord 54 0x0903 .corrected
        core none none
    else s)
  | none => .next s

end Sys2Proof.Machine
end

