-- ==== Sys2Proof/Machine/Recovery.lean ====
section
/-! DEFINITION. Rollback (R332), failed acknowledgements and broken links (R338, R346, R347), fatal events (R324, R329),
messages from other devices (R211, R346), sensors, clocks and the host link (R18, R22, R340, R349). -/

namespace Sys2Proof.Machine

open Sys2Proof

/-! ## Rollback (R332) -/

/-- Whether what a team issued has completed: tickets, engine operations, writes, and results on their way. -/
def State.settled (s : State) (t : Nat) : Bool :=
  let T := s.team t
  T.body.crews.all (fun c => c.2.tickets.isEmpty)
    && !(s.core T.core).mats.any (fun m => m.team == t)
    && !s.jobs.any (fun (j : Nat × Job) => match j.2.without t with
      | none => true
      | some x => decide (x ≠ j.2))
    && !s.msgs.any fun m => match m.2 with
      | .write w .. => w.team == t
      | .ack w _ _ _ _ _ failed _ _ => w.team == t && !(failed && s.standing m.1 w)
      | .back w .. => w.team == t
      | .backAck w _ _ _ _ failed _ => w.team == t && !(failed && s.standing m.1 w)
      | .atomic o .. => o.team == t
      | .atomicReply o _ _ _ _ _ poison _ => o.team == t && !poison
      | .division u .. => u == t
      | .special u .. => u == t
      | .ftime u .. => u == t
      | _ => false

/-- A crew as a rollback restores it: what it wrote stands and stays covered, its tickets are idle, and pending watch
entries are struck. Writes that failed are due again.
[DEDUCED: log entry 63] -/
def Crew.restored (C now : Crew) (due : Nat) : Crew :=
  { C with
    braids := [], tickets := [], unacked := due, gdie := max C.gdie now.gdie, gall := max C.gall now.gall, mirror := now.mirror
    watch := C.watch.mapVals fun _ e => if e.state = .pending then { e with state := .struck } else e }

/-- Present window lines of a restored stash are the team's again; a line that has another owner by now is not present
(R217, R220). -/
def State.claimLines (s : State) (t : Nat) : State :=
  let T := s.team t
  let me : Owner := { dev := s.chipno, core := T.core, slot := T.slot }
  T.body.windows.foldl (fun s w =>
    (List.range' w.2.first w.2.count).foldl (fun s n =>
      let b := (s.team t).body
      if b.absent.contains n then s
      else match s.windowAddr t w.2 n with
        | none => s
        | some a =>
          let d := s.dirOf (a / 128)
          if d.owner.isSome && d.owner != some me then s.updBody t fun b => { b with absent := NSet.put b.absent n }
          else
            let dirty := b.dirty.contains n
            let st : DirState := if d.shared then (if dirty then .O else .S) else if dirty then .M else .E
            s.setDir (a / 128) { d with owner := some me, state := st }) s) s

/-- A write that failed and stands from before the checkpoint goes on its way again (R347).
[DEDUCED: log entry 63] -/
def State.retry (s : State) (t k : Nat) (m : Msg) : Msg := match m with
  | .ack w addr data tag _ _ true _ _ => if w.team = t ∧ s.standing k w then .write w addr data tag else m
  | .backAck w line data _ _ true _ => if w.team = t ∧ s.standing k w then .back w line data false else m
  | m => m

/-- The writes and poisoned atomics of a crew still unanswered. -/
def State.dueOf (s : State) (t c : Nat) : Nat :=
  (s.msgs.filter fun m => match m.2 with
    | .write (.crew u d _ _ _) .. => u == t && d == c
    | .back (.window u d _) .. => u == t && d == c
    | .atomicReply o .. => o.team == t && o.crew == c
    | _ => false).length

/-- What a rollback leaves in flight: loads of the abandoned interval go, plain loads of before are issued again, and
values held or acquired before the checkpoint still arrive (R312, R332).
[DEDUCED: log entry 63] -/
def State.keepsMsg (s : State) (t k : Nat) (m : Msg) : Bool :=
  !m.abandoned t && (match m with
    | .read o .. => o.team != t || ((s.team t).shadowLoads.find k).isSome
    | .readReply o .. => o.team != t || ((s.team t).shadowLoads.find k).isSome
    | .held o .. => o.team != t || ((s.team t).shadowLoads.find k).isSome
    | _ => true)

/-- The team takes its shadow back and goes on. Lines recalled for write since the checkpoint are not present and not dirty.
The record of a team's rollback names its crew 0 (R327 names none).
[DEDUCED: log entry 63; DESIGN CHOICE: log entries 24 and 95] -/
def State.rollBack (s : State) (t : Nat) : State :=
  let T := s.team t
  match T.shadow with
  | none => s
  | some b =>
    let s := T.body.windows.foldl (fun s w =>
      (List.range' w.2.first w.2.count).foldl (fun s n => s.leaveLine t n) s) s
    let s := { s with
      msgs := AMap.mapVals (s.msgs.filter fun (m : Nat × Msg) => s.keepsMsg t m.1 m.2) (s.retry t) }
    let crews := b.crews.mapVals fun c C => C.restored (s.crew t c) (s.dueOf t c)
    let s := s.setTeam t
      { T with
        state := .running, consumed := false, rollbacks := T.rollbacks + 1
        body := { b with
          crews, absent := T.recalled.foldl NSet.put b.absent, dirty := T.recalled.foldl NSet.del b.dirty } }
    let s := ((s.claimLines t).issueAgain t (T.shadowLoads.filterMap fun (m : Nat × Msg) => m.2.again)).wakeTeam t
    s.coreEvent T.core 0x0104 .corrected (some (T.crewSlot 0 + 256 * (T.rollbacks + 1)))

/-- ROLLBACK (R332): the third of one interval stops the launch. A team that consumed while it drained rolls back too
(R322); one whose slots and banks went back to the core has nothing to go back to, and its launch stops as it does where a
draining team's write-back fails (R347). The record names crew 0 of the team.
[DESIGN CHOICE: log entries 44 and 95] -/
def execRollback (team : Nat) (s : State) : Result :=
  let T := s.team team
  if !T.consumed || !(T.state == .running || T.state == .draining) || !s.settled team then .next s
  else if T.drained then .next (s.stopLaunch T.launch stFaulted)
  else if T.rollbacks = 2 then
    .next ((s.coreEvent T.core 0x0105 .contained (some (T.crewSlot 0 + 256 * 3))).stopLaunch T.launch stFaulted)
  else .next (s.rollBack team)

/-! ## Links (R338, R346, R347) -/

/-- ROUTE_LOST is logged at the port of a device (R347).
[DEDUCED: log entry 75] -/
def State.routeLost (s : State) (dev addr : Nat) : State :=
  let port := ((s.portsOf dev).headD (0, false)).1
  s.mcRecord (48 + port / 8) 0x0603 .contained port (some addr) none

/-- FAILED_ACKNOWLEDGEMENT (R347): of a write, a write-back or an atomic whose home has no working route. -/
def execFailedAcknowledgement (k : Nat) (s : State) : Result :=
  let fail (a : Nat) (s : State) : State := s.routeLost (devOf a) (a / 128 * 128)
  match s.msgs.find k with
  | some (.write w addr data tag) =>
    let f := s.forwarded addr
    .next (if s.lostHome f then (fail f s).answer k (.ack w addr data tag 0 0 true 0) else s)
  | some (.back w line data _) =>
    let f := s.forwarded (128 * line)
    .next (if s.lostHome f then (fail f s).answer k (.backAck w line data 0 0 true) else s)
  | some (.atomic o line wider _ parts) =>
    let f := s.forwarded (128 * line)
    .next (if s.lostHome f then
      (fail f s).answer k (.atomicReply o line wider (parts.map fun p => (p.lane, p.dest, 0, true)) [] (0, 0) true) else s)
  | _ => .next s

/-- The collectives that a device takes part in form their ring or tree anew (R293). -/
def Job.breaks (dev port : Nat) : Job → Job
  | .coll x => if x.members.any fun m => m.1 == dev then .coll { x with broken := x.broken ++ [port] } else .coll x
  | j => j

/-- What follows when a device is no longer reached (R338): each launch whose span it cuts stops, with SPAN_LOST at the port
where it was lost. -/
def State.cutSpans (s : State) (port dev : Nat) : State :=
  let cut := (s.launches.filter fun p => !p.2.ended && p.2.chips.contains dev && (match p.2.phase with
    | .running => true
    | .armed _ => true
    | _ => false) && (match p.2.source with
    | .span chip0 => chip0 == dev
    | _ => true)).map Prod.fst
  cut.foldl (fun s l => (s.mcRecord (48 + port / 8) 0x0602 .contained port none none).stopLaunch l stFaulted) s

/-- LINK_FAILURE (R338, R346): a port to a device stops working. A failure after which the device is still reached is
survived, by routing and by the collectives that form anew, and is logged once.
[DEDUCED: log entry 59] -/
def execLinkFailure (port dev : Nat) (s : State) : Result :=
  if dev = s.chipno ∨ Config.domainDevices ≤ dev ∨ !(s.portsOf dev).any (fun p => p.1 == port && p.2) then .next s
  else
    let s := { s with
      routes := s.routes.put dev ((s.portsOf dev).map fun (p : Nat × Bool) => if p.1 = port then (port, false) else p)
      jobs := s.jobs.mapVals fun _ j => j.breaks dev port }
    .next (if s.lost dev then s.cutSpans port dev else s.mcRecord (48 + port / 8) 0x0601 .corrected port none none)

/-! ## Fatal events (R324, R329) -/

/-- D2D_FAIL, recorded at the direction that fails (R326). -/
def execD2dFail (s : State) : Result :=
  .next ({ s with split := true }.mcRecord 53 0x0802 .fatal (s.outside.dieDir % 2) none none).fatalStop

/-- FTIME_SYNC. -/
def execFtimeSync (dev : Nat) (s : State) : Result :=
  .next (if dev < Config.domainDevices then (s.mcRecord 54 0x0904 .fatal 0xFFFF none none).fatalStop else s)

/-! ## Messages from other devices (R211, R346) -/

/-- The set of cores that a scope entry names for a core of another device whose launch spans some chips.
[DEDUCED: log entry 59] -/
def State.scopeFor (s : State) (ctx dev core sc : Nat) (chips : List Nat) : List (Nat × List Nat) :=
  let all := List.range Config.cores
  let domain := (List.range Config.domainDevices).map fun d => (d, all)
  if sc ≤ 1 then [(dev, [core])]
  else if sc = 2 then [(dev, List.range' (160 * dieOf core) 160)]
  else if sc = 3 then [(dev, all)]
  else if sc = 4 then chips.foldl (fun m d => AMap.put m d all) []
  else if sc ≤ 6 then domain
  else ((s.ctx ctx).scopes.find sc).elim domain ScopeEntry.members

/-- A line as it travels to another device: bytes, sector tags and marks. -/
def lineOut (m : Mem) : List Byte × List Bool × List Bool :=
  (m.bytes 0 128, (List.range 4).map m.tag, (List.range 4).map m.poisoned)

/-- A line as it came from another device. -/
def lineIn (data : List Byte) (tags marks : List Bool) : Mem :=
  let secs (xs : List Bool) : NSet := (List.range 4).filter fun k => xs.getD k false
  { (Mem.empty.setBytes 0 (data.take 128)) with tags := secs tags, poison := secs marks }

/-- A device is answered with a line. -/
def State.tellLine (s : State) (dev line f : Nat) : State :=
  let d := lineOut (s.lineData f)
  s.tell [dev] (.data dev line d.1 d.2.1 d.2.2)

/-- Marks travel with the bytes that a write of another device carries (R106, R321). -/
def State.markBytes (s : State) (a : Nat) (marks : List Bool) : State :=
  s.poison (((List.range marks.length).filter fun i => marks.getD i false).map fun i => (a + i) / 32)

/-- What a message of another device does when it arrives. Requests that must wait are not taken yet: the link holds
them back (R346). -/
def State.receive (s : State) (m : LinkMsg) (e : MemErr) : State :=
  match m with
  | .write dev addr data tags marks =>
    if !addressed addr ∨ 128 < addr % 128 + data.length ∨ isHost addr then s
    else match s.writeBlocked addr data.length with
      | some s => s
      | none =>
        let r := (s.touchLine (s.forwarded addr / 128) e true).performBytes (s.forwarded addr) data tags
        (r.1.markBytes (s.forwarded addr) marks).tell [dev] (.written dev addr r.2.2 r.2.2)
  | .atomic dev addr size op cmp val tag =>
    if !addressed addr ∨ isHost addr ∨ !(size == 4 || size == 8) ∨ addr % size ≠ 0 ∨ 8 < op then s
    else match s.writeBlocked addr size with
      | some s => s
      | none =>
        let f := s.forwarded addr
        let s := (s.touchLine (f / 128) e false).writeTransition (f / 128)
        let old := s.mem.num f size
        let t := s.mem.tagOf f size
        let g := s.gwct (f / 128)
        let s := match if s.mem.poisonOf f size then none
            else atomOp (BitVec.ofNat 3 (min op 7)) (op == 8) size old cmp.toNat val.toNat with
          | some n => s.putLine f (leBytes size n) tag
          | none => s
        s.tell [dev] (.old dev addr (BitVec.ofNat 64 old) t g.2 g.2)
  | .read dev line lease =>
    if !s.own (128 * line) then s
    else match s.readBlocked (128 * line) 128 with
      | some s => s
      | none =>
        let f := s.forwarded (128 * line) / 128
        let s := s.touchLine f e false
        let s := if s.halfFree f 0 && s.halfFree f 1 then (s.grant f (.remote dev) lease false).1 else s.readTransition f
        s.tellLine dev line f
  | .collJoin ctx sc r =>
    let ms := s.scopeFor ctx r.dev r.core sc r.chips
    if !inSet ms r.dev r.core ∨ r.dev = s.chipno then s
    else s.joinColl ctx ms
      { team := 0, crew := 0, lane := 0, dev := r.dev, core := r.core, bytes := [], addr := 0, gtag := false, bar := 0
        btag := false, remote := some r, got := some (r.data, r.tags) }
  | .retired ctx gen src =>
    match s.launchNamed ctx gen with
    | some (l, L) =>
      ({ s with launches := s.launches.put l { L with away := NSet.put L.away src } }).spanCheck l
    | none => s
  | .iinv dev id ctx obj cores => (s.dropCode ctx obj cores).tell [dev] (.iinvDone s.chipno id)
  | .iinvDone dev id => match s.iinvs.find id with
    | some ds => { s with iinvs := if (ds.erase dev).isEmpty then s.iinvs.del id else s.iinvs.put id (ds.erase dev) }
    | none => s
  | .readOnce dev line =>
    if !s.own (128 * line) then s
    else match s.readBlocked (128 * line) 128 with
      | some s => s
      | none =>
        let f := s.forwarded (128 * line) / 128
        (((s.touchLine f e false).readTransition f)).tellLine dev line f
  | .ownerFill dev line core slot =>
    if !s.own (128 * line) ∨ dev = s.chipno then s
    else match s.writeBlocked (128 * line) 128 with
      | some s => s
      | none =>
        let f := s.forwarded (128 * line) / 128
        ((s.touchLine f e false).ownerFill f { dev, core, slot }).tellLine dev line f
  | .dirty dev line core slot =>
    let f := s.forwarded (128 * line) / 128
    let d := s.dirOf f
    if s.own (128 * line) ∧ !s.migratingLine line ∧ d.owner = some { dev, core, slot } then s.setDir f { d with state := d.state.soiled } else s
  | .writeBack dev line core slot data tags marks leave =>
    if !s.own (128 * line) then s
    else match s.backBlocked line with
      | some s => s
      | none =>
        let f := s.forwarded (128 * line) / 128
        let mine := (s.dirOf f).owner == some { dev, core, slot }
        let r := (s.touchLine f e true).performBack f (lineIn data tags marks) (leave && mine)
        r.1.tell [dev] (.written dev (128 * line) r.2.2 r.2.2)
  | .leave dev line core slot =>
    let f := s.forwarded (128 * line) / 128
    let d := s.dirOf f
    if s.own (128 * line) ∧ d.owner = some { dev, core, slot } then s.setDir f { d with owner := none, state := d.state.left } else s
  | .recall dev line forWrite =>
    if s.backDue line then s
    else
      let dirty := ((s.dirOf line).owner.map (s.holders line)).any fun hs => hs.any fun x => (s.team x.1).body.dirty.contains x.2
      let s := if forWrite then s.writeTransition line else s.readTransition line
      s.tell [dev] (.recalled s.chipno line forWrite (if dirty then some (lineOut (s.lineData line)) else none))
  | .recalled dev line forWrite data =>
    if !s.own (128 * line) ∨ !(s.dirOf line).owner.any (fun o => o.dev == dev) then s
    else
      let s := { s with recalls := s.recalls.filter fun x => x != (line, forWrite) }
      let s := match data with
        | some d => s.putWhole line (lineIn d.1 d.2.1 d.2.2)
        | none => s
      let d := s.dirOf line
      s.setDir line { d with
        owner := if forWrite then none else d.owner
        state := if forWrite then (if d.state = .S ∨ d.state = .O then .S else .I) else d.state.cleaned }
  | .data .. => s
  | .written .. => s
  | .old .. => s
  | m => { s with linkIn := s.linkIn.put s.next m, next := s.next + 1 }

/-- LINK_FLIT (R346): a flit whose CRC is wrong is sent again, which changes nothing here.
[DESIGN CHOICE: log entry 22] -/
def execLinkFlit (crcOk : Bool) (msg : LinkMsg) (e : MemErr) (s : State) : Result :=
  .next (if crcOk then s.receive msg e else s)

/-! ## Sensors, clocks and the host link -/

/-- The dies that a sensor belongs to: 0-31 two for each district, 32-33 base dies, 34-49 DRAM dies, 50 the package.
[DEDUCED: log entry 74] -/
def sensorDies (n : Nat) : List Nat :=
  if n < 32 then [n / 16] else if n < 34 then [n - 32] else if n < 50 then [(n - 34) / 8] else [0, 1]

/-- The clock of a die (R18).
[DEDUCED: log entry 74] -/
def State.setClock (s : State) (die mhz : Nat) : State := if die = 0 then { s with clkA := mhz } else { s with clkB := mhz }
def State.clockOf (s : State) (die : Nat) : Nat := if die = 0 then s.clkA else s.clkB

/-- SENSOR_SAMPLE (R349): the sensors' values are kept; a sensor past its limit lowers its die's clock by a step and is
logged.
[DEDUCED: log entry 74] -/
def execSensorSample (hot : List Nat) (s : State) : Result :=
  let hs := (hot.filter fun n => n < 51).foldl NSet.put []
  let slow (s : State) (n : Nat) : State :=
    ((sensorDies n).foldl (fun s d => s.setClock d (max 1200 (s.clockOf d - 100))) s).logAdd 3 0 []
  let sensors := s.outside.readings.filter fun v => v.1 < 51
  .next { hs.foldl slow s with hot := hs, sensors }

/-- CLOCK_CHANGE (R18). -/
def execClockChange (die mhz : Nat) (s : State) : Result :=
  .next (if die < 2 ∧ 1200 ≤ mhz ∧ mhz ≤ 3600 ∧ mhz % 100 = 0 then s.setClock die mhz else s)

/-- HOST_LINK_TRAIN (R340, R22): completions that waited for the link are written.
[DEDUCED: log entries 18 and 80] -/
def execHostLinkTrain (gts width : Nat) (s : State) : Result :=
  let rates : List Nat := [128, 64, 32, 16, 8, 5, 2]
  let widths : List Nat := [16, 8, 4, 2, 1]
  if !rates.contains gts || !widths.contains width then .next s
  else
    let s := { s with hostUp := true, hostRate := gts, hostWidth := width }
    let qs := s.ctxs.flatMap fun c => (c.2.queues.filter fun q => q.2.en && !q.2.held.isEmpty).map fun q => (c.1, q.1)
    .next (qs.foldl (fun s x => s.flushHeld x.1 x.2) s)

/-- HOST_LINK_DOWN (R22). -/
def execHostLinkDown (s : State) : Result := .next { s with hostUp := false }

end Sys2Proof.Machine
end

