-- ==== Sys2Proof/Machine/Mailbox.lean ====
section
/-! DEFINITION. The driver mailbox (R230, R342-R345, R350, R351), page motion (R262-R267), the reset of the device
(R351) and attestation (R352). -/

namespace Sys2Proof.Machine

open Sys2Proof

/-! ## Requests (R342) -/

/-- Results of a mailbox command. -/
def mbOk : Nat := 0
def mbBadState : Nat := 1
def mbBadParam : Nat := 2
def mbDenied : Nat := 4
def mbBadSig : Nat := 5
def mbAborted : Nat := 6

/-- A field of MB_REQ.
[DEDUCED: log entry 68] -/
def State.mbField (s : State) (off n : Nat) : Nat := fieldOf s.mailbox.req off n
/-- The opcode and the context. -/
def State.mbOp (s : State) : Nat := s.mbField 0 1
def State.mbCtx (s : State) : Nat := s.mbField 1 1

/-- The command ends with a result. -/
def State.mbDone (s : State) (result : Nat) : State := { s with mailbox := { s.mailbox with busy := false, result := result } }

/-- A command of an opcode, once MB_GO started it; a master whose table entry denies it gets DENIED (R348). A device that
holds in reset executes none (R351). -/
def State.command (s : State) (op : Nat) (f : State → State) : Result :=
  if s.held || !s.mailbox.busy || s.mbOp != op then .next s
  else if !s.mayCommand 1 s.mailbox.asker then .next (s.denied.mbDone mbDenied)
  else .next (f s)

/-- A command on a context in one of some states. -/
def State.onContext (s : State) (ok : CtxState → Bool) (f : State → State) : State :=
  if 64 ≤ s.mbCtx then s.mbDone mbBadParam
  else if !ok (s.ctx s.mbCtx).state then s.mbDone mbBadState
  else f s

/-- Whether a range lies in memory of the domain. -/
def inDomain (a n : Nat) : Bool :=
  !isHost a && decide (devOf a < Config.domainDevices) && decide (localOf a + n ≤ 0x06000000000)

/-! ## CREATE (R344) and scopes (R230) -/

/-- The members of a core-set object's records: devices of the domain, their masks joined. -/
def scopeMembersOf (bs : List Byte) : (n : Nat) → AMap (List Nat)
  | 0 => []
  | n + 1 =>
    let m := scopeMembersOf (bs.drop 48) n
    let dev := fieldOf bs 0 2
    let mask := fieldOf bs 8 40
    let cs := (List.range Config.cores).filter fun c => Nat.testBit mask c
    if Config.domainDevices ≤ dev ∨ cs.isEmpty then m
    else m.put dev (((m.find dev).getD []).foldl NSet.put cs)

/-- The class of a set, or none for an empty one. -/
def classOf : AMap (List Nat) → Option ScopeEntry
  | [] => none
  | ms =>
    let cores := ms.flatMap fun m => m.2
    let h : Horizon :=
      if 1 < ms.length then .all
      else if cores.length = 1 then .core
      else if cores.all (fun c => dieOf c == dieOf (cores.headD 0)) then .die
      else .all
    some { horizon := h, members := ms }

/-- What the derivation of an entry gives: none stands for entry 6. The read of the object may have to wait at a home. -/
inductive Derived where
  | entry (s : State) (e : Option ScopeEntry)
  | wait (s : State)

/-- The entry that a capability gives (R230). -/
def State.deriveScope (s : State) (ctx : Nat) (cap : DWord) : Derived :=
  if cap = 0 then .entry s none
  else match s.readRange ctx cap 8 needR with
    | .ok s h =>
      let n := fieldOf h.data 0 4
      if (s.objEntry ctx (capObj cap)).length < capOff cap + 8 + 48 * n then .entry s none
      else match s.readRange ctx cap (8 + 48 * n) needR with
        | .ok s b => .entry s (classOf (scopeMembersOf (b.data.drop 8) n))
        | .wait s => .wait s
        | .fail _ => .entry s none
    | .wait s => .wait s
    | .fail _ => .entry s none

/-- Sets a programmable entry, or waits: then only the snoops are sent. -/
def State.setScope (s : State) (ctx e : Nat) (cap : DWord) : State × Bool :=
  match s.deriveScope ctx cap with
  | .entry s (some x) => (s.updCtx ctx fun X => { X with scopes := X.scopes.put e x }, false)
  | .entry s none => (s.updCtx ctx fun X => { X with scopes := X.scopes.del e }, false)
  | .wait s => (s, true)

/-- Sets programmable entries in turn until one waits. -/
def State.setScopes (s : State) (ctx : Nat) : List (Nat × DWord) → State × Bool
  | [] => (s, false)
  | (e, cap) :: r =>
    let x := s.setScope ctx e cap
    if x.2 then x else State.setScopes x.1 ctx r

/-- The context that the bytes of a descriptor describe, and whether its fields are in range. -/
def Context.described (X : Context) (bs : List Byte) : Context × Bool :=
  let f (off n : Nat) : Nat := fieldOf bs off n
  let diag := bitsOf (f 0x34 4) 0 1 == 1
  ({ X with
      state := .active, otab := f 0 8, otsize := f 8 4, classen := BitVec.ofNat 8 (f 0xC 4), save := f 0x10 8
      savelen := f 0x18 8, scope := f 0x20 8, cring := BitVec.ofNat 64 (f 0x28 8), crlen := f 0x30 4, crpos := 0, diag := diag
      allot := (List.range Config.cores).filter fun c => Nat.testBit (f 0x38 40) c
      steer := false, lease := 256, scopes := [], gens := 0 },
   f 0 8 % 32 == 0 && decide (1 ≤ f 8 4) && decide (f 8 4 ≤ 2 ^ 22) && inDomain (f 0 8) (32 * f 8 4)
     && bitsOf (f 0xC 4) 8 24 == 0 && f 0x10 8 % Config.frameBytes == 0 && decide (2 ^ 30 ≤ f 0x18 8)
     && inDomain (f 0x10 8) (f 0x18 8) && inDomain (f 0x20 8) 256 && bitsOf (f 0x34 4) 1 31 == 0 && zeroAt bs 0x60 160
     && (!diag || decide (4 ≤ f 8 4)))

/-- CREATE. An opcode that names no command ends here with BADPARAM. The descriptor and the scope table are read at their
homes, which may have the command wait (R255, R260): 25 programmable entries of eight bytes stand from byte 56.
[DEDUCED: log entry 67] -/
def execCreate (s : State) : Result :=
  if !s.held && s.mailbox.busy && (s.mbOp == 0 || decide (9 < s.mbOp)) then .next (s.mbDone mbBadParam)
  else s.command 1 fun s => s.onContext (· == .free) fun s =>
    let c := s.mbCtx
    let a := s.mbField 8 8
    if !inDomain a 256 then s.mbDone mbBadParam
    else match s.readPieces (linePieces 4 a 256) with
      | .fail _ => s.mbDone mbBadParam
      | .wait s => s
      | .ok s b =>
        let r := (s.ctx c).described b.data
        let e := (s.setCtx c r.1).objEntry c 1
        let shadow := r.1.classen.getLsbD 1 || (e.valid && decide (2 ^ 20 ≤ e.length) && e.rights &&& 12 == 12)
        if !r.2 || !shadow then s.mbDone mbBadParam
        else match s.readPieces (linePieces 4 (r.1.scope + 56) 200) with
          | .fail _ => s.mbDone mbBadParam
          | .wait s => s
          | .ok s b =>
            let x := (s.setCtx c r.1).setScopes c
              ((List.range 25).map fun i => (7 + i, BitVec.ofNat 64 (fieldOf b.data (8 * i) 8)))
            if x.2 then x.1.setCtx c (s.ctx c) else x.1.mbDone mbOk

/-! ## Updates (R208, R230, R431) -/

/-- An object number that no table holds. -/
def noObject : Nat := 4194304

/-- Copies of an object that only an IMM lease kept go, and reads on their way get no such lease (R431). -/
def State.dropImmObject (s : State) (ctx obj : Nat) : State :=
  let s := s.dropLeased fun c => c.ctx == ctx && c.obj == obj
  { s with msgs := s.msgs.mapVals fun _ m => match m with
      | .read o line x kind parts =>
        .read o line (if x = obj ∧ s.teamCtx o.team = ctx then noObject else x) kind parts
      | m => m }

/-- UPDATE_OT (R208, R343). No cache of entries stands between a word and the table, so none is left to invalidate.
[DEDUCED: log entry 69] -/
def execUpdateOt (s : State) : Result :=
  s.command 2 fun s => s.onContext (· == .active) fun s =>
    let c := s.mbCtx
    let obj := s.mbField 8 4
    if obj = 0 ∨ (s.ctx c).otsize ≤ obj then s.mbDone mbBadParam
    else
      let new := s.mem.bytes (hostBase + s.mbField 12 8) 32
      let old := s.objEntry c obj
      let pieces := linePieces 2 ((s.ctx c).otab + 32 * obj) 32
      match s.writesBlocked pieces with
      | some s => s
      | none =>
        let s := (pieces.foldl (fun (r : State × List Byte) p =>
          ((r.1.performWrite (r.1.forwarded p.1) (r.2.take p.2) false).1, r.2.drop p.2)) (s, new)).1
        let e := s.objEntry c obj
        let s := if old.imm && (!e.imm || e.extents != old.extents) then s.dropImmObject c obj else s
        s.mbDone mbOk

/-- UPDATE_SCOPE (R230).
[DEDUCED: log entry 69] -/
def execUpdateScope (s : State) : Result :=
  s.command 3 fun s => s.onContext (· == .active) fun s =>
    let c := s.mbCtx
    let e := s.mbField 8 1
    if e < 7 ∨ 31 < e then s.mbDone mbBadParam
    else
      let cap := BitVec.ofNat 64 (s.mbField 9 8)
      let a := (s.ctx c).scope + 8 * e
      match s.writesBlocked (linePieces 2 a 8) with
      | some s => s
      | none =>
        let x := s.setScope c e cap
        if x.2 then x.1
        else ((linePieces 2 a 8).foldl (fun (r : State × List Byte) p =>
          ((r.1.performWrite (r.1.forwarded p.1) (r.2.take p.2) false).1, r.2.drop p.2)) (x.1, leBytes 8 cap.toNat)).1.mbDone mbOk

/-! ## KILL and RESET (R313, R343, R345) -/

/-- A completion that is held: of a launch, whose slot is not written yet, it becomes KILLED (R345). -/
def heldKilled (h : Nat × Word × Nat × Word) : Nat × Word × Nat × Word :=
  if h.2.2.2 ≠ 0 ∧ (h.2.2.1 = stOk ∨ h.2.2.1 = stFaulted) then (h.1, h.2.1, stKilled, h.2.2.2) else h

/-- KILL (R345): every launch whose completion slot is not written completes with KILLED. -/
def execKill (s : State) : Result :=
  s.command 5 fun s => s.onContext (fun x => x == .active || x == .faulted) fun s =>
    let c := s.mbCtx
    if (s.ctx c).state = .faulted then s.mbDone mbOk
    else
      let s := s.updCtx c fun X => { X with queues := X.queues.mapVals fun _ Q => { Q with held := Q.held.map heldKilled } }
      ((s.liveLaunches c).foldl (fun s l => s.stopLaunch l stKilled) s).mbDone mbOk

/-- A context that returns to Free: its object table, save area and counters go, and its queues are as at reset.
[DEDUCED: log entry 69] -/
def State.freeContext (s : State) (c : Nat) : State :=
  let s := s.setCtx c { msix := (s.ctx c).msix }
  { s with
    counters := s.counters.filter fun x => x.ctx != c
    records := s.records.filter fun r => r.2.ctx != c
    cores := s.cores.mapVals fun _ K => { K with icache := K.icache.filter fun w => w.ctx != c } }

/-- RESET: the context is Resetting, and at an event of the command after its stopped launches have completed Free.
[DEDUCED: log entry 69] -/
def execReset (s : State) : Result :=
  s.command 6 fun s =>
    let c := s.mbCtx
    if 64 ≤ c then s.mbDone mbBadParam
    else match (s.ctx c).state with
      | .free => s.mbDone mbBadState
      | .resetting => if (s.liveLaunches c).isEmpty then (s.freeContext c).mbDone mbOk else s
      | .active =>
        if !(s.liveLaunches c).isEmpty then s.mbDone mbBadState
        else s.updCtx c fun X => { X with state := .resetting }
      | .faulted => s.updCtx c fun X => { X with state := .resetting }

/-! ## Firmware and the event log (R350, R351) -/

/-- The inactive firmware bank. -/
def State.spare (s : State) : Firmware := if s.fwRunB then s.fwA else s.fwB
def State.running (s : State) : Firmware := if s.fwRunB then s.fwB else s.fwA

/-- FW_STAGE: the SVN is the image's first word. An image shorter than that, or of 2^32 bytes and more, is refused with
BADPARAM, and each image that is staged is a firmware event of the log: R350 and R351 name neither.
[PRESUMED: log entry 72; DESIGN CHOICE: log entries 3 and 96] -/
def execFwStage (s : State) : Result :=
  s.command 7 fun s =>
    let n := s.mbField 16 8
    if !s.mayCommand 4 s.mailbox.asker then s.denied.mbDone mbDenied
    else if n < 4 ∨ 2 ^ 32 ≤ n then s.mbDone mbBadParam
    else
      let image := s.mem.bytes (hostBase + s.mbField 8 8) n
      let svn := fieldOf image 0 4
      if !Config.signatureOk image then s.mbDone mbBadSig
      else if svn < s.minSvn then s.mbDone mbDenied
      else
        let f : Firmware := { image, svn, valid := true }
        ((if s.fwRunB then { s with fwA := f } else { s with fwB := f }).logAdd 4 0 []).mbDone mbOk

/-- FW_ACTIVATE: BADSTATE where no valid image is staged, for which the manual names no result. Each stage, activation and
boot that succeeds is a firmware event of the log (R350 does not list them).
[DESIGN CHOICE: log entry 96] -/
def execFwActivate (s : State) : Result :=
  s.command 8 fun s =>
    if !s.mayCommand 4 s.mailbox.asker then s.denied.mbDone mbDenied
    else if !s.spare.valid then s.mbDone mbBadState
    else ({ s with fwMark := some (!s.fwRunB) }.logAdd 4 0 []).mbDone mbOk

/-- The 64 bytes of a log record. -/
def LogRecord.bytes (r : LogRecord) : List Byte :=
  let regs := r.regs.flatMap fun d => leBytes 8 d.toNat
  leBytes 8 r.index ++ leBytes 8 r.ftime ++ leBytes 1 r.kind ++ leBytes 1 r.bank ++ leBytes 6 0
    ++ (regs ++ List.replicate (40 - regs.length) 0)

/-- LOG_READ.
[DEDUCED: log entry 79] -/
def execLogRead (s : State) : Result :=
  s.command 9 fun s =>
    let i := s.mbField 8 8
    let a := hostBase + s.mbField 16 8
    let n := s.mbField 24 4
    let first := (s.log.head?.map LogRecord.index).getD s.logNext
    if !(s.rightsOf 3 (Master.code s.mailbox.asker)).getLsbD 2 then s.denied.mbDone mbDenied
    else if i < first ∨ s.logNext < i + n then s.mbDone mbBadParam
    else
      let data := ((s.log.drop (i - first)).take n).flatMap LogRecord.bytes
      let s := ((linePieces (data.length / 128 + 2) a data.length).foldl (fun (r : State × List Byte) p =>
        ((r.1.performWrite p.1 (r.2.take p.2) false).1, r.2.drop p.2)) (s, data)).1
      s.mbDone mbOk

/-! ## Page motion (R262-R267) -/

/-- Lines of a frame. -/
def frameLines : Nat := Config.frameBytes / 128

/-- MOVE_FRAME (R262): the command stays busy until the switch or the abort.
[DEDUCED: log entry 69] -/
def execMoveFrame (s : State) : Result :=
  if s.motion.isSome then .next s
  else s.command 4 fun s => s.onContext (· == .active) fun s =>
    let c := s.mbCtx
    let obj := s.mbField 8 4
    let i := s.mbField 12 4
    let loc := s.mbField 16 8
    let e := s.objEntry c obj
    let dst := frameOf (BitVec.ofNat 64 (2 ^ 62 + loc % 2 ^ 36))
    if obj = 0 ∨ !e.valid ∨ ((s.ctx c).diag ∧ obj = 3) ∨ e.length ≤ Config.frameBytes * i ∨ loc / 2 ^ 36 ≠ 0 then s.mbDone mbBadParam
    else
      let d := s.frameWord e i
      match frameOf d, dst with
      | (.mem src, _), (.mem dst, _) =>
        let m : Motion :=
          { ctx := c, obj, frame := i, src, dst, loc, word := d, place := e.extents + 8 * i, all := true, snap := [], bits := []
            rounds := 0, frozen := false, migrating := [] }
        if isHost src ∨ src = dst then s.mbDone mbBadParam else { s with motion := some m }
      | _, _ => s.mbDone mbBadParam

/-- One line of F written whole at D, as a host write would be performed (R226, R262).
[DESIGN CHOICE: log entry 76] -/
def State.copyLine (s : State) (src dst i : Nat) : State :=
  let l := src / 128 + i
  let d := dst / 128 + i
  let s := s.writeTransition d
  ({ s with mem := s.mem.paste (128 * d) 128 (s.lineData l) }.bumpVersion d).touchLine d MemErr.none true

/-- All lines of F at D: those with an entry or a cached copy one by one, the rest as they stand. -/
def State.copyFrame (s : State) (src dst : Nat) : State :=
  let known := (((s.dir.map Prod.fst) ++ (s.llc.map Prod.fst)).filter fun l => inFrame dst (128 * l)).foldl NSet.put []
  let s := known.foldl (fun s l => s.writeTransition l) s
  let s := { s with mem := s.mem.paste dst Config.frameBytes (s.mem.slice src Config.frameBytes) }
  known.foldl (fun s l => (s.bumpVersion l).touchLine l MemErr.none true) s

/-- Lines of D whose copying might have to wait: those that something is known of. -/
def State.knownLines (s : State) (base : Nat) : List Nat :=
  ((s.dir.map Prod.fst ++ s.hostWaits.map Prod.fst ++ s.msgs.filterMap fun m => match m.2 with
    | .back _ l _ _ => some l
    | _ => none).filter fun l => inFrame base (128 * l)).foldl NSet.put []

/-- The horizons of a line are carried to D (R264). -/
def State.carryHorizons (s : State) (l d : Nat) : State :=
  let f := s.dirOf l
  let h := max f.hnear f.hfar
  let e := s.dirOf d
  s.setDir d { e with hnear := max e.hnear h, hfar := max e.hfar h }

/-- The freeze (R264): owners are recalled, halves the host holds are snooped, and every other line forwards. -/
def State.freeze (s : State) (m : Motion) : State :=
  let known := (s.dir.map Prod.fst).filter fun l => inFrame m.src (128 * l)
  let owned := known.filter fun l => (s.dirOf l).owner.isSome
  let hosted := known.filter fun l => (s.dirOf l).host0 ≠ .HI || (s.dirOf l).host1 ≠ .HI
  let s := owned.foldl (fun s l => if s.ownedAway l true then s.sendRecall l true else s.writeTransition l) s
  let bits := ((s.motion.map Motion.bits).getD m.bits)
  let mig := (owned ++ hosted).foldl NSet.put bits
  let s := hosted.foldl (fun s l => s.sendSnoops (s.snoopsFor l [0, 1] true)) s
  -- a line carries its horizons to the entry of D, its slice's floors standing for an entry that F lacks
  let there := ((s.dir.map Prod.fst).filter fun l => inFrame m.dst (128 * l)).map fun l => m.src / 128 + (l - m.dst / 128)
  let s := ((there.foldl NSet.put known).filter fun l => !mig.contains l).foldl
    (fun s l => s.carryHorizons l (m.dst / 128 + (l - m.src / 128))) s
  -- lines without an entry on either side carry them in the floors
  let s := (List.range 64).foldl (fun s i =>
    let f := (s.floors.find (sliceKey (m.src + 128 * i))).getD (0, 0)
    let k := sliceKey (m.dst + 128 * i)
    let g := (s.floors.find k).getD (0, 0)
    let h := max f.1 f.2
    { s with floors := s.floors.put k (max g.1 h, max g.2 h) }) s
  { s with motion := some { m with bits := bits, frozen := true, migrating := mig } }

/-- MOTION_ROUND (R262, R263): `errs` are the physical errors met while lines of the snapshot are read. A round whose
writes to D must wait for the host waits as a whole (R226, R260).
[DESIGN CHOICE: log entry 76] -/
def execMotionRound (errs : List (Nat × MemErr)) (s : State) : Result :=
  match s.motion with
  | none => .next s
  | some m =>
    if m.frozen then .next s
    else
      let hit := errs.filter fun e => e.1 < frameLines && (m.all || m.snap.contains (m.src / 128 + e.1))
      let s1 := hit.foldl (fun s e => s.touchLine (m.src / 128 + e.1) e.2 false) s
      if s1.mem.poison ≠ s.mem.poison then
        let slice := homeSlice (localOf m.src)
        .next (({ s1 with motion := none }.mcRecord (16 + slice / 16) 0x0204 .corrected slice (some m.src) none).mbDone mbAborted)
      else
        let dests := if m.all then s.knownLines m.dst else m.snap.map fun l => m.dst / 128 + (l - m.src / 128)
        match s.writesBlocked (dests.map fun l => (128 * l, 128)) with
        | some s => .next s
        | none =>
          let s2 := if m.all then s1.copyFrame m.src m.dst
            else m.snap.foldl (fun s l => s.copyLine m.src m.dst (l - m.src / 128)) s1
          let m2 := { m with rounds := m.rounds + 1 }
          .next (if m2.bits.length ≤ 64 ∨ m2.rounds = 8 then s2.freeze m2
            else { s2 with motion := some { m2 with all := false, snap := m2.bits, bits := [] } })

/-- MOTION_LINE_COPIED (R265): line `i` of the frame forwards from here on. `e` is what its reading meets.
[DESIGN CHOICE: log entry 76] -/
def execMotionLineCopied (i : Nat) (e : MemErr) (s : State) : Result :=
  match s.motion with
  | none => .next s
  | some m =>
    let l := m.src / 128 + i
    let d := s.dirOf l
    if !m.frozen || !m.migrating.contains l then .next s
    else if s.backDue l then .next s
    else if s.ownedAway l true then .next (s.sendRecall l true)
    else if d.host0 ≠ .HI ∨ d.host1 ≠ .HI then .next (s.sendSnoops (s.snoopsFor l [0, 1] true))
    else match s.writeBlocked (m.dst + 128 * i) 128 with
      | some s => .next s
      | none =>
        let s := ((s.touchLine l e false).copyLine m.src m.dst i).carryHorizons l (m.dst / 128 + i)
        .next { s with motion := some { m with migrating := NSet.del m.migrating l } }

/-- Watch entries for lines of a frame are struck (R237, R267). -/
def State.strikeFrame (s : State) (m : Motion) : State :=
  let strike (ctx : Nat) (e : WatchEntry) : WatchEntry :=
    if (ctx == m.ctx && e.obj == m.obj && e.frame == m.frame) || inFrame m.src (128 * e.line) then { e with state := .struck } else e
  let struck (t : Nat) (b : Body) : Body :=
    { b with crews := b.crews.mapVals fun _ C => { C with watch := C.watch.mapVals fun _ e => strike (s.teamCtx t) e } }
  { s with teams := s.teams.mapVals fun t T => { T with body := struck t T.body, shadow := T.shadow.map (struck t) } }

/-- Where an address lies after the motion. -/
def Motion.moved (m : Motion) (a : Nat) : Nat := if inFrame m.src a then m.dst + (a - m.src) else a
def Motion.movedLine (m : Motion) (l : Nat) : Nat := m.moved (128 * l) / 128

/-- A request on its way to F is performed at D (R264, R267).
[DESIGN CHOICE: log entry 76] -/
def Motion.redirect (m : Motion) : Msg → Msg
  | .fill die ctx obj off addr skip => .fill die ctx obj off (m.moved addr) skip
  | .read o line obj kind parts => .read o (m.movedLine line) obj kind parts
  | .write w addr data tag => .write w (m.moved addr) data tag
  | .back w line data leave => .back w (m.movedLine line) data leave
  | .atomic o line wider pdef parts => .atomic o (m.movedLine line) wider pdef parts
  | .dirty line dev core slot => .dirty (m.movedLine line) dev core slot
  | .stashFill t n addr => .stashFill t n (m.moved addr)
  | x => x

/-- MOTION_SWITCH (R267): the descriptor that the motion found names D, with FVER + 1; what F's homes would still forward
goes to D, and they free their entries.
[DESIGN CHOICE: log entry 76] -/
def execMotionSwitch (s : State) : Result :=
  match s.motion with
  | none => .next s
  | some m =>
    if !m.frozen || !m.migrating.isEmpty then .next s
    else match s.writesBlocked (linePieces 2 m.place 8) with
      | some s => .next s
      | none =>
        let fver := m.word.extractLsb' 45 16 + 1
        let word := 2 ^ 62 + fver.toNat * 2 ^ 45 + m.loc
        let imm := (s.objEntry m.ctx m.obj).imm
        let s := (s.performWrite (s.forwarded m.place) (leBytes 8 word) false).1
        let s := { s with
          motion := none
          msgs := s.msgs.mapVals fun _ x => m.redirect x
          hostWaits := s.hostWaits.map fun (w : Nat × Nat × Bool × Nat) => (m.movedLine w.1, w.2) }
        let s := s.strikeFrame m
        let s := ((s.dir.map Prod.fst).filter fun l => inFrame m.src (128 * l)).foldl State.forgetLine s
        let s := if imm then s.dropImmObject m.ctx m.obj else s
        .next (s.mbDone mbOk)

/-! ## Device reset and attestation (R351, R352) -/

/-- What a device reset leaves: memory, fabric time, firmware, fuses and routes; the rest is as at reset.
[DEDUCED: log entry 73; DESIGN CHOICE: log entry 3] -/
def State.rebooted (s : State) (dev : Nat) : State :=
  { State.reset with
    mem := s.mem, ftime := s.ftime, chipno := dev, routes := s.routes, fwA := s.fwA, fwB := s.fwB, fwRunB := s.fwRunB
    minSvn := s.minSvn, hostUp := s.hostUp, hostRate := s.hostRate, hostWidth := s.hostWidth, sideband := s.sideband
    answers := s.answers, agenda := s.agenda, next := s.next, freeCtr := s.freeCtr, upsets := s.upsets, outside := s.outside }

/-- DEVICE_RESET (R351): Jasper boots the marked bank, or the other one when the marked fails. An image whose SVN is below the
minimum never runs again. A device that holds in reset reports the byte 0xFF on the side-band port: the manual gives the
report no content.
[DEDUCED: log entry 73; DESIGN CHOICE: log entry 96] -/
def execDeviceReset (dev : Nat) (s : State) : Result :=
  if Config.domainDevices ≤ dev then .next s
  else
    let marked := s.fwMark.getD s.fwRunB
    let bank (b : Bool) : Firmware := if b then s.fwB else s.fwA
    let r := s.rebooted dev
    let ok (f : Firmware) : Bool := f.valid && Config.signatureOk f.image && decide (s.minSvn ≤ f.svn)
    .next (if ok (bank marked) then
        { r with fwRunB := marked, minSvn := if s.fwMark.isSome then max s.minSvn (bank marked).svn else s.minSvn }.logAdd 4 0 []
      else if ok (bank (!marked)) then { r with fwRunB := !marked }.logAdd 4 0 []
      else { r with held := true, sideband := r.sideband ++ [[0xFF]] })

/-- The bytes of every access table, block by block and master by master. -/
def State.tableBytes (s : State) : List Byte :=
  (List.range 6).flatMap fun b => (List.range 7).map fun m => (s.rightsOf b m).setWidth 8

/-- The measurement blocks (R352).
[DESIGN CHOICE: log entry 3] -/
def State.measurements (s : State) : List (List Byte) :=
  [Config.digest s.running.image, Config.digest s.spare.image, Config.digest s.tableBytes, leBytes 4 s.minSvn]

/-- SPDM_REQUEST (R352, R22): over MCTP on the side-band port, or over DOE on function 0 while the host link is up.
[DESIGN CHOICE: log entries 3 and 5] -/
def execSpdmRequest (req : List Byte) (s : State) : Result :=
  let answer := Config.spdmResponse req s.measurements
  .next (if !s.outside.doe then { s with sideband := s.sideband ++ [answer] }
    else if s.hostUp then s.tellMaster .host (.response answer) else s)

end Sys2Proof.Machine
end

