-- ==== Sys2Proof/Machine/Requests.lean ====
section
/-! DEFINITION. The request engine and the chain engine: reading and writing pieces line by line (R273, R287), copies
with their conversions (R285, R286, R290), chains (R283, R284, R366), and the counting of written bytes (R241). -/

namespace Sys2Proof.Machine

open Sys2Proof

/-! ## Pieces of a range -/

/-- A part of a range that lies in one line: its location, its length, and the capability of its first byte. -/
structure Piece where
  loc : Loc
  len : Nat
  cap : DWord
  deriving DecidableEq, Repr

/-- The R204 cause of one piece and the capability of the first byte that fails (R285). -/
def State.pieceCheck (s : State) (t : Nat) (cap : DWord) (n : Nat) (need : BitVec 4) : Except (BitVec 8 × DWord) Piece :=
  match s.check t cap n 1 need with
  | .ok l => .ok { loc := l, len := n, cap }
  | .error c =>
    let limit := if capObj cap = 0 then 65536 * s.stashBanks t else (s.objEntry (s.teamCtx t) (capObj cap)).length
    .error (c, if c = causeBounds then capWith cap (max (capOff cap) limit) else cap)

/-- The pieces of line parts of an object, in order. -/
def State.piecesOf (s : State) (t : Nat) (cap : DWord) (need : BitVec 4) :
    List (Nat × Nat) → Except (BitVec 8 × DWord) (List Piece)
  | [] => .ok []
  | (off, n) :: r => match s.pieceCheck t (capWith cap off) n need with
    | .error e => .error e
    | .ok p => match State.piecesOf s t cap need r with
      | .error e => .error e
      | .ok ps => .ok (p :: ps)

/-- The pieces of `n` bytes at an offset, which counts modulo 2^38.
[DEDUCED: log entry 46] -/
def State.pieces (s : State) (t : Nat) (cap : DWord) (off : Int) (n : Nat) (need : BitVec 4) :
    Except (BitVec 8 × DWord) (List Piece) :=
  s.piecesOf t cap need (linePieces (n / 128 + 2) (off % (2 ^ 38 : Int)).toNat n)

/-- Pieces of `n` bytes at a stash address that was checked with its record. -/
def stashPieces (a n : Nat) : List Piece :=
  (linePieces (n / 128 + 2) a n).map fun x => { loc := .stash x.1, len := x.2, cap := stashCap x.1 }

/-! ## Reading (R273) -/

/-- What an engine's read gives: the bytes, and the capability of the first byte of the lowest poisoned sector
(R321). -/
inductive EngRead where
  | ok (s : State) (b : Bytes) (bad : Option DWord)
  | wait (s : State)
  | fail (cause : BitVec 8) (cap : DWord)

/-- Reads one piece; stash lines that the engine's own record writes are not waited for. -/
def State.readPiece (s : State) (t : Nat) (mine : Nat → Bool) (p : Piece) : RangeRead :=
  match p.loc with
  | .mem a obj frame .. => match s.readPieces [(a, p.len)] with
    | .ok s b => .ok (s.countAccess (s.team t).core (s.teamCtx t) obj frame a) b
    | x => x
  | .view off => .ok (s.viewRead off p.len).1 ⟨(s.viewRead off p.len).2, List.replicate p.len false, List.replicate p.len false⟩
  | .stash off =>
    let take (s : State) : RangeRead :=
      if s.inDcorX t off p.len then
        let r := s.freeBytes p.len
        .ok r.2 ⟨r.1, List.replicate p.len true, List.replicate p.len false⟩
      else .ok s ((Mem.taken (s.team t).body.stash off p.len))
    if mine (off / 128) then take s
    else match s.touchStash t (off / 128) with
      | .ready s => take s
      | .wait s => .wait s
      | .fail c _ => .fail c

/-- The capability of the first byte of the first marked sector of a piece. -/
def Piece.marked (p : Piece) (marks : List Bool) : Option DWord :=
  (marks.findIdx? id).map fun i =>
    let o := capOff p.cap + i
    capWith p.cap (o - o % 32)

/-- The lower of two places. -/
def lowerCap : Option DWord → Option DWord → Option DWord
  | some a, some b => if capOff b < capOff a then some b else some a
  | some a, none => some a
  | none, b => b

/-- Reads pieces in order.
[DEDUCED: log entry 51] -/
def State.engineRead (s : State) (t : Nat) (mine : Nat → Bool) : List Piece → EngRead
  | [] => .ok s {} none
  | p :: r => match s.readPiece t mine p with
    | .wait s => .wait s
    | .fail c => .fail c p.cap
    | .ok s b => match State.engineRead s t mine r with
      | .ok s b' bad => .ok s (b.append b') (lowerCap (p.marked b.marks) bad)
      | x => x

/-- The lines that pieces ask of their homes, of those that may be read now (R273).
[DESIGN CHOICE: log entry 88] -/
def State.pieceLines (s : State) (ps : List Piece) : List Nat := ps.filterMap fun p => match p.loc with
  | .mem a .. =>
    if s.lostHome (s.forwarded a) || (s.readBlocked a p.len).isSome then none else some (s.forwarded a / 128)
  | _ => none

/-- The physical errors that an engine meets in the lines it reads, each line at its own home (R321, R335, R336).
[DESIGN CHOICE: log entry 88] -/
def State.meet (s : State) (errs : List (Nat × MemErr)) (lines : List Nat) : State :=
  errs.foldl (fun s x => if lines.contains x.1 then (s.readTransition x.1).touchLine x.1 x.2 false else s) s

/-! ## Writing (R226, R287) -/

/-- The covered bytes of one destination line as one write at its home for a core's engine: the state and g_all. The
core's copy of the line takes the bytes with the acknowledgement (R226). -/
def State.performTagged (s : State) (core line a : Nat) (data : List Byte) (tags : List Bool) : State × Nat :=
  let r := s.performBytes a data tags
  (r.1.ackCopy core line (a % 128) data tags, r.2.2)

/-- Whether a stash line in a window has an address in memory that its team does not own (R217). -/
def State.unowned (s : State) (t n : Nat) : Option Nat :=
  let T := s.team t
  match T.body.windowOf n with
  | some w => match s.windowAddr t w n with
    | some a => if (s.dirOf (a / 128)).owner = some { dev := s.chipno, core := T.core, slot := T.slot } then none else some a
    | none => none
  | none => none

/-- A write of an engine into one line of the stash, which is then present (R219) and, in a window, the team's (R217).
[DEDUCED: log entry 45] -/
def State.stashTagged (s : State) (t a : Nat) (data : List Byte) (tags : List Bool) : State :=
  let T := s.team t
  let s := match s.unowned t (a / 128) with
    | some g => s.ownerFill (g / 128) { dev := s.chipno, core := T.core, slot := T.slot }
    | none => s
  let s := (s.noteRace t a data.length).dirtyNotice t (a / 128)
  s.updBody t fun b =>
    { b with
      stash := b.stash.storeTagged 5 a data tags
      dirty := NSet.put b.dirty (a / 128)
      absent := NSet.del b.absent (a / 128) }

/-- Whether a destination piece must wait before anything is written; a DSTASH destination waits for no fill, but its team
comes to own a line of a window as any owner does (R217, R260). -/
def State.destWaits (s : State) (t : Nat) (whole : Bool) : List Piece → Option State
  | [] => none
  | p :: r =>
    match p.loc with
    | .mem a .. =>
      if s.lostHome (s.forwarded a) then State.destWaits s t whole r
      else match s.writeBlocked a p.len with
        | some s => some s
        | none => State.destWaits s t whole r
    | .view _ => State.destWaits s t whole r
    | .stash off =>
      if whole then
        match (s.unowned t (off / 128)).bind fun g => s.writeBlocked g 128 with
        | some s => some s
        | none => State.destWaits s t whole r
      else match s.touchStash t (off / 128) with
        | .wait s => some s
        | _ => State.destWaits s t whole r

/-- What the writes of a chunk left: the writes to count, bytes done at once, and the first line whose home cannot be
reached (R347). -/
structure Wrote where
  s : State
  /-- the core whose engine writes -/
  core : Nat
  later : List (Nat × Nat) := []
  now : Nat := 0
  lost : Option DWord := none

/-- Writes pieces in order; a line that fails is logged and leaves the others to be written (R347). -/
def Wrote.go (t : Nat) (w : Wrote) (data : List Byte) (tags : List Bool) : List Piece → Wrote
  | [] => w
  | p :: r =>
    let d := data.take p.len
    let g := tags.take p.len
    let w : Wrote := match p.loc with
      | .mem a obj frame _ _ pdef =>
        let f := w.s.forwarded a
        if w.s.lostHome f then
          { w with
            s := w.s.routeLost (devOf f) (f / 128 * 128)
            lost := w.lost.orElse fun _ => some (capWith p.cap (capOff p.cap - capOff p.cap % 128)) }
        else
          let x := (w.s.countAccess w.core (w.s.teamCtx t) obj frame a).performTagged w.core (a / 128) f d
            (if pdef then g.map fun _ => true else g)
          { w with s := x.1, later := w.later ++ [(x.2, p.len)] }
      | .stash off => { w with s := w.s.stashTagged t off d g, now := w.now + p.len }
      | .view _ => w
    Wrote.go t w (data.drop p.len) (tags.drop p.len) r

/-- Whether every write that a crew issued before an operation is acknowledged (R273). -/
def State.crewQuiet (s : State) (t c k : Nat) : Bool := s.msgs.all fun m => k ≤ m.1 || (match m.2 with
  | .write (.crew u d _ _ _) .. | .ack (.crew u d _ _ _) .. => u != t || d != c
  | .back (.window u d _) .. | .backAck (.window u d _) .. => u != t || d != c
  | .atomic o .. | .atomicReply o .. => o.team != t || o.crew != c
  | _ => true)

/-! ## Conversions of copies (R286) -/

/-- The bytes of a wide format's elements. -/
def elemsOf (fmt : Nat) : (fuel : Nat) → List Byte → List Nat
  | 0, _ => []
  | k + 1, bs => if bs.isEmpty then [] else leNat (bs.take (elemBytes fmt)) :: elemsOf fmt k (bs.drop (elemBytes fmt))

/-- The smaller and the larger of fractions. -/
def Frac.min (a b : Frac) : Frac := if b.lt a then b else a

/-- One group quantised to a record; a NaN or an infinity leaves every other field open (R8). Of the flags of R286 it
reports NV and SAT; that an element is inexact is not reported.
[DEDUCED: log entry 35; DESIGN CHOICE: log entry 90] -/
def State.quantGroup (s : State) (int8 : Bool) (fmt : Nat) (bs : List Byte) (tag : Bool) : State × List Byte × BitVec 8 :=
  let f := fmtCode fmt
  let xs := (elemsOf fmt 32 bs).map (f.read false)
  let bits := if int8 then 8 else 4
  let head : BitVec 8 := BitVec.ofBool tag ++ (0 : BitVec 6) ++ BitVec.ofBool int8
  if xs.any fun x => !x.isFinite then
    let r := s.freeBytes (1 + (if int8 then 32 else 16))
    (r.2, leBytes 2 f16.nan ++ r.1.take 1 ++ [head] ++ r.1.drop 1, flNV)
  else
    let vs := xs.map FVal.frac
    let lo := vs.foldl Frac.min Frac.zero
    let hi := vs.foldl Frac.max Frac.zero
    let u := (hi.sub lo).mul ⟨1, 2 ^ bits - 1⟩
    let big := Frac.lt ⟨65504, 1⟩ u
    let sc := if big then f16.maxFinite false else (f16.roundFrac ⟨.rup, false, true⟩ false u).bits
    let sc := if sc = 0 then f16.write (.fin false 1 0) else sc
    let inv := (f16.read false sc).frac.inv
    let z := (clampCode bits ((lo.neg.mul inv).round .rne).1).1
    let qs := vs.map fun v => clampCode bits (((v.mul inv).round .rne).1 + z)
    (s, Narrow.toBytes int8 { scale := sc, zp := z, flags := head, codes := qs.map Prod.fst },
      if big || qs.any Prod.snd then flSAT else 0)

/-- Whether a record is of group 32 and of the format that is expected, and not malformed (R122, R147). -/
def Narrow.good (int8 : Bool) (r : Narrow) : Bool := !r.malformed && r.flags.extractLsb' 0 3 == (0 : BitVec 2) ++ BitVec.ofBool int8

/-- One record expanded to a wide format: the value exact in FP32, then rounded to nearest even.
[DEDUCED: log entry 52] -/
def expandRecord (int8 : Bool) (fmt : Nat) (bs : List Byte) : List Byte × BitVec 8 :=
  let r := Narrow.ofBytes int8 bs
  let f := fmtCode fmt
  if r.good int8 then
    let es := r.codes.map fun q => f.roundFrac Attr.engine (r.zeroNeg q) (r.value q)
    (es.flatMap fun e => leBytes (elemBytes fmt) e.bits, es.foldl (fun m e => m ||| e.flags) 0)
  else ((List.replicate 32 (leBytes (elemBytes fmt) f.nan)).flatten, flNV)

/-- Converts groups in turn: bytes, a tag each, and flags.
[DEDUCED: log entry 52] -/
def State.convertGroups (s : State) (r : CopyRec) : (fuel : Nat) → Bytes → State × List Byte × List Bool × BitVec 8
  | 0, _ => (s, [], [], 0)
  | k + 1, b =>
    if b.data.isEmpty then (s, [], [], 0)
    else
      let n := groupBytes r.sfmt
      let bs := b.data.take n
      let x : State × List Byte × BitVec 8 :=
        if isRecFmt r.dfmt then s.quantGroup (r.dfmt == 11) r.sfmt bs ((b.tags.take n).any id)
        else
          let y := expandRecord (r.sfmt == 11) r.dfmt bs
          (s, y.1, y.2)
      let y := State.convertGroups x.1 r k ⟨b.data.drop n, b.tags.drop n, []⟩
      (y.1, x.2.1 ++ y.2.1, List.replicate x.2.1.length true ++ y.2.2.1, x.2.2 ||| y.2.2.2)

/-! ## Chunks of a copy (R287) -/

/-- The source bytes that give output bytes `b` to `e` of a row: the offset in the row, how many, and the output bytes
before `b` that they give too. -/
def CopyRec.sourceOf (r : CopyRec) (b e : Nat) : Nat × Nat × Nat :=
  if r.conv then
    let go := groupBytes r.dfmt
    let gi := groupBytes r.sfmt
    (b / go * gi, ((e + go - 1) / go - b / go) * gi, b % go)
  else (b, e - b, 0)

/-- Whether an offset of the destination's object is a byte of the record's own source (R285).
[DEDUCED: log entry 50] -/
def CopyRec.ownSource (r : CopyRec) (off : Nat) : Bool :=
  (if r.dstash then capObj r.src == 0 else capObj r.src == capObj r.dst) &&
    (List.range r.zcnt).any fun z => (List.range r.ycnt).any fun y =>
      (((off : Int) - r.srcRow y z) % (2 ^ 38 : Int)) < r.xlen

/-- Bytes of the destination that overlap the source receive undefined values (R8, R285).
[DEDUCED: log entry 50] -/
def State.blurOwn (s : State) (own : Nat → Bool) : List Nat → List Byte → List Bool → State × List Byte × List Bool
  | o :: os, b :: bs, t :: ts =>
    let x : State × Byte × Bool := if own o then
        let r := s.freeBytes 1
        (r.2, r.1.headD 0, true)
      else (s, b, t)
    let y := State.blurOwn x.1 own os bs ts
    (y.1, x.2.1 :: y.2.1, x.2.2 :: y.2.2)
  | _, bs, ts => (s, bs, ts)

/-- The offsets of a row's output bytes in the destination's object.
[DEDUCED: log entry 50] -/
def outOffsets (base : Int) (b e : Nat) : List Nat := (List.range' b (e - b)).map fun (i : Nat) => ((base + i) % (2 ^ 38 : Int)).toNat

/-- One row of a chunk, checked: the source pieces, how many output bytes to leave out, how many to write, their
offsets, and the destination pieces. -/
structure RowPart where
  src : List Piece
  skip : Nat
  len : Nat
  offs : List Nat
  dst : List Piece

/-- The rows of a chunk pass R204, source before destination. -/
def State.chunkRows (s : State) (t : Nat) (r : CopyRec) (c : Nat) : Except (BitVec 8 × DWord) (List RowPart) :=
  let rows := r.chunk c
  let srcs : Except (BitVec 8 × DWord) (List (List Piece)) := rows.mapM fun x =>
    let so := r.sourceOf x.2.2.1 x.2.2.2
    s.pieces t r.src (x.1 + so.1) so.2.1 needR
  match srcs with
  | .error e => .error e
  | .ok srcs =>
    let dsts : Except (BitVec 8 × DWord) (List (List Piece)) := rows.mapM fun x =>
      if r.dstash then .ok (stashPieces (x.2.1 + x.2.2.1).toNat (x.2.2.2 - x.2.2.1))
      else s.pieces t r.dst (x.2.1 + x.2.2.1) (x.2.2.2 - x.2.2.1) needW
    match dsts with
    | .error e => .error e
    | .ok dsts =>
      .ok ((rows.zip (srcs.zip dsts)).map fun x =>
        { src := x.2.1, skip := (r.sourceOf x.1.2.2.1 x.1.2.2.2).2.2, len := x.1.2.2.2 - x.1.2.2.1
          offs := outOffsets x.1.2.1 x.1.2.2.1 x.1.2.2.2, dst := x.2.2 })

/-- What one chunk did. -/
inductive Ran where
  | done (w : Wrote) (flags : BitVec 8)
  | wait (s : State)
  | fail (s : State) (code : Nat) (faddr : DWord)

/-- The output of the rows of a chunk, read and converted: bytes and tags. -/
def State.chunkData (s : State) (t : Nat) (r : CopyRec) (rtag : Bool) : List RowPart →
    Except (State × Option (Nat × DWord)) (State × List (List Byte × List Bool) × BitVec 8 × Option DWord)
  | [] => .ok (s, [], 0, none)
  | x :: rest => match s.engineRead t r.coversLine x.src with
    | .wait s => .error (s, none)
    | .fail c cap => .error (s, some (fstateOf c, cap))
    | .ok s b bad =>
      let g : State × List Byte × List Bool × BitVec 8 :=
        if r.conv then s.convertGroups r (b.data.length / groupBytes r.sfmt + 1) b else (s, b.data, b.tags, 0)
      let o := g.1.blurOwn r.ownSource x.offs ((g.2.1.drop x.skip).take x.len)
        (((g.2.2.1.drop x.skip).take x.len).map fun y => y || rtag)
      match State.chunkData o.1 t r rtag rest with
      | .error e => .error e
      | .ok (s, ds, fl, bad') => .ok (s, (o.2.1, o.2.2) :: ds, g.2.2.2 ||| fl, lowerCap bad bad')

/-- One chunk is checked, read, converted and written (R287, R321, R347).
[DEDUCED: log entries 46 and 49] -/
def State.runChunk (s : State) (t core : Nat) (r : CopyRec) (rtag : Bool) (c : Nat) (errs : List (Nat × MemErr)) : Ran :=
  match s.chunkRows t r c with
  | .error e => .fail s (fstateOf e.1) e.2
  | .ok rows => match (s.meet errs (s.pieceLines (rows.flatMap RowPart.src))).chunkData t r rtag rows with
    | .error (s, none) => .wait s
    | .error (s, some e) => .fail s e.1 e.2
    | .ok (s, ds, fl, bad) =>
      match bad with
      | some cap => .fail s fsUncorr cap
      | none =>
        let dst := rows.flatMap RowPart.dst
        match s.destWaits t r.dstash dst with
        | some s => .wait s
        | none => .done (Wrote.go t { s, core } (ds.flatMap Prod.fst) (ds.flatMap Prod.snd) dst) fl

/-! ## The progress of a list -/

def State.setJob (s : State) (k : Nat) (j : Job) : State := { s with jobs := s.jobs.put k j }
def State.endJob (s : State) (k : Nat) : State := { s with jobs := s.jobs.del k }

/-- Whether every chunk of an output of `n` bytes has run. -/
def chunksDone (chunk n : Nat) : Bool := n ≤ 4096 * chunk

/-- Whether 8 chunks of an operation are in flight: their writes are not counted yet (R283, R287).
[DEDUCED: log entry 49] -/
def chunksFull (uncounted : List (Nat × Nat × Nat)) : Bool := 8 ≤ ((uncounted.map Prod.fst).eraseDups).length

/-- The record of a list that the engine is at, with its tag: one without bytes past the last. -/
def CopyRun.record (j : CopyRun) : List Byte × Bool := (j.recs.getD []).getD j.idx ([], false)

def State.setCopy (s : State) (k : Nat) (j : CopyRun) : State := s.setJob k (.copy j)

/-- A record of a list is complete when its bytes are counted: RPT is written under CONV, and the next record begins
(R285, R287). -/
def State.listSettle (s : State) (k : Nat) (j : CopyRun) : State :=
  let r := copyRec j.record.1
  if j.started && j.short.isNone && j.uncounted.isEmpty && chunksDone j.chunk r.total then
    let s := if r.conv then s.report j.team (j.addr + 64 * j.idx + 0x30) (leBytes 4 (j.flags.toNat % 64)) else s
    if r.last then s.endJob k
    else s.setCopy k { j with idx := j.idx + 1, chunk := 0, flags := 0, started := false }
  else s.setCopy k j

/-- A record begins: its stash destination lines cease to be present (R219, R287).
[DEDUCED: log entry 51] -/
def State.beginRecord (s : State) (t : Nat) (r : CopyRec) : State :=
  if r.dstash then
    let lines := (List.range (512 * s.stashBanks t)).filter r.coversLine
    s.updBody t fun b => { b with absent := lines.foldl NSet.put b.absent, dirty := lines.foldl NSet.del b.dirty }
  else s

/-- A list stops with BADRECORD on an object, once the object's line is present (R219, R287). -/
def State.listStop (s : State) (k : Nat) (j : CopyRun) (bar : Nat) : State :=
  match s.barAbsent j.team bar with
  | some s => s
  | none => (s.reportFault j.team bar fsBadRecord 0 j.idx 0).endJob k

/-- The records of a list, read at once when all their lines are present (R219, R390): the engine does not wait for the
list's own copies. -/
inductive Listed where
  | got (s : State) (recs : List (List Byte × Bool))
  | wait (s : State)
  | fail (s : State) (idx : Nat) (cause : BitVec 8) (cap : DWord)

def State.readList (s : State) (t base : Nat) : (fuel a : Nat) → Listed
  | 0, _ => .got s []
  | n + 1, a =>
    if 65536 * s.stashBanks t < a + 64 then .got s []
    else
      match s.touchStash t (a / 128) with
      | .fail c e => .fail s ((a - base) / 64) c e
      | .wait s => .wait s
      | .ready s =>
        let r := s.stashBytes t a 64
        if (copyRec r.1).last then .got s [r]
        else match State.readList s t base n (a + 64) with
          | .got s l => .got s (r :: l)
          | x => x

/-- The engine reads a list (R390). A line whose fill fails its check stops the list with that report on B0.
[DEDUCED: log entry 49] -/
def State.openList (s : State) (k : Nat) (j : CopyRun) : State :=
  match ({ s with jobs := s.jobs.del k }).readList j.team j.addr 256 j.addr with
  | .got s l => s.setCopy k { j with recs := some (l.map fun r => (r.1, r.2 || j.tag)) }
  | .wait s => s.setCopy k j
  | .fail s idx c cap => match s.barAbsent j.team j.b0 with
    | some s => s.setCopy k j
    | none => s.reportFault j.team j.b0 (fstateOf c) 0 idx cap

/-- One chunk of a record. -/
def State.copyChunk (s : State) (k : Nat) (errs : List (Nat × MemErr)) (j : CopyRun) (r : CopyRec) : State :=
  match s.runChunk j.team j.core r j.record.2 j.chunk errs with
  | .wait s => s
  | .fail s code faddr =>
    s.setCopy k { j with chunk := j.chunk + 1, short := j.short.orElse fun _ => some (code, faddr, j.chunk) }
  | .done w fl =>
    let short := match j.short, w.lost with
      | none, some cap => some (fsUncorr, cap, j.chunk)
      | x, _ => x
    (w.s.count j.team r.bar w.now).listSettle k
      { j with
        chunk := j.chunk + 1, uncounted := j.uncounted ++ w.later.map fun x => (j.chunk, x), flags := j.flags ||| fl
        short }

/-- The next thing a list does: it is read, a record begins, or a chunk runs. -/
def State.copyStep (k : Nat) (errs : List (Nat × MemErr)) (j : CopyRun) (s : State) : State :=
  let banks := s.stashBanks j.team
  let r := copyRec j.record.1
  match j.recs with
  | none => s.openList k j
  | some recs =>
    if recs.length ≤ j.idx || !recordOk banks r.bar 16 then s.listStop k j j.b0
    else match s.barAbsent j.team r.bar with
      | some s => s
      | none =>
        if !r.ok banks then s.listStop k j r.bar
        else if !j.started then (s.beginRecord j.team r).setCopy k { j with started := true }
        else if chunksDone j.chunk r.total then s.listSettle k j
        else if chunksFull j.uncounted || j.short.any (fun f => f.2.2 + 8 ≤ j.chunk) then s
        else s.copyChunk k errs j r

/-- COPY_CHUNK (R287): after a fault, one of the up to 8 chunks that were in flight with it (R290).
[DESIGN CHOICE: log entry 9] -/
def execCopyChunk (k : Nat) (errs : List (Nat × MemErr)) (s : State) : Result :=
  match s.jobs.find k with
  | some (.copy j) => .next (if s.crewQuiet j.team j.crew k then s.bothBodies j.team k (State.copyStep k errs j) else s)
  | _ => .next s

/-! ## Chains (R283, R284, R366) -/

/-- A value of a stream converted exactly to FP32 (R284). -/
def chainSource (fmt bits : Nat) : FRes := f32.convert ⟨.rne, false, true⟩ ((fmtCode fmt).read false bits)

/-- One op word on a working value. -/
def chainOp (o : Nat) (w x : Nat) : FRes :=
  let a : Attr := ⟨RMode.ofBits (BitVec.ofNat 2 (bitsOf o 24 2)), bitsOf o 23 1 == 1, true⟩
  let u := f32.read a.flush w
  let v := f32.read a.flush x
  -- a subnormal source is read as a zero of its sign under flush (R137)
  let flushed (w : Nat) : Nat := if a.flush && w % 2 ^ 31 < 2 ^ 23 then w / 2 ^ 31 * 2 ^ 31 else w
  match bitsOf o 28 4 with
  | 0 => f32.add a u v
  | 1 => f32.add a u v.neg
  | 2 => f32.add a v u.neg
  | 3 => f32.mul a u v
  | 4 => f32.pick false u v
  | 5 => f32.pick true u v
  | 6 => ⟨flushed w % 2 ^ 31, 0⟩
  | _ => ⟨if w < 2 ^ 31 then flushed w + 2 ^ 31 else flushed w - 2 ^ 31, 0⟩

/-- The op words on an element of stream 0 and one of stream 1: the working value and the flags. -/
def chainOps (e0 e1 : FRes) : List Nat → FRes → FRes
  | [], w => w
  | o :: r, w =>
    let x : FRes := match bitsOf o 26 2 with
      | 0 => e0
      | 1 => e1
      | _ => chainSource 5 (bitsOf o 0 16)
    let y := chainOp o w.bits x.bits
    let unary := 6 ≤ bitsOf o 28 4
    chainOps e0 e1 r ⟨y.bits, w.flags ||| y.flags ||| (if unary then 0 else x.flags)⟩

/-- One output element. -/
def ChainBlock.element (b : ChainBlock) (e0 e1 : Nat) : FRes :=
  let w := chainOps (chainSource b.s0 e0) (chainSource b.s1 e1) b.ops (chainSource b.s0 e0)
  let r := (fmtCode b.df).convert ⟨b.mode, b.flush, b.f8sat⟩ (f32.read b.flush w.bits)
  ⟨r.bits, w.flags ||| r.flags⟩

/-- Output bytes of a chain. -/
def ChainBlock.total (b : ChainBlock) : Nat := b.count * elemBytes b.df

/-- Whether an offset of the destination's object overlaps a source in a way that leaves it undefined (R366).
[DEDUCED: log entries 50 and 54] -/
def ChainBlock.ownSource (b : ChainBlock) (off : Nat) : Bool :=
  let inside (cap : DWord) (n : Nat) : Bool :=
    capObj cap == capObj b.dst && capOff cap ≤ off && off < capOff cap + n
  let same := capObj b.src0 == capObj b.dst && capOff b.src0 == capOff b.dst && elemBytes b.s0 == elemBytes b.df
  (!same && inside b.src0 (b.count * elemBytes b.s0)) || (b.ops.any opSel1 && inside b.src1 (b.count * elemBytes b.s1))

/-- The tag of each element of a stream. -/
def elemTags (size : Nat) : (fuel : Nat) → List Bool → List Bool
  | 0, _ => []
  | k + 1, ts => if ts.isEmpty then [] else (ts.take size).any id :: elemTags size k (ts.drop size)

/-- One chunk of a chain is checked, read, computed and written.
[DEDUCED: log entry 54] -/
def State.runChain (s : State) (t core : Nat) (b : ChainBlock) (btag : Bool) (c : Nat) (errs : List (Nat × MemErr)) : Ran :=
  let z := elemBytes b.df
  let e0 := 4096 / z * c
  let n := min (4096 / z) (b.count - e0)
  let two := b.ops.any opSel1
  let src (cap : DWord) (fmt : Nat) : Except (BitVec 8 × DWord) (List Piece) :=
    s.pieces t cap (capOff cap + e0 * elemBytes fmt) (n * elemBytes fmt) needR
  match src b.src0 b.s0, (if two then src b.src1 b.s1 else .ok []), s.pieces t b.dst (capOff b.dst + e0 * z) (n * z) needW with
  | .error e, _, _ => .fail s (fstateOf e.1) 0
  | _, .error e, _ => .fail s (fstateOf e.1) 0
  | _, _, .error e => .fail s (fstateOf e.1) 0
  | .ok p0, .ok p1, .ok pd =>
    match (s.meet errs (s.pieceLines (p0 ++ p1))).engineRead t (fun _ => false) (p0 ++ p1) with
    | .wait s => .wait s
    | .fail c _ => .fail s (fstateOf c) 0
    | .ok s _ (some _) => .fail s fsUncorr 0
    | .ok s x none =>
      let m := n * elemBytes b.s0
      let a0 := elemsOf b.s0 n (x.data.take m)
      let a1 := if two then elemsOf b.s1 n (x.data.drop m) else List.replicate n 0
      let t0 := elemTags (elemBytes b.s0) n (x.tags.take m)
      let t1 := if two then elemTags (elemBytes b.s1) n (x.tags.drop m) else List.replicate n false
      let out := (a0.zip a1).map fun y => b.element y.1 y.2
      let narrow := b.s0 ≥ 8 || b.df ≥ 8 || (two && b.s1 ≥ 8)
      let tags := (t0.zip t1).flatMap fun y => List.replicate z (y.1 || y.2 || btag || narrow)
      let o := s.blurOwn b.ownSource (outOffsets (capOff b.dst) (e0 * z) (e0 * z + n * z)) (out.flatMap fun r => leBytes z r.bits) tags
      match o.1.destWaits t false pd with
      | some s => .wait s
      | none => .done (Wrote.go t { s := o.1, core } o.2.1 o.2.2 pd) (out.foldl (fun f r => f ||| r.flags) 0)

/-- A chain is complete when its bytes are counted: RPT is written (R283).
[DEDUCED: log entry 54] -/
def State.chainSettle (s : State) (k : Nat) : State :=
  match s.jobs.find k with
  | some (.chain t _ _ addr bytes _ chunk [] flags none) =>
    if chunksDone chunk (chainBlock bytes).total then
      (s.report t (addr + 0x44) (leBytes 4 (flags.toNat % 64))).endJob k
    else s
  | _ => s

/-- The next chunk of a chain. -/
def State.chainStep (k : Nat) (errs : List (Nat × MemErr)) (t c core addr : Nat) (bytes : List Byte) (tag : Bool)
    (chunk : Nat) (uncounted : List (Nat × Nat × Nat)) (flags : BitVec 8) (short : Option (Nat × DWord × Nat))
    (s : State) : State :=
  let b := chainBlock bytes
  match s.barAbsent t b.bar with
  | some s => s
  | none =>
    if !b.ok then (s.reportFault t b.bar fsBadRecord 0 0 0).endJob k
    else if chunksDone chunk b.total then s.chainSettle k
    else if chunksFull uncounted || short.any (fun f => f.2.2 + 8 ≤ chunk) then s
    else match s.runChain t core b tag chunk errs with
      | .wait s => s
      | .fail s code faddr =>
        s.setJob k (.chain t c core addr bytes tag (chunk + 1) uncounted flags
          (short.orElse fun _ => some (code, faddr, chunk)))
      | .done w fl =>
        let short := match short, w.lost with
          | none, some _ => some (fsUncorr, 0, chunk)
          | x, _ => x
        ((w.s.count t b.bar w.now).setJob k (.chain t c core addr bytes tag (chunk + 1)
          (uncounted ++ w.later.map fun x => (chunk, x)) (flags ||| fl) short)).chainSettle k

/-- CHAIN_CHUNK (R366). -/
def execChainChunk (k : Nat) (errs : List (Nat × MemErr)) (s : State) : Result :=
  match s.jobs.find k with
  | some (.chain t c core addr bytes tag chunk uncounted flags short) =>
    .next (if s.crewQuiet t c k then
      s.bothBodies t k (State.chainStep k errs t c core addr bytes tag chunk uncounted flags short) else s)
  | _ => .next s

/-! ## Counting (R241) -/

/-- The first write whose g_all FTIME has reached, and the others: its chunk or its rank, its g_all and its bytes. -/
def takePassed (now : Nat) : List (Nat × Nat × Nat) → Option ((Nat × Nat) × List (Nat × Nat × Nat))
  | [] => none
  | (i, g, n) :: r => if g ≤ now then some ((i, n), r) else (takePassed now r).map fun x => (x.1, (i, g, n) :: x.2)

/-- The fault of a stopped operation is reported once its other writes are counted (R289, R290).
[DEDUCED: log entry 46; DESIGN CHOICE: log entry 48] -/
def State.copyReport (s : State) (k : Nat) (j : CopyRun) (f : Nat × DWord × Nat) : State :=
  ((s.report j.team (j.addr + 64 * j.idx + 0x38) (leBytes 8 f.2.1.toNat)).reportFault j.team (copyRec j.record.1).bar f.1
    (4096 * f.2.2) j.idx f.2.1).endJob k

/-- A list counts a write that has passed, or reports its fault. -/
def State.copyCount (k : Nat) (j : CopyRun) (s : State) : State :=
  let bar := (copyRec j.record.1).bar
  match s.barAbsent j.team bar with
  | some s => s
  | none => match takePassed s.ftime j.uncounted with
    | some (n, rest) => (s.count j.team bar n.2).listSettle k { j with uncounted := rest }
    | none => match j.uncounted, j.short with
      | [], some f => s.copyReport k j f
      | _, _ => s

/-- A chain counts a write that has passed, or reports its fault. -/
def State.chainCount (k t c core addr : Nat) (bytes : List Byte) (tag : Bool) (chunk : Nat)
    (uncounted : List (Nat × Nat × Nat)) (flags : BitVec 8) (short : Option (Nat × DWord × Nat)) (s : State) : State :=
  let bar := (chainBlock bytes).bar
  match s.barAbsent t bar with
  | some s => s
  | none => match takePassed s.ftime uncounted with
    | some (n, rest) =>
      ((s.count t bar n.2).setJob k (.chain t c core addr bytes tag chunk rest flags short)).chainSettle k
    | none => match uncounted, short with
      | [], some f => (s.reportFault t bar f.1 (4096 * f.2.2) 0 0).endJob k
      | _, _ => s

/-- COPY_COUNT (R241): of a list, a chain, a collective, or a report that awaited its object's line.
[DEDUCED: log entry 49] -/
def execCopyCount (k : Nat) (s : State) : Result :=
  match s.jobs.find k with
  | some (.copy j) => .next (s.bothBodies j.team k (State.copyCount k j))
  | some (.chain t c core addr bytes tag chunk uncounted flags short) =>
    .next (s.bothBodies t k (State.chainCount k t c core addr bytes tag chunk uncounted flags short))
  | some (.coll j) =>
    match takePassed s.ftime j.uncounted with
    | some ((i, n), rest) =>
      let s1 := s.setJob k (.coll { j with uncounted := rest })
      match j.ranks.find? fun r => r.remote.isNone && rankOf j.members r.dev r.core == i with
      | some r => match s.barAbsent r.team r.bar with
        | some s => .next s
        | none => .next (s1.bothBodies r.team r.issued fun s => s.count r.team r.bar n)
      | none => .next s1
    | none => .next s
  | some (.notice t bar code bytes seq) =>
    .next (s.bothBodies t seq fun s => match s.barAbsent t bar with
      | some s => s
      | none => (if code = 0 then s.count t bar bytes else s.reportFault t bar code 0 0 0).endJob k)
  | _ => .next s

end Sys2Proof.Machine
end

