-- ==== Sys2Proof/Machine/Matrix.lean ====
section
/-! DEFINITION. Completions of the matrix array: MMA (R149, R150, R275-R278, R281), DCOR (R120-R125) and the loading of
weights (R279, R280, R426). -/

namespace Sys2Proof.Machine

open Sys2Proof

/-! ## The block of an MMA (R276, R277) -/

/-- Whether a format code is a float, and whether it is a narrow record. -/
def floatFmt (c : Nat) : Bool := 4 ≤ c && c ≤ 9
def narrowFmt (c : Nat) : Bool := c == 10 || c == 11

/-- Whether A and B form a pair of R276. -/
def pairOk (a b : Nat) : Bool :=
  if a = 6 ∨ a = 7 ∨ b = 6 ∨ b = 7 then a == b
  else if narrowFmt a && narrowFmt b then a == b
  else if narrowFmt a then b == 4 || b == 5 || b == 8 || b == 9
  else if narrowFmt b then a == 4 || a == 5 || a == 8 || a == 9
  else if a ≤ 5 then a == b
  else b == 8 || b == 9

/-- Registers of each lane that an operand of `rows` rows takes (R277). -/
def locRegCount (rows w e : Nat) : Nat := rowRegs w e * (if 32 < rows then 2 else 1)

/-- Whether the fields of an operand in registers are field values that R57 allows: up to 62, and pairs in even fields for
.d, the last pair being 62:63 (R277). -/
def fieldsOk (field count fmt : Nat) : Bool :=
  if fmt = 7 then field % 2 == 0 && field + count ≤ 64 else field + count ≤ 63

/-- Whether a location holds an operand: registers that field values reach within the span of each live lane, or a region
of the tensor operand buffer. -/
def State.locOk (s : State) (t c : Nat) (bases : AMap Nat) (loc fmt rows w : Nat) : Bool :=
  locClean loc &&
  (if locRegs loc then
    !narrowFmt fmt && fieldsOk (locField loc) (locRegCount rows w (elemBytes fmt)) fmt
      && (s.crew t c).lanes.all fun x => !x.2.live
        || (locLaneFields loc rows w (elemBytes fmt) x.1).all fun f => (bases.find x.1).getD 0 + f < s.spanOf t
  else s.tensorBanks t != 0 && locOffset loc + tensorBytes fmt rows w ≤ 65536 * s.tensorBanks t)

/-- The block meets R275 to R277.
[DEDUCED: log entry 55] -/
def State.mmaOk (s : State) (m : MatOp) (b : MmaBlock) : Bool :=
  let t := m.team
  b.clean && shapeOk b.m && shapeOk b.n && shapeOk b.k && 4 ≤ b.afmt && b.afmt ≤ 11
    && (if b.afmt = 7 then b.cfmt == 7 else b.cfmt == 6)
    && (!narrowFmt b.afmt || b.k % 32 == 0)
    && (b.dfmt == 0 || b.dfmt == 4 || b.dfmt == 5 || b.dfmt == 8 || b.dfmt == 9)
    && s.locOk t m.crew m.bases b.aloc b.afmt b.m b.k && s.locOk t m.crew m.bases b.cloc b.cfmt b.m b.n
    && (b.dfmt == 0 || s.locOk t m.crew m.bases b.dloc b.dfmt b.m b.n)

/-- Whether the weight descriptor agrees with the block (R278).
[DEDUCED: log entry 55] -/
def WDesc.agrees (w : WDesc) (b : MmaBlock) : Bool :=
  w.k == b.k && w.n == b.n && pairOk b.afmt w.fmt.toNat && (!narrowFmt w.fmt.toNat || b.k % 32 == 0)

/-! ## Operands -/

/-- Register `g` of a lane's row group as the operation sees it: zero where the lane holds no live fibre (R277). -/
def State.matReg (s : State) (m : MatOp) (lane field : Nat) : Reg :=
  let L := s.lane m.team m.crew lane
  if L.live then L.reg ((m.bases.find lane).getD 0 + field) else Reg.zero

/-- The bytes of row `i` of an operand in registers. -/
def State.regRow (s : State) (m : MatOp) (loc w e i : Nat) : List Byte :=
  let per := rowRegs w e
  (List.range per).flatMap fun g => leBytes 4 (s.matReg m (i % 32) (locField loc + i / 32 * per + g)).val.toNat

/-- The bytes of row `i` of an operand. -/
def State.matRow (s : State) (m : MatOp) (loc fmt rows w i : Nat) : List Byte :=
  if locRegs loc then s.regRow m loc w (elemBytes fmt) i
  else
    let n := tensorBytes fmt rows w / rows
    (s.team m.team).body.tensor.bytes (locOffset loc + i * n) n

/-- The OR of the tags of an operand.
[DEDUCED: log entry 55] -/
def State.matTag (s : State) (m : MatOp) (loc fmt rows w : Nat) : Bool :=
  if locRegs loc then
    (List.range 32).any fun l => (locLaneFields loc rows w (elemBytes fmt) l).any fun f => (s.matReg m l f).tag
  else (s.team m.team).body.tensor.tagOf (locOffset loc) (tensorBytes fmt rows w)

/-- Whether an operand holds a poisoned sector, or a register of a poisoned tile (R322, R334).
[DEDUCED: log entry 56] -/
def State.matBad (s : State) (m : MatOp) (loc fmt rows w : Nat) : Bool :=
  if locRegs loc then
    (s.crew m.team m.crew).lanes.any fun x => x.2.live && (locLaneFields loc rows w (elemBytes fmt) x.1).any fun f =>
      x.2.spoilt.contains ((m.bases.find x.1).getD 0 + f)
  else (s.team m.team).body.tensor.poisonOf (locOffset loc) (tensorBytes fmt rows w)

/-- The records of a row or a column.
[DEDUCED: log entry 52] -/
def recordsOf (int8 : Bool) : (fuel : Nat) → List Byte → List Narrow
  | 0, _ => []
  | k + 1, bs => if bs.isEmpty then [] else Narrow.ofBytes int8 (bs.take (recordBytes int8 32)) :: recordsOf int8 k (bs.drop (recordBytes int8 32))

/-- A row of A or a column of B as the array sees it: for each element its code or pattern, with its record when it is
narrow. -/
structure Line where
  codes : List Nat
  recs : List Narrow
  /-- the elements that 2:4 pruning left out (R280) -/
  pruned : List Bool
  deriving DecidableEq, Repr

/-- A dense row or column of a format. -/
def denseLine (fmt k : Nat) (bs : List Byte) : Line :=
  if narrowFmt fmt then
    let rs := recordsOf (fmt == 11) (k / 32 + 1) bs
    ⟨rs.flatMap Narrow.codes, rs, []⟩
  else ⟨elemsOf fmt k bs, [], []⟩

/-- The nibbles of mask bytes, the low one first. -/
def nibbles (bs : List Byte) : List Nat := bs.flatMap fun b => [b.toNat % 16, b.toNat / 16]

/-- Spreads kept elements over their groups of four by the mask: each element, or none where it was pruned. -/
def spread : List Nat → List Nat → List (Option Nat)
  | x :: y :: r, m :: ms =>
    ((List.range 4).map fun i => if i = m % 4 then some x else if i = m / 4 then some y else none) ++ spread r ms
  | _, _ => []

/-- One column of B (R280). -/
def columnLine (d : WDesc) (bs : List Byte) : Line :=
  let fmt := d.fmt.toNat
  if d.sp24 then
    let l := denseLine fmt (d.k / 2) (bs.take (bs.length - d.k / 8))
    let es := spread l.codes (nibbles (bs.drop (bs.length - d.k / 8)))
    ⟨es.map fun e => e.getD 0, l.recs, es.map Option.isNone⟩
  else denseLine fmt d.k bs

/-- The record of element `i`: a sparse column has one record for all. -/
def Line.recOf (l : Line) (i : Nat) : Option Narrow :=
  if l.pruned.isEmpty then l.recs[i / 32]? else l.recs.head?

/-- Element `i` of a line as a value of a float format: a record's element expanded with RNE and saturation (R150), a
pruned one +0. The flags of that rounding are not reported.
[DESIGN CHOICE: log entry 90] -/
def Line.value (fmt target : Nat) (l : Line) (i : Nat) : FVal :=
  if l.pruned.getD i false then .fin false 0 0
  else if narrowFmt fmt then
    match l.recOf i with
    | some r =>
      let f := fmtCode target
      let q := l.codes.getD i 0
      if r.good (fmt == 11) then f.read false (f.roundSat (r.zeroNeg q) (r.value q)) else .nan true
    | none => .nan true
  else (fmtCode fmt).read false (l.codes.getD i 0)

/-! ## Accumulation (R149, R150) -/

/-- An exact sum of products: its value, or an infinity or a NaN, and whether it was invalid. -/
structure BlockSum where
  v : FVal
  x : Frac
  nv : Bool

/-- The exact product of two elements. -/
def product (a b : FVal) : FVal × Frac × Bool :=
  let s := a.sign != b.sign
  if a.isNan || b.isNan then (.nan false, Frac.zero, a.isSnan || b.isSnan)
  else match a, b with
    | .inf _, _ => if b.isZero then (.nan false, Frac.zero, true) else (.inf s, Frac.zero, false)
    | _, .inf _ => if a.isZero then (.nan false, Frac.zero, true) else (.inf s, Frac.zero, false)
    | _, _ => (.fin s (if a.isZero || b.isZero then 0 else 1) 0, a.frac.mul b.frac, false)

/-- The sum of a block's products. With a NaN among them it is invalid only where a product is: infinities of both signs
beside a quiet NaN set no NV.
[DESIGN CHOICE: log entry 90] -/
def sumProducts (ps : List (FVal × Frac × Bool)) : BlockSum :=
  let nv := ps.any fun p => p.2.2
  let infs := (ps.filter fun p => match p.1 with
    | .inf _ => true
    | _ => false).map fun p => p.1.sign
  if ps.any fun p => p.1.isNan then ⟨.nan false, Frac.zero, nv⟩
  else match infs with
    | s :: r => if r.all (· == s) then ⟨.inf s, Frac.zero, nv⟩ else ⟨.nan false, Frac.zero, true⟩
    | [] => ⟨.fin (ps.all fun p => p.1.sign && p.1.isZero) 0 0, Frac.sumList (ps.map fun p => p.2.1), nv⟩

/-- acc := round(acc + sum). -/
def Fmt.accumulate (f : Fmt) (acc : Nat × BitVec 8) (b : BlockSum) : Nat × BitVec 8 :=
  let a := f.read false acc.1
  let r : FRes :=
    if a.isNan || b.v.isNan then f.writeNan (a.isSnan || b.nv)
    else match a, b.v with
      | .inf s, .inf t => if s = t then ⟨f.inf s, 0⟩ else f.writeNan true
      | .inf s, _ => ⟨f.inf s, 0⟩
      | _, .inf t => ⟨f.inf t, 0⟩
      | _, _ => f.roundFrac Attr.engine (zeroSign .rne a.sign b.v.sign) (a.frac.add b.x)
  (r.bits, acc.2 ||| r.flags ||| (if b.nv then flNV else 0))

/-- The block of 16 indices from `k0` of two narrow operands as a code sum (R150); a sum of zero is +0.
[DESIGN CHOICE: log entry 91] -/
def codeBlock (int8 : Bool) (a b : Line) (k0 : Nat) : BlockSum :=
  match a.recOf k0, b.recOf k0 with
  | some ra, some rb =>
    if ra.good int8 && rb.good int8 then
      let ks := List.range' k0 16
      let qa (i : Nat) : Int := a.codes.getD i 0
      let qb (i : Nat) : Int := if b.pruned.getD i false then (rb.zp : Int) else b.codes.getD i 0
      let sum (f : Nat → Int) : Int := ks.foldl (fun m i => m + f i) 0
      let D := sum (fun i => qa i * qb i) - (rb.zp : Int) * sum qa - (ra.zp : Int) * sum qb + 16 * (ra.zp : Int) * rb.zp
      ⟨.fin false 0 0, ((f16.read false ra.scale).frac.mul (f16.read false rb.scale).frac).mul (Frac.ofInt D), false⟩
    else ⟨.nan false, Frac.zero, true⟩
  | _, _ => ⟨.nan false, Frac.zero, true⟩

/-- One element of the result: pattern and flags. -/
def mmaElement (afmt bfmt k : Nat) (f : Fmt) (a b : Line) (start : Nat) : Nat × BitVec 8 :=
  let block (k0 : Nat) : BlockSum :=
    if narrowFmt afmt && narrowFmt bfmt then codeBlock (afmt == 11) a b k0
    else
      sumProducts ((List.range' k0 16).map fun i =>
        product (a.value afmt (if narrowFmt afmt then bfmt else afmt) i) (b.value bfmt (if narrowFmt bfmt then afmt else bfmt) i))
  (List.range (k / 16)).foldl (fun acc j => f.accumulate acc (block (16 * j))) (start, 0)

/-! ## Results -/

/-- Register words of packed bytes, elements from the low bits (R277). -/
def packWords : (fuel : Nat) → List Byte → List Word
  | 0, _ => []
  | k + 1, bs => if bs.isEmpty then [] else BitVec.ofNat 32 (leNat (bs.take 4)) :: packWords k (bs.drop 4)

/-- Row `i` of a result, written to its registers or its region. Rows of lanes without a live fibre are discarded. -/
def State.putRow (s : State) (m : MatOp) (loc fmt w i : Nat) (bs : List Byte) (tag : Bool) : State :=
  if locRegs loc then
    let per := rowRegs w (elemBytes fmt)
    let l := i % 32
    if (s.lane m.team m.crew l).live then
      let ws := packWords per bs
      s.updLane m.team m.crew l fun L =>
        (List.range per).foldl (fun L g =>
          L.setReg ((m.bases.find l).getD 0 + locField loc + i / 32 * per + g) ⟨ws.getD g 0, tag, true⟩) L
    else s
  else s.updBody m.team fun b => { b with tensor := b.tensor.store (locOffset loc + i * bs.length) bs tag }

/-- The rows of a result in turn. -/
def State.putRows (s : State) (m : MatOp) (loc fmt w : Nat) (rows : List (List Byte)) (tag : Bool) : State :=
  ((List.range rows.length).zip rows).foldl (fun s r => s.putRow m loc fmt w r.1 r.2 tag) s

/-- A whole result of undefined values (R8, R242, R281). -/
def State.blurResult (s : State) (m : MatOp) (loc fmt rows w : Nat) : State :=
  (List.range rows).foldl (fun s i =>
    let r := s.freeBytes (w * elemBytes fmt)
    r.2.putRow m loc fmt w i r.1 true) s

/-- A poisoned tile of a result: its sectors in the tensor buffer are marked; its registers hold undefined values and are
spoilt (R281, R321, R334).
[DEDUCED: log entry 56] -/
def State.poisonTile (s : State) (m : MatOp) (loc fmt w : Nat) (tile : Nat) : State :=
  let e := elemBytes fmt
  (List.range' (16 * (tile / 4)) 16).foldl (fun s i =>
    if locRegs loc then
      let per := rowRegs w e
      let l := i % 32
      let r := s.freeBytes (16 * e)
      if (s.lane m.team m.crew l).live then
        let ws := packWords per r.1
        r.2.updLane m.team m.crew l fun L =>
          (List.range (4 * e)).foldl (fun L g =>
            L.spoil ((m.bases.find l).getD 0 + locField loc + i / 32 * per + (tile % 4) * 4 * e + g) (ws.getD g 0)) L
      else s
    else s.updBody m.team fun b =>
      { b with tensor := (sectorsOf (locOffset loc + (i * w + 16 * (tile % 4)) * e) (16 * e)).foldl Mem.mark b.tensor }) s

/-- A ticketed operation ends: its flags reach the issuing fibre, unless that has ended, and its ticket is idle (R138,
R382). -/
def State.endTicket (s : State) (t c lane ticket : Nat) (flags : BitVec 8) : State :=
  s.updCrew t c fun C =>
    let lives := (C.tickets.find ticket).any fun k => !k.gone
    let C := if lives then C.setLane lane ((C.lane lane).raise flags) else C
    { C with tickets := C.tickets.del ticket }

/-- An operation leaves its core's queue.
[DEDUCED: log entry 38] -/
def State.unqueue (s : State) (core : Nat) : State := s.updCore core fun K => { K with mats := K.mats.tail }

/-- STATUS of an MMA block (R275). -/
def State.mmaStatus (s : State) (m : MatOp) (outcome info : Nat) : State :=
  s.report m.team (m.addr + 0x14) (leBytes 4 (outcome + 256 * info))

/-- Flags that an MMA reports (R138). -/
def mmaFlags (f : BitVec 8) : BitVec 8 := f &&& (flNV ||| flOF ||| flUF ||| flNX ||| flSAT)

/-- The first of some tiles (R275). -/
def firstTile (xs : List TileRun) : Nat := xs.foldl (fun m x => min m x.tile) 15

/-- The tiles of a list whose fault is one of some, each tile once. -/
def tilesWith (f : TileFault → Bool) (xs : List TileRun) : List TileRun := (xs.filter fun x => f x.fault).eraseDups

/-- A machine check of a core about an output tile of a crew's operation (R327, R334).
[DEDUCED: log entry 75] -/
def State.tileEvent (s : State) (core t c code : Nat) (cls : McClass) (tile : Nat) : State :=
  s.coreEvent core code cls (some ((s.team t).crewSlot c + 2 ^ 16 * tile))

/-- An MMA whose block and descriptor are good. Flags of rows in lanes without a live fibre are not reported: their
results are discarded (R277).
[DEDUCED: log entry 56; DESIGN CHOICE: log entry 90] -/
def State.mmaRun (s : State) (core : Nat) (m : MatOp) (b : MmaBlock) (d : WDesc) (runs : List TileRun) : State :=
  let t := m.team
  let T := s.team t
  let bfmt := d.fmt.toNat
  let cb := columnBytes bfmt d.k d.sp24
  let s := s.unqueue core
  let runs := runs.filter fun x => x.tile % 4 < b.n / 16 && x.tile / 4 < b.m / 16
  if s.matBad m b.aloc b.afmt b.m b.k || (b.accin && s.matBad m b.cloc b.cfmt b.m b.n) || T.weights.poisonOf d.woff (b.n * cb)
      || runs.any (fun x => x.fault == .residue true) then
    (s.consume t).endTicket t m.crew m.lane m.ticket 0
  else
    let f := fmtCode b.cfmt
    let A := (List.range b.m).map fun i => denseLine b.afmt b.k (s.matRow m b.aloc b.afmt b.m b.k i)
    let B := (List.range b.n).map fun j => columnLine d (T.weights.bytes (d.woff + j * cb) cb)
    let C := (List.range b.m).map fun i =>
      if b.accin then elemsOf b.cfmt b.n (s.matRow m b.cloc b.cfmt b.m b.n i) else List.replicate b.n 0
    let out := (A.zip C).map fun r => (B.zip r.2).map fun c => mmaElement b.afmt bfmt b.k f r.1 c.1 c.2
    let dout := out.map fun r => r.map fun e => (fmtCode b.dfmt).convert Attr.engine (f.read false e.1)
    let narrow := 8 ≤ b.afmt || 8 ≤ bfmt || 8 ≤ b.dfmt
    let tag := narrow || m.tag || m.atag || m.gtag || m.taint || d.btag || s.matTag m b.aloc b.afmt b.m b.k
      || (b.accin && s.matTag m b.cloc b.cfmt b.m b.n) || T.weights.tagOf d.woff (b.n * cb)
    let live (l : Nat) : Bool := !(locRegs b.cloc) || (s.lane t m.crew (l % 32)).live
    let kept := (((List.range b.m).zip (out.zip dout)).filter fun r => live r.1).map Prod.snd
    let flags := kept.foldl (fun fl r =>
      (r.2.foldl (fun fl e => fl ||| (if b.dfmt = 0 then 0 else e.flags)) (r.1.foldl (fun fl e => fl ||| e.2) fl))) 0
    let s := (tilesWith (fun f => f == .residue false) runs).foldl
      (fun s x => s.tileEvent core t m.crew 0x0102 .corrected x.tile) s
    let decided := if b.red then tilesWith (fun f => f == .differs true) runs else []
    let bad := if b.red then tilesWith (fun f => f == .differs false) runs else []
    let runs := decided ++ bad
    let blur (s : State) : State :=
      let s := s.blurResult m b.cloc b.cfmt b.m b.n
      if b.dfmt = 0 then s else s.blurResult m b.dloc b.dfmt b.m b.n
    let write (s : State) : State :=
      let s := s.putRows m b.cloc b.cfmt b.n (out.map fun r => r.flatMap fun e => leBytes (elemBytes b.cfmt) e.1) tag
      if b.dfmt = 0 then s
      else s.putRows m b.dloc b.dfmt b.n (dout.map fun r => r.flatMap fun e => leBytes (elemBytes b.dfmt) e.bits) tag
    let spoil (s : State) (x : TileRun) : State :=
      let s := s.poisonTile m b.cloc b.cfmt b.n x.tile
      if b.dfmt = 0 then s else s.poisonTile m b.dloc b.dfmt b.n x.tile
    let s :=
      if !runs.isEmpty && !b.rlog then
        ((blur s).mmaStatus m 3 (firstTile runs)).updCrew t m.crew fun C =>
          { C with mismatch := C.mismatch.put m.ticket (firstTile runs) }
      else
        let s := if m.breach then blur s else write s
        let s := decided.foldl (fun s x => s.tileEvent core t m.crew 0x0107 .corrected x.tile) s
        if runs.isEmpty then s.mmaStatus m 1 0
        else if bad.isEmpty then s.mmaStatus m 4 (firstTile decided)
        else
          let s := (bad.foldl spoil s).mmaStatus m 5 (firstTile bad)
          let s := bad.foldl (fun s x => s.tileEvent core t m.crew 0x0109 .contained x.tile) s
          s.updCore core fun K => { K with onyxDue := s.ftime, onyxFree := 0 }
    s.endTicket t m.crew m.lane m.ticket (mmaFlags flags)

/-- An MMA ends, once the WBLD it waits for is done (R278). -/
def State.mmaEnd (core : Nat) (m : MatOp) (runs : List TileRun) (s : State) : State :=
  let b := mmaBlock m.bytes
  let refuse (info : Nat) : State := ((s.unqueue core).mmaStatus m 2 info).endTicket m.team m.crew m.lane m.ticket 0
  if !s.mmaOk m b then refuse 1
  else if m.after.any fun k => (s.jobs.find k).isSome then s
  else match m.desc with
    | none => refuse 2
    | some d => if d.agrees b then s.mmaRun core m b d runs else refuse 2

/-- MMA_COMPLETE (R278, R400): the operation at the head of the core's array. -/
def execMmaComplete (core : Nat) (runs : List TileRun) (s : State) : Result :=
  match (s.core core).mats with
  | [] => .next s
  | m :: _ => if m.dcor then .next s else .next (s.bothBodies m.team m.seq (State.mmaEnd core m runs))

/-! ## DCOR (R120-R125) -/

/-- The lines of the regions of a DCOR become present, or one is awaited. -/
def State.touchRegions (s : State) (t : Nat) : List Nat → State × Bool
  | [] => (s, true)
  | n :: r => match s.touchStash t n with
    | .ready s => State.touchRegions s t r
    | .wait s => ((State.touchRegions s t r).1, false)
    | .fail _ _ => (s, false)

/-- The stash lines of a list that are present or can be filled (R219). -/
def State.fillable (s : State) (t : Nat) (ns : List Nat) : List Nat := ns.eraseDups.filter fun n => match s.touchStash t n with
  | .fail .. => false
  | _ => true

/-- A row of P: its elements' values, none for one that is not finite, and whether its records pass R122. -/
def DcorBlock.pRow (d : DcorBlock) (m : Mem) (i : Nat) : List (Option Frac) × Bool :=
  if narrowFmt d.pfmt then
    let int8 := d.pfmt == 11
    let w := (d.n + 31) / 32 * recordBytes int8 32
    let rs := recordsOf int8 ((d.n + 31) / 32) (m.bytes (d.p + i * w) w)
    ((rs.flatMap fun r => r.codes.map fun q => if r.malformed then none else some (r.value q)).take d.n,
      rs.all fun r => r.flags.extractLsb' 0 3 == (0 : BitVec 2) ++ BitVec.ofBool int8)
  else
    let e := elemBytes d.pfmt
    ((elemsOf d.pfmt d.n (m.bytes (d.p + i * d.n * e) (d.n * e))).map fun x =>
      let v := (fmtCode d.pfmt).read false x
      if v.isFinite then some v.frac else none, true)

/-- FP64 values in memory, none for one that is not finite. -/
def doublesAt (m : Mem) (a n : Nat) : List (Option Frac) :=
  (elemsOf 7 n (m.bytes a (8 * n))).map fun x =>
    let v := f64.read false x
    if v.isFinite then some v.frac else none

/-- The largest of magnitudes. -/
def maxAbs (xs : List Frac) : Frac := xs.foldl (fun m x => m.max x.abs) Frac.zero

/-- Σj x(j)·y(j). -/
def dot (xs ys : List Frac) : Frac := Frac.sumList ((xs.zip ys).map fun p => p.1.mul p.2)

/-- What the evaluation writes (R123). -/
structure DcorOut where
  outcome : Nat
  reason : Nat := 0
  flags : BitVec 8 := 0
  step : Nat := 0
  scount : Nat := 0
  ncv : Bool := false
  stag : Bool := false
  rnorm : Nat := 0
  bound : Nat := 0
  /-- new patterns of x -/
  x : Option (List Nat) := none

/-- Rounds a vector to FP64: patterns and flags; an exact zero is +0.
[DESIGN CHOICE: log entry 91] -/
def roundDoubles (xs : List Frac) : List FRes := xs.map fun x => f64.roundFrac Attr.engine false x

/-- Whether rn > old/2 as IEEE 754-2019 compares them. -/
def aboveHalf (rn : Frac) (old : Nat) : Bool :=
  match f64.read false old with
  | .nan _ => false
  | .inf s => s
  | v => (v.frac.mul ⟨1, 2⟩).lt rn

/-- The evaluation on finite operands. -/
def DcorBlock.evaluate (d : DcorBlock) (A : List (List Frac)) (b x : List Frac) (P : List (List Frac)) : DcorOut :=
  let rs := roundDoubles ((A.zip b).map fun p => p.2.sub (dot p.1 x))
  if rs.any fun r => !(f64.read false r.bits).isFinite then { outcome := 4, reason := 4, flags := flNV }
  else
    let r := rs.map fun r => (f64.read false r.bits).frac
    let rn := maxAbs r
    let rows := A.map fun row => Frac.sumList (row.map Frac.abs)
    let tau : Frac := ⟨1, 2 ^ (-d.texp).toNat⟩
    let bound := tau.mul (((maxAbs rows).mul (maxAbs x)).add (maxAbs b))
    let rnorm := (f64.roundFrac Attr.engine false rn).bits
    let bd := (f64.roundFrac Attr.engine false bound).bits
    if rn.le bound then { outcome := 1, step := d.step, scount := d.scount, rnorm, bound := bd }
    else
      let sc := if 0 < d.step && aboveHalf rn d.rnorm then min (d.scount + 1) 3 else 0
      let go := d.step < d.limit
      let nx := roundDoubles ((P.zip x).map fun p => p.2.add (dot p.1 r))
      let big := go && nx.any fun y => y.flags &&& flOF != 0
      let step := if go then d.step + 1 else d.step
      let ncv := d.limit ≤ step
      { outcome := if go then 2 else 3, step, scount := sc, ncv, stag := sc == 3, rnorm, bound := bd
        flags := (if big then flOF else 0) ||| (if ncv then flNCV else 0) ||| (if sc = 3 then flSTAG else 0)
        x := if go then some (nx.map FRes.bits) else none }

/-- The values of options that all hold. -/
def allSome {α : Type} : List (Option α) → Option (List α)
  | [] => some []
  | none :: _ => none
  | some x :: r => (allSome r).map (x :: ·)

/-- The evaluation with its checks, once every line is present.
[DEDUCED: log entry 57] -/
def DcorBlock.run (d : DcorBlock) (m : Mem) : DcorOut :=
  let rows := (List.range d.n).map (d.pRow m)
  if rows.any fun r => !r.2 then { outcome := 4, reason := 1 }
  else if m.tagOf d.a (8 * d.n * d.n) || m.tagOf d.b (8 * d.n) then { outcome := 4, reason := 2 }
  else
    match allSome ((List.range d.n).map fun i => allSome (doublesAt m (d.a + 8 * d.n * i) d.n)), allSome (doublesAt m d.b d.n),
        allSome (doublesAt m d.x d.n), allSome (rows.map fun r => allSome r.1) with
    | some A, some b, some x, some P => d.evaluate A b x P
    | _, _, _, _ => { outcome := 4, reason := 4, flags := flNV }

/-- What a DCOR that runs now goes by: its copy of the block (R272), but for the fields that a DCOR itself writes, which an
earlier DCOR on the same block may have advanced since the issue.
[DEDUCED: log entry 57] -/
def State.dcorNow (s : State) (m : MatOp) : DcorBlock :=
  let now := dcorBlock (s.stashBytes m.team m.addr 64).1
  { dcorBlock m.bytes with step := now.step, scount := now.scount, rnorm := now.rnorm }

/-- DCOR writes its results into its block as settled data (R123).
[DEDUCED: log entry 57] -/
def State.dcorReport (s : State) (m : MatOp) (o : DcorOut) : State :=
  let t := m.team
  let done := o.outcome != 4
  let st := o.outcome + 16 * bitNat o.ncv + 32 * bitNat o.stag + 256 * o.reason
  let ctl := o.step * 2 ^ 24 + fieldOf m.bytes 0 4 % 2 ^ 24
  let c2 := fieldOf m.bytes 4 4
  let ctl2 := c2 - (dcorBlock m.bytes).scount * 2 ^ 22 + o.scount * 2 ^ 22
  let s := if done then s.report t m.addr (leBytes 4 ctl ++ leBytes 4 ctl2) else s
  let s := s.report t (m.addr + 0x18) (leBytes 4 st)
  let nums := if done then leBytes 8 o.rnorm ++ leBytes 8 o.bound else (s.stashBytes t (m.addr + 0x20) 16).1
  s.report t (m.addr + 0x20) (nums ++ leBytes 16 0)

/-- DCOR completes: x, the block, the flags and the ticket. -/
def State.dcorEnd (s : State) (core : Nat) (m : MatOp) (d : DcorBlock) (o : DcorOut) : State :=
  let t := m.team
  let s := s.unqueue core
  let len := (8 * d.n + 31) / 32 * 32
  let s :=
    if o.outcome = 1 then s.report t d.x ((s.stashBytes t d.x (8 * d.n)).1 ++ leBytes (len - 8 * d.n) 0)
    else if o.reason = 5 then
      if d.x + 8 * d.n ≤ 65536 * s.stashBanks t then
        let r := s.freeBytes (8 * d.n)
        r.2.stashWrite t d.x r.1 true
      else s
    else match o.x with
      | some xs => s.stashWrite t d.x (xs.flatMap (leBytes 8)) true
      | none => s
  (s.dcorReport m o).endTicket t m.crew m.lane m.ticket o.flags

/-- Whether every stash write that the crew issued before is performed (R294). A store into the stash is performed as
it issues, so none is ever due.
[DEDUCED: log entry 57] -/
def State.dcorBad (s : State) (m : MatOp) (d : DcorBlock) : Bool :=
  d.regions.any fun r => (s.team m.team).body.stash.poisonOf r.1 r.2

/-- A DCOR ends: a race comes first, and what its block or its fibre forbids before any line of its regions is read
(R123, R125). -/
def State.dcorDue (core : Nat) (m : MatOp) (d : DcorBlock) (s : State) : State :=
  if m.race then s.dcorEnd core m d { outcome := 4, reason := 5 }
  else if m.taint || m.gtag then s.dcorEnd core m d { outcome := 4, reason := 3 }
  else if m.atag || m.tag then s.dcorEnd core m d { outcome := 4, reason := 2 }
  else if !d.ok m.addr (s.stashBanks m.team) then s.dcorEnd core m d { outcome := 4, reason := 1 }
  else
    let r := s.touchRegions m.team ((d.regions.flatMap fun x => regionLines x.1 x.2).eraseDups)
    if !r.2 then r.1
    else if r.1.dcorBad m d then ((r.1.unqueue core).consume m.team).endTicket m.team m.crew m.lane m.ticket 0
    else r.1.dcorEnd core m d (d.run (r.1.team m.team).body.stash)

/-- A DCOR writes its block, and an x that becomes undefined, in lines that are present (R125, R219). -/
def State.dcorStep (core : Nat) (m : MatOp) (s : State) : State :=
  let d := dcorBlock m.bytes
  let w := s.touchRegions m.team (s.fillable m.team
    (m.addr / 128 :: (if m.race && d.x + 8 * d.n ≤ 65536 * s.stashBanks m.team then regionLines d.x (8 * d.n) else [])))
  if !w.2 then w.1
  else State.dcorDue core m (w.1.dcorNow m) w.1

/-- DCOR_COMPLETE (R123, R125). -/
def execDcorComplete (core : Nat) (s : State) : Result :=
  match (s.core core).mats with
  | [] => .next s
  | m :: _ => if m.dcor then .next (s.bothBodies m.team m.seq (State.dcorStep core m)) else .next s

/-! ## WBLD (R279, R280, R426) -/

/-- Bytes of the region of the weight buffer that a team's slot owns (R214, R279).
[DEDUCED: log entry 58] -/
def State.weightBytes (s : State) (t : Nat) : Nat :=
  match (s.core (s.team t).core).roles with
  | some (a, b) => if 32 < 2 * (a + b) then 524288 else 262144
  | none => 262144

/-- The fields meet R279 and R280.
[DEDUCED: log entry 58] -/
def WbldBlock.ok (b : WbldBlock) (region : Nat) : Bool :=
  b.clean && shapeOk b.k && shapeOk b.n && 4 ≤ b.fmt && b.fmt ≤ 11 && b.woff % 128 == 0
    && (!narrowFmt b.fmt || (if b.sp24 then b.k == 64 else b.k % 32 == 0))
    && b.woff + b.n * columnBytes b.fmt b.k b.sp24 ≤ region

/-- Whether every mask nibble names two elements in order (R280). -/
def WbldBlock.masksOk (b : WbldBlock) (data : List Byte) : Bool :=
  let cb := columnBytes b.fmt b.k b.sp24
  !b.sp24 || (List.range b.n).all fun j =>
    (nibbles ((data.drop (j * cb + (cb - b.k / 8))).take (b.k / 8))).all fun x => x % 4 < x / 4

/-- Whether an earlier MMA still reads the descriptor (R280).
[DEDUCED: log entry 29] -/
def State.weightBusy (s : State) (t wh k : Nat) : Bool :=
  (s.core (s.team t).core).mats.any fun m => m.team == t && !m.dcor && m.seq < k && (mmaBlock m.bytes).wh == wh

/-- The load ends: STATUS, the descriptor of the MMAs that waited for it, and the ticket.
[DEDUCED: log entry 58] -/
def State.wbldEnd (s : State) (k t c lane addr ticket wh status : Nat) (d : Option WDesc) : State :=
  let s := s.updCore (s.team t).core fun K =>
    { K with mats := K.mats.map fun m => if m.after = some k then { m with after := none, desc := d } else m }
  let later := s.jobs.any fun j => k < j.1 && (match j.2 with
    | .wbld u _ _ _ bytes _ _ => u == t && (wbldBlock bytes).wh == wh
    | _ => false)
  let s := match d with
    | some d => if later then s else s.updTeam t fun T => { T with wdescs := T.wdescs.put wh d }
    | none => s
  ((s.report t (addr + 0x14) (leBytes 4 status)).endTicket t c lane ticket 0).endJob k

/-- Bytes enter the weight buffer with their tags and marks (R106). -/
def weightStore (m : Mem) (a : Nat) (b : Bytes) : Mem :=
  let m := m.storeTagged (b.data.length / 32 + 2) a b.data b.tags
  ((List.range b.data.length).zip b.marks).foldl (fun m x => if x.2 then m.mark ((a + x.1) / 32) else m) m

/-- A load of weights ends, or waits. -/
def State.wbldStep (k : Nat) (errs : List (Nat × MemErr)) (t c lane addr : Nat) (bytes : List Byte) (tag : Bool) (ticket : Nat)
    (s : State) : State :=
  let b := wbldBlock bytes
  let stop (s : State) (status : Nat) : State := s.wbldEnd k t c lane addr ticket b.wh status none
  if !s.crewQuiet t c k || s.weightBusy t b.wh k then s
  else if !b.ok (s.weightBytes t) then stop s 2
  else
    let n := b.n * columnBytes b.fmt b.k b.sp24
    match s.pieces t b.src (capOff b.src) n needR with
    | .error e => stop s (4 + 256 * e.1.toNat)
    | .ok ps => match (s.meet errs (s.pieceLines ps)).engineRead t (fun _ => false) ps with
      | .wait s => s
      | .fail e _ => stop s (4 + 256 * e.toNat)
      | .ok s x _ =>
        if !b.masksOk x.data then stop s 3
        else
          (s.updTeam t fun T => { T with weights := weightStore T.weights b.woff x }).wbldEnd k t c lane addr ticket b.wh 1
            (some { woff := b.woff, k := b.k, n := b.n, fmt := BitVec.ofNat 4 b.fmt, sp24 := b.sp24, btag := tag })

/-- WBLD_COMPLETE. -/
def execWbldComplete (k : Nat) (errs : List (Nat × MemErr)) (s : State) : Result :=
  match s.jobs.find k with
  | some (.wbld t c lane addr bytes tag ticket) =>
    .next (s.bothBodies t k (State.wbldStep k errs t c lane addr bytes tag ticket))
  | _ => .next s

end Sys2Proof.Machine
end

