-- ==== Sys2Proof/Machine/Device.lean ====
section
/-! DEFINITION. What may happen to the device and is no row of the opcode table: reads of its registers (R4, R6, R341,
R348) and of its memory (R321), Jasper's writes of the routing table (R346), and the checks of structures outside the
accesses of a line (R318, R329). -/

namespace Sys2Proof.Machine

open Sys2Proof

/-! ## Registers as they read (R4, R6) -/

/-- CTX_STATE (R341). -/
def CtxState.code : CtxState → Nat
  | .free => 0
  | .active => 1
  | .faulted => 2
  | .resetting => 3

/-- Q_CTL (R184). -/
def Queue.ctl (Q : Queue) : Nat := bitNat Q.en * 2 ^ 31 + bitNat Q.irq * 2 ^ 8 + Q.log2n % 16 * 2 ^ 4 + Q.qprio % 4 * 2 ^ 2

/-- MB_STAT (R342). -/
def Mailbox.stat (m : Mailbox) : Nat := bitNat m.busy * 2 ^ 31 + m.result % 2 ^ 16

/-- A register of a queue, of a context that exists. -/
def State.queueReg (s : State) (ctx q : Nat) (f : Queue → DWord) : DWord :=
  if ctx < 64 ∧ q < 16 then f ((s.ctx ctx).queue q) else 0

/-- Register `i` of a machine-check bank (R327). -/
def State.bankReg (s : State) (n i : Nat) : DWord := if n < 55 then (s.bank n).regs.getD i 0 else 0

/-- The block of a register, and its value: a write-only register, a reserved field and an offset that no table lists read
0. An offset that is not listed belongs to no block.
[DEDUCED: log entry 68] -/
def State.regValue (s : State) : ReadReg → Option Nat × DWord
  | .qTail .. => (some 0, 0)
  | .qCtl ctx q => (some 0, s.queueReg ctx q fun Q => BitVec.ofNat 64 Q.ctl)
  | .mcStatus n => (some 2, s.bankReg n 0)
  | .sensor n => (some 3, if n < 51 then BitVec.ofNat 64 ((s.sensors.find n).getD 0) else 0)
  | .of r => match r with
    | .qRing ctx q => (some 0, s.queueReg ctx q Queue.ring)
    | .qCpl ctx q => (some 0, s.queueReg ctx q Queue.cpl)
    | .qHead ctx q => (some 0, s.queueReg ctx q fun Q => BitVec.ofNat 64 Q.head)
    | .ctxState ctx => (some 0, if ctx < 64 then BitVec.ofNat 64 (s.ctx ctx).state.code else 0)
    | .msix ctx word => (some 0, if ctx < 64 ∧ word < 68 then (((s.ctx ctx).msix.find word).getD 0).setWidth 64 else 0)
    | .mbReq i => (some 1, if i < 64 then (s.mailbox.req.getD i 0).setWidth 64 else 0)
    | .mbGo => (some 1, 0)
    | .mbStat => (some 1, BitVec.ofNat 64 s.mailbox.stat)
    | .mcAddr n => (some 2, s.bankReg n 1)
    | .mcInfo n => (some 2, s.bankReg n 2)
    | .mcCtl n => (some 2, s.bankReg n 3)
    | .mcCount n => (some 2, s.bankReg n 4)
    | .access block x => (some 5, (s.rightsOf block x).setWidth 64)
    | .unlisted _ => (none, 0)

/-- Whether a master may read a block (R348). -/
def State.mayRead (s : State) (block : Nat) (m : Master) : Bool := (s.rightsOf block (Master.code m)).getLsbD 2

/-- A master reads a register; a denied read completes with Unsupported Request and is logged (R348). -/
def State.registerRead (s : State) (m : Master) (r : ReadReg) : State :=
  let v := s.regValue r
  if v.1.all fun b => s.mayRead b m then s.tellMaster m (.value v.2) else s.denied.tellMaster m .unsupported

/-! ## Memory and routes -/

/-- The host or a PCI Express peer reads memory of this device (R321). A read that must wait at a home is no read yet.
[DEDUCED: log entry 89] -/
def State.hostRead (s : State) (addr n : Nat) : State :=
  if !s.own addr || !addressed addr || !addressed (addr + n) then s
  else match s.readPieces (linePieces (n / 128 + 2) addr n) with
    | .ok s b => s.hostTold addr b
    | .wait s => s
    | .fail _ => s

/-- Jasper writes an entry of the routing table (R346): ports 0 to 31 (R326). One that leaves a chip of a span without a
route stops its launch (R338), with the record at the port that reached it. -/
def State.routeWrite (s : State) (dev : Nat) (ports : List (Nat × Bool)) : State :=
  if dev < Config.domainDevices then
    let port := (((s.portsOf dev).find? Prod.snd).getD (0, false)).1
    let s1 := { s with routes := s.routes.put dev (ports.filter fun p => p.1 < 32) }
    if s1.lost dev && !s.lost dev then s1.cutSpans port dev else s1
  else s

/-! ## Checks of the structures of a core (R318, R321) -/

/-- What SEC-DED over 64 data bits finds in a word of a core. -/
inductive Found64 where
  | sound
  | corrected
  | uncorrectable
  deriving DecidableEq, Repr

/-- The check of a word with some wrong bits, of its 64 data bits and its 8 check bits. -/
def secDed (bits : List Nat) : Found64 := match (bits.filter fun b => b < 72).eraseDups with
  | [] => .sound
  | [_] => .corrected
  | _ => .uncorrectable

/-- An error of a core is corrected in place and logged LOCAL_SEC, with no MC_INFO, or it is not correctable.
[DESIGN CHOICE: log entry 95] -/
def State.localCheck (s : State) (core : Nat) (bits : List Nat) (bad : State → State) : State := match secDed bits with
  | .sound => s
  | .corrected => s.coreEvent core 0x0106 .corrected none
  | .uncorrectable => bad s

/-- Marks the sector of an 8-byte word of a team's buffer. -/
def Team.markWord (T : Team) (b : Buffer) (word : Nat) : Team := match b with
  | .stash => { T with body := { T.body with stash := T.body.stash.mark (word / 4) } }
  | .tensor => { T with body := { T.body with tensor := T.body.tensor.mark (word / 4) } }
  | .weights => { T with weights := T.weights.mark (word / 4) }

/-- Bytes of a buffer of a team. -/
def State.bufferBytes (s : State) (t : Nat) : Buffer → Nat
  | .stash => 65536 * s.stashBanks t
  | .tensor => 65536 * s.tensorBanks t
  | .weights => s.weightBytes t

/-- The check of a word of a local bank or of the weight buffer. -/
def State.bufferError (s : State) (t : Nat) (b : Buffer) (word : Nat) (bits : List Nat) : State :=
  let T := s.team t
  if !T.resident || s.bufferBytes t b ≤ 8 * word then s
  else s.localCheck T.core bits fun s => s.updTeam t fun T => T.markWord b word

/-- The check of a word of a copy in the L1 banks or the cache-role banks. -/
def State.copyError (s : State) (core line word : Nat) (bits : List Nat) : State :=
  match (s.core core).copies.find line with
  | some c =>
    if 16 ≤ word then s
    else s.localCheck core bits fun s => s.updCore core fun K =>
      { K with copies := K.copies.put line { c with data := c.data.mark (word / 4) } }
  | none => s

/-- The check of an instruction cache: a line that is not correctable is dropped, and fetched again when it is needed. -/
def State.codeError (s : State) (core index : Nat) (bits : List Nat) : State :=
  match (s.core core).icache[index]? with
  | some w => s.localCheck core bits fun s => s.updCore core fun K =>
      { K with icache := K.icache.filter fun x => !(x.ctx == w.ctx && x.obj == w.obj && x.off / 128 == w.off / 128) }
  | none => s

/-! ## The directory and the die-to-die link (R318, R329) -/

/-- The check of a directory entry: one wrong bit is corrected in place and has no event, more are DIR_UNCORR.
[DEDUCED: log entry 75] -/
def State.directoryError (s : State) (line : Nat) (bits : List Nat) : State :=
  if !s.own (128 * line) || (s.dir.find line).isNone then s
  else match secDed bits with
    | .uncorrectable =>
      let slice := homeSlice (localOf (128 * line))
      (s.mcRecord (16 + slice / 16) 0x0203 .fatal slice (some (128 * line)) none).fatalStop
    | _ => s

/-- The die-to-die link replays a flit in one direction: 0 is A to B (R326). -/
def State.d2dReplay (s : State) (dir : Nat) : State :=
  if dir < 2 then s.mcRecord 53 0x0801 .corrected dir none none else s

/-- The team for which a message is on its way. -/
def Msg.teamOf : Msg → Option Nat
  | .read o .. | .readReply o .. | .atomic o .. | .atomicReply o .. | .held o .. => some o.team
  | .write w .. | .back w .. | .ack w .. | .backAck w .. => some w.team
  | .division t .. | .special t .. | .ftime t .. | .check t .. | .checkReply t .. | .stashFill t .. => some t
  | .fill .. | .engineAck .. | .dirty .. => none

/-- Parity of a message on the die network fails (R318): the team that it serves consumes the error, and a copy that it
carries is not installed.
[DESIGN CHOICE: log entry 84] -/
def State.networkError (s : State) (k : Nat) : State :=
  match s.msgs.find k with
  | none => s
  | some m =>
    let s := match m with
      | .readReply o line obj kind parts data _ times perf =>
        { s with msgs := s.msgs.put k (.readReply o line obj kind parts data none times perf) }
      | _ => s
    match m.teamOf with
    | some t => s.consume t
    | none => s

/-- An occurrence of these.
[DESIGN CHOICE: log entry 5] -/
def State.perform (s : State) : Act → State
  | .registerRead m r => s.registerRead m r
  | .hostRead addr n => s.hostRead addr n
  | .routeWrite dev ports => s.routeWrite dev ports
  | .bufferError t b word bits => s.bufferError t b word bits
  | .copyError core line word bits => s.copyError core line word bits
  | .codeError core index bits => s.codeError core index bits
  | .directoryError line bits => s.directoryError line bits
  | .d2dReplay dir => s.d2dReplay dir
  | .upset u => { s with upsets := s.upsets ++ [u] }
  | .networkError k => s.networkError k
  | .outside x => { s with outside := x }

end Sys2Proof.Machine
end

