-- ==== Sys2Proof/Machine/Fp.lean ====
section
/-! DEFINITION. Floating-point arithmetic, comparison, conversion and the special-function unit (R376-R380). -/

namespace Sys2Proof.Machine

open Sys2Proof

/-- A floating source of a type, flushed as the instruction's settings say (R135, R137). -/
def Lane.float (L : Lane) (f : Fmt) (v : Val) : FVal := f.read (L.flushes f.isWide) v.bits.toNat

/-- A pattern as a value to write; bits above the format are 0 (R130). -/
def patVal (bits : Nat) (t : Bool) : Val := ⟨BitVec.ofNat 128 bits, t⟩

/-- A word of two floating sources (R376). -/
def State.fp2 (s : State) (t : BitVec 2) (d a b : RegF) (p q : Bool) (op : Fmt → Attr → FVal → FVal → FRes) : Result :=
  let n := typeN t
  let f := fmtOf t
  s.compute { srcs := [{ f := a, n := n, trapping := p }, { f := b, n := n, trapping := q }] } { f := d, n := n } fun L vs =>
    let r := op f (L.attr f) (L.float f (valAt vs 0)) (L.float f (valAt vs 1))
    (patVal r.bits (tagsOf vs), r.flags)

/-- FADD (R376). -/
def execFadd (t : BitVec 2) (d a b : RegF) (p q : Bool) (s : State) : Result :=
  s.fp2 t d a b p q fun f m x y => f.add m x y
/-- FSUB (R376). -/
def execFsub (t : BitVec 2) (d a b : RegF) (p q : Bool) (s : State) : Result :=
  s.fp2 t d a b p q fun f m x y => f.add m x y.neg
/-- FMUL (R376). -/
def execFmul (t : BitVec 2) (d a b : RegF) (p q : Bool) (s : State) : Result :=
  s.fp2 t d a b p q fun f m x y => f.mul m x y
/-- FMA (R376): d is a source that always blocks. -/
def execFma (t : BitVec 2) (d a b : RegF) (p q : Bool) (s : State) : Result :=
  let n := typeN t
  let f := fmtOf t
  s.compute { srcs := [{ f := a, n := n, trapping := p }, { f := b, n := n, trapping := q }, { f := d, n := n }] }
    { f := d, n := n } fun L vs =>
      let r := f.fma (L.attr f) (L.float f (valAt vs 0)) (L.float f (valAt vs 1)) (L.float f (valAt vs 2))
      (patVal r.bits (tagsOf vs), r.flags)
/-- FMIN (R376). -/
def execFmin (t : BitVec 2) (d a b : RegF) (p q : Bool) (s : State) : Result :=
  s.fp2 t d a b p q fun f _ x y => f.pick false x y
/-- FMAX (R376). -/
def execFmax (t : BitVec 2) (d a b : RegF) (p q : Bool) (s : State) : Result :=
  s.fp2 t d a b p q fun f _ x y => f.pick true x y

/-- FABS and FNEG act on the pattern (R376). -/
def State.fpSign (s : State) (t : BitVec 2) (d a : RegF) (p : Bool) (op : Bool → Bool) : Result :=
  let n := typeN t
  let f := fmtOf t
  s.compute { srcs := [{ f := a, n := n, trapping := p }] } { f := d, n := n } fun _ vs =>
    let b := (valAt vs 0).bits.toNat % 2 ^ f.width
    let mag := b % 2 ^ (f.ew + f.fw)
    (patVal (f.signBit (op (mag != b)) + mag) (tagsOf vs), 0)

/-- FABS (R376). -/
def execFabs (t : BitVec 2) (d a : RegF) (p : Bool) (s : State) : Result := s.fpSign t d a p fun _ => false
/-- FNEG (R376). -/
def execFneg (t : BitVec 2) (d a : RegF) (p : Bool) (s : State) : Result := s.fpSign t d a p not

/-- FCMP (R377). -/
def execFcmp (c : BitVec 3) (t : BitVec 2) (d : PredF) (a b : RegF) (p q : Bool) (s : State) : Result :=
  let n := typeN t
  let f := fmtOf t
  s.computeQ { srcs := [{ f := a, n := n, trapping := p }, { f := b, n := n, trapping := q }] } d fun L vs =>
    let r := fcmpRel c (L.float f (valAt vs 0)) (L.float f (valAt vs 1))
    ((r.1, tagsOf vs), if r.2 then flNV else 0)

/-! ## Conversion (R380) -/

/-- Registers of a type code (R71). -/
def codeN (c : BitVec 4) : Nat := if wideCode c then 2 else 1

/-- The range of an integer type code (R71). -/
def codeRange (c : BitVec 4) : Int × Int :=
  if c = 0 then (minInt 32, maxInt 32) else if c = 1 then (0, 2 ^ 32 - 1)
  else if c = 2 then (minInt 64, maxInt 64) else (0, 2 ^ 64 - 1)

/-- An integer source of a type code. -/
def codeInt (c : BitVec 4) (v : Val) : Int :=
  if c = 0 then v.w32.toInt else if c = 1 then v.w32.toNat else if c = 2 then v.w64.toInt else v.w64.toNat

/-- Whether a code names an FP8 format. -/
def isFp8Code (c : BitVec 4) : Bool := c == 8 || c == 9

/-- The conversion of one value. -/
def Lane.convert (L : Lane) (e : BitVec 4) (c : BitVec 4) (v : Val) : FRes :=
  let x : FVal := if c.toNat ≤ 3 then
      let i := codeInt c v
      .fin (i < 0) i.natAbs 0
    else L.float (fmtCode c.toNat) v
  if e.toNat ≤ 3 then
    let r := floatToInt L.rm (codeRange e).1 (codeRange e).2 x
    ⟨(BitVec.ofInt (if wideCode e then 64 else 32) r.1).toNat, r.2⟩
  else (fmtCode e.toNat).convert (L.attr (fmtCode e.toNat)) x

/-- FCVT (R380). -/
def execFcvt (e : BitVec 4) (d a : RegF) (c : BitVec 4) (p : Bool) (s : State) : Result :=
  s.compute { srcs := [{ f := a, n := codeN c, trapping := p }] } { f := d, n := codeN e } fun L vs =>
    let r := L.convert e c (valAt vs 0)
    (patVal r.bits (tagsOf vs || isFp8Code e || isFp8Code c), r.flags)

/-! ## Special functions (R378) -/

/-- A special-function word: the destination is empty at issue and the result travels with its flags. -/
def State.special (s : State) (w : Bool) (d a : RegF) (p : Bool) (op : Fmt → Attr → (source : Nat) → FVal → FRes) : Result :=
  let n := wideN w
  let f := if w then f64 else f32
  let dst : Dst := { f := d, n := n }
  let ask : Ask := { srcs := [{ f := a, n := n, trapping := p }], dsts := [dst] }
  match s.prepare ask with
  | .stop s => .next s
  | .go s1 xs =>
    let E := s1.env
    let rs := xs.map fun x =>
      let L := x.2.1
      let v := valAt x.2.2 0
      let r := op f (L.attr f) v.bits.toNat (L.float f v)
      (x.1, E.dest x.1 L dst, BitVec.ofNat 64 r.bits, v.tag || L.gt, r.flags)
    let s2 := s1.finish ask (xs.map fun x => (x.1, E.drain x.1 x.2.1 dst))
    .next (s2.send (.special s.cur.team s.cur.crew (rs.map fun r => (r.1, r.2.1, r.2.2.1, r.2.2.2.1))
      (rs.map fun r => (r.1, r.2.2.2.2))))

/-- The candidate of a special function for a source (R143, log entry 2).
[DESIGN CHOICE: log entry 2] -/
def candidate (fn source : Nat) : Nat := (Config.sfuCandidate fn (BitVec.ofNat 64 source)).toNat

/-- FRCP (R378). -/
def execFrcp (t : Bool) (d a : RegF) (p : Bool) (s : State) : Result :=
  s.special t d a p fun f m _ x => f.rcp m x
/-- FRSQ (R378). -/
def execFrsq (t : Bool) (d a : RegF) (p : Bool) (s : State) : Result :=
  s.special t d a p fun f m v x => f.rsqrt m (candidate (4 + bitNat t) v) x
/-- FSQRT (R378). -/
def execFsqrt (t : Bool) (d a : RegF) (p : Bool) (s : State) : Result :=
  s.special t d a p fun f m _ x => f.sqrt m x
/-- FEXP2 (R378). -/
def execFexp2 (d a : RegF) (p : Bool) (s : State) : Result :=
  s.special false d a p fun f m v x => f.exp2 m (candidate 0x0C v) x
/-- FLOG2 (R378). -/
def execFlog2 (d a : RegF) (p : Bool) (s : State) : Result :=
  s.special false d a p fun f m v x => f.log2 m (candidate 0x10 v) x
/-- FSIN (R378). -/
def execFsin (d a : RegF) (p : Bool) (s : State) : Result :=
  s.special false d a p fun f m v x => f.trig m false (candidate 0x14 v) x
/-- FCOS (R378). -/
def execFcos (d a : RegF) (p : Bool) (s : State) : Result :=
  s.special false d a p fun f m v x => f.trig m true (candidate 0x18 v) x

end Sys2Proof.Machine
end

