-- ==== Sys2Proof/Machine/Tile.lean ====
section
/-! DEFINITION. Predicates (R407), tags (R119, R423), MEET (R172), lane exchange and votes (R360, R415, R416),
reductions and scans (R411, R412), QPACK and QUNPK (R408-R410). -/

namespace Sys2Proof.Machine

open Sys2Proof

/-! ## Predicates (R407) -/

/-- QAND. -/
def execQand (d a b : PredF) (s : State) : Result :=
  s.computeQ {} d fun L _ => ((L.q a && L.q b, L.qt a || L.qt b), 0)
/-- QOR. -/
def execQor (d a b : PredF) (s : State) : Result :=
  s.computeQ {} d fun L _ => ((L.q a || L.q b, L.qt a || L.qt b), 0)
/-- QXOR. -/
def execQxor (d a b : PredF) (s : State) : Result :=
  s.computeQ {} d fun L _ => ((L.q a != L.q b, L.qt a || L.qt b), 0)
/-- QNOT. -/
def execQnot (d a : PredF) (s : State) : Result := s.computeQ {} d fun L _ => ((!L.q a, L.qt a), 0)
/-- QMOV. -/
def execQmov (d a : PredF) (s : State) : Result := s.computeQ {} d fun L _ => ((L.q a, L.qt a), 0)

/-! ## Tags (R119) -/

/-- TAGQ: the source's tag becomes a value, and does not pass on as a tag (R111). -/
def execTagq (d : PredF) (a : RegF) (p : Bool) (s : State) : Result :=
  s.computeQ { srcs := [{ f := a, trapping := p }] } d fun _ vs => ((tagsOf vs, false), 0)
/-- TAGP: waits until d is full, and changes its tag only. -/
def execTagp (d : RegF) (s : State) : Result :=
  s.operate { dsts := [{ f := d }] } fun E l L _ =>
    (E.regsOf l L d 1).foldl (fun L n => L.remark n fun r => { r with tag := true }) L
/-- TCLR. -/
def execTclr (s : State) : Result := s.operate {} fun _ _ L _ => { L with taint := false }

/-! ## Convergence words -/

/-- MEET (R172). -/
def execMeet (s : State) : Result := s.converge .tile {} fun s => .next s.advanceAll

/-- The lanes of the issuing braid that lie in a fibre's tile. -/
def State.tilemates (s : State) (l : Nat) : List Nat := s.cur.lanes.filter (s.curCrew.tileOf l).contains

/-- The index of a lane in its tile, and the tile's size. -/
def tileIndex (part l : Nat) : Nat := l % 2 ^ part

/-- A lane exchange: `pick n k b` names the source index in a tile of `n` for the fibre at index `k` (R415).
[DESIGN CHOICE: log entry 37] -/
def State.shuffle (s : State) (d a b : RegF) (p q : Bool) (pick : (n k b : Nat) → Option Nat) : Result :=
  let ask : Ask := { srcs := [{ f := a, trapping := p }, { f := b, trapping := q }], dsts := [{ f := d }] }
  s.converge .tile ask fun s =>
    match s.prepare ask with
    | .stop s => .next s
    | .go s1 xs =>
      let E := s1.env
      let part := s1.curCrew.part
      let from' (x : Nat × Lane × List Val) : Nat :=
        match pick (2 ^ part) (tileIndex part x.1) (valAt x.2.2 1).w32.toNat with
        | some j =>
          let m := x.1 - tileIndex part x.1 + j
          if s1.cur.lanes.contains m then m else x.1
        | none => x.1
      let asked := ((xs.map from').eraseDups).filter fun m => !xs.any (·.1 == m)
      match s1.peek (asked.flatMap fun m => (E.regsOf m (s1.curLane m) a 1).map fun n => (m, n)) with
      | none => .next s1.spoiled
      | some s2 =>
        let supply (m : Nat) : Val := match xs.find? (·.1 == m) with
          | some x => valAt x.2.2 0
          | none => E.get m (s2.curLane m) a 1
        .next (s2.finish ask (xs.map fun x =>
          let v := supply (from' x)
          (x.1, E.put x.1 x.2.1 { f := d } (val32 v.w32 (v.tag || (valAt x.2.2 1).tag || x.2.1.gt)))))

/-- SHFL. -/
def execShfl (d a b : RegF) (p q : Bool) (s : State) : Result := s.shuffle d a b p q fun n _ b => some (b % n)
/-- SHFLU. -/
def execShflu (d a b : RegF) (p q : Bool) (s : State) : Result :=
  s.shuffle d a b p q fun _ k b => if k < b then none else some (k - b)
/-- SHFLD. -/
def execShfld (d a b : RegF) (p q : Bool) (s : State) : Result :=
  s.shuffle d a b p q fun n k b => if n ≤ k + b then none else some (k + b)
/-- SHFLX. -/
def execShflx (d a b : RegF) (p q : Bool) (s : State) : Result :=
  s.shuffle d a b p q fun n k b => some ((k ^^^ b) % n)

/-- A word that gathers a predicate over a tile: `f` takes the lanes of the tile whose guard is true and gives a new
fibre state from the gathered value's tag (R360, R416). -/
def State.gatherQ (s : State) (ask : Ask) (a : PredF) (f : Env → (yes all : List Nat) → (t : Bool) → Nat → Lane → Lane) : Result :=
  s.converge .tile ask fun s =>
    match s.prepare ask with
    | .stop s => .next s
    | .go s1 xs =>
      let C := s1.curCrew
      .next (s1.finish ask (xs.map fun x =>
        let mates := s1.tilemates x.1
        let on := mates.filter fun l => (C.lane l).guardTrue
        let t := mates.any fun l => (C.lane l).qt a
        (x.1, f s1.env (on.filter fun l => (C.lane l).q a) on (t || x.2.1.gt) x.1 x.2.1)))

/-- VOTEALL (R416). -/
def execVoteall (d a : PredF) (s : State) : Result :=
  s.gatherQ {} a fun _ yes all t _ L => L.setQ d (yes.length == all.length) t
/-- VOTEANY (R416). -/
def execVoteany (d a : PredF) (s : State) : Result :=
  s.gatherQ {} a fun _ yes _ t _ L => L.setQ d (!yes.isEmpty) t
/-- BALLOT (R360). -/
def execBallot (d : RegF) (a : PredF) (s : State) : Result :=
  s.gatherQ { dsts := [{ f := d }] } a fun E yes _ t l L =>
    let part := s.curCrew.part
    E.put l L { f := d } (val32 (maskOf (yes.map (tileIndex part))) t)

/-! ## Reductions and scans (R151, R152, R411, R412) -/

/-- A reduction's operation. -/
inductive RedOp where
  | add | min | max | and | or | xor
  deriving DecidableEq, Repr

/-- The format of a floating type code of REDS (R72). -/
def redFmt (t : BitVec 3) : Option Fmt := if t = 4 then some f32 else if t = 5 then some f64 else none

/-- The width of an integer type code of REDS, and whether it is signed. -/
def redWidth (t : BitVec 3) : Nat := if wideType t then 64 else 32
def redSigned (t : BitVec 3) : Bool := t == 0 || t == 2

/-- Combines two integers of a width (R412). -/
def redInt (op : RedOp) (t : BitVec 3) (x y : Nat) : Nat :=
  let w := redWidth t
  let lt := if redSigned t then (BitVec.ofNat w x).slt (BitVec.ofNat w y) else x < y
  match op with
  | .add => (x + y) % 2 ^ w
  | .min => if lt then x else y
  | .max => if lt then y else x
  | .and => x &&& y
  | .or => x ||| y
  | .xor => x ^^^ y

/-- The identity of an operation, as a pattern (R412). -/
def redIdentity (op : RedOp) (t : BitVec 3) : Nat :=
  let w := redWidth t
  match redFmt t, op with
  | some f, .min => f.inf false
  | some f, .max => f.inf true
  | some _, _ => 0
  | none, .and => 2 ^ w - 1
  | none, .min => if redSigned t then 2 ^ (w - 1) - 1 else 2 ^ w - 1
  | none, .max => if redSigned t then 2 ^ (w - 1) else 0
  | none, _ => 0

/-- Combines two patterns under a fibre's settings. -/
def redStep (op : RedOp) (t : BitVec 3) (L : Lane) (x y : Nat) : FRes :=
  match redFmt t with
  | none => ⟨redInt op t x y, 0⟩
  | some f =>
    let u := f.read (L.flushes true) x
    let v := f.read (L.flushes true) y
    match op with
    | .min => f.pick false u v
    | .max => f.pick true u v
    | _ => f.add (L.attr f) u v

/-- One level of the tree of R151. -/
def redLevel (f : Nat → Nat → FRes) : List (Option Nat) → List (Option Nat) × BitVec 8
  | some x :: some y :: r =>
    let z := f x y
    let rest := redLevel f r
    (some z.bits :: rest.1, z.flags ||| rest.2)
  | x :: y :: r =>
    let rest := redLevel f r
    ((if x.isSome then x else y) :: rest.1, rest.2)
  | r => (r, 0)

/-- The tree of R151 over a tile of 2^k lanes.
[DEDUCED: log entry 36] -/
def redTree (f : Nat → Nat → FRes) : (k : Nat) → List (Option Nat) → Option Nat × BitVec 8
  | 0, xs => (xs.headD none, 0)
  | k + 1, xs =>
    let l := redLevel f xs
    let r := redTree f k l.1
    (r.1, l.2 ||| r.2)

/-- Sums values left to right (R152).
[DEDUCED: log entry 36] -/
def redScan (f : Nat → Nat → FRes) : List Nat → Option Nat × BitVec 8
  | [] => (none, 0)
  | x :: r => r.foldl (fun (a : Option Nat × BitVec 8) y =>
      match a.1 with
      | some v => let z := f v y; (some z.bits, a.2 ||| z.flags)
      | none => (some y, a.2)) (some x, 0)

/-- How far a reduction word reaches for a fibre. -/
inductive RedKind where
  | all | upto | below
  deriving DecidableEq, Repr

/-- A reduction or scan word (R411).
[DEDUCED: log entry 36] -/
def State.reduce (s : State) (op : RedOp) (k : RedKind) (t : BitVec 3) (d a : RegF) (m : PredF) (p : Bool) : Result :=
  let n := if wideType t then 2 else 1
  let dst : Dst := { f := d, n := n }
  let ask : Ask := { srcs := [{ f := a, n := n, trapping := p }], dsts := [dst] }
  s.converge .tile ask fun s =>
    match s.prepare ask with
    | .stop s => .next s
    | .go s1 xs =>
      let E := s1.env
      let C := s1.curCrew
      let valueOf (l : Nat) : Option Val := (xs.find? (·.1 == l)).map fun x => valAt x.2.2 0
      let joins (l : Nat) : Bool := (C.lane l).guardTrue && (C.lane l).q m
      let partner (l : Nat) : Option Nat := if joins l then (valueOf l).map fun v => v.bits.toNat else none
      let result (l : Nat) : Option Nat × BitVec 8 :=
        let mates := s1.tilemates l
        let lead := C.lane ((mates.filter fun x => (C.lane x).guardTrue).headD l)
        let f := redStep op t lead
        match k with
        | .all => redTree f C.part ((C.tileOf l).map fun x => if mates.contains x then partner x else none)
        | .upto => redScan f ((mates.filter (· ≤ l)).filterMap partner)
        | .below => redScan f ((mates.filter (· < l)).filterMap partner)
      .next (s1.finish ask (xs.map fun x =>
        let l := x.1
        let mates := s1.tilemates l
        let ps := mates.filter joins
        let tag := ps.any (fun y => ((valueOf y).map Val.tag).getD false) || mates.any (fun y => (C.lane y).qt m)
          || x.2.1.gt
        let v := (result l).1.getD (redIdentity op t)
        let receivers := mates.filter fun y => (C.lane y).guardTrue
        let fl := receivers.foldl (fun (z : BitVec 8) y => z ||| (result y).2) 0
        (l, ((E.put l x.2.1 dst (patVal v tag)).setQ m (!ps.isEmpty) tag).raise fl)))

/-- REDADD. -/
def execRedadd (t : BitVec 3) (d a : RegF) (m : PredF) (p : Bool) (s : State) : Result := s.reduce .add .all t d a m p
/-- REDMIN. -/
def execRedmin (t : BitVec 3) (d a : RegF) (m : PredF) (p : Bool) (s : State) : Result := s.reduce .min .all t d a m p
/-- REDMAX. -/
def execRedmax (t : BitVec 3) (d a : RegF) (m : PredF) (p : Bool) (s : State) : Result := s.reduce .max .all t d a m p
/-- REDAND. -/
def execRedand (t : BitVec 3) (d a : RegF) (m : PredF) (p : Bool) (s : State) : Result := s.reduce .and .all t d a m p
/-- REDOR. -/
def execRedor (t : BitVec 3) (d a : RegF) (m : PredF) (p : Bool) (s : State) : Result := s.reduce .or .all t d a m p
/-- REDXOR. -/
def execRedxor (t : BitVec 3) (d a : RegF) (m : PredF) (p : Bool) (s : State) : Result := s.reduce .xor .all t d a m p
/-- SCANADD. -/
def execScanadd (t : BitVec 3) (d a : RegF) (m : PredF) (p : Bool) (s : State) : Result := s.reduce .add .upto t d a m p
/-- SCANADDX. -/
def execScanaddx (t : BitVec 3) (d a : RegF) (m : PredF) (p : Bool) (s : State) : Result := s.reduce .add .below t d a m p

/-! ## QPACK and QUNPK (R408-R410) -/

/-- Member `k` of a value. -/
def Val.word (v : Val) (k : Nat) : Word := v.bits.extractLsb' (32 * k) 32

/-- One element quantised: its code and flags (R409).
[DEDUCED: log entry 35] -/
def quantise (rm : RMode) (bits : Nat) (scale : FVal) (z : Nat) (x : FVal) : Nat × BitVec 8 :=
  if scale.isZero || !scale.isFinite || x.isNan then (z % 2 ^ bits, flNV)
  else
    match x with
    | .inf neg =>
      let c := clampCode bits (if neg != scale.sign then -(2 ^ bits : Int) else 2 ^ bits)
      (c.1, flSAT)
    | _ =>
      let r := (x.frac.mul scale.frac.inv).round rm
      let c := clampCode bits (r.1 + z)
      (c.1, (if c.2 then flSAT else 0) ||| (if r.2 then flNX else 0))

/-- QPACK (R409). -/
def execQpack (g : BitVec 2) (n : Bool) (d a b : RegF) (p q : Bool) (s : State) : Result :=
  let group := groupSize g
  let regs := group / 32
  let dst : Dst := { f := d, n := if n && g == 2 then 2 else 1 }
  let ask : Ask := { srcs := [{ f := a, n := regs, trapping := p }, { f := b, trapping := q }], dsts := [dst] }
  s.converge .crew ask fun s =>
    match s.prepare ask with
    | .stop s => .next s
    | .go s1 xs =>
      let E := s1.env
      let bits := if n then 8 else 4
      let lead := (xs.headD (0, {}, [])).2.1
      let hb := valAt (xs.headD (0, {}, [])).2.2 1
      let scale := f16.read false (hb.w32.toNat % 65536)
      let z := hb.w32.toNat / 65536 % 256
      let codes := (List.range group).map fun e =>
        match xs.find? (·.1 == e % 32) with
        | none => (z % 2 ^ bits, (0 : BitVec 8))
        | some x => quantise lead.rm bits scale z (lead.float f32 (val32 ((valAt x.2.2 0).word (e / 32)) false))
      let fl := codes.foldl (fun (m : BitVec 8) c => m ||| c.2) 0
      let ptag := (xs.any fun x => (valAt x.2.2 0).tag) || hb.tag
      let head : BitVec 8 := BitVec.ofBool ptag ++ (0 : BitVec 4) ++ g ++ BitVec.ofBool n
      let bytes := Narrow.toBytes n { scale := hb.w32.toNat % 65536, zp := z, flags := head, codes := codes.map Prod.fst }
      let words := bytes.length / 4
      .next (s1.finish ask (xs.map fun x =>
        let l := x.1
        let put (L : Lane) (w : Nat) : Lane :=
          if w < words then
            match E.slot l L d (w / 32) with
            | .reg r => L.setReg r ⟨BitVec.ofNat 32 (leNat ((bytes.drop (4 * w)).take 4)), true, true⟩
            | _ => L
          else L
        (l, (put (put x.2.1 l) (l + 32)).raise fl)))

/-- QUNPK (R410). -/
def execQunpk (g : BitVec 2) (n : Bool) (d a : RegF) (p : Bool) (s : State) : Result :=
  let group := groupSize g
  let regs := group / 32
  let src : Src := { f := a, n := if n && g == 2 then 2 else 1, trapping := p }
  let dst : Dst := { f := d, n := regs }
  let ask : Ask := { srcs := [src], dsts := [dst] }
  s.converge .crew ask fun s =>
    match s.prepare ask with
    | .stop s => .next s
    | .go s1 xs =>
      let E := s1.env
      let words := List.range (recordBytes n group / 4)
      let asked := words.filter fun w => s1.cur.lanes.contains (w % 32) && !xs.any (·.1 == w % 32)
      match s1.peek (asked.flatMap fun w => match E.slot (w % 32) (s1.curLane (w % 32)) a (w / 32) with
          | .reg r => [(w % 32, r)]
          | _ => []) with
      | none => .next s1.spoiled
      | some s2 =>
      let word (w : Nat) : Word :=
        match xs.find? (·.1 == w % 32) with
        | some x => (valAt x.2.2 0).word (w / 32)
        | none => if s2.cur.lanes.contains (w % 32) then (E.get (w % 32) (s2.curLane (w % 32)) a src.n).word (w / 32) else 0
      let bytes := words.flatMap fun w => leBytes 4 (word w).toNat
      let r := Narrow.ofBytes n bytes
      let bad := r.malformed || r.flags.extractLsb' 0 3 != g ++ BitVec.ofBool n
      let elem (e : Nat) : Nat :=
        if bad then f32.nan
        else
          let c := r.codes.getD e 0
          (f32.roundFrac Attr.engine (r.zeroNeg c) (r.value c)).bits
      .next (s2.finish ask (xs.map fun x =>
        let v := joinWords ((List.range regs).map fun k => BitVec.ofNat 32 (elem (x.1 + 32 * k)))
        (x.1, (E.put x.1 x.2.1 dst ⟨v, true⟩).raise (if bad then flNV else 0))))

end Sys2Proof.Machine
end

