-- ==== Sys2Proof/Machine/Collectives.lean ====
section
/-! DEFINITION. The engine of collectives: joining, reading and checking the ranks (R292, R368, R369), reductions
(R154, R155), chunks and their acknowledgements (R293), and the loss of a link. -/

namespace Sys2Proof.Machine

open Sys2Proof

/-! ## Ranks -/

/-- The block of a rank: a rank on another device shows only what it must agree in. -/
def Rank.block (r : Rank) : CollBlock := match r.remote with
  | some x => { collBlock [] with count := x.count.toNat, root := x.root.toNat, seq := x.seq.toNat, ctl := x.ctl.toNat }
  | none => collBlock r.bytes

/-- Whether a rank is on this device. -/
def Rank.here (r : Rank) : Bool := r.remote.isNone

/-- Whether two ranks agree (R292). -/
def CollBlock.agrees (a b : CollBlock) : Bool := a.ctl == b.ctl && a.count == b.count && a.root == b.root && a.seq == b.seq

/-- Bytes that a rank reads: what it contributes; in a broadcast only the root's. -/
def CollBlock.sourceBytes (b : CollBlock) (rank : Nat) : Nat :=
  if b.kind = 3 ∧ rank ≠ b.root then 0 else collBytes b.type b.count

/-- The number of chunks of each rank's destination (R293). -/
def collChunks (n : Nat) : Nat := (n + 262143) / 262144

/-- A rank's contribution as another device is told of it. -/
def Rank.told (r : Rank) (b : CollBlock) (chips : List Nat) (data : List Byte) (tags : List Bool) (bad : Bool)
    (cause : BitVec 8) : RemoteRank :=
  { dev := r.dev, core := r.core, ctl := BitVec.ofNat 32 b.ctl, count := BitVec.ofNat 32 b.count
    root := BitVec.ofNat 32 b.root, seq := BitVec.ofNat 32 b.seq, data, tags, poisoned := bad, cause, chips }

/-- Whether the block, address, guard and taint of a rank's word tag what it contributes and what it writes (R109,
R116). -/
def Rank.extra (r : Rank) : Bool := r.btag || r.gtag

/-- A report on the object of a rank of this device, once its line is present (R219, R368). -/
def State.tellRank (s : State) (r : Rank) (code : Nat) : State :=
  s.bothBodies r.team r.issued fun s => s.tellBar r.team r.bar code 0 r.issued

/-- Poisoned bytes of a contribution are undefined (R8, R321). -/
def State.blurMarked (s : State) : List Byte → List Bool → State × List Byte
  | b :: bs, m :: ms =>
    let x : State × Byte := if m then
        let r := s.freeBytes 1
        (r.2, r.1.headD 0)
      else (s, b)
    let y := State.blurMarked x.1 bs ms
    (y.1, x.2 :: y.2)
  | bs, _ => (s, bs)

/-- One rank of this device reads its source after the wait of its scope's class (R231, R273), and checks both its
capabilities; the other devices of the set learn of it. -/
def State.rankRead (s : State) (ctx : Nat) (ms : List (Nat × List Nat)) (errs : List (Nat × MemErr)) (r : Rank) : State × Rank :=
  let b := collBlock r.bytes
  let t := r.team
  let p := rankCount ms
  let n := b.sourceBytes (rankOf ms r.dev r.core)
  let others := (ms.map Prod.fst).filter (· != s.chipno)
  let chips := ((s.launchOf t).map Launch.chips).getD []
  let tell (s : State) (data : List Byte) (tags : List Bool) (bad : Bool) (cause : BitVec 8) : State :=
    { s with linkOut := s.linkOut ++ others.map fun d =>
        (d, LinkMsg.collJoin ctx b.scope (r.told b chips data tags bad cause)) }
  let failed (c : BitVec 8) : State × Rank := (tell s [] [] false c, { r with got := some ([], []), cause := c })
  if !(s.crew t r.crew).waited s.ftime (s.horizon ctx (BitVec.ofNat 5 b.scope)) then (s, r)
  else match s.pieces t b.src (capOff b.src) n needR, s.pieces t b.dst (capOff b.dst) (b.destBytes p) needW with
    | .error e, _ => failed e.1
    | _, .error e => failed e.1
    | .ok ps, .ok _ => match (s.meet errs (s.pieceLines ps)).engineRead t (fun _ => false) ps with
      | .wait s => (s, r)
      | .fail c _ => failed c
      | .ok s x bad =>
        let y := s.blurMarked x.data x.marks
        let tags := (x.tags.zip x.marks).map fun z => z.1 || z.2 || r.extra
        let s := tell y.1 y.2 tags bad.isSome 0
        let s := if bad.isSome then s.tellRank r fsUncorr else s
        (s, { r with got := some (y.2, tags) })

/-- Every rank of this device that has not read its source does so when it may.
[DEDUCED: log entry 59] -/
def State.readRanks (s : State) (ctx : Nat) (ms : List (Nat × List Nat)) (errs : List (Nat × MemErr)) : List Rank → State × List Rank
  | [] => (s, [])
  | r :: rest =>
    let x := if r.here && r.got.isNone then s.rankRead ctx ms errs r else (s, r)
    let y := State.readRanks x.1 ctx ms errs rest
    (y.1, x.2 :: y.2)

/-! ## Reductions -/

/-- The ranks that a tree names. -/
def treeRanks : RedTree → List Nat
  | .rank r => [r]
  | .node l r => treeRanks l ++ treeRanks r

/-- Adds or picks in the shape of a tree (R155). -/
def treeValue (f : Nat → Nat → FRes) (vals : List Nat) : RedTree → FRes
  | .rank r => ⟨vals.getD r 0, 0⟩
  | .node l r =>
    let a := treeValue f vals l
    let b := treeValue f vals r
    let c := f a.bits b.bits
    ⟨c.bits, a.flags ||| b.flags ||| c.flags⟩

/-- The tree of an order when it names every rank once, else the ranks from first to last.
[DEDUCED: log entry 59] -/
def orderOf (p : Nat) (t : RedTree) : RedTree :=
  let ls := treeRanks t
  if ls.length = p ∧ (List.range p).all ls.contains then t
  else (List.range' 1 (p - 1)).foldl (fun m r => .node m (.rank r)) (.rank 0)

/-- Combines two elements of a type that is not narrow (R292). -/
def collStep (op type : Nat) (x y : Nat) : FRes :=
  if type < 4 then
    ⟨redInt (if op = 0 then .add else if op = 1 then .min else .max) (BitVec.ofNat 3 type) x y, 0⟩
  else
    let f := fmtCode type
    let u := f.read false x
    let v := f.read false y
    if op = 0 then f.add Attr.engine u v else f.pick (op == 2) u v

/-- Bytes of one unit of a type: an element, or a record. -/
def collUnit (type : Nat) : Nat := if type = 10 then 20 else if type = 11 then 36 else collBytes type 1

/-- One block of narrow records over the ranks (R154); a malformed one, or one of another group, gives a record whose
SCALE is the canonical NaN and whose zero point and codes are open (R8, R292). -/
def State.narrowSum (s : State) (int8 : Bool) (bs : List (List Byte)) : State × List Byte × BitVec 8 :=
  let rs := bs.map (Narrow.ofBytes int8)
  let bits := if int8 then 8 else 4
  let ptag := rs.any fun r => r.flags.getLsbD 7
  let head : BitVec 8 := BitVec.ofBool ptag ++ (0 : BitVec 6) ++ BitVec.ofBool int8
  if rs.any fun r => !r.good int8 then
    let r := s.freeBytes (1 + (if int8 then 32 else 16))
    (r.2, leBytes 2 f16.nan ++ r.1.take 1 ++ [head] ++ r.1.drop 1, flNV)
  else
    let scale (r : Narrow) : Frac := (f16.read false r.scale).frac
    let S := maxAbs (rs.map scale)
    let c (r : Narrow) (i : Nat) : Int :=
      if S.num = 0 then 0
      else ((((r.value (r.codes.getD i 0)).mul ⟨256, 1⟩).mul S.inv).round .rne).1
    let C := (List.range 32).map fun i => rs.foldl (fun m r => m + c r i) (0 : Int)
    let cmax := C.foldl (fun m x => max m x.natAbs) 0
    let z : Nat := 2 ^ (bits - 1)
    if cmax = 0 ∨ S.num = 0 then
      (s, Narrow.toBytes int8 { scale := 0, zp := z, flags := head, codes := List.replicate 32 z }, 0)
    else
      let u := S.mul ⟨cmax, 256 * (z - 1)⟩
      let r := f16.roundFrac ⟨.rup, false, true⟩ false u
      let big := !(f16.read false r.bits).isFinite
      let so := if big then f16.maxFinite false else r.bits
      let k := (S.mul ⟨1, 256⟩).mul (f16.read false so).frac.inv
      let qs := C.map fun x => (clampCode bits (((Frac.ofInt x).mul k |>.round .rne).1 + z)).1
      (s, Narrow.toBytes int8 { scale := so, zp := z, flags := head, codes := qs }, if big then flSAT else 0)

/-- Records `n` from record `u0` of a source, as a collective that moves them writes them: a malformed one, or one of
another group, becomes the record of `narrowSum` with NV (R292). -/
def State.moveRecords (s : State) (int8 : Bool) (src : List Byte) (u0 : Nat) : Nat → State × List Byte × BitVec 8
  | 0 => (s, [], 0)
  | n + 1 =>
    let u := recordBytes int8 32
    let bs := (src.drop (u0 * u)).take u
    let x := if (Narrow.ofBytes int8 bs).good int8 then (s, bs, 0) else s.narrowSum int8 [bs]
    let y := State.moveRecords x.1 int8 src (u0 + 1) n
    (y.1, x.2.1 ++ y.2.1, x.2.2 ||| y.2.2)

/-- Units `n` of a reduction from unit `u0` of the ranks' sources: bytes, a tag for each, and flags.
[DEDUCED: log entry 59] -/
def State.reduceUnits (s : State) (b : CollBlock) (order : RedTree) (srcs : List (List Byte × List Bool)) (u0 : Nat) :
    Nat → State × List Byte × List Bool × BitVec 8
  | 0 => (s, [], [], 0)
  | n + 1 =>
    let u := collUnit b.type
    let part {α : Type} (l : List α) : List α := (l.drop (u0 * u)).take u
    let ins := srcs.map fun x => part x.1
    let narrow := 10 ≤ b.type
    let tag := narrow || srcs.any fun x => (part x.2).any id
    let x : State × List Byte × BitVec 8 :=
      if narrow then s.narrowSum (b.type == 11) ins
      else
        let r := treeValue (collStep b.op b.type) (ins.map leNat) order
        (s, leBytes u r.bits, r.flags)
    let y := State.reduceUnits x.1 b order srcs (u0 + 1) n
    (y.1, x.2.1 ++ y.2.1, List.replicate u tag ++ y.2.2.1, x.2.2 ||| y.2.2.2)

/-- Bytes `lo` to `hi` of a rank's destination (R292). -/
def State.collData (s : State) (b : CollBlock) (p rank : Nat) (order : RedTree) (srcs : List (List Byte × List Bool))
    (lo hi : Nat) : State × List Byte × List Bool × BitVec 8 :=
  let cut {α : Type} (l : List α) : List α := (l.drop lo).take (hi - lo)
  let narrow := 10 ≤ b.type
  let u := collUnit b.type
  let moved (src : List Byte × List Bool) : State × List Byte × List Bool × BitVec 8 :=
    let tags := cut (src.2.map fun t => t || narrow)
    if narrow then
      let r := s.moveRecords (b.type == 11) src.1 (lo / u) ((hi + u - 1) / u - lo / u)
      (r.1, (r.2.1.drop (lo % u)).take (hi - lo), tags, r.2.2)
    else (s, cut src.1, tags, 0)
  if b.kind = 2 then moved (srcs.flatMap Prod.fst, srcs.flatMap Prod.snd)
  else if b.kind = 3 then moved (srcs.getD b.root ([], []))
  else
    let base := if b.kind = 1 then collBytes b.type (b.count / p) * rank / u else 0
    let first := lo / u
    let r := s.reduceUnits b order srcs (base + first) ((hi + u - 1) / u - first)
    (r.1, (r.2.1.drop (lo - first * u)).take (hi - lo), (r.2.2.1.drop (lo - first * u)).take (hi - lo), r.2.2.2)

/-! ## Failures -/

/-- The unacknowledged chunks of a rank's destination hold undefined values (R8, R293, R369). -/
def State.blurChunks (s : State) (ms : List (Nat × List Nat)) (acked : List Nat) (r : Rank) : State :=
  let b := collBlock r.bytes
  let n := b.destBytes (rankCount ms)
  let k := collChunks n
  let i := rankOf ms r.dev r.core
  ((List.range k).filter fun j => !acked.contains (i * k + j)).foldl (fun s j =>
    let lo := 262144 * j
    let len := min (lo + 262144) n - lo
    match s.pieces r.team b.dst (capOff b.dst + lo) len needW with
    | .error _ => s
    | .ok ps =>
      let f := s.freeBytes len
      (Wrote.go r.team { s := f.2, core := r.core } f.1 (List.replicate len true) ps).s) s

/-- A collective ends with one report in every object of this device.
[DEDUCED: log entry 59] -/
def State.collFail (s : State) (k code : Nat) (j : CollRun) (blur : Bool) : State :=
  ((j.ranks.filter Rank.here).foldl (fun s r =>
    (if blur then s.bothBodies r.team r.issued fun s => s.blurChunks j.members j.acked r else s).tellRank r code) s).endJob k

/-! ## Events -/

/-- Whether a rank's chunks are all in a list. -/
def allChunks (i k : Nat) (xs : List Nat) : Bool := (List.range k).all fun j => xs.contains (i * k + j)

/-- What each of this device's ranks has completed is remembered (R333), and the collective ends with the last. -/
def State.collSettle (s : State) (k : Nat) : State :=
  match s.jobs.find k with
  | some (.coll j) =>
    let own := j.ranks.filter Rank.here
    let done (r : Rank) : Bool :=
      let i := rankOf j.members r.dev r.core
      allChunks i (collChunks ((collBlock r.bytes).destBytes (rankCount j.members))) j.acked
        && !j.uncounted.any fun u => u.1 == i
    let entry (r : Rank) : DoneColl :=
      { launch := (s.team r.team).launch, members := j.members, core := r.core, ctl := BitVec.ofNat 32 (collBlock r.bytes).ctl
        seq := BitVec.ofNat 32 (collBlock r.bytes).seq }
    let s := (own.filter done).foldl (fun s r =>
      if s.doneColls.contains (entry r) then s else { s with doneColls := s.doneColls ++ [entry r] }) s
    if own.all done then s.endJob k else s
  | _ => s

/-- One chunk of one rank's destination is computed and written, with the tags of the rank's own word (R109, R154, R292,
R293). -/
def State.collChunk (k : Nat) (j : CollRun) (chunk : Nat) (order : RedTree) (r : Rank) (s : State) : State :=
  let b := collBlock r.bytes
  let p := rankCount j.members
  let n := b.destBytes p
  let kc := collChunks n
  let i := rankOf j.members r.dev r.core
  let lo := 262144 * (chunk - i * kc)
  let hi := min (lo + 262144) n
  match s.barAbsent r.team r.bar with
  | some s => s
  | none => match s.pieces r.team b.dst (capOff b.dst + lo) (hi - lo) needW with
    | .error e => s.collFail k (fstateOf e.1) j true
    | .ok ps => match s.destWaits r.team false ps with
      | some s => s
      | none =>
        let srcs := (List.range p).map fun q =>
          ((j.ranks.find? fun x => rankOf j.members x.dev x.core == q).bind Rank.got).getD ([], [])
        let d := s.collData b p i (orderOf p order) srcs lo hi
        let w := Wrote.go r.team { s := d.1, core := r.core } d.2.1 (d.2.2.1.map fun t => t || r.extra) ps
        let r' := { r with flags := r.flags ||| d.2.2.2 }
        let sent := j.sent ++ [chunk]
        let s := if allChunks i kc sent then w.s.report r.team (r.addr + 0x24) (leBytes 4 (r'.flags.toNat % 64)) else w.s
        let s := if w.lost.isSome then s.reportFault r.team r.bar fsUncorr 0 0 0 else s
        let s := s.count r.team r.bar w.now
        s.setJob k (.coll { j with
          ranks := j.ranks.map fun x => if x.dev == r.dev && x.core == r.core then r' else x
          sent, uncounted := j.uncounted ++ w.later.map fun x => (i, x.1, x.2) })

/-- COLL_CHUNK (R293): once every rank has joined and read, the chunk is performed once; its receiver discards a
duplicate. Nothing moves between a link's failure and the re-formation. -/
def execCollChunk (k chunk : Nat) (order : RedTree) (errs : List (Nat × MemErr)) (s : State) : Result :=
  match s.jobs.find k with
  | some (.coll j0) =>
    let ms := j0.members
    let x := s.readRanks j0.ctx ms errs j0.ranks
    let j := { j0 with ranks := x.2 }
    let s := x.1.setJob k (.coll j)
    let p := rankCount ms
    if j.lost || !j.broken.isEmpty || j.ranks.length < p then .next s
    else
      match j.ranks with
      | [] => .next s
      | r0 :: _ =>
        if j.ranks.any fun r => !r.block.agrees r0.block then .next (s.collFail k fsMismatch j false)
        else
          let cause (r : Rank) : BitVec 8 := match r.remote with
            | some q => q.cause
            | none => r.cause
          match j.ranks.find? fun r => cause r != 0 with
          | some r => .next (s.collFail k (fstateOf (cause r)) j true)
          | none =>
            let kc (r : Rank) : Nat := collChunks ((collBlock r.bytes).destBytes p)
            match j.ranks.find? fun r => r.here && (kc r != 0 && chunk / kc r == rankOf ms r.dev r.core) with
            | none => .next (s.collSettle k)
            | some r =>
              if j.ranks.any (fun r => r.got.isNone) || j.sent.contains chunk then .next s
              else .next (s.bothBodies r.team r.issued (State.collChunk k j chunk order r))
  | _ => .next s

/-- COLL_ACK (R293). -/
def execCollAck (k chunk : Nat) (s : State) : Result :=
  match s.jobs.find k with
  | some (.coll j) =>
    if j.sent.contains chunk && !j.acked.contains chunk then
      .next ((s.setJob k (.coll { j with acked := j.acked ++ [chunk] })).collSettle k)
    else .next (s.collSettle k)
  | _ => .next s

/-- Whether a collective reaches other devices. -/
def spansDevices (chip : Nat) (ms : List (Nat × List Nat)) : Bool := ms.any fun m => m.1 != chip

/-- COLL_REFORM (R293, R338): the working links carry the ring or tree again, when every device of the set is reached; the
chunks not acknowledged are sent again, and their receiver discards those it has.
[DEDUCED: log entry 59] -/
def execCollReform (k : Nat) (s : State) : Result :=
  match s.jobs.find k with
  | some (.coll j) =>
    if j.broken.isEmpty || j.members.any fun m => s.lost m.1 then .next s
    else .next (s.setJob k (.coll { j with broken := [] }))
  | _ => .next s

/-- LINKLOST (R293): a collective over several devices, or one of whose ranks was stopped, ends.
[DEDUCED: log entry 59] -/
def execLinklost (k : Nat) (s : State) : Result :=
  match s.jobs.find k with
  | some (.coll j) =>
    .next (if spansDevices s.chipno j.members || j.lost then s.collFail k fsLinkLost j true else s)
  | _ => .next s

end Sys2Proof.Machine
end

