-- ==== Sys2Proof/Machine/Integer.lean ====
section
/-! DEFINITION. Integer register operations, wide operations, division, capability arithmetic, comparisons and the
immediate words (R354-R357, R364, R367, R372, R397, R401, R403, R404, R414). -/

namespace Sys2Proof.Machine

open Sys2Proof

/-- A word of two 32-bit sources that gives one register (R355). -/
def State.int2 (s : State) (d a b : RegF) (p q : Bool) (f : Lane → Word → Word → Word × BitVec 8) : Result :=
  s.compute { srcs := [{ f := a, trapping := p }, { f := b, trapping := q }] } { f := d } fun L vs =>
    let r := f L (valAt vs 0).w32 (valAt vs 1).w32
    (val32 r.1 (tagsOf vs), r.2)

/-- A word of one 32-bit source that gives one register (R355). -/
def State.int1 (s : State) (d a : RegF) (p : Bool) (f : Lane → Word → Word × BitVec 8) : Result :=
  s.compute { srcs := [{ f := a, trapping := p }] } { f := d } fun L vs =>
    let r := f L (valAt vs 0).w32
    (val32 r.1 (tagsOf vs), r.2)

/-- A word that also reads its destination, which always blocks (R59). -/
def State.int3 (s : State) (d a b : RegF) (p q : Bool) (f : Lane → Word → Word → Word → Word × BitVec 8) : Result :=
  s.compute { srcs := [{ f := a, trapping := p }, { f := b, trapping := q }, { f := d }] } { f := d } fun L vs =>
    let r := f L (valAt vs 2).w32 (valAt vs 0).w32 (valAt vs 1).w32
    (val32 r.1 (tagsOf vs), r.2)

/-- A word of a pair and another operand of `n` registers that gives a pair. -/
def State.pair2 (s : State) (d a b : RegF) (n : Nat) (p q : Bool) (f : Lane → DWord → Val → DWord × BitVec 8) : Result :=
  s.compute { srcs := [{ f := a, n := 2, trapping := p }, { f := b, n := n, trapping := q }] } { f := d, n := 2 } fun L vs =>
    let r := f L (valAt vs 0).w64 (valAt vs 1)
    (val64 r.1 (tagsOf vs), r.2)

/-- A signed 32-bit result that honours SAT (R355). -/
def sat32 (L : Lane) (x : Int) : Word × BitVec 8 := settle L.hints.sat 32 (minInt 32) (maxInt 32) x
/-- A signed 64-bit result that honours SAT (R355). -/
def sat64 (L : Lane) (x : Int) : DWord × BitVec 8 := settle L.hints.sat 64 (minInt 64) (maxInt 64) x

/-- ADD (R354). -/
def execAdd (d a b : RegF) (p q : Bool) (s : State) : Result :=
  s.int2 d a b p q fun L x y => sat32 L (x.toInt + y.toInt)
/-- SUB (R403). -/
def execSub (d a b : RegF) (p q : Bool) (s : State) : Result :=
  s.int2 d a b p q fun L x y => sat32 L (x.toInt - y.toInt)
/-- MUL (R397). -/
def execMul (d a b : RegF) (p q : Bool) (s : State) : Result :=
  s.int2 d a b p q fun L x y => sat32 L (x.toInt * y.toInt)
/-- MULH (R397). -/
def execMulh (d a b : RegF) (p q : Bool) (s : State) : Result :=
  s.int2 d a b p q fun _ x y => (BitVec.ofInt 32 (x.toInt * y.toInt / 2 ^ 32), 0)
/-- MULHZ (R397). -/
def execMulhz (d a b : RegF) (p q : Bool) (s : State) : Result :=
  s.int2 d a b p q fun _ x y => (BitVec.ofNat 32 (x.toNat * y.toNat / 2 ^ 32), 0)
/-- MAD (R397). -/
def execMad (d a b : RegF) (p q : Bool) (s : State) : Result :=
  s.int3 d a b p q fun L z x y => sat32 L (z.toInt + x.toInt * y.toInt)
/-- AND (R354). -/
def execAnd (d a b : RegF) (p q : Bool) (s : State) : Result := s.int2 d a b p q fun _ x y => (x &&& y, 0)
/-- OR (R403). -/
def execOr (d a b : RegF) (p q : Bool) (s : State) : Result := s.int2 d a b p q fun _ x y => (x ||| y, 0)
/-- XOR (R403). -/
def execXor (d a b : RegF) (p q : Bool) (s : State) : Result := s.int2 d a b p q fun _ x y => (x ^^^ y, 0)
/-- ANDN (R354). -/
def execAndn (d a b : RegF) (p q : Bool) (s : State) : Result := s.int2 d a b p q fun _ x y => (x &&& ~~~y, 0)

/-- A shift count of a 32-bit operand: b[4:0] (R403). -/
def count5 (b : Word) : Nat := (b.extractLsb' 0 5).toNat
/-- A shift count of a 64-bit operand: b[5:0] (R403). -/
def count6 (b : Word) : Nat := (b.extractLsb' 0 6).toNat

/-- SHL (R403). -/
def execShl (d a b : RegF) (p q : Bool) (s : State) : Result := s.int2 d a b p q fun _ x y => (x <<< count5 y, 0)
/-- SHR (R403). -/
def execShr (d a b : RegF) (p q : Bool) (s : State) : Result := s.int2 d a b p q fun _ x y => (x >>> count5 y, 0)
/-- SHRA (R403). -/
def execShra (d a b : RegF) (p q : Bool) (s : State) : Result :=
  s.int2 d a b p q fun _ x y => (x.sshiftRight (count5 y), 0)
/-- ROT (R403). -/
def execRot (d a b : RegF) (p q : Bool) (s : State) : Result :=
  s.int2 d a b p q fun _ x y => (x.rotateLeft (count5 y), 0)
/-- MIN (R397). -/
def execMin (d a b : RegF) (p q : Bool) (s : State) : Result :=
  s.int2 d a b p q fun _ x y => (if x.toInt ≤ y.toInt then x else y, 0)
/-- MAX (R397). -/
def execMax (d a b : RegF) (p q : Bool) (s : State) : Result :=
  s.int2 d a b p q fun _ x y => (if y.toInt ≤ x.toInt then x else y, 0)
/-- MINZ (R397). -/
def execMinz (d a b : RegF) (p q : Bool) (s : State) : Result :=
  s.int2 d a b p q fun _ x y => (if x ≤ y then x else y, 0)
/-- MAXZ (R397). -/
def execMaxz (d a b : RegF) (p q : Bool) (s : State) : Result :=
  s.int2 d a b p q fun _ x y => (if y ≤ x then x else y, 0)
/-- ABS (R354). -/
def execAbs (d a : RegF) (p : Bool) (s : State) : Result := s.int1 d a p fun L x => sat32 L (x.toInt.natAbs : Int)

/-- The number of one bits. -/
def popCount (w : Word) : Nat := ((List.range 32).filter fun i => w.getLsbD i).length
/-- The number of leading zeros. -/
def leadingZeros (w : Word) : Nat := if w = 0 then 32 else 31 - w.toNat.log2

/-- POPC (R403). -/
def execPopc (d a : RegF) (p : Bool) (s : State) : Result := s.int1 d a p fun _ x => (BitVec.ofNat 32 (popCount x), 0)
/-- CLZ (R354). -/
def execClz (d a : RegF) (p : Bool) (s : State) : Result := s.int1 d a p fun _ x => (BitVec.ofNat 32 (leadingZeros x), 0)
/-- BREV (R354). -/
def execBrev (d a : RegF) (p : Bool) (s : State) : Result := s.int1 d a p fun _ x => (x.reverse, 0)

/-- The width of a field: b[12:8] (R356). -/
def widthField (b : Word) : Nat := (b.extractLsb' 8 5).toNat

/-- BFX (R356). -/
def execBfx (d a b : RegF) (p q : Bool) (s : State) : Result :=
  s.int2 d a b p q fun _ x y => ((x >>> count5 y) &&& BitVec.ofNat 32 (2 ^ widthField y - 1), 0)
/-- BFI (R356). -/
def execBfi (d a b : RegF) (p q : Bool) (s : State) : Result :=
  s.int3 d a b p q fun _ z x y =>
    let m := BitVec.ofNat 32 (2 ^ widthField y - 1) <<< count5 y
    ((z &&& ~~~m) ||| ((x <<< count5 y) &&& m), 0)

/-- SEL (R414): the operand not selected contributes no tag. -/
def execSel (n : PredF) (d a b : RegF) (p q : Bool) (s : State) : Result :=
  s.compute { srcs := [{ f := a, trapping := p }, { f := b, trapping := q }] } { f := d } fun L vs =>
    let v := if L.q n then valAt vs 0 else valAt vs 1
    (val32 v.w32 (v.tag || L.qt n), 0)

/-- ADDW (R354). -/
def execAddw (d a b : RegF) (p q : Bool) (s : State) : Result :=
  s.pair2 d a b 2 p q fun L x y => sat64 L (x.toInt + y.w64.toInt)
/-- SUBW (R403). -/
def execSubw (d a b : RegF) (p q : Bool) (s : State) : Result :=
  s.pair2 d a b 2 p q fun L x y => sat64 L (x.toInt - y.w64.toInt)
/-- SHLW (R403). -/
def execShlw (d a b : RegF) (p q : Bool) (s : State) : Result :=
  s.pair2 d a b 1 p q fun _ x y => (x <<< count6 y.w32, 0)
/-- SHRW (R403). -/
def execShrw (d a b : RegF) (p q : Bool) (s : State) : Result :=
  s.pair2 d a b 1 p q fun _ x y => (x >>> count6 y.w32, 0)

/-! ## Division (R372) -/

/-- Quotient and remainder of R372, and whether the divisor is 0; the most negative value over −1 falls out of the
wrap. -/
def divide (x y : Int) : (Int × Int) × Bool :=
  if y = 0 then ((0, x), true) else ((x.tdiv y, x.tmod y), false)

/-- A long-latency division: the destinations are empty at issue, and the results travel (R92, R372). -/
def State.division (s : State) (w : Bool) (d a b : RegF) (p q : Bool) (signed remainder : Bool) : Result :=
  let n := wideN w
  let dst : Dst := { f := d, n := n }
  let ask : Ask := { srcs := [{ f := a, n := n, trapping := p }, { f := b, n := n, trapping := q }], dsts := [dst] }
  match s.prepare ask with
  | .stop s => .next s
  | .go s1 xs =>
    let E := s1.env
    let num (v : Val) : Int :=
      if w then (if signed then v.w64.toInt else v.w64.toNat) else (if signed then v.w32.toInt else v.w32.toNat)
    let rs := xs.map fun x =>
      let r := divide (num (valAt x.2.2 0)) (num (valAt x.2.2 1))
      let v := if remainder then r.1.2 else r.1.1
      (x.1, E.dest x.1 x.2.1 dst, BitVec.ofInt 64 v, tagsOf x.2.2 || x.2.1.gt, r.2)
    let s2 := s1.finish ask (xs.map fun x => (x.1, E.drain x.1 x.2.1 dst))
    .next (s2.send (.division s.cur.team s.cur.crew (rs.map fun r => (r.1, r.2.1, r.2.2.1, r.2.2.2.1))
      ((rs.filter fun r => r.2.2.2.2).map Prod.fst)))

/-- DIVS (R372). -/
def execDivs (w : Bool) (d a b : RegF) (p q : Bool) (s : State) : Result := s.division w d a b p q true false
/-- DIVZ (R372). -/
def execDivz (w : Bool) (d a b : RegF) (p q : Bool) (s : State) : Result := s.division w d a b p q false false
/-- REMS (R372). -/
def execRems (w : Bool) (d a b : RegF) (p q : Bool) (s : State) : Result := s.division w d a b p q true true
/-- REMZ (R372). -/
def execRemz (w : Bool) (d a b : RegF) (p q : Bool) (s : State) : Result := s.division w d a b p q false true

/-! ## Capability arithmetic (R364) -/

/-- CADD. -/
def execCadd (d a b : RegF) (p q : Bool) (s : State) : Result :=
  s.pair2 d a b 1 p q fun _ x y => (x.extractLsb' 38 26 ++ (x.extractLsb' 0 38 + y.w32.signExtend 38), 0)
/-- CAPN. -/
def execCapn (d a b : RegF) (p q : Bool) (s : State) : Result :=
  s.pair2 d a b 1 p q fun _ x y =>
    (x.extractLsb' 42 22 ++ (capRights x &&& y.w32.extractLsb' 0 4) ++ x.extractLsb' 0 38, 0)
/-- CAPB. -/
def execCapb (d a b : RegF) (p q : Bool) (s : State) : Result :=
  s.pair2 d a b 2 p q fun _ x y => (x.extractLsb' 38 26 ++ y.w64.extractLsb' 0 38, 0)

/-! ## Comparisons (R367) -/

/-- CMPW. -/
def execCmpw (c : BitVec 3) (u : Bool) (d : PredF) (a b : RegF) (p q : Bool) (s : State) : Result :=
  s.computeQ { srcs := [{ f := a, n := 2, trapping := p }, { f := b, n := 2, trapping := q }] } d fun _ vs =>
    let x := (valAt vs 0).w64
    let y := (valAt vs 1).w64
    ((if u then intRel c x.toNat y.toNat else intRel c x.toInt y.toInt, tagsOf vs), 0)
/-- CMP. -/
def execCmp (c : BitVec 3) (u : Bool) (d : PredF) (a b : RegF) (p q : Bool) (s : State) : Result :=
  s.computeQ { srcs := [{ f := a, trapping := p }, { f := b, trapping := q }] } d fun _ vs =>
    let x := (valAt vs 0).w32
    let y := (valAt vs 1).w32
    ((if u then intRel c x.toNat y.toNat else intRel c x.toInt y.toInt, tagsOf vs), 0)
/-- CMPI: q(N) and q(N+1), N being the field with a low bit of 0. -/
def execCmpi (n : BitVec 3) (a : RegF) (i : BitVec 13) (p : Bool) (s : State) : Result :=
  s.operate { srcs := [{ f := a, trapping := p }] } fun _ _ L vs =>
    let x := (valAt vs 0).w32
    let t := tagsOf vs || L.gt
    (L.setQ (n ++ (0 : BitVec 1)) (x.toInt < (L.imm i).toInt) t).setQ (n ++ (1 : BitVec 1)) (x == L.imm i) t

/-! ## Immediate words (R357, R401, R404) -/

/-- ADDI. -/
def execAddi (d a : RegF) (i : BitVec 13) (p : Bool) (s : State) : Result :=
  s.int1 d a p fun L x => sat32 L (x.toInt + (L.imm i).toInt)
/-- ANDI. -/
def execAndi (d a : RegF) (i : BitVec 13) (p : Bool) (s : State) : Result := s.int1 d a p fun L x => (x &&& L.imm i, 0)
/-- ORI. -/
def execOri (d a : RegF) (i : BitVec 13) (p : Bool) (s : State) : Result := s.int1 d a p fun L x => (x ||| L.imm i, 0)
/-- XORI. -/
def execXori (d a : RegF) (i : BitVec 13) (p : Bool) (s : State) : Result := s.int1 d a p fun L x => (x ^^^ L.imm i, 0)
/-- SHLI. -/
def execShli (d a : RegF) (n : BitVec 5) (p : Bool) (s : State) : Result := s.int1 d a p fun _ x => (x <<< n.toNat, 0)
/-- SHRI. -/
def execShri (d a : RegF) (n : BitVec 5) (p : Bool) (s : State) : Result := s.int1 d a p fun _ x => (x >>> n.toNat, 0)
/-- SHRAI. -/
def execShrai (d a : RegF) (n : BitVec 5) (p : Bool) (s : State) : Result :=
  s.int1 d a p fun _ x => (x.sshiftRight n.toNat, 0)
/-- MOVI. -/
def execMovi (d : RegF) (i : BitVec 13) (s : State) : Result :=
  s.compute {} { f := d } fun L _ => (val32 (L.imm i) false, 0)

end Sys2Proof.Machine
end

