-- ==== Sys2Proof/Machine/Sys.lean ====
section
/-! DEFINITION. The state registers (R97-R104): GSR (R384) and SSR (R417, R418). -/

namespace Sys2Proof.Machine

open Sys2Proof

/-- The state registers of 64 bits, which take a pair (R97). -/
def wideReg (n : BitVec 8) : Bool := wideState n

/-! ## Reading -/

/-- BANKROLE of a core whose first team has `S` stash and `T` tensor banks (R213, R214). -/
def bankRoles : Option (Nat × Nat) → DWord
  | none => 0
  | some (st, tn) =>
    let two := 2 * (st + tn) ≤ 32
    let role (b : Nat) : Nat :=
      let k := if two ∧ st + tn ≤ b then b - (st + tn) else b
      if two ∧ 2 * (st + tn) ≤ b then 0 else if k < st then 1 else if k < st + tn then 2 else 0
    (List.range 32).foldl (fun w b => w ||| (BitVec.ofNat 64 (role b) <<< (2 * b))) 0

/-- WATCHST (R104). -/
def Crew.watchst (C : Crew) (now : Nat) : Word :=
  let n (st : WatchState) : Nat := (C.watch.filter fun e => e.2.stateAt now == st).length
  BitVec.ofNat 32 (n .struck * 2 ^ 16 + n .pending * 2 ^ 8 + C.watch.length)

/-- EINFO of a frame (R103): of the guard ranges of its fibres it shows the lowest fibre's.
[DESIGN CHOICE: log entry 42] -/
def Frame.einfo (fr : Frame) : Word :=
  let g : Nat := match (fr.after.head?.map Prod.snd).getD none with
    | some g => bitNat g.neg * 2 ^ 12 + g.q.toNat * 2 ^ 8 + g.left % 8 * 2 ^ 5 + 2 ^ 4
    | none => 0
  BitVec.ofNat 32 (g + fr.ulen.toNat * 2 + bitNat fr.adv)

/-- A field of the top frame; 0 while there is none (R99). -/
def Crew.top {α : Type} (C : Crew) (z : α) (f : Frame → α) : α := match C.frames with
  | fr :: _ => f fr
  | [] => z

/-- TEAMID of a team (R98, R161). -/
def State.teamId (s : State) (t : Nat) : DWord := match s.launchOf t with
  | some L =>
    let i := (s.team t).index
    BitVec.ofNat 64 (i % L.block.gx + i / L.block.gx % L.block.gy * 2 ^ 16 + i / (L.block.gx * L.block.gy) * 2 ^ 32)
  | none => 0

/-- The value of a state register for a fibre (R98); a number not listed reads 0. FTIME is read by GSR itself. -/
def State.stateReg (s : State) (l : Nat) (L : Lane) (n : BitVec 8) : DWord :=
  let t := s.cur.team
  let T := s.team t
  let C := s.curCrew
  let X := s.ctx (s.teamCtx t)
  match n.toNat with
  | 0x01 => BitVec.ofNat 64 (s.teamCtx t)
  | 0x02 => (((s.launchOf t).map Launch.gen).getD 0).setWidth 64
  | 0x03 => s.teamId t
  | 0x04 => BitVec.ofNat 64 s.cur.crew
  | 0x05 => BitVec.ofNat 64 l
  | 0x06 => BitVec.ofNat 64 (32 * s.cur.crew + l)
  | 0x07 => BitVec.ofNat 64 T.core
  | 0x08 => BitVec.ofNat 64 s.chipno
  | 0x09 => BitVec.ofNat 64 (((s.launchOf t).map Launch.depth).getD 0)
  | 0x0A => BitVec.ofNat 64 (if dieOf T.core = 0 then s.clkA else s.clkB)
  | 0x10 => L.fmode.setWidth 64
  | 0x11 => L.fstat.setWidth 64
  | 0x12 => L.ftrapen.setWidth 64
  | 0x13 => BitVec.ofNat 64 C.part
  | 0x14 => C.prio.setWidth 64
  | 0x15 => BitVec.ofNat 64 (bitNat X.steer)
  | 0x16 => BitVec.ofNat 64 X.lease
  | 0x20 => (s.core T.core).kick.setWidth 64
  | 0x21 => bankRoles (s.core T.core).roles
  | 0x22 => (C.watchst s.ftime).setWidth 64
  | 0x30 => T.body.trapvec.setWidth 64
  | 0x31 => T.body.emuvec.setWidth 64
  | 0x32 => BitVec.ofNat 64 C.frames.length
  | 0x33 => C.top 0 fun fr => fr.epc.setWidth 64
  | 0x34 => C.top 0 fun fr => fr.cause.setWidth 64
  | 0x35 => C.top 0 fun fr => fr.mask.setWidth 64
  | 0x36 => C.top 0 fun fr => fr.word.setWidth 64
  | 0x37 => C.top 0 fun fr => fr.einfo.setWidth 64
  | 0x38 => C.top 0 fun fr => fr.eaddr
  | _ => 0

/-- GSR. FTIME is a long-latency producer. -/
def execGsr (a : RegF) (n : BitVec 8) (s : State) : Result :=
  let dst : Dst := { f := a, n := wideN (wideReg n) }
  let ask : Ask := { dsts := [dst] }
  if n = 0 then
    match s.prepare ask with
    | .stop s => .next s
    | .go s1 xs =>
      let E := s1.env
      let s2 := s1.finish ask (xs.map fun x => (x.1, E.drain x.1 x.2.1 dst))
      .next (s2.send (.ftime s.cur.team s.cur.crew (xs.map fun x => (x.1, E.dest x.1 x.2.1 dst, x.2.1.gt))))
  else s.operate ask fun E l L _ => E.put l L dst (val64 (s.stateReg l L n) L.gt)

/-! ## Writing -/

/-- Whether a value lies outside its field's range (R417). -/
def stateWriteBad (C : Crew) (n : BitVec 8) (v : Word) : Bool :=
  match n.toNat with
  | 0x13 => !(1 ≤ (v.extractLsb' 0 3).toNat && (v.extractLsb' 0 3).toNat ≤ 5)
  | 0x16 =>
    let k := (v.extractLsb' 0 14).toNat
    k % 32 != 0 || k < 32 || 8192 < k
  | 0x30 | 0x31 => v.extractLsb' 0 2 != 0
  | 0x33 => !C.frames.isEmpty && v.extractLsb' 0 2 != 0
  | _ => false

/-- A fibre-owned register takes the fibre's value (R418). -/
def Lane.ssr (L : Lane) (n : BitVec 8) (v : Word) : Lane :=
  match n.toNat with
  | 0x10 => { L with fmode := v.extractLsb' 0 5 }
  | 0x11 => { L with fstat := L.fstat &&& ~~~ v.extractLsb' 0 8 }
  | 0x12 => { L with ftrapen := v.extractLsb' 0 8 }
  | _ => L

/-- The top frame changes. -/
def Crew.setTop (C : Crew) (f : Frame → Frame) : Crew := match C.frames with
  | fr :: r => { C with frames := f fr :: r }
  | [] => C

/-- A register of a crew, team or context takes a value (R417, R418); others take nothing. -/
def State.ssrShared (s : State) (n : BitVec 8) (v : Word) : State :=
  let t := s.cur.team
  match n.toNat with
  | 0x13 => s.updCrew t s.cur.crew fun C => { C with part := (v.extractLsb' 0 3).toNat }
  | 0x14 => s.updCrew t s.cur.crew fun C => { C with prio := v.extractLsb' 0 4 }
  | 0x15 => s.updCtx (s.teamCtx t) fun X => { X with steer := v.getLsbD 0 }
  | 0x16 => s.updCtx (s.teamCtx t) fun X => { X with lease := (v.extractLsb' 0 14).toNat }
  | 0x30 => s.updBody t fun b => { b with trapvec := v }
  | 0x31 => s.updBody t fun b => { b with emuvec := v }
  | 0x33 => s.updCrew t s.cur.crew fun C => C.setTop fun fr => { fr with epc := v }
  | 0x37 => s.updCrew t s.cur.crew fun C => C.setTop fun fr => { fr with adv := v.getLsbD 0 }
  | _ => s

/-- SSR in the fibres of the issuing braid; of several writers of a shared register the highest counts, for PART the
lowest (R100, R418). -/
def State.ssrWrite (s : State) (ask : Ask) (n : BitVec 8) : Result :=
  match s.prepare ask with
  | .stop s => .next s
  | .go s1 xs =>
    let v (x : Nat × Lane × List Val) : Word := (valAt x.2.2 0).w32
    let s2 := s1.finish ask (xs.map fun x => (x.1, x.2.1.ssr n (v x)))
    .next (match if n = 0x13 then xs.head? else xs.getLast? with
      | some x => s2.ssrShared n (v x)
      | none => s2)

/-- SSR; to PART it is a convergence point of the crew (R100). -/
def execSsr (a : RegF) (n : BitVec 8) (s : State) : Result :=
  let ask : Ask :=
    { srcs := [{ f := a, n := wideN (wideReg n) }]
      early := fun _ _ vs =>
        if stateWriteBad s.curCrew n (valAt vs 0).w32 then some (causeStateWrite, 0) else none }
  if n = 0x13 then s.converge .crew ask fun s => s.ssrWrite ask n else s.ssrWrite ask n

end Sys2Proof.Machine
end

