-- ==== Sys2Proof/Machine/Dispatch.lean ====
section
/-! DEFINITION. The meaning of each instruction and step: one arm per row of the opcode table. -/

namespace Sys2Proof.Machine

open Sys2Proof

/-- Runs one instruction word in the issuing braid, or one step of another agent. -/
def exec (i : Instr) (s : State) : Host.Outcome State Fault Refusal :=
  match i with
  | .add d a b p q => Sys2Proof.Machine.execAdd d a b p q s
  | .sub d a b p q => Sys2Proof.Machine.execSub d a b p q s
  | .mul d a b p q => Sys2Proof.Machine.execMul d a b p q s
  | .mulh d a b p q => Sys2Proof.Machine.execMulh d a b p q s
  | .mulhz d a b p q => Sys2Proof.Machine.execMulhz d a b p q s
  | .mad d a b p q => Sys2Proof.Machine.execMad d a b p q s
  | .and d a b p q => Sys2Proof.Machine.execAnd d a b p q s
  | .or d a b p q => Sys2Proof.Machine.execOr d a b p q s
  | .xor d a b p q => Sys2Proof.Machine.execXor d a b p q s
  | .andn d a b p q => Sys2Proof.Machine.execAndn d a b p q s
  | .shl d a b p q => Sys2Proof.Machine.execShl d a b p q s
  | .shr d a b p q => Sys2Proof.Machine.execShr d a b p q s
  | .shra d a b p q => Sys2Proof.Machine.execShra d a b p q s
  | .rot d a b p q => Sys2Proof.Machine.execRot d a b p q s
  | .min d a b p q => Sys2Proof.Machine.execMin d a b p q s
  | .max d a b p q => Sys2Proof.Machine.execMax d a b p q s
  | .minz d a b p q => Sys2Proof.Machine.execMinz d a b p q s
  | .maxz d a b p q => Sys2Proof.Machine.execMaxz d a b p q s
  | .abs d a p => Sys2Proof.Machine.execAbs d a p s
  | .popc d a p => Sys2Proof.Machine.execPopc d a p s
  | .clz d a p => Sys2Proof.Machine.execClz d a p s
  | .brev d a p => Sys2Proof.Machine.execBrev d a p s
  | .bfx d a b p q => Sys2Proof.Machine.execBfx d a b p q s
  | .bfi d a b p q => Sys2Proof.Machine.execBfi d a b p q s
  | .sel n d a b p q => Sys2Proof.Machine.execSel n d a b p q s
  | .addw d a b p q => Sys2Proof.Machine.execAddw d a b p q s
  | .subw d a b p q => Sys2Proof.Machine.execSubw d a b p q s
  | .shlw d a b p q => Sys2Proof.Machine.execShlw d a b p q s
  | .shrw d a b p q => Sys2Proof.Machine.execShrw d a b p q s
  | .divs w d a b p q => Sys2Proof.Machine.execDivs w d a b p q s
  | .divz w d a b p q => Sys2Proof.Machine.execDivz w d a b p q s
  | .rems w d a b p q => Sys2Proof.Machine.execRems w d a b p q s
  | .remz w d a b p q => Sys2Proof.Machine.execRemz w d a b p q s
  | .cadd d a b p q => Sys2Proof.Machine.execCadd d a b p q s
  | .capn d a b p q => Sys2Proof.Machine.execCapn d a b p q s
  | .capb d a b p q => Sys2Proof.Machine.execCapb d a b p q s
  | .cmpw c u d a b p q => Sys2Proof.Machine.execCmpw c u d a b p q s
  | .cmp c u d a b p q => Sys2Proof.Machine.execCmp c u d a b p q s
  | .addi d a ix p => Sys2Proof.Machine.execAddi d a ix p s
  | .andi d a ix p => Sys2Proof.Machine.execAndi d a ix p s
  | .ori d a ix p => Sys2Proof.Machine.execOri d a ix p s
  | .xori d a ix p => Sys2Proof.Machine.execXori d a ix p s
  | .shli d a n p => Sys2Proof.Machine.execShli d a n p s
  | .shri d a n p => Sys2Proof.Machine.execShri d a n p s
  | .shrai d a n p => Sys2Proof.Machine.execShrai d a n p s
  | .cmpi n a ix p => Sys2Proof.Machine.execCmpi n a ix p s
  | .movi d ix => Sys2Proof.Machine.execMovi d ix s
  | .fadd t d a b p q => Sys2Proof.Machine.execFadd t d a b p q s
  | .fsub t d a b p q => Sys2Proof.Machine.execFsub t d a b p q s
  | .fmul t d a b p q => Sys2Proof.Machine.execFmul t d a b p q s
  | .fma t d a b p q => Sys2Proof.Machine.execFma t d a b p q s
  | .fmin t d a b p q => Sys2Proof.Machine.execFmin t d a b p q s
  | .fmax t d a b p q => Sys2Proof.Machine.execFmax t d a b p q s
  | .fabs t d a p => Sys2Proof.Machine.execFabs t d a p s
  | .fneg t d a p => Sys2Proof.Machine.execFneg t d a p s
  | .fcmp c t d a b p q => Sys2Proof.Machine.execFcmp c t d a b p q s
  | .fcvt e d a sx p => Sys2Proof.Machine.execFcvt e d a sx p s
  | .qpack g n d a b p q => Sys2Proof.Machine.execQpack g n d a b p q s
  | .qunpk g n d a p => Sys2Proof.Machine.execQunpk g n d a p s
  | .frcp t d a p => Sys2Proof.Machine.execFrcp t d a p s
  | .frsq t d a p => Sys2Proof.Machine.execFrsq t d a p s
  | .fsqrt t d a p => Sys2Proof.Machine.execFsqrt t d a p s
  | .fexp2 d a p => Sys2Proof.Machine.execFexp2 d a p s
  | .flog2 d a p => Sys2Proof.Machine.execFlog2 d a p s
  | .fsin d a p => Sys2Proof.Machine.execFsin d a p s
  | .fcos d a p => Sys2Proof.Machine.execFcos d a p s
  | .qand d a b => Sys2Proof.Machine.execQand d a b s
  | .qor d a b => Sys2Proof.Machine.execQor d a b s
  | .qxor d a b => Sys2Proof.Machine.execQxor d a b s
  | .qnot d a => Sys2Proof.Machine.execQnot d a s
  | .qmov d a => Sys2Proof.Machine.execQmov d a s
  | .shfl d a b p q => Sys2Proof.Machine.execShfl d a b p q s
  | .shflu d a b p q => Sys2Proof.Machine.execShflu d a b p q s
  | .shfld d a b p q => Sys2Proof.Machine.execShfld d a b p q s
  | .shflx d a b p q => Sys2Proof.Machine.execShflx d a b p q s
  | .voteall d a => Sys2Proof.Machine.execVoteall d a s
  | .voteany d a => Sys2Proof.Machine.execVoteany d a s
  | .ballot d a => Sys2Proof.Machine.execBallot d a s
  | .redadd t d a m p => Sys2Proof.Machine.execRedadd t d a m p s
  | .redmin t d a m p => Sys2Proof.Machine.execRedmin t d a m p s
  | .redmax t d a m p => Sys2Proof.Machine.execRedmax t d a m p s
  | .redand t d a m p => Sys2Proof.Machine.execRedand t d a m p s
  | .redor t d a m p => Sys2Proof.Machine.execRedor t d a m p s
  | .redxor t d a m p => Sys2Proof.Machine.execRedxor t d a m p s
  | .scanadd t d a m p => Sys2Proof.Machine.execScanadd t d a m p s
  | .scanaddx t d a m p => Sys2Proof.Machine.execScanaddx t d a m p s
  | .tagq d a p => Sys2Proof.Machine.execTagq d a p s
  | .tagp d => Sys2Proof.Machine.execTagp d s
  | .tclr => Sys2Proof.Machine.execTclr s
  | .br q o => Sys2Proof.Machine.execBr q o s
  | .brn q o => Sys2Proof.Machine.execBrn q o s
  | .call q o => Sys2Proof.Machine.execCall q o s
  | .calln q o => Sys2Proof.Machine.execCalln q o s
  | .jmpi a p => Sys2Proof.Machine.execJmpi a p s
  | .calli a p => Sys2Proof.Machine.execCalli a p s
  | .ret a p => Sys2Proof.Machine.execRet a p s
  | .meet => Sys2Proof.Machine.execMeet s
  | .fend => Sys2Proof.Machine.execFend s
  | .fspawn d a p => Sys2Proof.Machine.execFspawn d a p s
  | .win sx => Sys2Proof.Machine.execWin sx s
  | .tfence => Sys2Proof.Machine.execTfence s
  | .eret => Sys2Proof.Machine.execEret s
  | .ld z d b o q => Sys2Proof.Machine.execLd z d b o q s
  | .st z d b o q => Sys2Proof.Machine.execSt z d b o q s
  | .ldsp z d b o q => Sys2Proof.Machine.execLdsp z d b o q s
  | .ldacq sx w d b => Sys2Proof.Machine.execLdacq sx w d b s
  | .strel sx w b v => Sys2Proof.Machine.execStrel sx w b v s
  | .atadd w sx d b v => Sys2Proof.Machine.execAtadd w sx d b v s
  | .atand w sx d b v => Sys2Proof.Machine.execAtand w sx d b v s
  | .ator w sx d b v => Sys2Proof.Machine.execAtor w sx d b v s
  | .atxor w sx d b v => Sys2Proof.Machine.execAtxor w sx d b v s
  | .atmin w sx d b v => Sys2Proof.Machine.execAtmin w sx d b v s
  | .atmax w sx d b v => Sys2Proof.Machine.execAtmax w sx d b v s
  | .atfadd w sx d b v => Sys2Proof.Machine.execAtfadd w sx d b v s
  | .atcas w sx d b v => Sys2Proof.Machine.execAtcas w sx d b v s
  | .atxch w sx d b => Sys2Proof.Machine.execAtxch w sx d b s
  | .fence sx => Sys2Proof.Machine.execFence sx s
  | .cflush a b => Sys2Proof.Machine.execCflush a b s
  | .cinv a b => Sys2Proof.Machine.execCinv a b s
  | .iinv sx => Sys2Proof.Machine.execIinv sx s
  | .pref a k => Sys2Proof.Machine.execPref a k s
  | .stmap a b w => Sys2Proof.Machine.execStmap a b w s
  | .stunmap w => Sys2Proof.Machine.execStunmap w s
  | .stwb w => Sys2Proof.Machine.execStwb w s
  | .pqry a n => Sys2Proof.Machine.execPqry a n s
  | .wclr => Sys2Proof.Machine.execWclr s
  | .wchk o => Sys2Proof.Machine.execWchk o s
  | .mma a => Sys2Proof.Machine.execMma a s
  | .mrdy a => Sys2Proof.Machine.execMrdy a s
  | .mwait t => Sys2Proof.Machine.execMwait t s
  | .wbld a => Sys2Proof.Machine.execWbld a s
  | .dcor a => Sys2Proof.Machine.execDcor a s
  | .chain a => Sys2Proof.Machine.execChain a s
  | .strm n b sx => Sys2Proof.Machine.execStrm n b sx s
  | .kick a => Sys2Proof.Machine.execKick a s
  | .bari a b => Sys2Proof.Machine.execBari a b s
  | .bara a => Sys2Proof.Machine.execBara a s
  | .bwait a => Sys2Proof.Machine.execBwait a s
  | .coll a => Sys2Proof.Machine.execColl a s
  | .launch a => Sys2Proof.Machine.execLaunch a s
  | .launcht a n => Sys2Proof.Machine.execLauncht a n s
  | .cwait => Sys2Proof.Machine.execCwait s
  | .tbar => Sys2Proof.Machine.execTbar s
  | .gsr a n => Sys2Proof.Machine.execGsr a n s
  | .ssr a n => Sys2Proof.Machine.execSsr a n s
  | .trap n => Sys2Proof.Machine.execTrap n s
  | .limm p => Sys2Proof.Machine.execLimm p s
  | .guard q n c => Sys2Proof.Machine.execGuard q n c s
  | .sched y sx => Sys2Proof.Machine.execSched y sx s
  | .rnd k r m => Sys2Proof.Machine.execRnd k r m s
  | .sat => Sys2Proof.Machine.execSat s
  | .nop p => Sys2Proof.Machine.execNop p s
  | .hintIgnored k p => Sys2Proof.Machine.execHintIgnored k p s
  | .emulationVector cause word ulen => Sys2Proof.Machine.execEmulationVector cause word ulen s
  | .icacheFill k e => Sys2Proof.Machine.execIcacheFill k e s
  | .loadReply k => Sys2Proof.Machine.execLoadReply k s
  | .atomicReply k => Sys2Proof.Machine.execAtomicReply k s
  | .divisionComplete k => Sys2Proof.Machine.execDivisionComplete k s
  | .sfuComplete k => Sys2Proof.Machine.execSfuComplete k s
  | .ftimeReadComplete k => Sys2Proof.Machine.execFtimeReadComplete k s
  | .writePerform w e => Sys2Proof.Machine.execWritePerform w e s
  | .writeAcknowledge k => Sys2Proof.Machine.execWriteAcknowledge k s
  | .atomicPerform k e => Sys2Proof.Machine.execAtomicPerform k e s
  | .homeRead k e => Sys2Proof.Machine.execHomeRead k e s
  | .leaseExpiry line => Sys2Proof.Machine.execLeaseExpiry line s
  | .directoryEvict line e => Sys2Proof.Machine.execDirectoryEvict line e s
  | .recall line forWrite => Sys2Proof.Machine.execRecall line forWrite s
  | .dirtyNotice k => Sys2Proof.Machine.execDirtyNotice k s
  | .ldspCheck k => Sys2Proof.Machine.execLdspCheck k s
  | .checkReply k => Sys2Proof.Machine.execCheckReply k s
  | .watchAgeStrike team crew => Sys2Proof.Machine.execWatchAgeStrike team crew s
  | .stashFill k e => Sys2Proof.Machine.execStashFill k e s
  | .hostSnoop line half inv => Sys2Proof.Machine.execHostSnoop line half inv s
  | .bisnpResponse line half dirty => Sys2Proof.Machine.execBisnpResponse line half dirty s
  | .biconflict line half excl => Sys2Proof.Machine.execBiconflict line half excl s
  | .hostHalfRequest line half excl => Sys2Proof.Machine.execHostHalfRequest line half excl s
  | .qTail ctx q v => Sys2Proof.Machine.execQTail ctx q v s
  | .qCtl ctx q v => Sys2Proof.Machine.execQCtl ctx q v s
  | .registerWrite m r v => Sys2Proof.Machine.execRegisterWrite m r v s
  | .commandFetch die => Sys2Proof.Machine.execCommandFetch die s
  | .commandNop k => Sys2Proof.Machine.execCommandNop k s
  | .commandWait k => Sys2Proof.Machine.execCommandWait k s
  | .commandLaunch k => Sys2Proof.Machine.execCommandLaunch k s
  | .placeTeams => Sys2Proof.Machine.execPlaceTeams s
  | .launchPacket team => Sys2Proof.Machine.execLaunchPacket team s
  | .teamStart team => Sys2Proof.Machine.execTeamStart team s
  | .spanBlock k => Sys2Proof.Machine.execSpanBlock k s
  | .spanReply k => Sys2Proof.Machine.execSpanReply k s
  | .spanStart k => Sys2Proof.Machine.execSpanStart k s
  | .spanTstart launch => Sys2Proof.Machine.execSpanTstart launch s
  | .abort k => Sys2Proof.Machine.execAbort k s
  | .spanTimeout launch => Sys2Proof.Machine.execSpanTimeout launch s
  | .teamDrain team => Sys2Proof.Machine.execTeamDrain team s
  | .teamRetire team => Sys2Proof.Machine.execTeamRetire team s
  | .regroup core => Sys2Proof.Machine.execRegroup core s
  | .evictTeam team => Sys2Proof.Machine.execEvictTeam team s
  | .restoreTeam team core => Sys2Proof.Machine.execRestoreTeam team core s
  | .onyxDue core => Sys2Proof.Machine.execOnyxDue core s
  | .onyxSlice core => Sys2Proof.Machine.execOnyxSlice core s
  | .onyxSliceEnd core fail => Sys2Proof.Machine.execOnyxSliceEnd core fail s
  | .onyxLapse core => Sys2Proof.Machine.execOnyxLapse core s
  | .motionRound errs => Sys2Proof.Machine.execMotionRound errs s
  | .motionLineCopied ix e => Sys2Proof.Machine.execMotionLineCopied ix e s
  | .motionSwitch => Sys2Proof.Machine.execMotionSwitch s
  | .copyChunk k errs => Sys2Proof.Machine.execCopyChunk k errs s
  | .copyCount k => Sys2Proof.Machine.execCopyCount k s
  | .chainChunk k errs => Sys2Proof.Machine.execChainChunk k errs s
  | .mmaComplete core runs => Sys2Proof.Machine.execMmaComplete core runs s
  | .dcorComplete core => Sys2Proof.Machine.execDcorComplete core s
  | .wbldComplete k errs => Sys2Proof.Machine.execWbldComplete k errs s
  | .collChunk k chunk order errs => Sys2Proof.Machine.execCollChunk k chunk order errs s
  | .collAck k chunk => Sys2Proof.Machine.execCollAck k chunk s
  | .collReform k => Sys2Proof.Machine.execCollReform k s
  | .linklost k => Sys2Proof.Machine.execLinklost k s
  | .rollback team => Sys2Proof.Machine.execRollback team s
  | .mcStatus m bank v => Sys2Proof.Machine.execMcStatus m bank v s
  | .linkFlit crcOk msg e => Sys2Proof.Machine.execLinkFlit crcOk msg e s
  | .failedAcknowledgement k => Sys2Proof.Machine.execFailedAcknowledgement k s
  | .stop k => Sys2Proof.Machine.execStop k s
  | .stopped k => Sys2Proof.Machine.execStopped k s
  | .stopTimeout launch => Sys2Proof.Machine.execStopTimeout launch s
  | .d2dFail => Sys2Proof.Machine.execD2dFail s
  | .ftimeSync dev => Sys2Proof.Machine.execFtimeSync dev s
  | .create => Sys2Proof.Machine.execCreate s
  | .updateOt => Sys2Proof.Machine.execUpdateOt s
  | .updateScope => Sys2Proof.Machine.execUpdateScope s
  | .moveFrame => Sys2Proof.Machine.execMoveFrame s
  | .kill => Sys2Proof.Machine.execKill s
  | .reset => Sys2Proof.Machine.execReset s
  | .fwStage => Sys2Proof.Machine.execFwStage s
  | .fwActivate => Sys2Proof.Machine.execFwActivate s
  | .logRead => Sys2Proof.Machine.execLogRead s
  | .sensorSample hot => Sys2Proof.Machine.execSensorSample hot s
  | .clockChange die mhz => Sys2Proof.Machine.execClockChange die mhz s
  | .deviceReset dev => Sys2Proof.Machine.execDeviceReset dev s
  | .spdmRequest req => Sys2Proof.Machine.execSpdmRequest req s
  | .hostLinkTrain gts width => Sys2Proof.Machine.execHostLinkTrain gts width s
  | .hostLinkDown => Sys2Proof.Machine.execHostLinkDown s
  | .linkFailure port dev => Sys2Proof.Machine.execLinkFailure port dev s

end Sys2Proof.Machine
end

