-- ==== Sys2Proof/Machine/Issue.lean ====
section
/-! DEFINITION. From a core's turn to an instruction: fetch (R191, R204, R244, R306), units and their fate (R62, R78,
R80, R386), the selection of a braid and of a partner to merge with (R167, R198, R199), the words of a unit in turn (R63),
and what happens when the agenda is empty. -/

namespace Sys2Proof.Machine

open Sys2Proof

/-! ## Fetch (R204, R244, R306) -/

/-- What the fetch of one word finds. -/
inductive Fetch where
  | word (w : Word)
  | miss (line addr : Nat)
  | fault (cause : BitVec 8) (cap : DWord)

/-- The word at an offset of a team's code object: checked with need X, and taken from the core's instruction cache.
[DEDUCED: log entries 14 and 82] -/
def State.fetchWord (s : State) (t off : Nat) : Fetch :=
  let cap := capWith (s.codeOf t) off
  let obj := capObj cap
  let ctx := s.teamCtx t
  match s.check t cap 4 4 needX with
  | .error c => .fault c cap
  | .ok l =>
    match (s.core (s.team t).core).icache.find? fun w => w.ctx == ctx && w.obj == obj && w.off == off with
    | some w => .word w.word
    | none => match l with
      | .mem a .. => .miss (off / 128) (a - a % 128)
      | _ => .fault causeObject cap

/-- A miss on a line: the fetch agent reads it once for all that ask meanwhile (R191), which counts as an access of its
frame (R212). -/
def State.missFill (s : State) (t line addr : Nat) : State :=
  if s.fillDue t line then s
  else
    let core := (s.team t).core
    let obj := capObj (s.codeOf t)
    (s.countAccess core (s.teamCtx t) obj (128 * line / Config.frameBytes) addr).send
      (.fill (dieOf core) (s.teamCtx t) obj (128 * line) addr [])

/-- What the fetch of a unit finds: its words, a line to wait for, or a failure after some words (R62). -/
inductive UnitFetch where
  | got (ws : List Word)
  | miss (line addr : Nat)
  | fault (ws : List Word) (cause : BitVec 8) (cap : DWord)

/-- The words of the unit at a PC: hints of kinds 0-4 and the word after them, at most seven in all (R62).
[DEDUCED: log entry 82; DESIGN CHOICE: log entry 10] -/
def State.fetchUnit (s : State) (t : Nat) : (fuel : Nat) → (pc : Word) → (ws : List Word) → UnitFetch
  | 0, _, ws => .got ws
  | n + 1, pc, ws => match s.fetchWord t pc.toNat with
    | .miss line addr => .miss line addr
    | .fault c cap => .fault ws c cap
    | .word w => if isHint04 w then State.fetchUnit s t n (pc + 4) (ws ++ [w]) else .got (ws ++ [w])

/-! ## The fate of a unit (R78) -/

/-- The kind of a hint word. -/
def hintKind (w : Word) : Nat := (fld w 22 4).toNat

/-- Whether a number stands twice in a list. -/
def twice : List Nat → Bool
  | [] => false
  | x :: r => r.contains x || twice r

/-- Whether a unit breaks R62, for the guard ranges in force at its start.
[DEDUCED: log entry 82] -/
def unitMisuse (guards : List (Option Guard)) (unit : List Word) : Bool :=
  let hs := unit.dropLast
  let n := unit.length
  let target := unit.getLastD 0
  let opens := (List.range hs.length).any fun i => match guardOf (hs.getD i 0) with
    | some g => g.left != 0 && i + g.left + 1 < n
    | none => false
  let earlier := guards.any fun g => match g with
    | some g => g.left < n || hs.any fun h => hintKind h == 1
    | none => false
  twice (hs.map hintKind) || isHint04 target || opens || earlier || (hs.any (fun h => hintKind h == 0) && !isFormatI target)

/-- The high immediate bits that a unit's LIMM supplies. -/
def unitLimm (unit : List Word) : Option (BitVec 22) :=
  (unit.dropLast.find? fun h => hintKind h == 0).map fun h => fld h 0 22

/-- Whether a LIMM leaves reserved bits of its target set: IMM13[12:10] must be 0, and a shift takes no immediate beyond
its count (R60, R404).
[DEDUCED: log entry 82] -/
def limmBad (unit : List Word) : Bool :=
  let w := unit.getLastD 0
  match unitLimm unit with
  | some p => fld w 11 3 != 0 || (8 ≤ majorOf w && majorOf w ≤ 10 && p != 0)
  | none => false

/-- The class bits of an instruction (R80). -/
def classesOf : Instr → List Nat
  | .fadd t .. | .fsub t .. | .fmul t .. | .fma t .. | .fmin t .. | .fmax t .. | .fabs t .. | .fneg t .. =>
    if t = 1 then [0] else []
  | .fcmp _ t .. => if t = 1 then [0] else []
  | .fcvt e _ _ c _ =>
    (if e = 7 ∨ c = 7 then [0] else []) ++ (if e = 8 ∨ e = 9 ∨ c = 8 ∨ c = 9 then [3] else [])
  | .atfadd w .. => if w then [0] else []
  | .redadd t .. | .redmin t .. | .redmax t .. | .scanadd t .. | .scanaddx t .. => if t = 5 then [0] else []
  | .frcp t .. | .frsq t .. | .fsqrt t .. => if t then [0, 4] else [4]
  | .fexp2 .. | .flog2 .. | .fsin .. | .fcos .. => [4]
  | .mma .. | .mrdy .. | .mwait .. | .wbld .. => [1]
  | .dcor .. => [2]
  | .qpack .. | .qunpk .. => [3]
  | .chain .. | .strm .. => [5]
  | .coll .. => [6]
  | .launch .. | .launcht .. | .cwait => [7]
  | _ => []

/-- The emulation cause of a unit, or none when it executes (R78).
[DEDUCED: log entry 82; DESIGN CHOICE: log entry 10] -/
def unitFate (classen : BitVec 8) (guards : List (Option Guard)) (unit : List Word) : Option (BitVec 8) :=
  let w := unit.getLastD 0
  let badHint (h : Word) : Bool := match decode h with
    | .ok _ => false
    | .error _ => true
  if majorOf w = 0x3E ∧ (hintKind w = 6 ∨ hintKind w = 7) then some 0x06
  else if unitMisuse guards unit then some 0x07
  else if unit.dropLast.any badHint then some 0x03
  else match decode w with
    | .error r => some r.cause
    | .ok i =>
      if limmBad unit then some 0x03
      else if (classesOf i).any fun c => !classen.getLsbD c then some 0x04
      else none

/-! ## Physical upsets (R319, R320, R322, R323) -/

/-- The next upset, if one waits: the state, and whether the unit is consumed. The records of an upset that a word outlives
carry no MC_INFO (R327 does not say which events do).
[DESIGN CHOICE: log entries 84 and 95] -/
def State.meetUpset (s : State) : State × Bool :=
  match s.upsets with
  | [] => (s, false)
  | u :: r =>
    let s := { s with upsets := r }
    let t := s.cur.team
    let core := (s.team t).core
    match u with
    | .timing => (s.coreEvent core 0x0101 .corrected none, false)
    | .residue false => (s.coreEvent core 0x0102 .corrected none, false)
    | .residue true => (s.consume t, true)
    | .parity both =>
      if s.curCrew.mirror && !both then (s.coreEvent core 0x0103 .corrected none, false) else (s.consume t, true)

/-! ## Words of a unit (R63) -/

/-- What a braid does when its turn comes. -/
inductive Plan where
  | run (s : State) (i : Instr)
  | stop (s : State)

/-- The instruction of a word of a unit whose fate is to execute. -/
def wordInstr (w : Word) : Instr := match decode w with
  | .ok i => i
  | .error r => .emulationVector r.cause w 1

/-- The braid begins a unit: its fibres note where it begins, and its words are fetched (R63, R306). -/
def State.openUnit (s : State) (t c : Nat) (B : Braid) : Plan :=
  let s := { s with cur := { team := t, crew := c, lanes := B.lanes, unit := [] } }
  let s := s.mapLanes B.lanes fun _ L => { L with ustart := L.pc, guard0 := L.guard, hints := {} }
  let pc := (s.curLane (B.lanes.headD 0)).pc
  match s.fetchUnit t 7 pc [] with
  | .miss line addr =>
    let s := (s.missFill t line addr).park fun _ => .fetch line
    .stop { s with cur := { s.cur with starved := true } }
  | .fault ws cause cap =>
    .stop ({ s with cur := { s.cur with unit := ws } }.trapAt (fun g => ws.foldl guardStep g) cause 0 (BitVec.ofNat 3 (ws.length + 1)) cap)
  | .got ws =>
    let s := { s with cur := { s.cur with unit := ws } }
    match unitFate (s.ctx (s.teamCtx t)).classen (B.lanes.map fun l => (s.curLane l).guard) ws with
    | some cause => .run s (.emulationVector cause (ws.getLastD 0) (BitVec.ofNat 3 ws.length))
    | none =>
      let s := s.setCurCrew { s.curCrew with braids := s.curCrew.braids.map fun b =>
        if b.lanes = B.lanes then { b with unit := ws, issued := 0 } else b }
      .run s (wordInstr (ws.headD 0))

/-- The braid's next word. -/
def State.planBraid (s : State) (t c : Nat) (B : Braid) : Plan :=
  if B.midUnit then
    .run { s with cur := { team := t, crew := c, lanes := B.lanes, unit := B.unit } } (wordInstr (B.unit.getD B.issued 0))
  else s.openUnit t c B

/-! ## After a word (R63, R166, R198) -/

/-- A braid keeps the fibres that may still issue; one that is within a unit keeps them all or goes. -/
def Crew.keepBraid (C : Crew) (b : Braid) : Option Braid :=
  let ls := b.lanes.filter fun l => (C.lane l).canJoin
  if ls.isEmpty then none
  else if b.midUnit then (if ls.length = b.lanes.length then some b else none)
  else some { b with lanes := ls }

/-- The fibres of a braid that lost its unit stand at the unit's start again. -/
def Crew.reopen (C : Crew) (b : Braid) : Crew :=
  if b.midUnit && (C.keepBraid b).isNone then
    C.setLanes ((b.lanes.filter fun l => (C.lane l).live).map fun l => (l, (C.lane l).restart))
  else C

/-- The braids of a crew after one of them issued a word: it goes on with its unit, or its fibres form one braid for
each PC; others keep theirs; fibres newly Ready form braids of their own.
[DEDUCED: log entry 83] -/
def Crew.afterWord (C : Crew) (B : Braid) (ls : List Nat) (cycle : Nat) (whole : Bool) : Crew :=
  let mine := C.braids.find? fun b => b.lanes = B.lanes
  let others := C.braids.filter fun b => b.lanes ≠ B.lanes
  let C := others.foldl Crew.reopen C
  let kept := others.filterMap C.keepBraid
  let next : Option Braid := match mine with
    | some b =>
      let b := { b with issued := b.issued + 1, last := cycle + 1 }
      if whole && b.midUnit && b.lanes.all fun l => (C.lane l).canJoin then some b else none
    | none => none
  let stall := match mine with
    | some b => if b.yield then cycle + 2 else 0
    | none => 0
  match next with
  | some b => { C with braids := kept ++ [b] }
  | none =>
    let free := ls.filter fun l => (C.lane l).canJoin && !kept.any fun b => b.lanes.contains l
    let C := Crew.form { C with braids := kept } ((C.byPc free).map fun b => { b with stall := stall })
    C.rebraid C.braids

/-- The selected braid's counts reset; every other braid of the crew was passed over once (R198, R199).
[DEDUCED: log entry 83] -/
def Crew.counted (C : Crew) (B : Braid) (cycle : Nat) : Crew :=
  let others := (C.braids.flatMap Braid.lanes).filter fun l => !B.lanes.contains l
  C.setLanes ((B.lanes.map fun l => (l, { (C.lane l) with age := cycle + 1, waits := 0, passes := 0 }))
    ++ others.map fun l => (l, { (C.lane l) with passes := (C.lane l).passes + 1 }))

/-- The counts of a crew's fibres as they stood: a braid whose word did not issue, for want of a source or of its words,
was not eligible (R198).
[DEDUCED: log entry 83] -/
def Crew.uncounted (C0 C : Crew) : Crew :=
  { C with lanes := C.lanes.mapVals fun l L =>
      { L with age := (C0.lane l).age, waits := (C0.lane l).waits, passes := (C0.lane l).passes } }

def State.uncounted (s : State) (t c : Nat) (C0 : Crew) : State :=
  if s.cur.starved then s.updCrew t c C0.uncounted else s

/-- What follows the word that a braid issued, or its stop.
[DEDUCED: log entry 83] -/
def State.afterWord (s : State) (t c : Nat) (B : Braid) (cycle : Nat) (whole : Bool) : State :=
  let ls := (List.range 32).filter fun l => B.lanes.contains l || (s.cur.team == t && s.cur.crew == c && s.cur.lanes.contains l)
  s.updCrew t c fun C => C.afterWord B ls cycle whole

/-- Runs an instruction for the issuing braid and settles what follows. -/
def State.runWord (s : State) (t c : Nat) (B : Braid) (cycle : Nat) (i : Instr) : Result :=
  let whole := i.word?.isSome
  match exec i s with
  | .next s => .next (s.afterWord t c B cycle whole)
  | r => r

/-- A word that issues meets the upset that waits, if any.
[DESIGN CHOICE: log entry 84] -/
def State.upsetWord (s : State) (t c : Nat) (B : Braid) (cycle : Nat) (i : Instr) : Result :=
  let u := s.meetUpset
  if u.2 then .next ((u.1.mapLanes B.lanes fun _ L => L.restart).afterWord t c B cycle false)
  else u.1.runWord t c B cycle i

/-- A braid issues one word, or is found not eligible: then nothing is counted and no upset is met.
[DESIGN CHOICE: log entries 10 and 84] -/
def State.issueBraid (s : State) (t c : Nat) (B : Braid) : Result :=
  let cycle := (s.core (s.team t).core).cycle
  match (s.updCrew t c fun C => C.counted B cycle).planBraid t c B with
  | .stop s1 => .next ((s1.afterWord t c B cycle false).uncounted t c (s.crew t c))
  | .run s1 i =>
    match s1.runWord t c B cycle i with
    | .next s2 =>
      if s2.cur.starved then .next (s2.uncounted t c (s.crew t c))
      else if s1.upsets.isEmpty then .next s2
      else s1.upsetWord t c B cycle i
    | r => r

/-- Whether a braid is kept from issuing by an empty source or an absent instruction line (R198). -/
def State.starves (s : State) (t c : Nat) (B : Braid) : Bool := match s.planBraid t c B with
  | .stop s => s.cur.starved
  | .run s i => match exec i s with
    | .next s => s.cur.starved
    | _ => false

/-! ## Selection (R198, R199) -/

/-- A braid that competes: team, crew, the braid, and what R198 says of it. -/
structure Rival where
  team : Nat
  crew : Nat
  braid : Braid
  prio : Nat
  aged : Bool
  age : Nat
  passes : Nat
  slot : Nat
  deriving DecidableEq, Repr

/-- Whether SCHED or YIELD holds a braid: STALL holds the target of its unit (R387). -/
def Braid.held (b : Braid) (cycle : Nat) : Bool :=
  decide (cycle < b.stall) && (!b.midUnit || b.issued + 1 == b.unit.length)

/-- The eligible braids of a quadrant of a core. -/
def State.rivals (s : State) (core quadrant : Nat) : List Rival :=
  let cycle := (s.core core).cycle
  ((s.crewsOn core).filter fun x => x.2 % 4 == quadrant).flatMap fun x =>
    let C := s.crew x.1 x.2
    (C.braids.filter fun b => !b.held cycle && !b.lanes.isEmpty && b.lanes.all fun l => (C.lane l).canJoin).map fun b =>
      let waits := b.lanes.foldl (fun m l => max m (C.lane l).waits) 0
      { team := x.1, crew := x.2, braid := b
        prio := min 15 (C.prio.toNat + waits / 1024)
        aged := C.prio.toNat != 15 && 15 ≤ C.prio.toNat + waits / 1024
        age := b.lanes.foldl (fun m l => min m (C.lane l).age) (C.lane (b.lanes.headD 0)).age
        passes := b.lanes.foldl (fun m l => max m (C.lane l).passes) 0
        slot := 32 * (s.team x.1).slot + x.2 }

/-- Whether one list of numbers comes before another. -/
def firstOf : List Nat → List Nat → Bool
  | x :: r, y :: t => x < y || (x == y && firstOf r t)
  | _, _ => false

/-- The rank of a braid: priority, age, crew slot, first lane. -/
def Rival.rank (r : Rival) : List Nat := [15 - r.prio, r.age, r.slot, r.braid.lanes.headD 0]

/-- The first of some braids by a rank. -/
def bestBy (f : Rival → List Nat) : List Rival → Option Rival
  | [] => none
  | x :: r => some (r.foldl (fun m y => if firstOf (f y) (f m) then y else m) x)

/-- The winner of R199 among eligible braids. A braid within a unit goes first, the one that issued last before one whose
target waited on a SCHED stall (R63). -/
def winner (xs : List Rival) : Option Rival :=
  match xs.filter fun x => x.braid.midUnit with
  | x :: r =>
    let last := r.foldl (fun m y => max m y.braid.last) x.braid.last
    bestBy Rival.rank ((x :: r).filter fun y => y.braid.last == last)
  | [] =>
    match xs.filter Rival.aged with
    | y :: ys => bestBy Rival.rank (y :: ys)
    | [] =>
      let passed (x : Rival) : Bool := xs.any fun y => y.team == x.team && y.crew == x.crew && 64 ≤ y.passes
      let oldest (x : Rival) : Bool := 64 ≤ x.passes && xs.all fun y =>
        y.team != x.team || y.crew != x.crew || y.passes < 64 || !firstOf [y.age, y.braid.lanes.headD 0] [x.age, x.braid.lanes.headD 0]
      bestBy Rival.rank (xs.filter fun x => !passed x || oldest x)

/-! ## The merge rule (R167, R199) -/

/-- The PC of a braid's next word; a braid within a unit stands at it. -/
def State.nextPc (s : State) (x : Rival) : Word := (s.lane x.team x.crew (x.braid.lanes.headD 0)).pc

/-- The words that a braid still issues of its unit, or those of the unit that it would begin. -/
def State.nextWords (s : State) (x : Rival) : List Word :=
  if x.braid.midUnit then x.braid.unit.drop x.braid.issued
  else match s.fetchUnit x.team 7 (s.nextPc x) [] with
    | .got ws => ws
    | _ => []

/-- Whether a word may issue from two braids as one: no convergence point (R169) and none of format X (R56). -/
def mergeable (w : Word) : Bool :=
  let m := majorOf w
  let fn := (fld w 20 6).toNat
  let formatX : List Nat := [0x00, 0x1E, 0x20, 0x21, 0x22, 0x23, 0x24]
  !formatX.contains m && m != 0x11 && m != 0x12 && !(m == 0x16 && fn == 3) && !(m == 0x0E && fn / 16 == 1)

/-- Whether a braid may issue with the winner. A unit issues as one whole, so every word that is left of it must be one
that may merge (R63). -/
def State.merges (s : State) (w x : Rival) : Bool :=
  x.team == w.team && x.crew != w.crew && s.nextPc x == s.nextPc w && s.nextWords x == s.nextWords w
    && !(s.nextWords w).isEmpty && (s.nextWords w).all mergeable && !x.braid.lanes.any w.braid.lanes.contains

/-- The first of the braids that may merge with a winner which has issued, of those that still compete, issues too.
[DEDUCED: log entry 81] -/
def State.issuePartner (core q : Nat) : (fuel : Nat) → List Rival → State → Result
  | 0, _, s => .next s
  | n + 1, xs, s =>
    let here (x : Rival) : Bool := (s.rivals core q).any fun y => y.team == x.team && y.crew == x.crew && y.braid == x.braid
    match bestBy Rival.rank (xs.filter here) with
    | none => .next s
    | some x => match s.issueBraid x.team x.crew x.braid with
      | .next s1 => if s1.cur.starved then State.issuePartner core q n (xs.filter (· != x)) s1 else .next s1
      | r => r

/-! ## A core's turn -/

/-- A cycle of a core ends: braids that were eligible and did not issue have waited one more (R198), and a regroup is
due at every fourth (R165). -/
def State.endCycle (s : State) (core : Nat) : State :=
  let cycle := (s.core core).cycle
  let wait (s : State) (x : Nat × Nat) : State := s.updCrew x.1 x.2 fun C =>
    let ls := (C.braids.filter fun b => !b.held cycle && !s.starves x.1 x.2 b).flatMap Braid.lanes
    C.setLanes ((ls.filter fun l => (C.lane l).canJoin && (C.lane l).age ≤ cycle).map fun l =>
      (l, { (C.lane l) with waits := (C.lane l).waits + 1 }))
  let s := (s.crewsOn core).foldl wait s
  s.updCore core fun K => { K with cycle := cycle + 1, quadrant := 0, regroupDue := (cycle + 1) % 4 == 0 }

/-- The next quadrant of the cycle that has a braid which may issue, and the braid whose turn it is: one that an empty
source or an absent instruction line keeps from issuing parks first, so that it competes with none (R59, R198), else the
winner.
[DESIGN CHOICE: log entry 10] -/
def State.pick (s : State) (core : Nat) : (fuel : Nat) → (q : Nat) → Option (Nat × Rival)
  | 0, _ => none
  | n + 1, q =>
    if 4 ≤ q then none
    else
      let xs := s.rivals core q
      match (xs.find? fun x => s.starves x.team x.crew x.braid).orElse fun _ => winner xs with
      | some r => some (q, r)
      | none => State.pick s core n (q + 1)

/-- What follows the winner's word: a braid that was not eligible leaves its quadrant to the others, and beside one that
issued a partner may issue; then the next quadrant has its turn. `s` is the state in which it was chosen. -/
def State.afterWinner (s : State) (core q : Nat) (r : Rival) : Result → Result
  | .next s1 =>
    if s1.cur.starved then .next (s1.updCore core fun K => { K with quadrant := q })
    else
      let xs := (s.rivals core q).filter (s.merges r)
      State.issuePartner core q xs.length xs (s1.updCore core fun K => { K with quadrant := q + 1 })
  | x => x

/-- One turn of a core: the regroup that is due, the next word of the cycle with the word merged with it, or the end of the
cycle.
[DESIGN CHOICE: log entries 5 and 10] -/
def State.coreTurn (s : State) (core : Nat) : Result :=
  let K := s.core core
  if K.regroupDue then exec (.regroup core) s
  else match s.pick core 4 K.quadrant with
    | none => .next (s.endCycle core)
    | some (q, r) => s.afterWinner core q r (s.issueBraid r.team r.crew r.braid)

/-! ## The agenda -/

/-- After every turn the launches whose last writes are performed end (R188), and what the device itself had to write and
could not is written. -/
def endTurn : Result → Result
  | .next s => .next s.settleEnding.settleHeld.settleRings
  | r => r

/-- One entry of the agenda. Words issue from braids only, so an event that is a word, or a vector, does nothing.
[DESIGN CHOICE: log entry 5] -/
def State.takeTurn (s : State) : Turn → Result
  | .event i => match i.word?, i with
    | some _, _ => .next s
    | none, .emulationVector .. => .next s
    | none, i => exec i s
  | .core c => s.coreTurn c
  | .advance ns => .next { s with ftime := s.ftime + ns }
  | .act a => .next (s.perform a)

def State.runTurn (s : State) (x : Turn) : Result := endTurn (s.takeTurn x)

/-- The events that move a message in flight on. -/
def Msg.events (k : Nat) : Msg → List Instr
  | .fill .. => [.icacheFill k MemErr.none]
  | .read .. => [.homeRead k MemErr.none]
  | .readReply .. => [.loadReply k]
  | .write .. => [.writePerform (.flight k) MemErr.none, .failedAcknowledgement k]
  | .back .. => [.writePerform (.flight k) MemErr.none, .failedAcknowledgement k]
  | .ack .. => [.writeAcknowledge k]
  | .backAck .. => [.writeAcknowledge k]
  | .atomic .. => [.atomicPerform k MemErr.none, .failedAcknowledgement k]
  | .atomicReply .. => [.atomicReply k]
  | .held _ _ _ _ _ atom => if atom then [.atomicReply k] else [.loadReply k]
  | .engineAck .. => [.writeAcknowledge k]
  | .division .. => [.divisionComplete k]
  | .special .. => [.sfuComplete k]
  | .ftime .. => [.ftimeReadComplete k]
  | .dirty .. => [.dirtyNotice k]
  | .check .. => [.ldspCheck k]
  | .checkReply .. => [.checkReply k]
  | .stashFill .. => [.stashFill k MemErr.none]

/-- The events that move an engine operation on; a link's loss is one where a device of the set is no longer reached. -/
def State.jobEvents (s : State) (k : Nat) : Job → List Instr
  | .copy .. => [.copyChunk k [], .copyCount k]
  | .chain .. => [.chainChunk k [], .copyCount k]
  | .wbld .. => [.wbldComplete k []]
  | .coll j =>
    let fresh := ((List.range (j.sent.length + 1)).find? fun i => !j.sent.contains i).getD 0
    let due := ((j.sent.find? fun i => !j.acked.contains i).map fun i => [Instr.collAck k i]).getD []
    let lost := j.lost || (!j.broken.isEmpty && j.members.any fun m => s.lost m.1)
    [.collChunk k fresh (.rank 0) []] ++ due ++ [.copyCount k] ++ (if lost then [.linklost k] else [.collReform k])
  | .notice .. => [.copyCount k]

/-- The events that take a message from another device up. -/
def linkEvents (k : Nat) : LinkMsg → List Instr
  | .spanBlock .. => [.spanBlock k]
  | .spanReply .. => [.spanReply k]
  | .spanStart .. => [.spanStart k]
  | .spanAbort .. => [.abort k]
  | .stop .. => [.stop k]
  | .stopped .. => [.stopped k]
  | _ => []

/-- The events of a launch and of a team that may be due. -/
def Launch.events (k : Nat) (L : Launch) : List Instr := match L.phase with
  | .asking .. => [.spanTimeout k]
  | .armed _ => [.spanTstart k]
  | .stopping .. => [.stopTimeout k]
  | _ => []
def Team.events (k : Nat) (T : Team) : List Instr := match T.state with
  | .starting => [.launchPacket k, .teamStart k]
  | .running => if T.consumed then [.rollback k] else []
  | .draining => (if T.consumed then [.rollback k] else []) ++ [.teamDrain k, .teamRetire k]
  | .evicted => (List.range Config.cores).map fun c => .restoreTeam k c
  | .retired => []

/-- The crews of a team whose watch entries age (R237). -/
def Team.agedEvents (k now : Nat) (T : Team) : List Instr :=
  (T.body.crews.filter fun c => c.2.watch.any fun e => e.2.state == .pending && e.2.stateAt now != .pending).map fun c =>
    .watchAgeStrike k c.1

/-- The events of a core: its array's head, and what Onyx is due to do with it (R200). -/
def Core.events (k now : Nat) (K : Core) : List Instr :=
  (if K.mats.isEmpty then [] else [.mmaComplete k [], .dcorComplete k])
    ++ (if K.slotDue ≤ now ∨ K.withheld.isSome ∨ K.testing.isSome then
      [.onyxDue k, .onyxSlice k, .onyxSliceEnd k false, .onyxLapse k] else [])

/-- The cores of which something may be due: before the first due time of R200, those that have done something. -/
def State.coresDue (s : State) : List Nat := if s.ftime < onyxStep then s.cores.map Prod.fst else List.range Config.cores

/-- The events of a page motion (R262, R265, R267). -/
def Motion.events (m : Motion) : List Instr :=
  if m.frozen then (m.migrating.map fun l => .motionLineCopied (l - m.src / 128) MemErr.none) ++ [.motionSwitch]
  else [.motionRound []]

/-- The events of the mailbox (R342). -/
def Mailbox.events (m : Mailbox) : List Instr :=
  if m.busy then [.create, .updateOt, .updateScope, .moveFrame, .kill, .reset, .fwStage, .fwActivate, .logRead] else []

/-- The events of what is in flight and of what runs on its own, oldest first.
[DESIGN CHOICE: log entry 5] -/
def State.dueEvents (s : State) : List Instr :=
  s.msgs.flatMap (fun m => m.2.events m.1) ++ s.jobs.flatMap (fun (j : Nat × Job) => s.jobEvents j.1 j.2)
    ++ s.coresDue.flatMap (fun c => (s.core c).events c s.ftime) ++ (s.motion.map Motion.events).getD [] ++ s.mailbox.events
    ++ s.linkIn.flatMap (fun m => linkEvents m.1 m.2)
    ++ s.records.flatMap (fun r => [.commandNop r.1, .commandWait r.1, .commandLaunch r.1])
    ++ s.teams.flatMap (fun T => T.2.events T.1 ++ T.2.agedEvents T.1 s.ftime) ++ s.launches.flatMap (fun L => L.2.events L.1)
    ++ [.placeTeams, .commandFetch 0, .commandFetch 1]

/-- Whether an event changes the state. -/
def State.moves (s : State) (i : Instr) : Bool := match exec i s with
  | .next s' => s' != s
  | _ => false

/-- The core whose turn comes when nothing else is due: of those with fibres that may issue or wake, the one furthest
behind. -/
def State.focus (s : State) : Option Nat :=
  let busy := (s.teams.filter fun T => T.2.issues).map fun T => T.2.core
  match busy.eraseDups with
  | [] => none
  | c :: r => some (r.foldl (fun m x => if (s.core x).cycle < (s.core m).cycle then x else m) c)

/-- With an empty agenda, what is in flight moves on first; then a core takes its turn, FTIME passing with its
regroups; with nothing to run, FTIME passes.
[DESIGN CHOICE: log entry 5] -/
def State.idle (s : State) : Result :=
  match s.dueEvents.find? s.moves with
  | some i => endTurn (exec i s)
  | none =>
    match s.focus with
    | none => endTurn (.next { s with ftime := s.ftime + 1 })
    | some c =>
      let s := if (s.core c).regroupDue then { s with ftime := s.ftime + 1 } else s
      endTurn (s.coreTurn c)

end Sys2Proof.Machine
end

