-- ==== Sys2Proof/Machine/Step.lean ====
section
/-! DEFINITION. One step of the machine, and the placing of one instruction where the next step fetches. -/

namespace Sys2Proof.Machine

open Sys2Proof

/-- One step: the next entry of the agenda, or, when it is empty, what is due by itself (log entry 5).
[DESIGN CHOICE: log entry 5] -/
def step (s : State) : Host.Outcome State Fault Refusal :=
  match s.agenda with
  | [] => s.idle
  | x :: r => ({ s with agenda := r }).runTurn x

/-- The object number, object table and extent table of the program that `State.withFetchWord` places. -/
def fetchObject : Nat := 16
def fetchTable : Nat := 0x200000
def fetchExtents : Nat := 0x201000

/-- The code capability of that program: rights R and X. -/
def fetchCode : DWord := BitVec.ofNat 22 fetchObject ++ (10 : BitVec 4) ++ (0 : BitVec 38)

/-- The word after the placed one: a LIMM needs a target of format I.
[DESIGN CHOICE: log entry 6] -/
def fetchNext (w : Word) : Word :=
  if majorOf w = 0x3E ∧ fld w 22 4 = 0 then packI 0x0C 0 0 0 false else 0

/-- The bytes of the placed program's object-table entry: 2 MiB, valid, rights R and X, one extent (R207). -/
def fetchEntry : List Byte :=
  leBytes 8 Config.frameBytes ++ leBytes 4 (2 ^ 31 + 10 * 2 ^ 27) ++ leBytes 4 0 ++ leBytes 8 fetchExtents ++ leBytes 8 0

/-- A launch of one fibre of that program.
[DESIGN CHOICE: log entry 6] -/
def fetchLaunch (chip : Nat) : Launch where
  ctx := 0
  gen := 1
  block :=
    { code := fetchCode, entry := 0, cores := false, gx := 1, gy := 1, gz := 1, nfib := 1, part := 5, span := 64, stash := 1
      tensor := 1, fmode := 16, ftrapen := 0, trapvec := 64, emuvec := 128, args := 0, argLen := 0, nchip := 1, chips := 0 }
  depth := 0
  source := .host 0 0 0 0
  phase := .running
  chips := [chip]
  code := []
  args := []
  argTags := []
  argPoison := []
  pending := []

/-- Its team: one Ready fibre at ENTRY in lane 0 of crew 0.
[DESIGN CHOICE: log entry 6] -/
def fetchTeam : Team :=
  let lane : Lane := { state := .ready }
  let braid : Braid := { lanes := [0] }
  let crew : Crew := { lanes := [(0, lane)], braids := [braid] }
  { launch := 1, index := 0, state := .running, packet := true, body := { crews := [(0, crew)] } }

/-- The state with an instruction placed as a program that runs: an Active context 0 with a code object, whose first
words stand in memory and in the instruction cache of core 0; a launch, its team, and the turn of core 0 next. It
stands for what a host does from reset (log entry 6).
[DESIGN CHOICE: log entry 6] -/
def State.withFetchWord (s : State) (nbits w : Nat) : State :=
  let w0 : Word := BitVec.ofNat 32 (w % 2 ^ nbits)
  let w1 := fetchNext w0
  let line (off : Nat) (x : Word) : IWord := { ctx := 0, obj := fetchObject, off := off, word := x }
  let mem := ((s.mem.setBytes 0 (wordBytes w0 ++ wordBytes w1)).setBytes (fetchTable + 32 * fetchObject) fetchEntry).setBytes
    fetchExtents (leBytes 8 (2 * 2 ^ 61 + s.chipno * 2 ^ 22))
  { s with
    mem := mem
    ctxs := s.ctxs.put 0 { state := .active, otab := fetchTable, otsize := fetchObject + 1, classen := 0xFF }
    launches := [(1, fetchLaunch s.chipno)]
    teams := [(2, fetchTeam)]
    cores := s.cores.put 0 { regroupDue := false, icache := [line 0 w0, line 4 w1], roles := some (1, 1) }
    msgs := []
    jobs := []
    upsets := []
    agenda := [.core 0]
    next := Nat.max s.next 3 }

end Sys2Proof.Machine
end

