-- ==== Sys2Proof/Safety.lean ====
section
/-! DEFINITION. The terms in which claims are stated: when a word's operands are ready, what a word leaves as it was, and
the states that instructions of one shape give. -/

namespace Sys2Proof.Machine

open Sys2Proof

/-! ## Operands that are ready (R59, R87, R92) -/

/-- A member of a field that is `z`, or a full register of the span. -/
def Lane.slotFull (L : Lane) : Slot → Bool
  | .zero => true
  | .reg n => (L.reg n).full
  | .bad => false

/-- Every member of a field is in the span and full in a fibre of the issuing braid. -/
def State.fieldFull (s : State) (l : Nat) (f : RegF) (n : Nat) : Bool :=
  (s.env.slots l (s.curLane l) f n).all (s.curLane l).slotFull

/-- No member of a field holds part of a poisoned tile (R334). -/
def State.fieldSound (s : State) (l : Nat) (f : RegF) (n : Nat) : Bool :=
  (s.env.regsOf l (s.curLane l) f n).all fun k => !(s.curLane l).spoilt.contains k

/-- A source that is full, that no stream is bound to (R96), and that no poisoned tile stands in (R334). -/
def State.srcReady (s : State) (l : Nat) (x : Src) : Bool :=
  ((s.curLane l).streamAt x.f).isNone && s.fieldFull l x.f x.n && s.fieldSound l x.f x.n

/-- A word with these sources and destinations can take effect: its guard is true in some fibre, no MMA in flight names
registers of the crew (R242), and in every fibre for which it takes effect its fields are in the span and full. -/
def State.ready (s : State) (srcs : List Src) (dsts : List Dst) : Bool :=
  !s.effective.isEmpty && s.curCrew.named.isEmpty
    && s.effective.all fun l => srcs.all (s.srcReady l) && dsts.all fun d => s.fieldFull l d.f d.n

/-- The value of a source in a fibre of the issuing braid. -/
def State.operand (s : State) (l : Nat) (x : Src) : Val := s.env.get l (s.curLane l) x.f x.n

/-! ## Exact values and their one rounding (R129-R137) -/

/-- The exact value of a finite value; 0 for the others. -/
def FVal.value : FVal → ℚ
  | .fin s n e => (if s then -1 else 1) * n * 2 ^ e
  | _ => 0

/-- Where a value that is no NaN stands among the numbers and the two infinities. -/
def FVal.order : FVal → WithBot (WithTop ℚ)
  | .inf true => ⊥
  | .inf false => ((⊤ : WithTop ℚ) : WithBot (WithTop ℚ))
  | x => ((x.value : WithTop ℚ) : WithBot (WithTop ℚ))

/-- R136 over the whole numbers: `n` is what a magnitude rounds to, of a value with a sign. -/
def RMode.takes (rm : RMode) (s : Bool) (x : ℝ) (n : ℕ) : Prop :=
  let down := n ≤ x ∧ x < n + 1
  let up := x ≤ n ∧ n < x + 1
  match rm with
  | .rne => |x - n| ≤ 1 / 2 ∧ (|x - n| = 1 / 2 → n % 2 = 0)
  | .rtz => down
  | .rup => if s then down else up
  | .rdn => if s then up else down

/-- A result is the finite value of a sign and a magnitude. -/
def Fmt.holds (f : Fmt) (r : FRes) (s : Bool) (y : ℝ) : Prop :=
  r.bits < 2 ^ f.width ∧ ∃ n e, f.read false r.bits = .fin s n e ∧ (n : ℝ) * 2 ^ e = y

/-- R132, R136, R137 and R139 for an exact result of a sign and a magnitude above 0: it is rounded once to the precision
of the format with the exponent unbounded (`m`); above the largest finite value it overflows; below the smallest normal
it is tiny, and flushed or rounded onto the grid of the subnormals (`t`); else it is what is written. -/
def Fmt.rounds (f : Fmt) (a : Attr) (s : Bool) (x : ℝ) (r : FRes) : Prop :=
  let unit : ℝ := 2 ^ (Int.log 2 x - f.fw)
  let grid : ℝ := 2 ^ (f.emin - f.fw)
  ∃ m t : ℕ, a.rm.takes s (x / unit) m ∧ a.rm.takes s (x / grid) t ∧
    if ((f.read false (f.maxFinite false)).value : ℝ) < m * unit then r = f.overflow a s
    else if m * unit < 2 ^ f.emin then
      if a.flush ∧ ¬f.isFp8 then r = ⟨f.signBit s, flUF ||| flNX⟩
      else f.holds r s (t * grid) ∧ r.flags = if t * grid = x then 0 else flUF ||| flNX
    else f.holds r s (m * unit) ∧ r.flags = if m * unit = x then 0 else flNX

/-- R376: an exact result; a zero has the sign that the operation gives it. -/
def Fmt.exactly (f : Fmt) (a : Attr) (zero : Bool) (v : ℚ) (r : FRes) : Prop :=
  if v = 0 then r = ⟨f.signBit zero, 0⟩ else f.rounds a (decide (v < 0)) (|v| : ℚ) r

/-- A finite result within a bound of an exact value. -/
def Fmt.near (f : Fmt) (r : FRes) (v bound : ℝ) : Prop :=
  r.bits < 2 ^ f.width ∧ (f.read false r.bits).isFinite ∧ |((f.read false r.bits).value : ℝ) - v| ≤ bound

/-- A finite result within some units in the last place of an exact value: units of its binade, or of the subnormals. -/
def Fmt.nearUlps (f : Fmt) (r : FRes) (v : ℝ) (k : Nat) : Prop :=
  f.near r v (k * 2 ^ (max (Int.log 2 |v|) f.emin - f.fw))

/-! ## States that words give -/

/-- Every fibre of the braid goes on past the word, those for which it takes effect changed by `g` (R63, R64). -/
def State.done (s : State) (g : Nat → Lane → Lane) : State :=
  s.mapLanes s.cur.lanes fun l L => (if L.guardTrue then g l L else L).advance

/-- A word that writes a destination field and raises flags. -/
def State.wrote (s : State) (d : Dst) (v : Nat → Lane → Val) (fl : Nat → Lane → BitVec 8) : State :=
  s.done fun l L => (s.env.put l L d (v l L)).raise (fl l L)

/-- A word that writes a predicate with its tag and raises flags. -/
def State.wroteQ (s : State) (q : PredF) (v t : Nat → Lane → Bool) (fl : Nat → Lane → BitVec 8) : State :=
  s.done fun l L => (L.setQ q (v l L) (t l L)).raise (fl l L)

/-- A word without flags. -/
def noFlags : Nat → Lane → BitVec 8 := fun _ _ => 0

/-- The tag of a result: the sources' tags, the guard's tag and the taint (R109). -/
def State.tagOf (s : State) (srcs : List Src) (l : Nat) (L : Lane) : Bool :=
  srcs.any (fun x => (s.operand l x).tag) || L.gt

/-! ## Frames -/

/-- Memory reads as before, byte by byte and sector by sector. -/
def State.sameMemory (s t : State) : Prop :=
  (∀ a, t.mem.byte a = s.mem.byte a) ∧ (∀ k, t.mem.tag k = s.mem.tag k) ∧ ∀ k, t.mem.poisoned k = s.mem.poisoned k

/-- Beyond the issuing crew's lanes nothing changes: no other part of the state, no other team or crew, not the crew's
trap stack, tickets, watch table or status, no lane outside the braid. -/
def State.sameElsewhere (s t : State) : Prop :=
  { t with teams := s.teams } = s ∧ (∀ k, k ≠ s.cur.team → t.team k = s.team k)
    ∧ { t.team s.cur.team with body := { (t.team s.cur.team).body with crews := (s.team s.cur.team).body.crews } }
        = s.team s.cur.team
    ∧ (∀ c, c ≠ s.cur.crew → t.crew s.cur.team c = s.crew s.cur.team c)
    ∧ { t.curCrew with lanes := s.curCrew.lanes } = s.curCrew
    ∧ ∀ l, l ∉ s.cur.lanes → t.curLane l = s.curLane l

/-- A fibre before and after a word that may write the listed registers, predicates and flags: all else of it but its
progress (PC, guard range, hints) stays. -/
def Lane.sameBut (L M : Lane) (regs : List Nat) (preds : List PredF) (flags : BitVec 8) : Prop :=
  (∀ n, n ∉ regs → M.reg n = L.reg n ∧ M.spoilt.contains n = L.spoilt.contains n) ∧ (∀ q, q ∉ preds → M.q q = L.q q ∧ M.qt q = L.qt q)
    ∧ M.fstat &&& ~~~flags = L.fstat &&& ~~~flags
    ∧ { M with
        pc := L.pc, guard := L.guard, hints := L.hints, did := L.did, due := L.due, regs := L.regs, spoilt := L.spoilt
        preds := L.preds, ptags := L.ptags, fstat := L.fstat } = L

/-! ## Words on registers alone -/

/-- What a word that acts on registers alone reads and may write: source and destination fields, predicates, and the
flags of FSTAT that its entry names. -/
structure Shape where
  srcs : List Src
  dsts : List Dst := []
  preds : List PredF := []
  flags : BitVec 8 := 0
  deriving DecidableEq, Repr

/-- The floating flags of a rounding operation (R139). -/
def flRound : BitVec 8 := flNV ||| flOF ||| flUF ||| flNX

/-- A source with its wait bit. -/
def src (f : RegF) (n : Nat) (p : Bool) : Src := { f := f, n := n, trapping := p }

/-- The words that compute from their own fibre's registers and predicates, and finish at issue. -/
def shapeOf : Instr → Option Shape
  | .add d a b p q | .sub d a b p q | .mul d a b p q =>
    some { srcs := [src a 1 p, src b 1 q], dsts := [{ f := d }], flags := flSAT }
  | .mulh d a b p q | .mulhz d a b p q | .and d a b p q | .or d a b p q | .xor d a b p q | .andn d a b p q
  | .shl d a b p q | .shr d a b p q | .shra d a b p q | .rot d a b p q | .min d a b p q | .max d a b p q
  | .minz d a b p q | .maxz d a b p q | .bfx d a b p q | .sel _ d a b p q =>
    some { srcs := [src a 1 p, src b 1 q], dsts := [{ f := d }] }
  | .mad d a b p q => some { srcs := [src a 1 p, src b 1 q, src d 1 false], dsts := [{ f := d }], flags := flSAT }
  | .bfi d a b p q => some { srcs := [src a 1 p, src b 1 q, src d 1 false], dsts := [{ f := d }] }
  | .abs d a p => some { srcs := [src a 1 p], dsts := [{ f := d }], flags := flSAT }
  | .popc d a p | .clz d a p | .brev d a p => some { srcs := [src a 1 p], dsts := [{ f := d }] }
  | .addw d a b p q | .subw d a b p q =>
    some { srcs := [src a 2 p, src b 2 q], dsts := [{ f := d, n := 2 }], flags := flSAT }
  | .capb d a b p q => some { srcs := [src a 2 p, src b 2 q], dsts := [{ f := d, n := 2 }] }
  | .shlw d a b p q | .shrw d a b p q | .cadd d a b p q | .capn d a b p q =>
    some { srcs := [src a 2 p, src b 1 q], dsts := [{ f := d, n := 2 }] }
  | .cmpw _ _ d a b p q => some { srcs := [src a 2 p, src b 2 q], preds := [d] }
  | .cmp _ _ d a b p q => some { srcs := [src a 1 p, src b 1 q], preds := [d] }
  | .cmpi n a _ p => some { srcs := [src a 1 p], preds := [n ++ (0 : BitVec 1), n ++ (1 : BitVec 1)] }
  | .addi d a _ p => some { srcs := [src a 1 p], dsts := [{ f := d }], flags := flSAT }
  | .andi d a _ p | .ori d a _ p | .xori d a _ p => some { srcs := [src a 1 p], dsts := [{ f := d }] }
  | .shli d a _ p | .shri d a _ p | .shrai d a _ p => some { srcs := [src a 1 p], dsts := [{ f := d }] }
  | .movi d _ => some { srcs := [], dsts := [{ f := d }] }
  | .fadd t d a b p q | .fsub t d a b p q | .fmul t d a b p q =>
    some { srcs := [src a (typeN t) p, src b (typeN t) q], dsts := [{ f := d, n := typeN t }], flags := flRound }
  | .fma t d a b p q =>
    some { srcs := [src a (typeN t) p, src b (typeN t) q, src d (typeN t) false], dsts := [{ f := d, n := typeN t }]
           flags := flRound }
  | .fmin t d a b p q | .fmax t d a b p q =>
    some { srcs := [src a (typeN t) p, src b (typeN t) q], dsts := [{ f := d, n := typeN t }], flags := flNV }
  | .fabs t d a p | .fneg t d a p => some { srcs := [src a (typeN t) p], dsts := [{ f := d, n := typeN t }] }
  | .fcmp _ t d a b p q => some { srcs := [src a (typeN t) p, src b (typeN t) q], preds := [d], flags := flNV }
  | .fcvt e d a c p => some { srcs := [src a (codeN c) p], dsts := [{ f := d, n := codeN e }], flags := flRound ||| flSAT }
  | .qand d _ _ | .qor d _ _ | .qxor d _ _ | .qnot d _ | .qmov d _ => some { srcs := [], preds := [d] }
  | .tagq d a p => some { srcs := [src a 1 p], preds := [d] }
  | .tagp d => some { srcs := [], dsts := [{ f := d }] }
  | _ => none

/-- What a word asks of its fibres before its own effect: its source and destination fields, whether it is a release
(R240), and whether it takes effect in the lowest fibre only (R218, R272). -/
structure Reads where
  srcs : List Src := []
  dsts : List Dst := []
  release : Bool := false
  lowest : Bool := false
  deriving DecidableEq, Repr

/-- The words on registers, and all others that name fields or act in each fibre by itself: divisions, special functions,
lane and tile words, jumps, loads, stores, atomics, cache, stash, engine, launch and control words. CALL and CALLN, which
wait for g62 only where they are taken, and the words without fields that converge stand apart. -/
def readsOf : Instr → Option Reads
  | .divs w d a b p q | .divz w d a b p q | .rems w d a b p q | .remz w d a b p q =>
    some { srcs := [src a (wideN w) p, src b (wideN w) q], dsts := [{ f := d, n := wideN w }] }
  | .frcp w d a p | .fsqrt w d a p | .frsq w d a p => some { srcs := [src a (wideN w) p], dsts := [{ f := d, n := wideN w }] }
  | .fexp2 d a p | .flog2 d a p | .fsin d a p | .fcos d a p | .fspawn d a p =>
    some { srcs := [src a 1 p], dsts := [{ f := d }] }
  | .shfl d a b p q | .shflu d a b p q | .shfld d a b p q | .shflx d a b p q =>
    some { srcs := [src a 1 p, src b 1 q], dsts := [{ f := d }] }
  | .ballot d _ => some { dsts := [{ f := d }] }
  | .redadd t d a _ p | .redmin t d a _ p | .redmax t d a _ p | .redand t d a _ p | .redor t d a _ p | .redxor t d a _ p
  | .scanadd t d a _ p | .scanaddx t d a _ p =>
    some { srcs := [src a (if wideType t then 2 else 1) p], dsts := [{ f := d, n := if wideType t then 2 else 1 }] }
  | .qpack g n d a b p q =>
    some { srcs := [src a (groupSize g / 32) p, src b 1 q], dsts := [{ f := d, n := if n && g == 2 then 2 else 1 }] }
  | .qunpk g n d a p => some { srcs := [src a (if n && g == 2 then 2 else 1) p], dsts := [{ f := d, n := groupSize g / 32 }] }
  | .jmpi a p | .ret a p => some { srcs := [src a 1 p] }
  | .calli a p => some { srcs := [src a 1 p], dsts := [{ f := 62 }] }
  | .ld z d b _ q | .ldsp z d b _ q => some { srcs := [src b 2 q], dsts := [{ f := d, n := sizeRegs z }] }
  | .st z d b _ q => some { srcs := [src b 2 q, src d (sizeRegs z) false] }
  | .ldacq _ w d b => some { srcs := [src b 2 false], dsts := [{ f := d, n := wideN w }] }
  | .strel _ w b v => some { srcs := [src b 2 false, src v (wideN w) false], release := true }
  | .atadd w s d b v | .atand w s d b v | .ator w s d b v | .atxor w s d b v | .atmin w s d b v | .atmax w s d b v
  | .atfadd w s d b v =>
    some { srcs := [src b 2 false, src v (wideN w) false], dsts := [{ f := d, n := wideN w }], release := s != 0 }
  | .atcas w s d b v =>
    some { srcs := [src b 2 false, src v (wideN w) false, src d (wideN w) false], dsts := [{ f := d, n := wideN w }]
           release := s != 0 }
  | .atxch w s d b =>
    some { srcs := [src b 2 false, src d (wideN w) false], dsts := [{ f := d, n := wideN w }], release := s != 0 }
  | .cflush a b | .cinv a b => some { srcs := [src a 2 false, src b 1 false] }
  | .pref a _ => some { srcs := [src a 2 false] }
  | .stmap a b _ => some { srcs := [src a 2 false, src b 1 false], lowest := true }
  | .pqry a _ | .mrdy a | .mma a | .dcor a | .wbld a | .chain a | .coll a => some { srcs := [src a 1 false], lowest := true }
  | .stwb _ | .stunmap _ => some { lowest := true }
  | .kick a | .bara a | .bwait a => some { srcs := [src a 1 false] }
  | .bari a b => some { srcs := [src a 1 false, src b 1 false] }
  | .launch a | .launcht a _ => some { srcs := [src a 1 false], release := true }
  | .strm _ b s => some { srcs := if s = 63 then [] else [src b 1 false] }
  | .gsr a n => some { dsts := [{ f := a, n := wideN (wideReg n) }] }
  | .ssr a n => some { srcs := [src a (wideN (wideReg n)) false] }
  | .fend | .fence _ => some { release := true }
  | .br .. | .brn .. | .win _ | .tfence | .tclr | .mwait _ | .iinv _ | .wclr | .wchk _ | .cwait | .trap _ => some {}
  | i => (shapeOf i).map fun x => { srcs := x.srcs, dsts := x.dsts }

/-- The words with fields at which the fibres of a tile or a crew meet (R169, R100, R409, R410). -/
def convergent : Instr → Bool
  | .shfl .. | .shflu .. | .shfld .. | .shflx .. | .ballot .. | .redadd .. | .redmin .. | .redmax .. | .redand ..
  | .redor .. | .redxor .. | .scanadd .. | .scanaddx .. | .qpack .. | .qunpk .. => true
  | .ssr _ n => n == 0x13
  | _ => false

/-! ## Results of words that write one field -/

/-- The braid's next state after a word that writes 32 bits computed from two registers, without flags. -/
def State.gives2 (s : State) (d a b : RegF) (p q : Bool) (f : Word → Word → Word) : Result :=
  let x := src a 1 p
  let y := src b 1 q
  .next (s.wrote { f := d } (fun l L => val32 (f (s.operand l x).w32 (s.operand l y).w32) (s.tagOf [x, y] l L)) noFlags)

/-- The same from one register; the lane gives the immediate, if there is one. -/
def State.gives1 (s : State) (d a : RegF) (p : Bool) (f : Lane → Word → Word) : Result :=
  let x := src a 1 p
  .next (s.wrote { f := d } (fun l L => val32 (f L (s.operand l x).w32) (s.tagOf [x] l L)) noFlags)

/-- The same from the destination and two registers. -/
def State.gives3 (s : State) (d a b : RegF) (p q : Bool) (f : Word → Word → Word → Word) : Result :=
  let x := src a 1 p
  let y := src b 1 q
  let z := src d 1 false
  .next (s.wrote { f := d } (fun l L => val32 (f (s.operand l z).w32 (s.operand l x).w32 (s.operand l y).w32)
    (s.tagOf [x, y, z] l L)) noFlags)

/-- A pair from a pair and `n` more registers. -/
def State.givesPair (s : State) (d a b : RegF) (n : Nat) (p q : Bool) (f : DWord → Val → DWord) : Result :=
  let x := src a 2 p
  let y := src b n q
  .next (s.wrote { f := d, n := 2 } (fun l L => val64 (f (s.operand l x).w64 (s.operand l y)) (s.tagOf [x, y] l L)) noFlags)

/-- The nearest value of the signed range of a width (R355). -/
def nearest (w : Nat) (x : Int) : Int := max (-(2 ^ (w - 1))) (min x (2 ^ (w - 1) - 1))

/-- A result under R355: `exact` held to the signed range where a SAT hint stands in the unit, else `wrapped`. -/
def satBits {w : Nat} (L : Lane) (exact : Int) (wrapped : BitVec w) : BitVec w :=
  if L.hints.sat then BitVec.ofInt w (nearest w exact) else wrapped

/-- Its flags. -/
def satFlag (w : Nat) (L : Lane) (exact : Int) : BitVec 8 :=
  if L.hints.sat && nearest w exact != exact then flSAT else 0

/-- A word of two 32-bit sources that honours SAT. -/
def State.settles2 (s : State) (d a b : RegF) (p q : Bool) (exact : Int → Int → Int) (wrapped : Word → Word → Word) :
    Result :=
  let x := src a 1 p
  let y := src b 1 q
  let u (l : Nat) : Word := (s.operand l x).w32
  let v (l : Nat) : Word := (s.operand l y).w32
  .next (s.wrote { f := d }
    (fun l L => val32 (satBits L (exact (u l).toInt (v l).toInt) (wrapped (u l) (v l))) (s.tagOf [x, y] l L))
    fun l L => satFlag 32 L (exact (u l).toInt (v l).toInt))

/-- A word of one 32-bit source, and perhaps an immediate, that honours SAT. -/
def State.settles1 (s : State) (d a : RegF) (p : Bool) (exact : Lane → Int → Int) (wrapped : Lane → Word → Word) : Result :=
  let x := src a 1 p
  let u (l : Nat) : Word := (s.operand l x).w32
  .next (s.wrote { f := d }
    (fun l L => val32 (satBits L (exact L (u l).toInt) (wrapped L (u l))) (s.tagOf [x] l L))
    fun l L => satFlag 32 L (exact L (u l).toInt))

/-- A word of two pairs that honours SAT. -/
def State.settlesPair (s : State) (d a b : RegF) (p q : Bool) (exact : Int → Int → Int) (wrapped : DWord → DWord → DWord) :
    Result :=
  let x := src a 2 p
  let y := src b 2 q
  let u (l : Nat) : DWord := (s.operand l x).w64
  let v (l : Nat) : DWord := (s.operand l y).w64
  .next (s.wrote { f := d, n := 2 }
    (fun l L => val64 (satBits L (exact (u l).toInt (v l).toInt) (wrapped (u l) (v l))) (s.tagOf [x, y] l L))
    fun l L => satFlag 64 L (exact (u l).toInt (v l).toInt))

/-- Two sources of one register, or of `n`. -/
def two (a b : RegF) (p q : Bool) (n : Nat := 1) : List Src := [src a n p, src b n q]

/-! ## Convergence points (R169-R171) -/

/-- The braid has arrived at a convergence word. -/
def State.arrived (s : State) (e : Extent) : State :=
  s.mapLanes s.cur.lanes fun _ L => { L with state := .converging e }

/-- The sets of fibres whose point its arrival completes: a tile, the crew or EMASK, holding a fibre of the braid; a set
that was complete before and is due to issue its word again stays the set. -/
def State.completes (s : State) (e : Extent) : List (List Nat) :=
  (s.arrived e).curCrew.arrived.filter fun xs => xs.any s.cur.lanes.contains

/-- The fibres that perform the word then. -/
def State.performers (s : State) (e : Extent) : List Nat :=
  (List.range 32).filter fun l => (s.completes e).any (·.contains l)

/-- The state of the others then: a set that waits at mixed words and that the word leaves behind is split, its lowest
fibres due to trap (R170). -/
def State.torn (s : State) (e : Extent) : State :=
  let a := s.arrived e
  let xs := a.curCrew.split.toList.filter fun xs => xs.all fun l => !(s.performers e).contains l
  if xs.isEmpty then a else a.setCurCrew (xs.foldl (fun C x => C.release (a.nextCycle s.cur.team) true x) a.curCrew)

/-- The state in which they perform it, Ready from the next cycle on (R165). -/
def State.joined (s : State) (e : Extent) : State :=
  let a := s.torn e
  { a with cur := { a.cur with lanes := s.performers e } }.mapLanes (s.performers e) fun _ L =>
    { L with state := .ready, age := (s.arrived e).nextCycle s.cur.team }

/-- A braid may arrive: the word takes effect in none of its fibres, or its operands are ready. -/
def State.mayArrive (s : State) (srcs : List Src) (dsts : List Dst) : Prop :=
  s.effective = [] ∨ s.ready srcs dsts = true

/-! ## Long-latency producers (R92) -/

/-- The braid goes on, the destination being empty in every fibre for which the word took effect. -/
def State.emptied (s : State) (d : Dst) : State := s.done fun l L => s.env.drain l L d

/-! ## Operands that are not ready (R59, R87, R92) -/

/-- The fields of a word: its sources' and its destinations'. -/
def fieldsOf (srcs : List Src) (dsts : List Dst) : List (RegF × Nat) :=
  srcs.map (fun x => (x.f, x.n)) ++ dsts.map fun d => (d.f, d.n)

/-- The registers of fields that are empty in a fibre of the issuing braid. -/
def State.empties (s : State) (l : Nat) (fs : List (RegF × Nat)) : List Nat :=
  fs.flatMap fun x => (s.env.regsOf l (s.curLane l) x.1 x.2).filter fun n => !((s.curLane l).reg n).full

/-- Every member of the fields lies in the span in a fibre of the issuing braid. -/
def State.inSpan (s : State) (l : Nat) (fs : List (RegF × Nat)) : Bool :=
  fs.all fun x => !(s.env.slots l (s.curLane l) x.1 x.2).contains .bad

/-- Some member of the fields lies past the span in a fibre for which the word takes effect. -/
def State.pastSpan (s : State) (fs : List (RegF × Nat)) : Bool :=
  s.effective.any fun l => fs.any fun x => (s.env.slots l (s.curLane l) x.1 x.2).contains .bad

/-- No stream is bound to a source. -/
def State.unbound (s : State) (srcs : List Src) : Bool :=
  s.effective.all fun l => srcs.all fun x => ((s.curLane l).streamAt x.f).isNone

/-! ## Control flow -/

/-- The state after a control transfer: each fibre for which it takes effect goes where `g` sends it, the others go on. -/
def State.moved (s : State) (g : Nat → Lane → Lane) : State :=
  s.mapLanes s.cur.lanes fun l L => if L.guardTrue then g l L else L.advance

/-- Control flow may act on its tags: STEER is 1, or no fibre's own steering tag or guard tag is 1 (R113-R115). -/
def State.maySteer (s : State) (own : Nat → Bool) : Prop :=
  s.steers = true ∨ ∀ l ∈ s.effective, own l = false ∧ (s.curLane l).gtag = false

/-! ## Accesses (R204, R212, R219, R393) -/

/-- The capability that a pair holds. -/
def State.capAt (s : State) (l : Nat) (b : RegF) (p : Bool) : DWord := (s.operand l (src b 2 p)).w64

/-- The capability of a format-M word: OFF advanced by OFF7 times the size, modulo 2^38 (R393). -/
def State.baseCap (s : State) (b : RegF) (q : Bool) (o : BitVec 7) (size l : Nat) : DWord :=
  let c := s.capAt l b q
  capWith c (((capOff c : Int) + o.toInt * size) % (2 ^ 38 : Int)).toNat

/-- The address of a place in memory. -/
def memAddr (loc : Loc) : Option Nat := match loc with
  | .mem a .. => some a
  | _ => none

/-- The line of a place in memory. -/
def lineOf (loc : Loc) : Option Nat := (memAddr loc).map (· / 128)

/-- The offset of a place in the stash. -/
def stashOff (loc : Loc) : Option Nat := match loc with
  | .stash a => some a
  | _ => none

/-- The object of a place in memory. -/
def objOf (loc : Loc) : Nat := match loc with
  | .mem _ obj .. => obj
  | _ => 0

/-- PDEF of a place's object. -/
def pdefOf (loc : Loc) : Bool := match loc with
  | .mem _ _ _ _ _ p => p
  | _ => false

/-- Access counters have room: no record of one comes due within a word (R212). -/
def State.countersLow (s : State) : Bool := decide (s.counters.length < 4000) && s.counters.all fun c => decide (c.count < 200)

/-- A place whose stash line, if it is one, is present. -/
def State.present (s : State) (loc : Loc) : Bool := match stashOff loc with
  | some off => !(s.team s.cur.team).body.absent.contains (off / 128)
  | none => true

/-- A place that is not in the view, or that the table of the banks lets a program read (R348). -/
def State.granted (s : State) (loc : Loc) : Bool := match loc with
  | .view _ => (s.rightsOf 2 (Master.code .kernel)).getLsbD 2
  | _ => true

/-- A place whose stash bytes, if it is there, no DCOR makes undefined and no sector's mark spoils (R125, R321). -/
def State.steady (s : State) (size : Nat) (loc : Loc) : Bool := match stashOff loc with
  | some off => !s.inDcorX s.cur.team off size && !(s.team s.cur.team).body.stash.poisonOf off size
  | none => true

/-- Every fibre for which the word takes effect passes its check at a place that is present (R204, R205, R219). -/
def State.reaches (s : State) (cap : Nat → DWord) (size : Nat) (need : BitVec 4) (loc : Nat → Loc) : Prop :=
  ∀ l ∈ s.effective, s.place (cap l) size need = .ok (loc l) ∧ s.present (loc l) = true

/-- A word traps for the lowest fibre whose check fails, with its capability (R205). -/
def State.trapsAt (s : State) (cap : Nat → DWord) (size : Nat) (need : BitVec 4) (i : Instr) : Prop :=
  ∀ l ∈ s.effective, ∀ c, s.place (cap l) size need = .error c →
    (∀ m ∈ s.effective, m < l → ∃ x, s.place (cap m) size need = .ok x) → exec i s = .next (s.trap s.effective c (cap l))

/-- The line as a fibre finds it in its core's copy: that copy under the fibre's own stores (R224, R226). -/
def State.hitLine (s : State) (l a : Nat) : Option Mem :=
  if s.readsFor s.cur.team s.cur.crew l (a / 128) then none
  else (s.hit s.cur.team (a / 128) (halfOf (a % 128))).map fun k => s.overlay s.cur.team s.cur.crew l (a / 128) k.data

/-- The data and the tag that a plain load finds at issue; none when a request goes to the home (R394). -/
def State.atHand (s : State) (l size : Nat) (loc : Loc) : Option (Nat × Bool) := match loc with
  | .view off => some (leNat (s.viewRead off size).2, false)
  | .stash off => some ((s.team s.cur.team).body.stash.num off size, (s.team s.cur.team).body.stash.tagOf off size)
  | .mem a .. => (s.hitLine l a).map fun m => (m.num (a % 128) size, m.tagOf (a % 128) size)

/-- What a plain load finds at issue holds no poison. -/
def State.sound (s : State) (l size : Nat) (loc : Loc) : Bool := match loc with
  | .mem a .. => (s.hitLine l a).all fun m => !m.poisonOf (a % 128) size
  | _ => true

/-- Beyond the issuing crew, what is sent, and the counters of accesses, nothing changes; what was sent before stays. -/
def State.sameAround (s t : State) : Prop :=
  { t with teams := s.teams, msgs := s.msgs, next := s.next, counters := s.counters } = s
    ∧ (∀ k, k < s.next → t.msgs.find k = s.msgs.find k)
    ∧ (∀ k, k ≠ s.cur.team → t.team k = s.team k)
    ∧ (∀ c, c ≠ s.cur.crew → t.crew s.cur.team c = s.crew s.cur.team c)
    ∧ ∀ l, l ∉ s.cur.lanes → t.curLane l = s.curLane l

/-- Of the issuing crew only lanes change, and its team's own state stays. -/
def State.sameTeam (s t : State) : Prop :=
  { t.team s.cur.team with body := { (t.team s.cur.team).body with crews := (s.team s.cur.team).body.crews } }
      = s.team s.cur.team
    ∧ { t.curCrew with lanes := s.curCrew.lanes } = s.curCrew

/-- Guard-false fibres go on past the word. -/
def State.othersPass (s t : State) : Prop := ∀ l ∈ s.cur.lanes, l ∉ s.effective → t.curLane l = (s.curLane l).advance

/-! ## Records in the stash (R272) -/

/-- The stash address that a record word's register gives. -/
def State.recAt (s : State) (a : RegF) (l : Nat) : Nat := (s.operand l (src a 1 false)).w32.toNat

/-- A record's bytes. -/
def State.record (s : State) (addr size : Nat) : List Byte := (s.team s.cur.team).body.stash.bytes addr size

/-- A record's tag with its address's, the guard's and the taint (R109, R426). -/
def State.recTag (s : State) (a : RegF) (size l : Nat) : Bool :=
  (s.team s.cur.team).body.stash.tagOf (s.recAt a l) size || s.tagOf [src a 1 false] l (s.curLane l)

/-- Each fibre's register is full and names a record of a size that lies in the stash, in a line that is present unless the
word has copied its record. -/
def State.hasRecord (s : State) (a : RegF) (size : Nat) (ls : List Nat) : Bool :=
  s.ready [src a 1 false] [] && ls.all fun l => recordOk (s.stashBanks s.cur.team) (s.recAt a l) size
    && (((s.curLane l).did.bind Did.record).isSome || !(s.team s.cur.team).body.absent.contains (s.recAt a l / 128))

/-- The record that a fibre's word goes by, with its sectors' tag: the one that it copied before it waited, or as it stands
(R272). -/
def State.copied (s : State) (a : RegF) (size l : Nat) : List Byte × Bool :=
  ((s.curLane l).did.bind Did.record).getD
    (s.record (s.recAt a l) size, (s.team s.cur.team).body.stash.tagOf (s.recAt a l) size)

/-- The records of a list of a team from an address on, to the first with LAST, the end of the stash, or 256 of them, each
with its sectors' tag; none when a line is absent (R287). -/
def State.listed (s : State) (t : Nat) : (fuel a : Nat) → Option (List (List Byte × Bool))
  | 0, _ => some []
  | n + 1, a =>
    if 65536 * s.stashBanks t < a + 64 then some []
    else if (s.team t).body.absent.contains (a / 128) then none
    else
      let r := ((s.team t).body.stash.bytes a 64, (s.team t).body.stash.tagOf a 64)
      if (copyRec r.1).last then some [r] else (State.listed s t n (a + 64)).map fun l => r :: l

/-- The whole braid goes on past the word, and memory stays. -/
def State.passes (s t : State) : Prop := (∀ l ∈ s.cur.lanes, t.curLane l = (s.curLane l).advance) ∧ s.sameMemory t

/-! ## Lines at their homes (R220, R255) -/

/-- The stash lines that an owner holds for a global line: team and line. -/
def State.ownerLines (s : State) (line : Nat) : List (Nat × Nat) := (s.dirOf line).owner.toList.flatMap (s.holders line)

/-- The dirty ones of them. -/
def State.ownerData (s : State) (line : Nat) : List (Nat × Nat) :=
  (s.ownerLines line).filter fun x => (s.team x.1).body.dirty.contains x.2

/-- Memory once a recall has brought an owner's dirty line home; bytes of the x of an outstanding DCOR are undefined. -/
def State.homeMem (s : State) (line : Nat) : Mem :=
  ((s.ownerData line).foldl (fun (r : Mem × State) x =>
    let away := r.2.lineAway x.1 x.2
    let pdef := ((s.team x.1).body.windowOf x.2).any (s.windowPdef x.1)
    (r.1.paste (128 * line) 128 (pdefMem away.1 pdef), away.2)) (s.mem, s)).1

/-- Memory as a read of a line finds it: the owner's data is recalled where the directory knows it dirty. -/
def State.readMem (s : State) (line : Nat) : Mem :=
  if (s.dirOf line).state = .O ∨ (s.dirOf line).state = .M then s.homeMem line else s.mem

/-- A fibre's registers before and after values arrive; its slot may have become free. -/
def filled (L M : Lane) (dest : List (Option Nat)) (v : BitVec 128) (tag : Bool) (fl : BitVec 8) : Prop :=
  ∃ st, M = { (Lane.fill dest v tag L).raise fl with state := st } ∧ (st = L.state ∨ L.state = .ended ∧ st = .free)

end Sys2Proof.Machine
end

