-- ==== Sys2Proof/Certificates/Slice0/Obligations.lean ====
section
/-! DEFINITION. The statements for the provers. -/

open Sys2Proof Sys2Proof.Machine

/-! ## Integer words -/

/-- R354 and R355: ADD, ADDW and ABS under SAT and without it, and AND, ANDN, BREV and CLZ.
R397: MUL and MAD under SAT and without it, the high halves, and the minima and maxima. -/
def Obligations.SumsProductsAndExtremes : Prop :=
  (∀ (s : State) (d a b : RegF) (p q : Bool),
      (s.ready (two a b p q) [{ f := d }] = true →
        exec (.add d a b p q) s = s.settles2 d a b p q (· + ·) (· + ·)
        ∧ exec (.and d a b p q) s = s.gives2 d a b p q (· &&& ·)
        ∧ exec (.andn d a b p q) s = s.gives2 d a b p q fun x y => x &&& ~~~y)
      ∧ (s.ready (two a b p q 2) [{ f := d, n := 2 }] = true →
        exec (.addw d a b p q) s = s.settlesPair d a b p q (· + ·) (· + ·))
      ∧ (s.ready [src a 1 p] [{ f := d }] = true →
        exec (.abs d a p) s = s.settles1 d a p (fun _ x => |x|) (fun _ x => if x.msb then -x else x)
        ∧ exec (.brev d a p) s = s.gives1 d a p (fun _ x => BitVec.ofFnLE fun i : Fin 32 => x.getLsbD (31 - i))
        ∧ exec (.clz d a p) s = s.gives1 d a p (fun _ x => BitVec.ofNat 32
            (((List.range 33).find? fun n => decide (2 ^ 32 ≤ 2 ^ n * 2 * x.toNat)).getD 32))))
  ∧ (∀ (s : State) (d a b : RegF) (p q : Bool),
      (s.ready (two a b p q) [{ f := d }] = true →
        exec (.mul d a b p q) s = s.settles2 d a b p q (· * ·) (· * ·)
        ∧ exec (.mulh d a b p q) s = s.gives2 d a b p q
            (fun x y => (x.signExtend 64 * y.signExtend 64).extractLsb' 32 32)
        ∧ exec (.mulhz d a b p q) s = s.gives2 d a b p q
            (fun x y => (x.setWidth 64 * y.setWidth 64).extractLsb' 32 32)
        ∧ exec (.min d a b p q) s = s.gives2 d a b p q (fun x y => BitVec.ofInt 32 (min x.toInt y.toInt))
        ∧ exec (.max d a b p q) s = s.gives2 d a b p q (fun x y => BitVec.ofInt 32 (max x.toInt y.toInt))
        ∧ exec (.minz d a b p q) s = s.gives2 d a b p q (fun x y => BitVec.ofNat 32 (min x.toNat y.toNat))
        ∧ exec (.maxz d a b p q) s = s.gives2 d a b p q fun x y => BitVec.ofNat 32 (max x.toNat y.toNat))
      ∧ (s.ready (two a b p q ++ [src d 1 false]) [{ f := d }] = true →
        exec (.mad d a b p q) s =
          let z := src d 1 false
          let exact (l : Nat) : Int :=
            (s.operand l z).w32.toInt + (s.operand l (src a 1 p)).w32.toInt * (s.operand l (src b 1 q)).w32.toInt
          .next (s.wrote { f := d }
            (fun l L => val32 (satBits L (exact l)
                ((s.operand l z).w32 + (s.operand l (src a 1 p)).w32 * (s.operand l (src b 1 q)).w32))
              (s.tagOf (two a b p q ++ [z]) l L))
            fun l L => satFlag 32 L (exact l))))

/-- R356: BFX and BFI.
R364: CADD moves OFF modulo 2^38, CAPN takes rights away, CAPB replaces OFF; every other field stays. -/
def Obligations.BitFieldsAndCapabilities : Prop :=
  (∀ (s : State) (d a b : RegF) (p q : Bool),
      (s.ready (two a b p q) [{ f := d }] = true →
        exec (.bfx d a b p q) s = s.gives2 d a b p q fun x y => BitVec.ofNat 32
          (x.toNat / 2 ^ (y.toNat % 32) % 2 ^ (y.toNat / 256 % 32)))
      ∧ (s.ready (two a b p q ++ [src d 1 false]) [{ f := d }] = true →
        exec (.bfi d a b p q) s = s.gives3 d a b p q fun z x y => BitVec.ofFnLE fun i : Fin 32 =>
          if y.toNat % 32 ≤ i ∧ i < y.toNat % 32 + y.toNat / 256 % 32 then x.getLsbD (i - y.toNat % 32) else z.getLsbD i))
  ∧ (∀ (s : State) (d a b : RegF) (p q : Bool),
      (s.ready [src a 2 p, src b 1 q] [{ f := d, n := 2 }] = true →
        exec (.cadd d a b p q) s = s.givesPair d a b 1 p q
            (fun x y => BitVec.ofNat 64 (x.toNat / 2 ^ 38 * 2 ^ 38 + (((x.toNat : Int) + y.w32.toInt) % 2 ^ 38).toNat))
        ∧ exec (.capn d a b p q) s = s.givesPair d a b 1 p q
            fun x y => x &&& ~~~((~~~y.w32 &&& 15).setWidth 64 <<< 38))
      ∧ (s.ready (two a b p q 2) [{ f := d, n := 2 }] = true →
        exec (.capb d a b p q) s = s.givesPair d a b 2 p q
          fun x y => BitVec.ofNat 64 (x.toNat / 2 ^ 38 * 2 ^ 38 + y.w64.toNat % 2 ^ 38)))

/-- R403: SUB and SUBW under SAT and without it, OR, XOR, POPC, and the shifts and the rotate by b[4:0] or b[5:0]. -/
def Obligations.SubLogicAndShifts : Prop :=
  ∀ (s : State) (d a b : RegF) (p q : Bool),
    (s.ready (two a b p q) [{ f := d }] = true →
      exec (.sub d a b p q) s = s.settles2 d a b p q (· - ·) (· - ·)
      ∧ exec (.or d a b p q) s = s.gives2 d a b p q (· ||| ·)
      ∧ exec (.xor d a b p q) s = s.gives2 d a b p q (· ^^^ ·)
      ∧ exec (.shl d a b p q) s = s.gives2 d a b p q (fun x y => BitVec.ofNat 32 (x.toNat * 2 ^ (y.toNat % 32)))
      ∧ exec (.shr d a b p q) s = s.gives2 d a b p q (fun x y => BitVec.ofNat 32 (x.toNat / 2 ^ (y.toNat % 32)))
      ∧ exec (.shra d a b p q) s = s.gives2 d a b p q (fun x y => BitVec.ofInt 32 (x.toInt / 2 ^ (y.toNat % 32)))
      ∧ exec (.rot d a b p q) s = s.gives2 d a b p q (fun x y => BitVec.ofFnLE fun i : Fin 32 =>
          x.getLsbD ((i + 32 - y.toNat % 32) % 32)))
    ∧ (s.ready [src a 1 p] [{ f := d }] = true →
      exec (.popc d a p) s = s.gives1 d a p fun _ x => BitVec.ofNat 32
        ((List.range 32).countP fun i => x.getLsbD i))
    ∧ (s.ready (two a b p q 2) [{ f := d, n := 2 }] = true →
      exec (.subw d a b p q) s = s.settlesPair d a b p q (· - ·) (· - ·))
    ∧ (s.ready [src a 2 p, src b 1 q] [{ f := d, n := 2 }] = true →
      exec (.shlw d a b p q) s = s.givesPair d a b 1 p q
          (fun x y => BitVec.ofNat 64 (x.toNat * 2 ^ (y.w32.toNat % 64)))
      ∧ exec (.shrw d a b p q) s = s.givesPair d a b 1 p q
          fun x y => BitVec.ofNat 64 (x.toNat / 2 ^ (y.w32.toNat % 64)))

/-- R367: CMP and CMPW write q(D) under the condition code of R66, signed or unsigned; CMPI writes q(N) and q(N+1) by
the signed order and equality with its immediate.
R414: SEL takes the operand that its predicate selects, with that operand's tag and the predicate's. -/
def Obligations.ComparisonsAndSelect : Prop :=
  (∀ (s : State) (c : BitVec 3) (u : Bool) (d : PredF) (n : BitVec 3) (a b : RegF) (p q : Bool) (i : BitVec 13),
      let holds (lt eq : Bool) : Bool := match c.toNat with
        | 0 => eq
        | 1 => !eq
        | 2 => lt
        | 3 => lt || eq
        | 4 => !(lt || eq)
        | _ => !lt
      (s.ready (two a b p q) [] = true →
        exec (.cmp c u d a b p q) s =
          let x (l : Nat) : Word := (s.operand l (src a 1 p)).w32
          let y (l : Nat) : Word := (s.operand l (src b 1 q)).w32
          .next (s.wroteQ d (fun l _ => holds (if u then (x l).ult (y l) else (x l).slt (y l)) (x l == y l))
            (s.tagOf (two a b p q)) noFlags))
      ∧ (s.ready (two a b p q 2) [] = true →
        exec (.cmpw c u d a b p q) s =
          let x (l : Nat) : DWord := (s.operand l (src a 2 p)).w64
          let y (l : Nat) : DWord := (s.operand l (src b 2 q)).w64
          .next (s.wroteQ d (fun l _ => holds (if u then (x l).ult (y l) else (x l).slt (y l)) (x l == y l))
            (s.tagOf (two a b p q 2)) noFlags))
      ∧ (s.ready [src a 1 p] [] = true →
        exec (.cmpi n a i p) s = .next (s.done fun l L =>
          let x := (s.operand l (src a 1 p)).w32
          let t := s.tagOf [src a 1 p] l L
          (L.setQ (BitVec.ofNat 4 (2 * n.toNat)) (x.slt (L.imm i)) t).setQ (BitVec.ofNat 4 (2 * n.toNat + 1)) (x == L.imm i) t)))
  ∧ (∀ (s : State) (n : PredF) (d a b : RegF) (p q : Bool), s.ready (two a b p q) [{ f := d }] = true →
      exec (.sel n d a b p q) s = .next (s.wrote { f := d } (fun l L =>
        let v := s.operand l (if L.q n then src a 1 p else src b 1 q)
        val32 v.w32 (v.tag || L.qt n || L.gt)) noFlags))

/-- R357, R401 and R404: the immediate words, ADDI under SAT and without it.
R61: the immediate is the sign-extended IMM13, or under a LIMM hint its payload above IMM13[9:0]. -/
def Obligations.ImmediateForms : Prop :=
  (∀ (s : State) (d a : RegF) (i : BitVec 13) (n : BitVec 5) (p : Bool),
      (s.ready [src a 1 p] [{ f := d }] = true →
        exec (.addi d a i p) s = s.settles1 d a p (fun L x => x + (L.imm i).toInt) (fun L x => x + L.imm i)
        ∧ exec (.andi d a i p) s = s.gives1 d a p (fun L x => x &&& L.imm i)
        ∧ exec (.ori d a i p) s = s.gives1 d a p (fun L x => x ||| L.imm i)
        ∧ exec (.xori d a i p) s = s.gives1 d a p (fun L x => x ^^^ L.imm i)
        ∧ exec (.shli d a n p) s = s.gives1 d a p (fun _ x => BitVec.ofNat 32 (x.toNat * 2 ^ n.toNat))
        ∧ exec (.shri d a n p) s = s.gives1 d a p (fun _ x => BitVec.ofNat 32 (x.toNat / 2 ^ n.toNat))
        ∧ exec (.shrai d a n p) s = s.gives1 d a p fun _ x => BitVec.ofInt 32 (x.toInt / 2 ^ n.toNat))
      ∧ (s.ready [] [{ f := d }] = true →
        exec (.movi d i) s = .next (s.wrote { f := d } (fun _ L => val32 (L.imm i) L.gt) noFlags)))
  ∧ (∀ (L : Lane) (i : BitVec 13),
      (L.hints.limm = none → (L.imm i).toInt = i.toInt)
      ∧ ∀ p, L.hints.limm = some p → (L.imm i).toNat = p.toNat * 1024 + i.toNat % 1024)


/-! ## Floating-point words -/

/-- R129: the value of every pattern of every format, subnormals kept; a NaN signals when its fraction's top bit is 0,
and neither NaN of E4M3 does (R131).
R136 where the representable values are whole numbers: each rounding mode of a magnitude with a sign. -/
def Obligations.PatternsAndModes : Prop :=
  (∀ f ∈ [f64, f32, bf16, f16, e5m2, e4m3], ∀ (s : Bool) (e m : Nat), e < 2 ^ f.ew → m < 2 ^ f.fw →
      let x := f.read false (s.toNat * 2 ^ (f.ew + f.fw) + e * 2 ^ f.fw + m)
      let special := e = 2 ^ f.ew - 1 ∧ (f.e4 = true → m = 7)
      (special → f.e4 = false → m = 0 → x = .inf s)
      ∧ (special → f.e4 = false → m ≠ 0 → x = .nan (decide (m < 2 ^ (f.fw - 1))))
      ∧ (special → f.e4 = true → x = .nan false)
      ∧ (¬special → ∃ n k, x = .fin s n k ∧ (n : ℚ) * 2 ^ k =
          if e = 0 then 2 ^ (1 - (f.bias : Int)) * ((m : ℚ) / 2 ^ f.fw)
          else 2 ^ ((e : Int) - f.bias) * (1 + (m : ℚ) / 2 ^ f.fw)))
  ∧ (∀ (s : Bool) (num den : Nat), 0 < den →
      let x : ℚ := num / den
      let r (rm : RMode) : Nat := (roundNat rm s num den).1
      (∀ rm, (roundNat rm s num den).2 = false ↔ (r rm : ℚ) = x)
      ∧ (∀ n : Nat, |(r .rne : ℚ) - x| ≤ |(n : ℚ) - x|)
      ∧ (∀ n : Nat, n ≠ r .rne → |(n : ℚ) - x| = |(r .rne : ℚ) - x| → r .rne % 2 = 0)
      ∧ ((r .rtz : ℚ) ≤ x ∧ x < r .rtz + 1)
      ∧ (if s then (r .rup : ℚ) ≤ x ∧ x < r .rup + 1 else x ≤ r .rup ∧ (r .rup : ℚ) < x + 1)
      ∧ (if s then x ≤ r .rdn ∧ (r .rdn : ℚ) < x + 1 else (r .rdn : ℚ) ≤ x ∧ x < r .rdn + 1))

/-- R132 and R133: what an overflow writes in each format and mode, and an infinity that becomes FP8.
R131, R139 and R140: a NaN source or an invalid operation writes the canonical NaN of the format, with NV where a
source signals or the operation is invalid. -/
def Obligations.OverflowAndNans : Prop :=
  (∀ (a : Attr) (s : Bool),
      (∀ f ∈ [f64, f32, bf16, f16],
        f.overflow a s = ⟨if a.rm = .rne ∨ (a.rm = .rup ∧ s = false) ∨ (a.rm = .rdn ∧ s = true)
          then f.inf s else f.maxFinite s, flOF ||| flNX⟩)
      ∧ e4m3.overflow a s = (if a.f8sat then ⟨if s then 0xFE else 0x7E, flOF ||| flNX ||| flSAT⟩
          else ⟨if s then 0xFF else 0x7F, flOF ||| flNX⟩)
      ∧ e5m2.overflow a s = (if a.f8sat then ⟨if s then 0xFB else 0x7B, flOF ||| flNX ||| flSAT⟩
          else ⟨if s then 0xFE else 0x7E, flOF ||| flNX⟩)
      ∧ e5m2.convert a (.inf s) = ⟨if s then 0xFC else 0x7C, 0⟩
      ∧ e4m3.convert a (.inf s) = (if a.f8sat then ⟨if s then 0xFE else 0x7E, flSAT⟩ else ⟨if s then 0xFF else 0x7F, flNV⟩)
      ∧ (∀ q, e4m3.convert a (.nan q) = ⟨0x7F, if q then flNV else 0⟩ ∧ e5m2.convert a (.nan q) = ⟨0x7E, if q then flNV else 0⟩)
      ∧ f64.inf false = 0x7FF0000000000000 ∧ f32.inf false = 0x7F800000 ∧ bf16.inf false = 0x7F80 ∧ f16.inf false = 0x7C00
      ∧ f64.maxFinite false = 0x7FEFFFFFFFFFFFFF ∧ f32.maxFinite false = 0x7F7FFFFF ∧ bf16.maxFinite false = 0x7F7F
      ∧ f16.maxFinite false = 0x7BFF)
  ∧ ((f64.nan = 0x7FF8000000000000 ∧ f32.nan = 0x7FC00000 ∧ f16.nan = 0x7E00 ∧ bf16.nan = 0x7FC0 ∧ e5m2.nan = 0x7E
      ∧ e4m3.nan = 0x7F)
    ∧ ∀ (f : Fmt) (a : Attr) (x y z : FVal) (s : Bool),
      let nv (b : Bool) : BitVec 8 := if b then flNV else 0
      (x.isNan || y.isNan → f.add a x y = ⟨f.nan, nv (x.isSnan || y.isSnan)⟩ ∧ f.mul a x y = ⟨f.nan, nv (x.isSnan || y.isSnan)⟩)
      ∧ f.add a (.inf s) (.inf !s) = ⟨f.nan, flNV⟩
      ∧ (x.isZero → f.mul a x (.inf s) = ⟨f.nan, flNV⟩ ∧ f.mul a (.inf s) x = ⟨f.nan, flNV⟩
        ∧ f.fma a x (.inf s) z = ⟨f.nan, flNV⟩ ∧ f.fma a (.inf s) x z = ⟨f.nan, flNV⟩)
      ∧ (x.isFinite → y.isFinite → z.isNan → f.fma a x y z = ⟨f.nan, nv z.isSnan⟩)
      ∧ ((x.isSnan || y.isSnan) → f.pick s x y = ⟨f.nan, flNV⟩)
      ∧ (x = .nan false → y.isNan = false → f.pick s x y = ⟨f.write y, 0⟩ ∧ f.pick s y x = ⟨f.write y, 0⟩)
      ∧ f.pick s (.nan false) (.nan false) = ⟨f.nan, 0⟩)

/-- R132, R136, R137, R139 and R376 on values that are no NaN, in every format and rounding mode: a finite sum, product,
fused product and sum, conversion, reciprocal or square root is its exact value rounded once (`Fmt.rounds`), with the
sign of a zero that R376 gives; an infinity in a valid operation gives its infinity. FMIN and FMAX write one of their
sources exactly, −0 below +0 (R141). -/
def Obligations.FloatResults : Prop :=
  (∀ f ∈ [f64, f32, bf16, f16, e5m2, e4m3], ∀ (a : Attr) (x y z : FVal), x.isFinite → y.isFinite → z.isFinite →
    let s := x.sign != y.sign
    let down := decide (a.rm = .rdn)
    f.exactly a (if x.isZero && y.isZero && x.sign == y.sign then x.sign else down) (x.value + y.value) (f.add a x y)
    ∧ f.exactly a s (x.value * y.value) (f.mul a x y)
    ∧ f.exactly a (if (x.isZero || y.isZero) && z.isZero && s == z.sign then s else down)
        (x.value * y.value + z.value) (f.fma a x y z)
    ∧ f.exactly a x.sign x.value (f.convert a x)
    ∧ (x.isZero = false → f.rounds a x.sign (|x.value|⁻¹ : ℚ) (f.rcp a x)
      ∧ (x.sign = false → f.rounds a false (Real.sqrt x.value) (f.sqrt a x))))
  ∧ (∀ f ∈ [f64, f32, bf16, f16], ∀ (a : Attr) (s : Bool) (y z : FVal), y.isNan = false → z.isNan = false →
    let t := s != y.sign
    f.convert a (.inf s) = ⟨f.inf s, 0⟩
    ∧ (y ≠ .inf !s → f.add a (.inf s) y = ⟨f.inf s, 0⟩ ∧ f.add a y (.inf s) = ⟨f.inf s, 0⟩)
    ∧ (y.isZero = false → f.mul a (.inf s) y = ⟨f.inf t, 0⟩ ∧ f.mul a y (.inf s) = ⟨f.inf t, 0⟩
      ∧ (z ≠ .inf !t → f.fma a (.inf s) y z = ⟨f.inf t, 0⟩ ∧ f.fma a y (.inf s) z = ⟨f.inf t, 0⟩))
    ∧ (y.isFinite → z.isFinite → f.fma a y z (.inf s) = ⟨f.inf s, 0⟩))
  ∧ ∀ f ∈ [f64, f32, bf16, f16],
    (∀ b, b < 2 ^ f.width → (f.read false b).isNan = false → f.write (f.read false b) = b)
    ∧ ∀ x y : FVal, x.isNan = false → y.isNan = false →
      (x.order < y.order ∨ (x.isZero ∧ y.isZero ∧ x.sign = true ∧ y.sign = false)) →
      f.pick false x y = ⟨f.write x, 0⟩ ∧ f.pick false y x = ⟨f.write x, 0⟩
        ∧ f.pick true x y = ⟨f.write y, 0⟩ ∧ f.pick true y x = ⟨f.write y, 0⟩

/-- R376: the arithmetic words read each source flushed by its settings, compute once, and write the bits with the
result's flags; FABS and FNEG change the sign bit of any pattern.
R377 and R380: FCMP writes q(D) and sets NV alone, its truth that of R66 on the exact values, −0 equal to +0, with a
NaN only .ne and .un; FCVT converts between any two types of R71, its result tagged when a type is FP8; an integer
result is the exact value rounded to a whole number, clamped to its range with NV, and a NaN gives 0. -/
def Obligations.FloatWords : Prop :=
  (∀ (s : State) (t : BitVec 2) (d a b : RegF) (p q : Bool),
      let n := typeN t
      let f := fmtOf t
      let xs := two a b p q n
      let u (l : Nat) (L : Lane) : FVal := f.read (L.flushes f.isWide) (s.operand l (src a n p)).bits.toNat
      let v (l : Nat) (L : Lane) : FVal := f.read (L.flushes f.isWide) (s.operand l (src b n q)).bits.toNat
      let w (l : Nat) (L : Lane) : FVal := f.read (L.flushes f.isWide) (s.operand l (src d n false)).bits.toNat
      let gives (ys : List Src) (r : Nat → Lane → FRes) : Result :=
        .next (s.wrote { f := d, n := n } (fun l L => patVal (r l L).bits (s.tagOf ys l L)) fun l L => (r l L).flags)
      let sign := 2 ^ (f.width - 1)
      (s.ready xs [{ f := d, n := n }] = true →
        exec (.fadd t d a b p q) s = gives xs (fun l L => f.add (L.attr f) (u l L) (v l L))
        ∧ exec (.fsub t d a b p q) s = gives xs (fun l L => f.add (L.attr f) (u l L) (v l L).neg)
        ∧ exec (.fmul t d a b p q) s = gives xs (fun l L => f.mul (L.attr f) (u l L) (v l L))
        ∧ exec (.fmin t d a b p q) s = gives xs (fun l L => f.pick false (u l L) (v l L))
        ∧ exec (.fmax t d a b p q) s = gives xs (fun l L => f.pick true (u l L) (v l L)))
      ∧ (s.ready (xs ++ [src d n false]) [{ f := d, n := n }] = true →
        exec (.fma t d a b p q) s = gives (xs ++ [src d n false]) fun l L => f.fma (L.attr f) (u l L) (v l L) (w l L))
      ∧ (s.ready [src a n p] [{ f := d, n := n }] = true →
        exec (.fabs t d a p) s = gives [src a n p] (fun l _ => ⟨(s.operand l (src a n p)).bits.toNat % sign, 0⟩)
        ∧ exec (.fneg t d a p) s = gives [src a n p] fun l _ =>
            ⟨((s.operand l (src a n p)).bits.toNat + sign) % (2 * sign), 0⟩))
  ∧ (∀ (s : State) (c : BitVec 3) (t : BitVec 2) (q0 : PredF) (e k : BitVec 4) (d a b : RegF) (p q : Bool),
      let n := typeN t
      let f := fmtOf t
      let u (l : Nat) (L : Lane) : FVal := f.read (L.flushes f.isWide) (s.operand l (src a n p)).bits.toNat
      let v (l : Nat) (L : Lane) : FVal := f.read (L.flushes f.isWide) (s.operand l (src b n q)).bits.toNat
      (s.ready (two a b p q n) [] = true →
        exec (.fcmp c t q0 a b p q) s = .next (s.wroteQ q0 (fun l L => (fcmpRel c (u l L) (v l L)).1)
          (s.tagOf (two a b p q n)) fun l L => if (fcmpRel c (u l L) (v l L)).2 then flNV else 0))
      ∧ (s.ready [src a (codeN k) p] [{ f := d, n := codeN e }] = true →
        exec (.fcvt e d a k p) s = .next (s.wrote { f := d, n := codeN e }
          (fun l L => patVal (L.convert e k (s.operand l (src a (codeN k) p))).bits
            (s.tagOf [src a (codeN k) p] l L || isFp8Code e || isFp8Code k))
          fun l L => (L.convert e k (s.operand l (src a (codeN k) p))).flags))
      ∧ (∀ (L : Lane) (v : Val),
          let x : FVal := match k.toNat with
            | 0 => .fin (v.w32.toInt < 0) v.w32.toInt.natAbs 0
            | 1 => .fin false v.w32.toNat 0
            | 2 => .fin (v.w64.toInt < 0) v.w64.toInt.natAbs 0
            | 3 => .fin false v.w64.toNat 0
            | 4 => f16.read (L.flushes false) v.bits.toNat
            | 5 => bf16.read (L.flushes false) v.bits.toNat
            | 6 => f32.read (L.flushes true) v.bits.toNat
            | 7 => f64.read (L.flushes true) v.bits.toNat
            | 8 => e4m3.read false v.bits.toNat
            | _ => e5m2.read false v.bits.toNat
          let whole (w : Nat) (lo hi : Int) : FRes :=
            let r := floatToInt L.rm lo hi x
            ⟨(r.1 % 2 ^ w).toNat, r.2⟩
          let float (g : Fmt) : FRes := g.convert (L.attr g) x
          L.convert e k v = match e.toNat with
            | 0 => whole 32 (-2 ^ 31) (2 ^ 31 - 1)
            | 1 => whole 32 0 (2 ^ 32 - 1)
            | 2 => whole 64 (-2 ^ 63) (2 ^ 63 - 1)
            | 3 => whole 64 0 (2 ^ 64 - 1)
            | 4 => float f16
            | 5 => float bf16
            | 6 => float f32
            | 7 => float f64
            | 8 => float e4m3
            | _ => float e5m2)
      ∧ (∀ x y : FVal,
          (x.isNan || y.isNan → c.toNat ≤ 6 →
            fcmpRel c x y = (decide (c = 1 ∨ c = 6), if 2 ≤ c.toNat ∧ c.toNat ≤ 5 then true else x.isSnan || y.isSnan))
          ∧ (x.isNan = false → y.isNan = false → c.toNat ≤ 6 → fcmpRel c x y = (match c.toNat with
            | 0 => decide (x.order = y.order)
            | 1 => decide (x.order ≠ y.order)
            | 2 => decide (x.order < y.order)
            | 3 => decide (x.order ≤ y.order)
            | 4 => decide (y.order < x.order)
            | 5 => decide (y.order ≤ x.order)
            | _ => false, false)))
      ∧ ∀ (rm : RMode) (lo hi : Int) (x : FVal),
          floatToInt rm lo hi (.nan true) = (0, flNV) ∧ floatToInt rm lo hi (.nan false) = (0, flNV)
          ∧ floatToInt rm lo hi (.inf false) = (hi, flNV) ∧ floatToInt rm lo hi (.inf true) = (lo, flNV)
          ∧ (x.isFinite → ∃ n : ℕ, rm.takes x.sign (|x.value| : ℚ) n ∧
              let i : Int := if x.sign then -n else n
              floatToInt rm lo hi x =
                if i < lo then (lo, flNV) else if hi < i then (hi, flNV) else (i, if (i : ℚ) = x.value then 0 else flNX)))


/-! ## Predicates, tags and windows -/

/-- R407: the predicate words; q15 reads true with tag 0 and discards a write (R85).
R119: TAGQ turns a tag into a predicate's value, TAGP sets a register's tag alone, TCLR clears taint; and WIN moves
the window base by 8 for each unit of its count, inside the span (R88). -/
def Obligations.PredicatesTagsAndWindow : Prop :=
  ((∀ (s : State) (d a b : PredF), s.ready [] [] = true →
      exec (.qand d a b) s = .next (s.wroteQ d (fun _ L => L.q a && L.q b) (fun _ L => L.qt a || L.qt b || L.gt) noFlags)
      ∧ exec (.qor d a b) s = .next (s.wroteQ d (fun _ L => L.q a || L.q b) (fun _ L => L.qt a || L.qt b || L.gt) noFlags)
      ∧ exec (.qxor d a b) s = .next (s.wroteQ d (fun _ L => xor (L.q a) (L.q b)) (fun _ L => L.qt a || L.qt b || L.gt) noFlags)
      ∧ exec (.qnot d a) s = .next (s.wroteQ d (fun _ L => !L.q a) (fun _ L => L.qt a || L.gt) noFlags)
      ∧ exec (.qmov d a) s = .next (s.wroteQ d (fun _ L => L.q a) (fun _ L => L.qt a || L.gt) noFlags))
    ∧ ∀ (L : Lane) (n m : PredF) (v t : Bool),
      L.q 15 = true ∧ L.qt 15 = false ∧ L.setQ 15 v t = L
      ∧ (n ≠ 15 → (L.setQ n v t).q m = (if m = n then v else L.q m) ∧ (L.setQ n v t).qt m = (if m = n then t else L.qt m)))
  ∧ (∀ (s : State) (d : PredF) (r a : RegF) (p : Bool) (n : BitVec 6),
      (s.ready [src a 1 p] [] = true →
        exec (.tagq d a p) s = .next (s.wroteQ d (fun l _ => (s.operand l (src a 1 p)).tag) (fun _ L => L.gt) noFlags))
      ∧ (s.ready [] [{ f := r }] = true →
        exec (.tagp r) s = .next (s.done fun l L => match s.env.slot l L r 0 with
          | .reg k => { L with regs := L.regs.put k { L.reg k with tag := true } }
          | _ => L))
      ∧ (s.ready [] [] = true → exec .tclr s = .next (s.done fun _ L => { L with taint := false }))
      ∧ (s.ready [] [] = true →
        (∀ l ∈ s.effective, 0 ≤ ((s.curLane l).wbase : Int) + 8 * n.toInt ∧ ((s.curLane l).wbase : Int) + 8 * n.toInt < s.spanOf s.cur.team) →
        exec (.win n) s = .next (s.done fun _ L => { L with wbase := ((L.wbase : Int) + 8 * n.toInt).toNat }))
      ∧ (s.ready [] [] = true →
        (∃ l ∈ s.effective, ((s.curLane l).wbase : Int) + 8 * n.toInt < 0 ∨ (s.spanOf s.cur.team : Int) ≤ (s.curLane l).wbase + 8 * n.toInt) →
        exec (.win n) s = .next (s.trap s.effective 0x14 0)))

/-! ## Convergence words -/

/-- R169: a braid that arrives at a convergence word where nothing is yet complete, and no split stands, waits there
Converging, and the word takes no effect.
Rests on the model's own reading or choice in log entries 11 and 13. -/
def Obligations.ConvergenceWaits : Prop :=
  ∀ (s : State) (d a b : RegF) (q0 q1 : PredF) (p q : Bool) (t : BitVec 3),
    s.completes .tile = [] → (s.arrived .tile).curCrew.split = none →
    (s.mayArrive [] [] → exec .meet s = .next (s.arrived .tile) ∧ exec (.voteall q0 q1) s = .next (s.arrived .tile)
      ∧ exec (.voteany q0 q1) s = .next (s.arrived .tile))
    ∧ (s.mayArrive (two a b p q) [{ f := d }] →
      exec (.shfl d a b p q) s = .next (s.arrived .tile) ∧ exec (.shflu d a b p q) s = .next (s.arrived .tile)
      ∧ exec (.shfld d a b p q) s = .next (s.arrived .tile) ∧ exec (.shflx d a b p q) s = .next (s.arrived .tile))
    ∧ (s.mayArrive [] [{ f := d }] → exec (.ballot d q1) s = .next (s.arrived .tile))
    ∧ (s.mayArrive [src a (if wideType t then 2 else 1) p] [{ f := d, n := if wideType t then 2 else 1 }] →
      ∀ i ∈ [Instr.redadd t d a q1 p, .redmin t d a q1 p, .redmax t d a q1 p, .redand t d a q1 p, .redor t d a q1 p,
        .redxor t d a q1 p, .scanadd t d a q1 p, .scanaddx t d a q1 p], exec i s = .next (s.arrived .tile))

/-- R415: a lane exchange reads a of the lane that its index names, where that lane's fibre counts, and otherwise the
fibre's own; MEET has no other effect (R172).
R360 and R416: BALLOT gathers the predicate of each guard-true fibre of the tile at the lane's index; VOTEALL and
VOTEANY ask for all and for some of them; every result has the tags of the tile's fibres.
Rests on the model's own reading or choice in log entries 13 and 37. -/
def Obligations.ExchangesAndVotes : Prop :=
  (∀ (s : State) (d a b : RegF) (p q : Bool),
      let J := s.joined .tile
      let n := 2 ^ s.curCrew.part
      let gives (pick : Nat → Nat → Option Nat) : Result :=
        .next (J.wrote { f := d } (fun l L =>
          let j := pick (l % n) (J.operand l (src b 1 q)).w32.toNat
          let own := J.operand l (src a 1 p)
          let v := match j with
            | some k => if l - l % n + k ∈ s.performers .tile then J.operand (l - l % n + k) (src a 1 p) else own
            | none => own
          val32 v.w32 (v.tag || (J.operand l (src b 1 q)).tag || L.gt)) noFlags)
      (s.mayArrive (two a b p q) [{ f := d }] → J.ready (two a b p q) [{ f := d }] = true →
        (∀ l ∈ s.performers .tile, J.fieldSound l a 1 = true) →
        exec (.shfl d a b p q) s = gives (fun _ x => some (x % n))
        ∧ exec (.shflu d a b p q) s = gives (fun k x => if k < x then none else some (k - x))
        ∧ exec (.shfld d a b p q) s = gives (fun k x => if n ≤ k + x then none else some (k + x))
        ∧ exec (.shflx d a b p q) s = gives fun k x => some (Nat.xor k x % n))
      ∧ (s.mayArrive [] [] → J.ready [] [] = true → exec .meet s = .next (J.done fun _ L => L)))
  ∧ (∀ (s : State) (d : RegF) (q0 q1 : PredF),
      let J := s.joined .tile
      let n := 2 ^ s.curCrew.part
      let tile (l : Nat) : List Nat := (s.performers .tile).filter fun m => m / n == l / n
      let voters (l : Nat) : List Nat := (tile l).filter fun m => (J.curLane m).guardTrue
      let tag (l : Nat) (L : Lane) : Bool := (tile l).any (fun m => (J.curLane m).qt q1) || L.gt
      (s.mayArrive [] [] → J.ready [] [] = true →
        exec (.voteall q0 q1) s = .next (J.wroteQ q0 (fun l _ => (voters l).all fun m => (J.curLane m).q q1) tag noFlags)
        ∧ exec (.voteany q0 q1) s = .next (J.wroteQ q0 (fun l _ => (voters l).any fun m => (J.curLane m).q q1) tag noFlags))
      ∧ (s.mayArrive [] [{ f := d }] → J.ready [] [{ f := d }] = true →
        exec (.ballot d q1) s = .next (J.wrote { f := d } (fun l L =>
          val32 (BitVec.ofFnLE fun i : Fin 32 =>
            decide (i < n ∧ l - l % n + i ∈ voters l) && (J.curLane (l - l % n + i)).q q1) (tag l L)) noFlags)))

/-- R411: a reduction combines the participants over the tree of R151 and a scan those before the fibre, each with its
identity where there is none; the mask predicate tells whether any took part.
R412: over an integer type the tree gives the sum modulo the width, and the bitwise words and the extremes give
what a fold over the participants gives, in any order of combination and with no flag.
Rests on the model's own reading or choice in log entries 13 and 36. -/
def Obligations.ReductionsAndScans : Prop :=
  (∀ (s : State) (t : BitVec 3) (d a : RegF) (m : PredF) (p : Bool),
      let J := s.joined .tile
      let part := s.curCrew.part
      let n := 2 ^ part
      let k := if wideType t then 2 else 1
      let x := src a k p
      let tile (l : Nat) : List Nat := (s.performers .tile).filter fun y => y / n == l / n
      let joins (y : Nat) : Bool := (J.curLane y).guardTrue && (J.curLane y).q m
      let value (y : Nat) : Nat := (J.operand y x).bits.toNat
      let lead (l : Nat) : Lane := J.curLane (((tile l).filter fun y => (J.curLane y).guardTrue).headD l)
      let tag (l : Nat) (L : Lane) : Bool :=
        (tile l).any (fun y => (joins y && (J.operand y x).tag) || (J.curLane y).qt m) || L.gt
      let gives (op : RedOp) (r : Nat → Option Nat × BitVec 8) : Result :=
        .next (J.done fun l L => (((J.env.put l L { f := d, n := k } (patVal ((r l).1.getD (redIdentity op t)) (tag l L))).setQ m
          ((tile l).any joins) (tag l L)).raise
            (((tile l).filter fun y => (J.curLane y).guardTrue).foldl (fun z y => z ||| (r y).2) 0)))
      let tree (op : RedOp) (l : Nat) : Option Nat × BitVec 8 := redTree (redStep op t (lead l)) part
        ((List.range' (l - l % n) n).map fun y => if (tile l).contains y && joins y then some (value y) else none)
      let scan (below : Bool) (l : Nat) : Option Nat × BitVec 8 := redScan (redStep .add t (lead l))
        (((tile l).filter fun y => joins y && (y < l || (y == l && !below))).map value)
      s.mayArrive [x] [{ f := d, n := k }] → J.ready [x] [{ f := d, n := k }] = true →
        exec (.redadd t d a m p) s = gives .add (tree .add)
        ∧ exec (.redmin t d a m p) s = gives .min (tree .min)
        ∧ exec (.redmax t d a m p) s = gives .max (tree .max)
        ∧ exec (.redand t d a m p) s = gives .and (tree .and)
        ∧ exec (.redor t d a m p) s = gives .or (tree .or)
        ∧ exec (.redxor t d a m p) s = gives .xor (tree .xor)
        ∧ exec (.scanadd t d a m p) s = gives .add (scan false)
        ∧ exec (.scanaddx t d a m p) s = gives .add (scan true))
  ∧ (∀ (op : RedOp) (t : BitVec 3) (L : Lane) (k : Nat) (xs : List (Option Nat)), t.toNat < 4 → xs.length = 2 ^ k →
      (∀ x ∈ xs.filterMap id, x < 2 ^ redWidth t) →
      (redTree (redStep op t L) k xs).2 = 0
      ∧ (xs.filterMap id = [] → (redTree (redStep op t L) k xs).1 = none)
      ∧ (xs.filterMap id ≠ [] → (redTree (redStep op t L) k xs).1 = some ((xs.filterMap id).foldl (redInt op t) (redIdentity op t)))
      ∧ (xs.filterMap id ≠ [] → (redTree (redStep .add t L) k xs).1 = some ((xs.filterMap id).sum % 2 ^ redWidth t)))

/-! ## Long-latency producers -/

/-- R372 and R378 at issue: a division or a special-function word empties its destination and sends the results on
their way; R372: quotients truncate, a zero divisor gives 0 with remainder a and DZ, and the most negative value over
−1 wraps.
R140 and R143: what the special functions give at zeros, infinities, negative sources and NaNs.
Rests on the model's own reading or choice in log entry 2. -/
def Obligations.DivisionsAndSpecials : Prop :=
  (∀ (s : State) (w : Bool) (d a b : RegF) (p q : Bool),
      let n := wideN w
      let dst : Dst := { f := d, n := n }
      let bits : Nat := if w then 64 else 32
      let num (signed : Bool) (v : Val) : Int :=
        let x := BitVec.ofNat bits v.bits.toNat
        if signed then x.toInt else x.toNat
      let quotient (signed rem : Bool) (l : Nat) : Int :=
        let x := num signed (s.operand l (src a n p))
        let y := num signed (s.operand l (src b n q))
        if y = 0 then (if rem then x else 0) else if rem then x.tmod y else x.tdiv y
      let divides (signed rem : Bool) : Result :=
        .next ((s.emptied dst).send (.division s.cur.team s.cur.crew
          (s.effective.map fun l => (l, s.env.dest l (s.curLane l) dst, BitVec.ofInt 64 (quotient signed rem l),
            s.tagOf (two a b p q n) l (s.curLane l)))
          (s.effective.filter fun l => num signed (s.operand l (src b n q)) == 0)))
      let special (wide : Bool) (r : Fmt → Attr → Nat → FVal → FRes) : Result :=
        let f := if wide then f64 else f32
        let k := wideN wide
        let res (l : Nat) : FRes :=
          let L := s.curLane l
          let v := s.operand l (src a k p)
          r f (L.attr f) v.bits.toNat (f.read (L.flushes true) v.bits.toNat)
        .next ((s.emptied { f := d, n := k }).send (.special s.cur.team s.cur.crew
          (s.effective.map fun l => (l, s.env.dest l (s.curLane l) { f := d, n := k }, BitVec.ofNat 64 (res l).bits,
            s.tagOf [src a k p] l (s.curLane l)))
          (s.effective.map fun l => (l, (res l).flags))))
      (s.ready (two a b p q n) [dst] = true →
        exec (.divs w d a b p q) s = divides true false ∧ exec (.divz w d a b p q) s = divides false false
        ∧ exec (.rems w d a b p q) s = divides true true ∧ exec (.remz w d a b p q) s = divides false true)
      ∧ (s.ready [src a n p] [dst] = true →
        exec (.frcp w d a p) s = special w (fun f m _ x => f.rcp m x)
        ∧ exec (.fsqrt w d a p) s = special w (fun f m _ x => f.sqrt m x)
        ∧ exec (.frsq w d a p) s = special w fun f m v x => f.rsqrt m (candidate (if w then 5 else 4) v) x)
      ∧ (s.ready [src a 1 p] [{ f := d }] = true →
        exec (.fexp2 d a p) s = special false (fun f m v x => f.exp2 m (candidate 12 v) x)
        ∧ exec (.flog2 d a p) s = special false (fun f m v x => f.log2 m (candidate 16 v) x)
        ∧ exec (.fsin d a p) s = special false (fun f m v x => f.trig m false (candidate 20 v) x)
        ∧ exec (.fcos d a p) s = special false fun f m v x => f.trig m true (candidate 24 v) x))
  ∧ (∀ (f : Fmt) (a : Attr) (c : Nat) (s : Bool) (e : Int),
      f.rcp a (.fin s 0 e) = ⟨f.inf s, flDZ⟩ ∧ f.rcp a (.inf s) = ⟨f.signBit s, 0⟩
      ∧ f.rsqrt a c (.fin s 0 e) = ⟨f.inf s, flDZ⟩ ∧ f.rsqrt a c (.inf false) = ⟨f.signBit false, 0⟩
      ∧ f.sqrt a (.fin true 0 e) = ⟨f.signBit true, 0⟩ ∧ f.sqrt a (.inf false) = ⟨f.inf false, 0⟩
      ∧ f.exp2 a c (.inf true) = ⟨0, 0⟩ ∧ f.exp2 a c (.inf false) = ⟨f.inf false, 0⟩
      ∧ f.log2 a c (.fin s 0 e) = ⟨f.inf true, flDZ⟩ ∧ f.log2 a c (.inf false) = ⟨f.inf false, 0⟩
      ∧ f.trig a false c (.fin s 0 e) = ⟨f.signBit s, 0⟩ ∧ (f32.trig a true c (.fin s 0 e)).bits = 0x3F800000
      ∧ (∀ n, 0 < n → f.sqrt a (.fin true n e) = ⟨f.nan, flNV⟩ ∧ f.rsqrt a c (.fin true n e) = ⟨f.nan, flNV⟩
          ∧ f.log2 a c (.fin true n e) = ⟨f.nan, flNV⟩)
      ∧ (f.trig a s c (.inf s) = ⟨f.nan, flNV⟩)
      ∧ (∀ q, f.rcp a (.nan q) = ⟨f.nan, if q then flNV else 0⟩ ∧ f.exp2 a c (.nan q) = ⟨f.nan, if q then flNV else 0⟩))

/-- R137 and R143: the bounds of FRSQ, FEXP2, FLOG2, FSIN and FCOS on finite sources other than zeros, the sources for
which each is exact, and NX, whatever value the hardware picks within a bound (log entry 2). FSQRT and FRCP are exact
but for their rounding: FloatResults.
Rests on the model's own reading or choice in log entry 2. -/
def Obligations.SpecialFunctionAccuracy : Prop :=
  ∀ (a : Attr) (c b : Nat),
    (∀ f ∈ [f32, f64], let x := f.read a.flush b
      let y : ℝ := 1 / Real.sqrt x.value
      let r := f.rsqrt a c x
      let w : ℝ := (f.read false r.bits).value
      x.isFinite → x.isZero = false → x.sign = false →
        f.nearUlps r y 1 ∧ ((∃ p, ((f.read false p).value : ℝ) = y) → w = y) ∧ r.flags = if w = y then 0 else flNX)
    ∧ (let x := f32.read a.flush b
      let v : ℝ := x.value
      x.isFinite →
      (let r := f32.exp2 a c x
        let y : ℝ := 2 ^ v
        (128 ≤ v → r = ⟨0x7F800000, flOF ||| flNX⟩)
        ∧ (v < -149 → r = ⟨0, flUF ||| flNX⟩)
        ∧ (-149 ≤ v → v < 128 →
          ((∃ i : ℤ, x.value = i) → f32.rounds ⟨.rne, a.flush, true⟩ false y r)
          ∧ ((∀ i : ℤ, x.value ≠ i) →
            if a.flush ∧ v < -126 then r = ⟨0, flUF ||| flNX⟩
            else f32.nearUlps r y 2 ∧ r.flags = if v < -126 then flUF ||| flNX else flNX)))
      ∧ (x.isZero = false → x.sign = false →
        let r := f32.log2 a c x
        let y : ℝ := Real.logb 2 v
        (∀ i : ℤ, v = 2 ^ i → f32.near r i 0 ∧ r.flags = 0)
        ∧ ((∀ i : ℤ, v ≠ 2 ^ i) → f32.nearUlps r y 2 ∧ r.flags = flNX))
      ∧ (x.isZero = false → ∀ cosine : Bool,
        let r := f32.trig a cosine c x
        (|v| ≤ 2 ^ 16 → f32.near r (if cosine then Real.cos v else Real.sin v) (2⁻¹ ^ 21))
        ∧ (2 ^ 16 < |v| → f32.near r 0 1)
        ∧ r.flags &&& flNX = flNX
        ∧ (cosine = false → |v| < 2 ^ (-126 : ℤ) → r.flags = flUF ||| flNX)))


/-! ## What every word on registers obeys -/

/-- The words on registers alone complete when their operands are ready, and change nothing but their destinations,
their predicates, their own flags and the fibres' progress; a guard-false fibre only goes on, and memory stays.
Rests on the model's own reading or choice in log entry 10. -/
def Obligations.RegisterWordFrame : Prop :=
  ∀ (s : State) (i : Instr) (sh : Shape), shapeOf i = some sh → s.ready sh.srcs sh.dsts = true →
    ∃ t, exec i s = .next t ∧ s.sameElsewhere t ∧ s.sameMemory t
      ∧ (∀ l ∈ s.effective, (s.curLane l).sameBut (t.curLane l)
          (sh.dsts.flatMap fun d => s.env.regsOf l (s.curLane l) d.f d.n) sh.preds sh.flags
        ∧ (t.curLane l).pc = (s.curLane l).pc + 4 ∧ (t.curLane l).guard = tickGuard (s.curLane l).guard)
      ∧ ∀ l ∈ s.cur.lanes, l ∉ s.effective → t.curLane l = (s.curLane l).advance

/-- R59 and R92: while a source with wait bit 0 or a destination of a word is empty, the braid parks at its unit's start
until those registers are full (for a word of the lowest fibre, its registers); nothing else changes, but that a word that
waits for a source has not issued.
R59, R87, R240 and R297: a field past the span traps REG_RANGE first; then an empty source with wait bit 1 traps
EMPTY_READ; then a release by a fibre in a watch entry traps UNCHECKED_WATCH. The braid's every fibre for which the word
takes effect takes the trap. R334 and R322: a word whose operands are full and that reads part of a poisoned tile
consumes it: the unit takes no effect.
Rests on the model's own reading or choice in log entries 11, 39 and 56. -/
def Obligations.OperandsNotReady : Prop :=
  (∀ (s : State) (i : Instr) (x : Reads), readsOf i = some x → s.unbound x.srcs = true →
      let rs := if x.lowest then s.effective.take 1 else s.effective
      let empty (l : Nat) : List Nat := s.empties l (fieldsOf x.srcs x.dsts)
      (∀ l ∈ rs, s.inSpan l (fieldsOf x.srcs x.dsts) = true ∧ s.empties l (fieldsOf (x.srcs.filter Src.trapping) []) = []
        ∧ (x.release = true → s.curCrew.watched l = false)) →
      (∃ l ∈ rs, empty l ≠ []) →
      let t := if x.lowest then s.parkOne (.regs (empty (s.effective.headD 0)))
        else s.park fun l => .regs (if l ∈ rs then empty l else [])
      let starved := rs.any fun l => !(s.empties l (fieldsOf x.srcs [])).isEmpty
      exec i s = .next { t with cur := { t.cur with starved := s.cur.starved || starved } })
  ∧ (∀ (s : State) (i : Instr) (x : Reads), readsOf i = some x → s.unbound x.srcs = true →
      let rs := if x.lowest then s.effective.take 1 else s.effective
      let inside : Prop := ∀ l ∈ rs, s.inSpan l (fieldsOf x.srcs x.dsts) = true
      let blocks : Prop := ∀ l ∈ rs, s.empties l (fieldsOf (x.srcs.filter Src.trapping) []) = []
      let watched : Prop := x.release = true ∧ ∃ l ∈ rs, s.curCrew.watched l = true
      (¬inside → exec i s = .next (s.trap s.effective 0x13 0))
      ∧ (inside → ¬blocks → exec i s = .next (s.trap s.effective 0x12 0))
      ∧ (inside → blocks → watched → exec i s = .next (s.trap s.effective 0x19 0))
      ∧ (inside → ¬watched → (∀ l ∈ rs, s.empties l (fieldsOf x.srcs x.dsts) = []) →
        (∃ l ∈ rs, ∃ y ∈ x.srcs, s.fieldSound l y.f y.n = false) →
        ∃ t, exec i s = .next t ∧ (t.team s.cur.team).consumed = true ∧ s.sameMemory t
          ∧ ∀ l ∈ s.cur.lanes, t.curLane l = { (s.curLane l).restart with state := .parked (.regs []) }))

/-- R64: a word other than a hint or a convergence word whose guard is true in no fibre of the braid takes no effect,
whatever its operands: the braid goes on. -/
def Obligations.NoGuardNoEffect : Prop :=
  ∀ (s : State) (i : Instr), ((readsOf i).isSome = true ∨ ∃ q o, i = .call q o ∨ i = .calln q o) → convergent i = false →
    s.effective = [] → exec i s = .next s.advanceAll

/-! ## Control flow -/

/-- R363: branches and calls by a predicate. A taken one goes to PC + 4·OFF21 and ends the guard range, a call having
written PC + 4 to g62; the others go on.
R363, R389 and R413: jumps and calls through a register and returns, which read the target before g62 is written;
a target whose low bits are not 0 traps TARGET_ALIGN.
R114 and R297: with STEER 0, control flow by a value whose tag is 1 traps PROPOSAL_STEER in the whole braid.
Rests on the model's own reading or choice in log entries 14 and 87. -/
def Obligations.ControlTransfers : Prop :=
  (∀ (s : State) (q : PredF) (o : BitVec 21), s.maySteer (fun l => (s.curLane l).qt q) →
      let L1 (L : Lane) : Lane := { L with taint := L.taint || L.qt q || L.gtag }
      let target (L : Lane) : Word := L.pc + BitVec.ofInt 32 (4 * o.toInt)
      let go (neg link : Bool) (l : Nat) (L : Lane) : Lane :=
        if L.q q != neg then
          { (if link then s.env.put l (L1 L) { f := 62 } (val32 (L.pc + 4) ((L1 L).gtag || (L1 L).taint)) else L1 L) with
            pc := target L, guard := none, hints := {}, did := none, due := none }
        else (L1 L).advance
      let linkFull (neg : Bool) : Prop := s.pastSpan [(62, 1)] = false
        ∧ ∀ l ∈ s.effective, ((s.curLane l).q q != neg) = true → s.empties l [(62, 1)] = []
      s.ready [] [] = true →
        exec (.br q o) s = .next (s.moved (go false false)) ∧ exec (.brn q o) s = .next (s.moved (go true false))
        ∧ (linkFull false → exec (.call q o) s = .next (s.moved (go false true)))
        ∧ (linkFull true → exec (.calln q o) s = .next (s.moved (go true true))))
  ∧ (∀ (s : State) (a : RegF) (p : Bool), s.maySteer (fun l => (s.operand l (src a 1 p)).tag) →
      let x := src a 1 p
      let L1 (l : Nat) (L : Lane) : Lane := { L with taint := L.taint || (s.operand l x).tag || L.gtag }
      let go (link : Bool) (l : Nat) (L : Lane) : Lane :=
        { (if link then s.env.put l (L1 l L) { f := 62 } (val32 (L.pc + 4) ((L1 l L).gtag || (L1 l L).taint)) else L1 l L) with
          pc := (s.operand l x).w32, guard := none, hints := {}, did := none, due := none }
      let aligned : Prop := ∀ l ∈ s.effective, (s.operand l x).w32.toNat % 4 = 0
      (s.ready [x] [] = true →
        (aligned → exec (.jmpi a p) s = .next (s.moved (go false)) ∧ exec (.ret a p) s = .next (s.moved (go false)))
        ∧ (¬aligned → exec (.jmpi a p) s = .next (s.trap s.effective 0x17 0) ∧ exec (.ret a p) s = .next (s.trap s.effective 0x17 0)))
      ∧ (s.ready [x] [{ f := 62 }] = true →
        (aligned → exec (.calli a p) s = .next (s.moved (go true)))
        ∧ (¬aligned → exec (.calli a p) s = .next (s.trap s.effective 0x17 0))))
  ∧ (∀ (s : State) (q : PredF) (o : BitVec 21) (d a : RegF) (p : Bool), s.steers = false →
      let tagged (own : Nat → Bool) : Prop := ∃ l ∈ s.effective, own l = true ∨ (s.curLane l).gtag = true
      (s.ready [] [{ f := 62 }] = true → tagged (fun l => (s.curLane l).qt q) →
        ∀ i ∈ [Instr.br q o, .brn q o, .call q o, .calln q o], exec i s = .next (s.trap s.effective 0x16 0))
      ∧ (s.ready [src a 1 p] [{ f := 62 }] = true → tagged (fun l => (s.operand l (src a 1 p)).tag) →
        ∀ i ∈ [Instr.jmpi a p, .ret a p, .calli a p], exec i s = .next (s.trap s.effective 0x16 0))
      ∧ (s.ready [src a 1 p] [{ f := d }] = true → tagged (fun l => (s.operand l (src a 1 p)).tag) →
        exec (.fspawn d a p) s = .next (s.trap s.effective 0x16 0)))

/-! ## Traps -/

/-- R298 and R303: TRAP takes the trap of cause 0x10, and a trap pushes a frame that holds the unit's first PC, its
target word, the cause, the fibres and the guard range of each, sends those fibres to the vector without a guard range, and
freezes the crew's other fibres; a full stack or a vector of 0 escalates instead.
Rests on the model's own reading or choice in log entries 14 and 42. -/
def Obligations.TrapEntry : Prop :=
  (∀ (s : State) (n : BitVec 8), s.ready [] [] = true → exec (.trap n) s = .next (s.trap s.effective 0x10 0))
  ∧ ∀ (s : State) (l0 : Nat) (E : List Nat) (cause : BitVec 8) (ea : DWord),
    let v := if cause.toNat ≤ 7 then (s.team s.cur.team).body.emuvec else (s.team s.cur.team).body.trapvec
    let t := s.trap (l0 :: E) cause ea
    (s.curCrew.frames.length < 4 → v ≠ 0 → (∀ l ∈ l0 :: E, l ∈ s.cur.lanes) → (∀ l ∈ s.cur.lanes, l < 32) →
      (∃ fr rest, t.curCrew.frames = fr :: rest ∧ rest = s.curCrew.frames ∧ fr.epc = (s.curLane l0).ustart
        ∧ fr.cause = cause ∧ fr.eaddr = ea ∧ fr.word = s.cur.unit.getLastD 0 ∧ fr.adv = true
        ∧ fr.ulen = BitVec.ofNat 3 s.cur.unit.length
        ∧ (∀ l, fr.mask.getLsbD l = decide (l ∈ l0 :: E))
        ∧ ∀ l ∈ l0 :: E, fr.bases.find l = some (s.curLane l).wbase ∧ fr.before.find l = some (s.curLane l).guard0
          ∧ fr.after.find l = some (s.cur.unit.foldl guardStep (s.curLane l).guard0))
      ∧ (∀ l ∈ l0 :: E, (t.curLane l).pc = v ∧ (t.curLane l).guard = none ∧ (t.curLane l).state = .ready
        ∧ (t.curLane l).regs = (s.curLane l).regs ∧ (t.curLane l).preds = (s.curLane l).preds
        ∧ (t.curLane l).fstat = (s.curLane l).fstat ∧ (t.curLane l).taint = (s.curLane l).taint
        ∧ (t.curLane l).frozen = (s.curLane l).frozen)
      ∧ (∀ l, l ∉ l0 :: E → (s.curLane l).live = true → (t.curLane l).frozen = true)
      ∧ s.sameMemory t)
    ∧ (4 ≤ s.curCrew.frames.length ∨ v = 0 → t = s.escalate s.cur.team)

/-- R79: a unit that vectors reads no operand; the fibres whose guard at the unit's target is true enter the emulation
handler with the unit's target word in EWORD, and with none of them the unit is passed over.
Rests on the model's own reading or choice in log entry 42. -/
def Obligations.EmulationVectors : Prop :=
  ∀ (s : State) (cause : BitVec 8) (word : Word) (ulen : BitVec 3),
    let E := s.cur.lanes.filter fun l =>
      ({ s.curLane l with guard := guardAtTarget (s.curLane l).guard0 s.cur.unit } : Lane).guardTrue
    (E ≠ [] → exec (.emulationVector cause word ulen) s = .next (s.trapWith E cause word ulen 0))
    ∧ (E = [] → ∃ t, exec (.emulationVector cause word ulen) s = .next t ∧ s.sameElsewhere t
      ∧ ∀ l ∈ s.cur.lanes, (t.curLane l).pc = (s.curLane l).ustart + BitVec.ofNat 32 (4 * ulen.toNat)
        ∧ (t.curLane l).regs = (s.curLane l).regs ∧ (t.curLane l).fstat = (s.curLane l).fstat)

/-- R302 and R301: when every fibre of EMASK has reached an ERET, the frame pops; its fibres resume after the unit, or
at EPC with ADV 0, with the guard range and the window bases that the frame holds; after a CAP_HOLE they end instead.
Without a frame ERET traps ERET_NOFRAME.
R305: TFENCE goes on when no long-latency result, MMA or DCOR of its fibres is outstanding, no mismatch is reported
and no enabled flag is set; an enabled flag traps ARITH; while something is outstanding the braid waits.
Rests on the model's own reading or choice in log entries 17 and 38. -/
def Obligations.ReturnAndTrapFence : Prop :=
  (∀ (s : State),
      (s.curCrew.frames = [] → s.ready [] [] = true → exec .eret s = .next (s.trap s.effective 0x1A 0))
      ∧ ∀ fr rest, s.curCrew.frames = fr :: rest → s.mayArrive [] [] → (s.joined .frame).effective ≠ [] →
        ∃ t, exec .eret s = .next t ∧ (fr.cause ≠ 0x24 → t.curCrew.frames = rest) ∧ s.sameMemory t
          ∧ ∀ l, fr.mask.getLsbD l = true → l < 32 → (s.curLane l).live = true →
            (fr.cause = 0x24 → (t.curLane l).state = .ended ∨ (t.curLane l).state = .free)
            ∧ (fr.cause ≠ 0x24 → (t.curLane l).state = .ready
              ∧ (t.curLane l).pc = (if fr.adv then fr.epc + BitVec.ofNat 32 (4 * fr.ulen.toNat) else fr.epc)
              ∧ (t.curLane l).guard = ((if fr.adv then fr.after else fr.before).find l).getD none
              ∧ (t.curLane l).wbase = (fr.bases.find l).getD (s.curLane l).wbase
              ∧ (t.curLane l).regs = (s.curLane l).regs))
  ∧ (∀ (s : State), s.ready [] [] = true →
      let due : Prop := ∃ l ∈ s.effective, s.arithmeticDue s.cur.team s.cur.crew l = true
      let enabled : Prop := ∃ l ∈ s.effective, (s.curLane l).fstat &&& (s.curLane l).ftrapen ≠ 0
      (¬due → s.curCrew.mismatch = [] → ¬enabled → exec .tfence s = .next s.advanceAll)
      ∧ (¬due → s.curCrew.mismatch = [] → enabled → exec .tfence s = .next (s.trap s.effective 0x11 0))
      ∧ (due → exec .tfence s = .next (s.park fun l => if l ∈ s.effective then .arithmetic else .regs [])))

/-! ## Fibres and hints -/

/-- R164 and R382: FEND ends the fibres for which it takes effect, unbinds their streams and takes them out of every
EMASK; their slots are free once no long-latency result is to come; it makes a checkpoint and starts a new interval. A
fibre in a watch entry traps UNCHECKED_WATCH instead.
R163 and R383: FSPAWN starts one fibre for each fibre of the braid, in the free slots of the crew in ascending
order, with PC a, the launch's FMODE and FTRAPEN and the state of R84; d is the lane, or all ones when none is free.
Rests on the model's own reading or choice in log entries 24, 38 and 41. -/
def Obligations.FibreEndAndSpawn : Prop :=
  (∀ (s : State), s.ready [] [] = true →
      ((∀ l ∈ s.effective, s.curCrew.watched l = false) → (∀ l ∈ s.cur.lanes, l < 32 ∧ (s.curLane l).state = .ready) →
        ∃ t, exec .fend s = .next t ∧ s.sameMemory t ∧ t.msgs = s.msgs
          ∧ (∀ l ∈ s.effective, (t.curLane l).state = (if s.inFlight s.cur.team s.cur.crew l then .ended else .free)
            ∧ (t.curLane l).streams = [] ∧ (t.curLane l).regs = (s.curLane l).regs)
          ∧ (∀ fr ∈ t.curCrew.frames, ∀ l ∈ s.effective, fr.mask.getLsbD l = false)
          ∧ (∀ l ∈ s.cur.lanes, l ∉ s.effective → (t.curLane l).pc = (s.curLane l).pc + 4)
          ∧ (t.team s.cur.team).shadow.isSome = true ∧ (t.team s.cur.team).rollbacks = 0)
      ∧ ((∃ l ∈ s.effective, s.curCrew.watched l = true) → exec .fend s = .next (s.trap s.effective 0x19 0)))
  ∧ (∀ (s : State) (d a : RegF) (p : Bool), s.ready [src a 1 p] [{ f := d }] = true →
      s.maySteer (fun l => (s.operand l (src a 1 p)).tag) →
      (∀ l ∈ s.effective, (s.operand l (src a 1 p)).w32.toNat % 4 = 0) →
      s.cur.lanes.Nodup → (∀ l ∈ s.cur.lanes, (s.curLane l).state ≠ .free) →
      let free := (List.range 32).filter fun l => (s.curLane l).state == .free
      let blk := (s.launchOf s.cur.team).map Launch.block
      ∃ t, exec (.fspawn d a p) s = .next t ∧ s.sameMemory t
        ∧ (∀ k l : Nat, s.effective[k]? = some l →
          let x := s.operand l (src a 1 p)
          let L := { s.curLane l with taint := (s.curLane l).taint || x.tag || (s.curLane l).gtag }
          t.curLane l = (s.env.put l L { f := d } (val32 (match free[k]? with
            | some n => BitVec.ofNat 32 n
            | none => 0xFFFFFFFF) (x.tag || L.gtag || L.taint))).advance
          ∧ ∀ n, free[k]? = some n → (t.curLane n).state = .ready ∧ (t.curLane n).pc = x.w32
            ∧ (t.curLane n).taint = L.taint ∧ (t.curLane n).wbase = 0 ∧ (t.curLane n).preds = 0 ∧ (t.curLane n).fstat = 0
            ∧ (t.curLane n).guard = none ∧ (t.curLane n).streams = [] ∧ (t.curLane n).regs = (s.curLane n).regs
            ∧ (t.curLane n).frozen = !s.curCrew.frames.isEmpty
            ∧ (t.curLane n).fmode = (blk.map Block.fmode).getD 0
            ∧ (t.curLane n).ftrapen = (blk.map Block.ftrapen).getD 0)
        ∧ (∀ l ∈ s.cur.lanes, l ∉ s.effective → t.curLane l = (s.curLane l).advance)
        ∧ ∀ l, l ∉ s.cur.lanes → (∀ k, k < s.effective.length → free[k]? ≠ some l) → t.curLane l = s.curLane l)

/-- R60 to R64 and R385 to R387: a hint passes in every fibre of the braid and leaves its payload where the guard is
true; GUARD opens a range; NOP and the hints of kinds 8 to 15 only pass; SCHED holds the braid's target.
Rests on the model's own reading or choice in log entry 34. -/
def Obligations.HintWords : Prop :=
  ∀ (s : State) (v : BitVec 22) (q : PredF) (n y r : Bool) (c h : BitVec 3) (m k : BitVec 2) (x : BitVec 4),
    let pass (f : Lane → Lane) : State := s.mapLanes s.cur.lanes fun _ L =>
      { (if L.guardTrue then f L else L) with pc := L.pc + 4, guard := tickGuard L.guard }
    exec (.limm v) s = .next (pass fun L => { L with hints := { L.hints with limm := some v } })
    ∧ exec (.rnd k r m) s = .next (pass fun L => { L with hints := { L.hints with rnd := some (k, r, m) } })
    ∧ exec .sat s = .next (pass fun L => { L with hints := { L.hints with sat := true } })
    ∧ exec (.nop v) s = .next s.advanceAll ∧ exec (.hintIgnored h v) s = .next s.advanceAll
    ∧ (∃ t, exec (.guard q n c) s = .next t ∧ s.sameElsewhere t ∧ ∀ l ∈ s.cur.lanes,
        t.curLane l = { s.curLane l with pc := (s.curLane l).pc + 4, guard := some { q := q, neg := n, left := c.toNat } })
    ∧ ∃ t, exec (.sched y x) s = .next t ∧ s.sameMemory t
      ∧ (∀ l ∈ s.cur.lanes, (t.curLane l).pc = (s.curLane l).pc + 4 ∧ (t.curLane l).regs = (s.curLane l).regs)
      ∧ ∀ b ∈ t.curCrew.braids, b.lanes = s.cur.lanes →
        b.stall = (s.core (s.team s.cur.team).core).cycle + x.toNat ∧ b.yield = y


/-! ## Loads, stores and atomics -/

/-- R92 and R393 to R395 at issue: every fibre's destination is empty; what a fibre finds at hand is on its way to it,
extended and tagged, and one request goes out for each line of the others, holding what each of its fibres takes; an
LDACQ always asks the home for memory, its fibres wait for their values, and the elements that their streams read ahead
are dropped (R282). Memory and stash stay. The lowest failing check traps instead (R205).
Rests on the model's own reading or choice in log entries 12, 27 and 60. -/
def Obligations.LoadIssue : Prop :=
  ∀ (s : State) (z : BitVec 3) (w : Bool) (sc : BitVec 5) (d b : RegF) (o : BitVec 7) (q : Bool) (loc : Nat → Loc),
    let issues (acq : Bool) (i : Instr) (dst : Dst) (size : Nat) (signed p : Bool) (cap : Nat → DWord) : Prop :=
      s.ready [src b 2 p] [dst] = true →
        let s' := if acq then s.discardAhead s.effective else s
        let tag (l : Nat) : Bool := s.tagOf [src b 2 p] l (s.curLane l)
        let found (l : Nat) : Option (Nat × Bool) :=
          if acq && (memAddr (loc l)).isSome then none else s.atHand l size (loc l)
        let lines : List Nat := (s.effective.filter fun l => (found l).isNone).filterMap fun l => lineOf (loc l)
        s.trapsAt cap size 8 i
        ∧ (s.reaches cap size 8 loc →
          (∀ l ∈ s.effective, s.steady size (loc l) = true ∧ ((found l).isSome = true → s.sound l size (loc l) = true)) →
          ∃ (t : State) (key : Nat → Nat), exec i s = .next t
            ∧ (s.countersLow = true → (∀ l ∈ s.effective, s.granted (loc l) = true) →
              s'.sameAround t ∧ s'.sameTeam t ∧ s.sameMemory t)
            ∧ (t.team s.cur.team).body.stash = (s.team s.cur.team).body.stash
            ∧ t.next = s.next + lines.eraseDups.length + (s.effective.filter fun l => (found l).isSome).length
            ∧ s.othersPass t
            ∧ (∀ l ∈ s.effective, s.next ≤ key l ∧ t.curLane l =
              let L := ((s.env.drain l (s.curLane l) dst).unread fun _ => acq).advance
              if acq then { L with state := .parked (.acquire (key l)) } else L)
            ∧ (∀ l ∈ s.effective, ∀ v, found l = some v → t.msgs.find (key l) = some
              (.held s.origin l (s.env.dest l (s.curLane l) dst) (extendTo size signed v.1) (v.2 || tag l) false))
            ∧ ∀ n ∈ lines,
              let ls := s.effective.filter fun l => (found l).isNone && lineOf (loc l) == some n
              ∀ l ∈ ls, key l = key (ls.headD 0) ∧ t.msgs.find (key l) = some (.read s.origin n (objOf (loc (ls.headD 0)))
                (if acq then .acquire else .plain) (ls.map fun l =>
                  { lane := l, dest := s.env.dest l (s.curLane l) dst, off := ((memAddr (loc l)).getD 0) % 128
                    size := size, signed := signed, tag := tag l, cap := cap l })))
    (z.toNat ≤ 6 → issues false (.ld z d b o q) { f := d, n := sizeRegs z } (sizeBytes z) (sizeSigned z) q
      (s.baseCap b q o (sizeBytes z)))
    ∧ issues true (.ldacq sc w d b) { f := d, n := wideN w } (wideBytes w) false false fun l => s.capAt l b false

/-- R235, R396: an LDSP reads any copy its core still holds, and an entry of the watch table is made for each line that
has none, pending at the copy's version, or resting on a read at the home. With an entry already, its fibres join it and
a copy of another version strikes it; with the table full the fibres load as by LD.
R238, R239 and R427: WCLR empties the crew's watch table, but for the bits of its braid's guard-false fibres. WCHK waits for pending entries of its fibres, one
pending for 4 µs counting as struck (R237); then fibres with a struck entry branch, the others go on, and each leaves the
table.
Rests on the model's own reading or choice in log entries 11, 26, 27, 64 and 97. -/
def Obligations.SpeculationAndWatch : Prop :=
  (∀ (s : State) (z : BitVec 3) (d b : RegF) (o : BitVec 7) (q : Bool) (loc : Nat → Loc),
      let size := sizeBytes z
      let dst : Dst := { f := d, n := sizeRegs z }
      let cap := s.baseCap b q o size
      let tag (l : Nat) : Bool := s.tagOf [src b 2 q] l (s.curLane l)
      let at' (n : Nat) : List Nat := s.effective.filter fun l => lineOf (loc l) == some n
      let off (l : Nat) : Nat := ((memAddr (loc l)).getD 0) % 128
      let copy (n : Nat) : Option Copy := ((s.core (s.team s.cur.team).core).copies.find n).filter fun k =>
        (at' n).all fun l => k.holds (halfOf (off l))
      let seen (l n : Nat) (k : Copy) : Mem := s.overlay s.cur.team s.cur.crew l n k.data
      let entry (n : Nat) : Option (Nat × WatchEntry) := s.curCrew.watch.find? fun e => e.2.line == n
      let part (l : Nat) : Part :=
        { lane := l, dest := s.env.dest l (s.curLane l) dst, off := off l, size, signed := sizeSigned z, tag := tag l
          cap := cap l }
      let emptied (t : State) (l : Nat) : Prop := t.curLane l = (s.env.drain l (s.curLane l) dst).advance
      let held (t : State) (l : Nat) (v : Nat × Bool) : Prop := emptied t l ∧ ∃ key, s.next ≤ key ∧ t.msgs.find key = some
        (.held s.origin l (s.env.dest l (s.curLane l) dst) (extendTo size (sizeSigned z) v.1) (v.2 || tag l) false)
      let gets (t : State) (l : Nat) (m : Mem) : Prop := held t l (m.num (off l) size, m.tagOf (off l) size)
      let asks (t : State) (n : Nat) (kind : LoadKind) (ls : List Nat) : Prop :=
        (∀ l ∈ ls, emptied t l)
        ∧ ∃ key, s.next ≤ key ∧ t.msgs.find key = some (.read s.origin n (objOf (loc (ls.headD 0))) kind (ls.map part))
      let lines : List Nat := s.effective.filterMap fun l => lineOf (loc l)
      let full : Prop := s.curCrew.freeWatch = none
      z.toNat ≤ 6 → s.ready [src b 2 q] [dst] = true →
        s.trapsAt cap size 8 (.ldsp z d b o q)
        ∧ (s.reaches cap size 8 loc → (∀ l ∈ s.effective, s.steady size (loc l) = true) →
          (∀ n ∈ lines, ∀ k, copy n = some k → ∀ l ∈ at' n, (seen l n k).poisonOf (off l) size = false) →
          -- every line is new to a table with room for them
          ((∀ n ∈ lines, entry n = none) →
            lines.eraseDups.length ≤ ((List.range 32).filter fun k => (s.curCrew.watch.find k).isNone).length →
            ∃ t, exec (.ldsp z d b o q) s = .next t
              ∧ (s.countersLow = true → (∀ l ∈ s.effective, s.granted (loc l) = true) → s.sameAround t ∧ s.sameMemory t)
              ∧ s.othersPass t
              ∧ (∀ k, (s.curCrew.watch.find k).isSome = true → t.curCrew.watch.find k = s.curCrew.watch.find k)
              ∧ (∀ l ∈ s.effective, memAddr (loc l) = none → ∀ v, s.atHand l size (loc l) = some v → held t l v)
              ∧ ∀ n ∈ lines, ∃ slot e, slot < 32 ∧ s.curCrew.watch.find slot = none ∧ t.curCrew.watch.find slot = some e
                ∧ e.line = n ∧ e.mask = maskOf (at' n) ∧ e.state = .pending ∧ e.created = s.ftime ∧ s.next ≤ e.id
                ∧ (∀ a obj fr v im pd, loc ((at' n).headD 0) = .mem a obj fr v im pd → e.obj = obj ∧ e.frame = fr ∧ e.fver = v)
                ∧ (∀ k, copy n = some k → e.stamp = some k.version ∧ e.epoch = k.epoch
                  ∧ (∀ l ∈ at' n, gets t l (seen l n k))
                  ∧ ∃ key, s.next ≤ key ∧ t.msgs.find key
                      = some (.check s.cur.team s.cur.crew slot e.id n k.version k.epoch))
                ∧ (copy n = none → e.stamp = none ∧ asks t n (.spec (some (slot, e.id))) (at' n)))
          -- one line, with an entry or with no room
          ∧ ∀ n, (∀ l ∈ s.effective, lineOf (loc l) = some n) →
            (∀ k e, entry n = some (k, e) →
              ∃ t, exec (.ldsp z d b o q) s = .next t ∧ s.othersPass t
                ∧ (∀ c, copy n = some c → (∀ l ∈ s.effective, gets t l (seen l n c))
                  ∧ t.curCrew.watch.find k = some { e with
                      mask := e.mask ||| maskOf (at' n)
                      state := if e.stateAt s.ftime = .pending ∧ e.stamp = some c.version ∧ e.epoch = c.epoch then .pending
                        else .struck })
                ∧ (copy n = none → asks t n (.spec none) (at' n)
                  ∧ t.curCrew.watch.find k = some { e with mask := e.mask ||| maskOf (at' n) }))
            ∧ (full → entry n = none → (∀ l ∈ s.effective, s.sound l size (loc l) = true) →
              exec (.ldsp z d b o q) s = exec (.ld z d b o q) s)))
  ∧ (∀ (s : State) (o : BitVec 21), s.ready [] [] = true →
      let C := s.curCrew
      let holds (l : Nat) (st : WatchState) : Prop := ∃ e ∈ C.watch, e.2.mask.getLsbD l = true ∧ e.2.stateAt s.ftime = st
      let keeps (e : Nat × WatchEntry) : Nat × WatchEntry :=
        (e.1, { e.2 with mask := e.2.mask &&& maskOf (s.cur.lanes.filter fun l => !s.effective.contains l) })
      let leaves (e : Nat × WatchEntry) : Nat × WatchEntry := (e.1, { e.2 with mask := e.2.mask &&& ~~~(maskOf s.effective) })
      exec .wclr s = .next ((s.updCrew s.cur.team s.cur.crew fun C =>
        { C with watch := (C.watch.map keeps).filter fun e => e.2.mask != 0 }).done fun _ L => L)
      ∧ (s.maySteer (fun _ => false) →
        ((∃ l ∈ s.effective, holds l .pending) →
          exec (.wchk o) s = .next (s.park fun l => if l ∈ s.effective then .watch else .regs []))
        ∧ ((∀ l ∈ s.effective, ¬holds l .pending) → ∃ t, exec (.wchk o) s = .next t ∧ s.sameMemory t ∧ s.othersPass t
          ∧ t.curCrew.watch = (C.watch.map leaves).filter (fun e => e.2.mask != 0)
          ∧ ∀ l ∈ s.effective,
            let L := s.curLane l
            let M : Lane := { L with taint := L.taint || L.gtag }
            (holds l .struck → t.curLane l = { M with pc := L.pc + BitVec.ofInt 32 (4 * o.toInt), guard := none, hints := {}
                                                      did := none })
            ∧ (¬holds l .struck → t.curLane l = M.advance))))

/-- R226, R419 to R421 at issue: every fibre sends the write of its bytes to the home, and the crew counts it; bytes
for the stash go into the bank by the tag rule of R107. Memory stays until the home performs the writes. An STREL first
waits by its scope until its braid's earlier values are there, and takes a checkpoint; a fibre in a watch entry traps
it.
Rests on the model's own reading or choice in log entries 11, 12, 16 and 24. -/
def Obligations.StoreIssue : Prop :=
  ∀ (s : State) (z : BitVec 3) (w : Bool) (sc : BitVec 5) (d b v : RegF) (o : BitVec 7) (q : Bool) (loc : Nat → Loc),
    let stores (i : Instr) (x y : Src) (size : Nat) (cap : Nat → DWord) (release : Bool) : Prop :=
      let data (l : Nat) : List Byte := leBytes size (s.operand l y).bits.toNat
      let tag (l : Nat) : Bool := s.tagOf [x, y] l (s.curLane l)
      let far : List Nat := s.effective.filter fun l => (memAddr (loc l)).isSome
      s.trapsAt cap size 4 i
      ∧ (s.reaches cap size 4 loc →
        ∃ t, exec i s = .next t
          ∧ (s.countersLow = true → s.sameMemory t
            ∧ { t with teams := s.teams, msgs := s.msgs, next := s.next, counters := s.counters, cores := s.cores } = s
            ∧ ∀ l ∈ s.effective, ∀ a, stashOff (loc l) = some a → a / 128 ∈ (t.team s.cur.team).body.dirty)
          ∧ (∀ l ∈ s.cur.lanes, t.curLane l = (s.curLane l).advance)
          ∧ (∀ l, l ∉ s.cur.lanes → t.curLane l = s.curLane l)
          ∧ (∀ k, k < s.next → t.msgs.find k = s.msgs.find k)
          ∧ t.curCrew.unacked = s.curCrew.unacked + far.length ∧ t.curCrew.frames = s.curCrew.frames
          ∧ (∀ l ∈ far, ∃ key a, memAddr (loc l) = some a ∧ s.next ≤ key
            ∧ t.msgs.find key = some (.write (.crew s.cur.team s.cur.crew (s.team s.cur.team).core [l] s.next) a (data l)
                (tag l || pdefOf (loc l))))
          ∧ (t.team s.cur.team).body.stash = s.effective.foldl (fun m l => match stashOff (loc l) with
              | some a => m.store a (data l) (tag l)
              | none => m) (s.team s.cur.team).body.stash
          ∧ if release then (t.team s.cur.team).shadow.isSome = true ∧ (t.team s.cur.team).rollbacks = 0
            else (t.team s.cur.team).shadow = (s.team s.cur.team).shadow)
    let x := src b 2 false
    let y := src v (wideN w) false
    let st := Instr.strel sc w b v
    let k := s.horizonHere sc
    let open' : Prop := s.fenceOpen s.cur.team s.cur.crew k s.cur.lanes = true
    (z.toNat ≤ 6 → s.ready [src b 2 q, src d (sizeRegs z) false] [] = true →
      stores (.st z d b o q) (src b 2 q) (src d (sizeRegs z) false) (sizeBytes z) (s.baseCap b q o (sizeBytes z)) false)
    ∧ (s.ready [x, y] [] = true → (∀ l ∈ s.effective, s.curCrew.watched l = false) →
      (open' → stores st x y (wideBytes w) (fun l => s.capAt l b false) true)
      ∧ (¬open' → s.reaches (fun l => s.capAt l b false) (wideBytes w) 4 loc →
        exec st s = .next (s.park fun _ => .fence k s.cur.lanes)))
    ∧ (s.ready [x, y] [] = true → (∃ l ∈ s.effective, s.curCrew.watched l = true) → exec st s = .next (s.trap s.effective 0x19 0))

/-- R92, R268, R358 and R359 at issue: each fibre's atomic goes to its line's home, and its destination is empty until
the reply; in the stash they happen at once, ascending, the old value on its way. A wider scope makes the fibres wait
for the reply and drops the elements read ahead (R282); atomics on memory take a checkpoint. The sum of ATFADD is that of
FloatResults, rounded to nearest even with subnormals kept.
Rests on the model's own reading or choice in log entries 12, 16, 24 and 62. -/
def Obligations.AtomicIssue : Prop :=
  (∀ (s : State) (w : Bool) (sc : BitVec 5) (d b v : RegF) (loc : Nat → Loc),
    let n := wideN w
    let size := wideBytes w
    let dst : Dst := { f := d, n := n }
    let x := src b 2 false
    let wider : Bool := sc != 0
    let cap (l : Nat) : DWord := s.capAt l b false
    let issues (i : Instr) (op : BitVec 3) (xchg : Bool) (vs : List Src) (value : RegF) : Prop :=
      s.ready (x :: vs) [dst] = true → (wider = true → ∀ l ∈ s.effective, s.curCrew.watched l = false) →
      s.trapsAt cap size 13 i
      ∧ (s.reaches cap size 13 loc → (∀ l ∈ s.effective, s.steady size (loc l) = true) →
        let k := s.horizonHere sc
        (wider = true → s.fenceOpen s.cur.team s.cur.crew k s.cur.lanes = false →
          exec i s = .next (s.park fun _ => .fence k s.cur.lanes))
        ∧ ((wider = true → s.fenceOpen s.cur.team s.cur.crew k s.cur.lanes = true) →
          let base (l : Nat) : Bool := s.tagOf [x] l (s.curLane l)
          let val (l : Nat) : Val := s.operand l (src value n false)
          let cmp (l : Nat) : Val := s.operand l (src d n false)
          let cas : Bool := op == 7 && !xchg
          let part (l : Nat) : AtomPart :=
            { lane := l, dest := s.env.dest l (s.curLane l) dst, off := ((memAddr (loc l)).getD 0) % 128, size, op
              v := (val l).w64, cmp := if op == 7 then (cmp l).w64 else 0, tag := base l, vtag := (val l).tag
              ctag := cas && (cmp l).tag, xchg }
          let near := s.effective.foldl (fun (r : Mem × List (Nat × Nat × Bool)) l => match stashOff (loc l) with
            | some a =>
              let old := r.1.num a size
              ((match atomOp op xchg size old (part l).cmp.toNat (val l).w64.toNat with
                | some new => r.1.store a (leBytes size new) ((val l).tag || base l || (part l).ctag)
                | none => r.1), r.2 ++ [(l, old, r.1.tagOf a size)])
            | none => r) ((s.team s.cur.team).body.stash, [])
          let far : List Nat := s.effective.filter fun l => (memAddr (loc l)).isSome
          ∃ (t : State) (key : Nat → Nat), exec i s = .next t
            ∧ (s.countersLow = true → s.sameMemory t
              ∧ (∀ k, k < s.next → t.msgs.find k = (if wider then s.discardAhead s.effective else s).msgs.find k)
              ∧ ∀ l ∈ s.effective, ∀ a, stashOff (loc l) = some a → a / 128 ∈ (t.team s.cur.team).body.dirty)
            ∧ s.othersPass t
            ∧ (t.team s.cur.team).body.stash = near.1
            ∧ t.curCrew.unacked = s.curCrew.unacked + far.length
            ∧ (∀ l ∈ s.effective, s.next ≤ key l ∧ t.curLane l =
              let L := ((s.env.drain l (s.curLane l) dst).unread fun _ => wider).advance
              if wider then { L with state := .parked (.acquire (key l)) } else L)
            ∧ (∀ r ∈ near.2, t.msgs.find (key r.1) = some (.held s.origin r.1 (part r.1).dest (BitVec.ofNat 128 r.2.1)
              (r.2.2 || base r.1) true))
            ∧ (∀ l ∈ far, ∀ n, lineOf (loc l) = some n →
              t.msgs.find (key l) = some (.atomic s.origin n wider (pdefOf (loc l)) [part l]))
            ∧ ((wider = true ∨ far ≠ []) → (t.team s.cur.team).shadow.isSome = true ∧ (t.team s.cur.team).rollbacks = 0)
            ∧ (wider = false → far = [] → (t.team s.cur.team).shadow = (s.team s.cur.team).shadow)))
    let sv := src v n false
    let sd := src d n false
    issues (.atadd w sc d b v) 0 false [sv] v ∧ issues (.atand w sc d b v) 1 false [sv] v
    ∧ issues (.ator w sc d b v) 2 false [sv] v ∧ issues (.atxor w sc d b v) 3 false [sv] v
    ∧ issues (.atmin w sc d b v) 4 false [sv] v ∧ issues (.atmax w sc d b v) 5 false [sv] v
    ∧ issues (.atfadd w sc d b v) 6 false [sv] v ∧ issues (.atcas w sc d b v) 7 false [sv, sd] v
    ∧ issues (.atxch w sc d b) 7 true [src zF n false, sd] d)
  ∧ ∀ (size old cmp v : Nat), size = 4 ∨ size = 8 → old < 2 ^ (8 * size) → v < 2 ^ (8 * size) → cmp < 2 ^ (8 * size) →
    let i (x : Nat) : Int := (BitVec.ofNat (8 * size) x).toInt
    atomOp 0 false size old cmp v = some ((old + v) % 2 ^ (8 * size)) ∧ atomOp 1 false size old cmp v = some (old &&& v)
    ∧ atomOp 2 false size old cmp v = some (old ||| v) ∧ atomOp 3 false size old cmp v = some (old ^^^ v)
    ∧ atomOp 4 false size old cmp v = some (if i v < i old then v else old)
    ∧ atomOp 5 false size old cmp v = some (if i old < i v then v else old)
    ∧ atomOp 6 false size old cmp v = some ((if size = 8 then f64 else f32).add ⟨.rne, false, true⟩
        ((if size = 8 then f64 else f32).read false old) ((if size = 8 then f64 else f32).read false v)).bits
    ∧ atomOp 7 false size old cmp v = (if old = cmp then some v else none) ∧ atomOp 7 true size old cmp v = some v


/-! ## Records of narrow numbers and state registers -/

/-- R408 to R410: QPACK quantises the group's elements by the lowest fibre's scale and zero point and lays the record
(R145) over the crew's lanes; QUNPK expands the record's elements exactly. Every register written has tag 1.
Rests on the model's own reading or choice in log entries 13, 35 and 52. -/
def Obligations.PackRecords : Prop :=
  (∀ (s : State) (g : BitVec 2) (n : Bool) (d a b : RegF) (p q : Bool),
    let J := s.joined .crew
    let group : Nat := if g = 0 then 32 else if g = 1 then 64 else 128
    let bits : Nat := if n then 8 else 4
    let k : Nat := if n && g == 2 then 2 else 1
    let x := src a (group / 32) p
    let y := src b 1 q
    s.completes .crew ≠ [] →
    (s.mayArrive [x, y] [{ f := d, n := k }] → J.ready [x, y] [{ f := d, n := k }] = true →
      let h := J.effective.headD 0
      let hb := J.operand h y
      let sc := hb.w32.toNat % 65536
      let z := hb.w32.toNat / 65536 % 256
      let L0 := J.curLane h
      let code (e : Nat) : Nat × BitVec 8 :=
        if e % 32 ∈ J.effective then
          quantise L0.rm bits (f16.read false sc) z
            (f32.read (L0.flushes true) (((J.operand (e % 32) x).bits.extractLsb' (32 * (e / 32)) 32).toNat))
        else (z % 2 ^ bits, 0)
      let codes := (List.range group).map code
      let ptag := (J.effective.any fun l => (J.operand l x).tag) || hb.tag
      let bytes := leBytes 2 sc ++ [BitVec.ofNat 8 z, BitVec.ofBool ptag ++ (0 : BitVec 4) ++ g ++ BitVec.ofBool n]
        ++ (if n then codes.map fun c => BitVec.ofNat 8 c.1 else packNibbles (codes.map Prod.fst))
      let put (l i : Nat) (L : Lane) : Lane :=
        if 4 * (32 * i + l) < 4 + group * bits / 8 then
          match J.env.slot l L d i with
          | .reg r => L.setReg r ⟨BitVec.ofNat 32 (leNat ((bytes.drop (4 * (32 * i + l))).take 4)), true, true⟩
          | _ => L
        else L
      exec (.qpack g n d a b p q) s = .next (J.done fun l L =>
        (put l 1 (put l 0 L)).raise (codes.foldl (fun m c => m ||| c.2) 0)))
    ∧ (s.mayArrive [src a k p] [{ f := d, n := group / 32 }] → J.ready [src a k p] [{ f := d, n := group / 32 }] = true →
      (∀ l ∈ s.performers .crew, J.fieldSound l a k = true) →
      let word (w : Nat) : Word :=
        if w % 32 ∈ J.cur.lanes then (J.operand (w % 32) (src a k p)).bits.extractLsb' (32 * (w / 32)) 32 else 0
      let bytes := (List.range ((4 + group * bits / 8) / 4)).flatMap fun w => leBytes 4 (word w).toNat
      let r := Narrow.ofBytes n bytes
      let bad : Bool := r.malformed || r.flags.extractLsb' 0 3 != g ++ BitVec.ofBool n
      let elem (e : Nat) : Word :=
        let c := r.codes.getD e 0
        BitVec.ofNat 32 (if bad then 0x7FC00000 else (f32.roundFrac Attr.engine (r.zeroNeg c) (r.value c)).bits)
      exec (.qunpk g n d a p) s = .next (J.done fun l L =>
        (J.env.put l L { f := d, n := group / 32 } ⟨joinWords ((List.range (group / 32)).map fun i => elem (l + 32 * i)), true⟩).raise
          (if bad then flNV else 0))))
  ∧ ∀ (m : RMode) (bits z : Nat) (sc v : FVal),
    (sc.isZero = true ∨ sc.isFinite = false ∨ v.isNan = true → quantise m bits sc z v = (z % 2 ^ bits, flNV))
    ∧ (sc.isZero = false → sc.isFinite = true → v.isFinite = true →
      let r := (v.frac.mul sc.frac.inv).round m
      let c := r.1 + z
      quantise m bits sc z v = ((max 0 (min c (2 ^ bits - 1))).toNat,
        (if c < 0 ∨ (2 ^ bits : Int) ≤ c then flSAT else 0) ||| (if r.2 then flNX else 0)))

/-- R97, R98, R384, R417 and R418: GSR reads each state register, FTIME as a long-latency value; SSR writes the
registers that are RW, each fibre its own or the highest fibre's value, PART once the crew has converged with the lowest
fibre's (R100); a value out of its range traps STATE_WRITE and writes nothing.
Rests on the model's own reading or choice in log entry 13. -/
def Obligations.StateRegisters : Prop :=
  ∀ (s : State) (a : RegF) (n : BitVec 8),
    let k := wideN (wideState n)
    let dst : Dst := { f := a, n := k }
    let x := src a k false
    let T := s.team s.cur.team
    let C := s.curCrew
    let X := s.ctx (s.teamCtx s.cur.team)
    let v (l : Nat) : Word := (s.operand l x).w32
    let last := v (s.effective.getLastD 0)
    let pass : State := s.done fun _ L => L
    let crewGets (f : Crew → Crew) : Result := .next (pass.updCrew s.cur.team s.cur.crew f)
    let bad : Prop := ∃ l ∈ s.effective, (n = 0x16 ∧ ¬((v l).toNat % 2 ^ 14 % 32 = 0 ∧ 32 ≤ (v l).toNat % 2 ^ 14 ∧ (v l).toNat % 2 ^ 14 ≤ 8192))
      ∨ (n = 0x30 ∨ n = 0x31 ∨ (n = 0x33 ∧ C.frames ≠ [])) ∧ (v l).toNat % 4 ≠ 0
    (s.ready [] [dst] = true →
      (n ≠ 0 → exec (.gsr a n) s = .next (s.wrote dst (fun l L => val64 (s.stateReg l L n) L.gt) noFlags))
      ∧ (n = 0 → exec (.gsr a n) s = .next ((s.emptied dst).send (.ftime s.cur.team s.cur.crew
          (s.effective.map fun l => (l, s.env.dest l (s.curLane l) dst, (s.curLane l).gt))))))
    ∧ (∀ l L, s.stateReg l L 0x01 = BitVec.ofNat 64 (s.teamCtx s.cur.team) ∧ s.stateReg l L 0x04 = BitVec.ofNat 64 s.cur.crew
      ∧ s.stateReg l L 0x05 = BitVec.ofNat 64 l ∧ s.stateReg l L 0x06 = BitVec.ofNat 64 (32 * s.cur.crew + l)
      ∧ s.stateReg l L 0x07 = BitVec.ofNat 64 T.core ∧ s.stateReg l L 0x08 = BitVec.ofNat 64 s.chipno
      ∧ s.stateReg l L 0x0A = BitVec.ofNat 64 (if T.core < 160 then s.clkA else s.clkB)
      ∧ s.stateReg l L 0x10 = L.fmode.setWidth 64 ∧ s.stateReg l L 0x11 = L.fstat.setWidth 64
      ∧ s.stateReg l L 0x12 = L.ftrapen.setWidth 64 ∧ s.stateReg l L 0x13 = BitVec.ofNat 64 C.part
      ∧ s.stateReg l L 0x14 = C.prio.setWidth 64 ∧ s.stateReg l L 0x15 = (if X.steer then 1 else 0)
      ∧ s.stateReg l L 0x16 = BitVec.ofNat 64 X.lease ∧ s.stateReg l L 0x20 = (s.core T.core).kick.setWidth 64
      ∧ s.stateReg l L 0x30 = T.body.trapvec.setWidth 64 ∧ s.stateReg l L 0x31 = T.body.emuvec.setWidth 64
      ∧ s.stateReg l L 0x32 = BitVec.ofNat 64 C.frames.length
      ∧ (∀ fr r, C.frames = fr :: r → s.stateReg l L 0x33 = fr.epc.setWidth 64 ∧ s.stateReg l L 0x34 = fr.cause.setWidth 64
        ∧ s.stateReg l L 0x35 = fr.mask.setWidth 64 ∧ s.stateReg l L 0x36 = fr.word.setWidth 64 ∧ s.stateReg l L 0x38 = fr.eaddr
        ∧ (∀ g, (fr.after.head?.map Prod.snd).getD none = g → s.stateReg l L 0x37 = BitVec.ofNat 64
          (((g.map fun g => 2 ^ 4 + 2 ^ 5 * (g.left % 8) + 2 ^ 8 * g.q.toNat + (if g.neg then 2 ^ 12 else 0)).getD 0)
            + 2 * fr.ulen.toNat + (if fr.adv then 1 else 0))))
      ∧ (let st (x : WatchState) : Nat := C.watch.countP fun e => e.2.stateAt s.ftime == x
        C.watch.length ≤ 32 →
          s.stateReg l L 0x22 = BitVec.ofNat 64 (C.watch.length + 2 ^ 8 * st .pending + 2 ^ 16 * st .struck))
      ∧ (let role (b : Nat) : Nat := (s.stateReg l L 0x21).toNat / 2 ^ (2 * b) % 4
        ∀ b, b < 32 → role b = match (s.core T.core).roles with
          | none => 0
          | some (S, N) =>
            if b < S then 1
            else if b < S + N then 2
            else if 32 < 2 * (S + N) then 0
            else if b < 2 * S + N then 1
            else if b < 2 * S + 2 * N then 2
            else 0)
      ∧ (∀ m : BitVec 8, m.toNat ∉ [0x00, 0x01, 0x02, 0x03, 0x04, 0x05, 0x06, 0x07, 0x08, 0x09, 0x0A, 0x10, 0x11, 0x12, 0x13, 0x14,
          0x15, 0x16, 0x20, 0x21, 0x22, 0x30, 0x31, 0x32, 0x33, 0x34, 0x35, 0x36, 0x37, 0x38] → s.stateReg l L m = 0)
      ∧ (C.frames = [] → ∀ m : BitVec 8, 0x33 ≤ m → m ≤ 0x38 → s.stateReg l L m = 0)
      ∧ (∀ lc, s.launchOf s.cur.team = some lc → s.stateReg l L 0x02 = lc.gen.setWidth 64
        ∧ s.stateReg l L 0x09 = BitVec.ofNat 64 lc.depth
        ∧ (let gx := lc.block.gx
          let gy := lc.block.gy
          let id := (s.stateReg l L 0x03).toNat
          T.index < gx * gy * lc.block.gz → gx < 2 ^ 16 → gy < 2 ^ 16 → lc.block.gz < 2 ^ 16 →
            id < 2 ^ 48 ∧ id % 2 ^ 16 < gx ∧ id / 2 ^ 16 % 2 ^ 16 < gy
            ∧ T.index = id % 2 ^ 16 + gx * (id / 2 ^ 16 % 2 ^ 16 + gy * (id / 2 ^ 32)))))
    ∧ (n ≠ 0x13 → s.ready [x] [] = true →
      (bad → exec (.ssr a n) s = .next (s.trap s.effective 0x15 0))
      ∧ (¬bad →
        (n = 0x10 → exec (.ssr a n) s = .next (s.done fun l L => { L with fmode := (v l).extractLsb' 0 5 }))
        ∧ (n = 0x11 → exec (.ssr a n) s = .next (s.done fun l L => { L with fstat := L.fstat &&& ~~~(v l).extractLsb' 0 8 }))
        ∧ (n = 0x12 → exec (.ssr a n) s = .next (s.done fun l L => { L with ftrapen := (v l).extractLsb' 0 8 }))
        ∧ (n = 0x14 → exec (.ssr a n) s = crewGets fun C => { C with prio := last.extractLsb' 0 4 })
        ∧ (n = 0x15 → exec (.ssr a n) s
          = .next (pass.updCtx (s.teamCtx s.cur.team) fun X => { X with steer := last.getLsbD 0 }))
        ∧ (n = 0x16 → exec (.ssr a n) s
          = .next (pass.updCtx (s.teamCtx s.cur.team) fun X => { X with lease := (last.extractLsb' 0 14).toNat }))
        ∧ (n = 0x30 → exec (.ssr a n) s = .next (pass.updBody s.cur.team fun b => { b with trapvec := last }))
        ∧ (n = 0x31 → exec (.ssr a n) s = .next (pass.updBody s.cur.team fun b => { b with emuvec := last }))
        ∧ (n = 0x33 → ∃ t, exec (.ssr a n) s = .next t ∧ t.curCrew.frames = (match C.frames with
          | [] => []
          | fr :: r => { fr with epc := last } :: r))
        ∧ (n = 0x37 → ∃ t, exec (.ssr a n) s = .next t ∧ t.curCrew.frames = (match C.frames with
          | [] => []
          | fr :: r => { fr with adv := last.getLsbD 0 } :: r))
        ∧ (n ∉ [0x10, 0x11, 0x12, 0x14, 0x15, 0x16, 0x30, 0x31, 0x33, 0x37] → exec (.ssr a n) s = .next pass)))
    ∧ (n = 0x13 → s.completes .crew ≠ [] → s.mayArrive [x] [] →
      let J := s.joined .crew
      let w (l : Nat) : Nat := (J.operand l x).w32.toNat % 8
      J.ready [x] [] = true →
        ((∀ l ∈ J.effective, 1 ≤ w l ∧ w l ≤ 5) → exec (.ssr a n) s
          = .next ((J.done fun _ L => L).updCrew s.cur.team s.cur.crew fun C => { C with part := w (J.effective.headD 0) }))
        ∧ ((∃ l ∈ J.effective, w l = 0 ∨ 5 < w l) → exec (.ssr a n) s = .next (J.trap J.effective 0x15 0)))

/-! ## Fences, caches and the stash window -/

/-- R229 to R232 and R381: a FENCE takes a checkpoint and lets the braid pass once the crew has no unacknowledged write,
FTIME has reached the horizon of its scope's class, and every value that the braid's fibres asked for has come; until
then they wait together. It drops the elements that their streams read ahead (R282). A fibre in a watch entry traps it (R240).
R244, R365, R388, R405 and R406: CFLUSH and CINV pass when no stash line of their range is dirty or awaited, CINV
dropping the core's copies and, for the stash, the lines; a dirty line goes home first and the fibres wait. PREF asks the
home for a line without a live copy. IINV drops its code's instruction copies at the cores of its scope, tells the other
devices that its scope names, and waits until those have answered. PQRY reports whether the lowest fibre's stash line is
present.
Rests on the model's own reading or choice in log entries 11, 16, 22, 24 and 25. -/
def Obligations.FenceAndCacheWords : Prop :=
  ((∀ (s : State) (sc : BitVec 5), s.effective ≠ [] →
      let k := s.horizonHere sc
      ((∃ l ∈ s.cur.lanes, s.curCrew.watched l = true) → exec (.fence sc) s = .next (s.trap s.effective 0x19 0))
      ∧ ((∀ l ∈ s.cur.lanes, s.curCrew.watched l = false) →
        (s.fenceOpen s.cur.team s.cur.crew k s.cur.lanes = true →
          ∃ t, exec (.fence sc) s = .next t ∧ t = (s.discardAhead s.cur.lanes).advanceAll.checkpointHere ∧ s.sameMemory t
            ∧ (∀ l ∈ s.cur.lanes, t.curLane l = ((s.curLane l).unread fun _ => true).advance)
            ∧ (t.team s.cur.team).shadow.isSome = true ∧ (t.team s.cur.team).rollbacks = 0
            ∧ (t.team s.cur.team).recalled = [])
        ∧ (s.fenceOpen s.cur.team s.cur.crew k s.cur.lanes = false →
          exec (.fence sc) s = .next (s.park fun _ => .fence k s.cur.lanes))))
    ∧ ∀ (s : State) (sc : BitVec 5) (k : Horizon) (ls : List Nat),
      (s.fenceOpen s.cur.team s.cur.crew k ls = true ↔ s.curCrew.unacked = 0 ∧ (k = .die → s.curCrew.gdie ≤ s.ftime)
        ∧ (k = .all → s.curCrew.gall ≤ s.ftime) ∧ ∀ l ∈ ls, s.valueDue s.cur.team s.cur.crew l = false)
      ∧ s.horizonHere sc = (if sc.toNat ≤ 1 then .core else if sc.toNat = 2 then .die else if sc.toNat ≤ 6 then .all
        else (((s.ctx (s.teamCtx s.cur.team)).scopes.find sc.toNat).map ScopeEntry.horizon).getD .all))
  ∧ (∀ (s : State) (a b : RegF) (sc : BitVec 5) (n : PredF) (k : Bool),
      let cap (l : Nat) : DWord := s.capAt l a false
      let len (l : Nat) : Word := (s.operand l (src b 1 false)).w32
      let body := (s.team s.cur.team).body
      let first (l : Nat) : Nat := capOff (cap l) / 128
      let count (l : Nat) : Nat := if len l = 0 then 0 else (capOff (cap l) + (len l).toNat - 1) / 128 - first l + 1
      let stash (l : Nat) : List Nat := body.rangeStash (cap l) (if len l = 0 then (0, 0) else (first l, count l))
      let watched (l : Nat) : List Nat := body.watchedStash (cap l) (if len l = 0 then (0, 0) else (first l, count l))
      let pass (t : State) : Prop := ∀ l ∈ s.cur.lanes, t.curLane l = (s.curLane l).advance
      (s.ready [src a 2 false, src b 1 false] [] = true → (∀ l ∈ s.effective, s.rangeFails (cap l) (len l) = none) →
        (∀ l ∈ s.effective, ∀ m ∈ watched l, s.copyInto s.cur.team m = false) →
        ((∀ l ∈ s.effective, ∀ m ∈ stash l, body.dirty.contains m = false) → s.windowBusy s.cur.team s.cur.crew = false →
          (∃ t, exec (.cflush a b) s = .next t ∧ pass t ∧ s.sameMemory t ∧ t.cores = s.cores)
          ∧ ∃ t, exec (.cinv a b) s = .next t ∧ pass t ∧ s.sameMemory t
            ∧ (∀ l ∈ s.effective, capObj (cap l) ≠ 0 → ∀ m ∈ List.range' (first l) (count l), ∀ ad ob fr fv im pd,
              s.check s.cur.team (capWith (cap l) (128 * m)) 16 16 8 = .ok (.mem ad ob fr fv im pd) →
              (t.core (s.team s.cur.team).core).copies.find (ad / 128) = none)
            ∧ (∀ l ∈ s.effective, capObj (cap l) = 0 → ∀ m ∈ stash l, m ∈ (t.team s.cur.team).body.absent))
        ∧ (∀ i ∈ [Instr.cflush a b, .cinv a b], ∀ l ∈ s.effective, ∀ m ∈ stash l, body.dirty.contains m = true →
          (∀ l ∈ s.effective, (s.curLane l).did = none) → (∀ l ∈ s.effective, ∀ m ∈ stash l, s.homeFails s.cur.team m = none) →
          ∀ w ad, body.windowOf m = some w → s.windowAddr s.cur.team w m = some ad →
          ∃ t key, exec i s = .next t ∧ s.next ≤ key ∧ t.msgs.find key = some
              (.back (.window s.cur.team s.cur.crew (s.team s.cur.team).core) (ad / 128)
                (pdefMem (body.stash.slice (128 * m) 128) (s.windowPdef s.cur.team w)) false)
            ∧ (t.team s.cur.team).body.dirty.contains m = false ∧ (s.countersLow = true → s.sameMemory t)
            ∧ ∀ l ∈ s.effective, (t.curLane l).pc = (s.curLane l).ustart ∧ (t.curLane l).did = some .sent))
      ∧ (s.ready [src a 2 false] [] = true → ∀ loc : Nat → Loc,
        (∀ l ∈ s.effective, s.check s.cur.team (cap l) 16 16 8 = .ok (loc l) ∧ s.present (loc l) = true) →
        ∃ t, exec (.pref a k) s = .next t ∧ pass t ∧ (s.countersLow = true → s.sameMemory t) ∧ t.cores = s.cores
          ∧ ∀ l ∈ s.effective, ∀ m, lineOf (loc l) = some m →
            ((((s.core (s.team s.cur.team).core).copies.find m).any fun c => c.live s.ftime) = false →
            ∃ key, s.next ≤ key ∧ t.msgs.find key = some (.read s.origin m (objOf (loc l)) .plain [])))
      ∧ (s.effective ≠ [] → s.curCrew.named = [] →
        let ctx := s.teamCtx s.cur.team
        let obj := capObj (s.codeOf s.cur.team)
        let mine := s.scopeCores ctx (s.team s.cur.team).core sc
        let others := (s.scopeMembers s.cur.team (s.team s.cur.team).core sc.toNat).filter fun m => m.1 != s.chipno && !s.lost m.1
        let dropped (t : State) : Prop := s.sameMemory t ∧ (∀ c, c ∉ mine → t.core c = s.core c)
          ∧ ∀ c ∈ mine, ∀ w ∈ (t.core c).icache, ¬(w.ctx = ctx ∧ w.obj = obj)
        let waits (t : State) (id : Nat) : Prop := ∀ l ∈ s.cur.lanes,
          (t.curLane l).state = .parked (.invalidated id) ∧ (t.curLane l).pc = (s.curLane l).ustart
        ((∀ l ∈ s.effective, (s.curLane l).iinvId = none) →
          (others = [] → ∃ t, exec (.iinv sc) s = .next t ∧ pass t ∧ dropped t ∧ t.linkOut = s.linkOut)
          ∧ (others ≠ [] → ∃ t, exec (.iinv sc) s = .next t ∧ waits t s.next ∧ dropped t
            ∧ t.iinvs.find s.next = some (others.map Prod.fst)
            ∧ t.linkOut = s.linkOut ++ others.map fun m => (m.1, .iinv s.chipno s.next ctx obj m.2)))
        ∧ ∀ id, (∀ l ∈ s.effective, (s.curLane l).iinvId = some id) →
          (((s.iinvs.find id).all fun ds => ds.all s.lost) = true → ∃ t, exec (.iinv sc) s = .next t ∧ pass t ∧ dropped t)
          ∧ (((s.iinvs.find id).all fun ds => ds.all s.lost) = false →
            ∃ t, exec (.iinv sc) s = .next t ∧ waits t id ∧ s.sameMemory t ∧ t.cores = s.cores))
      ∧ (s.ready [src a 1 false] [] = true →
        let l0 := s.effective.headD 0
        let x := s.operand l0 (src a 1 false)
        (65536 * s.stashBanks s.cur.team ≤ x.w32.toNat →
          exec (.pqry a n) s = .next (s.trap s.effective 0x2A (BitVec.ofNat 64 x.w32.toNat)))
        ∧ (x.w32.toNat < 65536 * s.stashBanks s.cur.team →
          exec (.pqry a n) s = .next (s.mapLanes s.cur.lanes fun l L =>
            (if l = l0 then L.setQ n (!body.absent.contains (x.w32.toNat / 128)) (x.tag || L.gt) else L).advance))))

/-- R217, R218, R220 and R432: STMAP maps a window whose lines are then absent and clean; its lowest fibre's faulty
parameters and a window that is taken trap. STWB and STUNMAP pass when the window is clean, STUNMAP leaving its lines'
data; dirty lines go home first; without such a window both have no effect.
Rests on the model's own reading or choice in log entries 11, 28 and 45. -/
def Obligations.StashWindows : Prop :=
  ∀ (s : State) (a b : RegF) (w : BitVec 4),
    let l0 := s.effective.headD 0
    let cap := s.capAt l0 a false
    let line := s.operand l0 (src b 1 false)
    let first := line.w32.toNat / 65536
    let count := line.w32.toNat % 65536
    let body := (s.team s.cur.team).body
    let pass (t : State) : Prop := (∀ l ∈ s.cur.lanes, t.curLane l = (s.curLane l).advance) ∧ s.sameMemory t
      ∧ (t.team s.cur.team).body.stash = body.stash
    let param : Prop := capOff cap % 128 ≠ 0 ∨ count = 0 ∨ 512 * s.stashBanks s.cur.team < first + count
    let taken : Prop := body.windows.find w.toNat ≠ none
      ∨ ∃ x ∈ body.windows, first < x.2.first + x.2.count ∧ x.2.first < first + count
    (s.ready [src a 2 false, src b 1 false] [] = true →
      (param → exec (.stmap a b w) s = .next (s.trap s.effective 0x28 0))
      ∧ (¬param → taken → exec (.stmap a b w) s = .next (s.trap s.effective 0x29 0))
      ∧ (¬param → ¬taken →
        (∀ i < count, capOff cap + 128 * i < 2 ^ 38
          ∧ ∃ x, s.check s.cur.team (capWith cap (capOff cap + 128 * i)) 128 128 8 = .ok x) →
        ((∀ i < count, s.copyInto s.cur.team (first + i) = false) →
          ∃ t, exec (.stmap a b w) s = .next t ∧ pass t
            ∧ (t.team s.cur.team).body.windows.find w.toNat = some
              { cap := cap, first := first, count := count
                tag := s.tagOf [src a 2 false, src b 1 false] l0 (s.curLane l0) }
            ∧ (∀ v, v ≠ w.toNat → (t.team s.cur.team).body.windows.find v = body.windows.find v)
            ∧ (∀ i < count, (t.team s.cur.team).body.absent.contains (first + i) = true
              ∧ (t.team s.cur.team).body.dirty.contains (first + i) = false)
            ∧ ∀ n, n < first ∨ first + count ≤ n →
              (t.team s.cur.team).body.absent.contains n = body.absent.contains n
              ∧ (t.team s.cur.team).body.dirty.contains n = body.dirty.contains n)
        ∧ ((∃ i < count, s.copyInto s.cur.team (first + i) = true) →
          exec (.stmap a b w) s = .next (s.parkOne (.window first count)))))
    ∧ (s.ready [] [] = true →
      (body.windows.find w.toNat = none →
        exec (.stwb w) s = .next s.advanceAll ∧ exec (.stunmap w) s = .next s.advanceAll)
      ∧ ∀ win, body.windows.find w.toNat = some win →
        let lines := List.range' win.first win.count
        (∀ n ∈ lines, s.copyInto s.cur.team n = false) →
        ((∀ n ∈ lines, body.dirty.contains n = false) → s.windowBusy s.cur.team s.cur.crew = false →
          (∃ t, exec (.stwb w) s = .next t ∧ pass t ∧ (t.team s.cur.team).body.windows = body.windows)
          ∧ ∃ t, exec (.stunmap w) s = .next t ∧ pass t ∧ (t.team s.cur.team).body.absent = body.absent
            ∧ (∀ v, (t.team s.cur.team).body.windows.find v = if v = w.toNat then none else body.windows.find v))
        ∧ ∀ i ∈ [Instr.stwb w, .stunmap w], ∀ n ∈ lines, body.dirty.contains n = true → (s.curLane l0).did = none →
          (∀ n ∈ lines, s.homeFails s.cur.team n = none) →
          ∀ x ad, body.windowOf n = some x → s.windowAddr s.cur.team x n = some ad →
          ∃ t key, exec i s = .next t ∧ (s.countersLow = true → s.sameMemory t) ∧ s.next ≤ key
            ∧ t.msgs.find key = some (.back (.window s.cur.team s.cur.crew (s.team s.cur.team).core) (ad / 128)
                (pdefMem (body.stash.slice (128 * n) 128) (s.windowPdef s.cur.team x)) false)
            ∧ (t.team s.cur.team).body.dirty.contains n = false
            ∧ (t.curLane l0).pc = (s.curLane l0).ustart ∧ (t.curLane l0).did = some .sent)


/-! ## Words of the engines -/

/-- R242, R272, R274, R278, R371, R399, R400, R402 and R426 at issue: MRDY notes a block whose operands are ready, MMA
takes the block that was noted into its core's queue under its ticket, the note cleared before it waits for the ticket, and
operands that the MRDY did not wait for undefined, DCOR likewise without a note, WBLD makes its descriptor invalid and starts
a load; a pending ticket holds them, and each goes by the record as it copied it before it waited. MWAIT ends
when its ticket is idle, and reports a mismatch; passing, it drops the elements read ahead (R282).
Rests on the model's own reading or choice in log entries 11, 15, 29, 55 and 57. -/
def Obligations.MatrixIssue : Prop :=
  ∀ (s : State) (a : RegF) (k : BitVec 6),
    let t0 := s.cur.team
    let l0 := s.effective.headD 0
    let L0 := s.curLane l0
    let addr := s.recAt a l0
    let core := (s.team t0).core
    let r := s.copied a 64 l0
    let bytes := r.1
    let mma := mmaBlock bytes
    let dcor := dcorBlock bytes
    let wb := s.copied a 32 l0
    let wbld := wbldBlock wb.1
    let waits (r : List Byte × Bool) (w : Wake) : Result :=
      .next ((s.parkOne w).mapLanes [l0] fun _ L => { L with did := some (.copied r.1 r.2) })
    let queued (t : State) (ticket : Nat) (isDcor : Bool) : Prop := t.curCrew.tickets.find ticket = some { lane := l0 }
      ∧ ∃ op : MatOp, (t.core core).mats = (s.core core).mats ++ [op] ∧ op.team = t0 ∧ op.crew = s.cur.crew ∧ op.lane = l0
        ∧ op.dcor = isDcor ∧ op.addr = addr ∧ op.bytes = bytes ∧ op.tag = r.2
        ∧ op.gtag = L0.gtag ∧ op.taint = L0.taint ∧ op.atag = (s.operand l0 (src a 1 false)).tag ∧ op.ticket = ticket
        ∧ op.race = false ∧ (∀ l, (op.bases.find l).getD 0 = (s.curLane l).wbase)
        ∧ (isDcor = false → op.desc = (s.team t0).wdescs.find mma.wh)
    (s.ready [src a 1 false] [] = true →
      (recordOk (s.stashBanks t0) addr 64 = false →
        ∀ i ∈ [Instr.mrdy a, .mma a, .dcor a], exec i s = .next (s.trap s.effective 0x30 0))
      ∧ (recordOk (s.stashBanks t0) addr 32 = false → exec (.wbld a) s = .next (s.trap s.effective 0x30 0)))
    ∧ (s.hasRecord a 64 [l0] = true →
      (s.operandsReady t0 s.cur.crew bytes = true →
        ∃ t, exec (.mrdy a) s = .next t ∧ s.passes t ∧ t.curCrew.ready = some addr ∧ t.curCrew.readyBlock = bytes)
      ∧ (s.operandsReady t0 s.cur.crew bytes = false → exec (.mrdy a) s = waits r (.operands bytes))
      ∧ (s.armed = false → s.curCrew.ready ≠ some addr → exec (.mma a) s = .next (s.trap s.effective 0x31 0))
      ∧ (s.armed = false → s.curCrew.ready = some addr →
        let waited := mmaBlock s.curCrew.readyBlock
        let full (L : Lane) (f : Nat) : Prop := L.wbase + f < s.spanOf t0 → (L.reg (L.wbase + f)).full = true
        let still : Prop := waited = mma ∧ ∀ p ∈ s.curCrew.lanes, p.2.live = true → ∀ f ∈ mma.readyFields p.1, full p.2 f
        (still → s.curCrew.tickets.find mma.ticket = none →
          ∃ t, exec (.mma a) s = .next t ∧ s.passes t ∧ queued t mma.ticket false ∧ t.curCrew.ready = none)
        ∧ (still → s.curCrew.tickets.find mma.ticket ≠ none →
          exec (.mma a) s = .next ((((s.updCrew t0 s.cur.crew fun C => { C with ready := none, readyBlock := [] }).mapLanes
            s.cur.lanes fun _ L => { L with did := some (.armed r.1 r.2) }).parkOne (.ticket mma.ticket false))))
        ∧ ∃ t, exec (.mma a) s = .next t ∧ s.sameMemory t ∧ t.curCrew.ready = none
          ∧ (s.curCrew.tickets.find mma.ticket = none → queued t mma.ticket false)
          ∧ ∀ l L f, s.curCrew.lanes.find l = some L → L.live = true → f ∈ mma.readyFields l → f ∉ waited.readyFields l ∨ ¬full L f →
            L.wbase + f < s.spanOf t0 → ((t.curLane l).reg (L.wbase + f)).full = true
              ∧ ((t.curLane l).reg (L.wbase + f)).tag = true)
      ∧ (s.armed = true →
        (s.curCrew.tickets.find mma.ticket = none →
          ∃ t, exec (.mma a) s = .next t ∧ s.passes t ∧ queued t mma.ticket false ∧ t.curCrew.ready = s.curCrew.ready)
        ∧ (s.curCrew.tickets.find mma.ticket ≠ none → exec (.mma a) s = .next (s.parkOne (.ticket mma.ticket false))))
      ∧ (s.curCrew.tickets.find dcor.ticket = none →
        ∃ t, exec (.dcor a) s = .next t ∧ s.passes t ∧ queued t dcor.ticket true)
      ∧ (s.curCrew.tickets.find dcor.ticket ≠ none → exec (.dcor a) s = waits r (.ticket dcor.ticket false)))
    ∧ (s.hasRecord a 32 [l0] = true →
      (s.curCrew.tickets.find wbld.ticket = none →
        ∃ t, exec (.wbld a) s = .next t ∧ s.passes t ∧ t.curCrew.tickets.find wbld.ticket = some { lane := l0 }
          ∧ (t.team t0).wdescs.find wbld.wh = none
          ∧ t.jobs.find s.next = some (.wbld t0 s.cur.crew l0 addr wb.1 (wb.2 || s.tagOf [src a 1 false] l0 L0) wbld.ticket))
      ∧ (s.curCrew.tickets.find wbld.ticket ≠ none → exec (.wbld a) s = waits wb (.ticket wbld.ticket false)))
    ∧ (s.effective ≠ [] →
      (s.curCrew.tickets.find k.toNat ≠ none →
        exec (.mwait k) s = .next (s.park fun l => if l ∈ s.effective then .ticket k.toNat true else .regs []))
      ∧ (s.curCrew.tickets.find k.toNat = none → s.curCrew.mismatch.find k.toNat = none →
        exec (.mwait k) s = .next (((s.updCrew t0 s.cur.crew fun C =>
          { C with named := C.named.del k.toNat, namedBuf := C.namedBuf.del k.toNat }).discardAhead s.effective).advanceAll))
      ∧ (s.curCrew.tickets.find k.toNat = none → s.curCrew.mismatch.find k.toNat ≠ none →
        exec (.mwait k) s = .next ((s.updCrew t0 s.cur.crew fun C =>
          { C with named := C.named.del k.toNat, namedBuf := C.namedBuf.del k.toNat
                   mismatch := C.mismatch.del k.toNat }).trap s.effective 0x34 0)))

/-- R282, R289, R361, R362, R366, R368, R390 and R422 at issue: CHAIN and KICK hand their records to the engine and go
on, KICK noting the list's address and its first barrier object, whatever the list holds; STRM binds a stream to a slot
and unbinds at slot z; BARI sets a barrier object and BARA arrives at it; BWAIT passes when nothing remains, dropping the
elements read ahead; COLL joins its collective, and reports a bad record on its object, once the object's line is present.
A record out of place traps.
Rests on the model's own reading or choice in log entries 11, 15, 30, 47, 48 and 49. -/
def Obligations.EngineIssue : Prop :=
  ∀ (s : State) (a : RegF) (b slot : RegF) (n : BitVec 3),
    let t0 := s.cur.team
    let banks := s.stashBanks t0
    let stash := (s.team t0).body.stash
    let l0 := s.effective.headD 0
    let L0 := s.curLane l0
    let at' := s.recAt a
    let alone (l : Nat) : Prop := (s.effective.filter fun m => at' m == at' l).length = 1
    let num (t : State) (ad k : Nat) : Nat := (t.team t0).body.stash.num ad k
    let fstate (l : Nat) : Nat := s.barFstate t0 (at' l)
    let misplaced (size : Nat) : Prop := ∃ l ∈ s.effective, recordOk banks (at' l) size = false
    let traps (i : Instr) : Prop := exec i s = .next (s.trap s.effective 0x30 0)
    (s.ready [src a 1 false] [] = true →
      (recordOk banks (at' l0) 128 = false → traps (.chain a)) ∧ (recordOk banks (at' l0) 64 = false → traps (.coll a))
      ∧ (misplaced 64 → traps (.kick a)) ∧ (misplaced 16 → traps (.bara a) ∧ traps (.bwait a))
      ∧ (misplaced 32 → slot ≠ zF → traps (.strm n a slot)))
    ∧ (s.hasRecord a 128 [l0] = true →
      let r := s.record (at' l0) 128
      (recordOk banks (chainBlock r).bar 16 = true → ∃ t, exec (.chain a) s = .next t ∧ s.passes t
        ∧ t.jobs.find s.next = some
          (.chain t0 s.cur.crew (s.team t0).core (at' l0) r (s.recTag a 128 l0) 0 [] 0 none))
      ∧ (recordOk banks (chainBlock r).bar 16 = false → traps (.chain a)))
    ∧ (s.hasRecord a 64 s.effective = true →
      let bar (l : Nat) : Nat := (copyRec (s.record (at' l) 64)).bar
      ((∃ l ∈ s.effective, recordOk banks (bar l) 16 = false) → traps (.kick a))
      ∧ ((∀ l ∈ s.effective, recordOk banks (bar l) 16 = true) →
        ∃ t, exec (.kick a) s = .next t ∧ s.passes t
          ∧ (t.core (s.team t0).core).kick = BitVec.ofNat 32 (at' (s.effective.getLastD 0))
          ∧ ∀ j l, s.effective[j]? = some l → t.jobs.find (s.next + j) = some (.copy
              { team := t0, crew := s.cur.crew, core := (s.team t0).core, addr := at' l, b0 := bar l
                tag := s.tagOf [src a 1 false] l (s.curLane l) })))
    ∧ (s.hasRecord a 32 s.effective = true → slot ≠ zF →
      let block (l : Nat) : List Byte := s.record (at' l) 32
      let good (l : Nat) : Bool := fieldOf (block l) 16 4 ≤ 4 && zeroAt (block l) 20 12
      ((∃ l ∈ s.effective, good l = false) → traps (.strm n a slot))
      ∧ ((∀ l ∈ s.effective, good l = true) → exec (.strm n a slot) s = .next ((s.discardElements (s.unboundBy n slot)).done
        fun l L =>
        let bound : Stream :=
          { slot := slot, src := BitVec.ofNat 64 (fieldOf (block l) 0 8), stride := BitVec.ofNat 32 (fieldOf (block l) 8 4)
            count := BitVec.ofNat 32 (fieldOf (block l) 12 4), sz := BitVec.ofNat 3 (fieldOf (block l) 16 4), pos := 0 }
        { L with streams := AMap.put (L.streams.filter fun y => y.2.slot != slot) n.toNat bound })))
    ∧ (s.ready [] [] = true → exec (.strm n a zF) s
      = .next ((s.discardElements (s.unboundBy n zF)).done fun _ L => { L with streams := L.streams.del n.toNat }))
    ∧ (s.ready [src a 1 false, src b 1 false] [] = true → misplaced 16 → traps (.bari a b))
    ∧ (s.hasRecord a 16 s.effective = true →
      (s.ready [src a 1 false, src b 1 false] [] = true →
        (∀ body : Body, body.absent = (s.team t0).body.absent →
          (∀ ad, (∀ l ∈ s.effective, ad < at' l ∨ at' l + 16 ≤ ad) → body.stash.byte ad = stash.byte ad) →
          ∀ l ∈ s.effective, ∀ j ∈ s.jobs, j.2.namesBar body (65536 * banks) t0 (at' l) = false) →
        ∃ t, exec (.bari a b) s = .next t ∧ s.passes t ∧ ∀ l ∈ s.effective, alone l →
          num t (at' l) 4 = (s.operand l (src b 1 false)).w32.toNat
          ∧ num t (at' l + 4) 4 = stash.num (at' l + 4) 4 / 2 ^ 16 % 2 * 2 ^ 16 ∧ num t (at' l + 8) 8 = 0
          ∧ (s.tagOf [src a 1 false, src b 1 false] l (s.curLane l) = true →
            (t.team t0).body.stash.tag (at' l / 32) = true)
          ∧ (t.team t0).body.faultAddr.find (at' l) = none)
      ∧ (∃ t, exec (.bara a) s = .next t ∧ s.passes t ∧ ∀ l ∈ s.effective, alone l →
          let remain := stash.num (at' l) 4
          let st := stash.num (at' l + 4) 4
          let arrived := st / 65536 * 65536 + (st % 65536 + 1) % 65536
          num t (at' l) 4 = remain - 1
          ∧ num t (at' l + 4) 4 = (if remain = 0 ∧ fstate l = 0 then arrived + 7 * 2 ^ 24
            else if remain = 1 then (if arrived / 65536 % 2 = 1 then arrived - 65536 else arrived + 65536) else arrived)
          ∧ ((s.curLane l).gt = true → (t.team t0).body.stash.tag (at' l / 32) = true)
          ∧ ((∀ m ∈ s.effective, (s.curLane m).gt = false) →
            (t.team t0).body.stash.tag (at' l / 32) = stash.tag (at' l / 32)))
      ∧ ((∃ l ∈ s.effective, stash.num (at' l) 4 ≠ 0 ∧ fstate l = 0) → exec (.bwait a) s = .next (s.park fun l =>
          if l ∈ s.effective then .barrier (at' l) else .regs []))
      ∧ ((∀ l ∈ s.effective, stash.num (at' l) 4 = 0 ∧ fstate l = 0) →
        exec (.bwait a) s = .next ((s.discardAhead s.effective).advanceAll))
      ∧ ∀ l ∈ s.effective, fstate l ≠ 0 → (∀ j m : Nat, s.effective[j]? = some m → m ≠ l → (∀ i, i < j → s.effective[i]? ≠ some l) →
          fstate m = 0) → (∀ m ∈ s.effective, stash.num (at' m) 4 = 0 ∨ fstate m ≠ 0) →
        exec (.bwait a) s = .next ((s.discardAhead s.effective).trap s.effective 0x33 (((s.team t0).body.faultAddr.find (at' l)).getD 0)))
    ∧ (s.hasRecord a 64 [l0] = true →
      let r := s.record (at' l0) 64
      let c := collBlock r
      let core := (s.team t0).core
      let ms := s.scopeMembers t0 core c.scope
      (recordOk banks c.bar 16 = false → traps (.coll a))
      ∧ (recordOk banks c.bar 16 = true → c.ok (rankCount ms) = true → inSet ms s.chipno core = true →
        s.doneColls.contains { launch := (s.team t0).launch, members := ms, core := core, ctl := BitVec.ofNat 32 c.ctl
                               seq := BitVec.ofNat 32 c.seq } = false →
        ∃ t, exec (.coll a) s = .next t ∧ s.passes t ∧ ∃ k run ranks r', t.jobs.find k = some (.coll run)
          ∧ run.ctx = s.teamCtx t0 ∧ run.members = ms ∧ run.ranks = ranks ++ [r']
          ∧ r'.team = t0 ∧ r'.crew = s.cur.crew ∧ r'.lane = l0 ∧ r'.dev = s.chipno ∧ r'.core = core ∧ r'.bytes = r
          ∧ r'.addr = at' l0 ∧ r'.bar = c.bar ∧ r'.remote = none ∧ r'.got = none ∧ r'.gtag = s.tagOf [src a 1 false] l0 L0
          ∧ r'.btag = stash.tagOf (at' l0) 64)
      ∧ (recordOk banks c.bar 16 = true → c.ok (rankCount ms) = true → inSet ms s.chipno core = true →
        s.doneColls.contains { launch := (s.team t0).launch, members := ms, core := core, ctl := BitVec.ofNat 32 c.ctl
                               seq := BitVec.ofNat 32 c.seq } = true →
        ∃ t, exec (.coll a) s = .next t ∧ s.passes t ∧ ∀ k x, t.jobs.find k = some (.coll x) → s.jobs.find k = some (.coll x))
      ∧ (recordOk banks c.bar 16 = true → (c.ok (rankCount ms) = false ∨ inSet ms s.chipno core = false) →
        (s.barAbsent t0 c.bar = none → s.barFstate t0 c.bar = 0 →
          ∃ t, exec (.coll a) s = .next t ∧ s.passes t ∧ num t (c.bar + 4) 4 / 2 ^ 24 = 6)
        ∧ ∀ w, s.barAbsent t0 c.bar = some w →
          ∃ t, exec (.coll a) s = .next t ∧ t.jobs.find w.next = some (.notice t0 c.bar 6 0 s.next)
            ∧ ∀ l ∈ s.cur.lanes, t.curLane l = (s.curLane l).advance))

/-- R160, R176, R196, R197, R391 and R392: LAUNCH and LAUNCHT of one fibre on one chip: with an entry of the die's queue
and a block that is accepted, the child stands with its generation number in GEN; a refused block has GEN 0 and traps
LAUNCH or gives LAUNCHT false; without an entry LAUNCHT gives false and LAUNCH waits; at depth 10 none is launched; a fibre
whose watch entry is unchecked and a block out of place trap (R272, R391, R392); before all else the braid waits as FENCE
system does (R243).
R370: CWAIT parks its fibres until the team's children that stand have retired. R424: TBAR parks every fibre of the braid,
and when all of the team wait a checkpoint is taken and all go on.
Rests on the model's own reading or choice in log entries 11, 12, 16, 23, 31, 32, 43, 70 and 86. -/
def Obligations.LaunchAndTeamWords : Prop :=
  ∀ (s : State) (a : RegF) (q : PredF) (l : Nat),
    let t0 := s.cur.team
    let T := s.team t0
    let die := dieOf T.core
    let depth := ((s.launchOf t0).map Launch.depth).getD 0
    let addr := s.recAt a l
    let bytes := s.record addr 128
    let gen (t : State) : Nat := (t.team t0).body.stash.num (addr + 0x3C) 4
    let tells (v : Bool) (t : State) : Prop := (∀ m ∈ s.cur.lanes, t.curLane m =
        (if m ∈ s.effective then (s.curLane m).setQ q v (s.recTag a 128 m) else s.curLane m).advance)
      ∧ (t.team t0).shadow.isSome = true
    let goes (t : State) : Prop := (∀ m ∈ s.cur.lanes, t.curLane m = (s.curLane m).advance) ∧ (t.team t0).shadow.isSome = true
    let quiet : Prop := ∀ m ∈ s.effective, s.curCrew.watched m = false
    (∀ i ∈ [Instr.launch a, .launcht a q], s.ready [src a 1 false] [] = true →
      (¬quiet → exec i s = .next (s.trap s.effective 0x19 0))
      ∧ (quiet → (∃ m ∈ s.effective, recordOk (s.stashBanks t0) (s.recAt a m) 128 = false) →
        (depth ≠ 10 ∨ i = .launcht a q ∨ ∀ m ∈ s.effective, recordOk (s.stashBanks t0) (s.recAt a m) 128 = false) →
        exec i s = .next (s.trap s.effective 0x30 0)))
    ∧ (s.hasRecord a 128 s.effective = true → quiet →
      (depth = 10 → exec (.launch a) s = .next (s.trap s.effective 0x38 0)
        ∧ ∃ t, exec (.launcht a q) s = .next t ∧ tells false t ∧ s.sameMemory t)
      ∧ (depth ≠ 10 → (∀ m ∈ s.effective, (s.curLane m).did = none) →
        s.fenceOpen t0 s.cur.crew .all s.cur.lanes = false → ∀ i ∈ [Instr.launch a, .launcht a q],
        exec i s = .next (s.park fun _ => .fence .all s.cur.lanes))
      ∧ (depth ≠ 10 → s.fenceOpen t0 s.cur.crew .all s.cur.lanes = true → (∀ m ∈ s.effective, (s.curLane m).did = none) →
        (∀ w ∈ s.waiters, w.team ≠ t0) →
        (s.claimable die (depth + 1) = none → (∃ t, exec (.launcht a q) s = .next t ∧ tells false t ∧ s.sameMemory t)
          ∧ (s.effective = [l] → exec (.launch a) s = .next ({ s with waiters := s.waiters
              ++ [({ die := die, team := t0, crew := s.cur.crew, lanes := [l], depth := depth + 1, given := none } : Waiter)] }.park
            fun m => if m = l then .launchQueue else .regs [])))
        ∧ ∀ e, s.effective = [l] → s.claimable die (depth + 1) = some e →
          (∀ s1 x, s.examine (s.teamCtx t0) (some t0) bytes = .ok s1 x → x.chips = [s.chipno] →
            let accepted (t : State) : Prop := ∃ child : Launch, t.launches.find s1.next = some child
              ∧ child.block = x.block ∧ child.ctx = s.teamCtx t0 ∧ child.depth = depth + 1 ∧ child.phase = .running
              ∧ child.source = .team t0 die e l ∧ child.pending = List.range x.block.teams
              ∧ child.gen = (s1.ctx (s.teamCtx t0)).nextGen ∧ gen t = child.gen.toNat
              ∧ (t.team t0).children = (s1.team t0).children + 1 ∧ ({ die := die, entry := e, launch := s1.next } : Claim) ∈ t.claims
            (∃ t, exec (.launch a) s = .next t ∧ goes t ∧ accepted t) ∧ ∃ t, exec (.launcht a q) s = .next t ∧ tells true t ∧ accepted t)
          ∧ ∀ st, s.examine (s.teamCtx t0) (some t0) bytes = .refused st →
            (∃ t, exec (.launcht a q) s = .next t ∧ tells false t ∧ gen t = 0)
            ∧ ∃ t, exec (.launch a) s = .next t ∧ gen t = 0 ∧ (T.body.trapvec ≠ 0 → s.curCrew.frames.length < 4 →
              ∃ fr, t.curCrew.frames = fr :: s.curCrew.frames ∧ fr.cause = 0x39)))
    ∧ (s.effective ≠ [] → ∃ t, exec .cwait s = .next t ∧ s.sameMemory t ∧ s.othersPass t ∧ ∀ m ∈ s.effective,
      t.curLane m = ((if s.childrenDone t0 s.next then s.curLane m
        else { s.curLane m with state := .parked (.children s.next) }).unread fun _ => true).advance)
    ∧ ((∀ m ∈ s.cur.lanes, s.curCrew.watched m = false) →
      let arrived := (s.discardAhead s.cur.lanes).mapLanes s.cur.lanes fun _ L => { L with state := .parked .team, hints := {} }
      let alive (c m : Nat) (L : Lane) : Prop := ∃ C, (c, C) ∈ (arrived.team t0).body.crews ∧ (m, L) ∈ C.lanes ∧ L.live = true
      (s.effective = [] ∨ s.fenceOpen t0 s.cur.crew .core s.cur.lanes = true →
        ((∃ c m L, alive c m L ∧ L.atBarrier = false) → exec .tbar s = .next arrived)
        ∧ ((∃ c m L, alive c m L) → (∀ c m L, alive c m L → L.atBarrier = true) →
          ∃ t, exec .tbar s = .next t ∧ s.sameMemory t ∧ (t.team t0).shadow.isSome = true
            ∧ ∀ c m, m < 32 → (arrived.lane t0 c m).live = true →
              let with' (k : Nat) : Prop := k < 32 ∧ (arrived.lane t0 c k).live = true
                ∧ (arrived.lane t0 c k).pc = (arrived.lane t0 c m).pc
              ∃ w p, t.lane t0 c m =
                  { (arrived.lane t0 c m).advance with state := .ready, age := (s.core T.core).cycle + 1, waits := w, passes := p }
                ∧ (∀ k, with' k → (arrived.lane t0 c k).waits ≤ w ∧ (arrived.lane t0 c k).passes ≤ p)
                ∧ (∃ k, with' k ∧ (arrived.lane t0 c k).waits = w) ∧ ∃ k, with' k ∧ (arrived.lane t0 c k).passes = p))
      ∧ (s.effective ≠ [] → s.fenceOpen t0 s.cur.crew .core s.cur.lanes = false →
        exec .tbar s = .next (s.park fun _ => .fence .core s.cur.lanes)))
    ∧ ((∃ m ∈ s.cur.lanes, s.curCrew.watched m = true) → s.effective ≠ [] → exec .tbar s = .next (s.trap s.effective 0x19 0))


/-! ## Replies -/

/-- R92, R223, R226, R227, R372, R378, R384 and R394: a value that arrives, from its home or held at the
core, fills its fibre's registers with its tag and raises its flags, or is the next element of its stream (R282); a load
installs the copy that was leased, and an LDACQ has its core give up one that it holds; an acknowledgement settles a write of
its crew and folds its times; a copy that the core holds, or that is on its way to it, takes the bytes that the home
performed where it holds older ones, and keeps its lease; FTIME is the time at the event. Memory stays.
Rests on the model's own reading or choice in log entries 9, 60, 61, 62, 63 and 88. -/
def Obligations.ValueReplies : Prop :=
  ∀ (s : State) (k t c : Nat),
    let gone (u : State) : Prop := u.msgs.find k = none ∧ s.sameMemory u
    let filledBy (u : State) (ls : List Nat) (l : Nat) (dest : List (Option Nat)) (v : BitVec 128) (tag : Bool) (fl : BitVec 8) :
        Prop := (ls.filter (· == l)).length = 1 → filled (s.lane t c l) (u.lane t c l) dest v tag fl
    let other (u : State) (ls : List Nat) : Prop := ∀ l, l ∉ ls → (u.lane t c l).regs = (s.lane t c l).regs
      ∧ (u.lane t c l).fstat = (s.lane t c l).fstat ∧ (u.lane t c l).pc = (s.lane t c l).pc
    let there : Prop := ((s.team t).body.crews.find c).isSome = true ∧ (s.crew t c).named = []
    let crew (u : State) : Crew := u.crew t c
    let takes (x : Option Copy) (perf : Nat) (ps : List (Nat × List Byte × List Bool)) : Option Copy :=
      x.map fun x => ps.foldl (Copy.takes perf) x
    let piece (off : Nat) (data : List Byte) (tag : Bool) : Nat × List Byte × List Bool := (off, data, data.map fun _ => tag)
    let copyOf (u : State) (core line : Nat) : Option Copy := (u.core core).copies.find line
    (there → ∀ o line obj kind parts data copy times perf,
      s.msgs.find k = some (.readReply o line obj kind parts data copy times perf) → o.team = t → o.crew = c →
      s.firstAtCore (.readReply o line obj kind parts data copy times perf) = true →
      (∀ p ∈ parts, data.poisonOf p.off p.size = false) →
      ∃ u, exec (.loadReply k) s = .next u ∧ gone u ∧ other u (parts.map Part.lane)
        ∧ (∀ p ∈ parts, p.stream = none → filledBy u (parts.map Part.lane) p.lane p.dest
          (extendTo p.size p.signed (data.num p.off p.size)) (data.tagOf p.off p.size || p.tag) 0)
        ∧ (∀ p ∈ parts, ∀ n x, p.stream = some n → (parts.filter fun q => q.lane == p.lane).length = 1 →
          (s.lane t c p.lane).streams.find n = some x → (u.lane t c p.lane).regs = (s.lane t c p.lane).regs
            ∧ (u.lane t c p.lane).streams.find n = some { x with
                got := some ((extendTo p.size p.signed (data.num p.off p.size)).setWidth 64, data.tagOf p.off p.size) })
        ∧ (∀ x, copy = some x → copyOf u o.core line = some { x with perf := perf })
        ∧ (copy = none → kind ≠ .acquire → u.cores = s.cores)
        ∧ (kind = .acquire → (copy = none → copyOf u o.core line = none)
          ∧ (crew u).gdie = max (crew s).gdie times.1 ∧ (crew u).gall = max (crew s).gall times.2)
        ∧ (kind ≠ .acquire → (crew u).gdie = (crew s).gdie ∧ (crew u).gall = (crew s).gall))
    ∧ (there → ∀ o l dest val tag atom, s.msgs.find k = some (.held o l dest val tag atom) → o.team = t → o.crew = c →
      ∃ u, exec (if atom then .atomicReply k else .loadReply k) s = .next u ∧ gone u ∧ other u [l] ∧ u.cores = s.cores
        ∧ filledBy u [l] l dest val tag 0 ∧ (crew u).unacked = (crew s).unacked)
    ∧ (there → ∀ o line wider vals left times perf,
      s.msgs.find k = some (.atomicReply o line wider vals left times false perf) →
      o.team = t → o.crew = c → s.firstAtCore (.atomicReply o line wider vals left times false perf) = true →
      ∃ u, exec (.atomicReply k) s = .next u ∧ gone u ∧ other u (vals.map Prod.fst)
        ∧ (∀ x ∈ vals, filledBy u (vals.map Prod.fst) x.1 x.2.1 (x.2.2.1.setWidth 128) x.2.2.2 0)
        ∧ copyOf u o.core line = takes (copyOf s o.core line) perf (left.map fun x => piece x.1 x.2.1 x.2.2)
        ∧ (crew u).unacked = (crew s).unacked - 1
        ∧ (crew u).gdie = max (crew s).gdie times.1 ∧ (crew u).gall = max (crew s).gall times.2)
    ∧ (there → ∀ vals dz, s.msgs.find k = some (.division t c vals dz) →
      ∃ u, exec (.divisionComplete k) s = .next u ∧ gone u ∧ other u (vals.map Prod.fst)
        ∧ ∀ x ∈ vals, filledBy u (vals.map Prod.fst) x.1 x.2.1 (x.2.2.1.setWidth 128) x.2.2.2 (if x.1 ∈ dz then flDZ else 0))
    ∧ (there → ∀ vals flags, s.msgs.find k = some (.special t c vals flags) →
      ∃ u, exec (.sfuComplete k) s = .next u ∧ gone u ∧ other u (vals.map Prod.fst)
        ∧ ∀ x ∈ vals, filledBy u (vals.map Prod.fst) x.1 x.2.1 (x.2.2.1.setWidth 128) x.2.2.2
            (((flags.find? fun f => f.1 == x.1).map Prod.snd).getD 0))
    ∧ (there → ∀ lanes, s.msgs.find k = some (.ftime t c lanes) → s.firstFtime k t c (lanes.map Prod.fst) = true →
      ∃ u, exec (.ftimeReadComplete k) s = .next u ∧ gone u ∧ other u (lanes.map Prod.fst)
        ∧ ∀ x ∈ lanes, filledBy u (lanes.map Prod.fst) x.1 x.2.1 (BitVec.ofNat 128 (s.ftime % 2 ^ 64)) x.2.2 0)
    ∧ (∀ core lanes uid addr data tag near all stamp perf,
      s.msgs.find k = some (.ack (.crew t c core lanes uid) addr data tag near all false stamp perf) →
      s.firstAtCore (.ack (.crew t c core lanes uid) addr data tag near all false stamp perf) = true →
      exec (.writeAcknowledge k) s = .next (((s.taken k).updCrew t c fun C =>
          { C with unacked := C.unacked - 1, gdie := max C.gdie near, gall := max C.gall all }).copyTakes core (addr / 128)
            perf [piece (addr % 128) data tag]))
    ∧ (∀ w line data near all perf, s.msgs.find k = some (.backAck w line data near all false perf) →
      s.firstAtCore (.backAck w line data near all false perf) = true →
      ∃ u, exec (.writeAcknowledge k) s = .next u ∧ gone u
        ∧ copyOf u w.core line = takes (copyOf s w.core line) perf
          [(0, data.bytes 0 128, (List.range 128).map fun i => data.tag (i / 32))]
        ∧ (∀ x, w = .window t c x → (crew u).unacked = (crew s).unacked - 1
          ∧ (crew u).gdie = max (crew s).gdie near ∧ (crew u).gall = max (crew s).gall all)
        ∧ (∀ x, w = .drain t x → (u.team t).gall = max (s.team t).gall all))
    ∧ (∀ core line off data tags perf, s.msgs.find k = some (.engineAck core line off data tags perf) →
      s.firstAtCore (.engineAck core line off data tags perf) = true →
      exec (.writeAcknowledge k) s
        = .next ((s.taken k).copyTakes core line perf [(off, data, tags)]))
    ∧ (∀ core line perf ps, let u := s.copyTakes core line perf ps
      u = { s with cores := u.cores, msgs := u.msgs } ∧ copyOf u core line = takes (copyOf s core line) perf ps
        ∧ (∀ l, l ≠ line → copyOf u core l = copyOf s core l) ∧ (∀ x, x ≠ core → u.core x = s.core x)
        ∧ ∀ j m, s.msgs.find j = some m → u.msgs.find j = some (match m with
          | .readReply o l obj kind parts data (some c) times p =>
            if o.core = core ∧ l = line then .readReply o l obj kind parts data (takes (some { c with perf := p }) perf ps) times p
            else m
          | m => m))
    ∧ ∀ (c : Copy) (perf off : Nat) (bs : List Byte) (tags : List Bool), let d := c.takes perf (off, bs, tags)
      d = { c with data := d.data, took := d.took }
        ∧ ∀ i, d.data.byte i = (if off ≤ i ∧ i < off + bs.length ∧ c.perf < perf
            ∧ (∀ t ∈ c.took, ¬(t.1 ≤ i ∧ i < t.1 + t.2.1 ∧ perf < t.2.2)) then bs.getD (i - off) 0 else c.data.byte i)

/-! ## The homes -/

/-- R107, R226, R236, R248, R255 and R268: at its home a read takes the line as it stands, with a lease for the core unless
it is an acquire, or the host holds, or waits to hold, a half that it reads (R260), or the line is IMM and no launch of the context
is left (R431); a write and a line written home put their bytes and tags into memory, raise the line's version and are
acknowledged with their times g_near and g_all (R226), and so are a line's atomics; a line's atomics are done in lane order and answer the old values and what they left; one
that reads poisoned data writes nothing (R322); host writes are settled data (R108). An owner's dirty line comes home first
(R220).
Rests on the model's own reading or choice in log entries 20, 60, 61, 62, 65, 66, 88, 89 and 98. -/
def Obligations.HomePerforms : Prop :=
  ∀ (s : State) (k : Nat), s.outside.errs = [] →
    let e := MemErr.none
    let far (line : Nat) : Nat := max (max s.ftime (s.dirOf line).hnear) (s.dirOf line).hfar + 40
    let near (line core : Nat) : Nat :=
      if s.own (128 * line) = true ∧ dieOf core = homeDie (localOf (128 * line)) then max s.ftime (s.dirOf line).hnear + 8 else far line
    let home (addr : Nat) : Nat := s.forwarded addr
    let version (u : State) (line : Nat) : BitVec 16 := (u.dirOf line).version
    (∀ o line obj kind parts, s.msgs.find k = some (.read o line obj kind parts) →
      let f := home (128 * line) / 128
      let r := partRange (parts.map fun p => (p.off, p.size))
      let ctx := s.teamCtx o.team
      let imm : Prop := (s.objEntry ctx obj).valid = true ∧ (s.objEntry ctx obj).imm = true
      s.firstAtHome k (.read o line obj kind parts) = true → s.lostHome (128 * f) = false →
      s.readBlocked (128 * line + r.1) r.2 = none →
      ∃ u copy times perf, exec (.homeRead k e) s = .next u ∧ u.mem = s.readMem f
        ∧ u.msgs.find k = some (.readReply o line obj kind parts (u.mem.slice (128 * f) 128) copy times perf)
        ∧ (kind = .acquire → copy = none)
        ∧ (∀ h ∈ halvesOf r.1 r.2, s.halfFree f h = false → copy = none)
        ∧ (imm → s.liveLaunches ctx = [] → copy = none)
        ∧ (kind ≠ .acquire → (imm → s.liveLaunches ctx ≠ []) → s.halfFree f 0 = true → s.halfFree f 1 = true → ∃ x, copy = some x
          ∧ x.data = u.mem.slice (128 * f) 128 ∧ x.half0 = true ∧ x.half1 = true ∧ x.granted = s.ftime
          ∧ x.version = version u f ∧ (u.dirOf f).state = .S ∧ (imm ↔ x.expiry = none)
          ∧ ∀ exp, x.expiry = some exp → exp = s.ftime + (s.ctx (s.teamCtx o.team)).lease
            ∧ exp ≤ max (u.dirOf f).hnear (u.dirOf f).hfar))
    ∧ (∀ w addr data tag, s.msgs.find k = some (.write w addr data tag) →
      let f := home addr
      s.firstAtHome k (.write w addr data tag) = true → s.lostHome f = false → s.writeBlocked addr data.length = none →
      ∃ u perf, exec (.writePerform (.flight k) e) s = .next u ∧ u.mem = (s.homeMem (f / 128)).store f data tag
        ∧ u.msgs.find k = some (.ack w addr data tag (near (f / 128) w.core) (far (f / 128)) false (version u (f / 128)) perf)
        ∧ (u.dirOf (f / 128)).owner = none
        ∧ (s.ownerData (f / 128) = [] → version u (f / 128) = version s (f / 128) + 1))
    ∧ (∀ w line data leave, s.msgs.find k = some (.back w line data leave) →
      let f := home (128 * line) / 128
      s.firstAtHome k (.back w line data leave) = true → s.lostHome (128 * f) = false → s.backBlocked line = none →
      ∃ u perf, exec (.writePerform (.flight k) e) s = .next u ∧ u.mem = s.mem.paste (128 * f) 128 data
        ∧ u.msgs.find k = some (.backAck w line data (near f w.core) (far f) false perf) ∧ version u f = version s f + 1
        ∧ (leave = true → (u.dirOf f).owner = none))
    ∧ (∀ addr data, data ≠ [] → addr / 128 = (addr + data.length - 1) / 128 → addressed addr = true →
      addressed (addr + data.length) = true → isHost addr = false →
      let f := home addr
      s.hostReturns f data.length = false → s.writeBlocked addr data.length = none →
      ∃ u, exec (.writePerform (.host addr data) e) s = .next u ∧ u.mem = (s.homeMem (f / 128)).store f data false
        ∧ (∀ j, j < s.next → u.msgs.find j = s.msgs.find j) ∧ u.hostGall = max s.hostGall (far (f / 128)))
    ∧ ∀ o line wider pdef parts, s.msgs.find k = some (.atomic o line wider pdef parts) →
      let f := home (128 * line) / 128
      let r := partRange (parts.map fun p => (p.off, p.size))
      s.firstAtHome k (.atomic o line wider pdef parts) = true → s.lostHome (128 * f) = false →
      s.writeBlocked (128 * line + r.1) r.2 = none →
      (∀ p, parts = [p] → (s.homeMem f).poisonOf (128 * f + p.off) p.size = true →
        ∃ u vals left times perf, exec (.atomicPerform k e) s = .next u ∧ u.mem = s.homeMem f
          ∧ u.msgs.find k = some (.atomicReply o line wider vals left times true perf)) ∧
      ((∀ p ∈ parts, (s.homeMem f).poisonOf (128 * f + p.off) p.size = false) → (∀ p ∈ parts, p.off + p.size ≤ 128) →
      let sorted := parts.mergeSort fun a b => a.lane ≤ b.lane
      let run := sorted.foldl (fun (m : Mem × Bool × List (Nat × List (Option Nat) × DWord × Bool) × List (Nat × List Byte × Bool)) p =>
        let a := 128 * f + p.off
        let old := m.1.num a p.size
        let new := atomOp p.op p.xchg p.size old p.cmp.toNat p.v.toNat
        let m' := match new with
          | some n => m.1.store a (leBytes p.size n) (p.vtag || p.tag || p.ctag || pdef)
          | none => m.1
        (m', m.2.1 || new.isSome, m.2.2.1 ++ [(p.lane, p.dest, BitVec.ofNat 64 old, m.1.tagOf a p.size || p.tag)],
          m.2.2.2 ++ [(p.off, m'.bytes a p.size, m'.tagOf a p.size)])) (s.homeMem f, false, [], [])
      ∃ u perf, exec (.atomicPerform k e) s = .next u ∧ u.mem = run.1
        ∧ u.msgs.find k = some (.atomicReply o line wider run.2.2.1 run.2.2.2
          (if wider || run.2.1 then (near f o.core, far f) else (0, 0)) false perf)
        ∧ (u.dirOf f).owner = none)

/-- R318, R328, R335, R336 and R339: a read that brings a deep-tier line from its DRAM die corrects a wrong bit of an array
word and poisons the sector of a word with two, unless it is poisoned already; a transfer that fails once is sent again; a
lane that fails every time is swapped for a spare of its group, and without one, or when no lane of the group is named, or
when the fifth transfer fails too, the sectors of the groups that failed last are poisoned, all four for the metadata group;
each is counted in its bank and recorded there when none is held. A poisoned sector has tag 1 (R321), and no byte
changes.
Rests on the model's own reading or choice in log entry 88. -/
def Obligations.ArrayErrors : Prop :=
  ∀ (s : State) (k : Nat) (o : Origin) (line obj : Nat) (kind : LoadKind) (parts : List Part),
    s.msgs.find k = some (.read o line obj kind parts) → s.outside.errs = [] →
    let f := s.forwarded (128 * line) / 128
    let r := partRange (parts.map fun p => (p.off, p.size))
    s.firstAtHome k (.read o line obj kind parts) = true → s.lostHome (128 * f) = false →
    s.readBlocked (128 * line + r.1) r.2 = none → (s.dirOf f).state ≠ .O → (s.dirOf f).state ≠ .M →
    s.own (128 * f) = true → isDeep (localOf (128 * f)) = true → s.llc.find f = none →
    let die := 8 * homeDie (localOf (128 * f)) + f % 8
    let answers (e : MemErr) (more : State → Prop) : Prop := ∃ u, exec (.homeRead k e) s = .next u ∧ more u
    let spoils (secs : List Nat) (u : State) : Prop := (∀ a, u.mem.byte a = s.mem.byte a) ∧ ∀ c,
      (u.mem.poisoned c = true ↔ c ∈ secs ∨ s.mem.poisoned c = true) ∧ (u.mem.tag c = true ↔ c ∈ secs ∨ s.mem.tag c = true)
    let record (n cls code addr info : Nat) (u : State) : Prop := (s.bank n).status.getLsbD 63 = false →
      (cls = 0 → (s.bank n).ctl.getLsbD 0 = true) →
      (u.bank n).status = BitVec.ofNat 64 (2 ^ 63 + cls * 2 ^ 60 + 2 ^ 59 + (if code = 0x302 then 0 else 2 ^ 58) + die * 2 ^ 32 + code)
        ∧ (u.bank n).addr = BitVec.ofNat 64 (addr % 2 ^ 57) ∧ (u.bank n).info = BitVec.ofNat 64 info
    let corrected (n : Nat) (u : State) : Prop := u.mem = s.mem ∧ (u.bank n).ccount = min ((s.bank n).ccount + 1) (2 ^ 32 - 1)
    let contained (n : Nat) (u : State) : Prop := (u.bank n).kcount = min ((s.bank n).kcount + 1) (2 ^ 16 - 1)
    let bus := 40 + die / 4
    (∀ w b, w < 8 → b < 144 → answers { bits := [(w, [b])] } fun u =>
      corrected (24 + die) u ∧ record (24 + die) 0 0x301 (128 * f + 16 * w) b u)
    ∧ (∀ w b c, w < 8 → b < 144 → c < 144 → b ≠ c → answers { bits := [(w, [b, c])] } fun u =>
      if s.mem.poisoned (4 * f + w / 2) then u.mem = s.mem ∧ u.banks = s.banks
      else spoils [4 * f + w / 2] u ∧ contained (24 + die) u ∧ record (24 + die) 1 0x302 (128 * f + 16 * w) 0 u)
    ∧ (∀ g, g ≤ 64 → answers { tries := [[g], []] } fun u =>
      corrected bus u ∧ record bus 0 0x401 (128 * f) (2 * 2 ^ 16) u)
    ∧ (∀ l, l < 1032 →
      let g := if l < 1024 then l / 16 else 64
      let used := (s.spares.find (17 * die + l / 64)).getD 0
      let e : MemErr := { tries := List.replicate 4 [g], lane := some l }
      let of (gs : List Nat) : List Nat := if gs.contains 64 then List.range' (4 * f) 4 else gs.map fun g => 4 * f + g / 16
      let secs := of [g]
      (used < 2 → answers e fun u => corrected bus u ∧ u.spares.find (17 * die + l / 64) = some (used + 1)
        ∧ record bus 0 0x402 (128 * f) (l + (used + 1) * 2 ^ 12 + 5 * 2 ^ 16 + 2 ^ 19) u)
      ∧ (2 ≤ used → answers e fun u => spoils secs u ∧ contained bus u ∧ u.spares = s.spares
        ∧ record bus 1 0x403 (128 * f) (l + 4 * 2 ^ 16) u)
      ∧ (∀ gs : List Nat, gs ≠ [] → (∀ x ∈ gs, x ≤ 64) → used < 2 →
        answers { tries := List.replicate 4 [g] ++ [gs], lane := some l } fun u => spoils (of gs) u ∧ contained bus u
          ∧ u.spares.find (17 * die + l / 64) = some (used + 1)
          ∧ record bus 1 0x403 (128 * f) (l + (used + 1) * 2 ^ 12 + 5 * 2 ^ 16 + 2 ^ 19) u)
      ∧ ∀ x, x ≤ 64 → x ≠ g → answers { tries := List.replicate 4 [x], lane := some l } fun u => spoils (of [x]) u
          ∧ contained bus u ∧ u.spares = s.spares ∧ record bus 1 0x403 (128 * f) (4 * 2 ^ 16) u)

/-- R220, R225, R255 to R257: an entry forgets its sharers once their horizons have passed; an evicted entry leaves its
horizons in its slice's floors and its version unknown; a recall that an access waits for brings the owner's data home
as a write that its team's retirement waits for (R175), and a write's takes the line from every window line that holds it; one
from another device's owner goes there over the link first; a line recalled from an evicted team is not restored as present
(R221); a dirty notice of the owner is noted.
Rests on the model's own reading or choice in log entries 20, 66 and 88. -/
def Obligations.DirectoryEvents : Prop :=
  ∀ (s : State) (line : Nat),
    let d := s.dirOf line
    let floors (u : State) : Nat × Nat := (u.floors.find (sliceKey (128 * line))).getD (0, 0)
    (s.dir.find line = some d →
      ∃ u, exec (.leaseExpiry line) s = .next u ∧ u.mem = s.mem ∧ (u.dirOf line).owner = d.owner
        ∧ (u.dirOf line).version = d.version ∧ (u.dirOf line).hnear = d.hnear ∧ (u.dirOf line).hfar = d.hfar
        ∧ (∀ x, x ≠ line → u.dir.find x = s.dir.find x)
        ∧ (d.hnear ≤ s.ftime → d.hfar ≤ s.ftime → (u.dirOf line).shared = false
          ∧ (u.dirOf line).state = (match d.state with
            | .S => if d.owner.isSome then .E else .I
            | .O => .M
            | x => x))
        ∧ (s.ftime < d.hnear → s.ftime < d.hfar → d.shared = true → u.dirOf line = d))
    ∧ (s.dir.find line = some d → d.state ≠ .migrating → s.migratingLine line = false → d.host0 = .HI → d.host1 = .HI →
      s.backDue line = false → s.lostHome (128 * line) = false →
      (s.ownedAway line true = true → exec (.directoryEvict line MemErr.none) s = .next (s.sendRecall line true))
      ∧ (s.outside.errs = [] → s.ownedAway line true = false →
      ∃ u, exec (.directoryEvict line MemErr.none) s = .next u ∧ u.mem = s.homeMem line ∧ u.dir.find line = none
        ∧ u.epochs.find line ≠ none ∧ s.epochOf line < u.epochOf line ∧ u.llc.find line = none
        ∧ (s.ftime < d.hnear → d.hnear ≤ (floors u).1) ∧ (s.ftime < d.hfar → d.hfar ≤ (floors u).2)
        ∧ (floors s).1 ≤ (floors u).1 ∧ (floors s).2 ≤ (floors u).2))
    ∧ (∀ forWrite, s.wanted line forWrite = true → s.migratingLine line = false → s.backDue line = false →
      s.lostHome (128 * line) = false →
      (s.ownedAway line forWrite = true → exec (.recall line forWrite) s = .next (s.sendRecall line forWrite))
      ∧ (s.ownedAway line forWrite = false → ∃ u, exec (.recall line forWrite) s = .next u
        ∧ u.mem = (if forWrite then s.homeMem line else s.readMem line)
        ∧ (forWrite = true → (u.dirOf line).owner = none
          ∧ (u.dirOf line).state = (if d.state = .S ∨ d.state = .O then .S else .I))
        ∧ (forWrite = false → (u.dirOf line).owner = d.owner ∧ (u.dirOf line).state = (match d.state with
          | .O => .S
          | .M => .E
          | x => x))
        ∧ ∀ x ∈ s.ownerLines line,
          (forWrite = true → (u.team x.1).body.absent.contains x.2 = true ∧ (u.team x.1).body.dirty.contains x.2 = false)
          ∧ (forWrite = true ∨ d.state = .O ∨ d.state = .M →
            ((s.team x.1).body.dirty.contains x.2 = true → (s.gwct line).2 ≤ (u.team x.1).gall)
              ∧ ((s.team x.1).state = .evicted → (u.team x.1).recalledAway.contains x.2 = true))
          ∧ (forWrite = false → d.state = .O ∨ d.state = .M → (u.team x.1).body.dirty.contains x.2 = false
            ∧ (u.team x.1).body.absent = (s.team x.1).body.absent)))
    ∧ (∀ forWrite o, d.owner = some o → o.dev ≠ s.chipno → s.recalls.contains (line, forWrite) = false →
      s.sendRecall line forWrite = { s with
        recalls := s.recalls ++ [(line, forWrite)], linkOut := s.linkOut ++ [(o.dev, .recall s.chipno line forWrite)] })
    ∧ ∀ k dev core slot, s.msgs.find k = some (.dirty line dev core slot) →
      s.firstAtHome k (.dirty line dev core slot) = true →
      ∃ u, exec (.dirtyNotice k) s = .next u ∧ u.mem = s.mem ∧ u.msgs.find k = none
        ∧ (d.owner = some { dev := dev, core := core, slot := slot } → (u.dirOf line).state = (match d.state with
          | .S => .O
          | .E => .M
          | x => x))
        ∧ (d.owner ≠ some { dev := dev, core := core, slot := slot } → u.dirOf line = d)

/-- R191, R217, R219, R235 to R237 and R244: the home confirms a watch entry only at the version it knows; an entry is
settled by its own reply, or struck then or later when it is 4 µs old; a stash fill makes its line present and clean with the window's tag,
its team the owner; an instruction line gives its words to the cores that run its code.
Rests on the model's own reading or choice in log entries 26, 64, 82 and 88. -/
def Obligations.WatchAndFills : Prop :=
  ∀ (s : State) (k : Nat), s.outside.errs = [] →
    let e := MemErr.none
    (∀ t c slot id line stamp epoch, s.msgs.find k = some (.check t c slot id line stamp epoch) → s.migratingLine line = false →
      ∃ ok, exec (.ldspCheck k) s = .next { s with msgs := s.msgs.put k (.checkReply t c slot id ok) }
        ∧ (ok = true ↔ s.forwarded (128 * line) / 128 = line ∧ s.dir.find line ≠ none ∧ (s.dirOf line).version = stamp
          ∧ s.epochOf line = epoch ∧ s.lostHome (128 * line) = false))
    ∧ (∀ t c slot id ok x, s.msgs.find k = some (.checkReply t c slot id ok) → (s.crew t c).watch.find slot = some x →
      ∃ u, exec (.checkReply k) s = .next u ∧ u.msgs.find k = none ∧ u.mem = s.mem
        ∧ (u.crew t c).watch.find slot = some (if x.id = id ∧ x.state = .pending then
            { x with state := if ok ∧ s.ftime < x.created + 4000 then .confirmed else .struck } else x)
        ∧ ∀ m, m ≠ slot → (u.crew t c).watch.find m = (s.crew t c).watch.find m)
    ∧ (∀ t c, ∃ u, exec (.watchAgeStrike t c) s = .next u ∧ u.mem = s.mem ∧ u.msgs = s.msgs
        ∧ ∀ m, (u.crew t c).watch.find m = ((s.crew t c).watch.find m).map fun x =>
          if x.state = .pending ∧ x.created + 4000 ≤ s.ftime then { x with state := .struck } else x)
    ∧ (∀ t n addr w, s.msgs.find k = some (.stashFill t n addr) → (s.team t).body.windowOf n = some w →
      let T := s.team t
      let f := s.forwarded addr / 128
      (T.resident = true → T.body.absent.contains n = true → s.windowAddr t w n = some (128 * f) →
        s.firstAtHome k (.stashFill t n addr) = true → s.lostHome (128 * f) = false → s.writeBlocked (128 * f) 128 = none →
        (∀ x ∈ s.ownerLines f, x.1 ≠ t) →
        ∃ u, exec (.stashFill k e) s = .next u ∧ (k < s.next → u.msgs.find k = none) ∧ u.mem = s.homeMem f
          ∧ (u.team t).body.absent.contains n = false ∧ (u.team t).body.dirty.contains n = false
          ∧ (u.team t).body.stash = T.body.stash.paste (128 * n) 128 (let m := u.mem.slice (128 * f) 128
              if w.tag then { m with tags := [0, 1, 2, 3] } else m)
          ∧ (u.dirOf f).owner = some { dev := s.chipno, core := T.core, slot := T.slot }
          ∧ (u.dirOf f).state = (if (s.dirOf f).state = .S ∨ (s.dirOf f).state = .O then .S else .E))
      ∧ (T.resident = false ∨ T.body.absent.contains n = false ∨ s.windowAddr t w n ≠ some (128 * f) →
        exec (.stashFill k e) s = .next { s with msgs := s.msgs.del k }))
    ∧ ∀ die ctx obj off addr skip, s.msgs.find k = some (.fill die ctx obj off addr skip) →
      let f := s.forwarded addr / 128
      s.lostHome (128 * f) = false → s.readBlocked (128 * f) 128 = none →
      ∃ u, exec (.icacheFill k MemErr.none) s = .next u ∧ (k < s.next → u.msgs.find k = none) ∧ u.mem = s.readMem f
        ∧ ∀ t T, (t, T) ∈ s.teams → s.teams.find t = some T → T.resident = true → dieOf T.core = die → T.core ∉ skip →
          s.teamCtx t = ctx → capObj (s.codeOf t) = obj →
          ∀ i, i < 32 → (u.mem.slice (128 * f) 128).poisoned (i / 8) = false →
            (∀ x ∈ (s.core T.core).icache, ¬(x.ctx = ctx ∧ x.obj = obj ∧ x.off = off + 4 * i)) →
            ({ ctx := ctx, obj := obj, off := off + 4 * i
               word := BitVec.ofNat 32 ((u.mem.slice (128 * f) 128).num (4 * i) 4) } : IWord) ∈ (u.core T.core).icache

/-- R258 to R261: a host request of a free half brings the owner's data home and gives the half with its data, an exclusive
one once the line's horizons have passed, until when reads and writes of the half wait; one for a line that page motion moves waits,
and goes to the line's new place once it forwards (R264, R265); a snoop of host memory takes the line from the device; a response to a snoop gives the half
up and performs modified data as a host write; a colliding request is served first.
Rests on the model's own reading or choice in log entry 65. -/
def Obligations.HostCoherence : Prop :=
  ∀ (s : State) (line half : Nat) (excl : Bool), s.outside.errs = [] →
    let due (line : Nat) : Nat := max (s.dirOf line).hnear (s.dirOf line).hfar
    let waits (u : State) (line h : Nat) : Prop := u.hostWaits = s.hostWaits ++ [(line, half, excl, h)]
    let fresh (line : Nat) : Prop := (∀ w ∈ s.hostWaits, ¬(w.1 = line ∧ w.2.1 = half ∧ w.2.2.1 = excl))
      ∧ s.backDue line = false ∧ s.ownedAway line excl = false
    let told (u : State) (line : Nat) : Prop := u.answers = s.answers ++ [(.host,
      .data (u.mem.bytes (128 * line + 64 * half) 64) (u.mem.poisonOf (128 * line + 64 * half) 64))]
    let f := s.forwarded (128 * line) / 128
    (isHost (128 * line) = true → half ≤ 1 → fresh line →
      ∃ u, exec (.hostSnoop line half excl) s = .next u ∧ u.mem = (if excl then s.homeMem line else s.mem)
        ∧ (excl = true → (u.dirOf line).owner = none) ∧ (s.ftime < due line → waits u line (due line))
        ∧ (due line ≤ s.ftime → u.hostWaits = s.hostWaits))
    ∧ (s.ownLine line half = true → s.snooping f half = false → s.migratingLine line = false → isHost (128 * f) = false →
      fresh f →
      ∃ u, exec (.hostHalfRequest line half excl) s = .next u
        ∧ (excl = true → u.mem = s.homeMem f
          ∧ (s.ftime < due f → waits u f (due f) ∧ (u.dirOf f).hostHalf half = (s.dirOf f).hostHalf half)
          ∧ (due f ≤ s.ftime → (u.dirOf f).hostHalf half = .HE ∧ u.hostWaits = s.hostWaits ∧ told u f))
        ∧ (excl = false → u.mem = s.readMem f ∧ (u.dirOf f).hostHalf half = .HS ∧ u.hostWaits = s.hostWaits ∧ told u f))
    ∧ (s.ownLine line half = true → s.snooping f half = false → s.migratingLine line = false → isHost (128 * f) = false →
      ∀ h, s.hostWaits.find? (fun w => w.1 == f && w.2.1 == half && w.2.2.1 == excl) = some (f, half, excl, h) →
        h ≤ s.ftime → ∃ u, exec (.hostHalfRequest line half excl) s = .next u ∧ u.mem = s.mem ∧ told u f
          ∧ (u.dirOf f).hostHalf half = (if excl then .HE else .HS)
          ∧ ∀ w ∈ u.hostWaits, ¬(w.1 = f ∧ w.2.1 = half ∧ w.2.2.1 = excl))
    ∧ (s.migratingLine line = true → exec (.hostHalfRequest line half excl) s = .next s
      ∧ exec (.biconflict line half excl) s = .next s)
    ∧ (∀ a n x, s.hostClaims (s.forwarded a / 128) (halvesOf (s.forwarded a % 128) n) = true → s.writeBlocked a n ≠ none ∧
      s.readBlocked a n ≠ none ∧ (s.writeBlocked a n = some x → x = s))
    ∧ (s.snooping line half = true → half ≤ 1 →
      (∃ u, exec (.bisnpResponse line half none) s = .next u ∧ u.mem = s.mem ∧ (u.dirOf line).hostHalf half = .HI
        ∧ u.snooping line half = false)
      ∧ (∀ data : List Byte, s.forwarded (128 * line + 64 * half) = 128 * line + 64 * half →
        ∃ u, exec (.bisnpResponse line half (some data)) s = .next u
          ∧ u.mem = (s.homeMem line).store (128 * line + 64 * half) (data.take 64) false
          ∧ (u.dirOf line).hostHalf half = .HI ∧ u.snooping line half = false)
      ∧ (fresh line → isHost (128 * line) = false → s.migratingLine line = false →
        ∃ u, exec (.biconflict line half excl) s = .next u
          ∧ (excl = false → u.mem = s.readMem line ∧ (u.dirOf line).hostHalf half = .HS
            ∧ told u line ∧ ∀ x ∈ u.snoops, ¬(x.1 = line ∧ x.2.1 = half ∧ x.2.2 = false))
          ∧ (excl = true → u.mem = s.homeMem line
            ∧ (due line ≤ s.ftime → (u.dirOf line).hostHalf half = .HE ∧ u.snoops = s.snoops)
            ∧ (s.ftime < due line → waits u line (due line)))))


/-! ## The watch table and the host's registers -/

/-- R4, R6, R184, R327, R342 and R348: Q_TAIL takes a tail inside the ring and notes what the host has made visible;
Q_CTL sets a queue's fields and enables it only over rings its capabilities reach, an enabled one staying so; the other
registers take the values their masters may write, the read-only ones nothing; a 1 written to VALID clears a bank's status, Jasper alone writes the access
tables, once its firmware runs (R22), and a denied write changes only the event log. A master that may read a block is told a register's value, a
write-only register and an offset that is not listed reading 0, and any other Unsupported Request.
Rests on the model's own reading or choice in log entries 68, 71 and 94. -/
def Obligations.HostRegisters : Prop :=
  ∀ (s : State) (m : Master) (ctx q n i : Nat) (v : DWord) (w : Word),
    let Q := (s.ctx ctx).queue q
    let queue (t : State) : Queue := (t.ctx ctx).queue q
    let denied (x : Instr) : Prop := exec x s = .next (s.logAdd 2 0 [])
    let told (u : State) (a : Answer) : State := { u with answers := u.answers ++ [(m, a)] }
    let reads (block : Nat) (r : ReadReg) (x : DWord) : Prop := s.perform (.registerRead m r)
      = if (s.rightsOf block (Master.code m)).getLsbD 2 then told s (.value x) else told (s.logAdd 2 0 []) .unsupported
    (s.mayWrite 0 .hostVf = false → denied (.qTail ctx q w) ∧ denied (.qCtl ctx q w))
    ∧ (s.mayWrite 0 m = false → denied (.registerWrite m (.qRing ctx q) v) ∧ denied (.registerWrite m (.qCpl ctx q) v)
      ∧ denied (.registerWrite m (.msix ctx n) v))
    ∧ (s.mayWrite 1 m = false → denied (.registerWrite m (.mbReq i) v) ∧ denied (.registerWrite m .mbGo v))
    ∧ (s.mayWrite 2 m = false → denied (.mcStatus m n v) ∧ denied (.registerWrite m (.mcCtl n) v)
      ∧ denied (.registerWrite m (.mcCount n) v))
    ∧ (s.mayWrite 5 m = false → denied (.registerWrite m (.access n i) v))
    ∧ (ctx < 64 → q < 16 → s.mayWrite 0 .hostVf = true →
      (∃ t, exec (.qTail ctx q w) s = .next t ∧ s.sameMemory t ∧ t.teams = s.teams
        ∧ queue t = (if w.toNat < 2 ^ Q.log2n then { Q with tail := w.toNat, posted := s.hostGall } else Q))
      ∧ (w.getLsbD 31 = false → ∃ t, exec (.qCtl ctx q w) s = .next t ∧ s.sameMemory t ∧ t.teams = s.teams
        ∧ queue t = { Q with irq := w.getLsbD 8, qprio := (w.extractLsb' 2 2).toNat, en := false
                             log2n := if Q.en then Q.log2n else (w.extractLsb' 4 4).toNat })
      ∧ (w.getLsbD 31 = true → Q.en = false → Q.held = [] →
        let size := (w.extractLsb' 4 4).toNat
        let covers (cap : DWord) (bytes : Nat) (need : BitVec 4) : Prop :=
          let e := s.objEntry ctx (capObj cap)
          capObj cap ≠ 0 ∧ e.valid = true ∧ need &&& ~~~(capRights cap &&& e.rights) = 0 ∧ capOff cap + bytes ≤ e.length
        ∃ t, exec (.qCtl ctx q w) s = .next t ∧ s.sameMemory t ∧ (queue t).log2n = size
          ∧ ((queue t).en = true ↔ 4 ≤ size ∧ covers Q.ring (256 * 2 ^ size) needR ∧ covers Q.cpl (16 * 2 ^ size) needW))
      ∧ (w.getLsbD 31 = true → Q.en = true → ∃ t, exec (.qCtl ctx q w) s = .next t ∧ s.sameMemory t ∧ t.teams = s.teams
        ∧ queue t = { Q with irq := w.getLsbD 8, qprio := (w.extractLsb' 2 2).toNat }))
    ∧ (∀ block r, (block, r) ∈ [(0, DevReg.qHead ctx q), (0, .ctxState ctx), (1, .mbStat), (2, .mcAddr n), (2, .mcInfo n)] →
      (s.mayWrite block m = true → exec (.registerWrite m r v) s = .next s)
      ∧ (s.mayWrite block m = false → denied (.registerWrite m r v)))
    ∧ (ctx < 64 → q < 16 → s.mayWrite 0 m = true →
      (∃ t, exec (.registerWrite m (.qRing ctx q) v) s = .next t ∧ s.sameMemory t
        ∧ queue t = (if Q.en then Q else { Q with ring := v }))
      ∧ (∃ t, exec (.registerWrite m (.qCpl ctx q) v) s = .next t ∧ s.sameMemory t
        ∧ queue t = (if Q.en then Q else { Q with cpl := v }))
      ∧ (n < 68 → ∃ t, exec (.registerWrite m (.msix ctx n) v) s = .next t ∧ s.sameMemory t
        ∧ (t.ctx ctx).msix.find n = some (v.setWidth 32)))
    ∧ (s.mayWrite 1 m = true → s.mailbox.busy = false →
      (i < 64 → (i < 2 ∨ 8 ≤ i) → ∃ t, exec (.registerWrite m (.mbReq i) v) s = .next t ∧ t.mailbox.busy = false
        ∧ ∀ j, j < 64 → t.mailbox.req.getD j 0 = (if j = i then v.setWidth 8 else s.mailbox.req.getD j 0))
      ∧ (v.setWidth 32 = (1 : Word) → exec (.registerWrite m .mbGo v) s
          = .next { s with mailbox := { s.mailbox with busy := true, asker := m } })
      ∧ (v.setWidth 32 ≠ (1 : Word) → exec (.registerWrite m .mbGo v) s = .next s))
    ∧ (s.mayWrite 1 m = true → s.mailbox.busy = true →
      exec (.registerWrite m .mbGo v) s = .next s ∧ exec (.registerWrite m (.mbReq i) v) s = .next s)
    ∧ (n < 55 → s.mayWrite 2 m = true →
      (∃ t, exec (.mcStatus m n v) s = .next t ∧ s.sameMemory t
        ∧ t.bank n = (if v.getLsbD 63 then { s.bank n with status := 0 } else s.bank n) ∧ ∀ k, k ≠ n → t.bank k = s.bank k)
      ∧ (∃ t, exec (.registerWrite m (.mcCtl n) v) s = .next t ∧ t.bank n = { s.bank n with ctl := v.setWidth 3 })
      ∧ ∃ t, exec (.registerWrite m (.mcCount n) v) s = .next t ∧ (t.bank n).ccount = v.toNat % 2 ^ 32
        ∧ (t.bank n).kcount = v.toNat / 2 ^ 32 % 2 ^ 16 ∧ (t.bank n).fcount = v.toNat / 2 ^ 48 % 2 ^ 8)
    ∧ (s.mayWrite 5 m = true → (m = .jasper → s.held = false → n < 6 → i < 7 →
        ∃ t, exec (.registerWrite m (.access n i) v) s = .next t ∧ t.rightsOf n i = v.setWidth 3
          ∧ ∀ b x, ¬(b = n ∧ x = i) → t.rightsOf b x = s.rightsOf b x)
      ∧ (m ≠ .jasper ∨ s.held = true ∨ 6 ≤ n ∨ 7 ≤ i → exec (.registerWrite m (.access n i) v) s = .next s))
    ∧ (∀ k, exec (.registerWrite m (.unlisted k) v) s = .next s
      ∧ s.perform (.registerRead m (.of (.unlisted k))) = told s (.value 0))
    ∧ reads 0 (.qTail ctx q) 0 ∧ reads 1 (.of .mbGo) 0
    ∧ (ctx < 64 → q < 16 → reads 0 (.of (.qRing ctx q)) Q.ring ∧ reads 0 (.of (.qCpl ctx q)) Q.cpl
      ∧ reads 0 (.of (.qHead ctx q)) (BitVec.ofNat 64 Q.head)
      ∧ ∃ x : DWord, reads 0 (.qCtl ctx q) x ∧ x.getLsbD 31 = Q.en ∧ x.getLsbD 8 = Q.irq
        ∧ x.extractLsb' 4 4 = BitVec.ofNat 4 Q.log2n ∧ x.extractLsb' 2 2 = BitVec.ofNat 2 Q.qprio
        ∧ x &&& ~~~0x800001FC = 0)
    ∧ (ctx < 64 → reads 0 (.of (.ctxState ctx)) (match (s.ctx ctx).state with
        | .free => 0
        | .active => 1
        | .faulted => 2
        | .resetting => 3)
      ∧ (n < 68 → reads 0 (.of (.msix ctx n)) ((((s.ctx ctx).msix.find n).getD 0).setWidth 64)))
    ∧ (i < 64 → reads 1 (.of (.mbReq i)) ((s.mailbox.req.getD i 0).setWidth 64))
    ∧ (∃ x : DWord, reads 1 (.of .mbStat) x ∧ x.getLsbD 31 = s.mailbox.busy
      ∧ x.extractLsb' 0 16 = BitVec.ofNat 16 s.mailbox.result ∧ x &&& ~~~0x8000FFFF = 0)
    ∧ (n < 55 → let B := s.bank n
      reads 2 (.mcStatus n) B.status ∧ reads 2 (.of (.mcAddr n)) B.addr ∧ reads 2 (.of (.mcInfo n)) B.info
        ∧ reads 2 (.of (.mcCtl n)) (B.ctl.setWidth 64) ∧ reads 2 (.of (.mcCount n)) B.count)
    ∧ (n < 51 → reads 3 (.sensor n) (BitVec.ofNat 64 ((s.sensors.find n).getD 0)))
    ∧ reads 5 (.of (.access n i)) ((s.rightsOf n i).setWidth 64)

/-- R185 to R187, R245 and R433: a command processor takes the record at a queue's head; a record runs once it is its
queue's oldest and what its post covers has passed. A NOP completes with OK or BADRECORD, a WAIT once every launch of its
queue has ended, a record of a context that is not Active with FAULTED (R300), a LAUNCH becomes a launch of its context or completes with the status that refuses it.
Rests on the model's own reading or choice in log entries 18, 67 and 71. -/
def Obligations.CommandRecords : Prop :=
  ∀ (s : State) (die k : Nat),
    let completes (i : Instr) (r : Record) (status : Nat) : Prop := exec i s
      = .next ({ s with records := s.records.del k }.writeCompletion r.ctx r.q r.slot r.cookie status 0)
    (s.fatal = false → s.held = false → die < 2 → ∀ ctx q,
      let Q := (s.ctx ctx).queue q
      let cap := capWith Q.ring (capOff Q.ring + 256 * Q.head)
      s.turn die = some (ctx, q) →
      (∀ u b, s.readRange ctx cap 256 needR = .ok u b → ∃ t, exec (.commandFetch die) s = .next t ∧ t.mem = u.mem
        ∧ t.records.find u.next = some { ctx := ctx, q := q, slot := Q.head, bytes := b.data, ready := Q.posted }
        ∧ t.served.find die = some ctx ∧ ((t.ctx ctx).queue q).head = (Q.head + 1) % 2 ^ Q.log2n)
      ∧ (∀ c, s.readRange ctx cap 256 needR = .fail c → ctx < 64 → q < 16 →
        ∃ t, exec (.commandFetch die) s = .next t ∧ t.records = s.records ∧ (t.ctx ctx).queue q = { Q with en := false }))
    ∧ ∀ r : Record, s.records.find k = some r → s.fatal = false → r.ready ≤ s.ftime →
      (∀ j x, (j, x) ∈ s.records → x.ctx = r.ctx → x.q = r.q → k ≤ j) →
      let good : Prop := 1 ≤ fieldOf r.bytes 0 1 ∧ fieldOf r.bytes 0 1 ≤ 4 ∧ zeroAt r.bytes 2 2 = true ∧ zeroAt r.bytes 8 120 = true
      let active : Prop := (s.ctx r.ctx).state = .active
      (¬active → (r.kind = 0 ∨ 2 < r.kind → completes (.commandNop k) r 6) ∧ (r.kind = 2 → completes (.commandWait k) r 6))
      ∧ (active → (r.kind = 0 → good → zeroAt r.bytes 128 128 = true → completes (.commandNop k) r 1)
        ∧ (r.kind = 0 → ¬(good ∧ zeroAt r.bytes 128 128 = true) → completes (.commandNop k) r 3)
        ∧ (2 < r.kind → completes (.commandNop k) r 3)
        ∧ (r.kind = 2 → ¬(good ∧ zeroAt r.bytes 128 128 = true) → completes (.commandWait k) r 3))
      ∧ (active → r.kind = 2 → good → zeroAt r.bytes 128 128 = true →
        let mine (x : Launch) : Prop := ∃ slot cookie, x.source = .host r.ctx r.q slot cookie ∧ x.ended = false
        ((∃ x ∈ s.launches, mine x.2) → exec (.commandWait k) s = .next s)
        ∧ ((∀ x ∈ s.launches, ¬mine x.2) → completes (.commandWait k) r 1))
      ∧ (r.kind = 1 → (s.ctx r.ctx).state ≠ .active → completes (.commandLaunch k) r 6)
      ∧ (r.kind = 1 → (s.ctx r.ctx).state = .active → ¬good → completes (.commandLaunch k) r 3)
      ∧ (r.kind = 1 → (s.ctx r.ctx).state = .active → good →
        (r.v4 = none → completes (.commandLaunch k) r 2)
        ∧ ∀ b, r.v4 = some b →
          (∀ st, s.examine r.ctx none b = .refused st → completes (.commandLaunch k) r st)
          ∧ ∀ u x, s.examine r.ctx none b = .ok u x → x.chips = [s.chipno] →
            ∃ t L, exec (.commandLaunch k) s = .next t ∧ t.mem = u.mem ∧ t.records.find k = none
              ∧ t.launches.find u.next = some L ∧ L.block = x.block ∧ L.ctx = r.ctx ∧ L.depth = 0 ∧ L.phase = .running
              ∧ L.source = .host r.ctx r.q r.slot r.cookie ∧ L.pending = List.range x.block.teams
              ∧ L.gen.toNat = (if (u.ctx r.ctx).gens.toNat + 1 = 2 ^ 32 then 1 else (u.ctx r.ctx).gens.toNat + 1))


/-! ## Teams -/

/-- R161, R165, R173 to R175, R189, R193, R195, R310, R314 and R432: a pending team is placed on the core with the fewest
resident crews, its launch packet gives bank roles and code, its fibres start at ENTRY; a regroup wakes fibres and forms
one braid for each PC, whose fibres take the oldest of their age stamps and the largest of their wait and pass counts; a draining team sends its dirty lines home, then gives its slots back, and retires once what it
wrote has passed; a mismatch that no word reported stops its launch (R281, R324); an evicted team leaves its core and its
record goes into the context's save area, and a team that is pending again is restored, when no team before it in launch order could be placed, and goes on elsewhere,
without the stash lines recalled meanwhile (R221).
Rests on the model's own reading or choice in log entries 11, 33, 34, 44, 75, 77 and 88. -/
def Obligations.TeamLife : Prop :=
  ∀ (s : State) (l team core : Nat) (L : Launch) (T : Team),
    let run : Prop := s.teams.find team = some T ∧ s.launches.find T.launch = some L
    let after (t : State) : Team := t.team team
    let free (c : Nat) : Prop := (s.core c).withheld = none ∧ (s.core c).testing = none
      ∧ s.ftime < max (s.core c).onyxDue (s.core c).onyxFree
    let alone : Prop := L.chips = [s.chipno] ∧ ∀ c, L.source ≠ .span c
    let stops (t : State) (st : Nat) : Prop := ∃ M, t.launches.find T.launch = some M ∧ (M.phase = .done st
      ∨ M.phase = .ending st ∧ t.owesWrites T.launch = true)
    (s.launches.find l = some L → L.phase = .running → L.evicted = [] → L.lastCore < 320 → s.fatal = false → s.held = false →
      (∀ j M, (j, M) ∈ s.launches → j ≠ l → M.phase ≠ .running ∨ M.pending = [] ∧ M.evicted = []) → ∀ x, L.pending = [x] →
      let room (c : Nat) : Prop := c ∈ s.allotted L.ctx ∧ free c ∧ L.block.fits (s.heldBlocks c) = true
      let crews (c : Nat) : Nat := ((s.heldBlocks c).map Block.crews).sum
      let past (c : Nat) : Nat := (c + 640 - L.lastCore - 1) % 320
      ((∀ c, ¬room c) → exec .placeTeams s = .next s)
      ∧ ∀ c, room c → (∀ d, room d → crews c < crews d ∨ crews c = crews d ∧ past c ≤ past d) →
        ∃ t N, exec .placeTeams s = .next t ∧ s.sameMemory t ∧ t.teams.find s.next = some N ∧ N.launch = l ∧ N.index = x
          ∧ N.core = c ∧ N.state = .starting ∧ N.packet = false ∧ N.body.crews.map Prod.fst = List.range L.block.crews
          ∧ N.body.trapvec = L.block.trapvec ∧ N.body.emuvec = L.block.emuvec
          ∧ (∀ k C, (k, C) ∈ N.body.crews → C.part = L.block.part ∧ C.lanes = [])
          ∧ t.launches.find l = some { L with pending := [], lastCore := c })
    ∧ (run → T.state = .starting → T.packet = false →
      ∃ t, exec (.launchPacket team) s = .next t ∧ s.sameMemory t ∧ after t = { T with packet := true }
        ∧ (t.core T.core).roles = some ((s.core T.core).roles.getD (L.block.stash, L.block.tensor))
        ∧ (L.code.length ≤ 256 → ∀ i, i < L.code.length / 4 → let word := BitVec.ofNat 32 (fieldOf L.code (4 * i) 4)
          ({ ctx := L.ctx, obj := capObj L.block.code, off := L.block.entry.toNat + 4 * i, word := word } : IWord)
            ∈ (t.core T.core).icache)
        ∧ ∀ w ∈ (s.core T.core).icache, (s.core T.core).icache.length + L.code.length / 4 ≤ 32768 → (w.ctx ≠ L.ctx ∨ w.obj ≠ capObj L.block.code ∨ w.off < L.block.entry.toNat
            ∨ L.block.entry.toNat + 4 * (L.code.length / 4) ≤ w.off) → w ∈ (t.core T.core).icache)
    ∧ (run → T.state = .starting → T.packet = true →
      ∃ t, exec (.teamStart team) s = .next t ∧ s.sameMemory t ∧ (after t).state = .running ∧ (after t).shadow.isSome = true
        ∧ (after t).rollbacks = 0 ∧ (∀ i, i < L.args.length → (after t).body.stash.byte i = L.args.getD i 0)
        ∧ ∀ k C, T.body.crews.find k = some C → ∀ n, ((t.crew team k).lanes.find n).isSome = decide (n < min 32 (L.block.nfib - 32 * k))
          ∧ (n < min 32 (L.block.nfib - 32 * k) →
            let F := t.lane team k n
            F.state = .ready ∧ F.pc = L.block.entry ∧ F.fmode = L.block.fmode ∧ F.ftrapen = L.block.ftrapen ∧ F.taint = false
              ∧ F.fstat = 0 ∧ F.guard = none ∧ F.streams = [] ∧ F.wbase = 0 ∧ F.q 15 = true ∧ (∀ q, q ≠ 15 → F.q q = false)
              ∧ ∀ r, F.reg r = { val := 0, tag := false, full := true }))
    ∧ ((s.core core).regroupDue = true →
      let wakes (k n : Nat) (F : Lane) : Bool := !F.frozen && s.awake team k n F
      ∃ t, exec (.regroup core) s = .next t ∧ s.sameMemory t ∧ (t.core core).regroupDue = false
        ∧ (s.teams.find team = some T → T.core = core → T.state = .running → T.consumed = false →
          ∀ k C, T.body.crews.find k = some C →
            let C' := t.crew team k
            let kept := C.braids.filter fun b => decide (0 < b.issued) && decide (b.issued < b.unit.length)
            let woken (n : Nat) : Lane :=
              if wakes k n (C.lane n) then { C.lane n with state := .ready, age := (s.core core).cycle } else C.lane n
            let joins (n : Nat) : Prop := n < 32 ∧ (C'.lane n).state = .ready ∧ (C'.lane n).frozen = false ∧ ∀ b ∈ kept, n ∉ b.lanes
            let with' (n m : Nat) : Prop := joins m ∧ (C'.lane m).pc = (C'.lane n).pc
            let one (n : Nat) (f : Lane → Nat) : Prop := ∃ m, with' n m ∧ f (woken m) = f (C'.lane n)
            (∀ n, (C.lanes.find n).isSome = true → C'.lane n = { woken n with
                age := (C'.lane n).age, waits := (C'.lane n).waits, passes := (C'.lane n).passes }
              ∧ (¬joins n → C'.lane n = woken n))
            ∧ (∀ b ∈ kept, b ∈ C'.braids)
            ∧ ∀ n, joins n → (∃ b ∈ C'.braids, b.issued = 0 ∧ ∀ m, m ∈ b.lanes ↔ with' n m)
              ∧ (∀ m, with' n m → (C'.lane n).age ≤ (woken m).age ∧ (woken m).waits ≤ (C'.lane n).waits
                ∧ (woken m).passes ≤ (C'.lane n).passes)
              ∧ one n Lane.age ∧ one n Lane.waits ∧ one n Lane.passes))
    ∧ (run → T.state = .draining → T.drained = false → T.consumed = false →
      let dirty (n : Nat) : Prop := n ∈ T.body.dirty ∧ (T.body.windowOf n).isSome = true
      ((∃ n, dirty n) → (∀ n, dirty n → s.homeFails team n = none) →
        ∃ t, exec (.teamDrain team) s = .next t ∧ s.sameMemory t ∧ (after t).drained = false
          ∧ (∀ n, n ∈ (after t).body.dirty ↔ n ∈ T.body.dirty ∧ ¬dirty n)
          ∧ ∀ n w a, dirty n → T.body.windowOf n = some w → s.windowAddr team w n = some a → ∃ k, t.msgs.find k
            = some (.back (.drain team T.core) (a / 128) (pdefMem (T.body.stash.slice (128 * n) 128) (s.windowPdef team w)) true))
      ∧ ((∃ n, dirty n ∧ (s.homeFails team n).isSome = true) → L.phase = .running → alone →
        ∃ t, exec (.teamDrain team) s = .next t ∧ stops t 6)
      ∧ ((∀ n, ¬dirty n) → s.drainDue team = false → (∀ k C, (k, C) ∈ T.body.crews → C.tickets = [] ∧ C.mismatch = []) →
        ∃ t, exec (.teamDrain team) s = .next t ∧ s.sameMemory t ∧ (after t).drained = true ∧ (after t).body.windows = []
          ∧ (t.core T.core).roles = (if (t.residents T.core).isEmpty then none else (s.core T.core).roles))
      ∧ ((∀ n, ¬dirty n) → s.drainDue team = false → (∀ k C, (k, C) ∈ T.body.crews → C.tickets = []) → T.unreported ≠ [] →
        L.phase = .running → alone → ∃ t, exec (.teamDrain team) s = .next t ∧ (after t).state = .retired ∧ stops t 6))
    ∧ (run → T.state = .draining → T.drained = true → T.consumed = false → T.children = 0 → T.gall ≤ s.ftime →
      (∀ k C, (k, C) ∈ T.body.crews → C.unacked = 0 ∧ C.gall ≤ s.ftime) →
      ∃ t, exec (.teamRetire team) s = .next t ∧ (after t).state = .retired ∧ (after t).shadow = none
        ∧ (L.phase = .running → alone →
          (L.retired + 1 < L.block.teams → t.launches.find T.launch = some { L with retired := L.retired + 1 })
          ∧ (L.block.teams ≤ L.retired + 1 → ∃ M, t.launches.find T.launch = some M ∧ M.phase = .done 1)))
    ∧ (run → s.outside.errs = [] → L.block.cores = false → s.canSave team = true → s.makesRoom team = true →
      s.saveFits team (s.saveBytes team) = true →
      let a := s.saveStart team
      let n := s.saveBytes team
      ∃ t, exec (.evictTeam team) s = .next t ∧ (∀ x, x < a ∨ a + n ≤ x → t.mem.byte x = s.mem.byte x)
        ∧ (∀ k, k < a / 32 ∨ (a + n + 31) / 32 ≤ k → t.mem.tag k = s.mem.tag k ∧ t.mem.poisoned k = s.mem.poisoned k)
        ∧ (after t).saved = some (a, n) ∧ (after t).meddled = false
        ∧ (after t).state = .evicted ∧ (after t).body.stash = T.body.stash
        ∧ (after t).resident = false ∧ t.launches.find T.launch = some { L with evicted := L.evicted ++ [team] }
        ∧ ((∀ m ∈ s.msgs, ∀ o x dest v tag atom, m.2 = .held o x dest v tag atom → o.team ≠ team) →
          ∀ k F, (T.body.crews.find k).bind (·.lanes.find F) ≠ none → t.lane team k F = (s.lane team k F).unread fun _ => true)
        ∧ ∀ k o line obj parts, t.msgs.find k ≠ some (.read o line obj .plain parts) ∨ o.team ≠ team)
    ∧ (run → T.state = .evicted → L.ended = false → s.fatal = false → core ∈ s.allotted L.ctx → free core →
      L.block.fits (s.heldBlocks core) = true → L.block.cores = false → T.owed = [] → T.meddled = false →
      (s.wakeable team = false ∨ s.turnOf T.launch = false ∨ (s.itemsOf L).head? ≠ some T.index →
        exec (.restoreTeam team core) s = .next s)
      ∧ (s.wakeable team = true → s.turnOf T.launch = true → (s.itemsOf L).head? = some T.index → ∃ t, exec (.restoreTeam team core) s = .next t ∧ s.sameMemory t
        ∧ (after t).state = .running ∧ (after t).core = core ∧ (after t).saved = none
        ∧ (after t).body.stash = T.body.stash
        ∧ (∀ k n, let F := s.lane team k n
            let G := t.lane team k n
            G = { F with state := G.state, age := G.age, waits := G.waits, passes := G.passes }
              ∧ (G.state = F.state ∨ G.state = .ready))
        ∧ (∀ n, n ∈ (after t).body.absent ↔ n ∈ T.recalledAway ∨ n ∈ T.body.absent)
        ∧ t.launches.find T.launch = some { L with evicted := L.evicted.erase team, lastCore := core }))

/-- R176, R178, R179, R188, R270 and R325: a chip of a span answers a block with its checks' status and holds the launch, at
the depth of its lead, until chip 0 starts or aborts it; chip 0 starts every chip 2000 ns after the last good answer, ends
the launch on a bad one or when answers are late, and stops every chip when one stops. The context's launch counter
advances when the launch is accepted, and no other launch of the context is examined before. A launch is named by its context,
its generation number and the chip that leads it. A stopped chip answers, and a stopped launch completes, once what its
teams wrote is performed.
Rests on the model's own reading or choice in log entries 18, 22, 70 and 86. -/
def Obligations.SpanProtocol : Prop :=
  ∀ (s : State) (k ctx gen src l : Nat) (L : Launch),
    let taken : State := { s with linkIn := s.linkIn.del k }
    let phase (t : State) : Option Phase := (t.launches.find l).map Launch.phase
    let sends (t : State) (d : Nat) (m : LinkMsg) : Prop := t.linkOut = s.linkOut ++ [(d, m)]
    let others : List Nat := L.chips.filter (· != s.chipno)
    let the (from' : Source → Prop) : Prop := s.launches.find l = some L ∧ L.ctx = ctx ∧ L.gen.toNat = gen ∧ from' L.source
      ∧ L.ended = false ∧ ∀ j M, (j, M) ∈ s.launches → M.ctx = ctx → M.gen.toNat = gen → from' M.source → M.ended = false →
        (j, M) = (l, L)
    let led : Prop := the fun x => ∀ c, x ≠ .span c
    let joined : Prop := the (· = .span src)
    let ends (t : State) (st : Nat) : Prop := phase t = some (if s.owesWrites l then .ending st else .done st)
    let gens (t : State) : Word := (t.ctx ctx).gens
    (∀ depth block code args tags marks chips,
      s.linkIn.find k = some (.spanBlock ctx gen src depth block code args tags marks chips) →
      let sent (cap : DWord) (n : Nat) : List Byte :=
        if cap = (launchBlock block).args ∧ n ≤ args.length then args else chips.flatMap (leBytes 2)
      let args' := fun (s : State) (cap : DWord) (n : Nat) => s.readSent ctx (sent cap n) cap n
      (∀ st, s.examineAs src ctx args' block = .refused st →
        exec (.spanBlock k) s = .next { taken with linkOut := s.linkOut ++ [(src, .spanReply ctx gen s.chipno st)] })
      ∧ ∀ u x, s.examineAs src ctx args' block = .ok u x →
        ∃ t M, exec (.spanBlock k) s = .next t ∧ t.mem = u.mem ∧ t.linkIn.find k = none
          ∧ t.linkOut = u.linkOut ++ [(src, .spanReply ctx gen u.chipno 1)] ∧ t.launches.find u.next = some M
          ∧ M.ctx = ctx ∧ M.gen = BitVec.ofNat 32 gen ∧ M.block = x.block ∧ M.phase = .answered ∧ M.source = .span src
          ∧ M.depth = depth ∧ M.chips = x.chips ∧ M.code = code ∧ M.args = args ∧ M.argTags = tags ∧ M.argPoison = marks ∧ M.pending = chipTeams x.block x.chips u.chipno)
    ∧ (∀ st, s.linkIn.find k = some (.spanReply ctx gen src st) → led →
      ∀ waiting deadline, L.phase = .asking waiting deadline → src ∈ waiting →
        (deadline < s.ftime → ∃ t, exec (.spanReply k) s = .next t ∧ t.linkIn.find k = none ∧ phase t = some (.done 5)
          ∧ t.linkOut = s.linkOut ++ others.map fun d => (d, LinkMsg.spanAbort ctx gen s.chipno))
        ∧ (s.ftime ≤ deadline → (st = 1 → waiting.erase src ≠ [] → ∃ t, exec (.spanReply k) s = .next t ∧ t.mem = s.mem ∧ t.linkIn.find k = none
          ∧ t.linkOut = s.linkOut ∧ phase t = some (.asking (waiting.erase src) deadline))
        ∧ (st = 1 → waiting.erase src = [] → ∃ t, exec (.spanReply k) s = .next t ∧ t.mem = s.mem ∧ t.linkIn.find k = none
          ∧ phase t = some (.armed (s.ftime + 2000)) ∧ (ctx < 64 → gens t = L.gen)
          ∧ t.linkOut = s.linkOut ++ others.map fun d => (d, LinkMsg.spanStart ctx gen s.chipno (s.ftime + 2000)))
        ∧ (st ≠ 1 → ∃ t, exec (.spanReply k) s = .next t ∧ t.linkIn.find k = none ∧ phase t = some (.done st) ∧ gens t = gens s
          ∧ t.linkOut = s.linkOut ++ others.map fun d => (d, LinkMsg.spanAbort ctx gen s.chipno))))
    ∧ (s.launches.find l = some L → L.ctx = ctx → (∃ w d, L.phase = .asking w d) →
      ∀ team block, s.examine ctx team block = .wait s)
    ∧ (∀ at', s.linkIn.find k = some (.spanStart ctx gen src at') → joined → L.phase = .answered →
      ∃ t, exec (.spanStart k) s = .next t ∧ t.mem = s.mem ∧ t.linkIn.find k = none ∧ phase t = some (.armed at'))
    ∧ (s.launches.find l = some L → ∀ at', L.phase = .armed at' →
      (s.ftime < at' → exec (.spanTstart l) s = .next s)
      ∧ (at' ≤ s.ftime → L.retired < (chipTeams L.block L.chips s.chipno).length →
        ∃ t, exec (.spanTstart l) s = .next t ∧ t.mem = s.mem ∧ t.linkOut = s.linkOut ∧ phase t = some .running))
    ∧ (s.linkIn.find k = some (.spanAbort ctx gen src) → joined → L.phase = .answered →
      ∃ t, exec (.abort k) s = .next t ∧ t.mem = s.mem ∧ t.linkIn.find k = none ∧ phase t = some (.done 5))
    ∧ (s.launches.find l = some L → ∀ waiting deadline, L.phase = .asking waiting deadline →
      (s.ftime < deadline → exec (.spanTimeout l) s = .next s)
      ∧ (deadline ≤ s.ftime → ∃ t, exec (.spanTimeout l) s = .next t ∧ phase t = some (.done 5)
        ∧ t.linkOut = s.linkOut ++ others.map fun d => (d, LinkMsg.spanAbort L.ctx L.gen.toNat s.chipno)))
    ∧ (s.linkIn.find k = some (.stop ctx gen src) →
      (joined → (∀ st, L.phase ≠ .ending st) → ∃ t, exec (.stop k) s = .next t ∧ t.mem = s.mem ∧ ends t 6
        ∧ (if s.owesWrites l then t.linkIn = s.linkIn ∧ t.linkOut = s.linkOut
          else t.linkIn.find k = none ∧ sends t src (LinkMsg.stopped ctx gen s.chipno))
        ∧ ∀ x T, s.teams.find x = some T → T.launch = l → (t.team x).state = .retired)
      ∧ (((∃ x ∈ s.launches, x.2.ctx = ctx ∧ x.2.gen.toNat = gen ∧ x.2.source = .span src) ∧
          ∀ x ∈ s.launches, x.2.ctx = ctx → x.2.gen.toNat = gen → x.2.source = .span src →
            x.2.ended = true ∧ (s.launches.find x.1).any Launch.ended = true) →
        exec (.stop k) s = .next { taken with linkOut := s.linkOut ++ [(src, LinkMsg.stopped ctx gen s.chipno)] })
      ∧ (led → (∀ j M, (j, M) ∈ s.launches → M.ctx = ctx → M.gen.toNat = gen → M.source ≠ .span src) →
        (∀ st, L.phase ≠ .ending st) → others ≠ [] → (∀ d ∈ others, s.lost d = false) → (∀ w d st, L.phase ≠ .stopping w d st) →
        ∃ t, exec (.stop k) s = .next t ∧ t.mem = s.mem ∧ t.linkIn.find k = none
          ∧ phase t = some (.stopping others (s.ftime + 100000) 6)
          ∧ t.linkOut = s.linkOut ++ others.map (fun d => (d, LinkMsg.stop ctx gen s.chipno))
          ∧ ∀ x T, s.teams.find x = some T → T.launch = l → (t.team x).state = .retired))
    ∧ (s.linkIn.find k = some (.stopped ctx gen src) → led → ∀ waiting deadline st, L.phase = .stopping waiting deadline st →
      (waiting.erase src = [] → ∃ t, exec (.stopped k) s = .next t ∧ t.linkIn.find k = none ∧ ends t st)
      ∧ (waiting.erase src ≠ [] → ∃ t, exec (.stopped k) s = .next t ∧ t.mem = s.mem ∧ t.linkIn.find k = none
        ∧ phase t = some (.stopping (waiting.erase src) deadline st)))
    ∧ (s.launches.find l = some L → ∀ waiting deadline st, L.phase = .stopping waiting deadline st →
      (s.ftime < deadline → exec (.stopTimeout l) s = .next s)
      ∧ (deadline ≤ s.ftime → ∃ t, exec (.stopTimeout l) s = .next t ∧ ends t st))


/-! ## Self-test and page motion -/

/-- R23, R200, R334 and R337: a core whose due time has passed takes no team and is withheld; withheld, and once its teams
have retired or are evicted, it runs its slice, before 60 s are over; a slice ends after 50 µs and moves the due time by
37.5 s, one that fails takes the core out of every allotment; 60 s after its due time a core that has run no slice takes
teams again until the next due time still to come, and its pass has moved back by 37.5 s.
Rests on the model's own reading or choice in log entries 4, 77 and 93. -/
def Obligations.OnyxSlices : Prop :=
  ∀ (s : State) (core : Nat),
    let K := s.core core
    let due := max K.onyxDue K.onyxFree
    (due ≤ s.ftime → K.open s.ftime = false)
    ∧ (core < 320 → K.withheld = none → K.testing = none → K.offline = false →
      (due ≤ s.ftime → exec (.onyxDue core) s = .next (s.setCore core { K with withheld := some due }))
      ∧ (s.ftime < due → exec (.onyxDue core) s = .next s))
    ∧ (∀ w, K.withheld = some w →
      (s.ftime < w + 60000000000 → (∀ x ∈ s.teams, x.2.core = core → x.2.state = .retired ∨ x.2.state = .evicted) →
        exec (.onyxSlice core) s = .next (s.setCore core { K with testing := some s.ftime, withheld := none }))
      ∧ (w + 60000000000 ≤ s.ftime ∨ (∃ x ∈ s.teams, x.2.core = core ∧ x.2.state ≠ .retired ∧ x.2.state ≠ .evicted) →
        exec (.onyxSlice core) s = .next s)
      ∧ (w + 60000000000 ≤ s.ftime → K.onyxDue ≤ s.ftime → ∃ t n, exec (.onyxLapse core) s = .next t ∧ s.sameMemory t
        ∧ t.core core = { K with withheld := none, onyxDue := K.onyxDue + 37500000000, onyxFree := K.onyxDue + 37500000000 * n }
        ∧ s.ftime < (t.core core).onyxFree ∧ (t.core core).onyxFree ≤ s.ftime + 37500000000)
      ∧ (s.ftime < w + 60000000000 → exec (.onyxLapse core) s = .next s))
    ∧ (∀ w, K.testing = some w → s.ftime < w + 50000 → ∀ f, exec (.onyxSliceEnd core f) s = .next s)
    ∧ (∀ w, K.testing = some w → w + 50000 ≤ s.ftime →
      let after : Core := { K with
        testing := none, onyxDue := K.onyxDue + 37500000000, onyxFree := 0, onyxSlice := (K.onyxSlice + 1) % 16 }
      exec (.onyxSliceEnd core false) s = .next (s.setCore core after)
      ∧ ∃ t, exec (.onyxSliceEnd core true) s = .next t ∧ s.sameMemory t ∧ t.core core = { after with offline := true }
        ∧ ∀ ctx, core ∉ t.allotted ctx)

/-- R262 to R267: a round copies the lines of its snapshot with their tags and takes the lines written since as the next
snapshot, or freezes the frame after eight rounds or once few are left; a line that is copied forwards; at the switch the
frame's descriptor names the new place with FVER + 1, requests on their way to the old place go to the new one, its watch
entries are struck, and its homes free its entries. A copy that must wait at the new place waits (R226, R260).
Rests on the model's own reading or choice in log entry 76. -/
def Obligations.PageMotion : Prop :=
  ∀ (s : State) (m : Motion), s.motion = some m → s.mem.wf = true → s.outside.errs = [] → m.src % Config.frameBytes = 0 →
    m.dst % Config.frameBytes = 0 → m.src ≠ m.dst →
    let copied (t : State) (i : Nat) : Prop :=
      (∀ b, b < 128 → t.mem.byte (m.dst + 128 * i + b) = s.mem.byte (m.src + 128 * i + b))
      ∧ ∀ k, k < 4 → t.mem.tag ((m.dst + 128 * i) / 32 + k) = s.mem.tag ((m.src + 128 * i) / 32 + k)
    let inSource (line : Nat) : Prop := m.src ≤ 128 * line ∧ 128 * line < m.src + Config.frameBytes
    (m.frozen = false → (∀ x ∈ m.snap, inSource x) →
      s.writesBlocked ((if m.all then s.knownLines m.dst else m.snap.map fun x => m.dst / 128 + (x - m.src / 128)).map fun x =>
        (128 * x, 128)) = none →
      ∃ t, exec (.motionRound []) s = .next t
        ∧ (∀ i, i < 16384 → (m.all = true ∨ m.src / 128 + i ∈ m.snap) → copied t i)
        ∧ (64 < m.bits.length → m.rounds + 1 ≠ 8 →
          t.motion = some { m with rounds := m.rounds + 1, all := false, snap := m.bits, bits := [] })
        ∧ (m.bits.length ≤ 64 ∨ m.rounds + 1 = 8 → ∃ m', t.motion = some m' ∧ m'.frozen = true ∧ m'.rounds = m.rounds + 1
          ∧ m'.src = m.src ∧ m'.dst = m.dst ∧ ∀ x ∈ m.bits, x ∈ m'.migrating))
    ∧ (∀ i, i < 16384 → m.frozen = true → m.src / 128 + i ∈ m.migrating → s.backDue (m.src / 128 + i) = false →
      s.ownedAway (m.src / 128 + i) true = false →
      let d := s.dirOf (m.src / 128 + i)
      (d.host0 = .HI → d.host1 = .HI → s.writeBlocked (m.dst + 128 * i) 128 = none → ∃ t m', exec (.motionLineCopied i MemErr.none) s = .next t ∧ copied t i ∧ t.motion = some m'
        ∧ (∀ x, x ∈ m'.migrating ↔ x ∈ m.migrating ∧ x ≠ m.src / 128 + i) ∧ { m' with migrating := m.migrating } = m)
      ∧ (d.host0 ≠ .HI ∨ d.host1 ≠ .HI → ∃ t, exec (.motionLineCopied i MemErr.none) s = .next t ∧ t.mem = s.mem ∧ t.motion = s.motion
        ∧ ∀ h, h ≤ 1 → d.hostHalf h ≠ .HI → ∃ x ∈ t.snoops, x.1 = m.src / 128 + i ∧ x.2.1 = h))
    ∧ (m.frozen = true → m.migrating = [] → s.writesBlocked (linePieces 2 m.place 8) = none →
      let fver := m.word.toNat / 2 ^ 45 % 2 ^ 16
      ∃ t, exec .motionSwitch s = .next t ∧ t.motion = none ∧ t.mailbox = { s.mailbox with busy := false, result := 0 }
        ∧ t.mem.bytes (s.forwarded m.place) 8 = leBytes 8 (2 ^ 62 + (fver + 1) % 2 ^ 16 * 2 ^ 45 + m.loc)
        ∧ (∀ x, inSource x → t.dir.find x = none)
        ∧ (∀ k w a data tag, k < s.next → s.msgs.find k = some (.write w a data tag) → t.msgs.find k
          = some (.write w (if m.src ≤ a ∧ a < m.src + Config.frameBytes then m.dst + (a - m.src) else a) data tag))
        ∧ ∀ te T c k x, s.teams.find te = some T → (s.crew te c).watch.find k = some x →
          ((s.teamCtx te = m.ctx ∧ x.obj = m.obj ∧ x.frame = m.frame) ∨ inSource x.line →
            (t.crew te c).watch.find k = some { x with state := .struck })
          ∧ (¬((s.teamCtx te = m.ctx ∧ x.obj = m.obj ∧ x.frame = m.frame) ∨ inSource x.line) →
            (t.crew te c).watch.find k = some x))


/-! ## What the engines do -/

/-- R219, R241, R273, R283 to R290, R366 and R390: the engine reads a list once its crew's writes are acknowledged; a
malformed record or chain reports BADRECORD at its object, once the object's line is present; a record begins, its stash
lines leaving; a chunk, of which eight may be in flight, writes the source's bytes, or a chain's elements, at the
destination and leaves its write to be counted; a count lowers REMAIN, turning PHASE at 0; a fault is reported once the
rest is counted.
Rests on the model's own reading or choice in log entries 46, 47, 48, 49, 50, 51, 53, 54 and 90. -/
def Obligations.CopyAndChainChunks : Prop :=
  ∀ (s : State) (k t c core addr chunk : Nat) (flags : BitVec 8) (uncounted : List (Nat × Nat × Nat)),
    let banks := s.stashBanks t
    let present (bar : Nat) : Prop := (s.team t).body.absent.contains (bar / 128) = false
    let num (u : State) (a n : Nat) : Nat := (u.team t).body.stash.num a n
    let fails (i : Instr) (bar ridx : Nat) : Prop := ∃ u, exec i s = .next u ∧ u.jobs.find k = none ∧ s.sameMemory u
      ∧ (s.barFstate t bar = 0 → u.barFstate t bar = 6 ∧ num u (bar + 12) 4 = ridx % 65536)
    let stays (i : Instr) : Prop := ∃ u, exec i s = .next u ∧ u.jobs = s.jobs ∧ u.msgs = s.msgs ∧ u.mem = s.mem
      ∧ (u.team t).body = (s.team t).body
    let writable (u : State) (p : Piece) (f : Nat) : Prop := ∃ a obj fr v im pdef, p.loc = .mem a obj fr v im pdef
      ∧ f = u.forwarded a ∧ u.lostHome f = false ∧ u.writeBlocked a p.len = none ∧ u.countersLow = true
    let around (u w : State) (f n : Nat) : Prop := ∀ z, z < f ∨ f + n ≤ z → w.mem.byte z = (u.homeMem (f / 128)).byte z
    s.crewQuiet t c k = true → (s.teams.find t).isSome = true → s.outside.errs = [] →
    (∀ j : CopyRun, s.jobs.find k = some (.copy j) → j.team = t → j.crew = c →
      let r := copyRec j.record.1
      (j.recs = none → ∀ l, s.listed t 256 j.addr = some l → ∃ u, exec (.copyChunk k []) s = .next u ∧ s.sameMemory u
        ∧ u.jobs.find k = some (.copy { j with recs := some (l.map fun x => (x.1, x.2 || j.tag)) }))
      ∧ (∀ recs, j.recs = some recs →
        (recs.length ≤ j.idx ∨ recordOk banks r.bar 16 = false → present j.b0 → fails (.copyChunk k []) j.b0 j.idx)
        ∧ (j.idx < recs.length → recordOk banks r.bar 16 = true → present r.bar →
          (r.ok banks = false → fails (.copyChunk k []) r.bar j.idx)
          ∧ (r.ok banks = true → j.started = false → ∃ u, exec (.copyChunk k []) s = .next u ∧ s.sameMemory u
            ∧ u.jobs.find k = some (.copy { j with started := true })
            ∧ ∀ n, n < 512 * banks → ((u.team t).body.absent.contains n = ((s.team t).body.absent.contains n || r.coversLine n))
              ∧ ((u.team t).body.dirty.contains n = ((s.team t).body.dirty.contains n && !r.coversLine n)))
          ∧ (r.ok banks = true → j.started = true → 4096 * j.chunk < r.total →
            8 ≤ ((j.uncounted.map Prod.fst).eraseDups).length → stays (.copyChunk k []))
          ∧ (r.ok banks = true → j.started = true → j.short = none → r.conv = false → r.dstash = false →
            4096 * j.chunk < r.total → ((j.uncounted.map Prod.fst).eraseDups).length < 8 →
            ∀ so d b e ps p u y, r.chunk j.chunk = [(so, d, b, e)] →
            s.pieces t r.src (so + b) (e - b) needR = .ok ps → s.pieces t r.dst (d + b) (e - b) needW = .ok [p] →
            s.engineRead t r.coversLine ps = .ok u y none → (∀ o ∈ outOffsets d b e, r.ownSource o = false) →
            ∀ f, writable u p f → ∃ w g, exec (.copyChunk k []) s = .next w ∧ s.ftime ≤ g
              ∧ w.jobs.find k = some (.copy { j with
                chunk := j.chunk + 1, uncounted := j.uncounted ++ [(j.chunk, g, e - b)] })
              ∧ (∀ i, i < e - b → w.mem.byte (f + i) = y.data.getD i 0) ∧ around u w f (e - b)))))
    ∧ (∀ bytes tag, let b := chainBlock bytes
      s.jobs.find k = some (.chain t c core addr bytes tag chunk uncounted flags none) → present b.bar →
        (b.ok = false → fails (.chainChunk k []) b.bar 0)
        ∧ (b.ok = true → 4096 * chunk < b.total → 8 ≤ ((uncounted.map Prod.fst).eraseDups).length →
          stays (.chainChunk k []))
        ∧ (b.ok = true → 4096 * chunk < b.total → ((uncounted.map Prod.fst).eraseDups).length < 8 →
          let z := elemBytes b.df
          let e0 := 4096 / z * chunk
          let n := min (4096 / z) (b.count - e0)
          let both := b.ops.any opSel1
          ∀ ps qs p u y, s.pieces t b.src0 (capOff b.src0 + e0 * elemBytes b.s0) (n * elemBytes b.s0) needR = .ok ps →
          (both = true → s.pieces t b.src1 (capOff b.src1 + e0 * elemBytes b.s1) (n * elemBytes b.s1) needR = .ok qs) →
          (both = false → qs = []) → s.pieces t b.dst (capOff b.dst + e0 * z) (n * z) needW = .ok [p] →
          s.engineRead t (fun _ => false) (ps ++ qs) = .ok u y none →
          (∀ o ∈ outOffsets (capOff b.dst) (e0 * z) (e0 * z + n * z), b.ownSource o = false) → ∀ f, writable u p f →
          let el (start size j : Nat) : Nat := leNat ((y.data.drop (start + size * j)).take size)
          let second (j : Nat) : Nat := if both then el (n * elemBytes b.s0) (elemBytes b.s1) j else 0
          ∃ w g fl, exec (.chainChunk k []) s = .next w ∧ s.ftime ≤ g
            ∧ w.jobs.find k = some (.chain t c core addr bytes tag (chunk + 1) (uncounted ++ [(chunk, g, n * z)])
              (flags ||| fl) none)
            ∧ (∀ j i, j < n → i < z → w.mem.byte (f + z * j + i)
              = (leBytes z (b.element (el 0 (elemBytes b.s0) j) (second j)).bits).getD i 0) ∧ around u w f (n * z)))
    ∧ (∀ (job : List (Nat × Nat × Nat) → Option (Nat × DWord × Nat) → Job) (bar ridx : Nat) (list : Bool),
      (∃ j : CopyRun, j.team = t ∧ j.addr = addr ∧ list = true ∧ (∀ l x, job l x = .copy { j with uncounted := l, short := x })
        ∧ bar = (copyRec j.record.1).bar ∧ ridx = j.idx)
        ∨ (∃ bytes tag, list = false ∧ (∀ l x, job l x = .chain t c core addr bytes tag chunk l flags x)
          ∧ bar = (chainBlock bytes).bar ∧ ridx = 0) →
      present bar →
      (∀ i g n rest x, s.jobs.find k = some (job ((i, g, n) :: rest) x) → g ≤ s.ftime → 0 < n → rest ≠ [] →
        let st := num s (bar + 4) 4
        let st1 := if num s bar 4 < n ∧ st / 2 ^ 24 = 0 then st + 7 * 2 ^ 24 else st
        ∃ u, exec (.copyCount k) s = .next u ∧ s.sameMemory u ∧ u.jobs.find k = some (job rest x)
          ∧ num u bar 4 = num s bar 4 - n
          ∧ num u (bar + 4) 4 = (if num s bar 4 ≤ n ∧ num s bar 4 ≠ 0 then
              (if st1 / 2 ^ 16 % 2 = 1 then st1 - 2 ^ 16 else st1 + 2 ^ 16) else st1))
      ∧ ∀ code faddr at', s.jobs.find k = some (job [] (some (code, faddr, at'))) → s.barFstate t bar = 0 → code < 256 →
        let rec' := addr + 64 * ridx + 0x38
        bar + 16 ≤ rec' ∨ rec' + 8 ≤ bar →
        ∃ u, exec (.copyCount k) s = .next u ∧ s.sameMemory u ∧ u.jobs.find k = none ∧ u.barFstate t bar = code
          ∧ num u (bar + 8) 4 = 4096 * at' % 2 ^ 32 ∧ num u (bar + 12) 4 = ridx % 65536
          ∧ (list = true → num u rec' 8 = faddr.toNat ∧ (u.team t).body.faultAddr.find bar = some faddr))

/-- R123, R125, R149, R275 to R281, R400 and R426: the operation at the head of a core's array completes: an MMA with a
bad block or descriptor reports BADPARAM or BADWEIGHT; one with poisoned operands, or a tile whose residue fails twice
(R320), leaves its result to a rollback; any other puts the accumulated products at C, and under RED a tile that a third run
decides is reported and recorded with its number, one that stays undecided making the core's self-test due (R281, R334); a
DCOR, which goes by its copy of the block but for what an earlier one wrote there, reports why it refused or what its evaluation gave; a load of weights
makes its descriptor valid. Each leaves its ticket idle.
Rests on the model's own reading or choice in log entries 29, 55, 56, 57, 58, 90 and 91. -/
def Obligations.MatrixCompletions : Prop :=
  (∀ (s : State) (core : Nat) (m : MatOp) (rest : List MatOp),
    let t := m.team
    let T := s.team t
    let stash (u : State) (a n : Nat) : Nat := (u.team t).body.stash.num a n
    let idle (u : State) : Prop := (u.crew t m.crew).tickets.find m.ticket = none ∧ s.sameMemory u
      ∧ (u.core core).mats.map MatOp.ticket = rest.map MatOp.ticket
    (s.core core).mats = m :: rest → s.teams.find t = some T → (T.body.crews.find m.crew).isSome = true →
    (m.dcor = false →
      let b := mmaBlock m.bytes
      let e := elemBytes b.cfmt
      let reports (st : Nat) : Prop := ∃ u, exec (.mmaComplete core []) s = .next u ∧ idle u ∧ stash u (m.addr + 0x14) 4 = st
        ∧ (u.team t).body.tensor = T.body.tensor
      let pending : Prop := ∃ k, m.after = some k ∧ (s.jobs.find k).isSome = true
      (s.mmaOk m b = false → reports (2 + 256))
      ∧ (s.mmaOk m b = true → pending → ∃ u, exec (.mmaComplete core []) s = .next u ∧ s.sameMemory u ∧ u.cores = s.cores
        ∧ (u.team t).body = T.body)
      ∧ (s.mmaOk m b = true → ¬pending → (∀ d, m.desc = some d → d.agrees b = false) → reports (2 + 512))
      ∧ ∀ d, s.mmaOk m b = true → ¬pending → m.desc = some d → d.agrees b = true →
        let cb := columnBytes d.fmt.toNat d.k d.sp24
        let poisoned : Bool := s.matBad m b.aloc b.afmt b.m b.k || (b.accin && s.matBad m b.cloc b.cfmt b.m b.n)
          || T.weights.poisonOf d.woff (b.n * cb)
        (∀ runs : List TileRun, poisoned = true ∨ (∃ x ∈ runs, x.fault = .residue true ∧ x.tile % 4 < b.n / 16
            ∧ x.tile / 4 < b.m / 16) →
          ∃ u, exec (.mmaComplete core runs) s = .next u ∧ idle u ∧ (u.team t).consumed = true
            ∧ (u.team t).body.tensor = T.body.tensor)
        ∧ (poisoned = false → b.red = true → b.rlog = true → ∀ x, x % 4 < b.n / 16 → x / 4 < b.m / 16 →
          ∃ u, exec (.mmaComplete core [⟨x, .differs true⟩]) s = .next u ∧ idle u ∧ stash u (m.addr + 0x14) 4 = 4 + 256 * x
            ∧ ((s.bank (core / 20)).status.getLsbD 63 = false → (s.bank (core / 20)).ctl.getLsbD 0 = true →
              (u.bank (core / 20)).info = BitVec.ofNat 64 (32 * T.slot + m.crew + 2 ^ 16 * x)
                ∧ (u.bank (core / 20)).status.toNat % 2 ^ 16 = 0x107))
        ∧ (poisoned = false → b.red = true → b.rlog = true → ∀ x, x % 4 < b.n / 16 → x / 4 < b.m / 16 →
          ∃ u, exec (.mmaComplete core [⟨x, .differs false⟩]) s = .next u ∧ idle u ∧ stash u (m.addr + 0x14) 4 = 5 + 256 * x
            ∧ (u.core core).onyxDue = s.ftime ∧ (u.core core).onyxFree = 0)
        ∧ (poisoned = false → m.breach = false → locRegs b.cloc = false → b.dfmt = 0 →
          let place (i j : Nat) : Nat := locOffset b.cloc + (i * b.n + j) * e
          ∃ u, exec (.mmaComplete core []) s = .next u ∧ idle u ∧ stash u (m.addr + 0x14) 4 = 1
            ∧ ∀ i j, i < b.m → j < b.n → (u.team t).body.tensor.num (place i j) e = (mmaElement b.afmt d.fmt.toNat b.k (fmtCode b.cfmt)
                (denseLine b.afmt b.k (s.matRow m b.aloc b.afmt b.m b.k i))
                (columnLine d (T.weights.bytes (d.woff + j * cb) cb))
                (if b.accin then T.body.tensor.num (place i j) e else 0)).1 % 2 ^ (8 * e)))
    ∧ (m.dcor = true → T.body.absent.contains (m.addr / 128) = false →
      let now := dcorBlock (T.body.stash.bytes m.addr 64)
      let d : DcorBlock := { dcorBlock m.bytes with step := now.step, scount := now.scount, rnorm := now.rnorm }
      let gives (st : Nat) : Prop := ∃ u, exec (.dcorComplete core) s = .next u ∧ idle u ∧ stash u (m.addr + 0x18) 4 = st
      let tagged : Prop := m.atag = true ∨ m.tag = true
      let steered : Prop := m.taint = true ∨ m.gtag = true
      let good : Prop := d.ok m.addr (s.stashBanks t) = true
      (m.race = true → (∀ n ∈ regionLines d.x (8 * d.n), T.body.absent.contains n = false) → gives (4 + 256 * 5)) ∧ (m.race = false → steered → gives (4 + 256 * 3))
      ∧ (m.race = false → ¬steered → tagged → gives (4 + 256 * 2))
      ∧ (m.race = false → ¬steered → ¬tagged → ¬good → gives (4 + 256))
      ∧ (m.race = false → ¬steered → ¬tagged → good →
        (∀ r ∈ d.regions, ∀ n ∈ regionLines r.1 r.2, T.body.absent.contains n = false) →
        ((∃ r ∈ d.regions, T.body.stash.poisonOf r.1 r.2 = true) →
          ∃ u, exec (.dcorComplete core) s = .next u ∧ idle u ∧ (u.team t).consumed = true)
        ∧ ((∀ r ∈ d.regions, T.body.stash.poisonOf r.1 r.2 = false) →
          let o := d.run T.body.stash
          gives (o.outcome + 16 * bitNat o.ncv + 32 * bitNat o.stag + 256 * o.reason)
          ∧ ∀ xs, o.x = some xs → o.outcome ≠ 1 → o.reason ≠ 5 → ∃ u, exec (.dcorComplete core) s = .next u
            ∧ ∀ i, i < xs.length → i < d.n → stash u (d.x + 8 * i) 8 = xs.getD i 0 % 2 ^ 64))))
  ∧ ∀ (s : State) (t k c lane addr : Nat) (bytes : List Byte) (tag : Bool) (ticket : Nat) (T : Team),
    s.jobs.find k = some (.wbld t c lane addr bytes tag ticket) →
      s.teams.find t = some T → (T.body.crews.find c).isSome = true → s.crewQuiet t c k = true →
      let stash (u : State) (a n : Nat) : Nat := (u.team t).body.stash.num a n
      let b := wbldBlock bytes
      let n := b.n * columnBytes b.fmt b.k b.sp24
      let ends (st : Nat) (more : State → Prop) : Prop := ∃ u, exec (.wbldComplete k []) s = .next u ∧ u.jobs.find k = none
        ∧ stash u (addr + 0x14) 4 = st ∧ (u.crew t c).tickets.find ticket = none ∧ more u
      let same (u : State) : Prop := (u.team t).weights = T.weights ∧ (u.team t).wdescs = T.wdescs
      (s.weightBusy t b.wh k = true → ∃ u, exec (.wbldComplete k []) s = .next u ∧ s.sameMemory u ∧ u.jobs = s.jobs
        ∧ (u.team t).body = T.body ∧ same u)
      ∧ (s.weightBusy t b.wh k = false → b.ok (s.weightBytes t) = false → ends 2 same)
      ∧ (s.weightBusy t b.wh k = false → b.ok (s.weightBytes t) = true →
        (∀ x, s.pieces t b.src (capOff b.src) n needR = .error x → ends (4 + 256 * x.1.toNat) same)
        ∧ (∀ ps x cap, s.pieces t b.src (capOff b.src) n needR = .ok ps →
          s.engineRead t (fun _ => false) ps = .fail x cap → ends (4 + 256 * x.toNat) same)
        ∧ ∀ ps u y bad, s.pieces t b.src (capOff b.src) n needR = .ok ps → s.engineRead t (fun _ => false) ps = .ok u y bad →
          (b.masksOk y.data = false → ends 3 fun v => (v.team t).wdescs = (u.team t).wdescs)
          ∧ (b.masksOk y.data = true → (∀ j x, (j, x) ∈ s.jobs → j ≤ k) → ends 1 fun v =>
            (v.team t).wdescs.find b.wh = some { woff := b.woff, k := b.k, n := b.n, fmt := BitVec.ofNat 4 b.fmt
                                                 sp24 := b.sp24, btag := tag }
            ∧ (v.team t).weights.bytes b.woff n = y.data))

/-- R154, R291 to R293, R333, R338, R368 and R369: once every rank has joined and read, ranks that do not agree end their
collective with MISMATCH; a chunk puts a rank's part of the result at its destination, which no chunk does between a link's
failure and the re-formation; an acknowledged one is settled, the collective ending with its last; a lost link ends it with
LINKLOST.
Rests on the model's own reading or choice in log entry 59. -/
def Obligations.Collectives : Prop :=
  ∀ (s : State) (k chunk : Nat) (j : CollRun) (order : RedTree), s.jobs.find k = some (.coll j) → s.outside.errs = [] →
    let ms := j.members
    let p := rankCount ms
    let index (r : Rank) : Nat := rankOf ms r.dev r.core
    let total (r : Rank) : Nat := (collBlock r.bytes).destBytes p
    let chunks (r : Rank) : Nat := (total r + 262143) / 262144
    let own (r : Rank) : Prop := r ∈ j.ranks ∧ r.remote = none
    let cause (r : Rank) : BitVec 8 := (r.remote.map RemoteRank.cause).getD r.cause
    let done (acked : List Nat) (r : Rank) : Prop :=
      (∀ i, i < chunks r → index r * chunks r + i ∈ acked) ∧ ∀ u ∈ j.uncounted, u.1 ≠ index r
    let here (r : Rank) : Prop := (s.teams.find r.team).isSome = true
      ∧ (s.team r.team).body.absent.contains (r.bar / 128) = false
    let ends (i : Instr) (code : Nat) : Prop := ∃ u, exec i s = .next u ∧ u.jobs.find k = none
      ∧ ∀ r, own r → here r → s.barFstate r.team r.bar = 0 → u.barFstate r.team r.bar = code
    let aligned : Prop := ∀ r, own r → r.bar % 16 = 0
    let settles (i : Instr) (acked : List Nat) : Prop := ∃ u, exec i s = .next u ∧ s.sameMemory u
      ∧ ((∀ r, own r → done acked r) → u.jobs.find k = none)
      ∧ ((∃ r, own r ∧ ¬done acked r) → u.jobs.find k = some (.coll { j with acked := acked }))
    ((∀ r ∈ j.ranks, r.got.isSome = true) → j.lost = true ∨ j.broken ≠ [] ∨ j.ranks.length < p →
      ∃ u, exec (.collChunk k chunk order []) s = .next u ∧ s.sameMemory u ∧ u.teams = s.teams
        ∧ u.jobs.find k = some (.coll j))
    ∧ (j.lost = false → j.broken = [] → p ≤ j.ranks.length → j.ranks ≠ [] → (∀ r ∈ j.ranks, r.got.isSome = true) →
      let agree : Prop := ∀ r ∈ j.ranks, ∀ q ∈ j.ranks, r.block.agrees q.block = true
      (¬agree → aligned → ends (.collChunk k chunk order []) 8)
      ∧ (agree → (∀ r ∈ j.ranks, cause r = 0) → chunk ∉ j.sent → ∀ r,
        j.ranks.find? (fun r => r.remote.isNone && (chunks r != 0 && chunk / chunks r == index r)) = some r →
        let b := collBlock r.bytes
        let lo := 262144 * (chunk - index r * chunks r)
        let hi := min (lo + 262144) (total r)
        let data (q : Nat) : List Byte × List Bool :=
          ((j.ranks.find? fun x => rankOf ms x.dev x.core == q).bind Rank.got).getD ([], [])
        let srcs := (List.range p).map data
        ∀ x a obj fr v im pdef, s.pieces r.team b.dst (capOff b.dst + lo) (hi - lo) needW = .ok [x] →
        x.loc = .mem a obj fr v im pdef → (s.team r.team).body.absent.contains (r.bar / 128) = false →
        s.lostHome (s.forwarded a) = false → s.writeBlocked a x.len = none → s.countersLow = true → b.type < 10 →
        ∃ w g ranks', exec (.collChunk k chunk order []) s = .next w
          ∧ w.jobs.find k = some (.coll { j with
            ranks := ranks', sent := j.sent ++ [chunk], uncounted := j.uncounted ++ [(index r, g, hi - lo)] })
          ∧ (b.kind = 3 → ∀ i, i < hi - lo → lo + i < (data b.root).1.length →
            w.mem.byte (s.forwarded a + i) = (data b.root).1.getD (lo + i) 0)
          ∧ (b.kind = 2 → ∀ i, i < hi - lo → lo + i < (srcs.flatMap Prod.fst).length →
            w.mem.byte (s.forwarded a + i) = (srcs.flatMap Prod.fst).getD (lo + i) 0)
          ∧ (b.kind = 0 → ∀ i, let size := collUnit b.type
            let sum := treeValue (collStep b.op b.type) ((List.range p).map fun q =>
              leNat (((data q).1.drop (lo + size * i)).take size)) (orderOf p order)
            lo % size = 0 → size * i + size ≤ hi - lo → ∀ h, h < size →
              w.mem.byte (s.forwarded a + size * i + h) = (leBytes size sum.bits).getD h 0)))
    ∧ ((chunk ∈ j.sent → chunk ∉ j.acked → settles (.collAck k chunk) (j.acked ++ [chunk]))
      ∧ (chunk ∉ j.sent ∨ chunk ∈ j.acked → settles (.collAck k chunk) j.acked))
    ∧ ((j.broken = [] ∨ ∃ m ∈ ms, s.lost m.1 = true) → exec (.collReform k) s = .next s)
    ∧ (j.broken ≠ [] → (∀ m ∈ ms, s.lost m.1 = false) → ∃ u, exec (.collReform k) s = .next u ∧ s.sameMemory u
      ∧ u.teams = s.teams ∧ u.jobs.find k = some (.coll { j with broken := [] }))
    ∧ (((∃ x ∈ ms, x.1 ≠ s.chipno) ∨ j.lost = true) → aligned → (∀ r, own r → capObj (collBlock r.bytes).dst ≠ 0) →
      (∀ r, own r → (s.team r.team).body.windowOf (r.bar / 128) = none) → ends (.linklost k) 10)
    ∧ ((∀ x ∈ ms, x.1 = s.chipno) → j.lost = false → exec (.linklost k) s = .next s)


/-! ## Recovery, links and the rest of the device -/

/-- R331, R332, R338, R346 and R347: a team that consumed an error takes its checkpoint back once what it issued has
completed, and stops its launch the third time, or when it has drained; a request to a home without a route is answered as
failed; a port that fails is taken out of its routes, a failure that is survived is counted once, and when no port is left
the launches that it cuts stop.
Rests on the model's own reading or choice in log entries 24, 44, 59, 63 and 75. -/
def Obligations.RecoveryAndLinks : Prop :=
  ∀ (s : State) (team k port dev : Nat) (T : Team) (L : Launch) (b : Body),
    let alone : Prop := L.ended = false ∧ L.chips = [s.chipno] ∧ ∀ c, L.source ≠ .span c
    let stopped (t : State) : Prop := ∃ M, t.launches.find T.launch = some M
      ∧ M.phase = (if s.owesWrites T.launch then .ending 6 else .done 6) ∧ (t.team team).state = .retired
    (s.teams.find team = some T → T.consumed = true → T.state = .running ∨ T.state = .draining → T.drained = true →
      s.settled team = true → s.launches.find T.launch = some L → alone → L.phase = .running →
      ∃ t, exec (.rollback team) s = .next t ∧ stopped t)
    ∧ (s.teams.find team = some T → T.consumed = true → T.state = .running ∨ T.state = .draining → T.drained = false →
      s.settled team = true →
      (T.rollbacks ≠ 2 → T.shadow = some b → T.shadowLoads = [] →
        ∃ t, exec (.rollback team) s = .next t ∧ s.sameMemory t ∧ (t.team team).consumed = false
          ∧ (t.team team).rollbacks = T.rollbacks + 1 ∧ (t.team team).state = .running ∧ (t.team team).body.stash = b.stash
          ∧ (t.team team).body.tensor = b.tensor ∧ (t.team team).body.windows = b.windows
          ∧ (∀ n ∈ T.recalled, (t.team team).body.absent.contains n = true ∧ (t.team team).body.dirty.contains n = false)
          ∧ ∀ c C, b.crews.find c = some C → let D := t.crew team c
            (∀ n, let F := C.lane n
              let G := D.lane n
              G = { F with state := G.state, age := G.age, waits := G.waits, passes := G.passes }
                ∧ (G.state = F.state ∨ G.state = .ready)) ∧ D.frames = C.frames ∧ D.tickets = [] ∧ D.unacked = t.dueOf team c
              ∧ D.gall = max C.gall (s.crew team c).gall
              ∧ ∀ n e, C.watch.find n = some e → D.watch.find n = some (if e.state = .pending then { e with state := .struck } else e))
      ∧ (T.rollbacks = 2 → s.launches.find T.launch = some L → alone → L.phase = .running →
        ∃ t, exec (.rollback team) s = .next t ∧ stopped t))
    ∧ (∀ w addr data tag, s.msgs.find k = some (.write w addr data tag) → s.lostHome (s.forwarded addr) = true →
      ∃ t stamp perf, exec (.failedAcknowledgement k) s = .next t ∧ t.mem = s.mem ∧ t.teams = s.teams
        ∧ t.msgs.find k = some (.ack w addr data tag 0 0 true stamp perf))
    ∧ (∀ w line data leave, s.msgs.find k = some (.back w line data leave) → s.lostHome (s.forwarded (128 * line)) = true →
      ∃ t perf, exec (.failedAcknowledgement k) s = .next t ∧ t.mem = s.mem ∧ t.teams = s.teams
        ∧ t.msgs.find k = some (.backAck w line data 0 0 true perf))
    ∧ (∀ o line wider pdef parts, s.msgs.find k = some (.atomic o line wider pdef parts) →
      s.lostHome (s.forwarded (128 * line)) = true →
      ∃ t perf, exec (.failedAcknowledgement k) s = .next t ∧ t.mem = s.mem ∧ t.teams = s.teams
        ∧ t.msgs.find k = some (.atomicReply o line wider (parts.map fun p => (p.lane, p.dest, 0, true)) []
          (0, 0) true perf))
    ∧ (dev ≠ s.chipno → dev < 16384 → (port, true) ∈ s.portsOf dev →
      let after := (s.portsOf dev).map fun p => if p.1 = port then (port, false) else p
      ∃ t, exec (.linkFailure port dev) s = .next t ∧ t.portsOf dev = after ∧ (∀ d, d ≠ dev → t.portsOf d = s.portsOf d)
        ∧ (after.any Prod.snd = true → port < 32 →
          (t.bank (48 + port / 8)).ccount = min ((s.bank (48 + port / 8)).ccount + 1) (2 ^ 32 - 1))
        ∧ (after.any Prod.snd = true → t.launches = s.launches ∧ t.teams = s.teams ∧ s.sameMemory t
          ∧ ∀ j x, s.jobs.find j = some (.coll x) → (∃ m ∈ x.members, m.1 = dev) →
            t.jobs.find j = some (.coll { x with broken := x.broken ++ [port] }))
        ∧ (after.any Prod.snd = false → ∀ l M, (l, M) ∈ s.launches → s.launches.find l = some M → M.chips = [s.chipno, dev] →
          M.phase = .running → (∀ c, M.source ≠ .span c) → ∃ N, t.launches.find l = some N
            ∧ (N.phase = .done 6 ∨ N.phase = .ending 6 ∧ t.owesWrites l = true)))

/-- R211, R220, R244, R255, R321 and R346: a flit whose CRC fails changes nothing; another device's write with its marks, its
read, its atomic, its owner fill or its write-back is performed at its home here and answered; its dirty notice and its
leaving are noted; what it recalls goes to it, and what it answers comes home; an IINV of it drops code here and is answered,
and its answer to one of this device is noted; a message of a launch over several chips is taken in; an answer to nothing changes nothing.
Rests on the model's own reading or choice in log entries 21, 22 and 59. -/
def Obligations.LinkFlits : Prop :=
  ∀ (s : State) (m : LinkMsg) (dev addr line lease : Nat) (data : List Byte) (tag : Bool) (tags : List Bool),
    s.outside.errs = [] →
    let f := s.forwarded addr
    let home := s.homeMem (f / 128)
    let owned : Prop := addressed addr = true ∧ isHost addr = false
    let taken (m : LinkMsg) : Prop := exec (.linkFlit true m MemErr.none) s
      = .next { s with linkIn := s.linkIn.put s.next m, next := s.next + 1 }
    exec (.linkFlit false m MemErr.none) s = .next s
    ∧ (owned → addr % 128 + data.length ≤ 128 → s.writeBlocked addr data.length = none → ∀ marks : List Bool,
      let stored := home.storeTagged 5 f data tags
      ∃ t g, exec (.linkFlit true (.write dev addr data tags marks) MemErr.none) s = .next t
        ∧ ((∀ x ∈ marks, x = false) → t.mem = stored) ∧ (∀ z, t.mem.byte z = stored.byte z)
        ∧ (∀ z, t.mem.poisoned z = true ↔ stored.poisoned z = true ∨ ∃ i, marks.getD i false = true ∧ (f + i) / 32 = z)
        ∧ t.linkOut = s.linkOut ++ [(dev, .written dev addr g g)] ∧ s.ftime ≤ g)
    ∧ (∀ size op cmp val, owned → size = 4 ∨ size = 8 → addr % size = 0 → op ≤ 8 → s.writeBlocked addr size = none →
      let old := home.num f size
      ∃ t g, exec (.linkFlit true (.atomic dev addr size op cmp val tag) MemErr.none) s = .next t
        ∧ t.mem = (match if home.poisonOf f size then none
            else atomOp (BitVec.ofNat 3 (min op 7)) (op == 8) size old cmp.toNat val.toNat with
          | some n => home.store f (leBytes size n) tag
          | none => home)
        ∧ t.linkOut = s.linkOut ++ [(dev, .old dev addr (BitVec.ofNat 64 old) (home.tagOf f size) g g)] ∧ s.ftime ≤ g)
    ∧ (s.own (128 * line) = true → s.readBlocked (128 * line) 128 = none →
      let g := s.forwarded (128 * line) / 128
      ∃ t ts marks, exec (.linkFlit true (.read dev line lease) MemErr.none) s = .next t ∧ t.mem = s.readMem g
        ∧ t.linkOut = s.linkOut ++ [(dev, .data dev line (t.mem.bytes (128 * g) 128) ts marks)]
        ∧ ts = (List.range 4).map (fun i => t.mem.tag (4 * g + i)) ∧ marks = (List.range 4).map fun i => t.mem.poisoned (4 * g + i))
    ∧ (s.own (128 * line) = true →
      let g := s.forwarded (128 * line) / 128
      let d := s.dirOf g
      let told (t : State) (l : Nat) : Prop := t.linkOut = s.linkOut ++ [(dev, .data dev line (t.mem.bytes (128 * l) 128)
        ((List.range 4).map fun i => t.mem.tag (4 * l + i)) ((List.range 4).map fun i => t.mem.poisoned (4 * l + i)))]
      let takes (m : LinkMsg) (more : State → Prop) : Prop := ∃ t, exec (.linkFlit true m MemErr.none) s = .next t ∧ more t
      (s.readBlocked (128 * line) 128 = none → takes (.readOnce dev line) fun t => t.mem = s.readMem g ∧ told t g)
      ∧ (∀ core slot, dev ≠ s.chipno → s.writeBlocked (128 * line) 128 = none →
        takes (.ownerFill dev line core slot) fun t => t.mem = s.homeMem g ∧ told t g
          ∧ (t.dirOf g).owner = some { dev := dev, core := core, slot := slot }
          ∧ (t.dirOf g).state = (if d.state = .S ∨ d.state = .O then .S else .E))
      ∧ (∀ core slot, let o : Owner := { dev := dev, core := core, slot := slot }
        (s.migratingLine line = false → d.owner = some o → takes (.dirty dev line core slot) fun t => t.mem = s.mem
          ∧ (t.dirOf g).state = (match d.state with
            | .S => .O
            | .E => .M
            | x => x))
        ∧ (d.owner = some o → takes (.leave dev line core slot) fun t => t.mem = s.mem ∧ (t.dirOf g).owner = none
          ∧ (t.dirOf g).state = (match d.state with
            | .S | .O => .S
            | .E | .M => .I
            | x => x))
        ∧ (d.owner ≠ some o → ∀ m ∈ [LinkMsg.dirty dev line core slot, .leave dev line core slot],
          exec (.linkFlit true m MemErr.none) s = .next s)
        ∧ (s.backBlocked line = none → ∀ tags marks : List Bool,
          takes (.writeBack dev line core slot data tags marks false) fun t =>
            (∀ i, i < 128 → t.mem.byte (128 * g + i) = data.getD i 0)
            ∧ (∀ k, k < 4 → t.mem.poisoned (4 * g + k) = marks.getD k false) ∧ (t.dirOf g).owner = d.owner))
      ∧ ∀ o, (s.dirOf line).owner = some o → o.dev = dev → dev ≠ s.chipno →
        (takes (.recalled dev line true (some (data, [], []))) fun t => (t.dirOf line).owner = none
          ∧ (∀ i, i < 128 → t.mem.byte (128 * line + i) = data.getD i 0) ∧ (line, true) ∉ t.recalls)
        ∧ takes (.recalled dev line false none) fun t => t.mem = s.mem ∧ (t.dirOf line).owner = some o
          ∧ (line, false) ∉ t.recalls)
    ∧ (s.backDue line = false → ∀ forWrite, ∃ t x, exec (.linkFlit true (.recall dev line forWrite) MemErr.none) s = .next t
      ∧ t.mem = (if forWrite then s.homeMem line else s.readMem line)
      ∧ t.linkOut = s.linkOut ++ [(dev, .recalled s.chipno line forWrite x)])
    ∧ (∀ c g x y z a d bs as ts ms cs, taken (.spanBlock c g x d bs as a ts ms cs) ∧ taken (.spanReply c g x y) ∧ taken (.spanStart c g x z)
      ∧ taken (.spanAbort c g x) ∧ taken (.stop c g x) ∧ taken (.stopped c g x))
    ∧ (∀ id ctx obj cores, exec (.linkFlit true (.iinv dev id ctx obj cores) MemErr.none) s
      = .next { s.dropCode ctx obj cores with linkOut := s.linkOut ++ [(dev, .iinvDone s.chipno id)] })
    ∧ (∀ id ds, s.iinvs.find id = some ds → ∃ t, exec (.linkFlit true (.iinvDone dev id) MemErr.none) s = .next t
      ∧ s.sameMemory t ∧ t.iinvs.find id = (if ds.erase dev = [] then none else some (ds.erase dev)))
    ∧ (∀ near all v ts ps, exec (.linkFlit true (.data dev line data ts ps) MemErr.none) s = .next s
      ∧ exec (.linkFlit true (.written dev addr near all) MemErr.none) s = .next s ∧ exec (.linkFlit true (.old dev addr v tag near all) MemErr.none) s = .next s)
    ∧ (∀ ctx sc r, let ms := s.scopeFor ctx r.dev r.core sc r.chips
      inSet ms r.dev r.core = true → r.dev ≠ s.chipno →
      ∃ t k j q, exec (.linkFlit true (.collJoin ctx sc r) MemErr.none) s = .next t ∧ s.sameMemory t
        ∧ t.jobs.find k = some (.coll j) ∧ j.ctx = ctx ∧ j.members = ms ∧ q ∈ j.ranks ∧ q.dev = r.dev ∧ q.core = r.core
        ∧ q.remote = some r ∧ q.got = some (r.data, r.tags))
    ∧ ∀ ctx gen src l L, s.launches.find l = some L → L.ctx = ctx → L.gen.toNat = gen → L.ended = false →
      (∀ j M, (j, M) ∈ s.launches → M.ctx = ctx → M.gen.toNat = gen → M.ended = false → (∀ c, M.source ≠ .span c) →
        (j, M) = (l, L)) →
      L.phase = .running → (∀ c, L.source ≠ .span c) → L.chips = [s.chipno, src] → src ≠ s.chipno →
      (chipTeams L.block L.chips s.chipno).length ≤ L.retired →
      ∃ t M, exec (.linkFlit true (.retired ctx gen src) MemErr.none) s = .next t ∧ t.launches.find l = some M ∧ M.phase = .done 1

/-- R18, R22, R324, R329, R340, R349, R351 and R352: a fatal event stops every team; sensors past their limits lower
their dies' clocks by a step, which stay in their range; the host link's rates and widths; a device reset keeps memory,
boots a bank whose signature verifies and whose SVN is not below the minimum, or holds; an attestation request is answered on the side band, or over DOE while the host link is up.
Rests on the model's own reading or choice in log entries 3, 18, 72, 73, 74, 80 and 96. -/
def Obligations.DeviceEvents : Prop :=
  ∀ (s : State) (dev die mhz gts width : Nat) (req : List Byte),
    let slowed (n : Nat) : Nat := max 1200 (n - 100)
    let shown := s.outside.readings.filter fun v => v.1 < 51
    let stops (t : State) : Prop := t.fatal = true ∧ ∀ k T L, s.teams.find k = some T → s.launches.find T.launch = some L →
      L.ended = false → (t.team k).state = .retired
    let svn (b : Bool) : Nat := (if b then s.fwB else s.fwA).svn
    let boots (b : Bool) : Bool := (if b then s.fwB else s.fwA).valid && Config.signatureOk (if b then s.fwB else s.fwA).image
      && decide (s.minSvn ≤ svn b)
    let marked := s.fwMark.getD s.fwRunB
    let reboots (more : State → Prop) : Prop := ∃ t, exec (.deviceReset dev) s = .next t ∧ t.mem = s.mem ∧ t.ftime = s.ftime
      ∧ t.chipno = dev ∧ t.teams = [] ∧ t.launches = [] ∧ t.cores = State.reset.cores ∧ t.ctxs = State.reset.ctxs ∧ t.msgs = []
      ∧ t.jobs = [] ∧ t.dir = [] ∧ t.fatal = false ∧ t.split = false ∧ t.routes = s.routes ∧ t.answers = s.answers ∧ t.fwA = s.fwA ∧ t.fwB = s.fwB ∧ more t
    (∃ t, exec .d2dFail s = .next t ∧ stops t ∧ t.split = true) ∧ (dev < 16384 → ∃ t, exec (.ftimeSync dev) s = .next t ∧ stops t)
    ∧ (16384 ≤ dev → exec (.ftimeSync dev) s = .next s ∧ exec (.deviceReset dev) s = .next s)
    ∧ (∀ n, let i : Instr := .sensorSample [n]
      (n < 51 → ∃ t, exec i s = .next t ∧ s.sameMemory t ∧ t.teams = s.teams ∧ t.hot = [n] ∧ t.sensors = shown ∧ t.logNext = s.logNext + 1
        ∧ t.clkA = (if n < 16 ∨ n = 32 ∨ (34 ≤ n ∧ n < 42) ∨ n = 50 then slowed s.clkA else s.clkA)
        ∧ t.clkB = (if (16 ≤ n ∧ n < 32) ∨ n = 33 ∨ (42 ≤ n ∧ n < 50) ∨ n = 50 then slowed s.clkB else s.clkB))
      ∧ (51 ≤ n → exec i s = .next { s with hot := [], sensors := shown }))
    ∧ exec (.sensorSample []) s = .next { s with hot := [], sensors := shown }
    ∧ exec (.clockChange die mhz) s = .next (if 1200 ≤ mhz ∧ mhz ≤ 3600 ∧ mhz % 100 = 0 then
        (if die = 0 then { s with clkA := mhz } else if die = 1 then { s with clkB := mhz } else s) else s)
    ∧ (gts ∈ [128, 64, 32, 16, 8, 5, 2] → width ∈ [16, 8, 4, 2, 1] →
      ∃ t, exec (.hostLinkTrain gts width) s = .next t ∧ t.hostUp = true ∧ t.hostRate = gts ∧ t.hostWidth = width
        ∧ ((∀ c X, (c, X) ∈ s.ctxs → ∀ q Q, (q, Q) ∈ X.queues → Q.en = false ∨ Q.held = []) →
          t = { s with hostUp := true, hostRate := gts, hostWidth := width }))
    ∧ exec .hostLinkDown s = .next { s with hostUp := false }
    ∧ (dev < 16384 → (boots marked = true → reboots fun t => t.held = false ∧ t.fwRunB = marked ∧ t.minSvn
        = (if s.fwMark.isSome then max s.minSvn (svn marked) else s.minSvn))
      ∧ (boots marked = false → boots (!marked) = true →
        reboots fun t => t.held = false ∧ t.fwRunB = !marked ∧ t.minSvn = s.minSvn)
      ∧ (boots marked = false → boots (!marked) = false →
        reboots fun t => t.held = true ∧ t.minSvn = s.minSvn))
    ∧ ∃ reply, let i : Instr := .spdmRequest req
      (s.outside.doe = false → exec i s = .next { s with sideband := s.sideband ++ [reply] })
      ∧ (s.outside.doe = true → s.hostUp = true →
        exec i s = .next { s with answers := s.answers ++ [(.host, .response reply)] })
      ∧ (s.outside.doe = true → s.hostUp = false → exec i s = .next s)


/-! ## The driver mailbox -/

/-- R208, R230, R262, R342 to R345, R348, R350 and R351: each command ends with its result, having had its effect, unless it
must wait at a home or for launches that stop; one that its asker may not give ends with DENIED, one on a context in the wrong state with BADSTATE, one with an operand out
of range with BADPARAM.
Rests on the model's own reading or choice in log entries 68, 69, 70, 72, 79 and 96. -/
def Obligations.MailboxCommands : Prop :=
  ∀ (s : State), s.mailbox.busy = true →
    let op := fieldOf s.mailbox.req 0 1
    let c := fieldOf s.mailbox.req 1 1
    let X := s.ctx c
    let arg (off n : Nat) : Nat := fieldOf s.mailbox.req off n
    let ends (t : State) (result : Nat) : Prop := t.mailbox = { s.mailbox with busy := false, result := result }
    let only (i : Instr) (result : Nat) : Prop := exec i s = .next { s with mailbox := { s.mailbox with busy := false, result := result } }
    let events : List (Nat × Instr) := [(1, .create), (2, .updateOt), (3, .updateScope), (5, .kill), (6, .reset),
      (7, .fwStage), (8, .fwActivate), (9, .logRead)]
    let allowed : Prop := s.mayCommand 1 s.mailbox.asker = true
    let host (a : Nat) : Nat := 2 ^ 57 + a
    (s.held = true → exec .moveFrame s = .next s ∧ ∀ x ∈ events, exec x.2 s = .next s)
    ∧ (s.held = false → (∀ x ∈ events, op = x.1 → s.mayCommand 1 s.mailbox.asker = false → ∃ t, exec x.2 s = .next t ∧ ends t 4 ∧ s.sameMemory t)
    ∧ (∀ x ∈ events, op ≠ x.1 → (op ≠ 0 ∧ op ≤ 9) → exec x.2 s = .next s)
    ∧ (op = 0 ∨ 9 < op → only .create 2)
    ∧ (allowed →
      (op = 1 → (64 ≤ c → only .create 2) ∧ (c < 64 → X.state ≠ .free → only .create 1)
        ∧ (c < 64 → X.state = .free →
          let a := arg 8 8
          (inDomain a 256 = false → only .create 2)
          ∧ (inDomain a 256 = true →
            (∀ u, s.readPieces (linePieces 4 a 256) = .wait u → exec .create s = .next u)
            ∧ ∀ u b, s.readPieces (linePieces 4 a 256) = .ok u b →
              let field (off n : Nat) : Nat := fieldOf b.data off n
              let r := X.described b.data
              let e := (u.setCtx c r.1).objEntry c 1
              let shadow : Prop := r.1.classen.getLsbD 1 = true ∨ (e.valid = true ∧ 2 ^ 20 ≤ e.length ∧ e.rights &&& 12 = 12)
              let table := u.readPieces (linePieces 4 (r.1.scope + 56) 200)
              (r.2 = false ∨ ¬shadow → ∃ t, exec .create s = .next t ∧ ends t 2 ∧ t.ctx c = X)
              ∧ (r.2 = true → shadow → (∀ v, table = .wait v → exec .create s = .next v)
                ∧ ∀ v b', table = .ok v b' →
                  let x := (v.setCtx c r.1).setScopes c ((List.range 25).map fun i => (7 + i, BitVec.ofNat 64 (fieldOf b'.data (8 * i) 8)))
                  (x.2 = true → ∃ t, exec .create s = .next t ∧ t.mailbox = s.mailbox ∧ t.ctx c = X)
                  ∧ (x.2 = false → ∃ t, exec .create s = .next t ∧ ends t 0 ∧ t.mem = x.1.mem
                    ∧ let Y := t.ctx c
                      Y.state = .active ∧ Y.otab = field 0 8 ∧ Y.otsize = field 8 4 ∧ Y.save = field 16 8
                        ∧ Y.savelen = field 24 8 ∧ Y.scope = field 32 8 ∧ Y.steer = false ∧ Y.lease = 256 ∧ Y.scopes = (x.1.ctx c).scopes
                        ∧ ∀ i, i < 320 → (i ∈ Y.allot ↔ (field 56 40).testBit i = true))))))
      ∧ (op = 2 → (64 ≤ c → only .updateOt 2) ∧ (c < 64 → X.state ≠ .active → only .updateOt 1)
        ∧ (c < 64 → X.state = .active →
          let obj := arg 8 4
          let at' := X.otab + 32 * obj
          (obj = 0 ∨ X.otsize ≤ obj → only .updateOt 2)
          ∧ (obj ≠ 0 → obj < X.otsize → ∀ u, s.writesBlocked (linePieces 2 at' 32) = some u → exec .updateOt s = .next u)
          ∧ (obj ≠ 0 → obj < X.otsize → s.motion = none → X.otab % 32 = 0 → s.writesBlocked (linePieces 2 at' 32) = none →
            ∃ t, exec .updateOt s = .next t ∧ ends t 0
            ∧ t.mem.bytes at' 32 = s.mem.bytes (host (arg 12 8)) 32
            ∧ ∀ z, z < at' ∨ at' + 32 ≤ z → t.mem.byte z = (s.homeMem (at' / 128)).byte z)))
      ∧ (op = 3 → (64 ≤ c → only .updateScope 2) ∧ (c < 64 → X.state ≠ .active → only .updateScope 1)
        ∧ (c < 64 → X.state = .active →
          let e := arg 8 1
          let cap := arg 9 8
          let pieces := linePieces 2 (X.scope + 8 * e) 8
          let x := s.setScope c e (BitVec.ofNat 64 cap)
          (e < 7 ∨ 31 < e → only .updateScope 2)
          ∧ (7 ≤ e → e ≤ 31 → ∀ u, s.writesBlocked pieces = some u → exec .updateScope s = .next u)
          ∧ (7 ≤ e → e ≤ 31 → s.writesBlocked pieces = none → x.2 = true → exec .updateScope s = .next x.1)
          ∧ (7 ≤ e → e ≤ 31 → s.writesBlocked pieces = none → x.2 = false → s.motion = none →
            ∃ t, exec .updateScope s = .next t ∧ ends t 0
            ∧ t.mem.num (X.scope + 8 * e) 8 = cap ∧ (cap = 0 → (t.ctx c).scopes.find e = none)
            ∧ (∀ u y, s.deriveScope c (BitVec.ofNat 64 cap) = .entry u y → (t.ctx c).scopes.find e = y)
            ∧ ∀ j, j ≠ e → (t.ctx c).scopes.find j = X.scopes.find j)))
      ∧ (op = 4 → s.motion = none →
        (64 ≤ c → only .moveFrame 2) ∧ (c < 64 → X.state ≠ .active → only .moveFrame 1)
        ∧ (c < 64 → X.state = .active →
          let obj := arg 8 4
          let i := arg 12 4
          let loc := arg 16 8
          let e := s.objEntry c obj
          ((obj = 0 ∨ e.valid = false ∨ (X.diag = true ∧ obj = 3) ∨ e.length ≤ 2097152 * i ∨ 2 ^ 36 ≤ loc) → only .moveFrame 2)
          ∧ (∀ src dst fv fw, obj ≠ 0 → e.valid = true → ¬(X.diag = true ∧ obj = 3) → 2097152 * i < e.length → loc < 2 ^ 36 →
            frameOf (s.frameWord e i) = (.mem src, fv) → frameOf (BitVec.ofNat 64 (2 ^ 62 + loc)) = (.mem dst, fw) →
            (isHost src = true ∨ src = dst → only .moveFrame 2)
            ∧ (isHost src = false → src ≠ dst →
              let m : Motion := { ctx := c, obj := obj, frame := i, src := src, dst := dst, loc := loc, word := s.frameWord e i
                                  place := e.extents + 8 * i, all := true, snap := [], bits := [], rounds := 0, frozen := false, migrating := [] }
              exec .moveFrame s = .next { s with motion := some m }))))
      ∧ (op = 5 → (64 ≤ c → only .kill 2) ∧ (c < 64 → X.state = .faulted → only .kill 0)
        ∧ (c < 64 → X.state ≠ .faulted → X.state ≠ .active → only .kill 1)
        ∧ (c < 64 → X.state = .active → ∃ t, exec .kill s = .next t ∧ ends t 0 ∧ (t.ctx c).state = .active
          ∧ (∀ q, ∃ more, ((t.ctx c).queue q).held = (X.queue q).held.map heldKilled ++ more)
          ∧ ∀ l L, s.launches.find l = some L → L.ctx = c → L.ended = false → L.chips = [s.chipno] → (∀ d, L.source ≠ .span d) →
            (∀ w d st, L.phase ≠ .stopping w d st) →
            (∃ M, t.launches.find l = some M ∧ (M.phase = .done 7 ∨ M.phase = .ending 7)
              ∧ (s.owesWrites l = true → M.phase = .ending 7)
              ∧ (M.phase = .ending 7 → t.owesWrites l = true ∨ ∃ st, L.phase = .ending st))
              ∧ ∀ k T, s.teams.find k = some T → T.launch = l → (t.team k).state = .retired))
      ∧ (op = 6 → (64 ≤ c → only .reset 2) ∧ (c < 64 → X.state = .free → only .reset 1)
        ∧ (c < 64 → (X.state = .active → (∃ x ∈ s.launches, x.2.ctx = c ∧ x.2.ended = false) → only .reset 1)
          ∧ (X.state = .faulted ∨ (X.state = .active ∧ ∀ x ∈ s.launches, x.2.ctx = c → x.2.ended = true) → ∃ t, exec .reset s = .next t ∧ t.mailbox = s.mailbox
            ∧ (t.ctx c).state = .resetting ∧ ∀ d, d ≠ c → t.ctx d = s.ctx d))
        ∧ (c < 64 → X.state = .resetting → (∃ x ∈ s.launches, x.2.ctx = c ∧ x.2.ended = false) → exec .reset s = .next s)
        ∧ (c < 64 → X.state = .resetting → (∀ x ∈ s.launches, x.2.ctx = c → x.2.ended = true) → ∃ t, exec .reset s = .next t ∧ ends t 0 ∧ t.ctx c = { msix := X.msix }
          ∧ (∀ d, d ≠ c → t.ctx d = s.ctx d) ∧ (∀ x ∈ t.counters, x.ctx ≠ c) ∧ s.sameMemory t))
      ∧ (op = 7 →
        let n := arg 16 8
        let image := s.mem.bytes (host (arg 8 8)) n
        let firmware : Firmware := { image := image, svn := leNat (image.take 4), valid := true }
        (s.mayCommand 4 s.mailbox.asker = false → ∃ t, exec .fwStage s = .next t ∧ ends t 4 ∧ t.fwA = s.fwA ∧ t.fwB = s.fwB)
        ∧ (s.mayCommand 4 s.mailbox.asker = true → (n < 4 ∨ 2 ^ 32 ≤ n → only .fwStage 2)
          ∧ (4 ≤ n → n < 2 ^ 32 → (Config.signatureOk image = false → only .fwStage 5)
            ∧ (Config.signatureOk image = true → leNat (image.take 4) < s.minSvn → only .fwStage 4)
            ∧ (Config.signatureOk image = true → s.minSvn ≤ leNat (image.take 4) → ∃ t, exec .fwStage s = .next t ∧ ends t 0
              ∧ t.fwA = (if s.fwRunB then firmware else s.fwA) ∧ t.fwB = (if s.fwRunB then s.fwB else firmware)
              ∧ t.fwRunB = s.fwRunB ∧ t.teams = s.teams))))
      ∧ (op = 8 → s.mayCommand 4 s.mailbox.asker = true →
        let spare := if s.fwRunB then s.fwA else s.fwB
        (spare.valid = false → only .fwActivate 1)
        ∧ (spare.valid = true → ∃ t, exec .fwActivate s = .next t ∧ ends t 0 ∧ t.fwMark = some (!s.fwRunB)
          ∧ t.fwRunB = s.fwRunB))
      ∧ (op = 9 → (s.rightsOf 3 (Master.code s.mailbox.asker)).getLsbD 2 = true →
        let i := arg 8 8
        let n := arg 24 4
        let first := (s.log.head?.map LogRecord.index).getD s.logNext
        (i < first ∨ s.logNext < i + n → only .logRead 2)
        ∧ (first ≤ i → i + n ≤ s.logNext → n = 1 → ∀ r, s.log[i - first]? = some r → ∃ t, exec .logRead s = .next t ∧ ends t 0
          ∧ t.log = s.log ∧ t.mem.num (host (arg 16 8)) 8 = r.index % 2 ^ 64 ∧ t.mem.num (host (arg 16 8) + 8) 8 = r.ftime % 2 ^ 64))))


/-! ## Decoding, reset and the step -/

/-- R3 and R55 to R77: every well-formed instruction is read back from its word, with every operand, and every word that
the decoder accepts is that instruction's. -/
def Obligations.RoundTrip : Prop :=
  (∀ (i : Instr) (w : Word), i.wf = true → i.word? = some w → decode w = .ok i ∧ decodeBytes (wordBytes w) = some (.ok i, []))
  ∧ ∀ (i : Instr) (w : Word), decode w = .ok i → i.wf = true ∧ i.word? = some w

/-- Words written out in the manual's entries of the instructions are read as those instructions (R354, R356, R364, R367,
R357, R376, R377, R380, R410, R387, R411, R363, R389, R302, R393, R418, R394, R239, R427, R422, R384, R303, R62); a word
of major 0x3F, one of a reserved major, one whose function is undefined, and one with a reserved bit set are none. -/
def Obligations.DecodedWords : Prop :=
  (∀ x ∈ ([(0x04018416, .add 6 4 5 true false), (0x045B2DB8, .mad 44 45 46 false false), (0x07318414, .sel 3 6 4 5 false false),
     (0x08F10620, .remz true 4 6 8 false false), (0x08910828, .capn 4 8 10 false false), (0x091094FC, .cmpw 0 true 2 20 63 false false),
     (0x11967FFE, .addi 25 25 0x1FFF false), (0x14413FE0, .andi 4 4 0x1FF0 false), (0x2CAA0002, .cmpi 5 40 1 false),
     (0x34D20A30, .fma 1 8 10 12 false false), (0x36804414, .fcmp 2 0 1 4 5 false false), (0x38759280, .fcvt 7 22 18 8 false),
     (0x39921014, .qpack 2 true 8 16 5 false false), (0x3C920A00, .fsqrt true 8 10 false), (0x40338F00, .qnot 14 15),
     (0x44618300, .ballot 6 3), (0x48181818, .redadd 1 32 24 6 false), (0x52FFFFFD, .brn 7 0x1FFFFD),
     (0x58000C02, .jmpi 12 true), (0x58800000, .eret), (0x603182FE, .ld 3 6 2 0x7F false),
     (0x6C619380, .ldacq 3 false 25 14), (0x74BC6088, .atcas true 5 6 2 8), (0x78510602, .stmap 4 6 2),
     (0x7C1FFFFD, .wchk 0x1FFFFD), (0x8410860A, .strm 2 6 10), (0x8C120003, .launcht 8 3),
     (0x90128031, .ssr 10 0x31), (0xF8048D15, .limm 0x48D15), (0xF84E8000, .guard 3 true 2),
     (0xF8C00010, .rnd 2 false 0)] :
      List (Word × Instr)), decode x.1 = .ok x.2)
  ∧ decode 0xFC000000 = .error .softwareMajor ∧ decode 0xA0010518 = .error .reservedMajor
  ∧ decode 0x58900000 = .error .undefinedFunction ∧ decode 0x58800001 = .error .reservedField

/-- R184, R327, R344, R348 and R84: right after reset no context, launch, team or operation exists; memory lists nothing;
every queue register is 0; every bank is clear with KSIG and CLOG set; the access tables hold their boot values; and a
fibre that starts has the state of R84.
Rests on the model's own reading or choice in log entries 4 and 8. -/
def Obligations.ResetValues : Prop :=
  let s := State.reset
  s.mem = Mem.empty ∧ s.mem.wf = true ∧ (∀ a, s.mem.byte a = 0 ∧ s.mem.tag a = false ∧ s.mem.poisoned a = false)
  ∧ s.launches = [] ∧ s.teams = [] ∧ s.msgs = [] ∧ s.jobs = [] ∧ s.records = [] ∧ s.motion = none ∧ s.fatal = false
  ∧ s.log = [] ∧ s.mailbox.busy = false ∧ s.answers = [] ∧ s.split = false ∧ s.sensors = []
  ∧ (∀ c, (s.ctx c).state = .free ∧ (s.ctx c).steer = false ∧ (s.ctx c).lease = 256)
  ∧ (∀ c q, let Q := (s.ctx c).queue q
    Q.ring = 0 ∧ Q.cpl = 0 ∧ Q.en = false ∧ Q.irq = false ∧ Q.log2n = 0 ∧ Q.qprio = 0 ∧ Q.tail = 0 ∧ Q.head = 0)
  ∧ (∀ b, s.bank b = { status := 0, addr := 0, info := 0, ctl := 0b101, ccount := 0, kcount := 0, fcount := 0 })
  ∧ (∀ c, (s.core c).cycle = 0 ∧ (s.core c).mats = [] ∧ (s.core c).icache = [] ∧ (s.core c).roles = none ∧ (s.core c).offline = false)
  ∧ (List.range 6).map (fun b => (List.range 7).map fun m => (s.rightsOf b m).toNat)
    = [[0, 6, 0, 7, 0, 0, 4], [7, 0, 0, 7, 0, 0, 0], [6, 0, 4, 7, 4, 0, 4], [4, 0, 4, 7, 0, 0, 4], [1, 0, 1, 7, 0, 0, 0],
       [4, 0, 4, 6, 0, 0, 4]]
  ∧ ∀ pc mode en frozen age, let L := Lane.start {} pc mode en false frozen age
    L.pc = pc ∧ L.wbase = 0 ∧ L.taint = false ∧ L.fstat = 0 ∧ L.fmode = mode ∧ L.ftrapen = en ∧ L.streams = [] ∧ L.guard = none
      ∧ L.gtag = false ∧ (∀ q, L.q q = (q == 15) ∧ L.qt q = false) ∧ ∀ n, L.reg n = { val := 0, tag := false, full := true }

/-- R63, R165, R167, R188, R199 and R306: the step of a core's turn runs the instruction that the words at its selected braid's PC
decode to, as the unit's first word, or the next word of the unit the braid is in; before it the braid's counts reset,
unless it finds a source empty (R198), and its fibres note where the unit begins; after it the crew's braids form anew. The other turns: an event runs as
itself, a word never as an event; then what is no row of the table happens. After every turn the launches whose last
writes are performed end (R188), and beside a word that issued another crew's braid at the same PC may issue (R167).
Rests on the model's own reading or choice in log entries 5, 10, 34, 81, 83 and 84. -/
def Obligations.StepRunsDecoded : Prop :=
  ∀ (s : State) (r : List Turn),
    let s0 : State := { s with agenda := r }
    let ends (u : Result) : Result := match u with
      | .next t => .next t.settleEnding
      | x => x
    (∀ ns, s.agenda = .advance ns :: r → step s = ends (.next { s0 with ftime := s.ftime + ns }))
    ∧ (∀ i, s.agenda = .event i :: r → i.word? = none → (∀ c w n, i ≠ .emulationVector c w n) → step s = ends (exec i s0))
    ∧ (∀ i w, s.agenda = .event i :: r → i.word? = some w → step s = ends (.next s0))
    ∧ (∀ a, s.agenda = .act a :: r → step s = ends (.next (s0.perform a)))
    ∧ ∀ c q R, s.agenda = .core c :: r → (s.core c).regroupDue = false → s.upsets = [] →
      s0.pick c 4 (s.core c).quadrant = some (q, R) →
      let B := R.braid
      let cycle := (s.core (s.team R.team).core).cycle
      let s1 := s0.updCrew R.team R.crew fun C => C.counted B cycle
      let at' (unit : List Word) : State := { s1 with cur := { team := R.team, crew := R.crew, lanes := B.lanes, unit := unit } }
      let settled (u : Result) : Result := ends (s0.afterWinner c q R (match u with
        | .next t => .next ((t.afterWord R.team R.crew B cycle true).uncounted R.team R.crew (s0.crew R.team R.crew))
        | x => x))
      (∀ i, B.midUnit = true → decode (B.unit.getD B.issued 0) = .ok i → step s = settled (exec i (at' B.unit)))
      ∧ ∀ ws i, B.midUnit = false →
        let s2 := (at' []).mapLanes B.lanes fun _ L => { L with ustart := L.pc, guard0 := L.guard, hints := {} }
        s2.fetchUnit R.team 7 (s2.curLane (B.lanes.headD 0)).pc [] = .got ws →
        unitFate (s2.ctx (s2.teamCtx R.team)).classen (B.lanes.map fun l => (s2.curLane l).guard) ws = none →
        decode (ws.headD 0) = .ok i →
        let s3 : State := { s2 with cur := { s2.cur with unit := ws } }
        step s = settled (exec i (s3.setCurCrew { s3.curCrew with
          braids := s3.curCrew.braids.map fun b => if b.lanes = B.lanes then { b with unit := ws, issued := 0 } else b }))

/-- Every instruction and every event answers a next state: what the manual calls a fault is a trap, which is a next state
(R295), or a machine check (R324).
Rests on the model's own reading or choice in log entry 9. -/
def Obligations.EveryStepAnswersNext : Prop :=
  (∀ (i : Instr) (s : State), ∃ t, exec i s = .next t) ∧ ∀ s : State, ∃ t, step s = .next t

/-- R106, R210 and R321: memory keeps its one form, addresses and sectors rising and no byte listed that reads as an
unlisted one, under every step.
Rests on the model's own reading or choice in log entry 8. -/
def Obligations.MemoryForm : Prop :=
  ∀ (s t : State), s.mem.wf = true → step s = .next t → t.mem.wf = true
end

