-- ==== Sys2Proof/Laws/Exec.lean ====
section
/-! SUPPORT. The meaning that each arm of `exec` calls, one equation per instruction. -/

namespace Sys2Proof.Machine

open Sys2Proof

/-- An engine that meets no physical error goes on as it is. -/
@[simp] theorem State.meet_nil (s : State) (lines : List Nat) : s.meet [] lines = s := rfl

theorem exec_add (d : RegF) (a : RegF) (b : RegF) (p : Bool) (q : Bool) (s : State) :
    exec (.add d a b p q) s = execAdd d a b p q s := rfl
theorem exec_sub (d : RegF) (a : RegF) (b : RegF) (p : Bool) (q : Bool) (s : State) :
    exec (.sub d a b p q) s = execSub d a b p q s := rfl
theorem exec_mul (d : RegF) (a : RegF) (b : RegF) (p : Bool) (q : Bool) (s : State) :
    exec (.mul d a b p q) s = execMul d a b p q s := rfl
theorem exec_mulh (d : RegF) (a : RegF) (b : RegF) (p : Bool) (q : Bool) (s : State) :
    exec (.mulh d a b p q) s = execMulh d a b p q s := rfl
theorem exec_mulhz (d : RegF) (a : RegF) (b : RegF) (p : Bool) (q : Bool) (s : State) :
    exec (.mulhz d a b p q) s = execMulhz d a b p q s := rfl
theorem exec_mad (d : RegF) (a : RegF) (b : RegF) (p : Bool) (q : Bool) (s : State) :
    exec (.mad d a b p q) s = execMad d a b p q s := rfl
theorem exec_and (d : RegF) (a : RegF) (b : RegF) (p : Bool) (q : Bool) (s : State) :
    exec (.and d a b p q) s = execAnd d a b p q s := rfl
theorem exec_or (d : RegF) (a : RegF) (b : RegF) (p : Bool) (q : Bool) (s : State) :
    exec (.or d a b p q) s = execOr d a b p q s := rfl
theorem exec_xor (d : RegF) (a : RegF) (b : RegF) (p : Bool) (q : Bool) (s : State) :
    exec (.xor d a b p q) s = execXor d a b p q s := rfl
theorem exec_andn (d : RegF) (a : RegF) (b : RegF) (p : Bool) (q : Bool) (s : State) :
    exec (.andn d a b p q) s = execAndn d a b p q s := rfl
theorem exec_shl (d : RegF) (a : RegF) (b : RegF) (p : Bool) (q : Bool) (s : State) :
    exec (.shl d a b p q) s = execShl d a b p q s := rfl
theorem exec_shr (d : RegF) (a : RegF) (b : RegF) (p : Bool) (q : Bool) (s : State) :
    exec (.shr d a b p q) s = execShr d a b p q s := rfl
theorem exec_shra (d : RegF) (a : RegF) (b : RegF) (p : Bool) (q : Bool) (s : State) :
    exec (.shra d a b p q) s = execShra d a b p q s := rfl
theorem exec_rot (d : RegF) (a : RegF) (b : RegF) (p : Bool) (q : Bool) (s : State) :
    exec (.rot d a b p q) s = execRot d a b p q s := rfl
theorem exec_min (d : RegF) (a : RegF) (b : RegF) (p : Bool) (q : Bool) (s : State) :
    exec (.min d a b p q) s = execMin d a b p q s := rfl
theorem exec_max (d : RegF) (a : RegF) (b : RegF) (p : Bool) (q : Bool) (s : State) :
    exec (.max d a b p q) s = execMax d a b p q s := rfl
theorem exec_minz (d : RegF) (a : RegF) (b : RegF) (p : Bool) (q : Bool) (s : State) :
    exec (.minz d a b p q) s = execMinz d a b p q s := rfl
theorem exec_maxz (d : RegF) (a : RegF) (b : RegF) (p : Bool) (q : Bool) (s : State) :
    exec (.maxz d a b p q) s = execMaxz d a b p q s := rfl
theorem exec_abs (d : RegF) (a : RegF) (p : Bool) (s : State) :
    exec (.abs d a p) s = execAbs d a p s := rfl
theorem exec_popc (d : RegF) (a : RegF) (p : Bool) (s : State) :
    exec (.popc d a p) s = execPopc d a p s := rfl
theorem exec_clz (d : RegF) (a : RegF) (p : Bool) (s : State) :
    exec (.clz d a p) s = execClz d a p s := rfl
theorem exec_brev (d : RegF) (a : RegF) (p : Bool) (s : State) :
    exec (.brev d a p) s = execBrev d a p s := rfl
theorem exec_bfx (d : RegF) (a : RegF) (b : RegF) (p : Bool) (q : Bool) (s : State) :
    exec (.bfx d a b p q) s = execBfx d a b p q s := rfl
theorem exec_bfi (d : RegF) (a : RegF) (b : RegF) (p : Bool) (q : Bool) (s : State) :
    exec (.bfi d a b p q) s = execBfi d a b p q s := rfl
theorem exec_sel (n : PredF) (d : RegF) (a : RegF) (b : RegF) (p : Bool) (q : Bool) (s : State) :
    exec (.sel n d a b p q) s = execSel n d a b p q s := rfl
theorem exec_addw (d : RegF) (a : RegF) (b : RegF) (p : Bool) (q : Bool) (s : State) :
    exec (.addw d a b p q) s = execAddw d a b p q s := rfl
theorem exec_subw (d : RegF) (a : RegF) (b : RegF) (p : Bool) (q : Bool) (s : State) :
    exec (.subw d a b p q) s = execSubw d a b p q s := rfl
theorem exec_shlw (d : RegF) (a : RegF) (b : RegF) (p : Bool) (q : Bool) (s : State) :
    exec (.shlw d a b p q) s = execShlw d a b p q s := rfl
theorem exec_shrw (d : RegF) (a : RegF) (b : RegF) (p : Bool) (q : Bool) (s : State) :
    exec (.shrw d a b p q) s = execShrw d a b p q s := rfl
theorem exec_divs (w : Bool) (d : RegF) (a : RegF) (b : RegF) (p : Bool) (q : Bool) (s : State) :
    exec (.divs w d a b p q) s = execDivs w d a b p q s := rfl
theorem exec_divz (w : Bool) (d : RegF) (a : RegF) (b : RegF) (p : Bool) (q : Bool) (s : State) :
    exec (.divz w d a b p q) s = execDivz w d a b p q s := rfl
theorem exec_rems (w : Bool) (d : RegF) (a : RegF) (b : RegF) (p : Bool) (q : Bool) (s : State) :
    exec (.rems w d a b p q) s = execRems w d a b p q s := rfl
theorem exec_remz (w : Bool) (d : RegF) (a : RegF) (b : RegF) (p : Bool) (q : Bool) (s : State) :
    exec (.remz w d a b p q) s = execRemz w d a b p q s := rfl
theorem exec_cadd (d : RegF) (a : RegF) (b : RegF) (p : Bool) (q : Bool) (s : State) :
    exec (.cadd d a b p q) s = execCadd d a b p q s := rfl
theorem exec_capn (d : RegF) (a : RegF) (b : RegF) (p : Bool) (q : Bool) (s : State) :
    exec (.capn d a b p q) s = execCapn d a b p q s := rfl
theorem exec_capb (d : RegF) (a : RegF) (b : RegF) (p : Bool) (q : Bool) (s : State) :
    exec (.capb d a b p q) s = execCapb d a b p q s := rfl
theorem exec_cmpw (c : BitVec 3) (u : Bool) (d : PredF) (a : RegF) (b : RegF) (p : Bool) (q : Bool) (s : State) :
    exec (.cmpw c u d a b p q) s = execCmpw c u d a b p q s := rfl
theorem exec_cmp (c : BitVec 3) (u : Bool) (d : PredF) (a : RegF) (b : RegF) (p : Bool) (q : Bool) (s : State) :
    exec (.cmp c u d a b p q) s = execCmp c u d a b p q s := rfl
theorem exec_addi (d : RegF) (a : RegF) (ix : BitVec 13) (p : Bool) (s : State) :
    exec (.addi d a ix p) s = execAddi d a ix p s := rfl
theorem exec_andi (d : RegF) (a : RegF) (ix : BitVec 13) (p : Bool) (s : State) :
    exec (.andi d a ix p) s = execAndi d a ix p s := rfl
theorem exec_ori (d : RegF) (a : RegF) (ix : BitVec 13) (p : Bool) (s : State) :
    exec (.ori d a ix p) s = execOri d a ix p s := rfl
theorem exec_xori (d : RegF) (a : RegF) (ix : BitVec 13) (p : Bool) (s : State) :
    exec (.xori d a ix p) s = execXori d a ix p s := rfl
theorem exec_shli (d : RegF) (a : RegF) (n : BitVec 5) (p : Bool) (s : State) :
    exec (.shli d a n p) s = execShli d a n p s := rfl
theorem exec_shri (d : RegF) (a : RegF) (n : BitVec 5) (p : Bool) (s : State) :
    exec (.shri d a n p) s = execShri d a n p s := rfl
theorem exec_shrai (d : RegF) (a : RegF) (n : BitVec 5) (p : Bool) (s : State) :
    exec (.shrai d a n p) s = execShrai d a n p s := rfl
theorem exec_cmpi (n : BitVec 3) (a : RegF) (ix : BitVec 13) (p : Bool) (s : State) :
    exec (.cmpi n a ix p) s = execCmpi n a ix p s := rfl
theorem exec_movi (d : RegF) (ix : BitVec 13) (s : State) :
    exec (.movi d ix) s = execMovi d ix s := rfl
theorem exec_fadd (t : BitVec 2) (d : RegF) (a : RegF) (b : RegF) (p : Bool) (q : Bool) (s : State) :
    exec (.fadd t d a b p q) s = execFadd t d a b p q s := rfl
theorem exec_fsub (t : BitVec 2) (d : RegF) (a : RegF) (b : RegF) (p : Bool) (q : Bool) (s : State) :
    exec (.fsub t d a b p q) s = execFsub t d a b p q s := rfl
theorem exec_fmul (t : BitVec 2) (d : RegF) (a : RegF) (b : RegF) (p : Bool) (q : Bool) (s : State) :
    exec (.fmul t d a b p q) s = execFmul t d a b p q s := rfl
theorem exec_fma (t : BitVec 2) (d : RegF) (a : RegF) (b : RegF) (p : Bool) (q : Bool) (s : State) :
    exec (.fma t d a b p q) s = execFma t d a b p q s := rfl
theorem exec_fmin (t : BitVec 2) (d : RegF) (a : RegF) (b : RegF) (p : Bool) (q : Bool) (s : State) :
    exec (.fmin t d a b p q) s = execFmin t d a b p q s := rfl
theorem exec_fmax (t : BitVec 2) (d : RegF) (a : RegF) (b : RegF) (p : Bool) (q : Bool) (s : State) :
    exec (.fmax t d a b p q) s = execFmax t d a b p q s := rfl
theorem exec_fabs (t : BitVec 2) (d : RegF) (a : RegF) (p : Bool) (s : State) :
    exec (.fabs t d a p) s = execFabs t d a p s := rfl
theorem exec_fneg (t : BitVec 2) (d : RegF) (a : RegF) (p : Bool) (s : State) :
    exec (.fneg t d a p) s = execFneg t d a p s := rfl
theorem exec_fcmp (c : BitVec 3) (t : BitVec 2) (d : PredF) (a : RegF) (b : RegF) (p : Bool) (q : Bool) (s : State) :
    exec (.fcmp c t d a b p q) s = execFcmp c t d a b p q s := rfl
theorem exec_fcvt (e : BitVec 4) (d : RegF) (a : RegF) (sx : BitVec 4) (p : Bool) (s : State) :
    exec (.fcvt e d a sx p) s = execFcvt e d a sx p s := rfl
theorem exec_qpack (g : BitVec 2) (n : Bool) (d : RegF) (a : RegF) (b : RegF) (p : Bool) (q : Bool) (s : State) :
    exec (.qpack g n d a b p q) s = execQpack g n d a b p q s := rfl
theorem exec_qunpk (g : BitVec 2) (n : Bool) (d : RegF) (a : RegF) (p : Bool) (s : State) :
    exec (.qunpk g n d a p) s = execQunpk g n d a p s := rfl
theorem exec_frcp (t : Bool) (d : RegF) (a : RegF) (p : Bool) (s : State) :
    exec (.frcp t d a p) s = execFrcp t d a p s := rfl
theorem exec_frsq (t : Bool) (d : RegF) (a : RegF) (p : Bool) (s : State) :
    exec (.frsq t d a p) s = execFrsq t d a p s := rfl
theorem exec_fsqrt (t : Bool) (d : RegF) (a : RegF) (p : Bool) (s : State) :
    exec (.fsqrt t d a p) s = execFsqrt t d a p s := rfl
theorem exec_fexp2 (d : RegF) (a : RegF) (p : Bool) (s : State) :
    exec (.fexp2 d a p) s = execFexp2 d a p s := rfl
theorem exec_flog2 (d : RegF) (a : RegF) (p : Bool) (s : State) :
    exec (.flog2 d a p) s = execFlog2 d a p s := rfl
theorem exec_fsin (d : RegF) (a : RegF) (p : Bool) (s : State) :
    exec (.fsin d a p) s = execFsin d a p s := rfl
theorem exec_fcos (d : RegF) (a : RegF) (p : Bool) (s : State) :
    exec (.fcos d a p) s = execFcos d a p s := rfl
theorem exec_qand (d : PredF) (a : PredF) (b : PredF) (s : State) :
    exec (.qand d a b) s = execQand d a b s := rfl
theorem exec_qor (d : PredF) (a : PredF) (b : PredF) (s : State) :
    exec (.qor d a b) s = execQor d a b s := rfl
theorem exec_qxor (d : PredF) (a : PredF) (b : PredF) (s : State) :
    exec (.qxor d a b) s = execQxor d a b s := rfl
theorem exec_qnot (d : PredF) (a : PredF) (s : State) :
    exec (.qnot d a) s = execQnot d a s := rfl
theorem exec_qmov (d : PredF) (a : PredF) (s : State) :
    exec (.qmov d a) s = execQmov d a s := rfl
theorem exec_shfl (d : RegF) (a : RegF) (b : RegF) (p : Bool) (q : Bool) (s : State) :
    exec (.shfl d a b p q) s = execShfl d a b p q s := rfl
theorem exec_shflu (d : RegF) (a : RegF) (b : RegF) (p : Bool) (q : Bool) (s : State) :
    exec (.shflu d a b p q) s = execShflu d a b p q s := rfl
theorem exec_shfld (d : RegF) (a : RegF) (b : RegF) (p : Bool) (q : Bool) (s : State) :
    exec (.shfld d a b p q) s = execShfld d a b p q s := rfl
theorem exec_shflx (d : RegF) (a : RegF) (b : RegF) (p : Bool) (q : Bool) (s : State) :
    exec (.shflx d a b p q) s = execShflx d a b p q s := rfl
theorem exec_voteall (d : PredF) (a : PredF) (s : State) :
    exec (.voteall d a) s = execVoteall d a s := rfl
theorem exec_voteany (d : PredF) (a : PredF) (s : State) :
    exec (.voteany d a) s = execVoteany d a s := rfl
theorem exec_ballot (d : RegF) (a : PredF) (s : State) :
    exec (.ballot d a) s = execBallot d a s := rfl
theorem exec_redadd (t : BitVec 3) (d : RegF) (a : RegF) (m : PredF) (p : Bool) (s : State) :
    exec (.redadd t d a m p) s = execRedadd t d a m p s := rfl
theorem exec_redmin (t : BitVec 3) (d : RegF) (a : RegF) (m : PredF) (p : Bool) (s : State) :
    exec (.redmin t d a m p) s = execRedmin t d a m p s := rfl
theorem exec_redmax (t : BitVec 3) (d : RegF) (a : RegF) (m : PredF) (p : Bool) (s : State) :
    exec (.redmax t d a m p) s = execRedmax t d a m p s := rfl
theorem exec_redand (t : BitVec 3) (d : RegF) (a : RegF) (m : PredF) (p : Bool) (s : State) :
    exec (.redand t d a m p) s = execRedand t d a m p s := rfl
theorem exec_redor (t : BitVec 3) (d : RegF) (a : RegF) (m : PredF) (p : Bool) (s : State) :
    exec (.redor t d a m p) s = execRedor t d a m p s := rfl
theorem exec_redxor (t : BitVec 3) (d : RegF) (a : RegF) (m : PredF) (p : Bool) (s : State) :
    exec (.redxor t d a m p) s = execRedxor t d a m p s := rfl
theorem exec_scanadd (t : BitVec 3) (d : RegF) (a : RegF) (m : PredF) (p : Bool) (s : State) :
    exec (.scanadd t d a m p) s = execScanadd t d a m p s := rfl
theorem exec_scanaddx (t : BitVec 3) (d : RegF) (a : RegF) (m : PredF) (p : Bool) (s : State) :
    exec (.scanaddx t d a m p) s = execScanaddx t d a m p s := rfl
theorem exec_tagq (d : PredF) (a : RegF) (p : Bool) (s : State) :
    exec (.tagq d a p) s = execTagq d a p s := rfl
theorem exec_tagp (d : RegF) (s : State) :
    exec (.tagp d) s = execTagp d s := rfl
theorem exec_tclr (s : State) :
    exec .tclr s = execTclr s := rfl
theorem exec_br (q : PredF) (o : BitVec 21) (s : State) :
    exec (.br q o) s = execBr q o s := rfl
theorem exec_brn (q : PredF) (o : BitVec 21) (s : State) :
    exec (.brn q o) s = execBrn q o s := rfl
theorem exec_call (q : PredF) (o : BitVec 21) (s : State) :
    exec (.call q o) s = execCall q o s := rfl
theorem exec_calln (q : PredF) (o : BitVec 21) (s : State) :
    exec (.calln q o) s = execCalln q o s := rfl
theorem exec_jmpi (a : RegF) (p : Bool) (s : State) :
    exec (.jmpi a p) s = execJmpi a p s := rfl
theorem exec_calli (a : RegF) (p : Bool) (s : State) :
    exec (.calli a p) s = execCalli a p s := rfl
theorem exec_ret (a : RegF) (p : Bool) (s : State) :
    exec (.ret a p) s = execRet a p s := rfl
theorem exec_meet (s : State) :
    exec .meet s = execMeet s := rfl
theorem exec_fend (s : State) :
    exec .fend s = execFend s := rfl
theorem exec_fspawn (d : RegF) (a : RegF) (p : Bool) (s : State) :
    exec (.fspawn d a p) s = execFspawn d a p s := rfl
theorem exec_win (sx : BitVec 6) (s : State) :
    exec (.win sx) s = execWin sx s := rfl
theorem exec_tfence (s : State) :
    exec .tfence s = execTfence s := rfl
theorem exec_eret (s : State) :
    exec .eret s = execEret s := rfl
theorem exec_ld (z : BitVec 3) (d : RegF) (b : RegF) (o : BitVec 7) (q : Bool) (s : State) :
    exec (.ld z d b o q) s = execLd z d b o q s := rfl
theorem exec_st (z : BitVec 3) (d : RegF) (b : RegF) (o : BitVec 7) (q : Bool) (s : State) :
    exec (.st z d b o q) s = execSt z d b o q s := rfl
theorem exec_ldsp (z : BitVec 3) (d : RegF) (b : RegF) (o : BitVec 7) (q : Bool) (s : State) :
    exec (.ldsp z d b o q) s = execLdsp z d b o q s := rfl
theorem exec_ldacq (sx : BitVec 5) (w : Bool) (d : RegF) (b : RegF) (s : State) :
    exec (.ldacq sx w d b) s = execLdacq sx w d b s := rfl
theorem exec_strel (sx : BitVec 5) (w : Bool) (b : RegF) (v : RegF) (s : State) :
    exec (.strel sx w b v) s = execStrel sx w b v s := rfl
theorem exec_atadd (w : Bool) (sx : BitVec 5) (d : RegF) (b : RegF) (v : RegF) (s : State) :
    exec (.atadd w sx d b v) s = execAtadd w sx d b v s := rfl
theorem exec_atand (w : Bool) (sx : BitVec 5) (d : RegF) (b : RegF) (v : RegF) (s : State) :
    exec (.atand w sx d b v) s = execAtand w sx d b v s := rfl
theorem exec_ator (w : Bool) (sx : BitVec 5) (d : RegF) (b : RegF) (v : RegF) (s : State) :
    exec (.ator w sx d b v) s = execAtor w sx d b v s := rfl
theorem exec_atxor (w : Bool) (sx : BitVec 5) (d : RegF) (b : RegF) (v : RegF) (s : State) :
    exec (.atxor w sx d b v) s = execAtxor w sx d b v s := rfl
theorem exec_atmin (w : Bool) (sx : BitVec 5) (d : RegF) (b : RegF) (v : RegF) (s : State) :
    exec (.atmin w sx d b v) s = execAtmin w sx d b v s := rfl
theorem exec_atmax (w : Bool) (sx : BitVec 5) (d : RegF) (b : RegF) (v : RegF) (s : State) :
    exec (.atmax w sx d b v) s = execAtmax w sx d b v s := rfl
theorem exec_atfadd (w : Bool) (sx : BitVec 5) (d : RegF) (b : RegF) (v : RegF) (s : State) :
    exec (.atfadd w sx d b v) s = execAtfadd w sx d b v s := rfl
theorem exec_atcas (w : Bool) (sx : BitVec 5) (d : RegF) (b : RegF) (v : RegF) (s : State) :
    exec (.atcas w sx d b v) s = execAtcas w sx d b v s := rfl
theorem exec_atxch (w : Bool) (sx : BitVec 5) (d : RegF) (b : RegF) (s : State) :
    exec (.atxch w sx d b) s = execAtxch w sx d b s := rfl
theorem exec_fence (sx : BitVec 5) (s : State) :
    exec (.fence sx) s = execFence sx s := rfl
theorem exec_cflush (a : RegF) (b : RegF) (s : State) :
    exec (.cflush a b) s = execCflush a b s := rfl
theorem exec_cinv (a : RegF) (b : RegF) (s : State) :
    exec (.cinv a b) s = execCinv a b s := rfl
theorem exec_iinv (sx : BitVec 5) (s : State) :
    exec (.iinv sx) s = execIinv sx s := rfl
theorem exec_pref (a : RegF) (k : Bool) (s : State) :
    exec (.pref a k) s = execPref a k s := rfl
theorem exec_stmap (a : RegF) (b : RegF) (w : BitVec 4) (s : State) :
    exec (.stmap a b w) s = execStmap a b w s := rfl
theorem exec_stunmap (w : BitVec 4) (s : State) :
    exec (.stunmap w) s = execStunmap w s := rfl
theorem exec_stwb (w : BitVec 4) (s : State) :
    exec (.stwb w) s = execStwb w s := rfl
theorem exec_pqry (a : RegF) (n : PredF) (s : State) :
    exec (.pqry a n) s = execPqry a n s := rfl
theorem exec_wclr (s : State) :
    exec .wclr s = execWclr s := rfl
theorem exec_wchk (o : BitVec 21) (s : State) :
    exec (.wchk o) s = execWchk o s := rfl
theorem exec_mma (a : RegF) (s : State) :
    exec (.mma a) s = execMma a s := rfl
theorem exec_mrdy (a : RegF) (s : State) :
    exec (.mrdy a) s = execMrdy a s := rfl
theorem exec_mwait (t : BitVec 6) (s : State) :
    exec (.mwait t) s = execMwait t s := rfl
theorem exec_wbld (a : RegF) (s : State) :
    exec (.wbld a) s = execWbld a s := rfl
theorem exec_dcor (a : RegF) (s : State) :
    exec (.dcor a) s = execDcor a s := rfl
theorem exec_chain (a : RegF) (s : State) :
    exec (.chain a) s = execChain a s := rfl
theorem exec_strm (n : BitVec 3) (b : RegF) (sx : BitVec 6) (s : State) :
    exec (.strm n b sx) s = execStrm n b sx s := rfl
theorem exec_kick (a : RegF) (s : State) :
    exec (.kick a) s = execKick a s := rfl
theorem exec_bari (a : RegF) (b : RegF) (s : State) :
    exec (.bari a b) s = execBari a b s := rfl
theorem exec_bara (a : RegF) (s : State) :
    exec (.bara a) s = execBara a s := rfl
theorem exec_bwait (a : RegF) (s : State) :
    exec (.bwait a) s = execBwait a s := rfl
theorem exec_coll (a : RegF) (s : State) :
    exec (.coll a) s = execColl a s := rfl
theorem exec_launch (a : RegF) (s : State) :
    exec (.launch a) s = execLaunch a s := rfl
theorem exec_launcht (a : RegF) (n : PredF) (s : State) :
    exec (.launcht a n) s = execLauncht a n s := rfl
theorem exec_cwait (s : State) :
    exec .cwait s = execCwait s := rfl
theorem exec_tbar (s : State) :
    exec .tbar s = execTbar s := rfl
theorem exec_gsr (a : RegF) (n : BitVec 8) (s : State) :
    exec (.gsr a n) s = execGsr a n s := rfl
theorem exec_ssr (a : RegF) (n : BitVec 8) (s : State) :
    exec (.ssr a n) s = execSsr a n s := rfl
theorem exec_trap (n : BitVec 8) (s : State) :
    exec (.trap n) s = execTrap n s := rfl
theorem exec_limm (p : BitVec 22) (s : State) :
    exec (.limm p) s = execLimm p s := rfl
theorem exec_guard (q : PredF) (n : Bool) (c : BitVec 3) (s : State) :
    exec (.guard q n c) s = execGuard q n c s := rfl
theorem exec_sched (y : Bool) (sx : BitVec 4) (s : State) :
    exec (.sched y sx) s = execSched y sx s := rfl
theorem exec_rnd (k : BitVec 2) (r : Bool) (m : BitVec 2) (s : State) :
    exec (.rnd k r m) s = execRnd k r m s := rfl
theorem exec_sat (s : State) :
    exec .sat s = execSat s := rfl
theorem exec_nop (p : BitVec 22) (s : State) :
    exec (.nop p) s = execNop p s := rfl
theorem exec_hintIgnored (k : BitVec 3) (p : BitVec 22) (s : State) :
    exec (.hintIgnored k p) s = execHintIgnored k p s := rfl
theorem exec_emulationVector (cause : BitVec 8) (word : Word) (ulen : BitVec 3) (s : State) :
    exec (.emulationVector cause word ulen) s = execEmulationVector cause word ulen s := rfl
theorem exec_icacheFill (k : Nat) (e : MemErr) (s : State) :
    exec (.icacheFill k e) s = execIcacheFill k e s := rfl
theorem exec_loadReply (k : Nat) (s : State) :
    exec (.loadReply k) s = execLoadReply k s := rfl
theorem exec_atomicReply (k : Nat) (s : State) :
    exec (.atomicReply k) s = execAtomicReply k s := rfl
theorem exec_divisionComplete (k : Nat) (s : State) :
    exec (.divisionComplete k) s = execDivisionComplete k s := rfl
theorem exec_sfuComplete (k : Nat) (s : State) :
    exec (.sfuComplete k) s = execSfuComplete k s := rfl
theorem exec_ftimeReadComplete (k : Nat) (s : State) :
    exec (.ftimeReadComplete k) s = execFtimeReadComplete k s := rfl
theorem exec_writePerform (w : Arrival) (e : MemErr) (s : State) :
    exec (.writePerform w e) s = execWritePerform w e s := rfl
theorem exec_writeAcknowledge (k : Nat) (s : State) :
    exec (.writeAcknowledge k) s = execWriteAcknowledge k s := rfl
theorem exec_atomicPerform (k : Nat) (e : MemErr) (s : State) :
    exec (.atomicPerform k e) s = execAtomicPerform k e s := rfl
theorem exec_homeRead (k : Nat) (e : MemErr) (s : State) :
    exec (.homeRead k e) s = execHomeRead k e s := rfl
theorem exec_leaseExpiry (line : Nat) (s : State) :
    exec (.leaseExpiry line) s = execLeaseExpiry line s := rfl
theorem exec_directoryEvict (line : Nat) (e : MemErr) (s : State) :
    exec (.directoryEvict line e) s = execDirectoryEvict line e s := rfl
theorem exec_recall (line : Nat) (forWrite : Bool) (s : State) :
    exec (.recall line forWrite) s = execRecall line forWrite s := rfl
theorem exec_dirtyNotice (k : Nat) (s : State) :
    exec (.dirtyNotice k) s = execDirtyNotice k s := rfl
theorem exec_ldspCheck (k : Nat) (s : State) :
    exec (.ldspCheck k) s = execLdspCheck k s := rfl
theorem exec_checkReply (k : Nat) (s : State) :
    exec (.checkReply k) s = execCheckReply k s := rfl
theorem exec_watchAgeStrike (team : Nat) (crew : Nat) (s : State) :
    exec (.watchAgeStrike team crew) s = execWatchAgeStrike team crew s := rfl
theorem exec_stashFill (k : Nat) (e : MemErr) (s : State) :
    exec (.stashFill k e) s = execStashFill k e s := rfl
theorem exec_hostSnoop (line : Nat) (half : Nat) (inv : Bool) (s : State) :
    exec (.hostSnoop line half inv) s = execHostSnoop line half inv s := rfl
theorem exec_bisnpResponse (line : Nat) (half : Nat) (dirty : Option (List Byte)) (s : State) :
    exec (.bisnpResponse line half dirty) s = execBisnpResponse line half dirty s := rfl
theorem exec_biconflict (line : Nat) (half : Nat) (excl : Bool) (s : State) :
    exec (.biconflict line half excl) s = execBiconflict line half excl s := rfl
theorem exec_hostHalfRequest (line : Nat) (half : Nat) (excl : Bool) (s : State) :
    exec (.hostHalfRequest line half excl) s = execHostHalfRequest line half excl s := rfl
theorem exec_qTail (ctx : Nat) (q : Nat) (v : Word) (s : State) :
    exec (.qTail ctx q v) s = execQTail ctx q v s := rfl
theorem exec_qCtl (ctx : Nat) (q : Nat) (v : Word) (s : State) :
    exec (.qCtl ctx q v) s = execQCtl ctx q v s := rfl
theorem exec_registerWrite (m : Master) (r : DevReg) (v : DWord) (s : State) :
    exec (.registerWrite m r v) s = execRegisterWrite m r v s := rfl
theorem exec_commandFetch (die : Nat) (s : State) :
    exec (.commandFetch die) s = execCommandFetch die s := rfl
theorem exec_commandNop (k : Nat) (s : State) :
    exec (.commandNop k) s = execCommandNop k s := rfl
theorem exec_commandWait (k : Nat) (s : State) :
    exec (.commandWait k) s = execCommandWait k s := rfl
theorem exec_commandLaunch (k : Nat) (s : State) :
    exec (.commandLaunch k) s = execCommandLaunch k s := rfl
theorem exec_placeTeams (s : State) :
    exec .placeTeams s = execPlaceTeams s := rfl
theorem exec_launchPacket (team : Nat) (s : State) :
    exec (.launchPacket team) s = execLaunchPacket team s := rfl
theorem exec_teamStart (team : Nat) (s : State) :
    exec (.teamStart team) s = execTeamStart team s := rfl
theorem exec_spanBlock (k : Nat) (s : State) :
    exec (.spanBlock k) s = execSpanBlock k s := rfl
theorem exec_spanReply (k : Nat) (s : State) :
    exec (.spanReply k) s = execSpanReply k s := rfl
theorem exec_spanStart (k : Nat) (s : State) :
    exec (.spanStart k) s = execSpanStart k s := rfl
theorem exec_spanTstart (launch : Nat) (s : State) :
    exec (.spanTstart launch) s = execSpanTstart launch s := rfl
theorem exec_abort (k : Nat) (s : State) :
    exec (.abort k) s = execAbort k s := rfl
theorem exec_spanTimeout (launch : Nat) (s : State) :
    exec (.spanTimeout launch) s = execSpanTimeout launch s := rfl
theorem exec_teamDrain (team : Nat) (s : State) :
    exec (.teamDrain team) s = execTeamDrain team s := rfl
theorem exec_teamRetire (team : Nat) (s : State) :
    exec (.teamRetire team) s = execTeamRetire team s := rfl
theorem exec_regroup (core : Nat) (s : State) :
    exec (.regroup core) s = execRegroup core s := rfl
theorem exec_evictTeam (team : Nat) (s : State) :
    exec (.evictTeam team) s = execEvictTeam team s := rfl
theorem exec_restoreTeam (team : Nat) (core : Nat) (s : State) :
    exec (.restoreTeam team core) s = execRestoreTeam team core s := rfl
theorem exec_onyxDue (core : Nat) (s : State) :
    exec (.onyxDue core) s = execOnyxDue core s := rfl
theorem exec_onyxSlice (core : Nat) (s : State) :
    exec (.onyxSlice core) s = execOnyxSlice core s := rfl
theorem exec_onyxSliceEnd (core : Nat) (fail : Bool) (s : State) :
    exec (.onyxSliceEnd core fail) s = execOnyxSliceEnd core fail s := rfl
theorem exec_onyxLapse (core : Nat) (s : State) :
    exec (.onyxLapse core) s = execOnyxLapse core s := rfl
theorem exec_motionRound (errs : List (Nat × MemErr)) (s : State) :
    exec (.motionRound errs) s = execMotionRound errs s := rfl
theorem exec_motionLineCopied (ix : Nat) (e : MemErr) (s : State) :
    exec (.motionLineCopied ix e) s = execMotionLineCopied ix e s := rfl
theorem exec_motionSwitch (s : State) :
    exec .motionSwitch s = execMotionSwitch s := rfl
theorem exec_copyChunk (k : Nat) (errs : List (Nat × MemErr)) (s : State) :
    exec (.copyChunk k errs) s = execCopyChunk k errs s := rfl
theorem exec_copyCount (k : Nat) (s : State) :
    exec (.copyCount k) s = execCopyCount k s := rfl
theorem exec_chainChunk (k : Nat) (errs : List (Nat × MemErr)) (s : State) :
    exec (.chainChunk k errs) s = execChainChunk k errs s := rfl
theorem exec_mmaComplete (core : Nat) (runs : List TileRun) (s : State) :
    exec (.mmaComplete core runs) s = execMmaComplete core runs s := rfl
theorem exec_dcorComplete (core : Nat) (s : State) :
    exec (.dcorComplete core) s = execDcorComplete core s := rfl
theorem exec_wbldComplete (k : Nat) (errs : List (Nat × MemErr)) (s : State) :
    exec (.wbldComplete k errs) s = execWbldComplete k errs s := rfl
theorem exec_collChunk (k : Nat) (chunk : Nat) (order : RedTree) (errs : List (Nat × MemErr)) (s : State) :
    exec (.collChunk k chunk order errs) s = execCollChunk k chunk order errs s := rfl
theorem exec_collAck (k : Nat) (chunk : Nat) (s : State) :
    exec (.collAck k chunk) s = execCollAck k chunk s := rfl
theorem exec_collReform (k : Nat) (s : State) :
    exec (.collReform k) s = execCollReform k s := rfl
theorem exec_linklost (k : Nat) (s : State) :
    exec (.linklost k) s = execLinklost k s := rfl
theorem exec_rollback (team : Nat) (s : State) :
    exec (.rollback team) s = execRollback team s := rfl
theorem exec_mcStatus (m : Master) (bank : Nat) (v : DWord) (s : State) :
    exec (.mcStatus m bank v) s = execMcStatus m bank v s := rfl
theorem exec_linkFlit (crcOk : Bool) (msg : LinkMsg) (e : MemErr) (s : State) :
    exec (.linkFlit crcOk msg e) s = execLinkFlit crcOk msg e s := rfl
theorem exec_failedAcknowledgement (k : Nat) (s : State) :
    exec (.failedAcknowledgement k) s = execFailedAcknowledgement k s := rfl
theorem exec_stop (k : Nat) (s : State) :
    exec (.stop k) s = execStop k s := rfl
theorem exec_stopped (k : Nat) (s : State) :
    exec (.stopped k) s = execStopped k s := rfl
theorem exec_stopTimeout (launch : Nat) (s : State) :
    exec (.stopTimeout launch) s = execStopTimeout launch s := rfl
theorem exec_d2dFail (s : State) :
    exec .d2dFail s = execD2dFail s := rfl
theorem exec_ftimeSync (dev : Nat) (s : State) :
    exec (.ftimeSync dev) s = execFtimeSync dev s := rfl
theorem exec_create (s : State) :
    exec .create s = execCreate s := rfl
theorem exec_updateOt (s : State) :
    exec .updateOt s = execUpdateOt s := rfl
theorem exec_updateScope (s : State) :
    exec .updateScope s = execUpdateScope s := rfl
theorem exec_moveFrame (s : State) :
    exec .moveFrame s = execMoveFrame s := rfl
theorem exec_kill (s : State) :
    exec .kill s = execKill s := rfl
theorem exec_reset (s : State) :
    exec .reset s = execReset s := rfl
theorem exec_fwStage (s : State) :
    exec .fwStage s = execFwStage s := rfl
theorem exec_fwActivate (s : State) :
    exec .fwActivate s = execFwActivate s := rfl
theorem exec_logRead (s : State) :
    exec .logRead s = execLogRead s := rfl
theorem exec_sensorSample (hot : List Nat) (s : State) :
    exec (.sensorSample hot) s = execSensorSample hot s := rfl
theorem exec_clockChange (die : Nat) (mhz : Nat) (s : State) :
    exec (.clockChange die mhz) s = execClockChange die mhz s := rfl
theorem exec_deviceReset (dev : Nat) (s : State) :
    exec (.deviceReset dev) s = execDeviceReset dev s := rfl
theorem exec_spdmRequest (req : List Byte) (s : State) :
    exec (.spdmRequest req) s = execSpdmRequest req s := rfl
theorem exec_hostLinkTrain (gts : Nat) (width : Nat) (s : State) :
    exec (.hostLinkTrain gts width) s = execHostLinkTrain gts width s := rfl
theorem exec_hostLinkDown (s : State) :
    exec .hostLinkDown s = execHostLinkDown s := rfl
theorem exec_linkFailure (port : Nat) (dev : Nat) (s : State) :
    exec (.linkFailure port dev) s = execLinkFailure port dev s := rfl

end Sys2Proof.Machine
end

