-- ==== Sys2Proof/Laws/Fields.lean ====
section
/-! SUPPORT. Laws of the word formats: the fields that the decoder takes from a word of each format are the fields that
the word was put together from (R56). -/

namespace Sys2Proof

theorem bit_eq (w : Word) (lo : Nat) : bit w lo = w.getLsbD lo := by
  have h : fld w lo 1 = BitVec.ofBool (w.getLsbD lo) := by
    apply BitVec.eq_of_getLsbD_eq
    intro i hi
    have : i < 1 := hi
    interval_cases i
    simp [fld]
  unfold bit
  rw [h]
  cases w.getLsbD lo <;> rfl

@[simp] theorem fld_packA_26_6 (m : BitVec 6) (f : BitVec 6) (d : BitVec 6) (a : BitVec 6) (b : BitVec 6) (p : Bool) (q : Bool) :
    fld (packA m f d a b p q) 26 6 = m := by
  apply BitVec.eq_of_getLsbD_eq
  intro i hi
  have : i < 6 := hi
  simp only [fld, packA, BitVec.getLsbD_extractLsb', BitVec.getLsbD_append]
  interval_cases i <;> simp

@[simp] theorem fld_packA_20_6 (m : BitVec 6) (f : BitVec 6) (d : BitVec 6) (a : BitVec 6) (b : BitVec 6) (p : Bool) (q : Bool) :
    fld (packA m f d a b p q) 20 6 = f := by
  apply BitVec.eq_of_getLsbD_eq
  intro i hi
  have : i < 6 := hi
  simp only [fld, packA, BitVec.getLsbD_extractLsb', BitVec.getLsbD_append]
  interval_cases i <;> simp

@[simp] theorem fld_packA_20_4 (m : BitVec 6) (f : BitVec 6) (d : BitVec 6) (a : BitVec 6) (b : BitVec 6) (p : Bool) (q : Bool) :
    fld (packA m f d a b p q) 20 4 = f.extractLsb' 0 4 := by
  apply BitVec.eq_of_getLsbD_eq
  intro i hi
  have : i < 4 := hi
  simp only [fld, packA, BitVec.getLsbD_extractLsb', BitVec.getLsbD_append]
  interval_cases i <;> simp

@[simp] theorem fld_packA_20_3 (m : BitVec 6) (f : BitVec 6) (d : BitVec 6) (a : BitVec 6) (b : BitVec 6) (p : Bool) (q : Bool) :
    fld (packA m f d a b p q) 20 3 = f.extractLsb' 0 3 := by
  apply BitVec.eq_of_getLsbD_eq
  intro i hi
  have : i < 3 := hi
  simp only [fld, packA, BitVec.getLsbD_extractLsb', BitVec.getLsbD_append]
  interval_cases i <;> simp

@[simp] theorem fld_packA_20_2 (m : BitVec 6) (f : BitVec 6) (d : BitVec 6) (a : BitVec 6) (b : BitVec 6) (p : Bool) (q : Bool) :
    fld (packA m f d a b p q) 20 2 = f.extractLsb' 0 2 := by
  apply BitVec.eq_of_getLsbD_eq
  intro i hi
  have : i < 2 := hi
  simp only [fld, packA, BitVec.getLsbD_extractLsb', BitVec.getLsbD_append]
  interval_cases i <;> simp

@[simp] theorem fld_packA_21_4 (m : BitVec 6) (f : BitVec 6) (d : BitVec 6) (a : BitVec 6) (b : BitVec 6) (p : Bool) (q : Bool) :
    fld (packA m f d a b p q) 21 4 = f.extractLsb' 1 4 := by
  apply BitVec.eq_of_getLsbD_eq
  intro i hi
  have : i < 4 := hi
  simp only [fld, packA, BitVec.getLsbD_extractLsb', BitVec.getLsbD_append]
  interval_cases i <;> simp

@[simp] theorem fld_packA_21_3 (m : BitVec 6) (f : BitVec 6) (d : BitVec 6) (a : BitVec 6) (b : BitVec 6) (p : Bool) (q : Bool) :
    fld (packA m f d a b p q) 21 3 = f.extractLsb' 1 3 := by
  apply BitVec.eq_of_getLsbD_eq
  intro i hi
  have : i < 3 := hi
  simp only [fld, packA, BitVec.getLsbD_extractLsb', BitVec.getLsbD_append]
  interval_cases i <;> simp

@[simp] theorem fld_packA_22_4 (m : BitVec 6) (f : BitVec 6) (d : BitVec 6) (a : BitVec 6) (b : BitVec 6) (p : Bool) (q : Bool) :
    fld (packA m f d a b p q) 22 4 = f.extractLsb' 2 4 := by
  apply BitVec.eq_of_getLsbD_eq
  intro i hi
  have : i < 4 := hi
  simp only [fld, packA, BitVec.getLsbD_extractLsb', BitVec.getLsbD_append]
  interval_cases i <;> simp

@[simp] theorem fld_packA_22_3 (m : BitVec 6) (f : BitVec 6) (d : BitVec 6) (a : BitVec 6) (b : BitVec 6) (p : Bool) (q : Bool) :
    fld (packA m f d a b p q) 22 3 = f.extractLsb' 2 3 := by
  apply BitVec.eq_of_getLsbD_eq
  intro i hi
  have : i < 3 := hi
  simp only [fld, packA, BitVec.getLsbD_extractLsb', BitVec.getLsbD_append]
  interval_cases i <;> simp

@[simp] theorem fld_packA_22_2 (m : BitVec 6) (f : BitVec 6) (d : BitVec 6) (a : BitVec 6) (b : BitVec 6) (p : Bool) (q : Bool) :
    fld (packA m f d a b p q) 22 2 = f.extractLsb' 2 2 := by
  apply BitVec.eq_of_getLsbD_eq
  intro i hi
  have : i < 2 := hi
  simp only [fld, packA, BitVec.getLsbD_extractLsb', BitVec.getLsbD_append]
  interval_cases i <;> simp

@[simp] theorem fld_packA_23_3 (m : BitVec 6) (f : BitVec 6) (d : BitVec 6) (a : BitVec 6) (b : BitVec 6) (p : Bool) (q : Bool) :
    fld (packA m f d a b p q) 23 3 = f.extractLsb' 3 3 := by
  apply BitVec.eq_of_getLsbD_eq
  intro i hi
  have : i < 3 := hi
  simp only [fld, packA, BitVec.getLsbD_extractLsb', BitVec.getLsbD_append]
  interval_cases i <;> simp

@[simp] theorem fld_packA_24_2 (m : BitVec 6) (f : BitVec 6) (d : BitVec 6) (a : BitVec 6) (b : BitVec 6) (p : Bool) (q : Bool) :
    fld (packA m f d a b p q) 24 2 = f.extractLsb' 4 2 := by
  apply BitVec.eq_of_getLsbD_eq
  intro i hi
  have : i < 2 := hi
  simp only [fld, packA, BitVec.getLsbD_extractLsb', BitVec.getLsbD_append]
  interval_cases i <;> simp

@[simp] theorem fld_packA_14_6 (m : BitVec 6) (f : BitVec 6) (d : BitVec 6) (a : BitVec 6) (b : BitVec 6) (p : Bool) (q : Bool) :
    fld (packA m f d a b p q) 14 6 = d := by
  apply BitVec.eq_of_getLsbD_eq
  intro i hi
  have : i < 6 := hi
  simp only [fld, packA, BitVec.getLsbD_extractLsb', BitVec.getLsbD_append]
  interval_cases i <;> simp

@[simp] theorem fld_packA_14_4 (m : BitVec 6) (f : BitVec 6) (d : BitVec 6) (a : BitVec 6) (b : BitVec 6) (p : Bool) (q : Bool) :
    fld (packA m f d a b p q) 14 4 = d.extractLsb' 0 4 := by
  apply BitVec.eq_of_getLsbD_eq
  intro i hi
  have : i < 4 := hi
  simp only [fld, packA, BitVec.getLsbD_extractLsb', BitVec.getLsbD_append]
  interval_cases i <;> simp

@[simp] theorem fld_packA_8_6 (m : BitVec 6) (f : BitVec 6) (d : BitVec 6) (a : BitVec 6) (b : BitVec 6) (p : Bool) (q : Bool) :
    fld (packA m f d a b p q) 8 6 = a := by
  apply BitVec.eq_of_getLsbD_eq
  intro i hi
  have : i < 6 := hi
  simp only [fld, packA, BitVec.getLsbD_extractLsb', BitVec.getLsbD_append]
  interval_cases i <;> simp

@[simp] theorem fld_packA_8_4 (m : BitVec 6) (f : BitVec 6) (d : BitVec 6) (a : BitVec 6) (b : BitVec 6) (p : Bool) (q : Bool) :
    fld (packA m f d a b p q) 8 4 = a.extractLsb' 0 4 := by
  apply BitVec.eq_of_getLsbD_eq
  intro i hi
  have : i < 4 := hi
  simp only [fld, packA, BitVec.getLsbD_extractLsb', BitVec.getLsbD_append]
  interval_cases i <;> simp

@[simp] theorem fld_packA_2_6 (m : BitVec 6) (f : BitVec 6) (d : BitVec 6) (a : BitVec 6) (b : BitVec 6) (p : Bool) (q : Bool) :
    fld (packA m f d a b p q) 2 6 = b := by
  apply BitVec.eq_of_getLsbD_eq
  intro i hi
  have : i < 6 := hi
  simp only [fld, packA, BitVec.getLsbD_extractLsb', BitVec.getLsbD_append]
  interval_cases i <;> simp

@[simp] theorem fld_packA_2_4 (m : BitVec 6) (f : BitVec 6) (d : BitVec 6) (a : BitVec 6) (b : BitVec 6) (p : Bool) (q : Bool) :
    fld (packA m f d a b p q) 2 4 = b.extractLsb' 0 4 := by
  apply BitVec.eq_of_getLsbD_eq
  intro i hi
  have : i < 4 := hi
  simp only [fld, packA, BitVec.getLsbD_extractLsb', BitVec.getLsbD_append]
  interval_cases i <;> simp

@[simp] theorem fld_packA_4_4 (m : BitVec 6) (f : BitVec 6) (d : BitVec 6) (a : BitVec 6) (b : BitVec 6) (p : Bool) (q : Bool) :
    fld (packA m f d a b p q) 4 4 = b.extractLsb' 2 4 := by
  apply BitVec.eq_of_getLsbD_eq
  intro i hi
  have : i < 4 := hi
  simp only [fld, packA, BitVec.getLsbD_extractLsb', BitVec.getLsbD_append]
  interval_cases i <;> simp

@[simp] theorem bit_packA_0 (m : BitVec 6) (f : BitVec 6) (d : BitVec 6) (a : BitVec 6) (b : BitVec 6) (p : Bool) (q : Bool) :
    bit (packA m f d a b p q) 0 = q := by
  rw [bit_eq]; simp only [packA, BitVec.getLsbD_append]; simp

@[simp] theorem bit_packA_1 (m : BitVec 6) (f : BitVec 6) (d : BitVec 6) (a : BitVec 6) (b : BitVec 6) (p : Bool) (q : Bool) :
    bit (packA m f d a b p q) 1 = p := by
  rw [bit_eq]; simp only [packA, BitVec.getLsbD_append]; simp

@[simp] theorem bit_packA_20 (m : BitVec 6) (f : BitVec 6) (d : BitVec 6) (a : BitVec 6) (b : BitVec 6) (p : Bool) (q : Bool) :
    bit (packA m f d a b p q) 20 = f.getLsbD 0 := by
  rw [bit_eq]; simp only [packA, BitVec.getLsbD_append]; simp

@[simp] theorem bit_packA_21 (m : BitVec 6) (f : BitVec 6) (d : BitVec 6) (a : BitVec 6) (b : BitVec 6) (p : Bool) (q : Bool) :
    bit (packA m f d a b p q) 21 = f.getLsbD 1 := by
  rw [bit_eq]; simp only [packA, BitVec.getLsbD_append]; simp

@[simp] theorem fld_packI_26_6 (m : BitVec 6) (d : BitVec 6) (a : BitVec 6) (i : BitVec 13) (p : Bool) :
    fld (packI m d a i p) 26 6 = m := by
  apply BitVec.eq_of_getLsbD_eq
  intro i hi
  have : i < 6 := hi
  simp only [fld, packI, BitVec.getLsbD_extractLsb', BitVec.getLsbD_append]
  interval_cases i <;> simp

@[simp] theorem fld_packI_20_6 (m : BitVec 6) (d : BitVec 6) (a : BitVec 6) (i : BitVec 13) (p : Bool) :
    fld (packI m d a i p) 20 6 = d := by
  apply BitVec.eq_of_getLsbD_eq
  intro i hi
  have : i < 6 := hi
  simp only [fld, packI, BitVec.getLsbD_extractLsb', BitVec.getLsbD_append]
  interval_cases i <;> simp

@[simp] theorem fld_packI_21_3 (m : BitVec 6) (d : BitVec 6) (a : BitVec 6) (i : BitVec 13) (p : Bool) :
    fld (packI m d a i p) 21 3 = d.extractLsb' 1 3 := by
  apply BitVec.eq_of_getLsbD_eq
  intro i hi
  have : i < 3 := hi
  simp only [fld, packI, BitVec.getLsbD_extractLsb', BitVec.getLsbD_append]
  interval_cases i <;> simp

@[simp] theorem fld_packI_14_6 (m : BitVec 6) (d : BitVec 6) (a : BitVec 6) (i : BitVec 13) (p : Bool) :
    fld (packI m d a i p) 14 6 = a := by
  apply BitVec.eq_of_getLsbD_eq
  intro i hi
  have : i < 6 := hi
  simp only [fld, packI, BitVec.getLsbD_extractLsb', BitVec.getLsbD_append]
  interval_cases i <;> simp

@[simp] theorem fld_packI_1_13 (m : BitVec 6) (d : BitVec 6) (a : BitVec 6) (i : BitVec 13) (p : Bool) :
    fld (packI m d a i p) 1 13 = i := by
  apply BitVec.eq_of_getLsbD_eq
  intro i hi
  have : i < 13 := hi
  simp only [fld, packI, BitVec.getLsbD_extractLsb', BitVec.getLsbD_append]
  interval_cases i <;> simp

@[simp] theorem fld_packI_1_5 (m : BitVec 6) (d : BitVec 6) (a : BitVec 6) (i : BitVec 13) (p : Bool) :
    fld (packI m d a i p) 1 5 = i.extractLsb' 0 5 := by
  apply BitVec.eq_of_getLsbD_eq
  intro i hi
  have : i < 5 := hi
  simp only [fld, packI, BitVec.getLsbD_extractLsb', BitVec.getLsbD_append]
  interval_cases i <;> simp

@[simp] theorem bit_packI_0 (m : BitVec 6) (d : BitVec 6) (a : BitVec 6) (i : BitVec 13) (p : Bool) :
    bit (packI m d a i p) 0 = p := by
  rw [bit_eq]; simp only [packI, BitVec.getLsbD_append]; simp

@[simp] theorem fld_packM_26_6 (m : BitVec 6) (f : BitVec 3) (z : BitVec 3) (d : BitVec 6) (b : BitVec 6) (o : BitVec 7) (q : Bool) :
    fld (packM m f z d b o q) 26 6 = m := by
  apply BitVec.eq_of_getLsbD_eq
  intro i hi
  have : i < 6 := hi
  simp only [fld, packM, BitVec.getLsbD_extractLsb', BitVec.getLsbD_append]
  interval_cases i <;> simp

@[simp] theorem fld_packM_23_3 (m : BitVec 6) (f : BitVec 3) (z : BitVec 3) (d : BitVec 6) (b : BitVec 6) (o : BitVec 7) (q : Bool) :
    fld (packM m f z d b o q) 23 3 = f := by
  apply BitVec.eq_of_getLsbD_eq
  intro i hi
  have : i < 3 := hi
  simp only [fld, packM, BitVec.getLsbD_extractLsb', BitVec.getLsbD_append]
  interval_cases i <;> simp

@[simp] theorem fld_packM_20_3 (m : BitVec 6) (f : BitVec 3) (z : BitVec 3) (d : BitVec 6) (b : BitVec 6) (o : BitVec 7) (q : Bool) :
    fld (packM m f z d b o q) 20 3 = z := by
  apply BitVec.eq_of_getLsbD_eq
  intro i hi
  have : i < 3 := hi
  simp only [fld, packM, BitVec.getLsbD_extractLsb', BitVec.getLsbD_append]
  interval_cases i <;> simp

@[simp] theorem fld_packM_14_6 (m : BitVec 6) (f : BitVec 3) (z : BitVec 3) (d : BitVec 6) (b : BitVec 6) (o : BitVec 7) (q : Bool) :
    fld (packM m f z d b o q) 14 6 = d := by
  apply BitVec.eq_of_getLsbD_eq
  intro i hi
  have : i < 6 := hi
  simp only [fld, packM, BitVec.getLsbD_extractLsb', BitVec.getLsbD_append]
  interval_cases i <;> simp

@[simp] theorem fld_packM_8_6 (m : BitVec 6) (f : BitVec 3) (z : BitVec 3) (d : BitVec 6) (b : BitVec 6) (o : BitVec 7) (q : Bool) :
    fld (packM m f z d b o q) 8 6 = b := by
  apply BitVec.eq_of_getLsbD_eq
  intro i hi
  have : i < 6 := hi
  simp only [fld, packM, BitVec.getLsbD_extractLsb', BitVec.getLsbD_append]
  interval_cases i <;> simp

@[simp] theorem fld_packM_1_7 (m : BitVec 6) (f : BitVec 3) (z : BitVec 3) (d : BitVec 6) (b : BitVec 6) (o : BitVec 7) (q : Bool) :
    fld (packM m f z d b o q) 1 7 = o := by
  apply BitVec.eq_of_getLsbD_eq
  intro i hi
  have : i < 7 := hi
  simp only [fld, packM, BitVec.getLsbD_extractLsb', BitVec.getLsbD_append]
  interval_cases i <;> simp

@[simp] theorem bit_packM_0 (m : BitVec 6) (f : BitVec 3) (z : BitVec 3) (d : BitVec 6) (b : BitVec 6) (o : BitVec 7) (q : Bool) :
    bit (packM m f z d b o q) 0 = q := by
  rw [bit_eq]; simp only [packM, BitVec.getLsbD_append]; simp

@[simp] theorem fld_packO_26_6 (m : BitVec 6) (s : BitVec 5) (f : BitVec 3) (d : BitVec 6) (b : BitVec 6) (v : BitVec 6) :
    fld (packO m s f d b v) 26 6 = m := by
  apply BitVec.eq_of_getLsbD_eq
  intro i hi
  have : i < 6 := hi
  simp only [fld, packO, BitVec.getLsbD_extractLsb', BitVec.getLsbD_append]
  interval_cases i <;> simp

@[simp] theorem fld_packO_21_5 (m : BitVec 6) (s : BitVec 5) (f : BitVec 3) (d : BitVec 6) (b : BitVec 6) (v : BitVec 6) :
    fld (packO m s f d b v) 21 5 = s := by
  apply BitVec.eq_of_getLsbD_eq
  intro i hi
  have : i < 5 := hi
  simp only [fld, packO, BitVec.getLsbD_extractLsb', BitVec.getLsbD_append]
  interval_cases i <;> simp

@[simp] theorem fld_packO_18_3 (m : BitVec 6) (s : BitVec 5) (f : BitVec 3) (d : BitVec 6) (b : BitVec 6) (v : BitVec 6) :
    fld (packO m s f d b v) 18 3 = f := by
  apply BitVec.eq_of_getLsbD_eq
  intro i hi
  have : i < 3 := hi
  simp only [fld, packO, BitVec.getLsbD_extractLsb', BitVec.getLsbD_append]
  interval_cases i <;> simp

@[simp] theorem fld_packO_12_6 (m : BitVec 6) (s : BitVec 5) (f : BitVec 3) (d : BitVec 6) (b : BitVec 6) (v : BitVec 6) :
    fld (packO m s f d b v) 12 6 = d := by
  apply BitVec.eq_of_getLsbD_eq
  intro i hi
  have : i < 6 := hi
  simp only [fld, packO, BitVec.getLsbD_extractLsb', BitVec.getLsbD_append]
  interval_cases i <;> simp

@[simp] theorem fld_packO_6_6 (m : BitVec 6) (s : BitVec 5) (f : BitVec 3) (d : BitVec 6) (b : BitVec 6) (v : BitVec 6) :
    fld (packO m s f d b v) 6 6 = b := by
  apply BitVec.eq_of_getLsbD_eq
  intro i hi
  have : i < 6 := hi
  simp only [fld, packO, BitVec.getLsbD_extractLsb', BitVec.getLsbD_append]
  interval_cases i <;> simp

@[simp] theorem fld_packO_0_6 (m : BitVec 6) (s : BitVec 5) (f : BitVec 3) (d : BitVec 6) (b : BitVec 6) (v : BitVec 6) :
    fld (packO m s f d b v) 0 6 = v := by
  apply BitVec.eq_of_getLsbD_eq
  intro i hi
  have : i < 6 := hi
  simp only [fld, packO, BitVec.getLsbD_extractLsb', BitVec.getLsbD_append]
  interval_cases i <;> simp

@[simp] theorem bit_packO_26 (m : BitVec 6) (s : BitVec 5) (f : BitVec 3) (d : BitVec 6) (b : BitVec 6) (v : BitVec 6) :
    bit (packO m s f d b v) 26 = m.getLsbD 0 := by
  rw [bit_eq]; simp only [packO, BitVec.getLsbD_append]; simp

@[simp] theorem fld_packB_26_6 (m : BitVec 6) (n : Bool) (q : BitVec 4) (o : BitVec 21) :
    fld (packB m n q o) 26 6 = m := by
  apply BitVec.eq_of_getLsbD_eq
  intro i hi
  have : i < 6 := hi
  simp only [fld, packB, BitVec.getLsbD_extractLsb', BitVec.getLsbD_append]
  interval_cases i <;> simp

@[simp] theorem fld_packB_21_4 (m : BitVec 6) (n : Bool) (q : BitVec 4) (o : BitVec 21) :
    fld (packB m n q o) 21 4 = q := by
  apply BitVec.eq_of_getLsbD_eq
  intro i hi
  have : i < 4 := hi
  simp only [fld, packB, BitVec.getLsbD_extractLsb', BitVec.getLsbD_append]
  interval_cases i <;> simp

@[simp] theorem fld_packB_0_21 (m : BitVec 6) (n : Bool) (q : BitVec 4) (o : BitVec 21) :
    fld (packB m n q o) 0 21 = o := by
  apply BitVec.eq_of_getLsbD_eq
  intro i hi
  have : i < 21 := hi
  simp only [fld, packB, BitVec.getLsbD_extractLsb', BitVec.getLsbD_append]
  interval_cases i <;> simp

@[simp] theorem bit_packB_25 (m : BitVec 6) (n : Bool) (q : BitVec 4) (o : BitVec 21) :
    bit (packB m n q o) 25 = n := by
  rw [bit_eq]; simp only [packB, BitVec.getLsbD_append]; simp

@[simp] theorem fld_packX_26_6 (m : BitVec 6) (f : BitVec 6) (a : BitVec 6) (b : BitVec 6) (i : BitVec 8) :
    fld (packX m f a b i) 26 6 = m := by
  apply BitVec.eq_of_getLsbD_eq
  intro i hi
  have : i < 6 := hi
  simp only [fld, packX, BitVec.getLsbD_extractLsb', BitVec.getLsbD_append]
  interval_cases i <;> simp

@[simp] theorem fld_packX_20_6 (m : BitVec 6) (f : BitVec 6) (a : BitVec 6) (b : BitVec 6) (i : BitVec 8) :
    fld (packX m f a b i) 20 6 = f := by
  apply BitVec.eq_of_getLsbD_eq
  intro i hi
  have : i < 6 := hi
  simp only [fld, packX, BitVec.getLsbD_extractLsb', BitVec.getLsbD_append]
  interval_cases i <;> simp

@[simp] theorem fld_packX_14_6 (m : BitVec 6) (f : BitVec 6) (a : BitVec 6) (b : BitVec 6) (i : BitVec 8) :
    fld (packX m f a b i) 14 6 = a := by
  apply BitVec.eq_of_getLsbD_eq
  intro i hi
  have : i < 6 := hi
  simp only [fld, packX, BitVec.getLsbD_extractLsb', BitVec.getLsbD_append]
  interval_cases i <;> simp

@[simp] theorem fld_packX_14_3 (m : BitVec 6) (f : BitVec 6) (a : BitVec 6) (b : BitVec 6) (i : BitVec 8) :
    fld (packX m f a b i) 14 3 = a.extractLsb' 0 3 := by
  apply BitVec.eq_of_getLsbD_eq
  intro i hi
  have : i < 3 := hi
  simp only [fld, packX, BitVec.getLsbD_extractLsb', BitVec.getLsbD_append]
  interval_cases i <;> simp

@[simp] theorem fld_packX_8_6 (m : BitVec 6) (f : BitVec 6) (a : BitVec 6) (b : BitVec 6) (i : BitVec 8) :
    fld (packX m f a b i) 8 6 = b := by
  apply BitVec.eq_of_getLsbD_eq
  intro i hi
  have : i < 6 := hi
  simp only [fld, packX, BitVec.getLsbD_extractLsb', BitVec.getLsbD_append]
  interval_cases i <;> simp

@[simp] theorem fld_packX_0_8 (m : BitVec 6) (f : BitVec 6) (a : BitVec 6) (b : BitVec 6) (i : BitVec 8) :
    fld (packX m f a b i) 0 8 = i := by
  apply BitVec.eq_of_getLsbD_eq
  intro i hi
  have : i < 8 := hi
  simp only [fld, packX, BitVec.getLsbD_extractLsb', BitVec.getLsbD_append]
  interval_cases i <;> simp

@[simp] theorem fld_packX_0_6 (m : BitVec 6) (f : BitVec 6) (a : BitVec 6) (b : BitVec 6) (i : BitVec 8) :
    fld (packX m f a b i) 0 6 = i.extractLsb' 0 6 := by
  apply BitVec.eq_of_getLsbD_eq
  intro i hi
  have : i < 6 := hi
  simp only [fld, packX, BitVec.getLsbD_extractLsb', BitVec.getLsbD_append]
  interval_cases i <;> simp

@[simp] theorem fld_packX_0_5 (m : BitVec 6) (f : BitVec 6) (a : BitVec 6) (b : BitVec 6) (i : BitVec 8) :
    fld (packX m f a b i) 0 5 = i.extractLsb' 0 5 := by
  apply BitVec.eq_of_getLsbD_eq
  intro i hi
  have : i < 5 := hi
  simp only [fld, packX, BitVec.getLsbD_extractLsb', BitVec.getLsbD_append]
  interval_cases i <;> simp

@[simp] theorem fld_packX_0_4 (m : BitVec 6) (f : BitVec 6) (a : BitVec 6) (b : BitVec 6) (i : BitVec 8) :
    fld (packX m f a b i) 0 4 = i.extractLsb' 0 4 := by
  apply BitVec.eq_of_getLsbD_eq
  intro i hi
  have : i < 4 := hi
  simp only [fld, packX, BitVec.getLsbD_extractLsb', BitVec.getLsbD_append]
  interval_cases i <;> simp

@[simp] theorem bit_packX_0 (m : BitVec 6) (f : BitVec 6) (a : BitVec 6) (b : BitVec 6) (i : BitVec 8) :
    bit (packX m f a b i) 0 = i.getLsbD 0 := by
  rw [bit_eq]; simp only [packX, BitVec.getLsbD_append]; simp

@[simp] theorem fld_packH_26_6 (k : BitVec 4) (p : BitVec 22) : fld (packH k p) 26 6 = 0x3E := by
  have h : ∀ m : BitVec 6, fld (m ++ k ++ p) 26 6 = m := by
    intro m
    apply BitVec.eq_of_getLsbD_eq
    intro i hi
    have : i < 6 := hi
    simp only [fld, BitVec.getLsbD_extractLsb', BitVec.getLsbD_append]
    interval_cases i <;> simp
  exact h 0x3E

@[simp] theorem fld_packH_22_4 (k : BitVec 4) (p : BitVec 22) :
    fld (packH k p) 22 4 = k := by
  apply BitVec.eq_of_getLsbD_eq
  intro i hi
  have : i < 4 := hi
  simp only [fld, packH, BitVec.getLsbD_extractLsb', BitVec.getLsbD_append]
  interval_cases i <;> simp

@[simp] theorem fld_packH_22_3 (k : BitVec 4) (p : BitVec 22) :
    fld (packH k p) 22 3 = k.extractLsb' 0 3 := by
  apply BitVec.eq_of_getLsbD_eq
  intro i hi
  have : i < 3 := hi
  simp only [fld, packH, BitVec.getLsbD_extractLsb', BitVec.getLsbD_append]
  interval_cases i <;> simp

@[simp] theorem fld_packH_0_22 (k : BitVec 4) (p : BitVec 22) :
    fld (packH k p) 0 22 = p := by
  apply BitVec.eq_of_getLsbD_eq
  intro i hi
  have : i < 22 := hi
  simp only [fld, packH, BitVec.getLsbD_extractLsb', BitVec.getLsbD_append]
  interval_cases i <;> simp

@[simp] theorem fld_packH_18_4 (k : BitVec 4) (p : BitVec 22) :
    fld (packH k p) 18 4 = p.extractLsb' 18 4 := by
  apply BitVec.eq_of_getLsbD_eq
  intro i hi
  have : i < 4 := hi
  simp only [fld, packH, BitVec.getLsbD_extractLsb', BitVec.getLsbD_append]
  interval_cases i <;> simp

@[simp] theorem fld_packH_14_3 (k : BitVec 4) (p : BitVec 22) :
    fld (packH k p) 14 3 = p.extractLsb' 14 3 := by
  apply BitVec.eq_of_getLsbD_eq
  intro i hi
  have : i < 3 := hi
  simp only [fld, packH, BitVec.getLsbD_extractLsb', BitVec.getLsbD_append]
  interval_cases i <;> simp

@[simp] theorem fld_packH_0_4 (k : BitVec 4) (p : BitVec 22) :
    fld (packH k p) 0 4 = p.extractLsb' 0 4 := by
  apply BitVec.eq_of_getLsbD_eq
  intro i hi
  have : i < 4 := hi
  simp only [fld, packH, BitVec.getLsbD_extractLsb', BitVec.getLsbD_append]
  interval_cases i <;> simp

@[simp] theorem fld_packH_3_2 (k : BitVec 4) (p : BitVec 22) :
    fld (packH k p) 3 2 = p.extractLsb' 3 2 := by
  apply BitVec.eq_of_getLsbD_eq
  intro i hi
  have : i < 2 := hi
  simp only [fld, packH, BitVec.getLsbD_extractLsb', BitVec.getLsbD_append]
  interval_cases i <;> simp

@[simp] theorem fld_packH_0_2 (k : BitVec 4) (p : BitVec 22) :
    fld (packH k p) 0 2 = p.extractLsb' 0 2 := by
  apply BitVec.eq_of_getLsbD_eq
  intro i hi
  have : i < 2 := hi
  simp only [fld, packH, BitVec.getLsbD_extractLsb', BitVec.getLsbD_append]
  interval_cases i <;> simp

@[simp] theorem bit_packH_17 (k : BitVec 4) (p : BitVec 22) :
    bit (packH k p) 17 = p.getLsbD 17 := by
  rw [bit_eq]; simp only [packH, BitVec.getLsbD_append]; simp

@[simp] theorem bit_packH_4 (k : BitVec 4) (p : BitVec 22) :
    bit (packH k p) 4 = p.getLsbD 4 := by
  rw [bit_eq]; simp only [packH, BitVec.getLsbD_append]; simp

@[simp] theorem bit_packH_2 (k : BitVec 4) (p : BitVec 22) :
    bit (packH k p) 2 = p.getLsbD 2 := by
  rw [bit_eq]; simp only [packH, BitVec.getLsbD_append]; simp

/-! ### Parts of joined fields -/

@[simp] theorem part_2_4_4_2 (x : BitVec 2) (y : BitVec 4) :
    (x ++ y).extractLsb' 4 2 = x := by
  apply BitVec.eq_of_getLsbD_eq
  intro i hi
  have : i < 2 := hi
  simp only [BitVec.getLsbD_extractLsb', BitVec.getLsbD_append]
  interval_cases i <;> simp

@[simp] theorem part_2_4_0_4 (x : BitVec 2) (y : BitVec 4) :
    (x ++ y).extractLsb' 0 4 = y := by
  apply BitVec.eq_of_getLsbD_eq
  intro i hi
  have : i < 4 := hi
  simp only [BitVec.getLsbD_extractLsb', BitVec.getLsbD_append]
  interval_cases i <;> simp

@[simp] theorem part_4_2_2_4 (x : BitVec 4) (y : BitVec 2) :
    (x ++ y).extractLsb' 2 4 = x := by
  apply BitVec.eq_of_getLsbD_eq
  intro i hi
  have : i < 4 := hi
  simp only [BitVec.getLsbD_extractLsb', BitVec.getLsbD_append]
  interval_cases i <;> simp

@[simp] theorem part_4_2_0_2 (x : BitVec 4) (y : BitVec 2) :
    (x ++ y).extractLsb' 0 2 = y := by
  apply BitVec.eq_of_getLsbD_eq
  intro i hi
  have : i < 2 := hi
  simp only [BitVec.getLsbD_extractLsb', BitVec.getLsbD_append]
  interval_cases i <;> simp

@[simp] theorem part_3_3_3_3 (x : BitVec 3) (y : BitVec 3) :
    (x ++ y).extractLsb' 3 3 = x := by
  apply BitVec.eq_of_getLsbD_eq
  intro i hi
  have : i < 3 := hi
  simp only [BitVec.getLsbD_extractLsb', BitVec.getLsbD_append]
  interval_cases i <;> simp

@[simp] theorem part_3_3_0_3 (x : BitVec 3) (y : BitVec 3) :
    (x ++ y).extractLsb' 0 3 = y := by
  apply BitVec.eq_of_getLsbD_eq
  intro i hi
  have : i < 3 := hi
  simp only [BitVec.getLsbD_extractLsb', BitVec.getLsbD_append]
  interval_cases i <;> simp

@[simp] theorem part_8_5_5_8 (x : BitVec 8) (y : BitVec 5) :
    (x ++ y).extractLsb' 5 8 = x := by
  apply BitVec.eq_of_getLsbD_eq
  intro i hi
  have : i < 8 := hi
  simp only [BitVec.getLsbD_extractLsb', BitVec.getLsbD_append]
  interval_cases i <;> simp

@[simp] theorem part_8_5_0_5 (x : BitVec 8) (y : BitVec 5) :
    (x ++ y).extractLsb' 0 5 = y := by
  apply BitVec.eq_of_getLsbD_eq
  intro i hi
  have : i < 5 := hi
  simp only [BitVec.getLsbD_extractLsb', BitVec.getLsbD_append]
  interval_cases i <;> simp

@[simp] theorem part_3_5_5_3 (x : BitVec 3) (y : BitVec 5) :
    (x ++ y).extractLsb' 5 3 = x := by
  apply BitVec.eq_of_getLsbD_eq
  intro i hi
  have : i < 3 := hi
  simp only [BitVec.getLsbD_extractLsb', BitVec.getLsbD_append]
  interval_cases i <;> simp

@[simp] theorem part_3_5_0_5 (x : BitVec 3) (y : BitVec 5) :
    (x ++ y).extractLsb' 0 5 = y := by
  apply BitVec.eq_of_getLsbD_eq
  intro i hi
  have : i < 5 := hi
  simp only [BitVec.getLsbD_extractLsb', BitVec.getLsbD_append]
  interval_cases i <;> simp

@[simp] theorem part_4_4_4_4 (x : BitVec 4) (y : BitVec 4) :
    (x ++ y).extractLsb' 4 4 = x := by
  apply BitVec.eq_of_getLsbD_eq
  intro i hi
  have : i < 4 := hi
  simp only [BitVec.getLsbD_extractLsb', BitVec.getLsbD_append]
  interval_cases i <;> simp

@[simp] theorem part_4_4_0_4 (x : BitVec 4) (y : BitVec 4) :
    (x ++ y).extractLsb' 0 4 = y := by
  apply BitVec.eq_of_getLsbD_eq
  intro i hi
  have : i < 4 := hi
  simp only [BitVec.getLsbD_extractLsb', BitVec.getLsbD_append]
  interval_cases i <;> simp

@[simp] theorem part_7_1_1_7 (x : BitVec 7) (y : BitVec 1) :
    (x ++ y).extractLsb' 1 7 = x := by
  apply BitVec.eq_of_getLsbD_eq
  intro i hi
  have : i < 7 := hi
  simp only [BitVec.getLsbD_extractLsb', BitVec.getLsbD_append]
  interval_cases i <;> simp

@[simp] theorem part_7_1_0_1 (x : BitVec 7) (y : BitVec 1) :
    (x ++ y).extractLsb' 0 1 = y := by
  apply BitVec.eq_of_getLsbD_eq
  intro i hi
  have : i < 1 := hi
  simp only [BitVec.getLsbD_extractLsb', BitVec.getLsbD_append]
  interval_cases i; simp

@[simp] theorem part_2_6_6_2 (x : BitVec 2) (y : BitVec 6) :
    (x ++ y).extractLsb' 6 2 = x := by
  apply BitVec.eq_of_getLsbD_eq
  intro i hi
  have : i < 2 := hi
  simp only [BitVec.getLsbD_extractLsb', BitVec.getLsbD_append]
  interval_cases i <;> simp

@[simp] theorem part_2_6_0_6 (x : BitVec 2) (y : BitVec 6) :
    (x ++ y).extractLsb' 0 6 = y := by
  apply BitVec.eq_of_getLsbD_eq
  intro i hi
  have : i < 6 := hi
  simp only [BitVec.getLsbD_extractLsb', BitVec.getLsbD_append]
  interval_cases i <;> simp

@[simp] theorem part_5_1_1_5 (x : BitVec 5) (y : BitVec 1) :
    (x ++ y).extractLsb' 1 5 = x := by
  apply BitVec.eq_of_getLsbD_eq
  intro i hi
  have : i < 5 := hi
  simp only [BitVec.getLsbD_extractLsb', BitVec.getLsbD_append]
  interval_cases i <;> simp

@[simp] theorem part_5_1_0_1 (x : BitVec 5) (y : BitVec 1) :
    (x ++ y).extractLsb' 0 1 = y := by
  apply BitVec.eq_of_getLsbD_eq
  intro i hi
  have : i < 1 := hi
  simp only [BitVec.getLsbD_extractLsb', BitVec.getLsbD_append]
  interval_cases i; simp

@[simp] theorem part_1_3_3_1 (x : BitVec 1) (y : BitVec 3) :
    (x ++ y).extractLsb' 3 1 = x := by
  apply BitVec.eq_of_getLsbD_eq
  intro i hi
  have : i < 1 := hi
  simp only [BitVec.getLsbD_extractLsb', BitVec.getLsbD_append]
  interval_cases i; simp

@[simp] theorem part_1_3_0_3 (x : BitVec 1) (y : BitVec 3) :
    (x ++ y).extractLsb' 0 3 = y := by
  apply BitVec.eq_of_getLsbD_eq
  intro i hi
  have : i < 3 := hi
  simp only [BitVec.getLsbD_extractLsb', BitVec.getLsbD_append]
  interval_cases i <;> simp

@[simp] theorem part_4_1_3_14_18_4 (x : BitVec 4) (y : BitVec 1) (z : BitVec 3) (u : BitVec 14) :
    (x ++ y ++ z ++ u).extractLsb' 18 4 = x := by
  apply BitVec.eq_of_getLsbD_eq
  intro i hi
  have : i < 4 := hi
  simp only [BitVec.getLsbD_extractLsb', BitVec.getLsbD_append]
  interval_cases i <;> simp

@[simp] theorem part_4_1_3_14_17_1 (x : BitVec 4) (y : BitVec 1) (z : BitVec 3) (u : BitVec 14) :
    (x ++ y ++ z ++ u).extractLsb' 17 1 = y := by
  apply BitVec.eq_of_getLsbD_eq
  intro i hi
  have : i < 1 := hi
  simp only [BitVec.getLsbD_extractLsb', BitVec.getLsbD_append]
  interval_cases i; simp

@[simp] theorem part_4_1_3_14_14_3 (x : BitVec 4) (y : BitVec 1) (z : BitVec 3) (u : BitVec 14) :
    (x ++ y ++ z ++ u).extractLsb' 14 3 = z := by
  apply BitVec.eq_of_getLsbD_eq
  intro i hi
  have : i < 3 := hi
  simp only [BitVec.getLsbD_extractLsb', BitVec.getLsbD_append]
  interval_cases i <;> simp

@[simp] theorem part_4_1_3_14_0_14 (x : BitVec 4) (y : BitVec 1) (z : BitVec 3) (u : BitVec 14) :
    (x ++ y ++ z ++ u).extractLsb' 0 14 = u := by
  apply BitVec.eq_of_getLsbD_eq
  intro i hi
  have : i < 14 := hi
  simp only [BitVec.getLsbD_extractLsb', BitVec.getLsbD_append]
  interval_cases i <;> simp

@[simp] theorem part_17_1_4_5_17 (x : BitVec 17) (y : BitVec 1) (z : BitVec 4) :
    (x ++ y ++ z).extractLsb' 5 17 = x := by
  apply BitVec.eq_of_getLsbD_eq
  intro i hi
  have : i < 17 := hi
  simp only [BitVec.getLsbD_extractLsb', BitVec.getLsbD_append]
  interval_cases i <;> simp

@[simp] theorem part_17_1_4_4_1 (x : BitVec 17) (y : BitVec 1) (z : BitVec 4) :
    (x ++ y ++ z).extractLsb' 4 1 = y := by
  apply BitVec.eq_of_getLsbD_eq
  intro i hi
  have : i < 1 := hi
  simp only [BitVec.getLsbD_extractLsb', BitVec.getLsbD_append]
  interval_cases i; simp

@[simp] theorem part_17_1_4_0_4 (x : BitVec 17) (y : BitVec 1) (z : BitVec 4) :
    (x ++ y ++ z).extractLsb' 0 4 = z := by
  apply BitVec.eq_of_getLsbD_eq
  intro i hi
  have : i < 4 := hi
  simp only [BitVec.getLsbD_extractLsb', BitVec.getLsbD_append]
  interval_cases i <;> simp

@[simp] theorem part_17_2_1_2_5_17 (x : BitVec 17) (y : BitVec 2) (z : BitVec 1) (u : BitVec 2) :
    (x ++ y ++ z ++ u).extractLsb' 5 17 = x := by
  apply BitVec.eq_of_getLsbD_eq
  intro i hi
  have : i < 17 := hi
  simp only [BitVec.getLsbD_extractLsb', BitVec.getLsbD_append]
  interval_cases i <;> simp

@[simp] theorem part_17_2_1_2_3_2 (x : BitVec 17) (y : BitVec 2) (z : BitVec 1) (u : BitVec 2) :
    (x ++ y ++ z ++ u).extractLsb' 3 2 = y := by
  apply BitVec.eq_of_getLsbD_eq
  intro i hi
  have : i < 2 := hi
  simp only [BitVec.getLsbD_extractLsb', BitVec.getLsbD_append]
  interval_cases i <;> simp

@[simp] theorem part_17_2_1_2_2_1 (x : BitVec 17) (y : BitVec 2) (z : BitVec 1) (u : BitVec 2) :
    (x ++ y ++ z ++ u).extractLsb' 2 1 = z := by
  apply BitVec.eq_of_getLsbD_eq
  intro i hi
  have : i < 1 := hi
  simp only [BitVec.getLsbD_extractLsb', BitVec.getLsbD_append]
  interval_cases i; simp

@[simp] theorem part_17_2_1_2_0_2 (x : BitVec 17) (y : BitVec 2) (z : BitVec 1) (u : BitVec 2) :
    (x ++ y ++ z ++ u).extractLsb' 0 2 = u := by
  apply BitVec.eq_of_getLsbD_eq
  intro i hi
  have : i < 2 := hi
  simp only [BitVec.getLsbD_extractLsb', BitVec.getLsbD_append]
  interval_cases i <;> simp

@[simp] theorem part_2_3_1_4_2 (x : BitVec 2) (y : BitVec 3) (z : BitVec 1) :
    (x ++ y ++ z).extractLsb' 4 2 = x := by
  apply BitVec.eq_of_getLsbD_eq
  intro i hi
  have : i < 2 := hi
  simp only [BitVec.getLsbD_extractLsb', BitVec.getLsbD_append]
  interval_cases i <;> simp

@[simp] theorem part_2_3_1_1_3 (x : BitVec 2) (y : BitVec 3) (z : BitVec 1) :
    (x ++ y ++ z).extractLsb' 1 3 = y := by
  apply BitVec.eq_of_getLsbD_eq
  intro i hi
  have : i < 3 := hi
  simp only [BitVec.getLsbD_extractLsb', BitVec.getLsbD_append]
  interval_cases i <;> simp

@[simp] theorem part_2_3_1_0_1 (x : BitVec 2) (y : BitVec 3) (z : BitVec 1) :
    (x ++ y ++ z).extractLsb' 0 1 = z := by
  apply BitVec.eq_of_getLsbD_eq
  intro i hi
  have : i < 1 := hi
  simp only [BitVec.getLsbD_extractLsb', BitVec.getLsbD_append]
  interval_cases i; simp

@[simp] theorem bit_guard (x : BitVec 4) (n : Bool) (c : BitVec 3) (z : BitVec 14) : (x ++ BitVec.ofBool n ++ c ++ z : BitVec 22)[17] = n := by
  rw [← BitVec.getLsbD_eq_getElem]
  simp only [BitVec.getLsbD_append]
  simp

@[simp] theorem bit_sched (z : BitVec 17) (y : Bool) (s : BitVec 4) : (z ++ BitVec.ofBool y ++ s : BitVec 22)[4] = y := by
  rw [← BitVec.getLsbD_eq_getElem]
  simp only [BitVec.getLsbD_append]
  simp

@[simp] theorem bit_rnd (z : BitVec 17) (k : BitVec 2) (r : Bool) (m : BitVec 2) : (z ++ k ++ BitVec.ofBool r ++ m : BitVec 22)[2] = r := by
  rw [← BitVec.getLsbD_eq_getElem]
  simp only [BitVec.getLsbD_append]
  simp

@[simp] theorem predF_low (q : PredF) : (predF q).extractLsb' 0 4 = q := part_2_4_0_4 0 q

end Sys2Proof
end

