-- ==== Sys2Proof/Laws/Store.lean ====
section
/-! SUPPORT. Laws of the containers: what a map answers after an update, what a byte reads after a write, and that every
memory operation keeps the canonical form. -/

namespace Sys2Proof

variable {α β : Type}

/-! ## Maps -/

@[simp] theorem AMap.find_nil (k : Nat) : AMap.find ([] : AMap α) k = none := rfl

@[simp] theorem AMap.find_cons (j : Nat) (v : α) (r : AMap α) (k : Nat) :
    AMap.find ((j, v) :: r) k = if j = k then some v else AMap.find r k := rfl

@[simp] theorem AMap.find_put_self (m : AMap α) (k : Nat) (v : α) : (m.put k v).find k = some v := by
  induction m with
  | nil => simp [AMap.put]
  | cons p r ih =>
    obtain ⟨j, w⟩ := p
    simp only [AMap.put]
    split
    · simp
    · split
      · simp
      · rename_i h; simp [Ne.symm h, ih]

theorem AMap.find_put_ne (m : AMap α) {j k : Nat} (v : α) (h : j ≠ k) : (m.put k v).find j = m.find j := by
  induction m with
  | nil => simp [AMap.put, Ne.symm h]
  | cons p r ih =>
    obtain ⟨i, w⟩ := p
    simp only [AMap.put]
    split
    · simp [Ne.symm h]
    · split
      · rename_i e; subst e; simp [Ne.symm h]
      · simp [ih]

theorem AMap.find_put (m : AMap α) (j k : Nat) (v : α) : (m.put k v).find j = if j = k then some v else m.find j := by
  by_cases h : j = k
  · subst h; simp
  · simp [h, AMap.find_put_ne m v h]

@[simp] theorem AMap.find_del_self (m : AMap α) (k : Nat) : (m.del k).find k = none := by
  induction m with
  | nil => rfl
  | cons p r ih =>
    obtain ⟨j, w⟩ := p
    simp only [AMap.del]
    split
    · exact ih
    · rename_i h; simp [h, ih]

theorem AMap.find_del_ne (m : AMap α) {j k : Nat} (h : j ≠ k) : (m.del k).find j = m.find j := by
  induction m with
  | nil => rfl
  | cons p r ih =>
    obtain ⟨i, w⟩ := p
    simp only [AMap.del]
    split
    · rename_i e; subst e; simp [Ne.symm h, ih]
    · simp [ih]

theorem AMap.find_del (m : AMap α) (j k : Nat) : (m.del k).find j = if j = k then none else m.find j := by
  by_cases h : j = k
  · subst h; simp
  · simp [h, AMap.find_del_ne m h]

@[simp] theorem AMap.find_mapVals (m : AMap α) (f : Nat → α → β) (k : Nat) :
    (m.mapVals f).find k = (m.find k).map (f k) := by
  induction m with
  | nil => rfl
  | cons p r ih =>
    obtain ⟨i, w⟩ := p
    simp only [AMap.mapVals, List.map_cons, AMap.find_cons]
    split
    · rename_i e; subst e; rfl
    · exact ih

/-- After a list of updates, a key reads as the last update of it, or as before. -/
theorem AMap.find_foldl_put (us : List (Nat × α)) (m : AMap α) (k : Nat) :
    (us.foldl (fun m u => m.put u.1 u.2) m).find k
      = ((us.reverse.find? (·.1 == k)).map Prod.snd).or (m.find k) := by
  induction us generalizing m with
  | nil => simp
  | cons u r ih =>
    simp only [List.foldl_cons, List.reverse_cons, List.find?_append, ih]
    cases hr : r.reverse.find? (·.1 == k) with
    | some x => simp
    | none =>
      by_cases h : u.1 = k
      · subst h; simp
      · simp [h, AMap.find_put_ne m u.2 (Ne.symm h)]

/-- The updates of distinct or repeated keys by one function. -/
theorem AMap.find_foldl_map (ls : List Nat) (g : Nat → α) (m : AMap α) (k : Nat) :
    ((ls.map fun l => (l, g l)).foldl (fun m u => m.put u.1 u.2) m).find k = if k ∈ ls then some (g k) else m.find k := by
  induction ls generalizing m with
  | nil => simp
  | cons a r ih =>
    simp only [List.map_cons, List.foldl_cons, ih, AMap.find_put, List.mem_cons]
    by_cases h : k ∈ r
    · simp [h]
    · by_cases e : k = a
      · subst e; simp
      · simp [h, e]

/-! ## Canonical form -/

theorem risingFrom_le {b c : Nat} {l : List Nat} (h : risingFrom b l = true) (hc : c ≤ b) : risingFrom c l = true := by
  cases l with
  | nil => rfl
  | cons k r =>
    simp only [risingFrom, Bool.and_eq_true, decide_eq_true_eq] at h ⊢
    exact ⟨by omega, h.2⟩

theorem risingFrom_put {b k : Nat} {m : AMap α} {v : α} (h : risingFrom b (m.map Prod.fst) = true) (hb : b ≤ k) :
    risingFrom b ((m.put k v).map Prod.fst) = true := by
  induction m generalizing b with
  | nil => simp [AMap.put, risingFrom, hb]
  | cons p r ih =>
    obtain ⟨j, w⟩ := p
    simp only [List.map_cons, risingFrom, Bool.and_eq_true, decide_eq_true_eq] at h
    simp only [AMap.put]
    split
    · simp only [List.map_cons, risingFrom, Bool.and_eq_true, decide_eq_true_eq]
      exact ⟨hb, by omega, h.2⟩
    · split
      · rename_i e; subst e
        simp only [List.map_cons, risingFrom, Bool.and_eq_true, decide_eq_true_eq]
        exact h
      · simp only [List.map_cons, risingFrom, Bool.and_eq_true, decide_eq_true_eq]
        exact ⟨h.1, ih h.2 (by omega)⟩

theorem risingFrom_filter {b : Nat} {l : List Nat} (f : Nat → Bool) (h : risingFrom b l = true) :
    risingFrom b (l.filter f) = true := by
  induction l generalizing b with
  | nil => rfl
  | cons k r ih =>
    simp only [risingFrom, Bool.and_eq_true, decide_eq_true_eq] at h
    simp only [List.filter_cons]
    split
    · simp only [risingFrom, Bool.and_eq_true, decide_eq_true_eq]
      exact ⟨h.1, ih h.2⟩
    · exact risingFrom_le (ih h.2) (by omega)

theorem AMap.map_fst_del (m : AMap α) (k : Nat) : (m.del k).map Prod.fst = (m.map Prod.fst).filter (· != k) := by
  induction m with
  | nil => rfl
  | cons p r ih =>
    obtain ⟨j, w⟩ := p
    simp only [AMap.del, List.map_cons, List.filter_cons]
    split
    · rename_i e; subst e; simpa using ih
    · rename_i e; simpa [e] using ih

theorem risingFrom_del {b : Nat} {m : AMap α} (k : Nat) (h : risingFrom b (m.map Prod.fst) = true) :
    risingFrom b ((m.del k).map Prod.fst) = true := by
  rw [AMap.map_fst_del]; exact risingFrom_filter _ h

theorem risingFrom_nput {b k : Nat} {s : NSet} (h : risingFrom b s = true) (hb : b ≤ k) :
    risingFrom b (NSet.put s k) = true := by
  induction s generalizing b with
  | nil => simp [NSet.put, risingFrom, hb]
  | cons j r ih =>
    simp only [risingFrom, Bool.and_eq_true, decide_eq_true_eq] at h
    simp only [NSet.put]
    split
    · simp only [risingFrom, Bool.and_eq_true, decide_eq_true_eq]
      exact ⟨hb, by omega, h.2⟩
    · split
      · simpa [risingFrom] using h
      · simp only [risingFrom, Bool.and_eq_true, decide_eq_true_eq]
        exact ⟨h.1, ih h.2 (by omega)⟩

theorem NSet.del_eq_filter (s : NSet) (k : Nat) : NSet.del s k = s.filter (· != k) := by
  induction s with
  | nil => rfl
  | cons j r ih =>
    simp only [NSet.del, List.filter_cons]
    split
    · rename_i e; subst e; simpa using ih
    · rename_i e; simpa [e] using ih

theorem risingFrom_nset {s : NSet} (k : Nat) (t : Bool) (h : risingFrom 0 s = true) :
    risingFrom 0 (NSet.set s k t) = true := by
  unfold NSet.set
  split
  · exact risingFrom_nput h (Nat.zero_le k)
  · rw [NSet.del_eq_filter]; exact risingFrom_filter _ h

theorem NSet.mem_put (s : NSet) (j k : Nat) : j ∈ NSet.put s k ↔ j = k ∨ j ∈ s := by
  induction s with
  | nil => simp [NSet.put]
  | cons i r ih =>
    simp only [NSet.put]
    split
    · simp
    · split
      · rename_i e; subst e; simp
      · simp only [List.mem_cons, ih]; tauto

theorem NSet.contains_set (s : NSet) (j k : Nat) (t : Bool) :
    (NSet.set s k t).contains j = if j = k then t else s.contains j := by
  have h : (NSet.set s k t).contains j = true ↔ (if j = k then t else s.contains j) = true := by
    unfold NSet.set
    cases t
    · rw [if_neg (by simp), NSet.del_eq_filter]
      by_cases e : j = k <;> simp [e, List.mem_filter]
    · rw [if_pos rfl, List.contains_iff_mem, NSet.mem_put]
      by_cases e : j = k <;> simp [e]
  exact Bool.eq_iff_iff.2 h

theorem Mem.wf_iff (m : Mem) : m.wf = true ↔ risingFrom 0 (m.cells.map Prod.fst) = true
    ∧ (∀ c ∈ m.cells, c.2 ≠ Mem.unlisted) ∧ risingFrom 0 m.tags = true ∧ risingFrom 0 m.poison = true := by
  simp [Mem.wf, List.all_eq_true, and_assoc]

@[simp] theorem Mem.wf_empty : Mem.empty.wf = true := by decide

theorem AMap.mem_put {m : AMap α} {k : Nat} {v : α} {c : Nat × α} (h : c ∈ m.put k v) : c = (k, v) ∨ c ∈ m := by
  induction m with
  | nil => simpa [AMap.put] using h
  | cons p r ih =>
    obtain ⟨j, w⟩ := p
    simp only [AMap.put] at h
    split at h
    · simpa using h
    · split at h
      · simp only [List.mem_cons] at h ⊢; tauto
      · simp only [List.mem_cons] at h ⊢
        rcases h with h | h
        · exact .inr (.inl h)
        · rcases ih h with h | h
          · exact .inl h
          · exact .inr (.inr h)

theorem AMap.mem_del {m : AMap α} {k : Nat} {c : Nat × α} (h : c ∈ m.del k) : c ∈ m := by
  induction m with
  | nil => simp [AMap.del] at h
  | cons p r ih =>
    obtain ⟨j, w⟩ := p
    simp only [AMap.del] at h
    split at h
    · exact List.mem_cons_of_mem _ (ih h)
    · simp only [List.mem_cons] at h ⊢
      rcases h with h | h
      · exact .inl h
      · exact .inr (ih h)

theorem Mem.wf_setByte {m : Mem} (a : Nat) (b : Byte) (h : m.wf = true) : (m.setByte a b).wf = true := by
  rw [Mem.wf_iff] at h ⊢
  obtain ⟨h1, h2, h3, h4⟩ := h
  unfold Mem.setByte
  split
  · exact ⟨risingFrom_del a h1, fun c hc => h2 c (AMap.mem_del hc), h3, h4⟩
  · rename_i hb
    refine ⟨risingFrom_put h1 (Nat.zero_le a), fun c hc => ?_, h3, h4⟩
    rcases AMap.mem_put hc with e | e
    · subst e; exact hb
    · exact h2 c e

theorem Mem.wf_setBytes {m : Mem} (a : Nat) (bs : List Byte) (h : m.wf = true) : (m.setBytes a bs).wf = true := by
  induction bs generalizing m a with
  | nil => exact h
  | cons b r ih => exact ih (a + 1) (Mem.wf_setByte a b h)

theorem Mem.wf_setTag {m : Mem} (sec : Nat) (t : Bool) (h : m.wf = true) : (m.setTag sec t).wf = true := by
  rw [Mem.wf_iff] at h ⊢
  exact ⟨h.1, h.2.1, risingFrom_nset sec t h.2.2.1, h.2.2.2⟩

theorem Mem.wf_setPoison {m : Mem} (sec : Nat) (t : Bool) (h : m.wf = true) : (m.setPoison sec t).wf = true := by
  rw [Mem.wf_iff] at h ⊢
  exact ⟨h.1, h.2.1, h.2.2.1, risingFrom_nset sec t h.2.2.2⟩

theorem Mem.wf_mark {m : Mem} (sec : Nat) (h : m.wf = true) : (m.mark sec).wf = true :=
  Mem.wf_setTag sec true (Mem.wf_setPoison sec true h)

theorem Mem.wf_coverSector {m : Mem} (a n : Nat) (t : Bool) (sec : Nat) (h : m.wf = true) :
    (Mem.coverSector a n t m sec).wf = true := by
  unfold Mem.coverSector
  split
  · exact Mem.wf_setPoison sec false (Mem.wf_setTag sec t h)
  · split
    · exact Mem.wf_setTag sec true h
    · exact h

/-- A fold of steps that each keep a property keeps it. -/
theorem foldl_keeps {σ ι : Type} (P : σ → Prop) (f : σ → ι → σ) (hf : ∀ s x, P s → P (f s x)) (xs : List ι) (s : σ)
    (h : P s) : P (xs.foldl f s) := by
  induction xs generalizing s with
  | nil => exact h
  | cons x r ih => exact ih (f s x) (hf s x h)

theorem Mem.wf_store {m : Mem} (a : Nat) (bs : List Byte) (t : Bool) (h : m.wf = true) : (m.store a bs t).wf = true :=
  foldl_keeps (fun m : Mem => m.wf = true) _ (fun _ sec hm => Mem.wf_coverSector a bs.length t sec hm) _ _
    (Mem.wf_setBytes a bs h)

theorem Mem.wf_storeTagged {m : Mem} (fuel a : Nat) (data : List Byte) (tags : List Bool) (h : m.wf = true) :
    (m.storeTagged fuel a data tags).wf = true := by
  induction fuel generalizing m a data tags with
  | zero => exact h
  | succ k ih =>
    simp only [Mem.storeTagged]
    split
    · exact h
    · exact ih _ _ _ (Mem.wf_store a _ _ h)

theorem risingFrom_map_sub {b : Nat} {l : List Nat} (c : Nat) (h : risingFrom b l = true) (hc : ∀ k ∈ l, c ≤ k) :
    risingFrom (b - c) (l.map (· - c)) = true := by
  induction l generalizing b with
  | nil => rfl
  | cons k r ih =>
    simp only [risingFrom, Bool.and_eq_true, decide_eq_true_eq] at h
    have hk := hc k (List.mem_cons_self ..)
    simp only [List.map_cons, risingFrom, Bool.and_eq_true, decide_eq_true_eq]
    refine ⟨by omega, ?_⟩
    have := ih h.2 (fun j hj => hc j (List.mem_cons_of_mem _ hj))
    rwa [show k + 1 - c = k - c + 1 by omega] at this

theorem map_fst_filter (l : AMap α) (f : Nat → Bool) :
    (l.filter fun c => f c.1).map Prod.fst = (l.map Prod.fst).filter f := by
  induction l with
  | nil => rfl
  | cons p r ih =>
    obtain ⟨j, w⟩ := p
    simp only [List.filter_cons, List.map_cons]
    cases f j <;> simp [ih]

/-- A filter that cuts by address keeps the rise of the addresses. -/
theorem risingFrom_cells {b : Nat} {l : AMap α} (f : Nat → Bool) (h : risingFrom b (l.map Prod.fst) = true) :
    risingFrom b ((l.filter fun c => f c.1).map Prod.fst) = true := by
  rw [map_fst_filter]; exact risingFrom_filter f h

theorem Mem.wf_slice {m : Mem} (a n : Nat) (h : m.wf = true) : (m.slice a n).wf = true := by
  rw [Mem.wf_iff] at h ⊢
  obtain ⟨h1, h2, h3, h4⟩ := h
  have cut : ∀ {s : NSet}, risingFrom 0 s = true → risingFrom 0 ((s.filter fun x => a / 32 ≤ x && x < (a + n + 31) / 32).map
      fun x => x - a / 32) = true := by
    intro s hs
    have := risingFrom_map_sub (a / 32) (risingFrom_filter (fun x => a / 32 ≤ x && x < (a + n + 31) / 32) hs)
      (fun k hk => by simp only [List.mem_filter, Bool.and_eq_true, decide_eq_true_eq] at hk; exact hk.2.1)
    simpa using this
  refine ⟨?_, ?_, cut h3, cut h4⟩
  · have := risingFrom_map_sub a (risingFrom_cells (fun k => a ≤ k && k < a + n) h1)
      (fun k hk => by
        rw [map_fst_filter (f := fun k => decide (a ≤ k) && decide (k < a + n))] at hk
        simp only [List.mem_filter, Bool.and_eq_true, decide_eq_true_eq] at hk; exact hk.2.1)
    simpa [Mem.slice, List.map_map, Function.comp_def] using this
  · intro c hc
    simp only [Mem.slice, List.mem_map, List.mem_filter] at hc
    obtain ⟨x, hx, rfl⟩ := hc
    exact h2 x hx.1

theorem Mem.wf_clear {m : Mem} (a n : Nat) (h : m.wf = true) : (m.clear a n).wf = true := by
  rw [Mem.wf_iff] at h ⊢
  obtain ⟨h1, h2, h3, h4⟩ := h
  exact ⟨risingFrom_cells (fun k => !(a ≤ k && k < a + n)) h1, fun c hc => h2 c (List.mem_filter.1 hc).1,
    risingFrom_filter _ h3, risingFrom_filter _ h4⟩

theorem Mem.wf_paste {m : Mem} (a n : Nat) (p : Mem) (h : m.wf = true) : (m.paste a n p).wf = true := by
  have hc := Mem.wf_clear a n h
  rw [Mem.wf_iff] at hc ⊢
  obtain ⟨h1, h2, h3, h4⟩ := hc
  refine ⟨?_, ?_, ?_, ?_⟩
  · exact foldl_keeps (fun l : List Host.Cell => risingFrom 0 (l.map Prod.fst) = true) _
      (fun _ x hl => risingFrom_put hl (Nat.zero_le (a + x.1))) _ _ h1
  · have key : ∀ (xs : List Host.Cell), (∀ x ∈ xs, x.2 ≠ Mem.unlisted) → ∀ (l : List Host.Cell),
        (∀ c ∈ l, c.2 ≠ Mem.unlisted) →
        ∀ c ∈ xs.foldl (fun l x => AMap.put l (a + x.1) x.2) l, c.2 ≠ Mem.unlisted := by
      intro xs
      induction xs with
      | nil => intro _ l hl; exact hl
      | cons x r ih =>
        intro hx l hl
        refine ih (fun y hy => hx y (List.mem_cons_of_mem _ hy)) _ (fun c hc => ?_)
        rcases AMap.mem_put hc with e | e
        · subst e; exact hx x (List.mem_cons_self ..)
        · exact hl c e
    refine key _ (fun x hx => ?_) _ h2
    have := (List.mem_filter.1 hx).2
    simp only [Bool.and_eq_true, bne_iff_ne] at this
    exact this.2
  · exact foldl_keeps (fun l : NSet => risingFrom 0 l = true) _ (fun _ x hl => risingFrom_nput hl (Nat.zero_le _)) _ _ h3
  · exact foldl_keeps (fun l : NSet => risingFrom 0 l = true) _ (fun _ x hl => risingFrom_nput hl (Nat.zero_le _)) _ _ h4

/-- Two rising lists, all of the first below a bound and all of the second from it on, rise together. -/
theorem risingFrom_append {b c : Nat} {l r : List Nat} (hl : risingFrom b l = true) (hlt : ∀ k ∈ l, k < c)
    (hr : risingFrom c r = true) (hbc : b ≤ c) : risingFrom b (l ++ r) = true := by
  induction l generalizing b with
  | nil => exact risingFrom_le hr hbc
  | cons k l ih =>
    simp only [risingFrom, Bool.and_eq_true, decide_eq_true_eq, List.cons_append] at hl ⊢
    exact ⟨hl.1, ih hl.2 (fun j hj => hlt j (List.mem_cons_of_mem _ hj)) (hlt k (List.mem_cons_self ..))⟩

theorem risingFrom_range' (b a n : Nat) (h : b ≤ a) : risingFrom b (List.range' a n) = true := by
  induction n generalizing a b with
  | zero => rfl
  | succ n ih =>
    simp only [List.range'_succ, risingFrom, Bool.and_eq_true, decide_eq_true_eq]
    exact ⟨h, ih _ _ (Nat.le_refl _)⟩

/-- A rising list cut at its elements from a bound on rises from that bound. -/
theorem risingFrom_from {b c : Nat} {l : List Nat} (h : risingFrom b l = true) :
    risingFrom c (l.filter fun k => decide (c ≤ k)) = true := by
  induction l generalizing b with
  | nil => rfl
  | cons k l ih =>
    simp only [risingFrom, Bool.and_eq_true, decide_eq_true_eq] at h
    by_cases hk : c ≤ k
    · rw [List.filter_cons_of_pos (by simpa using hk)]
      simp only [risingFrom, Bool.and_eq_true, decide_eq_true_eq]
      exact ⟨hk, risingFrom_filter _ h.2⟩
    · rw [List.filter_cons_of_neg (by simpa using hk)]; exact ih h.2

theorem Mem.wf_fill {m : Mem} (a n : Nat) (f : Nat → Byte) (h : m.wf = true) : (m.fill a n f).wf = true := by
  rw [Mem.wf_iff] at h ⊢
  obtain ⟨h1, h2, h3, h4⟩ := h
  have below : ∀ {l : List Nat} {c : Nat}, ∀ k ∈ l.filter (fun k => decide (k < c)), k < c := by
    intro l c k hk; simpa using (List.mem_filter.1 hk).2
  refine ⟨?_, ?_, ?_, risingFrom_filter _ h4⟩
  · simp only [Mem.fill, List.map_append, List.append_assoc]
    rw [map_fst_filter (f := fun k => decide (k < a)), map_fst_filter (f := fun k => decide (a + n ≤ k))]
    refine risingFrom_append (c := a) (risingFrom_filter _ h1) below ?_ (Nat.zero_le _)
    have hmid : risingFrom a ((((List.range n).map fun i => (a + i, f i)).filter fun c => c.2 != Mem.unlisted).map Prod.fst)
        = true ∧ ∀ k ∈ (((List.range n).map fun i => (a + i, f i)).filter fun c => c.2 != Mem.unlisted).map Prod.fst,
          k < a + n := by
      rw [List.filter_map, List.map_map]
      have hcomp : (Prod.fst ∘ fun i => (a + i, f i)) = fun i => a + i := rfl
      rw [hcomp]
      refine ⟨?_, ?_⟩
      · have : ∀ {b : Nat} {l : List Nat}, risingFrom b l = true → risingFrom (a + b) (l.map fun i => a + i) = true := by
          intro b l hl
          induction l generalizing b with
          | nil => rfl
          | cons k l ih =>
            simp only [risingFrom, Bool.and_eq_true, decide_eq_true_eq, List.map_cons] at hl ⊢
            exact ⟨Nat.add_le_add_left hl.1 a, ih hl.2⟩
        have h0 := this (risingFrom_filter ((fun c : Nat × Byte => c.2 != Mem.unlisted) ∘ fun i => (a + i, f i))
          (risingFrom_range' 0 0 n (Nat.le_refl _)))
        rw [List.range_eq_range']
        exact h0
      · intro k hk
        obtain ⟨i, hi, rfl⟩ := List.mem_map.1 hk
        have := List.mem_range.1 (List.mem_filter.1 hi).1
        omega
    exact risingFrom_append hmid.1 hmid.2 (risingFrom_from h1) (Nat.le_add_right _ _)
  · intro c hc
    simp only [Mem.fill, List.mem_append, List.mem_filter] at hc
    rcases hc with (hc | hc) | hc
    · exact h2 c hc.1
    · simpa using hc.2
    · exact h2 c hc.1
  · simp only [Mem.fill, List.append_assoc]
    refine risingFrom_append (c := a / 32) (risingFrom_filter _ h3) below ?_ (Nat.zero_le _)
    refine risingFrom_append (c := (a + n) / 32) (risingFrom_range' _ _ _ (Nat.le_refl _)) ?_ (risingFrom_from h3) (by omega)
    intro k hk
    have := List.mem_range'_1.1 hk
    omega

/-! ## Reads after writes -/

@[simp] theorem Mem.byte_setByte_self (m : Mem) (a : Nat) (b : Byte) : (m.setByte a b).byte a = b := by
  unfold Mem.setByte Mem.byte
  split
  · rename_i h; subst h; simp
  · simp

theorem Mem.byte_setByte_ne (m : Mem) {a c : Nat} (b : Byte) (h : c ≠ a) : (m.setByte a b).byte c = m.byte c := by
  unfold Mem.setByte Mem.byte
  split
  · simp [AMap.find_del_ne m.cells h]
  · simp [AMap.find_put_ne m.cells b h]

/-- A byte outside a write reads as before. -/
theorem Mem.byte_setBytes_out (m : Mem) (a : Nat) (bs : List Byte) (c : Nat) (h : c < a ∨ a + bs.length ≤ c) :
    (m.setBytes a bs).byte c = m.byte c := by
  induction bs generalizing m a with
  | nil => rfl
  | cons b r ih =>
    simp only [List.length_cons] at h
    simp only [Mem.setBytes]
    rw [ih _ _ (by omega), Mem.byte_setByte_ne _ _ (by omega)]

/-- A byte of a write reads as written. -/
theorem Mem.byte_setBytes_in (m : Mem) (a : Nat) (bs : List Byte) (i : Nat) (h : i < bs.length) :
    (m.setBytes a bs).byte (a + i) = bs[i] := by
  induction bs generalizing m a i with
  | nil => simp at h
  | cons b r ih =>
    simp only [Mem.setBytes]
    cases i with
    | zero =>
      rw [Mem.byte_setBytes_out _ _ _ _ (by omega)]
      simp
    | succ k =>
      have := ih (m.setByte a b) (a + 1) k (by simpa using h)
      simpa [Nat.add_assoc, Nat.add_comm 1 k] using this

theorem Mem.bytes_setBytes (m : Mem) (a : Nat) (bs : List Byte) : (m.setBytes a bs).bytes a bs.length = bs := by
  induction bs generalizing m a with
  | nil => rfl
  | cons b r ih =>
    simp only [List.length_cons, Mem.bytes, Mem.setBytes]
    rw [Mem.byte_setBytes_out _ _ _ _ (by omega), ih]
    simp

@[simp] theorem Mem.cells_setTag (m : Mem) (sec : Nat) (t : Bool) : (m.setTag sec t).cells = m.cells := rfl
@[simp] theorem Mem.cells_setPoison (m : Mem) (sec : Nat) (t : Bool) : (m.setPoison sec t).cells = m.cells := rfl
@[simp] theorem Mem.byte_setTag (m : Mem) (sec : Nat) (t : Bool) (a : Nat) : (m.setTag sec t).byte a = m.byte a := rfl
@[simp] theorem Mem.byte_setPoison (m : Mem) (sec : Nat) (t : Bool) (a : Nat) :
    (m.setPoison sec t).byte a = m.byte a := rfl

@[simp] theorem Mem.byte_coverSector (m : Mem) (a n : Nat) (t : Bool) (sec c : Nat) :
    (Mem.coverSector a n t m sec).byte c = m.byte c := by
  unfold Mem.coverSector
  split
  · rfl
  · split <;> rfl

/-- A store leaves what setting the bytes leaves. -/
theorem Mem.byte_store (m : Mem) (a : Nat) (bs : List Byte) (t : Bool) (c : Nat) :
    (m.store a bs t).byte c = (m.setBytes a bs).byte c := by
  unfold Mem.store
  generalize m.setBytes a bs = m'
  induction sectorsOf a bs.length generalizing m' with
  | nil => rfl
  | cons x r ih => simp only [List.foldl_cons]; rw [ih, Mem.byte_coverSector]

theorem Mem.byte_store_out (m : Mem) (a : Nat) (bs : List Byte) (t : Bool) (c : Nat) (h : c < a ∨ a + bs.length ≤ c) :
    (m.store a bs t).byte c = m.byte c := by
  rw [Mem.byte_store, Mem.byte_setBytes_out m a bs c h]

@[simp] theorem Mem.tag_setTag (m : Mem) (sec j : Nat) (t : Bool) :
    (m.setTag sec t).tag j = if j = sec then t else m.tag j := NSet.contains_set m.tags j sec t

@[simp] theorem Mem.poisoned_setPoison (m : Mem) (sec j : Nat) (t : Bool) :
    (m.setPoison sec t).poisoned j = if j = sec then t else m.poisoned j := NSet.contains_set m.poison j sec t

@[simp] theorem Mem.tag_setPoison (m : Mem) (sec j : Nat) (t : Bool) : (m.setPoison sec t).tag j = m.tag j := rfl
@[simp] theorem Mem.poisoned_setTag (m : Mem) (sec j : Nat) (t : Bool) : (m.setTag sec t).poisoned j = m.poisoned j := rfl

theorem leNat_leBytes (n v : Nat) : leNat (leBytes n v) = v % 256 ^ n := by
  induction n generalizing v with
  | zero => simp [leBytes, leNat, Nat.mod_one]
  | succ k ih =>
    have h8 : (BitVec.ofNat 8 v).toNat = v % 256 := BitVec.toNat_ofNat v 8
    simp only [leBytes, leNat, ih, h8]
    rw [Nat.pow_succ', Nat.mod_mul]

@[simp] theorem leBytes_length (n v : Nat) : (leBytes n v).length = n := by
  induction n generalizing v with
  | zero => rfl
  | succ k ih => simp [leBytes, ih]

end Sys2Proof
end

