-- ==== Sys2Proof/Laws/State.lean ====
section
/-! SUPPORT. Laws of the parts of the state: what each update leaves as it was, field by field, and what the part that
it sets reads as. -/

namespace Sys2Proof.Machine

open Sys2Proof

/-! ### Fields under `setTeam` -/

section

variable (s : State) (t : Nat) (T : Team)

@[simp] theorem State.setTeam_mem : (s.setTeam t T).mem = s.mem := rfl
@[simp] theorem State.setTeam_ftime : (s.setTeam t T).ftime = s.ftime := rfl
@[simp] theorem State.setTeam_clkA : (s.setTeam t T).clkA = s.clkA := rfl
@[simp] theorem State.setTeam_clkB : (s.setTeam t T).clkB = s.clkB := rfl
@[simp] theorem State.setTeam_chipno : (s.setTeam t T).chipno = s.chipno := rfl
@[simp] theorem State.setTeam_cores : (s.setTeam t T).cores = s.cores := rfl
@[simp] theorem State.setTeam_ctxs : (s.setTeam t T).ctxs = s.ctxs := rfl
@[simp] theorem State.setTeam_launches : (s.setTeam t T).launches = s.launches := rfl
@[simp] theorem State.setTeam_dir : (s.setTeam t T).dir = s.dir := rfl
@[simp] theorem State.setTeam_floors : (s.setTeam t T).floors = s.floors := rfl
@[simp] theorem State.setTeam_epochs : (s.setTeam t T).epochs = s.epochs := rfl
@[simp] theorem State.setTeam_llc : (s.setTeam t T).llc = s.llc := rfl
@[simp] theorem State.setTeam_spares : (s.setTeam t T).spares = s.spares := rfl
@[simp] theorem State.setTeam_counters : (s.setTeam t T).counters = s.counters := rfl
@[simp] theorem State.setTeam_claims : (s.setTeam t T).claims = s.claims := rfl
@[simp] theorem State.setTeam_waiters : (s.setTeam t T).waiters = s.waiters := rfl
@[simp] theorem State.setTeam_served : (s.setTeam t T).served = s.served := rfl
@[simp] theorem State.setTeam_lastQueue : (s.setTeam t T).lastQueue = s.lastQueue := rfl
@[simp] theorem State.setTeam_records : (s.setTeam t T).records = s.records := rfl
@[simp] theorem State.setTeam_motion : (s.setTeam t T).motion = s.motion := rfl
@[simp] theorem State.setTeam_banks : (s.setTeam t T).banks = s.banks := rfl
@[simp] theorem State.setTeam_log : (s.setTeam t T).log = s.log := rfl
@[simp] theorem State.setTeam_logNext : (s.setTeam t T).logNext = s.logNext := rfl
@[simp] theorem State.setTeam_mailbox : (s.setTeam t T).mailbox = s.mailbox := rfl
@[simp] theorem State.setTeam_fwA : (s.setTeam t T).fwA = s.fwA := rfl
@[simp] theorem State.setTeam_fwB : (s.setTeam t T).fwB = s.fwB := rfl
@[simp] theorem State.setTeam_fwRunB : (s.setTeam t T).fwRunB = s.fwRunB := rfl
@[simp] theorem State.setTeam_fwMark : (s.setTeam t T).fwMark = s.fwMark := rfl
@[simp] theorem State.setTeam_minSvn : (s.setTeam t T).minSvn = s.minSvn := rfl
@[simp] theorem State.setTeam_held : (s.setTeam t T).held = s.held := rfl
@[simp] theorem State.setTeam_access : (s.setTeam t T).access = s.access := rfl
@[simp] theorem State.setTeam_irqs : (s.setTeam t T).irqs = s.irqs := rfl
@[simp] theorem State.setTeam_routes : (s.setTeam t T).routes = s.routes := rfl
@[simp] theorem State.setTeam_hostUp : (s.setTeam t T).hostUp = s.hostUp := rfl
@[simp] theorem State.setTeam_hostRate : (s.setTeam t T).hostRate = s.hostRate := rfl
@[simp] theorem State.setTeam_hostWidth : (s.setTeam t T).hostWidth = s.hostWidth := rfl
@[simp] theorem State.setTeam_hostGall : (s.setTeam t T).hostGall = s.hostGall := rfl
@[simp] theorem State.setTeam_fatal : (s.setTeam t T).fatal = s.fatal := rfl
@[simp] theorem State.setTeam_hot : (s.setTeam t T).hot = s.hot := rfl
@[simp] theorem State.setTeam_sensors : (s.setTeam t T).sensors = s.sensors := rfl
@[simp] theorem State.setTeam_split : (s.setTeam t T).split = s.split := rfl
@[simp] theorem State.setTeam_answers : (s.setTeam t T).answers = s.answers := rfl
@[simp] theorem State.setTeam_msgs : (s.setTeam t T).msgs = s.msgs := rfl
@[simp] theorem State.setTeam_jobs : (s.setTeam t T).jobs = s.jobs := rfl
@[simp] theorem State.setTeam_doneColls : (s.setTeam t T).doneColls = s.doneColls := rfl
@[simp] theorem State.setTeam_linkIn : (s.setTeam t T).linkIn = s.linkIn := rfl
@[simp] theorem State.setTeam_linkOut : (s.setTeam t T).linkOut = s.linkOut := rfl
@[simp] theorem State.setTeam_sideband : (s.setTeam t T).sideband = s.sideband := rfl
@[simp] theorem State.setTeam_snoops : (s.setTeam t T).snoops = s.snoops := rfl
@[simp] theorem State.setTeam_hostWaits : (s.setTeam t T).hostWaits = s.hostWaits := rfl
@[simp] theorem State.setTeam_iinvs : (s.setTeam t T).iinvs = s.iinvs := rfl
@[simp] theorem State.setTeam_recalls : (s.setTeam t T).recalls = s.recalls := rfl
@[simp] theorem State.setTeam_ringDue : (s.setTeam t T).ringDue = s.ringDue := rfl
@[simp] theorem State.setTeam_agenda : (s.setTeam t T).agenda = s.agenda := rfl
@[simp] theorem State.setTeam_cur : (s.setTeam t T).cur = s.cur := rfl
@[simp] theorem State.setTeam_next : (s.setTeam t T).next = s.next := rfl
@[simp] theorem State.setTeam_freeCtr : (s.setTeam t T).freeCtr = s.freeCtr := rfl
@[simp] theorem State.setTeam_upsets : (s.setTeam t T).upsets = s.upsets := rfl
@[simp] theorem State.setTeam_outside : (s.setTeam t T).outside = s.outside := rfl

end

/-! ### Fields under `setCrew` -/

section

variable (s : State) (t c : Nat) (C : Crew)

@[simp] theorem State.setCrew_mem : (s.setCrew t c C).mem = s.mem := rfl
@[simp] theorem State.setCrew_ftime : (s.setCrew t c C).ftime = s.ftime := rfl
@[simp] theorem State.setCrew_clkA : (s.setCrew t c C).clkA = s.clkA := rfl
@[simp] theorem State.setCrew_clkB : (s.setCrew t c C).clkB = s.clkB := rfl
@[simp] theorem State.setCrew_chipno : (s.setCrew t c C).chipno = s.chipno := rfl
@[simp] theorem State.setCrew_cores : (s.setCrew t c C).cores = s.cores := rfl
@[simp] theorem State.setCrew_ctxs : (s.setCrew t c C).ctxs = s.ctxs := rfl
@[simp] theorem State.setCrew_launches : (s.setCrew t c C).launches = s.launches := rfl
@[simp] theorem State.setCrew_dir : (s.setCrew t c C).dir = s.dir := rfl
@[simp] theorem State.setCrew_floors : (s.setCrew t c C).floors = s.floors := rfl
@[simp] theorem State.setCrew_epochs : (s.setCrew t c C).epochs = s.epochs := rfl
@[simp] theorem State.setCrew_llc : (s.setCrew t c C).llc = s.llc := rfl
@[simp] theorem State.setCrew_spares : (s.setCrew t c C).spares = s.spares := rfl
@[simp] theorem State.setCrew_counters : (s.setCrew t c C).counters = s.counters := rfl
@[simp] theorem State.setCrew_claims : (s.setCrew t c C).claims = s.claims := rfl
@[simp] theorem State.setCrew_waiters : (s.setCrew t c C).waiters = s.waiters := rfl
@[simp] theorem State.setCrew_served : (s.setCrew t c C).served = s.served := rfl
@[simp] theorem State.setCrew_lastQueue : (s.setCrew t c C).lastQueue = s.lastQueue := rfl
@[simp] theorem State.setCrew_records : (s.setCrew t c C).records = s.records := rfl
@[simp] theorem State.setCrew_motion : (s.setCrew t c C).motion = s.motion := rfl
@[simp] theorem State.setCrew_banks : (s.setCrew t c C).banks = s.banks := rfl
@[simp] theorem State.setCrew_log : (s.setCrew t c C).log = s.log := rfl
@[simp] theorem State.setCrew_logNext : (s.setCrew t c C).logNext = s.logNext := rfl
@[simp] theorem State.setCrew_mailbox : (s.setCrew t c C).mailbox = s.mailbox := rfl
@[simp] theorem State.setCrew_fwA : (s.setCrew t c C).fwA = s.fwA := rfl
@[simp] theorem State.setCrew_fwB : (s.setCrew t c C).fwB = s.fwB := rfl
@[simp] theorem State.setCrew_fwRunB : (s.setCrew t c C).fwRunB = s.fwRunB := rfl
@[simp] theorem State.setCrew_fwMark : (s.setCrew t c C).fwMark = s.fwMark := rfl
@[simp] theorem State.setCrew_minSvn : (s.setCrew t c C).minSvn = s.minSvn := rfl
@[simp] theorem State.setCrew_held : (s.setCrew t c C).held = s.held := rfl
@[simp] theorem State.setCrew_access : (s.setCrew t c C).access = s.access := rfl
@[simp] theorem State.setCrew_irqs : (s.setCrew t c C).irqs = s.irqs := rfl
@[simp] theorem State.setCrew_routes : (s.setCrew t c C).routes = s.routes := rfl
@[simp] theorem State.setCrew_hostUp : (s.setCrew t c C).hostUp = s.hostUp := rfl
@[simp] theorem State.setCrew_hostRate : (s.setCrew t c C).hostRate = s.hostRate := rfl
@[simp] theorem State.setCrew_hostWidth : (s.setCrew t c C).hostWidth = s.hostWidth := rfl
@[simp] theorem State.setCrew_hostGall : (s.setCrew t c C).hostGall = s.hostGall := rfl
@[simp] theorem State.setCrew_fatal : (s.setCrew t c C).fatal = s.fatal := rfl
@[simp] theorem State.setCrew_hot : (s.setCrew t c C).hot = s.hot := rfl
@[simp] theorem State.setCrew_sensors : (s.setCrew t c C).sensors = s.sensors := rfl
@[simp] theorem State.setCrew_split : (s.setCrew t c C).split = s.split := rfl
@[simp] theorem State.setCrew_answers : (s.setCrew t c C).answers = s.answers := rfl
@[simp] theorem State.setCrew_msgs : (s.setCrew t c C).msgs = s.msgs := rfl
@[simp] theorem State.setCrew_jobs : (s.setCrew t c C).jobs = s.jobs := rfl
@[simp] theorem State.setCrew_doneColls : (s.setCrew t c C).doneColls = s.doneColls := rfl
@[simp] theorem State.setCrew_linkIn : (s.setCrew t c C).linkIn = s.linkIn := rfl
@[simp] theorem State.setCrew_linkOut : (s.setCrew t c C).linkOut = s.linkOut := rfl
@[simp] theorem State.setCrew_sideband : (s.setCrew t c C).sideband = s.sideband := rfl
@[simp] theorem State.setCrew_snoops : (s.setCrew t c C).snoops = s.snoops := rfl
@[simp] theorem State.setCrew_hostWaits : (s.setCrew t c C).hostWaits = s.hostWaits := rfl
@[simp] theorem State.setCrew_iinvs : (s.setCrew t c C).iinvs = s.iinvs := rfl
@[simp] theorem State.setCrew_recalls : (s.setCrew t c C).recalls = s.recalls := rfl
@[simp] theorem State.setCrew_ringDue : (s.setCrew t c C).ringDue = s.ringDue := rfl
@[simp] theorem State.setCrew_agenda : (s.setCrew t c C).agenda = s.agenda := rfl
@[simp] theorem State.setCrew_cur : (s.setCrew t c C).cur = s.cur := rfl
@[simp] theorem State.setCrew_next : (s.setCrew t c C).next = s.next := rfl
@[simp] theorem State.setCrew_freeCtr : (s.setCrew t c C).freeCtr = s.freeCtr := rfl
@[simp] theorem State.setCrew_upsets : (s.setCrew t c C).upsets = s.upsets := rfl
@[simp] theorem State.setCrew_outside : (s.setCrew t c C).outside = s.outside := rfl

end

/-! ### Fields under `setCurCrew` -/

section

variable (s : State) (C : Crew)

@[simp] theorem State.setCurCrew_mem : (s.setCurCrew C).mem = s.mem := rfl
@[simp] theorem State.setCurCrew_ftime : (s.setCurCrew C).ftime = s.ftime := rfl
@[simp] theorem State.setCurCrew_clkA : (s.setCurCrew C).clkA = s.clkA := rfl
@[simp] theorem State.setCurCrew_clkB : (s.setCurCrew C).clkB = s.clkB := rfl
@[simp] theorem State.setCurCrew_chipno : (s.setCurCrew C).chipno = s.chipno := rfl
@[simp] theorem State.setCurCrew_cores : (s.setCurCrew C).cores = s.cores := rfl
@[simp] theorem State.setCurCrew_ctxs : (s.setCurCrew C).ctxs = s.ctxs := rfl
@[simp] theorem State.setCurCrew_launches : (s.setCurCrew C).launches = s.launches := rfl
@[simp] theorem State.setCurCrew_dir : (s.setCurCrew C).dir = s.dir := rfl
@[simp] theorem State.setCurCrew_floors : (s.setCurCrew C).floors = s.floors := rfl
@[simp] theorem State.setCurCrew_epochs : (s.setCurCrew C).epochs = s.epochs := rfl
@[simp] theorem State.setCurCrew_llc : (s.setCurCrew C).llc = s.llc := rfl
@[simp] theorem State.setCurCrew_spares : (s.setCurCrew C).spares = s.spares := rfl
@[simp] theorem State.setCurCrew_counters : (s.setCurCrew C).counters = s.counters := rfl
@[simp] theorem State.setCurCrew_claims : (s.setCurCrew C).claims = s.claims := rfl
@[simp] theorem State.setCurCrew_waiters : (s.setCurCrew C).waiters = s.waiters := rfl
@[simp] theorem State.setCurCrew_served : (s.setCurCrew C).served = s.served := rfl
@[simp] theorem State.setCurCrew_lastQueue : (s.setCurCrew C).lastQueue = s.lastQueue := rfl
@[simp] theorem State.setCurCrew_records : (s.setCurCrew C).records = s.records := rfl
@[simp] theorem State.setCurCrew_motion : (s.setCurCrew C).motion = s.motion := rfl
@[simp] theorem State.setCurCrew_banks : (s.setCurCrew C).banks = s.banks := rfl
@[simp] theorem State.setCurCrew_log : (s.setCurCrew C).log = s.log := rfl
@[simp] theorem State.setCurCrew_logNext : (s.setCurCrew C).logNext = s.logNext := rfl
@[simp] theorem State.setCurCrew_mailbox : (s.setCurCrew C).mailbox = s.mailbox := rfl
@[simp] theorem State.setCurCrew_fwA : (s.setCurCrew C).fwA = s.fwA := rfl
@[simp] theorem State.setCurCrew_fwB : (s.setCurCrew C).fwB = s.fwB := rfl
@[simp] theorem State.setCurCrew_fwRunB : (s.setCurCrew C).fwRunB = s.fwRunB := rfl
@[simp] theorem State.setCurCrew_fwMark : (s.setCurCrew C).fwMark = s.fwMark := rfl
@[simp] theorem State.setCurCrew_minSvn : (s.setCurCrew C).minSvn = s.minSvn := rfl
@[simp] theorem State.setCurCrew_held : (s.setCurCrew C).held = s.held := rfl
@[simp] theorem State.setCurCrew_access : (s.setCurCrew C).access = s.access := rfl
@[simp] theorem State.setCurCrew_irqs : (s.setCurCrew C).irqs = s.irqs := rfl
@[simp] theorem State.setCurCrew_routes : (s.setCurCrew C).routes = s.routes := rfl
@[simp] theorem State.setCurCrew_hostUp : (s.setCurCrew C).hostUp = s.hostUp := rfl
@[simp] theorem State.setCurCrew_hostRate : (s.setCurCrew C).hostRate = s.hostRate := rfl
@[simp] theorem State.setCurCrew_hostWidth : (s.setCurCrew C).hostWidth = s.hostWidth := rfl
@[simp] theorem State.setCurCrew_hostGall : (s.setCurCrew C).hostGall = s.hostGall := rfl
@[simp] theorem State.setCurCrew_fatal : (s.setCurCrew C).fatal = s.fatal := rfl
@[simp] theorem State.setCurCrew_hot : (s.setCurCrew C).hot = s.hot := rfl
@[simp] theorem State.setCurCrew_sensors : (s.setCurCrew C).sensors = s.sensors := rfl
@[simp] theorem State.setCurCrew_split : (s.setCurCrew C).split = s.split := rfl
@[simp] theorem State.setCurCrew_answers : (s.setCurCrew C).answers = s.answers := rfl
@[simp] theorem State.setCurCrew_msgs : (s.setCurCrew C).msgs = s.msgs := rfl
@[simp] theorem State.setCurCrew_jobs : (s.setCurCrew C).jobs = s.jobs := rfl
@[simp] theorem State.setCurCrew_doneColls : (s.setCurCrew C).doneColls = s.doneColls := rfl
@[simp] theorem State.setCurCrew_linkIn : (s.setCurCrew C).linkIn = s.linkIn := rfl
@[simp] theorem State.setCurCrew_linkOut : (s.setCurCrew C).linkOut = s.linkOut := rfl
@[simp] theorem State.setCurCrew_sideband : (s.setCurCrew C).sideband = s.sideband := rfl
@[simp] theorem State.setCurCrew_snoops : (s.setCurCrew C).snoops = s.snoops := rfl
@[simp] theorem State.setCurCrew_hostWaits : (s.setCurCrew C).hostWaits = s.hostWaits := rfl
@[simp] theorem State.setCurCrew_iinvs : (s.setCurCrew C).iinvs = s.iinvs := rfl
@[simp] theorem State.setCurCrew_recalls : (s.setCurCrew C).recalls = s.recalls := rfl
@[simp] theorem State.setCurCrew_ringDue : (s.setCurCrew C).ringDue = s.ringDue := rfl
@[simp] theorem State.setCurCrew_agenda : (s.setCurCrew C).agenda = s.agenda := rfl
@[simp] theorem State.setCurCrew_cur : (s.setCurCrew C).cur = s.cur := rfl
@[simp] theorem State.setCurCrew_next : (s.setCurCrew C).next = s.next := rfl
@[simp] theorem State.setCurCrew_freeCtr : (s.setCurCrew C).freeCtr = s.freeCtr := rfl
@[simp] theorem State.setCurCrew_upsets : (s.setCurCrew C).upsets = s.upsets := rfl
@[simp] theorem State.setCurCrew_outside : (s.setCurCrew C).outside = s.outside := rfl

end

/-! ### Fields under `mapLanes` -/

section

variable (s : State) (ls : List Nat) (f : Nat → Lane → Lane)

@[simp] theorem State.mapLanes_mem : (s.mapLanes ls f).mem = s.mem := rfl
@[simp] theorem State.mapLanes_ftime : (s.mapLanes ls f).ftime = s.ftime := rfl
@[simp] theorem State.mapLanes_clkA : (s.mapLanes ls f).clkA = s.clkA := rfl
@[simp] theorem State.mapLanes_clkB : (s.mapLanes ls f).clkB = s.clkB := rfl
@[simp] theorem State.mapLanes_chipno : (s.mapLanes ls f).chipno = s.chipno := rfl
@[simp] theorem State.mapLanes_cores : (s.mapLanes ls f).cores = s.cores := rfl
@[simp] theorem State.mapLanes_ctxs : (s.mapLanes ls f).ctxs = s.ctxs := rfl
@[simp] theorem State.mapLanes_launches : (s.mapLanes ls f).launches = s.launches := rfl
@[simp] theorem State.mapLanes_dir : (s.mapLanes ls f).dir = s.dir := rfl
@[simp] theorem State.mapLanes_floors : (s.mapLanes ls f).floors = s.floors := rfl
@[simp] theorem State.mapLanes_epochs : (s.mapLanes ls f).epochs = s.epochs := rfl
@[simp] theorem State.mapLanes_llc : (s.mapLanes ls f).llc = s.llc := rfl
@[simp] theorem State.mapLanes_spares : (s.mapLanes ls f).spares = s.spares := rfl
@[simp] theorem State.mapLanes_counters : (s.mapLanes ls f).counters = s.counters := rfl
@[simp] theorem State.mapLanes_claims : (s.mapLanes ls f).claims = s.claims := rfl
@[simp] theorem State.mapLanes_waiters : (s.mapLanes ls f).waiters = s.waiters := rfl
@[simp] theorem State.mapLanes_served : (s.mapLanes ls f).served = s.served := rfl
@[simp] theorem State.mapLanes_lastQueue : (s.mapLanes ls f).lastQueue = s.lastQueue := rfl
@[simp] theorem State.mapLanes_records : (s.mapLanes ls f).records = s.records := rfl
@[simp] theorem State.mapLanes_motion : (s.mapLanes ls f).motion = s.motion := rfl
@[simp] theorem State.mapLanes_banks : (s.mapLanes ls f).banks = s.banks := rfl
@[simp] theorem State.mapLanes_log : (s.mapLanes ls f).log = s.log := rfl
@[simp] theorem State.mapLanes_logNext : (s.mapLanes ls f).logNext = s.logNext := rfl
@[simp] theorem State.mapLanes_mailbox : (s.mapLanes ls f).mailbox = s.mailbox := rfl
@[simp] theorem State.mapLanes_fwA : (s.mapLanes ls f).fwA = s.fwA := rfl
@[simp] theorem State.mapLanes_fwB : (s.mapLanes ls f).fwB = s.fwB := rfl
@[simp] theorem State.mapLanes_fwRunB : (s.mapLanes ls f).fwRunB = s.fwRunB := rfl
@[simp] theorem State.mapLanes_fwMark : (s.mapLanes ls f).fwMark = s.fwMark := rfl
@[simp] theorem State.mapLanes_minSvn : (s.mapLanes ls f).minSvn = s.minSvn := rfl
@[simp] theorem State.mapLanes_held : (s.mapLanes ls f).held = s.held := rfl
@[simp] theorem State.mapLanes_access : (s.mapLanes ls f).access = s.access := rfl
@[simp] theorem State.mapLanes_irqs : (s.mapLanes ls f).irqs = s.irqs := rfl
@[simp] theorem State.mapLanes_routes : (s.mapLanes ls f).routes = s.routes := rfl
@[simp] theorem State.mapLanes_hostUp : (s.mapLanes ls f).hostUp = s.hostUp := rfl
@[simp] theorem State.mapLanes_hostRate : (s.mapLanes ls f).hostRate = s.hostRate := rfl
@[simp] theorem State.mapLanes_hostWidth : (s.mapLanes ls f).hostWidth = s.hostWidth := rfl
@[simp] theorem State.mapLanes_hostGall : (s.mapLanes ls f).hostGall = s.hostGall := rfl
@[simp] theorem State.mapLanes_fatal : (s.mapLanes ls f).fatal = s.fatal := rfl
@[simp] theorem State.mapLanes_hot : (s.mapLanes ls f).hot = s.hot := rfl
@[simp] theorem State.mapLanes_sensors : (s.mapLanes ls f).sensors = s.sensors := rfl
@[simp] theorem State.mapLanes_split : (s.mapLanes ls f).split = s.split := rfl
@[simp] theorem State.mapLanes_answers : (s.mapLanes ls f).answers = s.answers := rfl
@[simp] theorem State.mapLanes_msgs : (s.mapLanes ls f).msgs = s.msgs := rfl
@[simp] theorem State.mapLanes_jobs : (s.mapLanes ls f).jobs = s.jobs := rfl
@[simp] theorem State.mapLanes_doneColls : (s.mapLanes ls f).doneColls = s.doneColls := rfl
@[simp] theorem State.mapLanes_linkIn : (s.mapLanes ls f).linkIn = s.linkIn := rfl
@[simp] theorem State.mapLanes_linkOut : (s.mapLanes ls f).linkOut = s.linkOut := rfl
@[simp] theorem State.mapLanes_sideband : (s.mapLanes ls f).sideband = s.sideband := rfl
@[simp] theorem State.mapLanes_snoops : (s.mapLanes ls f).snoops = s.snoops := rfl
@[simp] theorem State.mapLanes_hostWaits : (s.mapLanes ls f).hostWaits = s.hostWaits := rfl
@[simp] theorem State.mapLanes_iinvs : (s.mapLanes ls f).iinvs = s.iinvs := rfl
@[simp] theorem State.mapLanes_recalls : (s.mapLanes ls f).recalls = s.recalls := rfl
@[simp] theorem State.mapLanes_ringDue : (s.mapLanes ls f).ringDue = s.ringDue := rfl
@[simp] theorem State.mapLanes_agenda : (s.mapLanes ls f).agenda = s.agenda := rfl
@[simp] theorem State.mapLanes_cur : (s.mapLanes ls f).cur = s.cur := rfl
@[simp] theorem State.mapLanes_next : (s.mapLanes ls f).next = s.next := rfl
@[simp] theorem State.mapLanes_freeCtr : (s.mapLanes ls f).freeCtr = s.freeCtr := rfl
@[simp] theorem State.mapLanes_upsets : (s.mapLanes ls f).upsets = s.upsets := rfl
@[simp] theorem State.mapLanes_outside : (s.mapLanes ls f).outside = s.outside := rfl

end

/-! ### Fields under `updLane` -/

section

variable (s : State) (t c l : Nat) (f : Lane → Lane)

@[simp] theorem State.updLane_mem : (s.updLane t c l f).mem = s.mem := rfl
@[simp] theorem State.updLane_ftime : (s.updLane t c l f).ftime = s.ftime := rfl
@[simp] theorem State.updLane_clkA : (s.updLane t c l f).clkA = s.clkA := rfl
@[simp] theorem State.updLane_clkB : (s.updLane t c l f).clkB = s.clkB := rfl
@[simp] theorem State.updLane_chipno : (s.updLane t c l f).chipno = s.chipno := rfl
@[simp] theorem State.updLane_cores : (s.updLane t c l f).cores = s.cores := rfl
@[simp] theorem State.updLane_ctxs : (s.updLane t c l f).ctxs = s.ctxs := rfl
@[simp] theorem State.updLane_launches : (s.updLane t c l f).launches = s.launches := rfl
@[simp] theorem State.updLane_dir : (s.updLane t c l f).dir = s.dir := rfl
@[simp] theorem State.updLane_floors : (s.updLane t c l f).floors = s.floors := rfl
@[simp] theorem State.updLane_epochs : (s.updLane t c l f).epochs = s.epochs := rfl
@[simp] theorem State.updLane_llc : (s.updLane t c l f).llc = s.llc := rfl
@[simp] theorem State.updLane_spares : (s.updLane t c l f).spares = s.spares := rfl
@[simp] theorem State.updLane_counters : (s.updLane t c l f).counters = s.counters := rfl
@[simp] theorem State.updLane_claims : (s.updLane t c l f).claims = s.claims := rfl
@[simp] theorem State.updLane_waiters : (s.updLane t c l f).waiters = s.waiters := rfl
@[simp] theorem State.updLane_served : (s.updLane t c l f).served = s.served := rfl
@[simp] theorem State.updLane_lastQueue : (s.updLane t c l f).lastQueue = s.lastQueue := rfl
@[simp] theorem State.updLane_records : (s.updLane t c l f).records = s.records := rfl
@[simp] theorem State.updLane_motion : (s.updLane t c l f).motion = s.motion := rfl
@[simp] theorem State.updLane_banks : (s.updLane t c l f).banks = s.banks := rfl
@[simp] theorem State.updLane_log : (s.updLane t c l f).log = s.log := rfl
@[simp] theorem State.updLane_logNext : (s.updLane t c l f).logNext = s.logNext := rfl
@[simp] theorem State.updLane_mailbox : (s.updLane t c l f).mailbox = s.mailbox := rfl
@[simp] theorem State.updLane_fwA : (s.updLane t c l f).fwA = s.fwA := rfl
@[simp] theorem State.updLane_fwB : (s.updLane t c l f).fwB = s.fwB := rfl
@[simp] theorem State.updLane_fwRunB : (s.updLane t c l f).fwRunB = s.fwRunB := rfl
@[simp] theorem State.updLane_fwMark : (s.updLane t c l f).fwMark = s.fwMark := rfl
@[simp] theorem State.updLane_minSvn : (s.updLane t c l f).minSvn = s.minSvn := rfl
@[simp] theorem State.updLane_held : (s.updLane t c l f).held = s.held := rfl
@[simp] theorem State.updLane_access : (s.updLane t c l f).access = s.access := rfl
@[simp] theorem State.updLane_irqs : (s.updLane t c l f).irqs = s.irqs := rfl
@[simp] theorem State.updLane_routes : (s.updLane t c l f).routes = s.routes := rfl
@[simp] theorem State.updLane_hostUp : (s.updLane t c l f).hostUp = s.hostUp := rfl
@[simp] theorem State.updLane_hostRate : (s.updLane t c l f).hostRate = s.hostRate := rfl
@[simp] theorem State.updLane_hostWidth : (s.updLane t c l f).hostWidth = s.hostWidth := rfl
@[simp] theorem State.updLane_hostGall : (s.updLane t c l f).hostGall = s.hostGall := rfl
@[simp] theorem State.updLane_fatal : (s.updLane t c l f).fatal = s.fatal := rfl
@[simp] theorem State.updLane_hot : (s.updLane t c l f).hot = s.hot := rfl
@[simp] theorem State.updLane_sensors : (s.updLane t c l f).sensors = s.sensors := rfl
@[simp] theorem State.updLane_split : (s.updLane t c l f).split = s.split := rfl
@[simp] theorem State.updLane_answers : (s.updLane t c l f).answers = s.answers := rfl
@[simp] theorem State.updLane_msgs : (s.updLane t c l f).msgs = s.msgs := rfl
@[simp] theorem State.updLane_jobs : (s.updLane t c l f).jobs = s.jobs := rfl
@[simp] theorem State.updLane_doneColls : (s.updLane t c l f).doneColls = s.doneColls := rfl
@[simp] theorem State.updLane_linkIn : (s.updLane t c l f).linkIn = s.linkIn := rfl
@[simp] theorem State.updLane_linkOut : (s.updLane t c l f).linkOut = s.linkOut := rfl
@[simp] theorem State.updLane_sideband : (s.updLane t c l f).sideband = s.sideband := rfl
@[simp] theorem State.updLane_snoops : (s.updLane t c l f).snoops = s.snoops := rfl
@[simp] theorem State.updLane_hostWaits : (s.updLane t c l f).hostWaits = s.hostWaits := rfl
@[simp] theorem State.updLane_iinvs : (s.updLane t c l f).iinvs = s.iinvs := rfl
@[simp] theorem State.updLane_recalls : (s.updLane t c l f).recalls = s.recalls := rfl
@[simp] theorem State.updLane_ringDue : (s.updLane t c l f).ringDue = s.ringDue := rfl
@[simp] theorem State.updLane_agenda : (s.updLane t c l f).agenda = s.agenda := rfl
@[simp] theorem State.updLane_cur : (s.updLane t c l f).cur = s.cur := rfl
@[simp] theorem State.updLane_next : (s.updLane t c l f).next = s.next := rfl
@[simp] theorem State.updLane_freeCtr : (s.updLane t c l f).freeCtr = s.freeCtr := rfl
@[simp] theorem State.updLane_upsets : (s.updLane t c l f).upsets = s.upsets := rfl
@[simp] theorem State.updLane_outside : (s.updLane t c l f).outside = s.outside := rfl

end

/-! ### Fields under `setCore` -/

section

variable (s : State) (c : Nat) (K : Core)

@[simp] theorem State.setCore_mem : (s.setCore c K).mem = s.mem := rfl
@[simp] theorem State.setCore_ftime : (s.setCore c K).ftime = s.ftime := rfl
@[simp] theorem State.setCore_clkA : (s.setCore c K).clkA = s.clkA := rfl
@[simp] theorem State.setCore_clkB : (s.setCore c K).clkB = s.clkB := rfl
@[simp] theorem State.setCore_chipno : (s.setCore c K).chipno = s.chipno := rfl
@[simp] theorem State.setCore_ctxs : (s.setCore c K).ctxs = s.ctxs := rfl
@[simp] theorem State.setCore_launches : (s.setCore c K).launches = s.launches := rfl
@[simp] theorem State.setCore_teams : (s.setCore c K).teams = s.teams := rfl
@[simp] theorem State.setCore_dir : (s.setCore c K).dir = s.dir := rfl
@[simp] theorem State.setCore_floors : (s.setCore c K).floors = s.floors := rfl
@[simp] theorem State.setCore_epochs : (s.setCore c K).epochs = s.epochs := rfl
@[simp] theorem State.setCore_llc : (s.setCore c K).llc = s.llc := rfl
@[simp] theorem State.setCore_spares : (s.setCore c K).spares = s.spares := rfl
@[simp] theorem State.setCore_counters : (s.setCore c K).counters = s.counters := rfl
@[simp] theorem State.setCore_claims : (s.setCore c K).claims = s.claims := rfl
@[simp] theorem State.setCore_waiters : (s.setCore c K).waiters = s.waiters := rfl
@[simp] theorem State.setCore_served : (s.setCore c K).served = s.served := rfl
@[simp] theorem State.setCore_lastQueue : (s.setCore c K).lastQueue = s.lastQueue := rfl
@[simp] theorem State.setCore_records : (s.setCore c K).records = s.records := rfl
@[simp] theorem State.setCore_motion : (s.setCore c K).motion = s.motion := rfl
@[simp] theorem State.setCore_banks : (s.setCore c K).banks = s.banks := rfl
@[simp] theorem State.setCore_log : (s.setCore c K).log = s.log := rfl
@[simp] theorem State.setCore_logNext : (s.setCore c K).logNext = s.logNext := rfl
@[simp] theorem State.setCore_mailbox : (s.setCore c K).mailbox = s.mailbox := rfl
@[simp] theorem State.setCore_fwA : (s.setCore c K).fwA = s.fwA := rfl
@[simp] theorem State.setCore_fwB : (s.setCore c K).fwB = s.fwB := rfl
@[simp] theorem State.setCore_fwRunB : (s.setCore c K).fwRunB = s.fwRunB := rfl
@[simp] theorem State.setCore_fwMark : (s.setCore c K).fwMark = s.fwMark := rfl
@[simp] theorem State.setCore_minSvn : (s.setCore c K).minSvn = s.minSvn := rfl
@[simp] theorem State.setCore_held : (s.setCore c K).held = s.held := rfl
@[simp] theorem State.setCore_access : (s.setCore c K).access = s.access := rfl
@[simp] theorem State.setCore_irqs : (s.setCore c K).irqs = s.irqs := rfl
@[simp] theorem State.setCore_routes : (s.setCore c K).routes = s.routes := rfl
@[simp] theorem State.setCore_hostUp : (s.setCore c K).hostUp = s.hostUp := rfl
@[simp] theorem State.setCore_hostRate : (s.setCore c K).hostRate = s.hostRate := rfl
@[simp] theorem State.setCore_hostWidth : (s.setCore c K).hostWidth = s.hostWidth := rfl
@[simp] theorem State.setCore_hostGall : (s.setCore c K).hostGall = s.hostGall := rfl
@[simp] theorem State.setCore_fatal : (s.setCore c K).fatal = s.fatal := rfl
@[simp] theorem State.setCore_hot : (s.setCore c K).hot = s.hot := rfl
@[simp] theorem State.setCore_sensors : (s.setCore c K).sensors = s.sensors := rfl
@[simp] theorem State.setCore_split : (s.setCore c K).split = s.split := rfl
@[simp] theorem State.setCore_answers : (s.setCore c K).answers = s.answers := rfl
@[simp] theorem State.setCore_msgs : (s.setCore c K).msgs = s.msgs := rfl
@[simp] theorem State.setCore_jobs : (s.setCore c K).jobs = s.jobs := rfl
@[simp] theorem State.setCore_doneColls : (s.setCore c K).doneColls = s.doneColls := rfl
@[simp] theorem State.setCore_linkIn : (s.setCore c K).linkIn = s.linkIn := rfl
@[simp] theorem State.setCore_linkOut : (s.setCore c K).linkOut = s.linkOut := rfl
@[simp] theorem State.setCore_sideband : (s.setCore c K).sideband = s.sideband := rfl
@[simp] theorem State.setCore_snoops : (s.setCore c K).snoops = s.snoops := rfl
@[simp] theorem State.setCore_hostWaits : (s.setCore c K).hostWaits = s.hostWaits := rfl
@[simp] theorem State.setCore_iinvs : (s.setCore c K).iinvs = s.iinvs := rfl
@[simp] theorem State.setCore_recalls : (s.setCore c K).recalls = s.recalls := rfl
@[simp] theorem State.setCore_ringDue : (s.setCore c K).ringDue = s.ringDue := rfl
@[simp] theorem State.setCore_agenda : (s.setCore c K).agenda = s.agenda := rfl
@[simp] theorem State.setCore_cur : (s.setCore c K).cur = s.cur := rfl
@[simp] theorem State.setCore_next : (s.setCore c K).next = s.next := rfl
@[simp] theorem State.setCore_freeCtr : (s.setCore c K).freeCtr = s.freeCtr := rfl
@[simp] theorem State.setCore_upsets : (s.setCore c K).upsets = s.upsets := rfl
@[simp] theorem State.setCore_outside : (s.setCore c K).outside = s.outside := rfl

end

/-! ### Fields under `setCtx` -/

section

variable (s : State) (c : Nat) (X : Context)

@[simp] theorem State.setCtx_mem : (s.setCtx c X).mem = s.mem := rfl
@[simp] theorem State.setCtx_ftime : (s.setCtx c X).ftime = s.ftime := rfl
@[simp] theorem State.setCtx_clkA : (s.setCtx c X).clkA = s.clkA := rfl
@[simp] theorem State.setCtx_clkB : (s.setCtx c X).clkB = s.clkB := rfl
@[simp] theorem State.setCtx_chipno : (s.setCtx c X).chipno = s.chipno := rfl
@[simp] theorem State.setCtx_cores : (s.setCtx c X).cores = s.cores := rfl
@[simp] theorem State.setCtx_launches : (s.setCtx c X).launches = s.launches := rfl
@[simp] theorem State.setCtx_teams : (s.setCtx c X).teams = s.teams := rfl
@[simp] theorem State.setCtx_dir : (s.setCtx c X).dir = s.dir := rfl
@[simp] theorem State.setCtx_floors : (s.setCtx c X).floors = s.floors := rfl
@[simp] theorem State.setCtx_epochs : (s.setCtx c X).epochs = s.epochs := rfl
@[simp] theorem State.setCtx_llc : (s.setCtx c X).llc = s.llc := rfl
@[simp] theorem State.setCtx_spares : (s.setCtx c X).spares = s.spares := rfl
@[simp] theorem State.setCtx_counters : (s.setCtx c X).counters = s.counters := rfl
@[simp] theorem State.setCtx_claims : (s.setCtx c X).claims = s.claims := rfl
@[simp] theorem State.setCtx_waiters : (s.setCtx c X).waiters = s.waiters := rfl
@[simp] theorem State.setCtx_served : (s.setCtx c X).served = s.served := rfl
@[simp] theorem State.setCtx_lastQueue : (s.setCtx c X).lastQueue = s.lastQueue := rfl
@[simp] theorem State.setCtx_records : (s.setCtx c X).records = s.records := rfl
@[simp] theorem State.setCtx_motion : (s.setCtx c X).motion = s.motion := rfl
@[simp] theorem State.setCtx_banks : (s.setCtx c X).banks = s.banks := rfl
@[simp] theorem State.setCtx_log : (s.setCtx c X).log = s.log := rfl
@[simp] theorem State.setCtx_logNext : (s.setCtx c X).logNext = s.logNext := rfl
@[simp] theorem State.setCtx_mailbox : (s.setCtx c X).mailbox = s.mailbox := rfl
@[simp] theorem State.setCtx_fwA : (s.setCtx c X).fwA = s.fwA := rfl
@[simp] theorem State.setCtx_fwB : (s.setCtx c X).fwB = s.fwB := rfl
@[simp] theorem State.setCtx_fwRunB : (s.setCtx c X).fwRunB = s.fwRunB := rfl
@[simp] theorem State.setCtx_fwMark : (s.setCtx c X).fwMark = s.fwMark := rfl
@[simp] theorem State.setCtx_minSvn : (s.setCtx c X).minSvn = s.minSvn := rfl
@[simp] theorem State.setCtx_held : (s.setCtx c X).held = s.held := rfl
@[simp] theorem State.setCtx_access : (s.setCtx c X).access = s.access := rfl
@[simp] theorem State.setCtx_irqs : (s.setCtx c X).irqs = s.irqs := rfl
@[simp] theorem State.setCtx_routes : (s.setCtx c X).routes = s.routes := rfl
@[simp] theorem State.setCtx_hostUp : (s.setCtx c X).hostUp = s.hostUp := rfl
@[simp] theorem State.setCtx_hostRate : (s.setCtx c X).hostRate = s.hostRate := rfl
@[simp] theorem State.setCtx_hostWidth : (s.setCtx c X).hostWidth = s.hostWidth := rfl
@[simp] theorem State.setCtx_hostGall : (s.setCtx c X).hostGall = s.hostGall := rfl
@[simp] theorem State.setCtx_fatal : (s.setCtx c X).fatal = s.fatal := rfl
@[simp] theorem State.setCtx_hot : (s.setCtx c X).hot = s.hot := rfl
@[simp] theorem State.setCtx_sensors : (s.setCtx c X).sensors = s.sensors := rfl
@[simp] theorem State.setCtx_split : (s.setCtx c X).split = s.split := rfl
@[simp] theorem State.setCtx_answers : (s.setCtx c X).answers = s.answers := rfl
@[simp] theorem State.setCtx_msgs : (s.setCtx c X).msgs = s.msgs := rfl
@[simp] theorem State.setCtx_jobs : (s.setCtx c X).jobs = s.jobs := rfl
@[simp] theorem State.setCtx_doneColls : (s.setCtx c X).doneColls = s.doneColls := rfl
@[simp] theorem State.setCtx_linkIn : (s.setCtx c X).linkIn = s.linkIn := rfl
@[simp] theorem State.setCtx_linkOut : (s.setCtx c X).linkOut = s.linkOut := rfl
@[simp] theorem State.setCtx_sideband : (s.setCtx c X).sideband = s.sideband := rfl
@[simp] theorem State.setCtx_snoops : (s.setCtx c X).snoops = s.snoops := rfl
@[simp] theorem State.setCtx_hostWaits : (s.setCtx c X).hostWaits = s.hostWaits := rfl
@[simp] theorem State.setCtx_iinvs : (s.setCtx c X).iinvs = s.iinvs := rfl
@[simp] theorem State.setCtx_recalls : (s.setCtx c X).recalls = s.recalls := rfl
@[simp] theorem State.setCtx_ringDue : (s.setCtx c X).ringDue = s.ringDue := rfl
@[simp] theorem State.setCtx_agenda : (s.setCtx c X).agenda = s.agenda := rfl
@[simp] theorem State.setCtx_cur : (s.setCtx c X).cur = s.cur := rfl
@[simp] theorem State.setCtx_next : (s.setCtx c X).next = s.next := rfl
@[simp] theorem State.setCtx_freeCtr : (s.setCtx c X).freeCtr = s.freeCtr := rfl
@[simp] theorem State.setCtx_upsets : (s.setCtx c X).upsets = s.upsets := rfl
@[simp] theorem State.setCtx_outside : (s.setCtx c X).outside = s.outside := rfl

end

/-! ### Fields under `send` -/

section

variable (s : State) (m : Msg)

@[simp] theorem State.send_mem : (s.send m).mem = s.mem := rfl
@[simp] theorem State.send_ftime : (s.send m).ftime = s.ftime := rfl
@[simp] theorem State.send_clkA : (s.send m).clkA = s.clkA := rfl
@[simp] theorem State.send_clkB : (s.send m).clkB = s.clkB := rfl
@[simp] theorem State.send_chipno : (s.send m).chipno = s.chipno := rfl
@[simp] theorem State.send_cores : (s.send m).cores = s.cores := rfl
@[simp] theorem State.send_ctxs : (s.send m).ctxs = s.ctxs := rfl
@[simp] theorem State.send_launches : (s.send m).launches = s.launches := rfl
@[simp] theorem State.send_teams : (s.send m).teams = s.teams := rfl
@[simp] theorem State.send_dir : (s.send m).dir = s.dir := rfl
@[simp] theorem State.send_floors : (s.send m).floors = s.floors := rfl
@[simp] theorem State.send_epochs : (s.send m).epochs = s.epochs := rfl
@[simp] theorem State.send_llc : (s.send m).llc = s.llc := rfl
@[simp] theorem State.send_spares : (s.send m).spares = s.spares := rfl
@[simp] theorem State.send_counters : (s.send m).counters = s.counters := rfl
@[simp] theorem State.send_claims : (s.send m).claims = s.claims := rfl
@[simp] theorem State.send_waiters : (s.send m).waiters = s.waiters := rfl
@[simp] theorem State.send_served : (s.send m).served = s.served := rfl
@[simp] theorem State.send_lastQueue : (s.send m).lastQueue = s.lastQueue := rfl
@[simp] theorem State.send_records : (s.send m).records = s.records := rfl
@[simp] theorem State.send_motion : (s.send m).motion = s.motion := rfl
@[simp] theorem State.send_banks : (s.send m).banks = s.banks := rfl
@[simp] theorem State.send_log : (s.send m).log = s.log := rfl
@[simp] theorem State.send_logNext : (s.send m).logNext = s.logNext := rfl
@[simp] theorem State.send_mailbox : (s.send m).mailbox = s.mailbox := rfl
@[simp] theorem State.send_fwA : (s.send m).fwA = s.fwA := rfl
@[simp] theorem State.send_fwB : (s.send m).fwB = s.fwB := rfl
@[simp] theorem State.send_fwRunB : (s.send m).fwRunB = s.fwRunB := rfl
@[simp] theorem State.send_fwMark : (s.send m).fwMark = s.fwMark := rfl
@[simp] theorem State.send_minSvn : (s.send m).minSvn = s.minSvn := rfl
@[simp] theorem State.send_held : (s.send m).held = s.held := rfl
@[simp] theorem State.send_access : (s.send m).access = s.access := rfl
@[simp] theorem State.send_irqs : (s.send m).irqs = s.irqs := rfl
@[simp] theorem State.send_routes : (s.send m).routes = s.routes := rfl
@[simp] theorem State.send_hostUp : (s.send m).hostUp = s.hostUp := rfl
@[simp] theorem State.send_hostRate : (s.send m).hostRate = s.hostRate := rfl
@[simp] theorem State.send_hostWidth : (s.send m).hostWidth = s.hostWidth := rfl
@[simp] theorem State.send_hostGall : (s.send m).hostGall = s.hostGall := rfl
@[simp] theorem State.send_fatal : (s.send m).fatal = s.fatal := rfl
@[simp] theorem State.send_hot : (s.send m).hot = s.hot := rfl
@[simp] theorem State.send_sensors : (s.send m).sensors = s.sensors := rfl
@[simp] theorem State.send_split : (s.send m).split = s.split := rfl
@[simp] theorem State.send_answers : (s.send m).answers = s.answers := rfl
@[simp] theorem State.send_jobs : (s.send m).jobs = s.jobs := rfl
@[simp] theorem State.send_doneColls : (s.send m).doneColls = s.doneColls := rfl
@[simp] theorem State.send_linkIn : (s.send m).linkIn = s.linkIn := rfl
@[simp] theorem State.send_linkOut : (s.send m).linkOut = s.linkOut := rfl
@[simp] theorem State.send_sideband : (s.send m).sideband = s.sideband := rfl
@[simp] theorem State.send_snoops : (s.send m).snoops = s.snoops := rfl
@[simp] theorem State.send_hostWaits : (s.send m).hostWaits = s.hostWaits := rfl
@[simp] theorem State.send_iinvs : (s.send m).iinvs = s.iinvs := rfl
@[simp] theorem State.send_recalls : (s.send m).recalls = s.recalls := rfl
@[simp] theorem State.send_ringDue : (s.send m).ringDue = s.ringDue := rfl
@[simp] theorem State.send_agenda : (s.send m).agenda = s.agenda := rfl
@[simp] theorem State.send_cur : (s.send m).cur = s.cur := rfl
@[simp] theorem State.send_freeCtr : (s.send m).freeCtr = s.freeCtr := rfl
@[simp] theorem State.send_upsets : (s.send m).upsets = s.upsets := rfl
@[simp] theorem State.send_outside : (s.send m).outside = s.outside := rfl

end

/-! ### Fields under `taken` -/

section

variable (s : State) (k : Nat)

@[simp] theorem State.taken_mem : (s.taken k).mem = s.mem := rfl
@[simp] theorem State.taken_ftime : (s.taken k).ftime = s.ftime := rfl
@[simp] theorem State.taken_clkA : (s.taken k).clkA = s.clkA := rfl
@[simp] theorem State.taken_clkB : (s.taken k).clkB = s.clkB := rfl
@[simp] theorem State.taken_chipno : (s.taken k).chipno = s.chipno := rfl
@[simp] theorem State.taken_cores : (s.taken k).cores = s.cores := rfl
@[simp] theorem State.taken_ctxs : (s.taken k).ctxs = s.ctxs := rfl
@[simp] theorem State.taken_launches : (s.taken k).launches = s.launches := rfl
@[simp] theorem State.taken_teams : (s.taken k).teams = s.teams := rfl
@[simp] theorem State.taken_dir : (s.taken k).dir = s.dir := rfl
@[simp] theorem State.taken_floors : (s.taken k).floors = s.floors := rfl
@[simp] theorem State.taken_epochs : (s.taken k).epochs = s.epochs := rfl
@[simp] theorem State.taken_llc : (s.taken k).llc = s.llc := rfl
@[simp] theorem State.taken_spares : (s.taken k).spares = s.spares := rfl
@[simp] theorem State.taken_counters : (s.taken k).counters = s.counters := rfl
@[simp] theorem State.taken_claims : (s.taken k).claims = s.claims := rfl
@[simp] theorem State.taken_waiters : (s.taken k).waiters = s.waiters := rfl
@[simp] theorem State.taken_served : (s.taken k).served = s.served := rfl
@[simp] theorem State.taken_lastQueue : (s.taken k).lastQueue = s.lastQueue := rfl
@[simp] theorem State.taken_records : (s.taken k).records = s.records := rfl
@[simp] theorem State.taken_motion : (s.taken k).motion = s.motion := rfl
@[simp] theorem State.taken_banks : (s.taken k).banks = s.banks := rfl
@[simp] theorem State.taken_log : (s.taken k).log = s.log := rfl
@[simp] theorem State.taken_logNext : (s.taken k).logNext = s.logNext := rfl
@[simp] theorem State.taken_mailbox : (s.taken k).mailbox = s.mailbox := rfl
@[simp] theorem State.taken_fwA : (s.taken k).fwA = s.fwA := rfl
@[simp] theorem State.taken_fwB : (s.taken k).fwB = s.fwB := rfl
@[simp] theorem State.taken_fwRunB : (s.taken k).fwRunB = s.fwRunB := rfl
@[simp] theorem State.taken_fwMark : (s.taken k).fwMark = s.fwMark := rfl
@[simp] theorem State.taken_minSvn : (s.taken k).minSvn = s.minSvn := rfl
@[simp] theorem State.taken_held : (s.taken k).held = s.held := rfl
@[simp] theorem State.taken_access : (s.taken k).access = s.access := rfl
@[simp] theorem State.taken_irqs : (s.taken k).irqs = s.irqs := rfl
@[simp] theorem State.taken_routes : (s.taken k).routes = s.routes := rfl
@[simp] theorem State.taken_hostUp : (s.taken k).hostUp = s.hostUp := rfl
@[simp] theorem State.taken_hostRate : (s.taken k).hostRate = s.hostRate := rfl
@[simp] theorem State.taken_hostWidth : (s.taken k).hostWidth = s.hostWidth := rfl
@[simp] theorem State.taken_hostGall : (s.taken k).hostGall = s.hostGall := rfl
@[simp] theorem State.taken_fatal : (s.taken k).fatal = s.fatal := rfl
@[simp] theorem State.taken_hot : (s.taken k).hot = s.hot := rfl
@[simp] theorem State.taken_sensors : (s.taken k).sensors = s.sensors := rfl
@[simp] theorem State.taken_split : (s.taken k).split = s.split := rfl
@[simp] theorem State.taken_answers : (s.taken k).answers = s.answers := rfl
@[simp] theorem State.taken_jobs : (s.taken k).jobs = s.jobs := rfl
@[simp] theorem State.taken_doneColls : (s.taken k).doneColls = s.doneColls := rfl
@[simp] theorem State.taken_linkIn : (s.taken k).linkIn = s.linkIn := rfl
@[simp] theorem State.taken_linkOut : (s.taken k).linkOut = s.linkOut := rfl
@[simp] theorem State.taken_sideband : (s.taken k).sideband = s.sideband := rfl
@[simp] theorem State.taken_snoops : (s.taken k).snoops = s.snoops := rfl
@[simp] theorem State.taken_hostWaits : (s.taken k).hostWaits = s.hostWaits := rfl
@[simp] theorem State.taken_iinvs : (s.taken k).iinvs = s.iinvs := rfl
@[simp] theorem State.taken_recalls : (s.taken k).recalls = s.recalls := rfl
@[simp] theorem State.taken_ringDue : (s.taken k).ringDue = s.ringDue := rfl
@[simp] theorem State.taken_agenda : (s.taken k).agenda = s.agenda := rfl
@[simp] theorem State.taken_cur : (s.taken k).cur = s.cur := rfl
@[simp] theorem State.taken_next : (s.taken k).next = s.next := rfl
@[simp] theorem State.taken_freeCtr : (s.taken k).freeCtr = s.freeCtr := rfl
@[simp] theorem State.taken_upsets : (s.taken k).upsets = s.upsets := rfl
@[simp] theorem State.taken_outside : (s.taken k).outside = s.outside := rfl

end

/-! ### Parts -/

@[simp] theorem State.team_setTeam_self (s : State) (t : Nat) (T : Team) : (s.setTeam t T).team t = T := by
  simp [State.team, State.setTeam]

theorem State.team_setTeam_ne (s : State) {k t : Nat} (T : Team) (h : k ≠ t) : (s.setTeam t T).team k = s.team k := by
  simp [State.team, State.setTeam, AMap.find_put_ne _ _ h]

@[simp] theorem State.core_setCore_self (s : State) (c : Nat) (K : Core) : (s.setCore c K).core c = K := by
  simp [State.core, State.setCore]

theorem State.core_setCore_ne (s : State) {k c : Nat} (K : Core) (h : k ≠ c) : (s.setCore c K).core k = s.core k := by
  simp [State.core, State.setCore, AMap.find_put_ne _ _ h]

@[simp] theorem State.ctx_setCtx_self (s : State) (c : Nat) (X : Context) : (s.setCtx c X).ctx c = X := by
  simp [State.ctx, State.setCtx]

theorem State.ctx_setCtx_ne (s : State) {k c : Nat} (X : Context) (h : k ≠ c) : (s.setCtx c X).ctx k = s.ctx k := by
  simp [State.ctx, State.setCtx, AMap.find_put_ne _ _ h]

@[simp] theorem State.team_setCore (s : State) (c : Nat) (K : Core) (t : Nat) : (s.setCore c K).team t = s.team t := rfl
@[simp] theorem State.team_setCtx (s : State) (c : Nat) (X : Context) (t : Nat) : (s.setCtx c X).team t = s.team t := rfl
@[simp] theorem State.team_send (s : State) (m : Msg) (t : Nat) : (s.send m).team t = s.team t := rfl
@[simp] theorem State.team_taken (s : State) (k t : Nat) : (s.taken k).team t = s.team t := rfl
@[simp] theorem State.core_setTeam (s : State) (t : Nat) (T : Team) (c : Nat) : (s.setTeam t T).core c = s.core c := rfl
@[simp] theorem State.ctx_setTeam (s : State) (t : Nat) (T : Team) (c : Nat) : (s.setTeam t T).ctx c = s.ctx c := rfl
@[simp] theorem State.crew_send (s : State) (m : Msg) (t c : Nat) : (s.send m).crew t c = s.crew t c := rfl
@[simp] theorem State.crew_taken (s : State) (k t c : Nat) : (s.taken k).crew t c = s.crew t c := rfl
@[simp] theorem State.crew_setCore (s : State) (k : Nat) (K : Core) (t c : Nat) : (s.setCore k K).crew t c = s.crew t c := rfl
@[simp] theorem State.curCrew_send (s : State) (m : Msg) : (s.send m).curCrew = s.curCrew := rfl
@[simp] theorem State.curCrew_setCore (s : State) (k : Nat) (K : Core) : (s.setCore k K).curCrew = s.curCrew := rfl

@[simp] theorem State.crew_setCrew_self (s : State) (t c : Nat) (C : Crew) : (s.setCrew t c C).crew t c = C := by
  simp [State.crew, State.setCrew, Team.setCrew]

theorem State.crew_setCrew_ne (s : State) {t c k j : Nat} (C : Crew) (h : k ≠ t ∨ j ≠ c) :
    (s.setCrew t c C).crew k j = s.crew k j := by
  unfold State.crew State.setCrew
  by_cases e : k = t
  · subst e
    rw [State.team_setTeam_self]
    have hj : j ≠ c := by tauto
    simp [Team.setCrew, AMap.find_put_ne _ _ hj]
  · rw [State.team_setTeam_ne s _ e]

/-- A crew's new value changes nothing of its team but that crew. -/
theorem State.team_setCrew (s : State) (t c : Nat) (C : Crew) : (s.setCrew t c C).team t = (s.team t).setCrew c C := by
  simp [State.setCrew]

@[simp] theorem State.curCrew_setCurCrew (s : State) (C : Crew) : (s.setCurCrew C).curCrew = C := by
  simp [State.setCurCrew, State.curCrew]

@[simp] theorem Crew.lane_setLane_self (C : Crew) (l : Nat) (L : Lane) : (C.setLane l L).lane l = L := by
  simp [Crew.lane, Crew.setLane]

theorem Crew.lane_setLane_ne (C : Crew) {k l : Nat} (L : Lane) (h : k ≠ l) : (C.setLane l L).lane k = C.lane k := by
  simp [Crew.lane, Crew.setLane, AMap.find_put_ne _ _ h]

/-- The lanes of a crew after updates by one function. -/
theorem Crew.lane_setLanes (C : Crew) (ls : List Nat) (g : Nat → Lane) (k : Nat) :
    (C.setLanes (ls.map fun l => (l, g l))).lane k = if k ∈ ls then g k else C.lane k := by
  unfold Crew.lane Crew.setLanes
  simp only [AMap.find_foldl_map]
  split <;> simp

@[simp] theorem Crew.setLanes_rest (C : Crew) (us : List (Nat × Lane)) :
    { C.setLanes us with lanes := C.lanes } = C := rfl

/-- The fibres of the issuing crew after an update of some. -/
theorem State.curLane_mapLanes (s : State) (ls : List Nat) (f : Nat → Lane → Lane) (k : Nat) :
    (s.mapLanes ls f).curLane k = if k ∈ ls then f k (s.curLane k) else s.curLane k := by
  simp only [State.curLane, State.mapLanes, State.curCrew_setCurCrew, Crew.lane_setLanes]

theorem State.crew_mapLanes_ne (s : State) (ls : List Nat) (f : Nat → Lane → Lane) {t c : Nat}
    (h : t ≠ s.cur.team ∨ c ≠ s.cur.crew) : (s.mapLanes ls f).crew t c = s.crew t c := by
  simp only [State.mapLanes, State.setCurCrew, State.crew_setCrew_ne s _ h]

@[simp] theorem State.launchOf_setCrew (s : State) (t c : Nat) (C : Crew) (k : Nat) :
    (s.setCrew t c C).launchOf k = s.launchOf k := by
  unfold State.launchOf State.setCrew
  by_cases h : k = t
  · subst h; simp [Team.setCrew]
  · simp [State.team_setTeam_ne s _ h]

/-- The span, the context and the other figures of a launch do not change with a crew. -/
@[simp] theorem State.spanOf_setCrew (s : State) (t c : Nat) (C : Crew) (k : Nat) :
    (s.setCrew t c C).spanOf k = s.spanOf k := by simp [State.spanOf]
@[simp] theorem State.teamCtx_setCrew (s : State) (t c : Nat) (C : Crew) (k : Nat) :
    (s.setCrew t c C).teamCtx k = s.teamCtx k := by simp [State.teamCtx]

/-- A message sent is the one in flight under its number. -/
@[simp] theorem State.find_send (s : State) (m : Msg) : (s.send m).msgs.find s.next = some m := by
  simp [State.send]

theorem State.find_send_ne (s : State) (m : Msg) {k : Nat} (h : k ≠ s.next) : (s.send m).msgs.find k = s.msgs.find k := by
  simp [State.send, AMap.find_put_ne _ _ h]

@[simp] theorem State.find_taken (s : State) (k : Nat) : (s.taken k).msgs.find k = none := by simp [State.taken]

/-- Nothing is listed in memory at reset. -/
theorem State.reset_mem_wf : State.reset.mem.wf = true := by decide

end Sys2Proof.Machine
end

