-- ==== Sys2Proof/Laws/Ops.lean ====
section
/-! SUPPORT. What the shared operations of instructions answer when a word's operands are ready, so that no proof about
an instruction unfolds the prologue again. -/

namespace Sys2Proof.Machine

open Sys2Proof

theorem find?_pairs {α : Type} (ls : List Nat) (h : Nat → α) (l : Nat) :
    (ls.map fun k => (k, h k)).find? (fun x => x.1 == l) = if l ∈ ls then some (l, h l) else none := by
  induction ls with
  | nil => rfl
  | cons a r ih =>
    simp only [List.map_cons, List.find?_cons, List.mem_cons]
    by_cases e : a = l
    · subst e; simp
    · have h1 : ((a, h a).1 == l) = false := by simpa using e
      simp [h1, ih, Ne.symm e]

/-- A word takes effect in the fibres of its braid whose guard is true. -/
theorem State.mem_effective (s : State) (l : Nat) : l ∈ s.effective ↔ l ∈ s.cur.lanes ∧ (s.curLane l).guardTrue = true := by
  simp [State.effective, List.mem_filter]

theorem Env.mem_regsOf (E : Env) (l : Nat) (L : Lane) (f : RegF) (n k : Nat) :
    k ∈ E.regsOf l L f n ↔ Slot.reg k ∈ E.slots l L f n := by
  unfold Env.regsOf
  simp only [List.mem_filterMap]
  constructor
  · rintro ⟨x, hx, e⟩
    cases x with
    | reg r => simp only [Option.some.injEq] at e; subst e; exact hx
    | _ => simp at e
  · intro h; exact ⟨_, h, rfl⟩

/-! ## Readiness -/

theorem State.ready_effective {s : State} {srcs : List Src} {dsts : List Dst} (h : s.ready srcs dsts = true) :
    s.effective ≠ [] := by
  intro e; simp [State.ready, e] at h

theorem State.ready_named {s : State} {srcs : List Src} {dsts : List Dst} (h : s.ready srcs dsts = true) :
    s.curCrew.named = [] := by
  simp only [State.ready, Bool.and_eq_true, List.isEmpty_iff] at h
  exact h.1.2

theorem State.ready_src {s : State} {srcs : List Src} {dsts : List Dst} (h : s.ready srcs dsts = true) {l : Nat}
    (hl : l ∈ s.effective) {x : Src} (hx : x ∈ srcs) : s.srcReady l x = true := by
  simp only [State.ready, Bool.and_eq_true, List.all_eq_true] at h
  exact (h.2 l hl).1 x hx

theorem State.ready_dst {s : State} {srcs : List Src} {dsts : List Dst} (h : s.ready srcs dsts = true) {l : Nat}
    (hl : l ∈ s.effective) {d : Dst} (hd : d ∈ dsts) : s.fieldFull l d.f d.n = true := by
  simp only [State.ready, Bool.and_eq_true, List.all_eq_true] at h
  exact (h.2 l hl).2 d hd

theorem State.srcReady_popped {s : State} {l : Nat} {x : Src} (h : s.srcReady l x = true) :
    x.popped (s.curLane l) = false := by
  simp only [State.srcReady, Bool.and_eq_true, Option.isNone_iff_eq_none] at h
  simp [Src.popped, h.1.1]

theorem State.srcReady_slots {s : State} {l : Nat} {x : Src} (h : s.srcReady l x = true) :
    x.slots s.env l (s.curLane l) = s.env.slots l (s.curLane l) x.f x.n := by
  simp [Src.slots, State.srcReady_popped h]

theorem State.fieldFull_bad {s : State} {l n : Nat} {f : RegF} (h : s.fieldFull l f n = true) :
    (s.env.slots l (s.curLane l) f n).contains .bad = false := by
  rw [Bool.eq_false_iff]
  intro hb
  simp only [List.contains_iff_mem] at hb
  have := List.all_eq_true.1 h _ hb
  simp [Lane.slotFull] at this

theorem State.srcReady_full {s : State} {l : Nat} {x : Src} (h : s.srcReady l x = true) : s.fieldFull l x.f x.n = true := by
  simp only [State.srcReady, Bool.and_eq_true] at h; exact h.1.2

theorem State.srcReady_sound {s : State} {l : Nat} {x : Src} (h : s.srcReady l x = true) {n : Nat}
    (hn : Slot.reg n ∈ s.env.slots l (s.curLane l) x.f x.n) : (s.curLane l).spoilt.contains n = false := by
  simp only [State.srcReady, Bool.and_eq_true, State.fieldSound] at h
  have := List.all_eq_true.1 h.2 n ((Env.mem_regsOf ..).2 hn)
  simpa using this

theorem State.srcReady_empty {s : State} {l : Nat} {x : Src} (h : s.srcReady l x = true) :
    x.empty s.env l (s.curLane l) = [] := by
  have hf := State.srcReady_full h
  unfold Src.empty
  rw [State.srcReady_slots h, List.filterMap_eq_nil_iff]
  intro y hy
  have := List.all_eq_true.1 hf y hy
  cases y with
  | reg n => simp only [Lane.slotFull] at this; simp [this]
  | _ => rfl

theorem State.fieldFull_empty {s : State} {l : Nat} {d : Dst} (h : s.fieldFull l d.f d.n = true) :
    d.empty s.env l (s.curLane l) = [] := by
  unfold Dst.empty Env.regsOf
  rw [List.filter_eq_nil_iff]
  intro n hn
  simp only [List.mem_filterMap] at hn
  obtain ⟨y, hy, e⟩ := hn
  have := List.all_eq_true.1 h y hy
  cases y with
  | reg k => simp only [Option.some.injEq] at e; subst e; simpa [Lane.slotFull] using this
  | _ => simp at e

/-- A word whose operands are ready is neither out of range, nor trapped, nor parked (R59, R87, R92). -/
theorem State.notReady_ready {s : State} {a : Ask} (h : s.ready a.srcs a.dsts = true)
    (hr : a.release = false ∨ ∀ l ∈ s.effective, s.curCrew.watched l = false) : s.notReady a = none := by
  have hsub : ∀ l ∈ s.readers a, l ∈ s.effective := by
    intro l hl
    unfold State.readers at hl
    split at hl
    · exact List.mem_of_mem_take hl
    · exact hl
  have hrange : (s.readers a).any (fun l => a.outOfRange s.env l (s.curCrew.lane l)) = false := by
    rw [List.any_eq_false]
    intro l hl
    have hl := hsub l hl
    simp only [Ask.outOfRange, Bool.or_eq_true, not_or, Bool.not_eq_true, List.any_eq_false]
    refine ⟨fun x hx => ?_, fun d hd => ?_⟩
    · have hx := State.ready_src h hl hx
      have e := State.srcReady_slots hx
      simp only [State.curLane] at e
      rw [e]
      have := State.fieldFull_bad (State.srcReady_full hx)
      simp only [State.curLane] at this
      rw [this]
    · have := State.fieldFull_bad (State.ready_dst h hl hd)
      simp only [State.curLane] at this
      rw [this]
  have hempty : ∀ l ∈ s.readers a, ∀ x ∈ a.srcs, x.empty s.env l (s.curCrew.lane l) = [] := by
    intro l hl x hx
    exact State.srcReady_empty (State.ready_src h (hsub l hl) hx)
  have hwaits : ∀ l ∈ s.readers a, a.waits s.env l (s.curCrew.lane l) = [] := by
    intro l hl
    simp only [Ask.waits, List.append_eq_nil_iff, List.flatMap_eq_nil_iff]
    refine ⟨hempty l hl, ?_⟩
    split
    · simp only [List.flatMap_eq_nil_iff]
      intro d hd
      exact State.fieldFull_empty (State.ready_dst h (hsub l hl) hd)
    · rfl
  unfold State.notReady
  simp only
  rw [if_neg (by simp [hrange])]
  rw [if_neg, if_neg, if_neg, if_neg]
  · simp only [State.readsSpoilt, List.any_eq_true, not_exists, not_and, Bool.and_eq_true]
    intro l hl _ x hx y hy
    have hx := State.ready_src h (hsub l hl) hx
    rw [State.srcReady_slots hx] at hy
    cases y with
    | reg n => simpa using State.srcReady_sound hx hy
    | _ => simp
  · simp only [List.any_eq_true, not_exists, not_and]
    intro l hl
    simp [hwaits l hl]
  · rcases hr with hr | hr
    · simp [hr]
    · simp only [Bool.and_eq_true, not_and, List.any_eq_true, not_exists]
      intro _ l hl
      simp [hr l (hsub l hl)]
  · simp only [List.any_eq_true, not_exists, not_and]
    intro l hl x hx
    simp [hempty l hl x hx]

/-- The operands that a word reads when none of its sources is bound to a stream. -/
def State.operandsOf (s : State) (srcs : List Src) (l : Nat) : List Val := srcs.map (s.operand l)

theorem Ask.popFields_ready {s : State} {a : Ask} {l : Nat} (h : ∀ x ∈ a.srcs, s.srcReady l x = true) :
    a.popFields (s.curLane l) = [] := by
  have : a.srcs.filter (fun x => x.popped (s.curLane l)) = [] := by
    rw [List.filter_eq_nil_iff]
    intro x hx; simp [State.srcReady_popped (h x hx)]
  simp [Ask.popFields, this]

theorem Src.read_plain (x : Src) (E : Env) (l : Nat) (L : Lane) : x.read E l L [] = E.get l L x.f x.n := by
  unfold Src.read
  cases x.pops <;> simp

theorem State.gather_ready {s : State} {a : Ask} (ls : List Nat) (h : ∀ l ∈ ls, ∀ x ∈ a.srcs, s.srcReady l x = true) :
    s.gather a s.env ls = .all s (ls.map fun l => (l, s.curLane l, s.operandsOf a.srcs l)) [] := by
  induction ls with
  | nil => rfl
  | cons l r ih =>
    have hp := Ask.popFields_ready (h l (List.mem_cons_self ..))
    simp only [State.gather, hp, State.popAll, ih fun k hk => h k (List.mem_cons_of_mem _ hk), List.map_cons]
    simp [State.operandsOf, State.operand, Src.read_plain]

theorem State.breaches_nil {s : State} (h : s.curCrew.named = []) (a : Ask) (w : Bool) : s.breaches a w = [] := by
  simp [State.breaches, h]

@[simp] theorem State.breach_nil (s : State) : s.breach [] = s := rfl

/-- What a word reads in each fibre for which it takes effect. -/
def State.reads (s : State) (a : Ask) : List (Nat × Lane × List Val) :=
  (s.readers a).map fun l => (l, s.curLane l, s.operandsOf a.srcs l)

/-- The prologue of a word whose operands are ready: it goes on with their values unless its steering tag or one of its
own causes stops it (R297). -/
theorem State.prepare_ready {s : State} {a : Ask} (h : s.ready a.srcs a.dsts = true)
    (hr : a.release = false ∨ ∀ l ∈ s.effective, s.curCrew.watched l = false)
    (ht : (!s.steers && a.steered (s.reads a)) = false)
    (he : ∀ l ∈ s.readers a, a.early l (s.curLane l) (s.operandsOf a.srcs l) = none)
    (hl : ∀ l ∈ s.readers a, a.late l (s.curLane l) (s.operandsOf a.srcs l) = none) :
    s.prepare a = .go s (s.reads a) := by
  have hsub : ∀ l ∈ s.readers a, l ∈ s.effective := by
    intro l hl
    unfold State.readers at hl
    split at hl
    · exact List.mem_of_mem_take hl
    · exact hl
  unfold State.prepare
  rw [if_neg (by simpa using State.ready_effective h), State.notReady_ready h hr]
  simp only [State.breaches_nil (State.ready_named h), State.breach_nil]
  rw [State.gather_ready _ fun l hl x hx => State.ready_src h (hsub l hl) hx]
  simp only [List.map_nil, List.append_nil, List.filterMap_nil, List.nil_append]
  change (if (!s.steers && a.steered (s.reads a)) = true then _ else _) = _
  rw [if_neg (by simp [ht])]
  have h1 : (s.reads a).filterMap (fun x => (a.early x.1 x.2.1 x.2.2).map fun c => (x.1, c)) = [] := by
    rw [List.filterMap_eq_nil_iff]
    intro x hx
    simp only [State.reads, List.mem_map] at hx
    obtain ⟨l, hl', rfl⟩ := hx
    simp [he l hl']
  have h2 : (s.reads a).filterMap (fun x => (a.late x.1 x.2.1 x.2.2).map fun c => (x.1, c)) = [] := by
    rw [List.filterMap_eq_nil_iff]
    intro x hx
    simp only [State.reads, List.mem_map] at hx
    obtain ⟨l, hl', rfl⟩ := hx
    simp [hl l hl']
  simp only [State.reads] at h1 h2 ⊢
  simp only [h1, h2, lowestCause, List.foldl_nil, Option.map_none]

/-- The same for a word without causes or a steering tag of its own. -/
theorem State.prepare_plain {s : State} {srcs : List Src} {dsts : List Dst} (h : s.ready srcs dsts = true) :
    s.prepare { srcs := srcs, dsts := dsts }
      = .go s (s.effective.map fun l => (l, s.curLane l, s.operandsOf srcs l)) := by
  have := State.prepare_ready (s := s) (a := { srcs := srcs, dsts := dsts }) h (.inl rfl)
    (by
      have : Ask.steered { srcs := srcs, dsts := dsts } (s.reads { srcs := srcs, dsts := dsts }) = false := by
        simp [Ask.steered]
      simp [this])
    (fun _ _ => rfl) (fun _ _ => rfl)
  simpa [State.reads, State.readers] using this

/-! ## Completion -/

/-- A word's new fibre states, put in place: the braid goes on, nothing else changes. -/
theorem State.finish_effective {s : State} (a : Ask) (h : s.curCrew.named = []) (g : Nat → Lane → Lane) :
    s.finish a (s.effective.map fun l => (l, g l (s.curLane l))) = s.done g := by
  have e : ∀ l ∈ s.cur.lanes, ((((s.effective.map fun l => (l, g l (s.curLane l))).find? (·.1 == l)).map Prod.snd).getD
      (s.curCrew.lane l)).advance
      = (if (s.curCrew.lane l).guardTrue then g l (s.curCrew.lane l) else s.curCrew.lane l).advance := by
    intro l hl
    rw [find?_pairs]
    by_cases hg : (s.curLane l).guardTrue = true
    · rw [if_pos ((State.mem_effective s l).2 ⟨hl, hg⟩)]
      have hg' : (s.curCrew.lane l).guardTrue = true := hg
      simp [hg', State.curLane]
    · rw [if_neg fun hm => hg ((State.mem_effective s l).1 hm).2]
      have hg' : ¬ (s.curCrew.lane l).guardTrue = true := hg
      simp [hg']
  unfold State.finish State.done State.mapLanes
  simp only [State.breaches_nil h, State.breach_nil]
  congr 2
  exact List.map_congr_left fun l hl => by rw [e l hl]

theorem State.operate_ready {s : State} {srcs : List Src} {dsts : List Dst} (h : s.ready srcs dsts = true)
    (f : Env → Nat → Lane → List Val → Lane) :
    s.operate { srcs := srcs, dsts := dsts } f = .next (s.done fun l L => f s.env l L (s.operandsOf srcs l)) := by
  unfold State.operate
  rw [State.prepare_plain h]
  simp only [List.map_map, Function.comp_def]
  exact congrArg _ (State.finish_effective { srcs := srcs, dsts := dsts } (State.ready_named h)
    fun l L => f s.env l L (s.operandsOf srcs l))

theorem State.compute_ready {s : State} {srcs : List Src} {d : Dst} (h : s.ready srcs [d] = true)
    (f : Lane → List Val → Val × BitVec 8) :
    s.compute { srcs := srcs } d f = .next (s.wrote d
      (fun l L => { (f L (s.operandsOf srcs l)).1 with tag := (f L (s.operandsOf srcs l)).1.tag || L.gt })
      fun l L => (f L (s.operandsOf srcs l)).2) :=
  State.operate_ready h _

theorem State.computeQ_ready {s : State} {srcs : List Src} {n : PredF} (h : s.ready srcs [] = true)
    (f : Lane → List Val → (Bool × Bool) × BitVec 8) :
    s.computeQ { srcs := srcs } n f = .next (s.wroteQ n (fun l L => (f L (s.operandsOf srcs l)).1.1)
      (fun l L => (f L (s.operandsOf srcs l)).1.2 || L.gt) fun l L => (f L (s.operandsOf srcs l)).2) :=
  State.operate_ready h _

/-- A fibre of the issuing crew after a word. -/
theorem State.curLane_done (s : State) (g : Nat → Lane → Lane) (l : Nat) :
    (s.done g).curLane l = if l ∈ s.cur.lanes then (if (s.curLane l).guardTrue then g l (s.curLane l) else s.curLane l).advance
      else s.curLane l := State.curLane_mapLanes ..

/-- In the done state, a fibre for which the word took effect. -/
theorem State.curLane_done_effective (s : State) (g : Nat → Lane → Lane) {l : Nat} (h : l ∈ s.effective) :
    (s.done g).curLane l = (g l (s.curLane l)).advance := by
  have h := (State.mem_effective s l).1 h
  rw [State.curLane_done, if_pos h.1, if_pos h.2]

/-- A word that only changes lanes of its braid leaves everything else. -/
theorem State.mapLanes_sameElsewhere (s : State) (ls : List Nat) (f : Nat → Lane → Lane)
    (h : ∀ l ∈ ls, l ∈ s.cur.lanes) : s.sameElsewhere (s.mapLanes ls f) := by
  refine ⟨rfl, fun k hk => ?_, ?_, fun c hc => State.crew_mapLanes_ne s ls f (.inr hc), ?_, fun l hl => ?_⟩
  · simp only [State.mapLanes, State.setCurCrew, State.setCrew, State.team_setTeam_ne s _ hk]
  · simp [State.mapLanes, State.setCurCrew, State.team_setCrew, Team.setCrew]
  · simp only [State.mapLanes, State.curCrew_setCurCrew]
    exact Crew.setLanes_rest ..
  · rw [State.curLane_mapLanes, if_neg fun hm => hl (h l hm)]

theorem State.done_sameElsewhere (s : State) (g : Nat → Lane → Lane) : s.sameElsewhere (s.done g) :=
  State.mapLanes_sameElsewhere s _ _ fun _ h => h

theorem State.sameElsewhere_memory {s t : State} (h : s.sameElsewhere t) : s.sameMemory t := by
  have e : t.mem = s.mem := by have := congrArg State.mem h.1; exact this
  exact ⟨fun a => by rw [e], fun k => by rw [e], fun k => by rw [e]⟩

@[simp] theorem Lane.raise_zero (L : Lane) : L.raise 0#8 = L := by simp [Lane.raise]

/-- The state a word gives depends only on what it does in the fibres for which it takes effect. -/
theorem State.done_congr {s : State} {g h : Nat → Lane → Lane}
    (e : ∀ l ∈ s.effective, g l (s.curLane l) = h l (s.curLane l)) : s.done g = s.done h := by
  unfold State.done State.mapLanes
  refine congrArg (fun us => s.setCurCrew (s.curCrew.setLanes us)) (List.map_congr_left fun l hl => ?_)
  by_cases hg : (s.curLane l).guardTrue = true
  · have hg' : (s.curCrew.lane l).guardTrue = true := hg
    have := e l ((State.mem_effective s l).2 ⟨hl, hg⟩)
    simp only [State.curLane] at this
    simp only [if_pos hg', this]
  · have hg' : ¬ (s.curCrew.lane l).guardTrue = true := hg
    simp only [if_neg hg']

theorem State.wrote_congr {s : State} {d : Dst} {v v' : Nat → Lane → Val} {fl fl' : Nat → Lane → BitVec 8}
    (e : ∀ l ∈ s.effective, v l (s.curLane l) = v' l (s.curLane l) ∧ fl l (s.curLane l) = fl' l (s.curLane l)) :
    s.wrote d v fl = s.wrote d v' fl' :=
  State.done_congr fun l hl => by simp only [(e l hl).1, (e l hl).2]

/-! ## What putting a destination changes -/

theorem Lane.reg_setReg (L : Lane) (n k : Nat) (r : Reg) : (L.setReg n r).reg k = if k = n then r else L.reg k := by
  unfold Lane.setReg Lane.reg
  rw [AMap.find_put]
  split <;> simp

theorem Lane.reg_remark (L : Lane) (n k : Nat) (f : Reg → Reg) :
    (L.remark n f).reg k = if k = n then f (L.reg n) else L.reg k := by
  unfold Lane.remark Lane.reg
  rw [AMap.find_put]
  split <;> simp

@[simp] theorem Lane.remark_rest (L : Lane) (n : Nat) (f : Reg → Reg) : { L.remark n f with regs := L.regs } = L := rfl

@[simp] theorem Lane.setReg_rest (L : Lane) (n : Nat) (r : Reg) :
    { L.setReg n r with regs := L.regs, spoilt := L.spoilt } = L := rfl

/-- Writing one register leaves every other's mark of a poisoned tile (R334). -/
theorem Lane.spoilt_setReg (L : Lane) (n k : Nat) (r : Reg) (h : k ≠ n) :
    (L.setReg n r).spoilt.contains k = L.spoilt.contains k := by
  have := NSet.contains_set L.spoilt k n false
  rw [if_neg h] at this
  exact this

/-- Writing slots changes registers only. -/
theorem putSlots_rest (t : Bool) (L : Lane) (xs : List Slot) (v : BitVec 128) :
    { putSlots t L xs v with regs := L.regs, spoilt := L.spoilt } = L := by
  induction xs generalizing L v with
  | nil => rfl
  | cons x r ih =>
    cases x with
    | reg n =>
      have h := ih (L.setReg n ⟨v.extractLsb' 0 32, t, true⟩) (v >>> 32)
      have h' := congrArg (fun M : Lane => { M with regs := L.regs, spoilt := L.spoilt }) h
      simpa [putSlots] using h'
    | zero => exact ih L _
    | bad => exact ih L _

theorem putSlots_reg (t : Bool) (L : Lane) (xs : List Slot) (v : BitVec 128) (k : Nat) (h : Slot.reg k ∉ xs) :
    (putSlots t L xs v).reg k = L.reg k := by
  induction xs generalizing L v with
  | nil => rfl
  | cons x r ih =>
    simp only [List.mem_cons, not_or] at h
    cases x with
    | reg n =>
      simp only [putSlots]
      rw [ih _ _ h.2, Lane.reg_setReg, if_neg]
      intro e; exact h.1 (by rw [e])
    | zero => exact ih L _ h.2
    | bad => exact ih L _ h.2

theorem putSlots_spoilt (t : Bool) (L : Lane) (xs : List Slot) (v : BitVec 128) (k : Nat) (h : Slot.reg k ∉ xs) :
    (putSlots t L xs v).spoilt.contains k = L.spoilt.contains k := by
  induction xs generalizing L v with
  | nil => rfl
  | cons x r ih =>
    simp only [List.mem_cons, not_or] at h
    cases x with
    | reg n =>
      simp only [putSlots]
      rw [ih _ _ h.2, Lane.spoilt_setReg _ _ _ _ fun e => h.1 (by rw [e])]
    | zero => exact ih L _ h.2
    | bad => exact ih L _ h.2

theorem Env.put_rest (E : Env) (l : Nat) (L : Lane) (d : Dst) (v : Val) :
    { E.put l L d v with regs := L.regs, spoilt := L.spoilt } = L :=
  putSlots_rest ..

theorem Env.put_reg (E : Env) (l : Nat) (L : Lane) (d : Dst) (v : Val) {k : Nat} (h : k ∉ E.regsOf l L d.f d.n) :
    (E.put l L d v).reg k = L.reg k :=
  putSlots_reg _ _ _ _ _ fun hm => h ((Env.mem_regsOf E l L d.f d.n k).2 hm)

theorem Env.put_spoilt (E : Env) (l : Nat) (L : Lane) (d : Dst) (v : Val) {k : Nat} (h : k ∉ E.regsOf l L d.f d.n) :
    (E.put l L d v).spoilt.contains k = L.spoilt.contains k :=
  putSlots_spoilt _ _ _ _ _ fun hm => h ((Env.mem_regsOf E l L d.f d.n k).2 hm)

/-! ## Traps -/

/-- A trap that enters its handler (R298): the context has a vector and a frame is free. -/
theorem State.trapWith_enters {s : State} (E : List Nat) (cause : BitVec 8) (word : Word) (ulen : BitVec 3) (ea : DWord)
    (hf : s.curCrew.frames.length < Config.maxFrames)
    (hv : (if cause.toNat ≤ 7 then (s.team s.cur.team).body.emuvec else (s.team s.cur.team).body.trapvec) ≠ 0) :
    ∃ C, s.trapWith E cause word ulen ea = s.setCurCrew C ∧ C.frames.length = s.curCrew.frames.length + 1 := by
  unfold State.trapWith
  simp only
  rw [if_neg (by rintro (h | h); exacts [absurd hf (Nat.not_lt.2 h), hv h])]
  exact ⟨_, rfl, by simp [Crew.setLanes]⟩

end Sys2Proof.Machine
end

