-- ==== Sys2Proof/Laws/Integer.lean ====
section
/-! SUPPORT. What the integer words of one shape answer when their operands are ready, and the arithmetic facts about
their results. -/

namespace Sys2Proof.Machine

open Sys2Proof

/-! ## Shapes -/

theorem State.int2_ready {s : State} {d a b : RegF} {p q : Bool} (h : s.ready (two a b p q) [{ f := d }] = true)
    (f : Lane → Word → Word → Word × BitVec 8) (g : Word → Word → Word) (e : ∀ L x y, f L x y = (g x y, 0)) :
    s.int2 d a b p q f = s.gives2 d a b p q g := by
  unfold State.int2 State.gives2
  refine (State.compute_ready (srcs := two a b p q) h _).trans ?_
  refine congrArg _ (State.wrote_congr fun l _ => ?_)
  simp [two, State.operandsOf, valAt, tagsOf, e, State.tagOf, val32, noFlags, src, Bool.or_assoc]

theorem State.int1_ready {s : State} {d a : RegF} {p : Bool} (h : s.ready [src a 1 p] [{ f := d }] = true)
    (f : Lane → Word → Word × BitVec 8) (g : Lane → Word → Word) (e : ∀ L x, f L x = (g L x, 0)) :
    s.int1 d a p f = s.gives1 d a p g := by
  unfold State.int1 State.gives1
  refine (State.compute_ready (srcs := [src a 1 p]) h _).trans ?_
  refine congrArg _ (State.wrote_congr fun l _ => ?_)
  simp [State.operandsOf, valAt, tagsOf, e, State.tagOf, val32, noFlags, src]

theorem State.int3_ready {s : State} {d a b : RegF} {p q : Bool}
    (h : s.ready (two a b p q ++ [src d 1 false]) [{ f := d }] = true)
    (f : Lane → Word → Word → Word → Word × BitVec 8) (g : Word → Word → Word → Word)
    (e : ∀ L z x y, f L z x y = (g z x y, 0)) : s.int3 d a b p q f = s.gives3 d a b p q g := by
  unfold State.int3 State.gives3
  refine (State.compute_ready (srcs := two a b p q ++ [src d 1 false]) h _).trans ?_
  refine congrArg _ (State.wrote_congr fun l _ => ?_)
  simp [two, State.operandsOf, valAt, tagsOf, e, State.tagOf, val32, noFlags, src, Bool.or_assoc]

theorem State.pair2_ready {s : State} {d a b : RegF} {p q : Bool} {n : Nat}
    (h : s.ready [src a 2 p, src b n q] [{ f := d, n := 2 }] = true)
    (f : Lane → DWord → Val → DWord × BitVec 8) (g : DWord → Val → DWord) (e : ∀ L x y, f L x y = (g x y, 0)) :
    s.pair2 d a b n p q f = s.givesPair d a b n p q g := by
  unfold State.pair2 State.givesPair
  refine (State.compute_ready (srcs := [src a 2 p, src b n q]) h _).trans ?_
  refine congrArg _ (State.wrote_congr fun l _ => ?_)
  simp [State.operandsOf, valAt, tagsOf, e, State.tagOf, val64, noFlags, src, Bool.or_assoc]

/-! ## Saturation -/

theorem nearest_eq (w : Nat) (x : Int) :
    nearest w x = if x < minInt w then minInt w else if maxInt w < x then maxInt w else x := by
  have : (0 : Int) < 2 ^ (w - 1) := by positivity
  unfold nearest minInt maxInt
  split
  · omega
  · split <;> omega

theorem settle_eq {w : Nat} (L : Lane) (x : Int) (y : BitVec w) (h : BitVec.ofInt w x = y) :
    settle L.hints.sat w (minInt w) (maxInt w) x = (satBits L x y, satFlag w L x) := by
  have hp : (0 : Int) < 2 ^ (w - 1) := by positivity
  have hlt : minInt w ≤ maxInt w := by unfold minInt maxInt; omega
  unfold settle satBits satFlag
  rw [nearest_eq w]
  by_cases hs : L.hints.sat = true
  · simp only [hs, Bool.true_and, if_true]
    by_cases h1 : x < minInt w
    · have : minInt w ≠ x := by omega
      simp [h1, this]
    · by_cases h2 : maxInt w < x
      · have : maxInt w ≠ x := by omega
        simp [h1, h2, this]
      · simp [h1, h2]
  · simp [hs, h]

theorem State.int2_sat {s : State} {d a b : RegF} {p q : Bool} (h : s.ready (two a b p q) [{ f := d }] = true)
    (g : Int → Int → Int) (k : Word → Word → Word) (e : ∀ x y : Word, BitVec.ofInt 32 (g x.toInt y.toInt) = k x y) :
    s.int2 d a b p q (fun L x y => sat32 L (g x.toInt y.toInt)) = s.settles2 d a b p q g k := by
  unfold State.int2 State.settles2
  refine (State.compute_ready (srcs := two a b p q) h _).trans ?_
  refine congrArg _ (State.wrote_congr fun l _ => ?_)
  simp [two, State.operandsOf, valAt, tagsOf, sat32, settle_eq (w := 32) _ _ _ (e _ _), State.tagOf, val32, src,
    Bool.or_assoc]

theorem State.int1_sat {s : State} {d a : RegF} {p : Bool} (h : s.ready [src a 1 p] [{ f := d }] = true)
    (f : Lane → Word → Word × BitVec 8) (g : Lane → Int → Int) (k : Lane → Word → Word)
    (e : ∀ L, ∀ x : Word, BitVec.ofInt 32 (g L x.toInt) = k L x) (e2 : ∀ L x, f L x = sat32 L (g L x.toInt)) :
    s.int1 d a p f = s.settles1 d a p g k := by
  unfold State.int1 State.settles1
  refine (State.compute_ready (srcs := [src a 1 p]) h _).trans ?_
  refine congrArg _ (State.wrote_congr fun l _ => ?_)
  simp [State.operandsOf, valAt, tagsOf, e2, sat32, settle_eq (w := 32) _ _ _ (e _ _), State.tagOf, val32, src]

theorem State.pair2_sat {s : State} {d a b : RegF} {p q : Bool}
    (h : s.ready (two a b p q 2) [{ f := d, n := 2 }] = true)
    (g : Int → Int → Int) (k : DWord → DWord → DWord) (e : ∀ x y : DWord, BitVec.ofInt 64 (g x.toInt y.toInt) = k x y) :
    s.pair2 d a b 2 p q (fun L x y => sat64 L (g x.toInt y.w64.toInt)) = s.settlesPair d a b p q g k := by
  unfold State.pair2 State.settlesPair
  refine (State.compute_ready (srcs := two a b p q 2) h _).trans ?_
  refine congrArg _ (State.wrote_congr fun l _ => ?_)
  simp [two, State.operandsOf, valAt, tagsOf, sat64, settle_eq (w := 64) _ _ _ (e _ _), State.tagOf, val64, src,
    Bool.or_assoc]

/-! ## Results -/

theorem leadingZeros_find (x : Word) :
    leadingZeros x = ((List.range 33).find? fun n => decide (2 ^ 32 ≤ 2 ^ n * 2 * x.toNat)).getD 32 := by
  unfold leadingZeros
  by_cases h : x = 0
  · subst h; decide
  · rw [if_neg h]
    have hx : x.toNat ≠ 0 := by simpa [← BitVec.toNat_inj] using h
    have h1 := Nat.log2_self_le hx
    have h2 := Nat.lt_log2_self (n := x.toNat)
    have h3 : x.toNat.log2 < 32 := (Nat.log2_lt hx).2 x.isLt
    have : (List.range 33).find? (fun n => decide (2 ^ 32 ≤ 2 ^ n * 2 * x.toNat)) = some (31 - x.toNat.log2) := by
      generalize x.toNat = v at *
      generalize hk : v.log2 = k at *
      rw [List.find?_range_eq_some]
      refine ⟨?_, ?_, ?_⟩
      · have : 2 ^ (31 - k) * 2 ^ k = 2 ^ 31 := by rw [← pow_add]; congr 1; omega
        have := Nat.mul_le_mul_left (2 ^ (31 - k)) h1
        have e : 2 ^ (31 - k) * 2 * v = 2 * (2 ^ (31 - k) * v) := by ring
        simp only [decide_eq_true_eq]
        omega
      · simp; omega
      · intro j hj
        have hjk : 2 ^ j * 2 * 2 ^ (k + 1) ≤ 2 ^ 32 := by
          rw [show 2 ^ j * 2 * 2 ^ (k + 1) = 2 ^ (j + 1 + (k + 1)) by ring]
          exact Nat.pow_le_pow_right (by decide) (by omega)
        have := Nat.mul_lt_mul_of_pos_left h2 (show 0 < 2 ^ j * 2 by positivity)
        simp only [Bool.not_eq_true', decide_eq_false_iff_not, not_le]
        omega
    rw [this]; rfl

theorem count5_eq (y : Word) : count5 y = y.toNat % 32 := by simp [count5, BitVec.extractLsb'_toNat]
theorem count6_eq (y : Word) : count6 y = y.toNat % 64 := by simp [count6, BitVec.extractLsb'_toNat]
theorem widthField_eq (y : Word) : widthField y = y.toNat / 256 % 32 := by
  simp [widthField, BitVec.extractLsb'_toNat, Nat.shiftRight_eq_div_pow]

theorem shl_ofNat {w : Nat} (x : BitVec w) (n : Nat) : x <<< n = BitVec.ofNat w (x.toNat * 2 ^ n) := by
  apply BitVec.eq_of_toNat_eq; simp [Nat.shiftLeft_eq]

theorem shr_ofNat {w : Nat} (x : BitVec w) (n : Nat) : x >>> n = BitVec.ofNat w (x.toNat / 2 ^ n) := by
  apply BitVec.eq_of_toNat_eq
  have : x.toNat / 2 ^ n < 2 ^ w := lt_of_le_of_lt (Nat.div_le_self _ _) x.isLt
  simp [Nat.shiftRight_eq_div_pow, Nat.mod_eq_of_lt this]

theorem shra_ofInt {w : Nat} (x : BitVec w) (n : Nat) : x.sshiftRight n = BitVec.ofInt w (x.toInt / 2 ^ n) := by
  rw [← BitVec.ofInt_toInt (x := x.sshiftRight n)]
  simp [BitVec.toInt_sshiftRight, Int.shiftRight_eq_div_pow]

end Sys2Proof.Machine
end

