-- ==== Sys2Proof/Laws/Long.lean ====
section
/-! SUPPORT. What long-latency arithmetic answers at issue when its operands are ready (R92, R372, R378). -/

namespace Sys2Proof.Machine

open Sys2Proof

theorem State.emptied_eq {s : State} {srcs : List Src} {dst : Dst} (h : s.curCrew.named = []) :
    s.finish { srcs := srcs, dsts := [dst] } (s.effective.map fun l => (l, s.env.drain l (s.curLane l) dst)) = s.emptied dst :=
  State.finish_effective _ h fun l L => s.env.drain l L dst

theorem State.division_ready {s : State} {w : Bool} {d a b : RegF} {p q : Bool} (signed remainder : Bool)
    (h : s.ready (two a b p q (wideN w)) [{ f := d, n := wideN w }] = true) :
    s.division w d a b p q signed remainder =
      let n := wideN w
      let num (v : Val) : Int :=
        if w then (if signed then v.w64.toInt else v.w64.toNat) else (if signed then v.w32.toInt else v.w32.toNat)
      let r (l : Nat) := divide (num (s.operand l (src a n p))) (num (s.operand l (src b n q)))
      .next ((s.emptied { f := d, n := n }).send (.division s.cur.team s.cur.crew
        (s.effective.map fun l => (l, s.env.dest l (s.curLane l) { f := d, n := n },
          BitVec.ofInt 64 (if remainder then (r l).1.2 else (r l).1.1), s.tagOf (two a b p q n) l (s.curLane l)))
        (s.effective.filter fun l => (r l).2))) := by
  unfold State.division
  dsimp only
  have hp := State.prepare_plain (s := s) h
  simp only [two, src] at hp
  rw [hp]
  simp only [List.map_map, Function.comp_def, List.filter_map]
  rw [State.emptied_eq (State.ready_named h)]
  simp [State.operandsOf, valAt, tagsOf, State.tagOf, two, src, Bool.or_assoc]

theorem State.special_ready {s : State} {w : Bool} {d a : RegF} {p : Bool} (op : Fmt → Attr → (source : Nat) → FVal → FRes)
    (h : s.ready [src a (wideN w) p] [{ f := d, n := wideN w }] = true) :
    s.special w d a p op =
      let n := wideN w
      let f := if w then f64 else f32
      let r (l : Nat) : FRes :=
        let v := s.operand l (src a n p)
        op f ((s.curLane l).attr f) v.bits.toNat ((s.curLane l).float f v)
      .next ((s.emptied { f := d, n := n }).send (.special s.cur.team s.cur.crew
        (s.effective.map fun l => (l, s.env.dest l (s.curLane l) { f := d, n := n }, BitVec.ofNat 64 (r l).bits,
          s.tagOf [src a n p] l (s.curLane l)))
        (s.effective.map fun l => (l, (r l).flags)))) := by
  unfold State.special
  dsimp only
  have hp := State.prepare_plain (s := s) h
  simp only [src] at hp
  rw [hp]
  simp only [List.map_map, Function.comp_def]
  rw [State.emptied_eq (State.ready_named h)]
  simp [State.operandsOf, valAt, State.tagOf, src]

end Sys2Proof.Machine
end

