-- ==== Sys2Proof/Laws/PerInstr.lean ====
section
/-! SUPPORT. Laws made one per instruction. Family Reads: the word of a well-formed instruction is read, by its major
opcode and its function code, as that instruction with each operand in place. -/

namespace Sys2Proof.Laws.Reads

open Sys2Proof

/-- The word of a well-formed instruction reads as the instruction (R55-R76). -/
def Statement (i : Instr) : Prop := i.wf = true → ∀ w, i.word? = some w → readWord w = .ok i

theorem cases3 : ∀ c : BitVec 3, c = 0 ∨ c = 1 ∨ c = 2 ∨ c = 3 ∨ c = 4 ∨ c = 5 ∨ c = 6 ∨ c = 7 := by decide
theorem cases4 : ∀ c : BitVec 4, c = 0 ∨ c = 1 ∨ c = 2 ∨ c = 3 ∨ c = 4 ∨ c = 5 ∨ c = 6 ∨ c = 7 ∨ c = 8 ∨ c = 9 ∨ c = 10
    ∨ c = 11 ∨ c = 12 ∨ c = 13 ∨ c = 14 ∨ c = 15 := by decide
theorem cases2 : ∀ c : BitVec 2, c = 0 ∨ c = 1 ∨ c = 2 ∨ c = 3 := by decide

theorem add (d a b : RegF) (p q : Bool) : Statement (.add d a b p q) := by
  intro hw w h; cases h
  simp [readWord, majorOf, readInt]

theorem sub (d a b : RegF) (p q : Bool) : Statement (.sub d a b p q) := by
  intro hw w h; cases h
  simp [readWord, majorOf, readInt]

theorem mul (d a b : RegF) (p q : Bool) : Statement (.mul d a b p q) := by
  intro hw w h; cases h
  simp [readWord, majorOf, readInt]

theorem mulh (d a b : RegF) (p q : Bool) : Statement (.mulh d a b p q) := by
  intro hw w h; cases h
  simp [readWord, majorOf, readInt]

theorem mulhz (d a b : RegF) (p q : Bool) : Statement (.mulhz d a b p q) := by
  intro hw w h; cases h
  simp [readWord, majorOf, readInt]

theorem mad (d a b : RegF) (p q : Bool) : Statement (.mad d a b p q) := by
  intro hw w h; cases h
  simp [readWord, majorOf, readInt]

theorem and (d a b : RegF) (p q : Bool) : Statement (.and d a b p q) := by
  intro hw w h; cases h
  simp [readWord, majorOf, readInt]

theorem or (d a b : RegF) (p q : Bool) : Statement (.or d a b p q) := by
  intro hw w h; cases h
  simp [readWord, majorOf, readInt]

theorem xor (d a b : RegF) (p q : Bool) : Statement (.xor d a b p q) := by
  intro hw w h; cases h
  simp [readWord, majorOf, readInt]

theorem andn (d a b : RegF) (p q : Bool) : Statement (.andn d a b p q) := by
  intro hw w h; cases h
  simp [readWord, majorOf, readInt]

theorem shl (d a b : RegF) (p q : Bool) : Statement (.shl d a b p q) := by
  intro hw w h; cases h
  simp [readWord, majorOf, readInt]

theorem shr (d a b : RegF) (p q : Bool) : Statement (.shr d a b p q) := by
  intro hw w h; cases h
  simp [readWord, majorOf, readInt]

theorem shra (d a b : RegF) (p q : Bool) : Statement (.shra d a b p q) := by
  intro hw w h; cases h
  simp [readWord, majorOf, readInt]

theorem rot (d a b : RegF) (p q : Bool) : Statement (.rot d a b p q) := by
  intro hw w h; cases h
  simp [readWord, majorOf, readInt]

theorem min (d a b : RegF) (p q : Bool) : Statement (.min d a b p q) := by
  intro hw w h; cases h
  simp [readWord, majorOf, readInt]

theorem max (d a b : RegF) (p q : Bool) : Statement (.max d a b p q) := by
  intro hw w h; cases h
  simp [readWord, majorOf, readInt]

theorem minz (d a b : RegF) (p q : Bool) : Statement (.minz d a b p q) := by
  intro hw w h; cases h
  simp [readWord, majorOf, readInt]

theorem maxz (d a b : RegF) (p q : Bool) : Statement (.maxz d a b p q) := by
  intro hw w h; cases h
  simp [readWord, majorOf, readInt]

theorem abs (d a : RegF) (p : Bool) : Statement (.abs d a p) := by
  intro hw w h; cases h
  simp [readWord, majorOf, readInt]

theorem popc (d a : RegF) (p : Bool) : Statement (.popc d a p) := by
  intro hw w h; cases h
  simp [readWord, majorOf, readInt]

theorem clz (d a : RegF) (p : Bool) : Statement (.clz d a p) := by
  intro hw w h; cases h
  simp [readWord, majorOf, readInt]

theorem brev (d a : RegF) (p : Bool) : Statement (.brev d a p) := by
  intro hw w h; cases h
  simp [readWord, majorOf, readInt]

theorem bfx (d a b : RegF) (p q : Bool) : Statement (.bfx d a b p q) := by
  intro hw w h; cases h
  simp [readWord, majorOf, readInt]

theorem bfi (d a b : RegF) (p q : Bool) : Statement (.bfi d a b p q) := by
  intro hw w h; cases h
  simp [readWord, majorOf, readInt]

theorem sel (n : PredF) (d a b : RegF) (p q : Bool) : Statement (.sel n d a b p q) := by
  intro hw w h; cases h
  obtain rfl | rfl | rfl | rfl | rfl | rfl | rfl | rfl | rfl | rfl | rfl | rfl | rfl | rfl | rfl | rfl :=
    cases4 n <;> simp [readWord, majorOf, readInt]

theorem addw (d a b : RegF) (p q : Bool) : Statement (.addw d a b p q) := by
  intro hw w h; cases h
  simp [readWord, majorOf, readIntW]

theorem subw (d a b : RegF) (p q : Bool) : Statement (.subw d a b p q) := by
  intro hw w h; cases h
  simp [readWord, majorOf, readIntW]

theorem shlw (d a b : RegF) (p q : Bool) : Statement (.shlw d a b p q) := by
  intro hw w h; cases h
  simp [readWord, majorOf, readIntW]

theorem shrw (d a b : RegF) (p q : Bool) : Statement (.shrw d a b p q) := by
  intro hw w h; cases h
  simp [readWord, majorOf, readIntW]

theorem divs (w : Bool) (d a b : RegF) (p q : Bool) : Statement (.divs w d a b p q) := by
  intro hw w' h; cases h
  cases w <;> simp [readWord, majorOf, readIntW]

theorem divz (w : Bool) (d a b : RegF) (p q : Bool) : Statement (.divz w d a b p q) := by
  intro hw w' h; cases h
  cases w <;> simp [readWord, majorOf, readIntW]

theorem rems (w : Bool) (d a b : RegF) (p q : Bool) : Statement (.rems w d a b p q) := by
  intro hw w' h; cases h
  cases w <;> simp [readWord, majorOf, readIntW]

theorem remz (w : Bool) (d a b : RegF) (p q : Bool) : Statement (.remz w d a b p q) := by
  intro hw w' h; cases h
  cases w <;> simp [readWord, majorOf, readIntW]

theorem cadd (d a b : RegF) (p q : Bool) : Statement (.cadd d a b p q) := by
  intro hw w h; cases h
  simp [readWord, majorOf, readIntW]

theorem capn (d a b : RegF) (p q : Bool) : Statement (.capn d a b p q) := by
  intro hw w h; cases h
  simp [readWord, majorOf, readIntW]

theorem capb (d a b : RegF) (p q : Bool) : Statement (.capb d a b p q) := by
  intro hw w h; cases h
  simp [readWord, majorOf, readIntW]

theorem cmpw (c : BitVec 3) (u : Bool) (d : PredF) (a b : RegF) (p q : Bool) : Statement (.cmpw c u d a b p q) := by
  intro hw w h; cases h
  obtain rfl | rfl | rfl | rfl | rfl | rfl | rfl | rfl := cases3 c <;> cases u <;>
    simp_all [Instr.wf, readWord, majorOf, readIntW]

theorem cmp (c : BitVec 3) (u : Bool) (d : PredF) (a b : RegF) (p q : Bool) : Statement (.cmp c u d a b p q) := by
  intro hw w h; cases h
  obtain rfl | rfl | rfl | rfl | rfl | rfl | rfl | rfl := cases3 c <;> cases u <;>
    simp_all [Instr.wf, readWord, majorOf, readCmp]

theorem addi (d a : RegF) (i : BitVec 13) (p : Bool) : Statement (.addi d a i p) := by
  intro hw w h; cases h
  simp [readWord, majorOf]

theorem andi (d a : RegF) (i : BitVec 13) (p : Bool) : Statement (.andi d a i p) := by
  intro hw w h; cases h
  simp [readWord, majorOf]

theorem ori (d a : RegF) (i : BitVec 13) (p : Bool) : Statement (.ori d a i p) := by
  intro hw w h; cases h
  simp [readWord, majorOf]

theorem xori (d a : RegF) (i : BitVec 13) (p : Bool) : Statement (.xori d a i p) := by
  intro hw w h; cases h
  simp [readWord, majorOf]

theorem shli (d a : RegF) (n : BitVec 5) (p : Bool) : Statement (.shli d a n p) := by
  intro hw w h; cases h
  simp [readWord, majorOf]

theorem shri (d a : RegF) (n : BitVec 5) (p : Bool) : Statement (.shri d a n p) := by
  intro hw w h; cases h
  simp [readWord, majorOf]

theorem shrai (d a : RegF) (n : BitVec 5) (p : Bool) : Statement (.shrai d a n p) := by
  intro hw w h; cases h
  simp [readWord, majorOf]

theorem cmpi (n : BitVec 3) (a : RegF) (i : BitVec 13) (p : Bool) : Statement (.cmpi n a i p) := by
  intro hw w h; cases h
  simp [readWord, majorOf]

theorem movi (d : RegF) (i : BitVec 13) : Statement (.movi d i) := by
  intro hw w h; cases h
  simp [readWord, majorOf]

theorem fadd (t : BitVec 2) (d a b : RegF) (p q : Bool) : Statement (.fadd t d a b p q) := by
  intro hw w h; cases h
  simp [readWord, majorOf, readFp]

theorem fsub (t : BitVec 2) (d a b : RegF) (p q : Bool) : Statement (.fsub t d a b p q) := by
  intro hw w h; cases h
  simp [readWord, majorOf, readFp]

theorem fmul (t : BitVec 2) (d a b : RegF) (p q : Bool) : Statement (.fmul t d a b p q) := by
  intro hw w h; cases h
  simp [readWord, majorOf, readFp]

theorem fma (t : BitVec 2) (d a b : RegF) (p q : Bool) : Statement (.fma t d a b p q) := by
  intro hw w h; cases h
  simp [readWord, majorOf, readFp]

theorem fmin (t : BitVec 2) (d a b : RegF) (p q : Bool) : Statement (.fmin t d a b p q) := by
  intro hw w h; cases h
  simp [readWord, majorOf, readFp]

theorem fmax (t : BitVec 2) (d a b : RegF) (p q : Bool) : Statement (.fmax t d a b p q) := by
  intro hw w h; cases h
  simp [readWord, majorOf, readFp]

theorem fabs (t : BitVec 2) (d a : RegF) (p : Bool) : Statement (.fabs t d a p) := by
  intro hw w h; cases h
  simp [readWord, majorOf, readFp]

theorem fneg (t : BitVec 2) (d a : RegF) (p : Bool) : Statement (.fneg t d a p) := by
  intro hw w h; cases h
  simp [readWord, majorOf, readFp]

theorem fcmp (c : BitVec 3) (t : BitVec 2) (d : PredF) (a b : RegF) (p q : Bool) :
    Statement (.fcmp c t d a b p q) := by
  intro hw w h; cases h
  obtain rfl | rfl | rfl | rfl | rfl | rfl | rfl | rfl := cases3 c <;>
    obtain rfl | rfl | rfl | rfl := cases2 t <;> simp_all [Instr.wf, readWord, majorOf, readFp]

theorem fcvt (e : BitVec 4) (d a : RegF) (s : BitVec 4) (p : Bool) : Statement (.fcvt e d a s p) := by
  intro hw w h; cases h
  simp_all [Instr.wf, readWord, majorOf, readFcv]

theorem qpack (g : BitVec 2) (n : Bool) (d a b : RegF) (p q : Bool) : Statement (.qpack g n d a b p q) := by
  intro hw w h; cases h
  obtain rfl | rfl | rfl | rfl := cases2 g <;> cases n <;> simp_all [Instr.wf, readWord, majorOf, readFcv]

theorem qunpk (g : BitVec 2) (n : Bool) (d a : RegF) (p : Bool) : Statement (.qunpk g n d a p) := by
  intro hw w h; cases h
  obtain rfl | rfl | rfl | rfl := cases2 g <;> cases n <;> simp_all [Instr.wf, readWord, majorOf, readFcv]

theorem frcp (t : Bool) (d a : RegF) (p : Bool) : Statement (.frcp t d a p) := by
  intro hw w h; cases h
  cases t <;> simp [readWord, majorOf, readSfu]

theorem frsq (t : Bool) (d a : RegF) (p : Bool) : Statement (.frsq t d a p) := by
  intro hw w h; cases h
  cases t <;> simp [readWord, majorOf, readSfu]

theorem fsqrt (t : Bool) (d a : RegF) (p : Bool) : Statement (.fsqrt t d a p) := by
  intro hw w h; cases h
  cases t <;> simp [readWord, majorOf, readSfu]

theorem fexp2 (d a : RegF) (p : Bool) : Statement (.fexp2 d a p) := by
  intro hw w h; cases h
  simp [readWord, majorOf, readSfu]

theorem flog2 (d a : RegF) (p : Bool) : Statement (.flog2 d a p) := by
  intro hw w h; cases h
  simp [readWord, majorOf, readSfu]

theorem fsin (d a : RegF) (p : Bool) : Statement (.fsin d a p) := by
  intro hw w h; cases h
  simp [readWord, majorOf, readSfu]

theorem fcos (d a : RegF) (p : Bool) : Statement (.fcos d a p) := by
  intro hw w h; cases h
  simp [readWord, majorOf, readSfu]

theorem qand (d a b : PredF) : Statement (.qand d a b) := by
  intro hw w h; cases h
  simp [readWord, majorOf, readPred]

theorem qor (d a b : PredF) : Statement (.qor d a b) := by
  intro hw w h; cases h
  simp [readWord, majorOf, readPred]

theorem qxor (d a b : PredF) : Statement (.qxor d a b) := by
  intro hw w h; cases h
  simp [readWord, majorOf, readPred]

theorem qnot (d a : PredF) : Statement (.qnot d a) := by
  intro hw w h; cases h
  simp [readWord, majorOf, readPred]

theorem qmov (d a : PredF) : Statement (.qmov d a) := by
  intro hw w h; cases h
  simp [readWord, majorOf, readPred]

theorem shfl (d a b : RegF) (p q : Bool) : Statement (.shfl d a b p q) := by
  intro hw w h; cases h
  simp [readWord, majorOf, readLane]

theorem shflu (d a b : RegF) (p q : Bool) : Statement (.shflu d a b p q) := by
  intro hw w h; cases h
  simp [readWord, majorOf, readLane]

theorem shfld (d a b : RegF) (p q : Bool) : Statement (.shfld d a b p q) := by
  intro hw w h; cases h
  simp [readWord, majorOf, readLane]

theorem shflx (d a b : RegF) (p q : Bool) : Statement (.shflx d a b p q) := by
  intro hw w h; cases h
  simp [readWord, majorOf, readLane]

theorem voteall (d a : PredF) : Statement (.voteall d a) := by
  intro hw w h; cases h
  simp [readWord, majorOf, readLane]

theorem voteany (d a : PredF) : Statement (.voteany d a) := by
  intro hw w h; cases h
  simp [readWord, majorOf, readLane]

theorem ballot (d : RegF) (a : PredF) : Statement (.ballot d a) := by
  intro hw w h; cases h
  simp [readWord, majorOf, readLane]

theorem redadd (t : BitVec 3) (d a : RegF) (m : PredF) (p : Bool) : Statement (.redadd t d a m p) := by
  intro hw w h; cases h
  obtain rfl | rfl | rfl | rfl | rfl | rfl | rfl | rfl := cases3 t <;> simp_all [Instr.wf, readWord, majorOf, readReds]

theorem redmin (t : BitVec 3) (d a : RegF) (m : PredF) (p : Bool) : Statement (.redmin t d a m p) := by
  intro hw w h; cases h
  obtain rfl | rfl | rfl | rfl | rfl | rfl | rfl | rfl := cases3 t <;> simp_all [Instr.wf, readWord, majorOf, readReds]

theorem redmax (t : BitVec 3) (d a : RegF) (m : PredF) (p : Bool) : Statement (.redmax t d a m p) := by
  intro hw w h; cases h
  obtain rfl | rfl | rfl | rfl | rfl | rfl | rfl | rfl := cases3 t <;> simp_all [Instr.wf, readWord, majorOf, readReds]

theorem redand (t : BitVec 3) (d a : RegF) (m : PredF) (p : Bool) : Statement (.redand t d a m p) := by
  intro hw w h; cases h
  obtain rfl | rfl | rfl | rfl | rfl | rfl | rfl | rfl := cases3 t <;> simp_all [Instr.wf, readWord, majorOf, readReds]

theorem redor (t : BitVec 3) (d a : RegF) (m : PredF) (p : Bool) : Statement (.redor t d a m p) := by
  intro hw w h; cases h
  obtain rfl | rfl | rfl | rfl | rfl | rfl | rfl | rfl := cases3 t <;> simp_all [Instr.wf, readWord, majorOf, readReds]

theorem redxor (t : BitVec 3) (d a : RegF) (m : PredF) (p : Bool) : Statement (.redxor t d a m p) := by
  intro hw w h; cases h
  obtain rfl | rfl | rfl | rfl | rfl | rfl | rfl | rfl := cases3 t <;> simp_all [Instr.wf, readWord, majorOf, readReds]

theorem scanadd (t : BitVec 3) (d a : RegF) (m : PredF) (p : Bool) : Statement (.scanadd t d a m p) := by
  intro hw w h; cases h
  obtain rfl | rfl | rfl | rfl | rfl | rfl | rfl | rfl := cases3 t <;> simp_all [Instr.wf, readWord, majorOf, readReds]

theorem scanaddx (t : BitVec 3) (d a : RegF) (m : PredF) (p : Bool) : Statement (.scanaddx t d a m p) := by
  intro hw w h; cases h
  obtain rfl | rfl | rfl | rfl | rfl | rfl | rfl | rfl := cases3 t <;> simp_all [Instr.wf, readWord, majorOf, readReds]

theorem tagq (d : PredF) (a : RegF) (p : Bool) : Statement (.tagq d a p) := by
  intro hw w h; cases h
  simp [readWord, majorOf, readTag]

theorem tagp (d : RegF) : Statement (.tagp d) := by
  intro hw w h; cases h
  simp [readWord, majorOf, readTag]

theorem tclr  : Statement (.tclr) := by
  intro hw w h; cases h
  simp [readWord, majorOf, readTag]

theorem br (q : PredF) (o : BitVec 21) : Statement (.br q o) := by
  intro hw w h; cases h
  simp [readWord, majorOf, readBranch]

theorem brn (q : PredF) (o : BitVec 21) : Statement (.brn q o) := by
  intro hw w h; cases h
  simp [readWord, majorOf, readBranch]

theorem call (q : PredF) (o : BitVec 21) : Statement (.call q o) := by
  intro hw w h; cases h
  simp [readWord, majorOf, readBranch]

theorem calln (q : PredF) (o : BitVec 21) : Statement (.calln q o) := by
  intro hw w h; cases h
  simp [readWord, majorOf, readBranch]

theorem jmpi (a : RegF) (p : Bool) : Statement (.jmpi a p) := by
  intro hw w h; cases h
  simp [readWord, majorOf, readFlow]

theorem calli (a : RegF) (p : Bool) : Statement (.calli a p) := by
  intro hw w h; cases h
  simp [readWord, majorOf, readFlow]

theorem ret (a : RegF) (p : Bool) : Statement (.ret a p) := by
  intro hw w h; cases h
  simp [readWord, majorOf, readFlow]

theorem meet  : Statement (.meet) := by
  intro hw w h; cases h
  simp [readWord, majorOf, readFlow]

theorem fend  : Statement (.fend) := by
  intro hw w h; cases h
  simp [readWord, majorOf, readFlow]

theorem fspawn (d a : RegF) (p : Bool) : Statement (.fspawn d a p) := by
  intro hw w h; cases h
  simp [readWord, majorOf, readFlow]

theorem win (s : BitVec 6) : Statement (.win s) := by
  intro hw w h; cases h
  simp [readWord, majorOf, readFlow]

theorem tfence  : Statement (.tfence) := by
  intro hw w h; cases h
  simp [readWord, majorOf, readFlow]

theorem eret  : Statement (.eret) := by
  intro hw w h; cases h
  simp [readWord, majorOf, readFlow]

theorem ld (z : BitVec 3) (d b : RegF) (o : BitVec 7) (q : Bool) : Statement (.ld z d b o q) := by
  intro hw w h; cases h
  obtain rfl | rfl | rfl | rfl | rfl | rfl | rfl | rfl := cases3 z <;> simp_all [Instr.wf, readWord, majorOf, readMem]

theorem st (z : BitVec 3) (d b : RegF) (o : BitVec 7) (q : Bool) : Statement (.st z d b o q) := by
  intro hw w h; cases h
  obtain rfl | rfl | rfl | rfl | rfl | rfl | rfl | rfl := cases3 z <;> simp_all [Instr.wf, readWord, majorOf, readMem]

theorem ldsp (z : BitVec 3) (d b : RegF) (o : BitVec 7) (q : Bool) : Statement (.ldsp z d b o q) := by
  intro hw w h; cases h
  obtain rfl | rfl | rfl | rfl | rfl | rfl | rfl | rfl := cases3 z <;> simp_all [Instr.wf, readWord, majorOf, readMem]

theorem ldacq (s : BitVec 5) (w : Bool) (d b : RegF) : Statement (.ldacq s w d b) := by
  intro hw w' h; cases h
  cases w <;> simp [readWord, majorOf, readOrdm]

theorem strel (s : BitVec 5) (w : Bool) (b v : RegF) : Statement (.strel s w b v) := by
  intro hw w' h; cases h
  cases w <;> simp [readWord, majorOf, readOrdm]

theorem atadd (w : Bool) (s : BitVec 5) (d b v : RegF) : Statement (.atadd w s d b v) := by
  intro hw w' h; cases h
  cases w <;> simp [readWord, majorOf, readAtom]

theorem atand (w : Bool) (s : BitVec 5) (d b v : RegF) : Statement (.atand w s d b v) := by
  intro hw w' h; cases h
  cases w <;> simp [readWord, majorOf, readAtom]

theorem ator (w : Bool) (s : BitVec 5) (d b v : RegF) : Statement (.ator w s d b v) := by
  intro hw w' h; cases h
  cases w <;> simp [readWord, majorOf, readAtom]

theorem atxor (w : Bool) (s : BitVec 5) (d b v : RegF) : Statement (.atxor w s d b v) := by
  intro hw w' h; cases h
  cases w <;> simp [readWord, majorOf, readAtom]

theorem atmin (w : Bool) (s : BitVec 5) (d b v : RegF) : Statement (.atmin w s d b v) := by
  intro hw w' h; cases h
  cases w <;> simp [readWord, majorOf, readAtom]

theorem atmax (w : Bool) (s : BitVec 5) (d b v : RegF) : Statement (.atmax w s d b v) := by
  intro hw w' h; cases h
  cases w <;> simp [readWord, majorOf, readAtom]

theorem atfadd (w : Bool) (s : BitVec 5) (d b v : RegF) : Statement (.atfadd w s d b v) := by
  intro hw w' h; cases h
  cases w <;> simp [readWord, majorOf, readAtom]

theorem atcas (w : Bool) (s : BitVec 5) (d b v : RegF) : Statement (.atcas w s d b v) := by
  intro hw w' h; cases h
  cases w <;> simp_all [Instr.wf, readWord, majorOf, readAtom]

theorem atxch (w : Bool) (s : BitVec 5) (d b : RegF) : Statement (.atxch w s d b) := by
  intro hw w' h; cases h
  cases w <;> simp [readWord, majorOf, readAtom]

theorem fence (s : BitVec 5) : Statement (.fence s) := by
  intro hw w h; cases h
  simp [readWord, majorOf, readMsys]

theorem cflush (a b : RegF) : Statement (.cflush a b) := by
  intro hw w h; cases h
  simp [readWord, majorOf, readMsys]

theorem cinv (a b : RegF) : Statement (.cinv a b) := by
  intro hw w h; cases h
  simp [readWord, majorOf, readMsys]

theorem iinv (s : BitVec 5) : Statement (.iinv s) := by
  intro hw w h; cases h
  simp [readWord, majorOf, readMsys]

theorem pref (a : RegF) (k : Bool) : Statement (.pref a k) := by
  intro hw w h; cases h
  cases k <;> simp [readWord, majorOf, readMsys]

theorem stmap (a b : RegF) (w : BitVec 4) : Statement (.stmap a b w) := by
  intro hw w' h; cases h
  simp [readWord, majorOf, readMsys]

theorem stunmap (w : BitVec 4) : Statement (.stunmap w) := by
  intro hw w' h; cases h
  simp [readWord, majorOf, readMsys]

theorem stwb (w : BitVec 4) : Statement (.stwb w) := by
  intro hw w' h; cases h
  simp [readWord, majorOf, readMsys]

theorem pqry (a : RegF) (n : PredF) : Statement (.pqry a n) := by
  intro hw w h; cases h
  simp [readWord, majorOf, readMsys]

theorem wclr  : Statement (.wclr) := by
  intro hw w h; cases h
  simp [readWord, majorOf, readMsys]

theorem wchk (o : BitVec 21) : Statement (.wchk o) := by
  intro hw w h; cases h
  simp [readWord, majorOf]

theorem mma (a : RegF) : Statement (.mma a) := by
  intro hw w h; cases h
  simp [readWord, majorOf, readEng]

theorem mrdy (a : RegF) : Statement (.mrdy a) := by
  intro hw w h; cases h
  simp [readWord, majorOf, readEng]

theorem mwait (t : BitVec 6) : Statement (.mwait t) := by
  intro hw w h; cases h
  simp [readWord, majorOf, readEng]

theorem wbld (a : RegF) : Statement (.wbld a) := by
  intro hw w h; cases h
  simp [readWord, majorOf, readEng]

theorem dcor (a : RegF) : Statement (.dcor a) := by
  intro hw w h; cases h
  simp [readWord, majorOf, readEng]

theorem chain (a : RegF) : Statement (.chain a) := by
  intro hw w h; cases h
  simp [readWord, majorOf, readStreams]

theorem strm (n : BitVec 3) (b : RegF) (s : BitVec 6) : Statement (.strm n b s) := by
  intro hw w h; cases h
  simp [readWord, majorOf, readStreams]

theorem kick (a : RegF) : Statement (.kick a) := by
  intro hw w h; cases h
  simp [readWord, majorOf, readQue]

theorem bari (a b : RegF) : Statement (.bari a b) := by
  intro hw w h; cases h
  simp [readWord, majorOf, readQue]

theorem bara (a : RegF) : Statement (.bara a) := by
  intro hw w h; cases h
  simp [readWord, majorOf, readQue]

theorem bwait (a : RegF) : Statement (.bwait a) := by
  intro hw w h; cases h
  simp [readWord, majorOf, readQue]

theorem coll (a : RegF) : Statement (.coll a) := by
  intro hw w h; cases h
  simp [readWord, majorOf, readQue]

theorem launch (a : RegF) : Statement (.launch a) := by
  intro hw w h; cases h
  simp [readWord, majorOf, readWork]

theorem launcht (a : RegF) (n : PredF) : Statement (.launcht a n) := by
  intro hw w h; cases h
  simp [readWord, majorOf, readWork]

theorem cwait  : Statement (.cwait) := by
  intro hw w h; cases h
  simp [readWord, majorOf, readWork]

theorem tbar  : Statement (.tbar) := by
  intro hw w h; cases h
  simp [readWord, majorOf, readWork]

theorem gsr (a : RegF) (n : BitVec 8) : Statement (.gsr a n) := by
  intro hw w h; cases h
  simp [readWord, majorOf, readSys]

theorem ssr (a : RegF) (n : BitVec 8) : Statement (.ssr a n) := by
  intro hw w h; cases h
  simp [readWord, majorOf, readSys]

theorem trap (n : BitVec 8) : Statement (.trap n) := by
  intro hw w h; cases h
  simp [readWord, majorOf]

theorem limm (p : BitVec 22) : Statement (.limm p) := by
  intro hw w h; cases h
  simp [readWord, majorOf, readHint]

theorem guard (q : PredF) (n : Bool) (c : BitVec 3) : Statement (.guard q n c) := by
  intro hw w h; cases h
  simp [readWord, majorOf, readHint]

theorem sched (y : Bool) (s : BitVec 4) : Statement (.sched y s) := by
  intro hw w h; cases h
  simp [readWord, majorOf, readHint]

theorem rnd (k : BitVec 2) (r : Bool) (m : BitVec 2) : Statement (.rnd k r m) := by
  intro hw w h; cases h
  simp [readWord, majorOf, readHint]

theorem sat  : Statement (.sat) := by
  intro hw w h; cases h
  simp [readWord, majorOf, readHint]

theorem nop (p : BitVec 22) : Statement (.nop p) := by
  intro hw w h; cases h
  simp [readWord, majorOf, readHint]

theorem hintIgnored (k : BitVec 3) (p : BitVec 22) : Statement (.hintIgnored k p) := by
  intro hw w h; cases h
  obtain rfl | rfl | rfl | rfl | rfl | rfl | rfl | rfl := cases3 k <;> simp [readWord, majorOf, readHint]

theorem emulationVector (cause : BitVec 8) (word : Word) (ulen : BitVec 3) :
    Statement (.emulationVector cause word ulen) := by
  intro _ w h; cases h

theorem icacheFill (k : Nat) (e : MemErr) : Statement (.icacheFill k e) := by
  intro _ w h; cases h

theorem loadReply (k : Nat) : Statement (.loadReply k) := by
  intro _ w h; cases h

theorem atomicReply (k : Nat) : Statement (.atomicReply k) := by
  intro _ w h; cases h

theorem divisionComplete (k : Nat) : Statement (.divisionComplete k) := by
  intro _ w h; cases h

theorem sfuComplete (k : Nat) : Statement (.sfuComplete k) := by
  intro _ w h; cases h

theorem ftimeReadComplete (k : Nat) : Statement (.ftimeReadComplete k) := by
  intro _ w h; cases h

theorem writePerform (w : Arrival) (e : MemErr) : Statement (.writePerform w e) := by
  intro _ w h; cases h

theorem writeAcknowledge (k : Nat) : Statement (.writeAcknowledge k) := by
  intro _ w h; cases h

theorem atomicPerform (k : Nat) (e : MemErr) : Statement (.atomicPerform k e) := by
  intro _ w h; cases h

theorem homeRead (k : Nat) (e : MemErr) : Statement (.homeRead k e) := by
  intro _ w h; cases h

theorem leaseExpiry (line : Nat) : Statement (.leaseExpiry line) := by
  intro _ w h; cases h

theorem directoryEvict (line : Nat) (e : MemErr) : Statement (.directoryEvict line e) := by
  intro _ w h; cases h

end Sys2Proof.Laws.Reads

theorem Sys2Proof.Laws.Reads.recall (line : Nat) (forWrite : Bool) :
    Sys2Proof.Laws.Reads.Statement (.recall line forWrite) := by
  intro _ w h; cases h

namespace Sys2Proof.Laws.Reads

open Sys2Proof

theorem dirtyNotice (k : Nat) : Statement (.dirtyNotice k) := by
  intro _ w h; cases h

theorem ldspCheck (k : Nat) : Statement (.ldspCheck k) := by
  intro _ w h; cases h

theorem checkReply (k : Nat) : Statement (.checkReply k) := by
  intro _ w h; cases h

theorem watchAgeStrike (team crew : Nat) : Statement (.watchAgeStrike team crew) := by
  intro _ w h; cases h

theorem stashFill (k : Nat) (e : MemErr) : Statement (.stashFill k e) := by
  intro _ w h; cases h

theorem hostSnoop (line half : Nat) (inv : Bool) : Statement (.hostSnoop line half inv) := by
  intro _ w h; cases h

theorem bisnpResponse (line half : Nat) (dirty : Option (List Byte)) :
    Statement (.bisnpResponse line half dirty) := by
  intro _ w h; cases h

theorem biconflict (line half : Nat) (excl : Bool) : Statement (.biconflict line half excl) := by
  intro _ w h; cases h

theorem hostHalfRequest (line half : Nat) (excl : Bool) : Statement (.hostHalfRequest line half excl) := by
  intro _ w h; cases h

theorem qTail (ctx q : Nat) (v : Word) : Statement (.qTail ctx q v) := by
  intro _ w h; cases h

theorem qCtl (ctx q : Nat) (v : Word) : Statement (.qCtl ctx q v) := by
  intro _ w h; cases h

theorem registerWrite (m : Master) (r : DevReg) (v : DWord) : Statement (.registerWrite m r v) := by
  intro _ w h; cases h

theorem commandFetch (die : Nat) : Statement (.commandFetch die) := by
  intro _ w h; cases h

theorem commandNop (k : Nat) : Statement (.commandNop k) := by
  intro _ w h; cases h

theorem commandWait (k : Nat) : Statement (.commandWait k) := by
  intro _ w h; cases h

theorem commandLaunch (k : Nat) : Statement (.commandLaunch k) := by
  intro _ w h; cases h

theorem placeTeams  : Statement (.placeTeams) := by
  intro _ w h; cases h

theorem launchPacket (team : Nat) : Statement (.launchPacket team) := by
  intro _ w h; cases h

theorem teamStart (team : Nat) : Statement (.teamStart team) := by
  intro _ w h; cases h

theorem spanBlock (k : Nat) : Statement (.spanBlock k) := by
  intro _ w h; cases h

theorem spanReply (k : Nat) : Statement (.spanReply k) := by
  intro _ w h; cases h

theorem spanStart (k : Nat) : Statement (.spanStart k) := by
  intro _ w h; cases h

theorem spanTstart (launch : Nat) : Statement (.spanTstart launch) := by
  intro _ w h; cases h

theorem abort (k : Nat) : Statement (.abort k) := by
  intro _ w h; cases h

theorem spanTimeout (launch : Nat) : Statement (.spanTimeout launch) := by
  intro _ w h; cases h

theorem teamDrain (team : Nat) : Statement (.teamDrain team) := by
  intro _ w h; cases h

theorem teamRetire (team : Nat) : Statement (.teamRetire team) := by
  intro _ w h; cases h

theorem regroup (core : Nat) : Statement (.regroup core) := by
  intro _ w h; cases h

theorem evictTeam (team : Nat) : Statement (.evictTeam team) := by
  intro _ w h; cases h

theorem restoreTeam (team core : Nat) : Statement (.restoreTeam team core) := by
  intro _ w h; cases h

theorem onyxDue (core : Nat) : Statement (.onyxDue core) := by
  intro _ w h; cases h

theorem onyxSlice (core : Nat) : Statement (.onyxSlice core) := by
  intro _ w h; cases h

theorem onyxSliceEnd (core : Nat) (fail : Bool) : Statement (.onyxSliceEnd core fail) := by
  intro _ w h; cases h

theorem onyxLapse (core : Nat) : Statement (.onyxLapse core) := by
  intro _ w h; cases h

theorem motionRound (errs : List (Nat × MemErr)) : Statement (.motionRound errs) := by
  intro _ w h; cases h

theorem motionLineCopied (i : Nat) (e : MemErr) : Statement (.motionLineCopied i e) := by
  intro _ w h; cases h

theorem motionSwitch  : Statement (.motionSwitch) := by
  intro _ w h; cases h

theorem copyChunk (k : Nat) (errs : List (Nat × MemErr)) : Statement (.copyChunk k errs) := by
  intro _ w h; cases h

theorem copyCount (k : Nat) : Statement (.copyCount k) := by
  intro _ w h; cases h

theorem chainChunk (k : Nat) (errs : List (Nat × MemErr)) : Statement (.chainChunk k errs) := by
  intro _ w h; cases h

theorem mmaComplete (core : Nat) (runs : List TileRun) : Statement (.mmaComplete core runs) := by
  intro _ w h; cases h

theorem dcorComplete (core : Nat) : Statement (.dcorComplete core) := by
  intro _ w h; cases h

theorem wbldComplete (k : Nat) (errs : List (Nat × MemErr)) : Statement (.wbldComplete k errs) := by
  intro _ w h; cases h

theorem collChunk (k chunk : Nat) (order : RedTree) (errs : List (Nat × MemErr)) : Statement (.collChunk k chunk order errs) := by
  intro _ w h; cases h

theorem collAck (k chunk : Nat) : Statement (.collAck k chunk) := by
  intro _ w h; cases h

theorem collReform (k : Nat) : Statement (.collReform k) := by
  intro _ w h; cases h

theorem linklost (k : Nat) : Statement (.linklost k) := by
  intro _ w h; cases h

theorem rollback (team : Nat) : Statement (.rollback team) := by
  intro _ w h; cases h

theorem mcStatus (m : Master) (bank : Nat) (v : DWord) : Statement (.mcStatus m bank v) := by
  intro _ w h; cases h

theorem linkFlit (crcOk : Bool) (msg : LinkMsg) (e : MemErr) : Statement (.linkFlit crcOk msg e) := by
  intro _ w h; cases h

theorem failedAcknowledgement (k : Nat) : Statement (.failedAcknowledgement k) := by
  intro _ w h; cases h

theorem stop (k : Nat) : Statement (.stop k) := by
  intro _ w h; cases h

theorem stopped (k : Nat) : Statement (.stopped k) := by
  intro _ w h; cases h

theorem stopTimeout (launch : Nat) : Statement (.stopTimeout launch) := by
  intro _ w h; cases h

theorem d2dFail  : Statement (.d2dFail) := by
  intro _ w h; cases h

theorem ftimeSync (dev : Nat) : Statement (.ftimeSync dev) := by
  intro _ w h; cases h

theorem create  : Statement (.create) := by
  intro _ w h; cases h

theorem updateOt  : Statement (.updateOt) := by
  intro _ w h; cases h

theorem updateScope  : Statement (.updateScope) := by
  intro _ w h; cases h

theorem moveFrame  : Statement (.moveFrame) := by
  intro _ w h; cases h

theorem kill  : Statement (.kill) := by
  intro _ w h; cases h

theorem reset  : Statement (.reset) := by
  intro _ w h; cases h

theorem fwStage  : Statement (.fwStage) := by
  intro _ w h; cases h

theorem fwActivate  : Statement (.fwActivate) := by
  intro _ w h; cases h

theorem logRead  : Statement (.logRead) := by
  intro _ w h; cases h

theorem sensorSample (hot : List Nat) : Statement (.sensorSample hot) := by
  intro _ w h; cases h

theorem clockChange (die mhz : Nat) : Statement (.clockChange die mhz) := by
  intro _ w h; cases h

theorem deviceReset (dev : Nat) : Statement (.deviceReset dev) := by
  intro _ w h; cases h

theorem spdmRequest (req : List Byte) : Statement (.spdmRequest req) := by
  intro _ w h; cases h

theorem hostLinkTrain (gts width : Nat) : Statement (.hostLinkTrain gts width) := by
  intro _ w h; cases h

theorem hostLinkDown  : Statement (.hostLinkDown) := by
  intro _ w h; cases h

theorem linkFailure (port : Nat) (dev : Nat) : Statement (.linkFailure port dev) := by
  intro _ w h; cases h

end Sys2Proof.Laws.Reads
end

