-- ==== Sys2Proof/Laws/Shape.lean ====
section
/-! SUPPORT. The words of `shapeOf`: each is one `operate` over the fields its shape names, and its effect on a fibre
stays within its destinations, predicates and flags. -/

namespace Sys2Proof.Machine

open Sys2Proof

/-! ## Flags a result may raise -/

/-- Flags within a set. -/
abbrev within8 (x fl : BitVec 8) : Prop := x &&& ~~~fl = 0

theorem within8_zero (fl : BitVec 8) : within8 0 fl := by simp [within8]

theorem within8_settle (b : Bool) (w : Nat) (lo hi x : Int) : within8 (settle b w lo hi x).2 flSAT := by
  unfold settle
  split <;> simp only <;> decide

theorem within8_mono {x a b : BitVec 8} (h : within8 x a) (e : a &&& ~~~b = 0) : within8 x b := by
  unfold within8 at *
  apply BitVec.eq_of_getLsbD_eq
  intro i hi
  have h1 := congrArg (fun y : BitVec 8 => y.getLsbD i) h
  have h2 := congrArg (fun y : BitVec 8 => y.getLsbD i) e
  simp only [BitVec.getLsbD_and, BitVec.getLsbD_not, hi, decide_true, Bool.true_and] at h1 h2 ⊢
  revert h1 h2
  cases x.getLsbD i <;> cases a.getLsbD i <;> cases b.getLsbD i <;> simp

/-- A format that is not FP8. -/
abbrev Fmt.plain (f : Fmt) : Prop := f.isFp8 = false ∧ f.e4 = false

theorem fmtOf_plain (t : BitVec 2) : (fmtOf t).plain := by revert t; decide

theorem Fmt.overflow_flags {f : Fmt} (a : Attr) (s : Bool) :
    within8 (f.overflow a s).flags (flRound ||| flSAT) ∧ (f.plain → within8 (f.overflow a s).flags flRound) := by
  unfold Fmt.overflow
  constructor
  · split
    · split <;> (dsimp only; decide)
    · dsimp only; decide
  · intro h
    rw [if_neg (by simp [h.1])]
    dsimp only; decide

theorem within8_ite {b : Bool} {x y fl : BitVec 8} (hx : within8 x fl) (hy : within8 y fl) :
    within8 (if b then x else y) fl := by cases b <;> assumption

theorem flags_of_three {P Q R : Prop} [Decidable P] [Decidable Q] [Decidable R] {x y z w : FRes} {fl : BitVec 8}
    (hy : within8 y.flags fl) (hz : within8 z.flags fl) (hw : within8 w.flags fl) :
    (if P then x else if Q then if R then y else z else w) = x
      ∨ within8 (if P then x else if Q then if R then y else z else w).flags fl := by
  split_ifs
  · exact .inl rfl
  · exact .inr hy
  · exact .inr hz
  · exact .inr hw

theorem Fmt.roundMag_cases (f : Fmt) (a : Attr) (s : Bool) (n d : Nat) :
    f.roundMag a s n d = f.overflow a s ∨ within8 (f.roundMag a s n d).flags (flUF ||| flNX) := by
  unfold Fmt.roundMag
  exact flags_of_three (by dsimp only; decide) (within8_ite (by decide) (by decide)) (within8_ite (by decide) (by decide))

theorem Fmt.roundMag_flags {f : Fmt} (a : Attr) (s : Bool) (n d : Nat) :
    within8 (f.roundMag a s n d).flags (flRound ||| flSAT) ∧ (f.plain → within8 (f.roundMag a s n d).flags flRound) := by
  rcases Fmt.roundMag_cases f a s n d with h | h
  · rw [h]; exact Fmt.overflow_flags a s
  · exact ⟨within8_mono h (by decide), fun _ => within8_mono h (by decide)⟩

theorem Fmt.roundFrac_flags {f : Fmt} (a : Attr) (s : Bool) (x : Frac) :
    within8 (f.roundFrac a s x).flags (flRound ||| flSAT) ∧ (f.plain → within8 (f.roundFrac a s x).flags flRound) := by
  unfold Fmt.roundFrac
  split
  · exact ⟨by dsimp only; decide, fun _ => by dsimp only; decide⟩
  · exact Fmt.roundMag_flags ..

theorem Fmt.writeInf_flags {f : Fmt} (a : Attr) (s : Bool) :
    within8 (f.writeInf a s).flags (flRound ||| flSAT) ∧ (f.plain → within8 (f.writeInf a s).flags flRound) := by
  unfold Fmt.writeInf
  constructor
  · split
    · split <;> (dsimp only; decide)
    · (dsimp only; decide)
  · intro h; rw [if_neg (by simp [h.2])]; (dsimp only; decide)

theorem Fmt.writeNan_flags {f : Fmt} (b : Bool) : within8 (f.writeNan b).flags flNV := by
  unfold Fmt.writeNan; cases b <;> (dsimp only; decide)

theorem Fmt.writeNan_flags' {f : Fmt} (b : Bool) : within8 (f.writeNan b).flags flRound :=
  within8_mono (Fmt.writeNan_flags b) (by decide)

theorem Fmt.add_flags {f : Fmt} (h : f.plain) (a : Attr) (x y : FVal) : within8 (f.add a x y).flags flRound := by
  unfold Fmt.add
  split
  · exact Fmt.writeNan_flags' _
  · split
    · split
      · exact (Fmt.writeInf_flags a _).2 h
      · exact Fmt.writeNan_flags' _
    · exact (Fmt.writeInf_flags a _).2 h
    · exact (Fmt.writeInf_flags a _).2 h
    · exact (Fmt.roundFrac_flags a _ _).2 h

theorem Fmt.mul_flags {f : Fmt} (h : f.plain) (a : Attr) (x y : FVal) : within8 (f.mul a x y).flags flRound := by
  unfold Fmt.mul
  dsimp only
  split
  · exact Fmt.writeNan_flags' _
  · split
    · split
      · exact Fmt.writeNan_flags' _
      · exact (Fmt.writeInf_flags a _).2 h
    · split
      · exact Fmt.writeNan_flags' _
      · exact (Fmt.writeInf_flags a _).2 h
    · exact (Fmt.roundFrac_flags a _ _).2 h

theorem Fmt.fma_flags {f : Fmt} (h : f.plain) (a : Attr) (x y z : FVal) : within8 (f.fma a x y z).flags flRound := by
  unfold Fmt.fma
  dsimp only
  repeat' split
  all_goals first
    | exact Fmt.writeNan_flags' _
    | exact (Fmt.writeInf_flags a _).2 h
    | exact (Fmt.roundFrac_flags a _ _).2 h

theorem Fmt.pick_flags {f : Fmt} (m : Bool) (x y : FVal) : within8 (f.pick m x y).flags flNV := by
  unfold Fmt.pick
  split
  · exact Fmt.writeNan_flags _
  · split
    · exact Fmt.writeNan_flags _
    · split
      · (dsimp only; decide)
      · split
        · (dsimp only; decide)
        · split <;> (dsimp only; decide)

theorem Fmt.convert_flags {f : Fmt} (a : Attr) (x : FVal) : within8 (f.convert a x).flags (flRound ||| flSAT) := by
  unfold Fmt.convert
  split
  · exact within8_mono (Fmt.writeNan_flags _) (by decide)
  · exact (Fmt.writeInf_flags a _).1
  · exact (Fmt.roundFrac_flags a _ _).1

theorem floatToInt_flags (rm : RMode) (lo hi : Int) (x : FVal) : within8 (floatToInt rm lo hi x).2 (flRound ||| flSAT) := by
  unfold floatToInt
  split
  · (dsimp only; decide)
  · (dsimp only; decide)
  · dsimp only
    split
    · (dsimp only; decide)
    · split
      · (dsimp only; decide)
      · dsimp only
        split <;> decide

theorem Lane.convert_flags (L : Lane) (e c : BitVec 4) (v : Val) : within8 (L.convert e c v).flags (flRound ||| flSAT) := by
  unfold Lane.convert
  dsimp only
  split
  · exact floatToInt_flags ..
  · exact Fmt.convert_flags ..

/-! ## The frame of a fibre -/

/-- What a word on registers may change in a fibre, before the fibre goes on. -/
def Lane.within (L M : Lane) (E : Env) (l : Nat) (sh : Shape) : Prop :=
  L.sameBut M (sh.dsts.flatMap fun d => E.regsOf l L d.f d.n) sh.preds sh.flags ∧ M.pc = L.pc ∧ M.guard = L.guard

theorem Lane.sameBut_refl (L : Lane) (rs : List Nat) (ps : List PredF) (fl : BitVec 8) : L.sameBut L rs ps fl :=
  ⟨fun _ _ => ⟨rfl, rfl⟩, fun _ _ => ⟨rfl, rfl⟩, rfl, rfl⟩

theorem Lane.sameBut_advance {L M : Lane} {rs : List Nat} {ps : List PredF} {fl : BitVec 8} (h : L.sameBut M rs ps fl) :
    L.sameBut M.advance rs ps fl := ⟨h.1, h.2.1, h.2.2.1, h.2.2.2⟩

theorem or_within {f x fl : BitVec 8} (h : within8 x fl) : (f ||| x) &&& ~~~fl = f &&& ~~~fl := by
  unfold within8 at h
  apply BitVec.eq_of_getLsbD_eq
  intro i hi
  have h1 := congrArg (fun y : BitVec 8 => y.getLsbD i) h
  simp only [BitVec.getLsbD_and, BitVec.getLsbD_not, BitVec.getLsbD_or, hi, decide_true, Bool.true_and] at h1 ⊢
  revert h1
  cases x.getLsbD i <;> cases fl.getLsbD i <;> simp

theorem Lane.sameBut_put (L : Lane) (E : Env) (l : Nat) (d : Dst) (v : Val) {x fl : BitVec 8} (h : within8 x fl) :
    L.sameBut ((E.put l L d v).raise x) (E.regsOf l L d.f d.n) [] fl := by
  have hr := Env.put_rest E l L d v
  have hs : (E.put l L d v).fstat = L.fstat := by have h := congrArg Lane.fstat hr; exact h
  have hp : (E.put l L d v).preds = L.preds := by have h := congrArg Lane.preds hr; exact h
  have ht : (E.put l L d v).ptags = L.ptags := by have h := congrArg Lane.ptags hr; exact h
  refine ⟨fun n hn => ⟨Env.put_reg E l L d v hn, Env.put_spoilt E l L d v hn⟩, fun q _ => ?_, ?_, ?_⟩
  · simp only [Lane.q, Lane.qt, Lane.raise, hp, ht]; exact ⟨trivial, trivial⟩
  · simp only [Lane.raise, hs]; exact or_within h
  · have := congrArg (fun M : Lane => { M with pc := L.pc, guard := L.guard, hints := L.hints, did := L.did, due := L.due, preds := L.preds, ptags := L.ptags, fstat := L.fstat }) hr
    exact this

theorem setBit16_get (w : BitVec 16) (n : Nat) (b : Bool) (k : Nat) (hn : n < 16) :
    (setBit16 w n b).getLsbD k = if k = n then b else w.getLsbD k := by
  unfold setBit16
  by_cases hk : k < 16
  · by_cases e : k = n
    · subst e
      cases b <;> simp [hk]
    · cases b
      · simp only [if_neg e, Bool.false_eq_true, if_false]
        simp [hk]
        omega
      · simp only [if_neg e, if_true]
        simp [hk]
        omega
  · have h1 : k ≠ n := by omega
    simp [h1, BitVec.getLsbD_of_ge _ _ (by omega : 16 ≤ k)]

theorem Lane.setQ_q (L : Lane) (n : PredF) (v t : Bool) (q : PredF) (hq : q ≠ n) :
    (L.setQ n v t).q q = L.q q ∧ (L.setQ n v t).qt q = L.qt q := by
  unfold Lane.setQ
  split
  · exact ⟨rfl, rfl⟩
  · have hne : q.toNat ≠ n.toNat := fun e => hq (BitVec.eq_of_toNat_eq e)
    simp only [Lane.q, Lane.qt]
    split
    · exact ⟨rfl, rfl⟩
    · rw [setBit16_get _ _ _ _ n.isLt, setBit16_get _ _ _ _ n.isLt, if_neg hne, if_neg hne]
      exact ⟨rfl, rfl⟩

theorem Lane.setQ_rest (L : Lane) (n : PredF) (v t : Bool) :
    { L.setQ n v t with preds := L.preds, ptags := L.ptags } = L := by
  unfold Lane.setQ; split <;> rfl

theorem Lane.sameBut_setQ (L : Lane) (n : PredF) (v t : Bool) {x fl : BitVec 8} (h : within8 x fl) :
    L.sameBut ((L.setQ n v t).raise x) [] [n] fl := by
  have hr := Lane.setQ_rest L n v t
  have hs : (L.setQ n v t).fstat = L.fstat := by have h := congrArg Lane.fstat hr; exact h
  have hg : (L.setQ n v t).regs = L.regs := by have h := congrArg Lane.regs hr; exact h
  have hm : (L.setQ n v t).spoilt = L.spoilt := by have h := congrArg Lane.spoilt hr; exact h
  refine ⟨fun k _ => ?_, fun q hq => ?_, ?_, ?_⟩
  · simp only [Lane.reg, Lane.raise, hg, hm]; exact ⟨trivial, trivial⟩
  · exact Lane.setQ_q L n v t q (by simpa using hq)
  · simp only [Lane.raise, hs]; exact or_within h
  · have := congrArg (fun M : Lane => { M with pc := L.pc, guard := L.guard, hints := L.hints, did := L.did, due := L.due, regs := L.regs, spoilt := L.spoilt, fstat := L.fstat }) hr
    exact this

/-! ## Words of a shape -/

/-- A word that is one `operate` over the fields of its shape and stays within it. -/
def Operates (i : Instr) (sh : Shape) : Prop :=
  ∃ f : State → Env → Nat → Lane → List Val → Lane,
    (∀ s, exec i s = s.operate { srcs := sh.srcs, dsts := sh.dsts } (f s)) ∧ ∀ s E l (L : Lane) vs, L.within (f s E l L vs) E l sh

theorem compute_operates {i : Instr} {srcs : List Src} {d : Dst} {fl : BitVec 8} (f : State → Lane → List Val → Val × BitVec 8)
    (h : ∀ s, exec i s = s.compute { srcs := srcs } d (f s)) (hf : ∀ s L vs, within8 (f s L vs).2 fl) :
    Operates i { srcs := srcs, dsts := [d], flags := fl } := by
  refine ⟨fun s E l L vs => (E.put l L d { (f s L vs).1 with tag := (f s L vs).1.tag || L.gt }).raise (f s L vs).2, h, ?_⟩
  intro s E l L vs
  have := Lane.sameBut_put L E l d { (f s L vs).1 with tag := (f s L vs).1.tag || L.gt } (hf s L vs)
  have hr := Env.put_rest E l L d { (f s L vs).1 with tag := (f s L vs).1.tag || L.gt }
  have h1 := congrArg Lane.pc hr
  have h2 := congrArg Lane.guard hr
  refine ⟨?_, h1, h2⟩
  simpa using this

theorem computeQ_operates {i : Instr} {srcs : List Src} {n : PredF} {fl : BitVec 8}
    (f : State → Lane → List Val → (Bool × Bool) × BitVec 8)
    (h : ∀ s, exec i s = s.computeQ { srcs := srcs } n (f s)) (hf : ∀ s L vs, within8 (f s L vs).2 fl) :
    Operates i { srcs := srcs, preds := [n], flags := fl } := by
  refine ⟨fun s _ _ L vs => (L.setQ n (f s L vs).1.1 ((f s L vs).1.2 || L.gt)).raise (f s L vs).2, h, ?_⟩
  intro s E l L vs
  have := Lane.sameBut_setQ L n (f s L vs).1.1 ((f s L vs).1.2 || L.gt) (hf s L vs)
  have hr := Lane.setQ_rest L n (f s L vs).1.1 ((f s L vs).1.2 || L.gt)
  have h1 := congrArg Lane.pc hr
  have h2 := congrArg Lane.guard hr
  refine ⟨?_, h1, h2⟩
  simpa using this

/-! ## Per instruction -/

theorem Lane.sameBut_setQ2 (L : Lane) (n m : PredF) (v t w u : Bool) : L.sameBut ((L.setQ n v t).setQ m w u) [] [n, m] 0 := by
  have h1 := Lane.sameBut_setQ L n v t (within8_zero 0)
  have h2 := Lane.sameBut_setQ (L.setQ n v t) m w u (within8_zero 0)
  simp only [BitVec.ofNat_eq_ofNat, Lane.raise_zero] at h1 h2
  refine ⟨fun k hk => ⟨(h2.1 k hk).1.trans (h1.1 k hk).1, (h2.1 k hk).2.trans (h1.1 k hk).2⟩, fun q hq => ?_, ?_, ?_⟩
  · simp only [List.mem_cons, List.not_mem_nil, or_false, not_or] at hq
    have e1 := h1.2.1 q (by simpa using hq.1)
    have e2 := h2.2.1 q (by simpa using hq.2)
    exact ⟨e2.1.trans e1.1, e2.2.trans e1.2⟩
  · exact h2.2.2.1.trans h1.2.2.1
  · have e1 := Lane.setQ_rest L n v t
    have e2 := Lane.setQ_rest (L.setQ n v t) m w u
    have hs : ((L.setQ n v t).setQ m w u).fstat = L.fstat := by
      have h := congrArg Lane.fstat e2; have h' := congrArg Lane.fstat e1; exact h.trans h'
    have f1 := congrArg (fun M : Lane => { M with preds := L.preds, ptags := L.ptags, pc := L.pc, guard := L.guard, hints := L.hints, did := L.did, due := L.due, regs := L.regs, spoilt := L.spoilt, fstat := L.fstat }) e2
    have f2 := congrArg (fun M : Lane => { M with preds := L.preds, ptags := L.ptags, pc := L.pc, guard := L.guard, hints := L.hints, did := L.did, due := L.due, regs := L.regs, spoilt := L.spoilt, fstat := L.fstat }) e1
    exact f1.trans f2

theorem Lane.sameBut_remarks (g : Reg → Reg) (rs : List Nat) (L : Lane) :
    L.sameBut (rs.foldl (fun L n => L.remark n g) L) rs [] 0
      ∧ (rs.foldl (fun L n => L.remark n g) L).pc = L.pc
      ∧ (rs.foldl (fun L n => L.remark n g) L).guard = L.guard := by
  have h : ∀ (xs : List Nat) (M : Lane),
      { xs.foldl (fun L n => L.remark n g) M with regs := M.regs, spoilt := M.spoilt } = M
      ∧ ∀ n, n ∉ xs → (xs.foldl (fun L n => L.remark n g) M).reg n = M.reg n
        ∧ (xs.foldl (fun L n => L.remark n g) M).spoilt.contains n = M.spoilt.contains n := by
    intro xs
    induction xs with
    | nil => intro M; exact ⟨rfl, fun _ _ => ⟨rfl, rfl⟩⟩
    | cons x r ih =>
      intro M
      obtain ⟨e1, e2⟩ := ih (M.remark x g)
      refine ⟨?_, fun n hn => ?_⟩
      · have := congrArg (fun N : Lane => { N with regs := M.regs, spoilt := M.spoilt }) e1
        exact this
      · simp only [List.mem_cons, not_or] at hn
        simp only [List.foldl_cons]
        rw [(e2 n hn.2).1, (e2 n hn.2).2, Lane.reg_remark, if_neg hn.1]
        exact ⟨rfl, rfl⟩
  obtain ⟨e1, e2⟩ := h rs L
  have hp := congrArg Lane.preds e1
  have ht := congrArg Lane.ptags e1
  have hs := congrArg Lane.fstat e1
  simp only at hp ht hs
  refine ⟨⟨e2, fun q _ => ?_, ?_, ?_⟩, by have h := congrArg Lane.pc e1; exact h, by have h := congrArg Lane.guard e1; exact h⟩
  · simp only [Lane.q, Lane.qt, hp, ht]; exact ⟨trivial, trivial⟩
  · rw [hs]
  · have := congrArg (fun M : Lane => { M with preds := L.preds, ptags := L.ptags, pc := L.pc, guard := L.guard, hints := L.hints, did := L.did, due := L.due, regs := L.regs, spoilt := L.spoilt, fstat := L.fstat }) e1
    exact this


theorem operates_add (d a b : RegF) (p q : Bool) {sh : Shape} (h : shapeOf (.add d a b p q) = some sh) : Operates (.add d a b p q) sh := by
  cases h
  exact compute_operates _ (fun s => by rw [exec_add]; delta execAdd State.int2; rfl) fun _ _ _ => by exact within8_settle ..

theorem operates_sub (d a b : RegF) (p q : Bool) {sh : Shape} (h : shapeOf (.sub d a b p q) = some sh) : Operates (.sub d a b p q) sh := by
  cases h
  exact compute_operates _ (fun s => by rw [exec_sub]; delta execSub State.int2; rfl) fun _ _ _ => by exact within8_settle ..

theorem operates_mul (d a b : RegF) (p q : Bool) {sh : Shape} (h : shapeOf (.mul d a b p q) = some sh) : Operates (.mul d a b p q) sh := by
  cases h
  exact compute_operates _ (fun s => by rw [exec_mul]; delta execMul State.int2; rfl) fun _ _ _ => by exact within8_settle ..

theorem operates_mad (d a b : RegF) (p q : Bool) {sh : Shape} (h : shapeOf (.mad d a b p q) = some sh) : Operates (.mad d a b p q) sh := by
  cases h
  exact compute_operates _ (fun s => by rw [exec_mad]; delta execMad State.int3; rfl) fun _ _ _ => by exact within8_settle ..

theorem operates_abs (d a : RegF) (p : Bool) {sh : Shape} (h : shapeOf (.abs d a p) = some sh) : Operates (.abs d a p) sh := by
  cases h
  exact compute_operates _ (fun s => by rw [exec_abs]; delta execAbs State.int1; rfl) fun _ _ _ => by exact within8_settle ..

theorem operates_addw (d a b : RegF) (p q : Bool) {sh : Shape} (h : shapeOf (.addw d a b p q) = some sh) : Operates (.addw d a b p q) sh := by
  cases h
  exact compute_operates _ (fun s => by rw [exec_addw]; delta execAddw State.pair2; rfl) fun _ _ _ => by exact within8_settle ..

theorem operates_subw (d a b : RegF) (p q : Bool) {sh : Shape} (h : shapeOf (.subw d a b p q) = some sh) : Operates (.subw d a b p q) sh := by
  cases h
  exact compute_operates _ (fun s => by rw [exec_subw]; delta execSubw State.pair2; rfl) fun _ _ _ => by exact within8_settle ..

theorem operates_addi (d a : RegF) (i : BitVec 13) (p : Bool) {sh : Shape} (h : shapeOf (.addi d a i p) = some sh) : Operates (.addi d a i p) sh := by
  cases h
  exact compute_operates _ (fun s => by rw [exec_addi]; delta execAddi State.int1; rfl) fun _ _ _ => by exact within8_settle ..

theorem operates_mulh (d a b : RegF) (p q : Bool) {sh : Shape} (h : shapeOf (.mulh d a b p q) = some sh) : Operates (.mulh d a b p q) sh := by
  cases h
  exact compute_operates _ (fun s => by rw [exec_mulh]; delta execMulh State.int2; rfl) fun _ _ _ => within8_zero _

theorem operates_mulhz (d a b : RegF) (p q : Bool) {sh : Shape} (h : shapeOf (.mulhz d a b p q) = some sh) : Operates (.mulhz d a b p q) sh := by
  cases h
  exact compute_operates _ (fun s => by rw [exec_mulhz]; delta execMulhz State.int2; rfl) fun _ _ _ => within8_zero _

theorem operates_and (d a b : RegF) (p q : Bool) {sh : Shape} (h : shapeOf (.and d a b p q) = some sh) : Operates (.and d a b p q) sh := by
  cases h
  exact compute_operates _ (fun s => by rw [exec_and]; delta execAnd State.int2; rfl) fun _ _ _ => within8_zero _

theorem operates_or (d a b : RegF) (p q : Bool) {sh : Shape} (h : shapeOf (.or d a b p q) = some sh) : Operates (.or d a b p q) sh := by
  cases h
  exact compute_operates _ (fun s => by rw [exec_or]; delta execOr State.int2; rfl) fun _ _ _ => within8_zero _

theorem operates_xor (d a b : RegF) (p q : Bool) {sh : Shape} (h : shapeOf (.xor d a b p q) = some sh) : Operates (.xor d a b p q) sh := by
  cases h
  exact compute_operates _ (fun s => by rw [exec_xor]; delta execXor State.int2; rfl) fun _ _ _ => within8_zero _

theorem operates_andn (d a b : RegF) (p q : Bool) {sh : Shape} (h : shapeOf (.andn d a b p q) = some sh) : Operates (.andn d a b p q) sh := by
  cases h
  exact compute_operates _ (fun s => by rw [exec_andn]; delta execAndn State.int2; rfl) fun _ _ _ => within8_zero _

theorem operates_shl (d a b : RegF) (p q : Bool) {sh : Shape} (h : shapeOf (.shl d a b p q) = some sh) : Operates (.shl d a b p q) sh := by
  cases h
  exact compute_operates _ (fun s => by rw [exec_shl]; delta execShl State.int2; rfl) fun _ _ _ => within8_zero _

theorem operates_shr (d a b : RegF) (p q : Bool) {sh : Shape} (h : shapeOf (.shr d a b p q) = some sh) : Operates (.shr d a b p q) sh := by
  cases h
  exact compute_operates _ (fun s => by rw [exec_shr]; delta execShr State.int2; rfl) fun _ _ _ => within8_zero _

theorem operates_shra (d a b : RegF) (p q : Bool) {sh : Shape} (h : shapeOf (.shra d a b p q) = some sh) : Operates (.shra d a b p q) sh := by
  cases h
  exact compute_operates _ (fun s => by rw [exec_shra]; delta execShra State.int2; rfl) fun _ _ _ => within8_zero _

theorem operates_rot (d a b : RegF) (p q : Bool) {sh : Shape} (h : shapeOf (.rot d a b p q) = some sh) : Operates (.rot d a b p q) sh := by
  cases h
  exact compute_operates _ (fun s => by rw [exec_rot]; delta execRot State.int2; rfl) fun _ _ _ => within8_zero _

theorem operates_min (d a b : RegF) (p q : Bool) {sh : Shape} (h : shapeOf (.min d a b p q) = some sh) : Operates (.min d a b p q) sh := by
  cases h
  exact compute_operates _ (fun s => by rw [exec_min]; delta execMin State.int2; rfl) fun _ _ _ => within8_zero _

theorem operates_max (d a b : RegF) (p q : Bool) {sh : Shape} (h : shapeOf (.max d a b p q) = some sh) : Operates (.max d a b p q) sh := by
  cases h
  exact compute_operates _ (fun s => by rw [exec_max]; delta execMax State.int2; rfl) fun _ _ _ => within8_zero _

theorem operates_minz (d a b : RegF) (p q : Bool) {sh : Shape} (h : shapeOf (.minz d a b p q) = some sh) : Operates (.minz d a b p q) sh := by
  cases h
  exact compute_operates _ (fun s => by rw [exec_minz]; delta execMinz State.int2; rfl) fun _ _ _ => within8_zero _

theorem operates_maxz (d a b : RegF) (p q : Bool) {sh : Shape} (h : shapeOf (.maxz d a b p q) = some sh) : Operates (.maxz d a b p q) sh := by
  cases h
  exact compute_operates _ (fun s => by rw [exec_maxz]; delta execMaxz State.int2; rfl) fun _ _ _ => within8_zero _

theorem operates_bfx (d a b : RegF) (p q : Bool) {sh : Shape} (h : shapeOf (.bfx d a b p q) = some sh) : Operates (.bfx d a b p q) sh := by
  cases h
  exact compute_operates _ (fun s => by rw [exec_bfx]; delta execBfx State.int2; rfl) fun _ _ _ => within8_zero _

theorem operates_sel (n : PredF) (d a b : RegF) (p q : Bool) {sh : Shape} (h : shapeOf (.sel n d a b p q) = some sh) : Operates (.sel n d a b p q) sh := by
  cases h
  exact compute_operates _ (fun s => by rw [exec_sel]; delta execSel; rfl) fun _ _ _ => within8_zero _

theorem operates_bfi (d a b : RegF) (p q : Bool) {sh : Shape} (h : shapeOf (.bfi d a b p q) = some sh) : Operates (.bfi d a b p q) sh := by
  cases h
  exact compute_operates _ (fun s => by rw [exec_bfi]; delta execBfi State.int3; rfl) fun _ _ _ => within8_zero _

theorem operates_popc (d a : RegF) (p : Bool) {sh : Shape} (h : shapeOf (.popc d a p) = some sh) : Operates (.popc d a p) sh := by
  cases h
  exact compute_operates _ (fun s => by rw [exec_popc]; delta execPopc State.int1; rfl) fun _ _ _ => within8_zero _

theorem operates_clz (d a : RegF) (p : Bool) {sh : Shape} (h : shapeOf (.clz d a p) = some sh) : Operates (.clz d a p) sh := by
  cases h
  exact compute_operates _ (fun s => by rw [exec_clz]; delta execClz State.int1; rfl) fun _ _ _ => within8_zero _

theorem operates_brev (d a : RegF) (p : Bool) {sh : Shape} (h : shapeOf (.brev d a p) = some sh) : Operates (.brev d a p) sh := by
  cases h
  exact compute_operates _ (fun s => by rw [exec_brev]; delta execBrev State.int1; rfl) fun _ _ _ => within8_zero _

theorem operates_capb (d a b : RegF) (p q : Bool) {sh : Shape} (h : shapeOf (.capb d a b p q) = some sh) : Operates (.capb d a b p q) sh := by
  cases h
  exact compute_operates _ (fun s => by rw [exec_capb]; delta execCapb State.pair2; rfl) fun _ _ _ => within8_zero _

theorem operates_shlw (d a b : RegF) (p q : Bool) {sh : Shape} (h : shapeOf (.shlw d a b p q) = some sh) : Operates (.shlw d a b p q) sh := by
  cases h
  exact compute_operates _ (fun s => by rw [exec_shlw]; delta execShlw State.pair2; rfl) fun _ _ _ => within8_zero _

theorem operates_shrw (d a b : RegF) (p q : Bool) {sh : Shape} (h : shapeOf (.shrw d a b p q) = some sh) : Operates (.shrw d a b p q) sh := by
  cases h
  exact compute_operates _ (fun s => by rw [exec_shrw]; delta execShrw State.pair2; rfl) fun _ _ _ => within8_zero _

theorem operates_cadd (d a b : RegF) (p q : Bool) {sh : Shape} (h : shapeOf (.cadd d a b p q) = some sh) : Operates (.cadd d a b p q) sh := by
  cases h
  exact compute_operates _ (fun s => by rw [exec_cadd]; delta execCadd State.pair2; rfl) fun _ _ _ => within8_zero _

theorem operates_capn (d a b : RegF) (p q : Bool) {sh : Shape} (h : shapeOf (.capn d a b p q) = some sh) : Operates (.capn d a b p q) sh := by
  cases h
  exact compute_operates _ (fun s => by rw [exec_capn]; delta execCapn State.pair2; rfl) fun _ _ _ => within8_zero _

theorem operates_andi (d a : RegF) (i : BitVec 13) (p : Bool) {sh : Shape} (h : shapeOf (.andi d a i p) = some sh) : Operates (.andi d a i p) sh := by
  cases h
  exact compute_operates _ (fun s => by rw [exec_andi]; delta execAndi State.int1; rfl) fun _ _ _ => within8_zero _

theorem operates_ori (d a : RegF) (i : BitVec 13) (p : Bool) {sh : Shape} (h : shapeOf (.ori d a i p) = some sh) : Operates (.ori d a i p) sh := by
  cases h
  exact compute_operates _ (fun s => by rw [exec_ori]; delta execOri State.int1; rfl) fun _ _ _ => within8_zero _

theorem operates_xori (d a : RegF) (i : BitVec 13) (p : Bool) {sh : Shape} (h : shapeOf (.xori d a i p) = some sh) : Operates (.xori d a i p) sh := by
  cases h
  exact compute_operates _ (fun s => by rw [exec_xori]; delta execXori State.int1; rfl) fun _ _ _ => within8_zero _

theorem operates_shli (d a : RegF) (n : BitVec 5) (p : Bool) {sh : Shape} (h : shapeOf (.shli d a n p) = some sh) : Operates (.shli d a n p) sh := by
  cases h
  exact compute_operates _ (fun s => by rw [exec_shli]; delta execShli State.int1; rfl) fun _ _ _ => within8_zero _

theorem operates_shri (d a : RegF) (n : BitVec 5) (p : Bool) {sh : Shape} (h : shapeOf (.shri d a n p) = some sh) : Operates (.shri d a n p) sh := by
  cases h
  exact compute_operates _ (fun s => by rw [exec_shri]; delta execShri State.int1; rfl) fun _ _ _ => within8_zero _

theorem operates_shrai (d a : RegF) (n : BitVec 5) (p : Bool) {sh : Shape} (h : shapeOf (.shrai d a n p) = some sh) : Operates (.shrai d a n p) sh := by
  cases h
  exact compute_operates _ (fun s => by rw [exec_shrai]; delta execShrai State.int1; rfl) fun _ _ _ => within8_zero _

theorem operates_movi (d : RegF) (i : BitVec 13) {sh : Shape} (h : shapeOf (.movi d i) = some sh) : Operates (.movi d i) sh := by
  cases h
  exact compute_operates _ (fun s => by rw [exec_movi]; delta execMovi; rfl) fun _ _ _ => within8_zero _

theorem operates_fabs (t : BitVec 2) (d a : RegF) (p : Bool) {sh : Shape} (h : shapeOf (.fabs t d a p) = some sh) : Operates (.fabs t d a p) sh := by
  cases h
  exact compute_operates _ (fun s => by rw [exec_fabs]; delta execFabs State.fpSign; rfl) fun _ _ _ => within8_zero _

theorem operates_fneg (t : BitVec 2) (d a : RegF) (p : Bool) {sh : Shape} (h : shapeOf (.fneg t d a p) = some sh) : Operates (.fneg t d a p) sh := by
  cases h
  exact compute_operates _ (fun s => by rw [exec_fneg]; delta execFneg State.fpSign; rfl) fun _ _ _ => within8_zero _

theorem operates_cmpw (c : BitVec 3) (u : Bool) (d : PredF) (a b : RegF) (p q : Bool) {sh : Shape} (h : shapeOf (.cmpw c u d a b p q) = some sh) : Operates (.cmpw c u d a b p q) sh := by
  cases h
  exact computeQ_operates _ (fun s => by rw [exec_cmpw]; delta execCmpw; rfl) fun _ _ _ => within8_zero _

theorem operates_cmp (c : BitVec 3) (u : Bool) (d : PredF) (a b : RegF) (p q : Bool) {sh : Shape} (h : shapeOf (.cmp c u d a b p q) = some sh) : Operates (.cmp c u d a b p q) sh := by
  cases h
  exact computeQ_operates _ (fun s => by rw [exec_cmp]; delta execCmp; rfl) fun _ _ _ => within8_zero _

theorem operates_qand (d a b : PredF) {sh : Shape} (h : shapeOf (.qand d a b) = some sh) : Operates (.qand d a b) sh := by
  cases h
  exact computeQ_operates _ (fun s => by rw [exec_qand]; delta execQand; rfl) fun _ _ _ => within8_zero _

theorem operates_qor (d a b : PredF) {sh : Shape} (h : shapeOf (.qor d a b) = some sh) : Operates (.qor d a b) sh := by
  cases h
  exact computeQ_operates _ (fun s => by rw [exec_qor]; delta execQor; rfl) fun _ _ _ => within8_zero _

theorem operates_qxor (d a b : PredF) {sh : Shape} (h : shapeOf (.qxor d a b) = some sh) : Operates (.qxor d a b) sh := by
  cases h
  exact computeQ_operates _ (fun s => by rw [exec_qxor]; delta execQxor; rfl) fun _ _ _ => within8_zero _

theorem operates_qnot (d a : PredF) {sh : Shape} (h : shapeOf (.qnot d a) = some sh) : Operates (.qnot d a) sh := by
  cases h
  exact computeQ_operates _ (fun s => by rw [exec_qnot]; delta execQnot; rfl) fun _ _ _ => within8_zero _

theorem operates_qmov (d a : PredF) {sh : Shape} (h : shapeOf (.qmov d a) = some sh) : Operates (.qmov d a) sh := by
  cases h
  exact computeQ_operates _ (fun s => by rw [exec_qmov]; delta execQmov; rfl) fun _ _ _ => within8_zero _

theorem operates_tagq (d : PredF) (a : RegF) (p : Bool) {sh : Shape} (h : shapeOf (.tagq d a p) = some sh) : Operates (.tagq d a p) sh := by
  cases h
  exact computeQ_operates _ (fun s => by rw [exec_tagq]; delta execTagq; rfl) fun _ _ _ => within8_zero _

theorem operates_fadd (t : BitVec 2) (d a b : RegF) (p q : Bool) {sh : Shape} (h : shapeOf (.fadd t d a b p q) = some sh) : Operates (.fadd t d a b p q) sh := by
  cases h
  exact compute_operates _ (fun s => by rw [exec_fadd]; delta execFadd State.fp2; rfl) fun _ _ _ => by exact Fmt.add_flags (fmtOf_plain t) ..

theorem operates_fsub (t : BitVec 2) (d a b : RegF) (p q : Bool) {sh : Shape} (h : shapeOf (.fsub t d a b p q) = some sh) : Operates (.fsub t d a b p q) sh := by
  cases h
  exact compute_operates _ (fun s => by rw [exec_fsub]; delta execFsub State.fp2; rfl) fun _ _ _ => by exact Fmt.add_flags (fmtOf_plain t) ..

theorem operates_fmul (t : BitVec 2) (d a b : RegF) (p q : Bool) {sh : Shape} (h : shapeOf (.fmul t d a b p q) = some sh) : Operates (.fmul t d a b p q) sh := by
  cases h
  exact compute_operates _ (fun s => by rw [exec_fmul]; delta execFmul State.fp2; rfl) fun _ _ _ => by exact Fmt.mul_flags (fmtOf_plain t) ..

theorem operates_fma (t : BitVec 2) (d a b : RegF) (p q : Bool) {sh : Shape} (h : shapeOf (.fma t d a b p q) = some sh) : Operates (.fma t d a b p q) sh := by
  cases h
  exact compute_operates _ (fun s => by rw [exec_fma]; delta execFma; rfl) fun _ _ _ => by exact Fmt.fma_flags (fmtOf_plain t) ..

theorem operates_fmin (t : BitVec 2) (d a b : RegF) (p q : Bool) {sh : Shape} (h : shapeOf (.fmin t d a b p q) = some sh) : Operates (.fmin t d a b p q) sh := by
  cases h
  exact compute_operates _ (fun s => by rw [exec_fmin]; delta execFmin State.fp2; rfl) fun _ _ _ => by exact Fmt.pick_flags ..

theorem operates_fmax (t : BitVec 2) (d a b : RegF) (p q : Bool) {sh : Shape} (h : shapeOf (.fmax t d a b p q) = some sh) : Operates (.fmax t d a b p q) sh := by
  cases h
  exact compute_operates _ (fun s => by rw [exec_fmax]; delta execFmax State.fp2; rfl) fun _ _ _ => by exact Fmt.pick_flags ..

theorem operates_fcvt (e : BitVec 4) (d a : RegF) (s : BitVec 4) (p : Bool) {sh : Shape} (h : shapeOf (.fcvt e d a s p) = some sh) : Operates (.fcvt e d a s p) sh := by
  cases h
  exact compute_operates _ (fun s => by rw [exec_fcvt]; delta execFcvt; rfl) fun _ L vs => by exact Lane.convert_flags ..

theorem operates_fcmp (c : BitVec 3) (t : BitVec 2) (d : PredF) (a b : RegF) (p q : Bool) {sh : Shape} (h : shapeOf (.fcmp c t d a b p q) = some sh) : Operates (.fcmp c t d a b p q) sh := by
  cases h
  exact computeQ_operates _ (fun s => by rw [exec_fcmp]; delta execFcmp; rfl) fun _ _ _ => by exact within8_ite (by decide) (by decide)

theorem operates_cmpi (n : BitVec 3) (a : RegF) (i : BitVec 13) (p : Bool) {sh : Shape} (h : shapeOf (.cmpi n a i p) = some sh) : Operates (.cmpi n a i p) sh := by
  cases h
  refine ⟨fun _ _ _ L vs =>
    let x := (valAt vs 0).w32
    let t := tagsOf vs || L.gt
    (L.setQ (n ++ (0 : BitVec 1)) (x.toInt < (L.imm i).toInt) t).setQ (n ++ (1 : BitVec 1)) (x == L.imm i) t,
    fun s => by rw [exec_cmpi]; delta execCmpi; rfl, fun s E l L vs => ?_⟩
  refine ⟨Lane.sameBut_setQ2 .., ?_, ?_⟩
  · have e1 := congrArg Lane.pc (Lane.setQ_rest (L.setQ (n ++ (0 : BitVec 1)) ((valAt vs 0).w32.toInt < (L.imm i).toInt) (tagsOf vs || L.gt)) (n ++ (1 : BitVec 1)) ((valAt vs 0).w32 == L.imm i) (tagsOf vs || L.gt))
    have e2 := congrArg Lane.pc (Lane.setQ_rest L (n ++ (0 : BitVec 1)) ((valAt vs 0).w32.toInt < (L.imm i).toInt) (tagsOf vs || L.gt))
    exact e1.trans e2
  · have e1 := congrArg Lane.guard (Lane.setQ_rest (L.setQ (n ++ (0 : BitVec 1)) ((valAt vs 0).w32.toInt < (L.imm i).toInt) (tagsOf vs || L.gt)) (n ++ (1 : BitVec 1)) ((valAt vs 0).w32 == L.imm i) (tagsOf vs || L.gt))
    have e2 := congrArg Lane.guard (Lane.setQ_rest L (n ++ (0 : BitVec 1)) ((valAt vs 0).w32.toInt < (L.imm i).toInt) (tagsOf vs || L.gt))
    exact e1.trans e2

theorem operates_tagp (d : RegF) {sh : Shape} (h : shapeOf (.tagp d) = some sh) : Operates (.tagp d) sh := by
  cases h
  refine ⟨fun _ E l L _ => (E.regsOf l L d 1).foldl (fun L n => L.remark n fun r => { r with tag := true }) L,
    fun s => by rw [exec_tagp]; delta execTagp; rfl, fun s E l L vs => ?_⟩
  have h := Lane.sameBut_remarks (fun r => { r with tag := true }) (E.regsOf l L d 1) L
  refine ⟨by simpa using h.1, h.2⟩

/-- Every word of a shape is one `operate` within it. -/
theorem operates_of_shape {i : Instr} {sh : Shape} (h : shapeOf i = some sh) : Operates i sh := by
  cases i
  case add => exact operates_add _ _ _ _ _ h
  case sub => exact operates_sub _ _ _ _ _ h
  case mul => exact operates_mul _ _ _ _ _ h
  case mad => exact operates_mad _ _ _ _ _ h
  case abs => exact operates_abs _ _ _ h
  case addw => exact operates_addw _ _ _ _ _ h
  case subw => exact operates_subw _ _ _ _ _ h
  case addi => exact operates_addi _ _ _ _ h
  case mulh => exact operates_mulh _ _ _ _ _ h
  case mulhz => exact operates_mulhz _ _ _ _ _ h
  case and => exact operates_and _ _ _ _ _ h
  case or => exact operates_or _ _ _ _ _ h
  case xor => exact operates_xor _ _ _ _ _ h
  case andn => exact operates_andn _ _ _ _ _ h
  case shl => exact operates_shl _ _ _ _ _ h
  case shr => exact operates_shr _ _ _ _ _ h
  case shra => exact operates_shra _ _ _ _ _ h
  case rot => exact operates_rot _ _ _ _ _ h
  case min => exact operates_min _ _ _ _ _ h
  case max => exact operates_max _ _ _ _ _ h
  case minz => exact operates_minz _ _ _ _ _ h
  case maxz => exact operates_maxz _ _ _ _ _ h
  case bfx => exact operates_bfx _ _ _ _ _ h
  case sel => exact operates_sel _ _ _ _ _ _ h
  case bfi => exact operates_bfi _ _ _ _ _ h
  case popc => exact operates_popc _ _ _ h
  case clz => exact operates_clz _ _ _ h
  case brev => exact operates_brev _ _ _ h
  case capb => exact operates_capb _ _ _ _ _ h
  case shlw => exact operates_shlw _ _ _ _ _ h
  case shrw => exact operates_shrw _ _ _ _ _ h
  case cadd => exact operates_cadd _ _ _ _ _ h
  case capn => exact operates_capn _ _ _ _ _ h
  case andi => exact operates_andi _ _ _ _ h
  case ori => exact operates_ori _ _ _ _ h
  case xori => exact operates_xori _ _ _ _ h
  case shli => exact operates_shli _ _ _ _ h
  case shri => exact operates_shri _ _ _ _ h
  case shrai => exact operates_shrai _ _ _ _ h
  case movi => exact operates_movi _ _ h
  case fabs => exact operates_fabs _ _ _ _ h
  case fneg => exact operates_fneg _ _ _ _ h
  case cmpw => exact operates_cmpw _ _ _ _ _ _ _ h
  case cmp => exact operates_cmp _ _ _ _ _ _ _ h
  case qand => exact operates_qand _ _ _ h
  case qor => exact operates_qor _ _ _ h
  case qxor => exact operates_qxor _ _ _ h
  case qnot => exact operates_qnot _ _ h
  case qmov => exact operates_qmov _ _ h
  case tagq => exact operates_tagq _ _ _ h
  case fadd => exact operates_fadd _ _ _ _ _ _ h
  case fsub => exact operates_fsub _ _ _ _ _ _ h
  case fmul => exact operates_fmul _ _ _ _ _ _ h
  case fma => exact operates_fma _ _ _ _ _ _ h
  case fmin => exact operates_fmin _ _ _ _ _ _ h
  case fmax => exact operates_fmax _ _ _ _ _ _ h
  case fcvt => exact operates_fcvt _ _ _ _ _ h
  case fcmp => exact operates_fcmp _ _ _ _ _ _ _ h
  case cmpi => exact operates_cmpi _ _ _ _ h
  case tagp => exact operates_tagp _ h
  all_goals cases h

end Sys2Proof.Machine
end

