-- ==== Sys2Proof/Laws/Tile.lean ====
section
/-! SUPPORT. Arriving at a convergence point, and what its words answer once a tile is complete. -/

namespace Sys2Proof.Machine

open Sys2Proof

theorem State.notReady_arrive {s : State} {a : Ask} (hr : a.release = false) (h : s.mayArrive a.srcs a.dsts) :
    s.notReady a = none := by
  rcases h with h | h
  · have : s.readers a = [] := by unfold State.readers; split <;> simp [h]
    simp [State.notReady, State.readsSpoilt, this]
  · exact State.notReady_ready h (.inl hr)

@[simp] theorem State.arrived_cur (s : State) (e : Extent) : (s.arrived e).cur = s.cur := rfl

/-- A braid that arrives where no point is complete waits there (R169). -/
theorem State.converge_wait {s : State} {e : Extent} {a : Ask} (f : State → Result) (hr : a.release = false)
    (h : s.mayArrive a.srcs a.dsts)
    (hc : s.completes e = [])
    (hs : (s.arrived e).curCrew.split = none) : s.converge e a f = .next (s.arrived e) := by
  unfold State.converge
  rw [State.notReady_arrive hr h]
  dsimp only
  split
  · split
    · rfl
    · rename_i h2
      have h2 : (s.arrived e).curCrew.split = _ := h2
      rw [hs] at h2; cases h2
  · rename_i h1
    exact absurd hc (fun h => h1 h)

/-- A braid whose arrival completes a point performs the word with the fibres that waited there (R169). -/
theorem State.converge_join {s : State} {e : Extent} {a : Ask} (f : State → Result) (hr : a.release = false)
    (h : s.mayArrive a.srcs a.dsts)
    (hc : s.completes e ≠ []) :
    s.converge e a f = f (s.joined e) := by
  unfold State.converge
  rw [State.notReady_arrive hr h]
  dsimp only
  split
  · rename_i h1
    exact absurd (show s.completes e = [] from h1) hc
  · rfl

theorem State.joined_lanes (s : State) (e : Extent) : (s.joined e).cur.lanes = s.performers e := rfl

theorem State.completes_of_joined {s : State} {e : Extent} {srcs : List Src} {dsts : List Dst}
    (h : (s.joined e).ready srcs dsts = true) : s.completes e ≠ [] := by
  intro hc
  apply State.ready_effective h
  have : s.performers e = [] := by simp [State.performers, hc]
  simp [State.effective, State.joined_lanes, this]

/-- What a fibre supplies to the others: its operand where the word takes effect, else its register. -/
theorem supply_eq {s : State} {srcs : List Src} (l : Nat) (x : Src) (i : Nat) (hi : srcs[i]? = some x) (hd : x.pops = true) :
    (match (s.effective.map fun l => (l, s.curLane l, s.operandsOf srcs l)).find? (fun y => y.1 == l) with
      | some y => valAt y.2.2 i
      | none => s.env.get l (s.curCrew.lane l) x.f x.n) = s.operand l x := by
  rw [show (fun l => (l, s.curLane l, s.operandsOf srcs l)) = fun l => (l, (fun k => (s.curLane k, s.operandsOf srcs k)) l) from rfl,
    find?_pairs]
  have := hd
  split
  · rename_i y hy
    split at hy
    · cases hy
      simp [valAt, State.operandsOf, List.getD, hi]
    · cases hy
  · rfl

/-- The prologue of a word without causes of its own, for any fibres it fills. -/
theorem State.prepare_two {s : State} (x : Ask) (hx : x.early = (fun _ _ _ => none)) (hy : x.late = (fun _ _ _ => none))
    (hz : x.steer = (fun _ _ => none)) (hr : x.release = false) (h : s.ready x.srcs x.dsts = true) :
    s.prepare x = .go s (s.reads x) :=
  State.prepare_ready h (.inl hr) (by simp [Ask.steered, hz]) (fun _ _ => by rw [hx]) fun _ _ => by rw [hy]

theorem tile_contains (C : Crew) (l : Nat) : (C.tileOf l).contains = fun m => m / 2 ^ C.part == l / 2 ^ C.part := by
  funext m
  have hpos : 0 < 2 ^ C.part := by positivity
  rw [Bool.eq_iff_iff]
  simp only [List.contains_iff_mem, Crew.tileOf, List.mem_range'_1, beq_iff_eq]
  constructor
  · rintro ⟨h1, h2⟩
    apply Nat.div_eq_of_lt_le
    · exact h1
    · rw [Nat.succ_mul]; exact h2
  · intro h
    rw [← h]
    exact ⟨Nat.div_mul_le_self _ _, by
      have := Nat.div_add_mod m (2 ^ C.part)
      have := Nat.mod_lt m hpos
      rw [Nat.mul_comm]; omega⟩

theorem State.gatherQ_ready {s : State} {a : PredF} {dsts : List Dst} (f : Env → (yes all : List Nat) → (t : Bool) → Nat → Lane → Lane)
    (h : s.mayArrive [] dsts) (hj : (s.joined .tile).ready [] dsts = true) :
    s.gatherQ { dsts := dsts } a f =
      .next ((s.joined .tile).done fun l L =>
        let J := s.joined .tile
        let tile := (s.performers .tile).filter fun m => m / 2 ^ J.curCrew.part == l / 2 ^ J.curCrew.part
        let voters := tile.filter fun m => (J.curLane m).guardTrue
        f J.env (voters.filter fun m => (J.curLane m).q a) voters ((tile.any fun m => (J.curLane m).qt a) || L.gt) l L) := by
  unfold State.gatherQ
  rw [State.converge_join _ rfl h (State.completes_of_joined hj)]
  have hp := State.prepare_two (s := s.joined .tile) { dsts := dsts } rfl rfl rfl rfl hj
  rw [hp]
  generalize hJ : s.joined .tile = J at *
  have hl : J.cur.lanes = s.performers .tile := by rw [← hJ]; rfl
  simp only [State.reads, State.readers, List.map_map, Function.comp_def]
  refine congrArg _ ((State.finish_effective { dsts := dsts } (State.ready_named hj) (fun l L => f J.env _ _ _ l L)).trans
    (State.done_congr fun l _ => ?_))
  simp only [State.tilemates, hl, tile_contains, State.curLane]

/-- Reading other fibres' registers changes nothing when no MMA names registers and none is spoilt (R242, R334). -/
theorem State.peek_sound {s : State} (h : s.curCrew.named = []) {rs : List (Nat × Nat)}
    (hs : ∀ r ∈ rs, (s.curLane r.1).spoilt.contains r.2 = false) : s.peek rs = some s := by
  unfold State.peek
  rw [if_neg, Crew.breached, h]
  · rfl
  · simp only [List.any_eq_true, not_exists, not_and, Bool.not_eq_true]
    exact hs

theorem State.shuffle_ready {s : State} {d a b : RegF} {p q : Bool} (pick : (n k b : Nat) → Option Nat)
    (h : s.mayArrive (two a b p q) [{ f := d }]) (hj : (s.joined .tile).ready (two a b p q) [{ f := d }] = true)
    (hq : ∀ l ∈ s.performers .tile, (s.joined .tile).fieldSound l a 1 = true) :
    s.shuffle d a b p q pick =
      .next ((s.joined .tile).wrote { f := d } (fun l L =>
        let J := s.joined .tile
        let n := 2 ^ J.curCrew.part
        let own := J.operand l (src a 1 p)
        let v := match pick n (l % n) (J.operand l (src b 1 q)).w32.toNat with
          | some j => if l - l % n + j ∈ s.performers .tile then J.operand (l - l % n + j) (src a 1 p) else own
          | none => own
        val32 v.w32 (v.tag || (J.operand l (src b 1 q)).tag || L.gt)) noFlags) := by
  unfold State.shuffle
  dsimp only
  rw [State.converge_join _ rfl h (State.completes_of_joined hj)]
  have hp := State.prepare_plain (s := s.joined .tile) (srcs := two a b p q) (dsts := [{ f := d }]) hj
  change (match (s.joined .tile).prepare { srcs := two a b p q, dsts := [{ f := d }] } with | .stop s => _ | .go s1 xs => _) = _
  rw [hp]
  generalize hJ : s.joined .tile = J at *
  have hl : J.cur.lanes = s.performers .tile := by rw [← hJ]; rfl
  simp only [List.map_map, Function.comp_def]
  rw [State.peek_sound (State.ready_named hj)]
  swap
  · rintro ⟨m, n⟩ hr
    simp only [List.mem_flatMap, List.mem_map, List.mem_filter, List.mem_eraseDups, Prod.mk.injEq] at hr
    obtain ⟨k, ⟨⟨x, hx, e⟩, _⟩, r, hr, rfl, rfl⟩ := hr
    have hk : k ∈ s.performers .tile := by
      rw [← hl, ← e]
      have hx : x ∈ J.cur.lanes := ((State.mem_effective J x).1 hx).1
      split
      · split
        · rename_i hc; simpa using hc
        · exact hx
      · exact hx
    have := List.all_eq_true.1 (hq k hk) r hr
    simpa using this
  refine congrArg _ ((State.finish_effective { srcs := two a b p q, dsts := [{ f := d }] } (State.ready_named hj) (fun l L =>
    J.env.put l L { f := d } _)).trans (State.done_congr fun l _ => ?_))
  have e1 : valAt (J.operandsOf (two a b p q) l) 1 = J.operand l (src b 1 q) := rfl
  have hs (m : Nat) := supply_eq (s := J) (srcs := two a b p q) m (src a 1 p) 0 rfl rfl
  let F (v : Val) : Lane := J.env.put l (J.curLane l) { f := d }
    (val32 v.w32 (v.tag || (J.operand l (src b 1 q)).tag || (J.curLane l).gt))
  simp only [e1, hl, List.contains_iff_mem, tileIndex]
  cases pick (2 ^ J.curCrew.part) (l % 2 ^ J.curCrew.part) (J.operand l (src b 1 q)).w32.toNat with
  | none => exact (congrArg F (hs l)).trans (Lane.raise_zero _).symm
  | some j =>
    dsimp only
    by_cases hm : l - l % 2 ^ J.curCrew.part + j ∈ s.performers .tile
    · simp only [if_pos hm]
      exact (congrArg F (hs _)).trans (Lane.raise_zero _).symm
    · simp only [if_neg hm]
      exact (congrArg F (hs l)).trans (Lane.raise_zero _).symm

/-- The word of R411 in the fibres of a complete tile, in the words of its entry. -/
theorem State.reduce_ready {s : State} (op : RedOp) (k : RedKind) (t : BitVec 3) (d a : RegF) (m : PredF) (p : Bool)
    (h : s.mayArrive [src a (if wideType t then 2 else 1) p] [{ f := d, n := if wideType t then 2 else 1 }])
    (hj : (s.joined .tile).ready [src a (if wideType t then 2 else 1) p] [{ f := d, n := if wideType t then 2 else 1 }] = true) :
    s.reduce op k t d a m p =
      .next ((s.joined .tile).done fun l L =>
        let J := s.joined .tile
        let n := 2 ^ J.curCrew.part
        let x := src a (if wideType t then 2 else 1) p
        let tile (l : Nat) : List Nat := (s.performers .tile).filter fun y => y / n == l / n
        let joins (y : Nat) : Bool := (J.curLane y).guardTrue && (J.curLane y).q m
        let part (y : Nat) : Option Nat := if joins y then some (J.operand y x).bits.toNat else none
        let f (l : Nat) := redStep op t (J.curLane (((tile l).filter fun y => (J.curLane y).guardTrue).headD l))
        let r (l : Nat) : Option Nat × BitVec 8 := match k with
          | .all => redTree (f l) J.curCrew.part ((J.curCrew.tileOf l).map fun y => if (tile l).contains y then part y else none)
          | .upto => redScan (f l) (((tile l).filter (· ≤ l)).filterMap part)
          | .below => redScan (f l) (((tile l).filter (· < l)).filterMap part)
        let tag := ((tile l).filter joins).any (fun y => (J.operand y x).tag) || (tile l).any (fun y => (J.curLane y).qt m)
          || L.gt
        ((J.env.put l L { f := d, n := if wideType t then 2 else 1 } (patVal ((r l).1.getD (redIdentity op t)) tag)).setQ m
          (!((tile l).filter joins).isEmpty) tag).raise
            (((tile l).filter fun y => (J.curLane y).guardTrue).foldl (fun (z : BitVec 8) y => z ||| (r y).2) 0)) := by
  unfold State.reduce
  dsimp only
  rw [State.converge_join _ rfl h (State.completes_of_joined hj)]
  have hp := State.prepare_plain (s := s.joined .tile) hj
  simp only [src] at hp
  rw [hp]
  generalize hJ : s.joined .tile = J at *
  have hl : J.cur.lanes = s.performers .tile := by rw [← hJ]; rfl
  have hv : ∀ y, (J.curLane y).guardTrue = true → y ∈ s.performers .tile →
      (((J.effective.map fun l => (l, J.curLane l, J.operandsOf [{ f := a, n := if wideType t then 2 else 1, trapping := p }] l)).find?
        (fun x => x.1 == y)).map fun x => valAt x.2.2 0) = some (J.operand y (src a (if wideType t then 2 else 1) p)) := by
    intro y hg hy
    have : y ∈ J.effective := (State.mem_effective J y).2 ⟨by rw [hl]; exact hy, hg⟩
    rw [show (fun l => (l, J.curLane l, J.operandsOf [{ f := a, n := if wideType t then 2 else 1, trapping := p }] l)) = fun l => (l, (fun k => (J.curLane k, J.operandsOf [{ f := a, n := if wideType t then 2 else 1, trapping := p }] k)) l) from rfl,
      find?_pairs, if_pos this]
    rfl
  simp only [List.map_map, Function.comp_def]
  refine congrArg _ ((State.finish_effective _ (State.ready_named hj) (fun l L => ((J.env.put l L _ (patVal _ _)).setQ m _ _).raise _)).trans
    (State.done_congr fun l _ => ?_))
  have hmates : ∀ l, J.tilemates l = (s.performers .tile).filter fun y => y / 2 ^ J.curCrew.part == l / 2 ^ J.curCrew.part := by
    intro l; simp only [State.tilemates, hl, tile_contains]
  simp only [hmates]
  have hlane : ∀ y, J.curCrew.lane y = J.curLane y := fun _ => rfl
  simp only [hlane]
  generalize hF : (fun y => Option.map (fun x : Nat × Lane × List Val => valAt x.2.2 0)
    (((J.effective.map fun l => (l, J.curLane l, J.operandsOf [{ f := a, n := if wideType t then 2 else 1, trapping := p }] l))).find?
      (fun x => x.1 == y))) = F at hv
  have hv : ∀ y, (J.curLane y).guardTrue = true → y ∈ s.performers .tile →
      F y = some (J.operand y (src a (if wideType t then 2 else 1) p)) := fun y h1 h2 => by rw [← hF]; exact hv y h1 h2
  have hF' : ∀ y, Option.map (fun x : Nat × Lane × List Val => valAt x.2.2 0)
    (((J.effective.map fun l => (l, J.curLane l, J.operandsOf [{ f := a, n := if wideType t then 2 else 1, trapping := p }] l))).find?
      (fun x => x.1 == y)) = F y := fun y => by rw [← hF]
  simp only [hF']
  have hpart : ∀ y ∈ s.performers .tile, (if ((J.curLane y).guardTrue && (J.curLane y).q m) = true then
      Option.map (fun v => v.bits.toNat) (F y) else none) = if ((J.curLane y).guardTrue && (J.curLane y).q m) = true then
        some (J.operand y (src a (if wideType t then 2 else 1) p)).bits.toNat else none := by
    intro y hy
    split
    · rename_i hj
      rw [hv y (by simp only [Bool.and_eq_true] at hj; exact hj.1) hy]; rfl
    · rfl
  have hall : ∀ l z, (if (((s.performers .tile).filter fun y => y / 2 ^ J.curCrew.part == l / 2 ^ J.curCrew.part).contains z) = true then
      (if ((J.curLane z).guardTrue && (J.curLane z).q m) = true then Option.map (fun v => v.bits.toNat) (F z) else none) else none)
      = if (((s.performers .tile).filter fun y => y / 2 ^ J.curCrew.part == l / 2 ^ J.curCrew.part).contains z) = true then
      (if ((J.curLane z).guardTrue && (J.curLane z).q m) = true then some (J.operand z (src a (if wideType t then 2 else 1) p)).bits.toNat else none) else none := by
    intro l z
    split
    · rename_i hz
      rw [hpart z (List.mem_filter.1 (List.contains_iff_mem.1 hz)).1]
    · rfl
  have hfm : ∀ l (g : Nat → Bool), (((s.performers .tile).filter fun y => y / 2 ^ J.curCrew.part == l / 2 ^ J.curCrew.part).filter g).filterMap
      (fun y => if ((J.curLane y).guardTrue && (J.curLane y).q m) = true then Option.map (fun v => v.bits.toNat) (F y) else none)
      = (((s.performers .tile).filter fun y => y / 2 ^ J.curCrew.part == l / 2 ^ J.curCrew.part).filter g).filterMap
      (fun y => if ((J.curLane y).guardTrue && (J.curLane y).q m) = true then some (J.operand y (src a (if wideType t then 2 else 1) p)).bits.toNat else none) := by
    intro l g
    refine List.filterMap_congr fun y hy => hpart y ?_
    exact List.mem_of_mem_filter (List.mem_of_mem_filter hy)
  have htag : ∀ l, (((s.performers .tile).filter fun y => y / 2 ^ J.curCrew.part == l / 2 ^ J.curCrew.part).filter
      (fun y => (J.curLane y).guardTrue && (J.curLane y).q m)).any (fun y => ((F y).map Val.tag).getD false)
      = (((s.performers .tile).filter fun y => y / 2 ^ J.curCrew.part == l / 2 ^ J.curCrew.part).filter
      (fun y => (J.curLane y).guardTrue && (J.curLane y).q m)).any (fun y => (J.operand y (src a (if wideType t then 2 else 1) p)).tag) := by
    intro l
    rw [Bool.eq_iff_iff, List.any_eq_true, List.any_eq_true]
    refine exists_congr fun y => and_congr_right fun hy => ?_
    have h1 := (List.mem_filter.1 hy).2
    simp only [Bool.and_eq_true] at h1
    rw [hv y h1.1 (List.mem_of_mem_filter (List.mem_of_mem_filter hy))]; rfl
  simp only [hall, hfm, htag]
  try (cases k <;> rfl)

end Sys2Proof.Machine
end

