-- ==== Sys2Proof/Tests/Slice0.lean ====
section
/-! SUPPORT. Tests: ill-formed instructions, words of the spec's encodings, single steps on small states, and for each
statement a state that meets its hypotheses. -/

open Sys2Proof Sys2Proof.Machine

section

set_option Elab.async false

/-! ## Ill-formed instructions -/

/-- R57: a field that names a pair holds an even value or 63; R66, R71: undefined condition and type codes. -/
theorem test_wf_pairs : ∀ i ∈ ([.addw 5 6 8 false false, .subw 4 7 8 false false, .shlw 5 4 6 false false,
    .shrw 4 5 6 false false, .divs true 4 6 9 false false, .divz true 5 6 8 false false, .rems true 4 7 8 false false,
    .remz true 4 6 61 false false, .cadd 5 4 6 false false, .capn 4 5 6 false false, .capb 4 6 9 false false,
    .cmpw 6 false 0 4 6 false false, .cmpw 0 false 0 5 6 false false, .cmp 6 true 0 4 5 false false,
    .fadd 1 5 6 8 false false, .fsub 1 4 7 8 false false, .fmul 1 4 6 9 false false, .fma 1 5 6 8 false false,
    .fmin 1 5 6 8 false false, .fmax 1 4 6 7 false false, .fabs 1 5 6 false, .fneg 1 4 7 false,
    .frcp true 5 6 false, .frsq true 4 7 false, .fsqrt true 5 6 false] : List Instr), i.wf = false := by decide

/-- R67, R71, R72, R353: codes that are undefined, and pairs by the type code. -/
theorem test_wf_types : ∀ i ∈ ([.fcmp 7 0 0 4 5 false false, .fcmp 0 1 0 5 6 false false, .fcvt 10 4 6 5 false,
    .fcvt 6 4 6 10 false, .fcvt 0 4 6 1 false, .fcvt 7 5 6 4 false, .fcvt 4 6 5 7 false, .qpack 3 false 4 8 6 false false,
    .qpack 2 true 5 8 6 false false, .qpack 1 false 4 9 6 false false, .qpack 2 false 4 10 6 false false,
    .qunpk 3 false 4 8 false, .qunpk 2 true 8 5 false, .qunpk 2 false 60 8 false, .redadd 6 4 5 3 false,
    .redmin 2 5 4 3 false, .redmax 5 4 5 3 false, .redand 0 4 5 3 false, .redor 5 4 6 3 false, .redxor 3 5 4 3 false,
    .scanadd 7 4 5 3 false, .scanaddx 3 4 5 3 false] : List Instr), i.wf = false := by decide

/-- R57, R74, R97: the fields of memory, stream and state register words; R62, R64: a GUARD of no word, RND of kind 3. -/
theorem test_wf_fields : ∀ i ∈ ([.ld 7 4 6 0 false, .ld 5 5 6 0 false, .ld 6 6 4 0 false, .ld 4 4 5 0 false,
    .st 1 4 6 0 false, .st 3 4 6 0 false, .st 7 4 6 0 false, .st 6 60 6 0 false, .ldsp 7 4 6 0 false, .ldsp 5 7 6 0 false,
    .ldacq 0 true 5 6, .ldacq 0 false 4 7, .strel 0 true 6 5, .strel 0 false 7 4, .atadd true 0 5 6 8, .atand true 0 4 6 9,
    .ator false 0 4 7 8, .atxor true 0 5 6 8, .atmin true 0 4 6 9, .atmax false 0 4 5 8, .atfadd true 0 5 6 8,
    .atcas false 0 4 6 4, .atcas true 0 5 6 8, .atxch true 0 5 6, .atxch false 0 4 5, .cflush 5 4, .cinv 5 4,
    .pref 5 false, .stmap 5 4 0, .strm 0 4 63, .gsr 5 0, .gsr 7 0x38, .ssr 5 0x11, .guard 3 false 0, .rnd 3 false 0] :
    List Instr), i.wf = false := by decide

/-- Operands of events out of their ranges. -/
theorem test_wf_events : ∀ i ∈ ([.emulationVector 0 0 1, .emulationVector 8 0 1, .emulationVector 1 0 0, .hostSnoop 0 2 true,
    .bisnpResponse 0 2 none, .biconflict 0 2 false, .hostHalfRequest 0 2 false, .qTail 64 0 0, .qCtl 0 16 0, .commandFetch 2,
    .regroup 320, .restoreTeam 0 320, .onyxDue 320, .onyxSlice 320, .onyxSliceEnd 320 true, .onyxLapse 320,
    .mmaComplete 320 [], .dcorComplete 320, .mcStatus .host 55 0, .ftimeSync 16384, .clockChange 2 2000,
    .clockChange 0 1100, .clockChange 0 3700, .clockChange 0 1250, .deviceReset 16384] : List Instr), i.wf = false := by decide

/-- What R57 admits: 63 for a pair, 56 for a quad. -/
theorem test_wf_admits : (Instr.addw 62 63 0 false false).wf = true ∧ (Instr.ld 6 56 4 0 false).wf = true
    ∧ (Instr.st 6 63 4 0 false).wf = true ∧ (Instr.strm 0 63 63).wf = true ∧ (Instr.guard 3 false 7).wf = true := by decide
/-! ## Words written out from the spec's encodings -/

/-- The words of the reference entries and encodings of R55 to R77: integer. -/
theorem test_decodeInteger : ∀ x ∈ ([
    (0x04018414, .add 6 4 5 false false), (0x04018416, .add 6 4 5 true false), (0x04118414, .sub 6 4 5 false false),
    (0x04218414, .mul 6 4 5 false false), (0x04318414, .mulh 6 4 5 false false),
    (0x04418414, .mulhz 6 4 5 false false), (0x04518414, .mad 6 4 5 false false),
    (0x045B2DB8, .mad 44 45 46 false false), (0x04618414, .and 6 4 5 false false), (0x04718414, .or 6 4 5 false false),
    (0x04818414, .xor 6 4 5 false false), (0x04918414, .andn 6 4 5 false false), (0x04A18414, .shl 6 4 5 false false),
    (0x04B18414, .shr 6 4 5 false false), (0x04C18414, .shra 6 4 5 false false), (0x04D18414, .rot 6 4 5 false false)] : List (Word × Instr)), decode x.1 = .ok x.2 := by decide +kernel

/-- The words of the reference entries and encodings of R55 to R77: integerMore. -/
theorem test_decodeIntegerMore : ∀ x ∈ ([
    (0x04E18414, .min 6 4 5 false false), (0x04F18414, .max 6 4 5 false false), (0x05018414, .minz 6 4 5 false false),
    (0x05118414, .maxz 6 4 5 false false), (0x05210500, .abs 4 5 false), (0x05318400, .popc 6 4 false),
    (0x05418400, .clz 6 4 false), (0x05518400, .brev 6 4 false), (0x05618414, .bfx 6 4 5 false false),
    (0x05718414, .bfi 6 4 5 false false), (0x07318414, .sel 3 6 4 5 false false),
    (0x074450FC, .sel 4 17 16 63 false false)] : List (Word × Instr)), decode x.1 = .ok x.2 := by decide +kernel

/-- The words of the reference entries and encodings of R55 to R77: wide. -/
theorem test_decodeWide : ∀ x ∈ ([
    (0x08010620, .addw 4 6 8 false false), (0x08110620, .subw 4 6 8 false false),
    (0x08210620, .shlw 4 6 8 false false), (0x08310620, .shrw 4 6 8 false false),
    (0x08418414, .divs false 6 4 5 false false), (0x08F10620, .remz true 4 6 8 false false),
    (0x08820828, .cadd 8 8 10 false false), (0x08910828, .capn 4 8 10 false false),
    (0x08A10828, .capb 4 8 10 false false), (0x091094FC, .cmpw 0 true 2 20 63 false false),
    (0x0C404414, .cmp 2 false 1 4 5 false false), (0x0C504414, .cmp 2 true 1 4 5 false false),
    (0x0C00584C, .cmp 0 false 1 24 19 false false)] : List (Word × Instr)), decode x.1 = .ok x.2 := by decide +kernel

/-- The words of the reference entries and encodings of R55 to R77: immediate. -/
theorem test_decodeImmediate : ∀ x ∈ ([
    (0x10610004, .addi 6 4 2 false), (0x11967FFE, .addi 25 25 0x1FFF false), (0x1503001E, .andi 16 12 15 false),
    (0x14410000, .andi 4 4 0 false), (0x14413FE0, .andi 4 4 0x1FF0 false), (0x18410006, .ori 4 4 3 false),
    (0x1D040002, .xori 16 16 1 false), (0x1C413FFE, .xori 4 4 0x1FFF false), (0x2114000A, .shli 17 16 5 false),
    (0x22DE4030, .shli 45 57 24 false), (0x26AA4034, .shri 42 41 26 false), (0x2ADB4030, .shrai 45 45 24 false),
    (0x2C008002, .cmpi 0 2 1 false), (0x2CAA0002, .cmpi 5 40 1 false), (0x30400050, .movi 4 40),
    (0x30100600, .movi 1 0x300), (0x32403FFE, .movi 36 0x1FFF)] : List (Word × Instr)), decode x.1 = .ok x.2 := by decide +kernel

/-- The words of the reference entries and encodings of R55 to R77: float. -/
theorem test_decodeFloat : ∀ x ∈ ([
    (0x34018414, .fadd 0 6 4 5 false false), (0x34218414, .fadd 2 6 4 5 false false),
    (0x34318414, .fadd 3 6 4 5 false false), (0x34120A30, .fadd 1 8 10 12 false false),
    (0x34418414, .fsub 0 6 4 5 false false), (0x34818414, .fmul 0 6 4 5 false false),
    (0x34C18414, .fma 0 6 4 5 false false), (0x34D20A30, .fma 1 8 10 12 false false),
    (0x35018414, .fmin 0 6 4 5 false false), (0x35418414, .fmax 0 6 4 5 false false), (0x35818400, .fabs 0 6 4 false),
    (0x35C18400, .fneg 0 6 4 false), (0x36004414, .fcmp 0 0 1 4 5 false false),
    (0x36804414, .fcmp 2 0 1 4 5 false false)] : List (Word × Instr)), decode x.1 = .ok x.2 := by decide +kernel

/-- The words of the reference entries and encodings of R55 to R77: convert. -/
theorem test_decodeConvert : ∀ x ∈ ([
    (0x38018460, .fcvt 0 6 4 6 false), (0x38618400, .fcvt 6 6 4 0 false), (0x38818870, .fcvt 8 6 8 7 false),
    (0x38759280, .fcvt 7 22 18 8 false), (0x39020414, .qpack 0 false 8 4 5 false false),
    (0x39230800, .qunpk 0 false 12 8 false), (0x39921014, .qpack 2 true 8 16 5 false false),
    (0x39B40800, .qunpk 2 true 16 8 false), (0x3C018400, .frcp false 6 4 false), (0x3C418400, .frsq false 6 4 false),
    (0x3C920A00, .fsqrt true 8 10 false), (0x3CC18400, .fexp2 6 4 false), (0x3D018400, .flog2 6 4 false),
    (0x3D418400, .fsin 6 4 false), (0x3D818400, .fcos 6 4 false)] : List (Word × Instr)), decode x.1 = .ok x.2 := by decide +kernel

/-- The words of the reference entries and encodings of R55 to R77: predicate. -/
theorem test_decodePredicate : ∀ x ∈ ([
    (0x4000420C, .qand 1 2 3), (0x4010420C, .qor 1 2 3), (0x4020420C, .qxor 1 2 3), (0x40338F00, .qnot 14 15),
    (0x40438F00, .qmov 14 15), (0x44018414, .shfl 6 4 5 false false), (0x44118414, .shflu 6 4 5 false false),
    (0x44218414, .shfld 6 4 5 false false), (0x44318414, .shflx 6 4 5 false false), (0x44408300, .voteall 2 3),
    (0x44508300, .voteany 2 3), (0x44618300, .ballot 6 3), (0x4841840C, .redadd 4 6 4 3 false),
    (0x4881840C, .redmin 0 6 4 3 false), (0x48181818, .redadd 1 32 24 6 false), (0x4B41840C, .scanadd 4 6 4 3 false),
    (0x4C032400, .tagq 12 36 false), (0x4C118000, .tagp 6)] : List (Word × Instr)), decode x.1 = .ok x.2 := by decide +kernel

/-- The words of the reference entries and encodings of R55 to R77: flow. -/
theorem test_decodeFlow : ∀ x ∈ ([
    (0x50400003, .br 2 3), (0x52FFFFFD, .brn 7 0x1FFFFD), (0x51FFFFFF, .br 15 0x1FFFFF), (0x55E00010, .call 15 16),
    (0x56600002, .calln 3 2), (0x58000C00, .jmpi 12 false), (0x58000C02, .jmpi 12 true), (0x58100C00, .calli 12 false),
    (0x58203E00, .ret 62 false), (0x58200C00, .ret 12 false), (0x58300000, .meet), (0x58400000, .fend),
    (0x58510600, .fspawn 4 6 false), (0x58700000, .tfence), (0x58800000, .eret)] : List (Word × Instr)), decode x.1 = .ok x.2 := by decide +kernel

/-- The words of the reference entries and encodings of R55 to R77: memory. -/
theorem test_decodeMemory : ∀ x ∈ ([
    (0x60418200, .ld 4 6 2 0 false), (0x60510204, .ld 5 4 2 2 false), (0x603182FE, .ld 3 6 2 0x7F false),
    (0x60049002, .ld 0 18 16 1 false), (0x60630800, .ld 6 12 8 0 false), (0x64018206, .st 0 6 2 3 false),
    (0x64424014, .st 4 9 0 10 false), (0x64539202, .st 5 14 18 1 false), (0x646A0408, .st 6 40 4 4 false),
    (0x68454200, .ldsp 4 21 2 0 false), (0x68551200, .ldsp 5 20 18 0 false), (0x6C406080, .ldacq 2 false 6 2),
    (0x6C619380, .ldacq 3 false 25 14), (0x6C680390, .strel 3 false 14 16), (0x6C4C0698, .strel 2 true 26 24),
    (0x70618311, .atadd false 3 24 12 17), (0x70186087, .atfadd false 0 6 2 7), (0x74BC6088, .atcas true 5 6 2 8),
    (0x74BC6086, .atxch true 5 6 2)] : List (Word × Instr)), decode x.1 = .ok x.2 := by decide +kernel

/-- The words of the reference entries and encodings of R55 to R77: memorySystem. -/
theorem test_decodeMemorySystem : ∀ x ∈ ([
    (0x78000000, .fence 0), (0x78000006, .fence 6), (0x78110600, .cflush 4 6), (0x78210600, .cinv 4 6),
    (0x78300002, .iinv 2), (0x78410001, .pref 4 true), (0x78510602, .stmap 4 6 2), (0x78600002, .stunmap 2),
    (0x78700002, .stwb 2), (0x78820003, .pqry 8 3), (0x78900000, .wclr), (0x7C000005, .wchk 5),
    (0x7C1FFFFD, .wchk 0x1FFFFD)] : List (Word × Instr)), decode x.1 = .ok x.2 := by decide +kernel

/-- The words of the reference entries and encodings of R55 to R77: engines. -/
theorem test_decodeEngines : ∀ x ∈ ([
    (0x80020000, .mma 8), (0x80120000, .mrdy 8), (0x80200003, .mwait 3), (0x80320000, .wbld 8), (0x80410000, .dcor 4),
    (0x84020000, .chain 8), (0x8410860A, .strm 2 6 10), (0x8411FF3F, .strm 7 63 63), (0x8802C000, .kick 11),
    (0x88124C00, .bari 9 12), (0x88224000, .bara 9), (0x88324000, .bwait 9), (0x88420000, .coll 8),
    (0x8C020000, .launch 8), (0x8C120003, .launcht 8 3), (0x8C200000, .cwait), (0x8C300000, .tbar)] : List (Word × Instr)), decode x.1 = .ok x.2 := by decide +kernel

/-- The words of the reference entries and encodings of R55 to R77: system. -/
theorem test_decodeSystem : ∀ x ∈ ([
    (0x90000003, .gsr 0 3), (0x90028000, .gsr 10 0), (0x900A4036, .gsr 41 0x36), (0x90128031, .ssr 10 0x31),
    (0x901D8011, .ssr 54 0x11), (0x00000007, .trap 7), (0xF8048D15, .limm 0x48D15), (0xF8784000, .guard 14 false 1),
    (0xF84E8000, .guard 3 true 2), (0xF8800013, .sched true 3), (0xF8C00005, .rnd 0 true 1),
    (0xF8C00010, .rnd 2 false 0), (0xF9000000, .sat), (0xF9400000, .nop 0)] : List (Word × Instr)), decode x.1 = .ok x.2 := by decide +kernel
/-! ## Small states -/

/-- Reset with one running fibre of team 2 on core 0, about to issue; its trap vector is 64. -/
def Tests.base : State :=
  let s := State.reset.withFetchWord 32 0
  { s with
    cur := { team := 2, crew := 0, lanes := [0], unit := [0] }
    teams := s.teams.mapVals fun _ T => { T with body := { T.body with trapvec := 64, emuvec := 128 } } }

/-- Registers of a fibre. -/
def Tests.regs (rs : List (Nat × Word)) : AMap Reg := rs.foldl (fun m r => m.put r.1 { val := r.2, tag := false, full := true }) []

/-- The fibres of crew 0 of team 2. -/
def Tests.lanes (s : State) (ls : List (Nat × Lane)) : State :=
  let braid : Braid := { lanes := ls.map Prod.fst }
  { s.updCrew 2 0 (fun C => { C with lanes := ls, braids := [braid] }) with
    cur := { s.cur with lanes := ls.map Prod.fst } }

/-- One fibre with registers. -/
def Tests.one (rs : List (Nat × Word)) : State :=
  Tests.lanes Tests.base [(0, { state := .ready, regs := Tests.regs rs })]

/-- Object 17 of context 0: one frame at 0x400000 with rights R, W and A; the capability of its bytes from `off` on. -/
def Tests.cap (off : Nat) : DWord := BitVec.ofNat 22 17 ++ (13 : BitVec 4) ++ BitVec.ofNat 38 off

def Tests.withObject (s : State) : State :=
  { s with
    ctxs := s.ctxs.mapVals fun _ X => { X with otsize := 32 }
    mem := (s.mem.setBytes (fetchTable + 32 * 17)
      (leBytes 8 Config.frameBytes ++ leBytes 4 (2 ^ 31 + 13 * 2 ^ 27) ++ leBytes 4 0 ++ leBytes 8 0x202000)).setBytes
      0x202000 (leBytes 8 (2 * 2 ^ 61 + 2)) }

/-- Bytes of team 2's stash. -/
def Tests.stash (s : State) (a : Nat) (bs : List Byte) : State :=
  s.updBody 2 fun b => { b with stash := b.stash.setBytes a bs }

/-- The state after an instruction. -/
def Tests.run (i : Instr) (s : State) : State := match exec i s with
  | .next t => t
  | _ => s

/-- The lane 0 of the state after an instruction. -/
def Tests.after (i : Instr) (s : State) : Lane := (Tests.run i s).curLane 0

/-- One fibre with the registers the tests use: 34 is empty, 35 holds a tagged value. -/
def Tests.plain : State :=
  (Tests.one [(4, 0x7FFFFFFF), (5, 1), (6, 0x80000000), (7, 0xFFFFFFFF), (8, 0x40000000), (9, 3), (10, 0x1F1F), (11, 0),
    (12, 0x40), (13, 0x42), (14, 0x3F800000), (15, 0x7F7FFFFF), (16, 0), (17, 0), (35, 8)]).mapLanes [0] fun _ L =>
      (L.setReg 34 { val := 0, tag := false, full := false }).setReg 35 { val := 8, tag := true, full := true }

/-- The same under the unit's hints. -/
def Tests.hinted (h : Hints) : State := Tests.plain.mapLanes [0] fun _ L => { L with hints := h }

/-- Two fibres of a braid: fibre 0 has q1 true, fibre 1 has q2 true. -/
def Tests.pair : State :=
  Tests.lanes Tests.base [(0, { state := .ready, preds := 2, regs := Tests.regs [(4, 5), (5, 1), (6, 0x40)] }),
    (1, { state := .ready, preds := 4, regs := Tests.regs [(4, 7), (5, 0), (6, 0x44)] })]

/-- Fibre 0 alone in its braid while fibre 1 runs elsewhere. -/
def Tests.parted : State :=
  { Tests.pair.updCrew 2 0 (fun C => { C with braids := [({ lanes := [0] } : Braid), ({ lanes := [1] } : Braid)] }) with
    cur := { Tests.pair.cur with lanes := [0] } }

/-- A watch entry of fibre 0. -/
def Tests.entry (st : WatchState) : WatchEntry where
  id := 9
  line := 0x8000
  mask := 1
  state := st
  stamp := some 0
  epoch := 0
  created := 0
  fver := 0
  obj := 17
  frame := 0

/-- A fibre that stands in a watch entry. -/
def Tests.watching (st : WatchState) : State := Tests.pair.updCrew 2 0 fun C => { C with
  watch := [(3, Tests.entry st)] }

/-- Fibre 0 with its guard false. -/
def Tests.guarded : State := Tests.plain.mapLanes [0] fun _ L => { L with guard := some { q := 1, neg := false, left := 1 } }

/-! ## Hypotheses of the statements on words of registers -/

theorem witness_SumsProductsAndExtremes : Tests.plain.effective = [0]
    ∧ Tests.plain.ready (two 4 5 false true) [{ f := 6 }] = true ∧ Tests.plain.ready (two 4 6 false false 2) [{ f := 8, n := 2 }] = true
    ∧ Tests.plain.ready [src 6 1 false] [{ f := 63 }] = true
    ∧ Tests.plain.ready (two 4 5 false false ++ [src 6 1 false]) [{ f := 6 }] = true := by decide +kernel

theorem witness_BitFieldsAndCapabilities : Tests.plain.ready (two 4 10 false false) [{ f := 6 }] = true
    ∧ Tests.plain.ready (two 4 10 false false ++ [src 6 1 false]) [{ f := 6 }] = true
    ∧ Tests.plain.ready [src 4 2 false, src 7 1 false] [{ f := 4, n := 2 }] = true
    ∧ Tests.plain.ready (two 4 6 false false 2) [{ f := 4, n := 2 }] = true := by decide +kernel

theorem witness_SubLogicAndShifts : Tests.plain.ready (two 6 7 false false) [{ f := 6 }] = true
    ∧ Tests.plain.ready [src 7 1 false] [{ f := 6 }] = true ∧ Tests.plain.ready (two 4 6 false false 2) [{ f := 8, n := 2 }] = true
    ∧ Tests.plain.ready [src 4 2 false, src 7 1 false] [{ f := 8, n := 2 }] = true := by decide +kernel

theorem witness_ComparisonsAndSelect : Tests.plain.ready (two 4 6 false false) [] = true
    ∧ Tests.plain.ready (two 4 6 false false 2) [] = true ∧ Tests.plain.ready [src 4 1 false] [] = true
    ∧ Tests.plain.ready (two 4 35 false false) [{ f := 6 }] = true := by decide +kernel

theorem witness_ImmediateForms : Tests.plain.ready [src 4 1 false] [{ f := 6 }] = true ∧ Tests.plain.ready [] [{ f := 6 }] = true
    ∧ (Tests.plain.curLane 0).hints.limm = none
    ∧ ((Tests.hinted { limm := some 0x3FFFFF }).curLane 0).hints.limm = some 0x3FFFFF := by decide +kernel

/-- Infinity, a NaN, the NaN of E4M3, the least subnormal and the largest finite pattern, and a fraction. -/
theorem witness_PatternsAndModes : (255 : Nat) < 2 ^ f32.ew ∧ (1 : Nat) < 2 ^ f32.fw ∧ f32.e4 = false
    ∧ (15 = 2 ^ e4m3.ew - 1 ∧ (e4m3.e4 = true → 7 = 7)) ∧ ¬(15 = 2 ^ e4m3.ew - 1 ∧ (e4m3.e4 = true → 6 = 7))
    ∧ ¬(0 = 2 ^ f16.ew - 1 ∧ (f16.e4 = true → 1 = 7)) ∧ (0 : Nat) < 3 := by decide +kernel

theorem witness_OverflowAndNans : (FVal.nan true).isNan = true ∧ (FVal.fin true 0 0).isZero = true
    ∧ (FVal.fin false 1 0).isFinite = true ∧ (FVal.nan true).isSnan = true ∧ (FVal.inf false).isNan = false := by decide +kernel

/-- Finite values of both signs, sums of zeros, a value and an infinity that is not its opposite; −0 before +0. -/
theorem witness_FloatResults : (FVal.fin true 5 (-1)).isFinite = true ∧ (FVal.fin false 1 (-149)).isZero = false
    ∧ (FVal.fin true 0 0).isZero = true ∧ (FVal.fin true 0 0).sign = true ∧ (FVal.fin false 0 0).isZero = true
    ∧ (FVal.fin false 0 0).sign = false ∧ (FVal.inf true).isNan = false ∧ (FVal.inf false) ≠ .inf true
    ∧ (0x7F7FFFFF : Nat) < 2 ^ f32.width ∧ (f32.read false 0x7F7FFFFF).isNan = false := by decide +kernel

theorem witness_FloatResults_order : (FVal.inf true).order < (FVal.inf false).order := WithBot.bot_lt_coe _

theorem witness_FloatWords : Tests.plain.ready (two 14 15 false false (typeN 0)) [{ f := 6, n := typeN 0 }] = true
    ∧ Tests.plain.ready (two 14 12 false false (typeN 1) ++ [src 8 (typeN 1) false]) [{ f := 8, n := typeN 1 }] = true
    ∧ Tests.plain.ready [src 14 (typeN 1) false] [{ f := 8, n := typeN 1 }] = true ∧ Tests.plain.ready (two 14 15 false false (typeN 2)) [] = true
    ∧ Tests.plain.ready [src 14 (codeN 7) false] [{ f := 8, n := codeN 2 }] = true ∧ (FVal.fin true 5 (-1)).isFinite = true
    ∧ (FVal.nan false).isNan = true ∧ (5 : BitVec 3).toNat ≤ 6 ∧ (FVal.inf true).isNan = false := by decide +kernel

/-- WIN inside the span of 64 registers, at its last window, and past both ends. -/
theorem witness_PredicatesTagsAndWindow : Tests.plain.ready [] [] = true ∧ (14 : PredF) ≠ 15
    ∧ Tests.plain.ready [src 35 1 false] [] = true ∧ Tests.plain.ready [] [{ f := 35 }] = true
    ∧ (∀ l ∈ Tests.plain.effective, 0 ≤ ((Tests.plain.curLane l).wbase : Int) + 8 * (7 : BitVec 6).toInt
      ∧ ((Tests.plain.curLane l).wbase : Int) + 8 * (7 : BitVec 6).toInt < Tests.plain.spanOf Tests.plain.cur.team)
    ∧ (∃ l ∈ Tests.plain.effective, ((Tests.plain.curLane l).wbase : Int) + 8 * (8 : BitVec 6).toInt < 0
      ∨ (Tests.plain.spanOf Tests.plain.cur.team : Int) ≤ (Tests.plain.curLane l).wbase + 8 * (8 : BitVec 6).toInt)
    ∧ ∃ l ∈ Tests.plain.effective, ((Tests.plain.curLane l).wbase : Int) + 8 * (63 : BitVec 6).toInt < 0
      ∨ (Tests.plain.spanOf Tests.plain.cur.team : Int) ≤ (Tests.plain.curLane l).wbase + 8 * (63 : BitVec 6).toInt := by
  decide +kernel

theorem witness_ConvergenceWaits : Tests.parted.completes .tile = [] ∧ (Tests.parted.arrived .tile).curCrew.split = none
    ∧ Tests.parted.mayArrive [] [] ∧ Tests.parted.mayArrive (two 4 5 false false) [{ f := 6 }]
    ∧ Tests.parted.mayArrive [] [{ f := 6 }] ∧ Tests.parted.mayArrive [src 4 (if wideType 0 then 2 else 1) false] [{ f := 6 }] := by
  unfold State.mayArrive; decide +kernel

theorem witness_ExchangesAndVotes : Tests.pair.mayArrive (two 4 5 false false) [{ f := 6 }]
    ∧ (Tests.pair.joined .tile).ready (two 4 5 false false) [{ f := 6 }] = true ∧ Tests.pair.performers .tile = [0, 1]
    ∧ Tests.pair.mayArrive [] [] ∧ (Tests.pair.joined .tile).ready [] [] = true
    ∧ Tests.pair.mayArrive [] [{ f := 6 }] ∧ (Tests.pair.joined .tile).ready [] [{ f := 6 }] = true
    ∧ (∀ l ∈ Tests.pair.performers .tile, (Tests.pair.joined .tile).fieldSound l 4 1 = true) := by
  unfold State.mayArrive; decide +kernel

theorem witness_ReductionsAndScans : Tests.pair.mayArrive [src 4 1 false] [{ f := 6, n := 1 }]
    ∧ (Tests.pair.joined .tile).ready [src 4 1 false] [{ f := 6, n := 1 }] = true
    ∧ (let xs : List (Option Nat) := [some (2 ^ 32 - 1), none, some 1, none]
      (3 : BitVec 3).toNat < 4 ∧ xs.length = 2 ^ 2 ∧ (∀ x ∈ xs.filterMap id, x < 2 ^ redWidth 3) ∧ xs.filterMap id ≠ [])
    ∧ ([none, none] : List (Option Nat)).filterMap id = [] := by
  unfold State.mayArrive; decide +kernel

theorem witness_DivisionsAndSpecials : Tests.plain.ready (two 4 11 false false (wideN false)) [{ f := 6, n := wideN false }] = true
    ∧ Tests.plain.ready (two 4 16 false false (wideN true)) [{ f := 8, n := wideN true }] = true
    ∧ Tests.plain.ready [src 14 1 false] [{ f := 6 }] = true
    ∧ Tests.plain.ready [src 14 (wideN true) false] [{ f := 8, n := wideN true }] = true := by decide +kernel

/-- A binary32 source as the functions read it. -/
def Tests.source (b : Nat) : FVal := f32.read false b

/-- Sources of both sides of every bound: 2 and 3, 128, −149.5 and −126.5, 0.5, 2^16 and above, the least subnormal. -/
theorem witness_SpecialFunctionAccuracy : Tests.source 0x40000000 = .fin false (2 ^ 23) (-22) ∧ Tests.source 0x40400000 = .fin false (3 * 2 ^ 22) (-22)
    ∧ Tests.source 0x43000000 = .fin false (2 ^ 23) (-16) ∧ Tests.source 0xC3158000 = .fin true (299 * 2 ^ 15) (-16)
    ∧ Tests.source 0xC2FD0000 = .fin true (253 * 2 ^ 16) (-17) ∧ Tests.source 0x3F000000 = .fin false (2 ^ 23) (-24)
    ∧ Tests.source 0x47800000 = .fin false (2 ^ 23) (-7) ∧ Tests.source 0x47800001 = .fin false (2 ^ 23 + 1) (-7)
    ∧ Tests.source 1 = .fin false 1 (-149) ∧ (Tests.source 1).isZero = false := by decide +kernel

theorem witness_RegisterWordFrame : ∃ sh, shapeOf (.add 6 4 5 false false) = some sh
    ∧ Tests.plain.ready sh.srcs sh.dsts = true ∧ Tests.plain.effective = [0] := ⟨_, rfl, by decide +kernel, by decide +kernel⟩

/-- An empty source without and with its wait bit, an empty destination, and a field past the span of 64. -/
theorem witness_OperandsNotReady :
    (∀ x ∈ ([(.ld 4 20 34 0 false, 2, false, false), (.strel 0 false 34 8, 2, true, false), (.fend, 0, true, false),
        (.mma 34, 1, false, true), (.bari 34 8, 2, false, false)] : List (Instr × Nat × Bool × Bool)),
      (readsOf x.1).map (fun r => ((fieldsOf r.srcs r.dsts).length, r.release, r.lowest)) = some x.2)
    ∧ (∀ l ∈ Tests.plain.effective, Tests.plain.inSpan l (fieldsOf (two 34 5 false false) [{ f := 6 }]) = true)
    ∧ (∃ l ∈ (Tests.watching .pending).effective, (Tests.watching .pending).curCrew.watched l = true) ∧
    (∀ p : Bool, Tests.plain.unbound (two 34 5 p false) = true ∧ Tests.plain.pastSpan (fieldsOf (two 34 5 p false) [{ f := 6 }]) = false)
    ∧ (∀ l ∈ Tests.plain.effective, Tests.plain.empties l (fieldsOf ((two 34 5 false false).filter Src.trapping) []) = [])
    ∧ (∃ l ∈ Tests.plain.effective, Tests.plain.empties l (fieldsOf (two 34 5 false false) [{ f := 6 }]) ≠ [])
    ∧ (∃ l ∈ Tests.plain.effective, Tests.plain.empties l (fieldsOf ((two 34 5 true false).filter Src.trapping) []) ≠ [])
    ∧ (∃ l ∈ Tests.plain.effective, Tests.plain.empties l (fieldsOf (two 4 5 false false) [{ f := 34 }]) ≠ [])
    ∧ (Tests.plain.mapLanes [0] fun _ L => { L with wbase := 8 }).pastSpan (fieldsOf (two 62 5 false false) [{ f := 6 }]) = true
    ∧ (let s := Tests.plain.mapLanes [0] fun _ L => { L with spoilt := [4] }
      s.unbound (two 4 5 false false) = true ∧ s.pastSpan (fieldsOf (two 4 5 false false) [{ f := 6 }]) = false
        ∧ (∀ l ∈ s.effective, s.empties l (fieldsOf (two 4 5 false false) [{ f := 6 }]) = [])
        ∧ ∃ l ∈ s.effective, ∃ x ∈ two 4 5 false false, s.fieldSound l x.f x.n = false) := by
  decide +kernel

/-- A load, a matrix word and a division under a guard that is false; a word at which fibres meet is none of them. -/
theorem witness_NoGuardNoEffect : Tests.guarded.effective = [] ∧ convergent (.ssr 4 0x13) = true
    ∧ ∀ i ∈ ([.ld 4 20 4 0 false, .mma 4, .divs false 6 4 5 false false, .tclr, .launch 4, .cwait] : List Instr),
      (readsOf i).isSome = true ∧ convergent i = false := by decide +kernel

/-! ## Control flow, traps, fibres -/

theorem witness_ControlTransfers : Tests.pair.maySteer (fun l => (Tests.pair.curLane l).qt 1) ∧ Tests.pair.ready [] [] = true
    ∧ Tests.pair.pastSpan [(62, 1)] = false ∧ (∀ l ∈ Tests.pair.effective, Tests.pair.empties l [(62, 1)] = [])
    ∧ Tests.plain.maySteer (fun l => (Tests.plain.operand l (src 12 1 false)).tag)
    ∧ Tests.plain.ready [src 12 1 false] [] = true ∧ Tests.plain.ready [src 12 1 false] [{ f := 62 }] = true
    ∧ (∀ l ∈ Tests.plain.effective, (Tests.plain.operand l (src 12 1 false)).w32.toNat % 4 = 0)
    ∧ ¬(∀ l ∈ Tests.plain.effective, (Tests.plain.operand l (src 13 1 false)).w32.toNat % 4 = 0)
    ∧ Tests.plain.steers = false ∧ Tests.plain.ready [] [{ f := 62 }] = true ∧ Tests.plain.ready [src 35 1 false] [{ f := 62 }] = true
    ∧ (∃ l ∈ Tests.plain.effective, (Tests.plain.operand l (src 35 1 false)).tag = true ∨ (Tests.plain.curLane l).gtag = true) := by
  unfold State.maySteer; decide +kernel

/-- A branch by a tagged predicate. -/
theorem witness_ControlTransfers_tagged : let s := Tests.plain.mapLanes [0] fun _ L => { L with ptags := 2 }
    s.steers = false ∧ s.ready [] [{ f := 62 }] = true ∧ ∃ l ∈ s.effective, (s.curLane l).qt 1 = true ∨ (s.curLane l).gtag = true := by
  decide +kernel

/-- A crew already in three handlers, and one in four. -/
def Tests.nested (n : Nat) : State := Tests.pair.updCrew 2 0 fun C => { C with
  frames := List.replicate n { epc := 8, cause := 0x10, mask := 3, word := 7, adv := true, ulen := 1, after := [], before := [],
                               eaddr := 0, bases := [(0, 0), (1, 8)] } }

theorem witness_TrapEntry : (Tests.nested 3).ready [] [] = true ∧ (Tests.nested 3).curCrew.frames.length < 4
    ∧ ((Tests.nested 3).team 2).body.trapvec ≠ 0 ∧ ((Tests.nested 3).team 2).body.emuvec ≠ 0
    ∧ (∀ l ∈ [0, 1], l ∈ (Tests.nested 3).cur.lanes) ∧ (∀ l ∈ (Tests.nested 3).cur.lanes, l < 32)
    ∧ 4 ≤ (Tests.nested 4).curCrew.frames.length
    ∧ ((Tests.nested 0).updBody 2 fun b => { b with trapvec := 0 }).curCrew.frames.length = 0
    ∧ (((Tests.nested 0).updBody 2 fun b => { b with trapvec := 0 }).team 2).body.trapvec = 0 := by decide +kernel

theorem witness_EmulationVectors :
    (Tests.plain.cur.lanes.filter fun l => ({ Tests.plain.curLane l with guard := (guardAtTarget
      (Tests.plain.curLane l).guard0 Tests.plain.cur.unit) } : Lane).guardTrue) ≠ []
    ∧ (let s := Tests.plain.mapLanes [0] fun _ L => { L with guard0 := some { q := 1, neg := false, left := 1 } }
      (s.cur.lanes.filter fun l => ({ s.curLane l with guard := guardAtTarget (s.curLane l).guard0 s.cur.unit } : Lane).guardTrue) = []) := by
  decide +kernel

theorem witness_ReturnAndTrapFence : Tests.pair.curCrew.frames = [] ∧ Tests.pair.ready [] [] = true
    ∧ (∃ fr rest, (Tests.nested 1).curCrew.frames = fr :: rest ∧ fr.cause ≠ 0x24 ∧ fr.mask.getLsbD 1 = true)
    ∧ (Tests.nested 1).mayArrive [] [] ∧ ((Tests.nested 1).joined .frame).effective ≠ [] ∧ ((Tests.nested 1).curLane 1).live = true
    ∧ ¬(∃ l ∈ Tests.pair.effective, Tests.pair.arithmeticDue 2 0 l = true) ∧ Tests.pair.curCrew.mismatch = []
    ∧ ¬(∃ l ∈ Tests.pair.effective, (Tests.pair.curLane l).fstat &&& (Tests.pair.curLane l).ftrapen ≠ 0) := by
  refine ⟨by decide +kernel, by decide +kernel, ⟨_, _, rfl, by decide +kernel, by decide +kernel⟩, ?_⟩
  unfold State.mayArrive; decide +kernel

/-- TFENCE with a division in flight, and with an enabled flag set. -/
theorem witness_ReturnAndTrapFence_waits : (∃ l ∈ (Tests.run (.divs false 6 4 5 false false) Tests.pair).effective,
      (Tests.run (.divs false 6 4 5 false false) Tests.pair).arithmeticDue 2 0 l = true)
    ∧ (let s := Tests.pair.mapLanes [0] fun _ L => { L with fstat := flDZ, ftrapen := flDZ }
      ∃ l ∈ s.effective, (s.curLane l).fstat &&& (s.curLane l).ftrapen ≠ 0) := by decide +kernel

theorem witness_FibreEndAndSpawn : Tests.pair.ready [] [] = true ∧ (∀ l ∈ Tests.pair.effective, Tests.pair.curCrew.watched l = false)
    ∧ (∀ l ∈ Tests.pair.cur.lanes, l < 32 ∧ (Tests.pair.curLane l).state = .ready)
    ∧ Tests.pair.ready [src 6 1 false] [{ f := 7 }] = true ∧ Tests.pair.maySteer (fun l => (Tests.pair.operand l (src 6 1 false)).tag)
    ∧ (∀ l ∈ Tests.pair.effective, (Tests.pair.operand l (src 6 1 false)).w32.toNat % 4 = 0) ∧ Tests.pair.cur.lanes.Nodup
    ∧ (∀ l ∈ Tests.pair.cur.lanes, (Tests.pair.curLane l).state ≠ .free) := by
  unfold State.maySteer; decide +kernel

theorem witness_FibreEndAndSpawn_watched : ∃ l ∈ (Tests.watching .pending).effective,
    (Tests.watching .pending).curCrew.watched l = true := by decide +kernel
/-! ## Accesses -/

/-- Fibres 0 and 1 with capabilities of object 17 at 4-5, past its end at 6-7, of the stash at 2-3; numbers elsewhere. -/
def Tests.memory : State :=
  let pair (n : Nat) (v : DWord) : List (Nat × Word) := [(n, v.extractLsb' 0 32), (n + 1, v.extractLsb' 32 32)]
  let stash : DWord := BitVec.ofNat 22 0 ++ (15 : BitVec 4) ++ BitVec.ofNat 38 256
  let rs (l : Nat) : AMap Reg := Tests.regs (pair 2 stash ++ pair 4 (Tests.cap (256 * l)) ++ pair 6 (Tests.cap (2 ^ 21))
    ++ [(8, 7), (9, 0), (10, 64), (12, 64), (13, 0x40002), (14, 0x100), (15, 0x20000), (16, 128), (17, 5)])
  (Tests.withObject (Tests.lanes Tests.base [(0, { state := .ready, regs := rs 0 }), (1, { state := .ready, regs := rs 1 })]))

/-- The place that an access reaches. -/
def Tests.loc (s : State) (cap : Nat → DWord) (size : Nat) (need : BitVec 4) (l : Nat) : Loc :=
  match s.place (cap l) size need with
  | .ok x => x
  | .error _ => .stash 0

/-- The same fibres with live copies of the two lines at their core. -/
def Tests.cached : State := Tests.memory.updCore 0 fun K => { K with
  copies := [0x8000, 0x8002].map fun n => (n, ({ data := Mem.empty, expiry := some 256, granted := 0, version := 3, epoch := 0, ctx := 0, obj := 17 } : Copy)) }

/-- Loads: of memory with and without a copy, of the stash at its last word, and past the object's end. -/
theorem witness_LoadIssue :
    (∀ s ∈ [Tests.memory, Tests.cached], s.ready [src 4 2 false] [{ f := 20, n := sizeRegs 6 }] = true ∧ s.countersLow = true
      ∧ (let cap := s.baseCap 4 false 0 (sizeBytes 4)
        let loc := Tests.loc s cap 4 8
        s.reaches cap 4 8 loc ∧ ∀ l ∈ s.effective, s.steady 4 (loc l) = true ∧ (s.atHand l 4 (loc l)).isSome = decide (s = Tests.cached)
          ∧ s.sound l 4 (loc l) = true))
    ∧ (let s := Tests.memory
      let cap := s.baseCap 2 false 63 (sizeBytes 4)
      let loc := Tests.loc s cap 4 8
      s.reaches cap 4 8 loc ∧ ∀ l ∈ s.effective, s.steady 4 (loc l) = true ∧ (s.atHand l 4 (loc l)).isSome = true ∧ s.sound l 4 (loc l) = true)
    ∧ (let s := Tests.memory
      ∃ l ∈ s.effective, s.place (s.baseCap 6 false 0 4 l) 4 8 = .error 0x23 ∧ ∀ m ∈ s.effective, m < l → False)
    ∧ (4 : BitVec 3).toNat ≤ 6 := by
  unfold State.reaches
  refine ⟨by decide +kernel, by decide +kernel, ⟨0, by decide +kernel⟩, by decide +kernel⟩


theorem witness_SpeculationAndWatch : (4 : BitVec 3).toNat ≤ 6 ∧ Tests.memory.ready [src 4 2 false] [{ f := 20, n := sizeRegs 4 }] = true
    ∧ (∀ s ∈ [Tests.memory, Tests.cached], let cap := s.baseCap 4 false 0 (sizeBytes 4)
      let loc := Tests.loc s cap 4 8
      s.reaches cap 4 8 loc ∧ (∀ l ∈ s.effective, s.steady 4 (loc l) = true) ∧ s.countersLow = true
        ∧ (s.effective.filterMap fun l => lineOf (loc l)) = [0x8000, 0x8002]
        ∧ (∀ n ∈ [0x8000, 0x8002], s.curCrew.watch.find? (fun e => e.2.line == n) = none)
        ∧ 2 ≤ ((List.range 32).filter fun k => (s.curCrew.watch.find k).isNone).length
        ∧ ∀ n ∈ [0x8000, 0x8002], (((s.core (s.team s.cur.team).core).copies.find n).isSome = decide (s = Tests.cached))
          ∧ ∀ k, (s.core (s.team s.cur.team).core).copies.find n = some k → ∀ l ∈ s.effective,
            (s.overlay s.cur.team s.cur.crew l n k.data).poisonOf (((memAddr (loc l)).getD 0) % 128) 4 = false) := by
  unfold State.reaches
  refine ⟨by decide +kernel, by decide +kernel, ?_⟩
  intro s h
  simp only [List.mem_cons, List.not_mem_nil, or_false] at h
  rcases h with rfl | rfl
  · refine ⟨by decide +kernel, by decide +kernel, by decide +kernel, by decide +kernel, by decide +kernel, by decide +kernel, ?_⟩
    intro n _
    have e : (Tests.memory.core (Tests.memory.team Tests.memory.cur.team).core).copies.find n = none := rfl
    exact ⟨by rw [e]; decide +kernel, fun k h => by rw [e] at h; cases h⟩
  · refine ⟨by decide +kernel, by decide +kernel, by decide +kernel, by decide +kernel, by decide +kernel, by decide +kernel, ?_⟩
    intro n hn
    simp only [List.mem_cons, List.not_mem_nil, or_false] at hn
    rcases hn with rfl | rfl
    · exact ⟨by decide +kernel, fun k h => by cases h; decide +kernel⟩
    · exact ⟨by decide +kernel, fun k h => by cases h; decide +kernel⟩

/-- One fibre whose line has an entry; and the same with a full table. -/
def Tests.entered (full : Bool) : State :=
  let s := Tests.lanes Tests.memory [(0, Tests.memory.curLane 0)]
  s.updCrew 2 0 fun C => { C with watch := if full then (List.range 32).map fun k => (k, { Tests.entry .pending with line := k })
    else [(3, { Tests.entry .pending with line := 0x8000 })] }

theorem witness_SpeculationAndWatch_entry : (∀ b : Bool, (Tests.entered b).ready [src 4 2 false] [{ f := 20, n := sizeRegs 4 }] = true
      ∧ (let s := Tests.entered b
        let cap := s.baseCap 4 false 0 (sizeBytes 4)
        let loc := Tests.loc s cap 4 8
        (∀ l ∈ s.effective, s.place (cap l) 4 8 = .ok (loc l) ∧ s.present (loc l) = true ∧ lineOf (loc l) = some 0x8000
          ∧ s.steady 4 (loc l) = true ∧ s.sound l 4 (loc l) = true)))
    ∧ ((Tests.entered false).curCrew.watch.find? fun e => e.2.line == 0x8000).isSome = true
    ∧ (Tests.entered true).curCrew.freeWatch = none
    ∧ ((Tests.entered true).curCrew.watch.find? fun e => e.2.line == 0x8000) = none := by decide +kernel

/-- WCLR and WCHK of a fibre in an entry of each state, and of one whose partner in the entry has its guard false. -/
theorem witness_SpeculationAndWatch_words : (∀ st ∈ [WatchState.pending, .struck, .confirmed], (Tests.watching st).ready [] [] = true
      ∧ (∃ l ∈ (Tests.watching st).effective, ∃ e ∈ (Tests.watching st).curCrew.watch, e.2.mask.getLsbD l = true
        ∧ e.2.stateAt (Tests.watching st).ftime = st)
      ∧ (st ≠ .pending → ∀ l ∈ (Tests.watching st).effective, ¬∃ e ∈ (Tests.watching st).curCrew.watch,
        e.2.mask.getLsbD l = true ∧ e.2.stateAt (Tests.watching st).ftime = .pending))
    ∧ (Tests.entry .pending).stateAt 3999 = .pending ∧ (Tests.entry .pending).stateAt 4000 = .struck
    ∧ (Tests.watching .struck).maySteer (fun _ => false)
    ∧ (let s := Tests.pair.updCrew 2 0 fun C => { C with watch := [(3, { Tests.entry .struck with mask := 3 })] }
      let s := s.mapLanes [1] fun _ L => { L with guard := some { q := 1, neg := false, left := 1 } }
      s.ready [] [] = true ∧ s.effective = [0] ∧ s.cur.lanes = [0, 1]) := by
  unfold State.maySteer; decide +kernel

/-- A store of both fibres to memory, one to the stash, one past the end; an STREL that may pass, one that waits, one watched. -/
theorem witness_StoreIssue : (4 : BitVec 3).toNat ≤ 6 ∧ Tests.memory.ready [src 4 2 false, src 8 (sizeRegs 4) false] [] = true
    ∧ Tests.memory.countersLow = true
    ∧ (let s := Tests.memory
      let cap := s.baseCap 4 false 0 (sizeBytes 4)
      s.reaches cap 4 4 (Tests.loc s cap 4 4) ∧ ∀ l ∈ s.effective, (memAddr (Tests.loc s cap 4 4 l)).isSome = true)
    ∧ (let s := Tests.memory
      let cap := s.baseCap 2 false 0 (sizeBytes 4)
      s.reaches cap 4 4 (Tests.loc s cap 4 4) ∧ ∀ l ∈ s.effective, stashOff (Tests.loc s cap 4 4 l) = some 256)
    ∧ Tests.memory.place (Tests.memory.baseCap 6 false 0 4 0) 4 4 = .error 0x23
    ∧ Tests.memory.ready [src 4 2 false, src 8 (wideN false) false] [] = true
    ∧ (∀ l ∈ Tests.memory.effective, Tests.memory.curCrew.watched l = false ∧ Tests.memory.fenceOpen 2 0 (Tests.memory.horizonHere 3) Tests.memory.cur.lanes = true)
    ∧ Tests.memory.reaches (fun l => Tests.memory.capAt l 4 false) 4 4
        (Tests.loc Tests.memory (fun l => Tests.memory.capAt l 4 false) 4 4)
    ∧ (let s := Tests.memory.updCrew 2 0 fun C => { C with unacked := 1 }
      s.fenceOpen 2 0 (s.horizonHere 0) s.cur.lanes = false)
    ∧ (let s := Tests.entered false
      s.ready [src 4 2 false, src 8 1 false] [] = true ∧ ∃ l ∈ s.effective, s.curCrew.watched l = true) := by
  unfold State.reaches; decide +kernel

/-- Atomics on memory, in the stash, and of the wider scopes; the numbers at the bounds of both widths. -/
theorem witness_AtomicIssue : Tests.memory.ready [src 4 2 false, src 8 1 false, src 20 1 false] [{ f := 20, n := 1 }] = true
    ∧ Tests.memory.ready [src 4 2 false, src 8 2 false] [{ f := 20, n := 2 }] = true
    ∧ Tests.memory.ready [src 4 2 false, src zF 1 false] [{ f := 20, n := 1 }] = true
    ∧ (∀ b ∈ [(4 : RegF), 2], let s := Tests.memory
      let cap (l : Nat) := s.capAt l b false
      let loc := Tests.loc s cap 4 13
      s.reaches cap 4 13 loc ∧ ∀ l ∈ s.effective, s.steady 4 (loc l) = true)
    ∧ (∀ l ∈ Tests.memory.effective, Tests.memory.curCrew.watched l = false ∧ Tests.memory.granted (.mem (0x400000 + 256 * l) 17 0 0 false false) = true)
    ∧ Tests.memory.fenceOpen 2 0 (Tests.memory.horizonHere 2) Tests.memory.cur.lanes = true
    ∧ (Tests.memory.updCrew 2 0 fun C => { C with unacked := 1 }).fenceOpen 2 0 (Tests.memory.horizonHere 2) Tests.memory.cur.lanes = false
    ∧ Tests.memory.countersLow = true ∧ Tests.memory.place (Tests.memory.capAt 0 6 false) 4 13 = .error 0x23
    ∧ (2 ^ 32 - 1 : Nat) < 2 ^ (8 * 4) ∧ (2 ^ 64 - 1 : Nat) < 2 ^ (8 * 8) := by
  unfold State.reaches; decide +kernel

/-! ## Records of numbers and state registers -/

theorem witness_PackRecords : Tests.pair.completes .crew ≠ [] ∧ Tests.pair.mayArrive [src 4 1 false, src 5 1 false] [{ f := 6, n := 1 }]
    ∧ (Tests.pair.joined .crew).ready [src 4 1 false, src 5 1 false] [{ f := 6, n := 1 }] = true
    ∧ Tests.pair.mayArrive [src 4 2 false] [{ f := 8, n := 4 }] ∧ (Tests.pair.joined .crew).ready [src 4 2 false] [{ f := 8, n := 4 }] = true
    ∧ (∀ l ∈ Tests.pair.performers .crew, (Tests.pair.joined .crew).fieldSound l 4 2 = true)
    ∧ (FVal.fin false 0 0).isZero = true ∧ (FVal.nan true).isNan = true ∧ (FVal.inf true).isFinite = false
    ∧ (FVal.fin true 3 (-2)).isFinite = true ∧ (FVal.fin true 3 (-2)).isZero = false := by
  unfold State.mayArrive; decide +kernel

/-- GSR of both kinds; SSR of a value in and out of its range, LEASE at both ends, EPC out and in a handler; PART at 0, 1, 5 and 6. -/
theorem witness_StateRegisters : Tests.pair.ready [] [{ f := 8, n := wideN (wideState 0) }] = true
    ∧ Tests.pair.ready [src 4 (wideN (wideState 0x10)) false] [] = true
    ∧ (let bad (s : State) (n : BitVec 8) (v : Word) : Bool := (n == 0x16 && !(v.toNat % 2 ^ 14 % 32 == 0 && decide (32 ≤ v.toNat % 2 ^ 14)
          && decide (v.toNat % 2 ^ 14 ≤ 8192)))
        || (n == 0x30 || n == 0x31 || (n == 0x33 && !s.curCrew.frames.isEmpty)) && v.toNat % 4 != 0
      bad Tests.pair 0x16 8192 = false ∧ bad Tests.pair 0x16 32 = false ∧ bad Tests.pair 0x16 8224 = true ∧ bad Tests.pair 0x16 0 = true
        ∧ bad Tests.pair 0x30 2 = true ∧ bad Tests.pair 0x33 2 = false ∧ bad (Tests.nested 1) 0x33 2 = true)
    ∧ (∃ fr r, (Tests.nested 2).curCrew.frames = fr :: r) ∧ Tests.pair.curCrew.frames = []
    ∧ (∃ lc, Tests.pair.launchOf Tests.pair.cur.team = some lc ∧ (Tests.pair.team 2).index < lc.block.gx * lc.block.gy * lc.block.gz
      ∧ lc.block.gx < 2 ^ 16 ∧ lc.block.gy < 2 ^ 16 ∧ lc.block.gz < 2 ^ 16)
    ∧ Tests.pair.curCrew.watch.length ≤ 32 ∧ (0x17 : BitVec 8).toNat ∉ [0x16, 0x20]
    ∧ Tests.pair.mayArrive [src 5 1 false] [] ∧ (Tests.pair.joined .crew).ready [src 5 1 false] [] = true
    ∧ ((Tests.pair.joined .crew).effective.map fun l => ((Tests.pair.joined .crew).operand l (src 5 1 false)).w32.toNat % 8) = [1, 0]
    ∧ ((Tests.pair.joined .crew).effective.map fun l => ((Tests.pair.joined .crew).operand l (src 4 1 false)).w32.toNat % 8) = [5, 7] := by
  unfold State.mayArrive
  refine ⟨by decide +kernel, by decide +kernel, by decide +kernel, ⟨_, _, rfl⟩, rfl,
    ⟨_, rfl, by decide +kernel, by decide +kernel, by decide +kernel, by decide +kernel⟩, by decide +kernel⟩
/-! ## Fences, caches and windows -/

/-- Window 5 over the stash lines 2 to 5 of object 17; line 2 dirty, line 3 absent. -/
def Tests.windowed (dirty : List Nat) : State := Tests.memory.updBody 2 fun b => { b with
  windows := [(5, ({ cap := Tests.cap 0, first := 2, count := 4, tag := false } : Window))], absent := [3], dirty := dirty }

theorem witness_FenceAndCacheWords : Tests.memory.effective = [0, 1]
    ∧ (∀ l ∈ Tests.memory.cur.lanes, Tests.memory.curCrew.watched l = false)
    ∧ Tests.memory.fenceOpen 2 0 (Tests.memory.horizonHere 7) Tests.memory.cur.lanes = true
    ∧ (∃ l ∈ (Tests.watching .pending).cur.lanes, (Tests.watching .pending).curCrew.watched l = true)
    ∧ (let s := Tests.memory.updCrew 2 0 fun C => { C with gall := 9 }
      s.fenceOpen 2 0 (s.horizonHere 3) s.cur.lanes = false ∧ s.fenceOpen 2 0 (s.horizonHere 1) s.cur.lanes = true)
    ∧ Tests.memory.curCrew.named = [] ∧ Tests.memory.ready [src 4 2 false] [] = true
    ∧ (∀ l ∈ Tests.memory.effective, Tests.memory.check 2 (Tests.memory.capAt l 4 false) 16 16 8
        = .ok (Tests.loc Tests.memory (fun l => Tests.memory.capAt l 4 false) 16 8 l)
      ∧ Tests.memory.present (Tests.loc Tests.memory (fun l => Tests.memory.capAt l 4 false) 16 8 l) = true)
    ∧ Tests.memory.countersLow = true := by decide +kernel

/-- CFLUSH and CINV of memory and of the stash with and without a dirty line; PQRY at the last stash byte and past it. -/
theorem witness_FenceAndCacheWords_ranges :
    (∀ a ∈ [(4 : RegF), 2], ∀ d ∈ [[], [2]], let s := Tests.windowed d
      let body := (s.team 2).body
      let lines (l : Nat) : List Nat := body.rangeStash (s.capAt l a false)
        (capOff (s.capAt l a false) / 128, (capOff (s.capAt l a false) + 127) / 128 - capOff (s.capAt l a false) / 128 + 1)
      s.ready [src a 2 false, src 16 1 false] [] = true
        ∧ (∀ l ∈ s.effective, s.rangeFails (s.capAt l a false) (s.operand l (src 16 1 false)).w32 = none ∧ (s.curLane l).did = none
          ∧ (∀ m ∈ lines l, s.homeFails 2 m = none)
          ∧ ∀ m ∈ body.watchedStash (s.capAt l a false) (capOff (s.capAt l a false) / 128,
            (capOff (s.capAt l a false) + 127) / 128 - capOff (s.capAt l a false) / 128 + 1), s.copyInto 2 m = false)
        ∧ s.windowBusy 2 0 = false)
    ∧ (Tests.windowed [2]).windowAddr 2 { cap := Tests.cap 0, first := 2, count := 4, tag := false } 2 = some 0x400000
    ∧ ((Tests.windowed [2]).team 2).body.windowOf 2 = some { cap := Tests.cap 0, first := 2, count := 4, tag := false }
    ∧ Tests.memory.ready [src 9 1 false] [] = true
    ∧ (Tests.memory.operand 0 (src 9 1 false)).w32.toNat < 65536 * Tests.memory.stashBanks 2
    ∧ 65536 * Tests.memory.stashBanks 2 ≤ (Tests.memory.operand 0 (src 15 1 false)).w32.toNat := by decide +kernel

/-- A window of two lines from line 4 that may be mapped; one that is taken; one past the stash, and one of no line. -/
theorem witness_StashWindows :
    (let s := Tests.memory
      let cap := s.capAt 0 4 false
      s.ready [src 4 2 false, src 13 1 false] [] = true ∧ (s.operand 0 (src 13 1 false)).w32.toNat / 65536 = 4
        ∧ ¬(capOff cap % 128 ≠ 0 ∨ 2 = 0 ∨ 512 * s.stashBanks 2 < 4 + 2)
        ∧ (∀ i < 2, s.copyInto 2 (4 + i) = false ∧ capOff cap + 128 * i < 2 ^ 38
          ∧ (match s.check 2 (capWith cap (capOff cap + 128 * i)) 128 128 8 with
            | .ok _ => true
            | .error _ => false) = true))
    ∧ (∃ x ∈ ((Tests.windowed []).team 2).body.windows, 4 < x.2.first + x.2.count ∧ x.2.first < 4 + 2)
    ∧ 512 * Tests.memory.stashBanks 2 < 511 + 2 ∧ ((Tests.memory.operand 0 (src 15 1 false)).w32.toNat % 65536 = 0)
    ∧ (Tests.windowed [2]).ready [] [] = true ∧ ((Tests.windowed [2]).team 2).body.windows.find 6 = none
    ∧ (∀ d ∈ [[], [2]], let s := Tests.windowed d
      (s.team 2).body.windows.find 5 = some { cap := Tests.cap 0, first := 2, count := 4, tag := false }
        ∧ (∀ n ∈ List.range' 2 4, s.copyInto 2 n = false ∧ s.homeFails 2 n = none) ∧ s.windowBusy 2 0 = false
        ∧ (s.curLane (s.effective.headD 0)).did = none) := by decide +kernel

/-! ## Engines -/

/-- The registers 40 on hold the addresses of records in the stash: an MMA block at 0x400, a DCOR block at 0x440, a WBLD block
at 0x480, a chain at 0x500, a copy list at 0x580, a stream at 0x600, a COLL at 0x640, a launch block at 0x680, barrier objects
at 0x700 and 0x710; 50 an address out of place. -/
def Tests.records : State :=
  let s := Tests.lanes Tests.memory [(0, { Tests.memory.curLane 0 with regs := Tests.regs ([(40, 0x400), (41, 0x440), (42, 0x480),
    (43, 0x500), (44, 0x580), (45, 0x600), (46, 0x640), (47, 0x680), (48, 0x700), (49, 0x710), (50, 0x408), (51, 3)]) })]
  let mma := leBytes 4 (16 * 65536 + 16 * 256 + 16) ++ leBytes 4 (3 * 2 ^ 24 + 2 ^ 20 + 6 * 256 + 4) ++ leBytes 4 0 ++ leBytes 4 0x800
  let dcor := leBytes 4 (4 * 65536 + 7 * 256 + 2) ++ leBytes 4 (5 * 65536 + 65526) ++ leBytes 4 0x900 ++ leBytes 4 0x940
    ++ leBytes 4 0x960 ++ leBytes 4 0x980
  let wbld := leBytes 8 (Tests.cap 0x2000).toNat ++ leBytes 4 0 ++ leBytes 4 (16 + 16 * 256 + 4 * 65536 + 2 ^ 24) ++ leBytes 4 6
  let chain := leBytes 8 (Tests.cap 0).toNat ++ leBytes 8 0 ++ leBytes 8 (Tests.cap 0x8000).toNat ++ leBytes 4 32
    ++ leBytes 4 (1 + 6 * 16 + 6 * 256 + 6 * 4096) ++ leBytes 4 0x3F80 ++ List.replicate 28 0 ++ leBytes 4 0x700
  let copy := leBytes 8 (Tests.cap 0).toNat ++ leBytes 8 (Tests.cap 0x9000).toNat ++ leBytes 4 64 ++ leBytes 2 1 ++ leBytes 2 1
    ++ List.replicate 16 0 ++ leBytes 4 0x700 ++ leBytes 4 1
  let strm := leBytes 8 (Tests.cap 0).toNat ++ leBytes 4 4 ++ leBytes 4 8 ++ leBytes 4 2
  let coll := leBytes 8 (Tests.cap 0).toNat ++ leBytes 8 (Tests.cap 0xA000).toNat ++ leBytes 4 16 ++ leBytes 4 0 ++ leBytes 4 0
    ++ leBytes 4 0x700 ++ leBytes 4 1
  let launch := leBytes 8 fetchCode.toNat ++ leBytes 4 0 ++ leBytes 4 0 ++ leBytes 2 1 ++ leBytes 2 1 ++ leBytes 2 1 ++ leBytes 2 1
    ++ leBytes 1 5 ++ leBytes 1 64 ++ leBytes 1 1 ++ leBytes 1 1 ++ leBytes 4 16 ++ leBytes 8 0 ++ leBytes 4 64 ++ leBytes 4 128
    ++ leBytes 8 0 ++ leBytes 2 0 ++ leBytes 1 1
  let s := s.updCore 0 fun K => { K with onyxDue := 1000000 }
  ([(0x400, mma), (0x440, dcor), (0x480, wbld), (0x500, chain), (0x580, copy), (0x600, strm), (0x640, coll), (0x680, launch),
    (0x700, leBytes 4 64), (0x710, leBytes 4 0 ++ leBytes 4 (7 * 2 ^ 24))] : List (Nat × List Byte)).foldl
      (fun s x => Tests.stash s x.1 x.2) s

/-- The same with a block that MRDY noted and no ticket, or with a pending one. -/
def Tests.noted (pending : Bool) : State := Tests.records.updCrew 2 0 fun C => { C with
  ready := some 0x400, readyBlock := Tests.records.record 0x400 64, tickets := if pending then [(3, { lane := 0 }), (5, { lane := 0 }), (6, { lane := 0 })] else [] }

theorem witness_MatrixIssue : Tests.records.ready [src 50 1 false] [] = true
    ∧ recordOk (Tests.records.stashBanks 2) 0x408 64 = false ∧ recordOk (Tests.records.stashBanks 2) 0x408 32 = false
    ∧ (∀ b : Bool, (Tests.noted b).hasRecord 40 64 [0] = true ∧ (Tests.noted b).hasRecord 41 64 [0] = true
      ∧ (Tests.noted b).hasRecord 42 32 [0] = true ∧ (Tests.noted b).curCrew.ready = some ((Tests.noted b).recAt 40 0))
    ∧ Tests.records.operandsReady 2 0 (Tests.records.copied 40 64 0).1 = true
    ∧ (let s := (Tests.stash Tests.records 0x408 (leBytes 4 (2 ^ 31 + 32))).mapLanes [0] fun _ L =>
        L.setReg 32 { val := 0, tag := false, full := false }
      s.hasRecord 40 64 [0] = true ∧ s.operandsReady 2 0 (s.copied 40 64 0).1 = false)
    ∧ Tests.records.curCrew.ready ≠ some 0x400
    ∧ (mmaBlock (Tests.records.record 0x400 64)).ticket = 3 ∧ (dcorBlock (Tests.records.record 0x440 64)).ticket = 5
    ∧ (wbldBlock (Tests.records.record 0x480 32)).ticket = 6
    ∧ (∀ k ∈ [3, 5, 6], (Tests.noted false).curCrew.tickets.find k = none ∧ (Tests.noted true).curCrew.tickets.find k ≠ none)
    ∧ Tests.records.effective ≠ [] ∧ Tests.records.curCrew.mismatch.find (3 : BitVec 6).toNat = none
    ∧ (Tests.records.updCrew 2 0 fun C => { C with mismatch := [(3, 0)] }).curCrew.mismatch.find (3 : BitVec 6).toNat ≠ none
    ∧ (∀ b : Bool, (Tests.noted b).armed = false) := by decide +kernel

/-- What MRDY waited for is what MMA finds; an MMA that has waited for its ticket goes by the block it copied. -/
theorem witness_MatrixIssue_armed : (∀ b : Bool, (Tests.noted b).curCrew.readyBlock = ((Tests.noted b).copied 40 64 0).1)
    ∧ (∀ b : Bool, let s := (Tests.noted b).mapLanes [0] fun _ L => { L with did := some (.armed (Tests.records.record 0x400 64) true) }
      s.armed = true ∧ s.hasRecord 40 64 [0] = true ∧ s.copied 40 64 0 = (Tests.records.record 0x400 64, true)) := by decide +kernel

/-- A block that names register 32 now, and did not while MRDY waited for it. -/
theorem witness_MatrixIssue_breach : let s := Tests.stash (Tests.noted false) 0x408 (leBytes 4 (2 ^ 31 + 32))
    s.hasRecord 40 64 [0] = true ∧ s.armed = false ∧ s.curCrew.ready = some (s.recAt 40 0)
    ∧ s.curCrew.tickets.find (mmaBlock (s.copied 40 64 0).1).ticket = none ∧ (s.curCrew.lanes.find 0).any Lane.live = true
    ∧ 32 ∈ (mmaBlock (s.copied 40 64 0).1).readyFields 0 ∧ 32 ∉ (mmaBlock s.curCrew.readyBlock).readyFields 0
    ∧ (s.curLane 0).wbase + 32 < s.spanOf 2 := by decide +kernel

theorem witness_EngineIssue : Tests.records.ready [src 50 1 false] [] = true
    ∧ (∀ n ∈ [16, 32, 64, 128], recordOk (Tests.records.stashBanks 2) (Tests.records.recAt 50 0) n = false)
    ∧ Tests.records.hasRecord 43 128 [0] = true ∧ recordOk (Tests.records.stashBanks 2) (chainBlock (Tests.records.record 0x500 128)).bar 16 = true
    ∧ Tests.records.hasRecord 44 64 Tests.records.effective = true
    ∧ (∀ l ∈ Tests.records.effective, recordOk (Tests.records.stashBanks 2) (copyRec (Tests.records.record (Tests.records.recAt 44 l) 64)).bar 16 = true)
    ∧ Tests.records.hasRecord 45 32 Tests.records.effective = true ∧ (20 : RegF) ≠ zF
    ∧ (∀ l ∈ Tests.records.effective, fieldOf (Tests.records.record (Tests.records.recAt 45 l) 32) 16 4 ≤ 4
      ∧ zeroAt (Tests.records.record (Tests.records.recAt 45 l) 32) 20 12 = true)
    ∧ Tests.records.ready [] [] = true ∧ Tests.records.ready [src 48 1 false, src 51 1 false] [] = true
    ∧ Tests.records.hasRecord 48 16 Tests.records.effective = true ∧ Tests.records.hasRecord 49 16 Tests.records.effective = true
    ∧ Tests.records.jobs = []
    ∧ (Tests.records.effective.filter fun m => Tests.records.recAt 48 m == Tests.records.recAt 48 0).length = 1
    ∧ Tests.records.barFstate 2 0x700 = 0 ∧ (Tests.records.team 2).body.stash.num 0x700 4 ≠ 0
    ∧ Tests.records.barFstate 2 0x710 ≠ 0 ∧ (Tests.records.team 2).body.stash.num 0x710 4 = 0 := by decide +kernel

/-- BWAIT on an object at rest; a CHAIN, a KICK and a STRM with bad blocks. -/
theorem witness_EngineIssue_other :
    (let s := Tests.stash Tests.records 0x700 (leBytes 4 0)
      ∀ l ∈ s.effective, (s.team 2).body.stash.num (s.recAt 48 l) 4 = 0 ∧ s.barFstate 2 (s.recAt 48 l) = 0)
    ∧ recordOk 1 (chainBlock ((Tests.stash Tests.records 0x540 (leBytes 4 0x708)).record 0x500 128)).bar 16 = false
    ∧ recordOk 1 (copyRec ((Tests.stash Tests.records 0x5A8 (leBytes 4 0x10000)).record 0x580 64)).bar 16 = false
    ∧ fieldOf ((Tests.stash Tests.records 0x610 (leBytes 4 5)).record 0x600 32) 16 4 = 5 := by decide +kernel

theorem witness_EngineIssue_coll : Tests.records.hasRecord 46 64 [0] = true
    ∧ (let s := Tests.records
      let c := collBlock (s.record 0x640 64)
      let ms := s.scopeMembers 2 0 c.scope
      recordOk 1 c.bar 16 = true ∧ c.ok (rankCount ms) = true ∧ inSet ms s.chipno 0 = true ∧ s.barFstate 2 c.bar = 0
        ∧ (let d : DoneColl := { launch := (s.team 2).launch, members := ms, core := 0, ctl := BitVec.ofNat 32 c.ctl, seq := BitVec.ofNat 32 c.seq }
          s.doneColls.contains d = false ∧ ({ s with doneColls := [d] } : State).doneColls.contains d = true))
    ∧ (let s := Tests.stash Tests.records 0x654 (leBytes 4 4)
      let c := collBlock (s.record 0x640 64)
      recordOk 1 c.bar 16 = true ∧ c.ok (rankCount (s.scopeMembers 2 0 c.scope)) = false ∧ s.barAbsent 2 c.bar = none
        ∧ (let away := s.updBody 2 fun b => { b with
            windows := [(5, ({ cap := Tests.cap 0, first := 14, count := 1, tag := false } : Window))], absent := [14] }
          (collBlock (away.record 0x640 64)).ok (rankCount (away.scopeMembers 2 0 c.scope)) = false
            ∧ (away.barAbsent 2 c.bar).isSome = true))
    ∧ recordOk 1 (collBlock ((Tests.stash Tests.records 0x65C (leBytes 4 8)).record 0x640 64)).bar 16 = false := by decide +kernel

/-! ## Launches by teams -/

theorem witness_LaunchAndTeamWords : Tests.records.hasRecord 47 128 Tests.records.effective = true
    ∧ (∀ m ∈ Tests.records.effective, Tests.records.curCrew.watched m = false ∧ (Tests.records.curLane m).did = none)
    ∧ Tests.records.fenceOpen 2 0 .all Tests.records.cur.lanes = true
    ∧ (Tests.records.updCrew 2 0 fun C => { C with unacked := 1 }).fenceOpen 2 0 .all Tests.records.cur.lanes = false
    ∧ ((Tests.records.launchOf 2).map Launch.depth).getD 0 ≠ 10
    ∧ Tests.records.ready [src 50 1 false] [] = true ∧ (∃ m ∈ Tests.records.effective, recordOk (Tests.records.stashBanks 2) (Tests.records.recAt 50 m) 128 = false)
    ∧ (let s := Tests.records.updCrew 2 0 fun C => { C with watch := [(3, Tests.entry .pending)] }
      s.ready [src 47 1 false] [] = true ∧ ∃ m ∈ s.effective, s.curCrew.watched m = true)
    ∧ (let s : State := { Tests.records with launches := Tests.records.launches.mapVals fun _ L => { L with depth := 10 } }
      ((s.launchOf 2).map Launch.depth).getD 0 = 10)
    ∧ (∀ w ∈ Tests.records.waiters, w.team ≠ 2) ∧ Tests.records.effective = [0]
    ∧ (Tests.records.claimable (dieOf 0) 1).isSome = true
    ∧ (match Tests.records.examine 0 (some 2) (Tests.records.record 0x680 128) with
      | .ok _ x => decide (x.chips = [Tests.records.chipno])
      | _ => false) = true
    ∧ (match Tests.records.examine 0 (some 2) ((Tests.stash Tests.records 0x690 (leBytes 2 0)).record 0x680 128) with
      | .refused _ => true
      | _ => false) = true := by decide +kernel

/-- A die's queue with no entry left for depth 1. -/
theorem witness_LaunchAndTeamWords_full : let s : State := { Tests.records with
      claims := (List.range 1024).map fun k => { die := 0, entry := (if k = 0 then .reserved 1 else .general), launch := k + 9 } }
    s.claimable (dieOf 0) 1 = none := by decide +kernel

/-- TBAR with another fibre of the team still running, with all arriving, and with a write unacknowledged. -/
theorem witness_LaunchAndTeamWords_barrier :
    (∀ m ∈ Tests.parted.cur.lanes, Tests.parted.curCrew.watched m = false) ∧ Tests.parted.fenceOpen 2 0 .core Tests.parted.cur.lanes = true
    ∧ (let arrived := Tests.parted.mapLanes Tests.parted.cur.lanes fun _ L => { L with state := .parked .team, hints := {} }
      ∃ x ∈ (arrived.team 2).body.crews, ∃ y ∈ x.2.lanes, y.2.live = true ∧ y.2.atBarrier = false)
    ∧ (let arrived := Tests.pair.mapLanes Tests.pair.cur.lanes fun _ L => { L with state := .parked .team, hints := {} }
      (∃ x ∈ (arrived.team 2).body.crews, ∃ y ∈ x.2.lanes, y.2.live = true)
        ∧ ∀ x ∈ (arrived.team 2).body.crews, ∀ y ∈ x.2.lanes, y.2.live = true → y.2.atBarrier = true)
    ∧ (Tests.pair.updCrew 2 0 fun C => { C with unacked := 1 }).fenceOpen 2 0 .core Tests.pair.cur.lanes = false
    ∧ (Tests.pair.mapLanes [0, 1] fun _ L => { L with guard := some { q := 3, neg := false, left := 1 } }).effective = []
    ∧ (∃ m ∈ (Tests.watching .confirmed).cur.lanes, (Tests.watching .confirmed).curCrew.watched m = true) := by decide +kernel
/-! ## Replies and homes -/

/-- A state with one message in flight. -/
def Tests.flight (m : Msg) : State := { Tests.memory with msgs := [(7, m)], next := 50, ftime := 1000 }

def Tests.origin : Origin where
  team := 2
  crew := 0
  core := 0
  pc := 0
  word := 0
  ulen := 1
  before := []
  after := []
  uid := 9

/-- What fibre 0 takes from a line: register 20. -/
def Tests.part : Part where
  lane := 0
  dest := [some 20]
  off := 124
  size := 4
  signed := false
  tag := false
  cap := Tests.cap 0

def Tests.atom : AtomPart where
  lane := 0
  dest := [some 20]
  off := 124
  size := 4
  op := 0
  v := 1
  cmp := 0
  tag := false
  vtag := false
  ctag := false
  xchg := false

def Tests.crewWrite : Writer := .crew 2 0 0 [0] 9

theorem witness_ValueReplies :
    (let m : Msg := .readReply Tests.origin 0x8000 17 .acquire [Tests.part] Mem.empty none (5, 6) 8
      let s := Tests.flight m
      ((s.team 2).body.crews.find 0).isSome = true ∧ (s.crew 2 0).named = [] ∧ s.msgs.find 7 = some m ∧ s.firstAtCore m = true
        ∧ (∀ p ∈ [Tests.part], Mem.empty.poisonOf p.off p.size = false) ∧ ([0].filter (· == 0)).length = 1)
    ∧ (let p : Part := { Tests.part with stream := some 1 }
      let m : Msg := .readReply Tests.origin 0x8000 17 .plain [p] Mem.empty none (5, 6) 8
      let s := (Tests.flight m).mapLanes [0] fun _ L => { L with
        streams := [(1, { slot := 5, src := Tests.cap 0, stride := 4, count := 8, sz := 4, pos := 0 })] }
      (s.crew 2 0).named = [] ∧ s.msgs.find 7 = some m ∧ s.firstAtCore m = true ∧ ([p].filter fun q => q.lane == p.lane).length = 1
        ∧ ((s.lane 2 0 p.lane).streams.find 1).isSome = true)
    ∧ (∀ atom : Bool, (Tests.flight (.held Tests.origin 0 [some 20] 5 false atom)).msgs.find 7
      = some (.held Tests.origin 0 [some 20] 5 false atom))
    ∧ (let m : Msg := .atomicReply Tests.origin 0x8000 true [(0, [some 20], 5, false)] [(124, [6, 0, 0, 0], false)] (5, 6) false 8
      let s := Tests.flight m
      s.msgs.find 7 = some m ∧ (Tests.flight m).firstAtCore m = true)
    ∧ (∃ vals dz, (Tests.flight (.division 2 0 [(0, [some 20], 0, false)] [0])).msgs.find 7 = some (.division 2 0 vals dz))
    ∧ (∃ vals fl, (Tests.flight (.special 2 0 [(0, [some 20], 0, false)] [(0, flNX)])).msgs.find 7 = some (.special 2 0 vals fl))
    ∧ (let m : Msg := .ftime 2 0 [(0, [some 20, some 21], false)]
      let s := Tests.flight m
      s.msgs.find 7 = some m ∧ (Tests.flight m).firstFtime 7 2 0 [0] = true)
    ∧ (let m : Msg := .ack Tests.crewWrite 0x40007F [1] false 5 6 false 4 8
      let s := Tests.flight m
      s.msgs.find 7 = some m ∧ (Tests.flight m).firstAtCore m = true)
    ∧ (∀ w ∈ [Writer.window 2 0 0, .drain 2 0], let m : Msg := .backAck w 0x8000 Mem.empty 5 6 false 8
      (Tests.flight m).msgs.find 7 = some m ∧ (Tests.flight m).firstAtCore m = true)
    ∧ (let m : Msg := .engineAck 0 0x8000 64 [1] [true] 8
      (Tests.flight m).msgs.find 7 = some m ∧ (Tests.flight m).firstAtCore m = true) := by
  refine ⟨by decide +kernel, by decide +kernel, by decide +kernel, by decide +kernel, ⟨_, _, rfl⟩, ⟨_, _, rfl⟩, by decide +kernel,
    by decide +kernel, by decide +kernel⟩

theorem witness_HomePerforms : let m17 := Tests.memory.mem
    (∀ k ∈ [LoadKind.plain, .acquire], let m : Msg := .read Tests.origin 0x8000 17 k [Tests.part]
      let s := Tests.flight m
      s.msgs.find 7 = some m ∧ s.firstAtHome 7 m = true ∧ s.forwarded 0x400000 = 0x400000 ∧ s.lostHome 0x400000 = false
        ∧ s.readBlocked (0x400000 + 124) 4 = none ∧ s.halfFree 0x8000 0 = true ∧ s.halfFree 0x8000 1 = true)
    ∧ (let m : Msg := .read Tests.origin 0x8000 17 .plain [Tests.part]
      let s : State := { Tests.flight m with dir := [(0x8000, { host1 := .HS })] }
      s.msgs.find 7 = some m ∧ s.firstAtHome 7 m = true ∧ s.readBlocked (0x400000 + 124) 4 = none
        ∧ 1 ∈ halvesOf 124 4 ∧ s.halfFree 0x8000 1 = false)
    ∧ (let m : Msg := .write Tests.crewWrite 0x40007F [1] true
      let s := Tests.flight m
      s.msgs.find 7 = some m ∧ s.firstAtHome 7 m = true ∧ s.writeBlocked 0x40007F 1 = none ∧ s.ownerData 0x8000 = [])
    ∧ Tests.memory.outside.errs = []
    ∧ (let m : Msg := .read Tests.origin 0x8000 17 .plain [Tests.part]
      let s : State := { Tests.flight m with mem := m17.setBytes (fetchTable + 32 * 17 + 8) (leBytes 4 (2 ^ 31 + 13 * 2 ^ 27 + 2 ^ 26)) }
      s.msgs.find 7 = some m ∧ s.firstAtHome 7 m = true ∧ s.readBlocked (0x400000 + 124) 4 = none ∧ (s.objEntry 0 17).imm = true
        ∧ s.liveLaunches 0 ≠ [] ∧ s.halfFree 0x8000 0 = true
        ∧ ({ s with launches := [] } : State).liveLaunches 0 = [] ∧ ({ s with launches := [] } : State).lostHome 0x400000 = false)
    ∧ (let m : Msg := .back (.drain 2 0) 0x8000 Mem.empty true
      let s := Tests.flight m
      s.msgs.find 7 = some m ∧ s.firstAtHome 7 m = true ∧ s.lostHome 0x400000 = false ∧ s.backBlocked 0x8000 = none)
    ∧ (let addr := 0x400040
      let data := List.replicate 64 (9 : Byte)
      data ≠ [] ∧ addr / 128 = (addr + data.length - 1) / 128 ∧ addressed addr = true ∧ addressed (addr + data.length) = true
        ∧ isHost addr = false ∧ Tests.memory.hostReturns addr data.length = false ∧ Tests.memory.writeBlocked addr data.length = none)
    ∧ (let m : Msg := .atomic Tests.origin 0x8000 false false [Tests.atom]
      let s := Tests.flight m
      s.msgs.find 7 = some m ∧ s.firstAtHome 7 m = true ∧ s.writeBlocked (0x400000 + 124) 4 = none
        ∧ (∀ p ∈ [Tests.atom], (s.homeMem 0x8000).poisonOf (0x400000 + p.off) p.size = false ∧ p.off + p.size ≤ 128)
        ∧ (({ s with mem := { s.mem with poison := [4 * 0x8000 + 3] } } : State).homeMem 0x8000).poisonOf (0x400000 + 124) 4 = true) := by
  decide +kernel

theorem witness_ArrayErrors :
    (let m : Msg := .read Tests.origin 0x8000 17 .acquire [Tests.part]
      let s := Tests.flight m
      s.msgs.find 7 = some m ∧ s.firstAtHome 7 m = true ∧ s.forwarded 0x400000 = 0x400000 ∧ s.lostHome 0x400000 = false
        ∧ s.readBlocked (0x400000 + 124) 4 = none ∧ (s.dirOf 0x8000).state ≠ .O ∧ (s.dirOf 0x8000).state ≠ .M
        ∧ s.own 0x400000 = true ∧ isDeep (localOf 0x400000) = true ∧ s.llc.find 0x8000 = none
        ∧ (s.spares.find (17 * 0 + 803 / 64)).getD 0 < 2 ∧ (s.bank 24).status.getLsbD 63 = false
        ∧ (s.bank 24).ctl.getLsbD 0 = true)
    ∧ 2 ≤ (({ State.reset with spares := [(12, 2)] } : State).spares.find (17 * 0 + 803 / 64)).getD 0 := by decide +kernel

/-- A line owned by team 2, whose window holds it; dirty or not; with what waits for it. -/
def Tests.owned (st : DirState) (ms : AMap Msg) : State :=
  { Tests.windowed [2] with
    dir := [(0x8000, { state := st, owner := some { dev := 0, core := 0, slot := 0 }, sha := [1], shb := [0], hnear := 1000
                       hfar := 2000, version := 4 })]
    msgs := ms
    next := 50
    ftime := 999 }

/-- The same line owned by a core of device 5, which a port reaches. -/
def Tests.away (ms : AMap Msg) : State :=
  { Tests.owned .M ms with
    dir := [(0x8000, { state := .M, owner := some { dev := 5, core := 0, slot := 0 } })]
    routes := [(5, [(0, true)])] }

theorem witness_DirectoryEvents :
    (∃ d, (Tests.owned .O []).dir.find 0x8000 = some d ∧ (Tests.owned .O []).ftime < d.hnear ∧ (Tests.owned .O []).ftime < d.hfar
      ∧ d.state ≠ .migrating ∧ d.host0 = .HI ∧ d.host1 = .HI)
    ∧ (∃ d, ({ Tests.owned .M [] with ftime := 2000 } : State).dir.find 0x8000 = some d ∧ d.hnear ≤ 2000 ∧ d.hfar ≤ 2000)
    ∧ (Tests.owned .O []).migratingLine 0x8000 = false ∧ (Tests.owned .O []).backDue 0x8000 = false
    ∧ (Tests.owned .O [(7, .write Tests.crewWrite 0x400000 [1] false)]).wanted 0x8000 true = true
    ∧ (Tests.owned .M [(7, .read Tests.origin 0x8000 17 .plain [Tests.part])]).wanted 0x8000 false = true
    ∧ (Tests.owned .M []).ownerLines 0x8000 = [(2, 2)] ∧ (Tests.owned .M []).ownedAway 0x8000 true = false
    ∧ (Tests.owned .M []).lostHome 0x400000 = false ∧ (Tests.owned .M []).outside.errs = []
    ∧ (Tests.away [(7, .write Tests.crewWrite 0x400000 [1] false)]).wanted 0x8000 true = true
    ∧ (Tests.away []).ownedAway 0x8000 true = true ∧ (Tests.away []).backDue 0x8000 = false ∧ (Tests.away []).recalls.contains (0x8000, true) = false
    ∧ ((Tests.away []).dirOf 0x8000).owner = some { dev := 5, core := 0, slot := 0 } ∧ (5 : Nat) ≠ (Tests.away []).chipno
    ∧ (let m : Msg := .dirty 0x8000 0 0 0
      let s := Tests.owned .E [(7, m)]
      s.msgs.find 7 = some m ∧ (Tests.owned .E [(7, m)]).firstAtHome 7 m = true) := by
  refine ⟨⟨_, rfl, by decide +kernel, by decide +kernel, by decide +kernel, by decide +kernel, by decide +kernel⟩,
    ⟨_, rfl, by decide +kernel, by decide +kernel⟩, by decide +kernel⟩

theorem witness_WatchAndFills :
    (let m : Msg := .check 2 0 3 9 0x8000 4 0
      let s := Tests.owned .E [(7, m)]
      s.msgs.find 7 = some m ∧ (Tests.owned .E [(7, m)]).migratingLine 0x8000 = false)
    ∧ (let s : State := { Tests.watching .pending with msgs := [(7, .checkReply 2 0 3 9 true)] }
      s.msgs.find 7 = some (.checkReply 2 0 3 9 true) ∧ (s.crew 2 0).watch.find 3 = some (Tests.entry .pending))
    ∧ (let s : State := { Tests.windowed [] with msgs := [(7, .stashFill 2 3 0x400080)] }
      s.msgs.find 7 = some (.stashFill 2 3 0x400080)
        ∧ (s.team 2).body.windowOf 3 = some { cap := Tests.cap 0, first := 2, count := 4, tag := false }
        ∧ (s.team 2).resident = true ∧ (s.team 2).body.absent.contains 3 = true
        ∧ s.windowAddr 2 { cap := Tests.cap 0, first := 2, count := 4, tag := false } 3 = some 0x400080
        ∧ s.firstAtHome 7 (.stashFill 2 3 0x400080) = true ∧ s.lostHome 0x400080 = false ∧ s.writeBlocked 0x400080 128 = none
        ∧ (s.dirOf 0x8001).owner = none)
    ∧ (let s : State := { Tests.windowed [] with msgs := [(7, .stashFill 2 2 0x400000)] }
      s.msgs.find 7 = some (.stashFill 2 2 0x400000) ∧ (s.team 2).body.absent.contains 2 = false)
    ∧ (let s := Tests.flight (.fill 0 0 16 0 0 [])
      s.msgs.find 7 = some (.fill 0 0 16 0 0 []) ∧ s.lostHome 0 = false ∧ s.readBlocked 0 128 = none
        ∧ s.teams.find 2 = some (s.team 2) ∧ (s.team 2).resident = true ∧ dieOf (s.team 2).core = 0 ∧ s.teamCtx 2 = 0
        ∧ capObj (s.codeOf 2) = 16 ∧ (s.mem.slice 0 128).poisoned 0 = false) := by decide +kernel

/-- A page motion of object 17's frame from 0x400000 to 0x600000. -/
def Tests.motion (frozen : Bool) (bits migrating : List Nat) (rounds : Nat) : Motion where
  ctx := 0
  obj := 17
  frame := 0
  src := 0x400000
  dst := 0x600000
  loc := 3
  all := false
  snap := [0x8000]
  bits := bits
  rounds := rounds
  frozen := frozen
  migrating := migrating
  word := 0
  place := 0x1000

theorem witness_HostCoherence :
    (let line := 2 ^ 57 / 128
     isHost (128 * line) = true ∧ (∀ w ∈ Tests.memory.hostWaits, ¬(w.1 = line ∧ w.2.1 = 1 ∧ w.2.2.1 = true))
        ∧ Tests.memory.backDue line = false ∧ (∀ e, Tests.memory.ownedAway line e = false) ∧ Tests.memory.outside.errs = [])
    ∧ (Tests.owned .M []).ownedAway 0x8000 true = false
    ∧ (∀ h ∈ [0, 1], (Tests.owned .M []).ownLine 0x8000 h = true ∧ (Tests.owned .M []).snooping 0x8000 h = false)
    ∧ (Tests.owned .M []).migratingLine 0x8000 = false ∧ (Tests.owned .M []).backDue 0x8000 = false
    ∧ (Tests.owned .M []).ftime < max ((Tests.owned .M []).dirOf 0x8000).hnear ((Tests.owned .M []).dirOf 0x8000).hfar
    ∧ isHost (128 * (Tests.owned .M []).forwarded (128 * 0x8000) / 128) = false ∧ (Tests.owned .M []).hostWaits = []
    ∧ ({ Tests.memory with motion := some (Tests.motion true [] [0x8000] 8) } : State).migratingLine 0x8000 = true
    ∧ ({ Tests.memory with hostWaits := [(0x8000, 1, true, 2000)] } : State).hostClaims 0x8000 (halvesOf 64 4) = true
    ∧ max (Tests.memory.dirOf 0x8000).hnear (Tests.memory.dirOf 0x8000).hfar ≤ Tests.memory.ftime
    ∧ (let s : State := { Tests.memory with hostWaits := [(0x8000, 1, true, 0)] }
      s.hostWaits.find? (fun w => w.1 == 0x8000 && w.2.1 == 1 && w.2.2.1 == true) = some (0x8000, 1, true, 0) ∧ 0 ≤ s.ftime
        ∧ s.ownLine 0x8000 1 = true ∧ s.snooping 0x8000 1 = false)
    ∧ (let s : State := { Tests.memory with snoops := [(0x8000, 0, true)] }
      s.snooping 0x8000 0 = true ∧ s.forwarded (128 * 0x8000 + 64 * 0) = 128 * 0x8000 + 64 * 0 ∧ s.hostWaits = []
        ∧ s.backDue 0x8000 = false ∧ isHost (128 * 0x8000) = false) := by decide +kernel

/-! ## Registers and commands -/

/-- Reset with queue 0 of context 0 enabled. -/
def Tests.enabled : State := State.reset.updCtx 0 fun X => { X with queues := [(0, { en := true, log2n := 4 })] }

/-- The boot tables give and deny each block; registers at the ends of their ranges. -/
theorem witness_HostRegisters :
    (let s : State := { State.reset with access := State.reset.access.filter fun x => x.1 != 0 }
     s.mayWrite 0 .hostVf = false)
    ∧ State.reset.mayWrite 0 .hostVf = true ∧ State.reset.mayWrite 0 .host = false ∧ State.reset.mayWrite 1 .mgmt = false
    ∧ State.reset.mayWrite 2 .mgmt = false ∧ State.reset.mayWrite 5 .host = false ∧ State.reset.mayWrite 0 .jasper = true
    ∧ State.reset.mayWrite 1 .host = true ∧ State.reset.mayWrite 2 .host = true ∧ State.reset.mayWrite 5 .jasper = true
    ∧ ((0, DevReg.qHead 0 0) ∈ [(0, DevReg.qHead 0 0), (0, .ctxState 0), (1, .mbStat), (2, .mcAddr 54), (2, .mcInfo 54)])
    ∧ (Tests.enabled.ctx 0).queue 0 = { en := true, log2n := 4 } ∧ Tests.enabled.mayWrite 0 .hostVf = true
    ∧ State.reset.mailbox.busy = false ∧ ({ State.reset with held := false } : State).held = false
    ∧ ({ State.reset with held := true } : State).held = true
    ∧ (State.reset.rightsOf 3 (Master.code .host)).getLsbD 2 = true ∧ (State.reset.rightsOf 4 (Master.code .hostVf)).getLsbD 2 = false
    ∧ ({ State.reset with mailbox := { busy := true } } : State).mailbox.busy = true
    ∧ (0x110 : Word).getLsbD 31 = false ∧ (0x80000010 : Word).getLsbD 31 = true ∧ ((State.reset.ctx 63).queue 15).en = false
    ∧ ((State.reset.ctx 63).queue 15).held = [] ∧ (1 : DWord).setWidth 32 = (1 : Word) ∧ (2 : DWord).setWidth 32 ≠ (1 : Word) := by
  decide +kernel

/-- Queue 0 of context 0: 16 slots at the start of object 17, completions after them; one record waits at the head. -/
def Tests.queued (kind : Nat) : State :=
  let bytes := leBytes 1 4 ++ leBytes 1 kind ++ List.replicate 126 0 ++ (if kind = 1 then Tests.records.record 0x680 128 else [])
  let s := { Tests.memory with mem := Tests.memory.mem.setBytes 0x400000 bytes }
  s.updCtx 0 fun X => { X with queues := [(0, { ring := Tests.cap 0, cpl := Tests.cap 4096, en := true, log2n := 4, tail := 1 })] }

def Tests.record (kind : Nat) : Record where
  ctx := 0
  q := 0
  slot := 15
  bytes := leBytes 1 4 ++ leBytes 1 kind ++ List.replicate 126 0 ++ (if kind = 1 then Tests.records.record 0x680 128 else List.replicate 128 0)
  ready := 0

def Tests.taken (r : Record) : State := { Tests.memory with records := [(7, r)] }

theorem witness_CommandRecords : (Tests.queued 0).fatal = false ∧ (Tests.queued 0).held = false ∧ (Tests.queued 0).turn 0 = some (0, 0)
    ∧ (match (Tests.queued 0).readRange 0 (capWith (Tests.cap 0) 0) 256 needR with
      | .ok _ _ => true
      | _ => false) = true
    ∧ (match (Tests.queued 0).readRange 0 (capWith (Tests.cap 0) (2 ^ 21 - 255)) 256 needR with
      | .fail _ => true
      | _ => false) = true
    ∧ (∀ k ∈ [0, 1, 2, 3], (Tests.taken (Tests.record k)).records.find 7 = some (Tests.record k) ∧ (Tests.record k).kind = k
      ∧ (Tests.record k).ready ≤ (Tests.taken (Tests.record k)).ftime
      ∧ (∀ x ∈ (Tests.taken (Tests.record k)).records, 7 ≤ x.1)
      ∧ 1 ≤ fieldOf (Tests.record k).bytes 0 1 ∧ fieldOf (Tests.record k).bytes 0 1 ≤ 4 ∧ zeroAt (Tests.record k).bytes 2 2 = true
      ∧ zeroAt (Tests.record k).bytes 8 120 = true ∧ (k ≠ 1 → zeroAt (Tests.record k).bytes 128 128 = true))
    ∧ ¬(1 ≤ fieldOf (leBytes 1 0) 0 1) ∧ ¬(fieldOf (leBytes 1 5) 0 1 ≤ 4)
    ∧ (Tests.taken (Tests.record 1)).fatal = false ∧ (Tests.memory.ctx 0).state = .active ∧ (Tests.memory.ctx 1).state ≠ .active
    ∧ (∃ x ∈ Tests.memory.launches, x.2.source = .host 0 0 0 0 ∧ x.2.ended = false)
    ∧ (∀ x ∈ State.reset.launches, x.2.ended = true)
    ∧ (match (Tests.record 1).v4 with
      | some b => (match (Tests.taken (Tests.record 1)).examine 0 none b with
        | .ok _ x => decide (x.chips = [(Tests.taken (Tests.record 1)).chipno])
        | _ => false)
      | none => false) = true := by decide +kernel

/-- A LAUNCH in the layout of version 3 whose bytes past it are not 0. -/
theorem witness_CommandRecords_version : (({ Tests.record 1 with
    bytes := leBytes 1 3 ++ leBytes 1 1 ++ List.replicate 126 0 ++ List.replicate 128 1 } : Record).v4) = none := by decide +kernel
/-! ## Teams and spans -/

/-- A launch of one fibre with the given phase, source and chips; its team is 2. -/
def Tests.launch (phase : Phase) (source : Source) (chips : List Nat) : Launch :=
  { fetchLaunch 0 with phase := phase, source := source, chips := chips, gen := 7, block := { (fetchLaunch 0).block with gx := chips.length } }

def Tests.launched (L : Launch) (f : Team → Team) : State :=
  { Tests.memory with launches := [(1, L)], teams := Tests.memory.teams.mapVals fun _ T => f T, ftime := 5000 }

def Tests.host : Source := .host 0 0 0 0

/-- A pending team with room for it on core 0 only, and with none anywhere. -/
theorem witness_TeamLife_place :
    (let s : State := { (Tests.launched { Tests.launch .running Tests.host [0] with pending := [0] } id) with teams := [] }
     let s := (s.updCtx 0 fun X => { X with allot := [0] }).updCore 0 fun K => { K with onyxDue := 10 ^ 9 }
     let L := (s.launches.find 1).getD (fetchLaunch 0)
     L.phase = .running ∧ L.evicted = [] ∧ L.lastCore < 320 ∧ s.fatal = false ∧ s.held = false ∧ L.pending = [0]
       ∧ (∀ x ∈ s.launches, x.1 ≠ 1 → x.2.phase ≠ .running ∨ x.2.pending = [])
       ∧ 0 ∈ s.allotted L.ctx ∧ (s.core 0).withheld = none ∧ (s.core 0).testing = none ∧ s.ftime < max (s.core 0).onyxDue (s.core 0).onyxFree
       ∧ L.block.fits (s.heldBlocks 0) = true
       ∧ s.allotted L.ctx = [0]
       ∧ (s.setCore 0 { s.core 0 with offline := true }).allotted L.ctx = []) := by decide +kernel

theorem witness_TeamLife :
    (let s := Tests.launched (Tests.launch .running Tests.host [0]) fun T => { T with state := .starting, packet := false }
     s.teams.find 2 = some (s.team 2) ∧ (s.launches.find (s.team 2).launch).isSome = true ∧ (s.team 2).state = .starting
       ∧ (s.team 2).packet = false ∧ (s.team 2).body.crews.find 0 = some (s.crew 2 0))
    ∧ (Tests.launched (Tests.launch .running Tests.host [0]) fun T => { T with state := .starting, packet := true }).teams.length = 1
    ∧ (let s := (Tests.launched (Tests.launch .running Tests.host [0]) id).updCore 0 fun K => { K with regroupDue := true }
      (s.core 0).regroupDue = true ∧ (s.team 2).core = 0 ∧ (s.team 2).state = .running ∧ (s.team 2).consumed = false)
    ∧ (∀ d ∈ [[], [2]], let s : State := { Tests.windowed d with teams := (Tests.windowed d).teams.mapVals fun _ T => { T with state := .draining } }
      (s.team 2).state = .draining ∧ (s.team 2).drained = false ∧ s.homeFails 2 2 = none ∧ s.drainDue 2 = false
        ∧ ((s.team 2).body.windowOf 2).isSome = true ∧ (s.launches.find (s.team 2).launch).isSome = true
        ∧ (s.team 2).consumed = false ∧ (∀ x ∈ (s.team 2).body.crews, x.2.tickets = [] ∧ x.2.mismatch = []))
    ∧ (let s := Tests.launched (Tests.launch .running Tests.host [0]) fun T => { T with state := .draining }
      let s := s.updCrew 2 0 fun C => { C with mismatch := [(3, 0)] }
      (s.team 2).unreported ≠ [] ∧ s.drainDue 2 = false ∧ (s.crew 2 0).tickets = []
        ∧ (Tests.launch .running Tests.host [0]).phase = .running ∧ (Tests.launch .running Tests.host [0]).chips = [s.chipno])
    ∧ (let s := Tests.launched (Tests.launch .running Tests.host [0]) fun T => { T with state := .draining, drained := true }
      (s.team 2).state = .draining ∧ (s.team 2).drained = true ∧ (s.team 2).consumed = false ∧ (s.team 2).children = 0 ∧ (s.team 2).gall ≤ s.ftime
        ∧ ∀ x ∈ (s.team 2).body.crews, x.2.unacked = 0 ∧ x.2.gall ≤ s.ftime)
    ∧ (let s : State := Tests.launched (Tests.launch .running Tests.host [0]) id
      let s : State := { s with launches := (0, { Tests.launch .running Tests.host [0] with pending := [0] }) :: s.launches }
      let s := s.updCtx 0 fun X => { X with allot := [0], save := 0x400000, savelen := 2 ^ 30 }
      let s := s.updTeam 2 fun T => { T with children := 1 }
      let s := s.mapLanes s.cur.lanes fun _ L => { L with state := .parked (.children 90) }
      s.canSave 2 = true ∧ s.makesRoom 2 = true ∧ s.saveFits 2 (s.saveBytes 2) = true ∧ ((s.launches.find (s.team 2).launch).map fun L => L.block.cores) = some false)
    ∧ (∀ wakes : Bool, let s := Tests.launched (Tests.launch .running Tests.host [0]) fun T => { T with state := .evicted, meddled := false }
      let s := (s.mapLanes s.cur.lanes fun _ L => { L with
        state := .parked (if wakes then .regs [] else .barrier 0x700) }).updCore 319 fun K => { K with onyxDue := 10 ^ 9 }
      let s := Tests.stash s 0x700 (leBytes 4 1)
      let s : State := { s with launches := s.launches.mapVals fun _ M => { M with evicted := [2] } }
      let L := (s.launches.find 1).getD (fetchLaunch 0)
      s.wakeable 2 = wakes ∧ s.turnOf 1 = true ∧ ((s.itemsOf L).head? = some (s.team 2).index ↔ wakes = true)
        ∧ (s.team 2).meddled = false ∧ s.ftime < max (s.core 319).onyxDue (s.core 319).onyxFree ∧ (s.team 2).state = .evicted ∧ L.ended = false ∧ s.fatal = false ∧ 319 ∈ s.allotted L.ctx ∧ (s.core 319).withheld = none
        ∧ (s.core 319).testing = none ∧ L.block.fits (s.heldBlocks 319) = true ∧ L.block.cores = false ∧ (s.team 2).owed = []) := by
  decide +kernel

/-- A drain whose window no longer lies in its object. -/
theorem witness_TeamLife_lost :
    let s : State := { Tests.windowed [2] with teams := (Tests.windowed [2]).teams.mapVals fun _ T => { T with state := .draining } }
    let s := s.updBody 2 fun b => { b with windows := [(5, { cap := Tests.cap (2 ^ 21), first := 2, count := 4, tag := false })] }
    2 ∈ (s.team 2).body.dirty ∧ (s.homeFails 2 2).isSome = true ∧ (s.launchOf 2).all (fun L => !L.ended && L.chips == [0]) = true := by
  decide +kernel

/-- The launch of a span of chips 0 and 5, with one message in. -/
def Tests.span (phase : Phase) (source : Source) (m : LinkMsg) : State :=
  { Tests.launched (Tests.launch phase source [0, 5]) id with linkIn := [(8, m)] }

theorem witness_SpanProtocol :
    (∀ x ∈ ([(.asking [5] 6000, Tests.host, .spanReply 0 7 5 1), (.asking [5, 6] 5000, Tests.host, .spanReply 0 7 5 2),
        (.answered, .span 5, .spanStart 0 7 5 9000), (.answered, .span 5, .spanAbort 0 7 5), (.armed 5000, .span 5, .spanAbort 0 7 5), (.armed 5001, Tests.host, .stop 0 7 5),
        (.stopping [5] 5000 6, Tests.host, .stopped 0 7 5), (.stopping [5, 6] 5001 6, Tests.host, .stopped 0 7 5)] :
        List (Phase × Source × LinkMsg)), let s := Tests.span x.1 x.2.1 x.2.2
      s.linkIn.find 8 = some x.2.2 ∧ s.launches.find 1 = some (Tests.launch x.1 x.2.1 [0, 5]) ∧ (Tests.launch x.1 x.2.1 [0, 5]).ctx = 0
        ∧ (Tests.launch x.1 x.2.1 [0, 5]).gen.toNat = 7 ∧ (Tests.launch x.1 x.2.1 [0, 5]).ended = false
        ∧ (∀ y ∈ s.launches, y.1 = 1 ∧ y.2 = Tests.launch x.1 x.2.1 [0, 5])
        ∧ (Tests.launch x.1 x.2.1 [0, 5]).retired < (chipTeams (Tests.launch x.1 x.2.1 [0, 5]).block [0, 5] s.chipno).length)
    ∧ [5].erase 5 = [] ∧ [5, 6].erase 5 ≠ [] ∧ ([0, 5].filter (· != 0)) ≠ []
    ∧ ({ Tests.span (.armed 5001) Tests.host (.stop 0 7 5) with routes := [(5, [(0, true)])] } : State).lost 5 = false ∧ (Tests.memory.ftime < 5000) := by decide +kernel

/-- A block of another chip's launch that is accepted, and one that is not. -/
theorem witness_SpanProtocol_block :
    (let t := Tests.stash (Tests.stash (Tests.stash Tests.records 0x690 (leBytes 2 2)) 0x6BA (leBytes 1 2)) 0x6C0 (leBytes 8 0)
     (match Tests.memory.examineAs 5 0 (fun s cap n => s.readSent 0 ([5, 0].flatMap (leBytes 2)) cap n) (t.record 0x680 128) with
       | .ok _ _ => true
       | _ => false) = true)
    ∧ (match Tests.memory.examineAs 5 0 (fun s cap n => s.readSent 0 [] cap n) (List.replicate 128 0) with
      | .refused _ => true
      | _ => false) = true := by decide +kernel

theorem host_is_no_span : ∀ c, Tests.host ≠ .span c := by intro c h; cases h

/-! ## Self-test and page motion -/

theorem witness_OnyxSlices :
    (∀ n ∈ [0, 319], (Tests.memory.core n).withheld = none ∧ (Tests.memory.core n).testing = none ∧ (Tests.memory.core n).offline = false)
    ∧ (let s := Tests.memory.updCore 1 fun K => { K with onyxDue := 0 }
      max (s.core 1).onyxDue (s.core 1).onyxFree ≤ s.ftime ∧ (s.core 1).withheld = none ∧ (s.core 1).testing = none)
    ∧ (let s := Tests.memory.updCore 1 fun K => { K with withheld := some 0 }
      (s.core 1).withheld = some 0 ∧ s.ftime < 0 + 60000000000 ∧ ∀ x ∈ s.teams, x.2.core = 1 → x.2.state = .retired ∨ x.2.state = .evicted)
    ∧ Tests.memory.ftime < ((Tests.memory.updCore 0 fun K => { K with onyxDue := 1 }).core 0).onyxDue
    ∧ (let s : State := { (Tests.memory.updCore 1 fun K => { K with withheld := some 0 }) with ftime := 60000000000 }
      (s.core 1).withheld = some 0 ∧ (∀ x ∈ s.teams, x.2.core ≠ 1) ∧ 0 + 60000000000 ≤ s.ftime ∧ (s.core 1).onyxDue ≤ s.ftime)
    ∧ (let s := Tests.memory.updCore 0 fun K => { K with withheld := some 0 }
      (s.core 0).withheld = some 0 ∧ (∃ x ∈ s.teams, x.2.core = 0 ∧ x.2.state ≠ .retired ∧ x.2.state ≠ .evicted)
        ∧ s.ftime < 0 + 60000000000)
    ∧ (∀ now ∈ [49999, 50000], let s : State := { (Tests.memory.updCore 1 fun K => { K with testing := some 0 }) with ftime := now }
      (s.core 1).testing = some 0 ∧ (s.ftime < 0 + 50000 ↔ now = 49999)) := by decide +kernel

theorem witness_PageMotion : Tests.memory.mem.wf = true ∧ 0x400000 % Config.frameBytes = 0 ∧ 0x600000 % Config.frameBytes = 0
    ∧ (let m := Tests.motion false [] [] 6
      (∀ x ∈ m.snap, m.src ≤ 128 * x ∧ 128 * x < m.src + Config.frameBytes) ∧ m.bits.length ≤ 64 ∧ m.src / 128 + 0 ∈ m.snap)
    ∧ (let m := Tests.motion false (List.range' 0x8000 65) [] 6
      64 < m.bits.length ∧ m.rounds + 1 ≠ 8)
    ∧ (let m := Tests.motion true [] [0x8000, 0x8000 + 16383] 8
      m.src / 128 + 16383 ∈ m.migrating ∧ (16383 : Nat) < 16384)
    ∧ (Tests.memory.dirOf 0x8000).host0 = .HI ∧ (Tests.memory.dirOf 0x8000).host1 = .HI
    ∧ (({ Tests.memory with dir := [(0x8000, { host0 := .HE })] } : State).dirOf 0x8000).host0 ≠ .HI
    ∧ Tests.memory.writesBlocked ((Tests.motion false [] [] 6).snap.map fun x =>
        (128 * (0x600000 / 128 + (x - 0x400000 / 128)), 128)) = none
    ∧ Tests.memory.backDue 0x8000 = false ∧ Tests.memory.writeBlocked (0x600000 + 128 * 16383) 128 = none
    ∧ Tests.memory.writesBlocked (linePieces 2 (Tests.motion true [] [] 8).place 8) = none
    ∧ (Tests.motion true [] [] 8).migrating = [] := by decide +kernel

/-! ## What the engines do -/

/-- Team 2's copy list, chain and load of weights as they run in the engines. -/
def Tests.running (j : Job) : State := { Tests.records with jobs := [(9, j)], ftime := 500 }

def Tests.copyBytes : List Byte := Tests.records.record 0x580 64
def Tests.chainBytes : List Byte := Tests.records.record 0x500 128

/-- The copy list as KICK leaves it, with its record read or not. -/
def Tests.list (recs : Option (List (List Byte × Bool))) (started : Bool) (uncounted : List (Nat × Nat × Nat))
    (short : Option (Nat × DWord × Nat)) : CopyRun :=
  { team := 2, crew := 0, core := 0, addr := 0x580, b0 := 0x700, tag := false, recs, started, uncounted, short }

def Tests.copying : CopyRun := Tests.list (some [(Tests.copyBytes, false)]) true [] none

theorem witness_CopyAndChainChunks :
    (let s := Tests.running (.copy Tests.copying)
     let r := copyRec Tests.copyBytes
     s.jobs.find 9 = some (.copy Tests.copying) ∧ Tests.copying.record.1 = Tests.copyBytes ∧ Tests.copying.idx < 1
       ∧ s.countersLow = true ∧ s.crewQuiet 2 0 9 = true ∧ (s.teams.find 2).isSome = true ∧ recordOk (s.stashBanks 2) r.bar 16 = true
       ∧ (s.team 2).body.absent.contains (r.bar / 128) = false ∧ r.ok (s.stashBanks 2) = true ∧ r.conv = false ∧ r.dstash = false
       ∧ 4096 * 0 < r.total ∧ r.chunk 0 = [((capOff r.src : Int), (capOff r.dst : Int), 0, 64)]
       ∧ (match s.pieces 2 r.src (capOff r.src) 64 needR, s.pieces 2 r.dst (capOff r.dst) 64 needW with
         | .ok ps, .ok [p] => (match s.engineRead 2 r.coversLine ps, p.loc with
           | .ok u _ none, .mem a .. => decide (u.lostHome (u.forwarded a) = false ∧ u.writeBlocked a p.len = none)
           | _, _ => false)
         | _, _ => false) = true
       ∧ (∀ o ∈ outOffsets (capOff r.dst) 0 64, r.ownSource o = false) ∧ s.barFstate 2 r.bar = 0
       ∧ s.listed 2 256 0x580 = some [(Tests.copyBytes, false)])
    ∧ ((((List.range 8).map fun i => (i, 900, 1)).map Prod.fst).eraseDups).length = 8
    ∧ (Tests.list none false [] none).recs = none
    ∧ (copyRec (List.replicate 64 1)).ok 1 = false ∧ recordOk 1 (copyRec (List.replicate 64 1)).bar 16 = false := by decide +kernel

theorem witness_CopyAndChainChunks_chain :
    (let s := Tests.running (.chain 2 0 0 0x500 Tests.chainBytes false 0 [] 0 none)
     let b := chainBlock Tests.chainBytes
     b.ok = true ∧ 4096 * 0 < b.total ∧ b.ops.any opSel1 = false ∧ (s.team 2).body.absent.contains (b.bar / 128) = false
       ∧ (match s.pieces 2 b.src0 (capOff b.src0 + 0) (32 * elemBytes b.s0) needR, s.pieces 2 b.dst (capOff b.dst + 0) (32 * elemBytes b.df) needW with
         | .ok ps, .ok [p] => (match s.engineRead 2 (fun _ => false) ps, p.loc with
           | .ok u _ none, .mem a .. => decide (u.lostHome (u.forwarded a) = false ∧ u.writeBlocked a p.len = none)
           | _, _ => false)
         | _, _ => false) = true
       ∧ (∀ o ∈ outOffsets (capOff b.dst) 0 (32 * elemBytes b.df), b.ownSource o = false))
    ∧ (chainBlock (List.replicate 128 1)).ok = false := by decide +kernel

/-- Counts that come due, the last of them at REMAIN 64, and a fault with none left. -/
theorem witness_CopyAndChainChunks_counts :
    (let job (l : List (Nat × Nat × Nat)) (x : Option (Nat × DWord × Nat)) : Job :=
       .copy { Tests.copying with uncounted := l, short := x }
     let bar := (copyRec Tests.copying.record.1).bar
     (Tests.running (job [(0, 500, 64), (1, 900, 1)] none)).jobs.find 9 = some (job [(0, 500, 64), (1, 900, 1)] none) ∧ 500 ≤ 500 ∧ 0 < 64
       ∧ (Tests.running (job [] (some (5, 3, 1)))).jobs.find 9 = some (job [] (some (5, 3, 1)))
       ∧ (Tests.running (job [] none)).barFstate 2 bar = 0 ∧ (5 : Nat) < 256 ∧ bar = 0x700
       ∧ 0x580 + 64 * 0 + 0x38 + 8 ≤ bar)
    ∧ (Tests.records.team 2).body.stash.num 0x700 4 = 64 := by decide +kernel

/-- An MMA at the head of the array. -/
def Tests.mma (desc : Option WDesc) (after : Option Nat) (bytes : List Byte) (dcor : Bool) : MatOp where
  team := 2
  crew := 0
  lane := 0
  dcor := dcor
  addr := 0x400
  bytes := bytes
  tag := false
  gtag := false
  taint := false
  atag := false
  ticket := 3
  race := false
  bases := []
  breach := false
  seq := 20
  desc := desc
  after := after

def Tests.array (m : MatOp) : State := Tests.records.updCore 0 fun K => { K with mats := [m] }

def Tests.weights (k : Nat) : WDesc where
  woff := 0
  k := k
  n := 16
  fmt := 4
  sp24 := false
  btag := false

theorem witness_MatrixCompletions :
    (let bytes := Tests.records.record 0x400 64
     let s := Tests.array (Tests.mma (some (Tests.weights 16)) none bytes false)
     let m := Tests.mma (some (Tests.weights 16)) none bytes false
     let b := mmaBlock bytes
     (s.core 0).mats = [m] ∧ (s.teams.find 2).isSome = true ∧ ((s.team 2).body.crews.find 0).isSome = true ∧ s.mmaOk m b = true
       ∧ (Tests.weights 16).agrees b = true ∧ (Tests.weights 32).agrees b = false
       ∧ s.matBad m b.aloc b.afmt b.m b.k = false ∧ b.accin = false ∧ locRegs b.cloc = false ∧ b.dfmt = 0
       ∧ (s.team 2).weights.poisonOf 0 (b.n * columnBytes 4 16 false) = false
       ∧ s.mmaOk { m with bytes := List.replicate 64 1 } (mmaBlock (List.replicate 64 1)) = false)
    ∧ (let s : State := { Tests.array (Tests.mma none (some 9) (Tests.records.record 0x400 64) false) with
        jobs := [(9, .wbld 2 0 0 0x480 (Tests.records.record 0x480 32) false 6)] }
      (s.jobs.find 9).isSome = true)
    ∧ (let s := Tests.array (Tests.mma (some (Tests.weights 16)) none (Tests.records.record 0x400 64) false)
      ((s.updTeam 2 fun T => { T with weights := T.weights.setPoison 0 true }).team 2).weights.poisonOf 0 512 = true)
    ∧ (let bytes := (Tests.stash Tests.records 0x404 (leBytes 4 (3 * 2 ^ 24 + 2 ^ 20 + 3 * 2 ^ 18 + 6 * 256 + 4))).record 0x400 64
      let b := mmaBlock bytes
      let m := Tests.mma (some (Tests.weights 16)) none bytes false
      let runs : List TileRun := [⟨0, .residue true⟩]
      b.red = true ∧ b.rlog = true ∧ (Tests.array m).mmaOk m b = true ∧ (Tests.weights 16).agrees b = true
        ∧ (∃ x ∈ runs, x.fault = .residue true ∧ x.tile % 4 < b.n / 16 ∧ x.tile / 4 < b.m / 16)
        ∧ 0 % 4 < b.n / 16 ∧ 0 / 4 < b.m / 16) := by decide +kernel

theorem witness_MatrixCompletions_dcor :
    (let d := dcorBlock (Tests.records.record 0x440 64)
     d.ok 0x440 1 = true ∧ (∀ r ∈ d.regions, ∀ n ∈ regionLines r.1 r.2, (Tests.records.team 2).body.absent.contains n = false)
       ∧ (∀ r ∈ d.regions, (Tests.records.team 2).body.stash.poisonOf r.1 r.2 = false) ∧ d.regions ≠ [])
    ∧ (dcorBlock (List.replicate 64 1)).ok 0x440 1 = false
    ∧ (let s := Tests.records.updBody 2 fun b => { b with stash := b.stash.setPoison 0x48 true }
      ∃ r ∈ (dcorBlock (Tests.records.record 0x440 64)).regions, (s.team 2).body.stash.poisonOf r.1 r.2 = true) := by decide +kernel

theorem witness_MatrixCompletions_weights :
    (let s := Tests.running (.wbld 2 0 0 0x480 (Tests.records.record 0x480 32) false 6)
     let b := wbldBlock (Tests.records.record 0x480 32)
     s.crewQuiet 2 0 9 = true ∧ s.weightBusy 2 b.wh 9 = false ∧ b.ok (s.weightBytes 2) = true
       ∧ (match s.pieces 2 b.src (capOff b.src) (b.n * columnBytes b.fmt b.k b.sp24) needR with
         | .ok ps => (match s.engineRead 2 (fun _ => false) ps with
           | .ok _ y _ => b.masksOk y.data
           | _ => false)
         | .error _ => false) = true ∧ (∀ x ∈ s.jobs, x.1 ≤ 9))
    ∧ (wbldBlock (List.replicate 32 1)).ok 262144 = false
    ∧ ((Tests.array (Tests.mma none none (Tests.records.record 0x400 64) false)).weightBusy 2 1 21 = true)
    ∧ (match Tests.records.pieces 2 (Tests.cap (2 ^ 21)) (2 ^ 21) 512 needR with
      | .error _ => true
      | .ok _ => false) = true := by decide +kernel

/-- A rank of a collective on core c, with its bytes read. -/
def Tests.rank (c root : Nat) : Rank where
  team := 2
  crew := 0
  lane := 0
  dev := 0
  core := c
  bytes := leBytes 8 (Tests.cap 0).toNat ++ leBytes 8 (Tests.cap 0xA000).toNat ++ leBytes 4 16 ++ leBytes 4 0 ++ leBytes 4 root
    ++ leBytes 4 0x700 ++ leBytes 4 1 ++ List.replicate 28 0
  addr := 0x640
  gtag := false
  bar := 0x700
  btag := false
  remote := none
  got := some (List.replicate 64 1, List.replicate 64 false)

theorem witness_Collectives :
    (let ms := [(0, [0, 5])]
     let ranks := [Tests.rank 0 0, Tests.rank 5 0]
     let s := Tests.running (.coll { ctx := 0, members := ms, ranks := ranks })
     rankCount ms ≤ ranks.length ∧ (∀ r ∈ ranks, r.got.isSome = true ∧ r.cause = 0 ∧ r.bar % 16 = 0 ∧ (s.teams.find r.team).isSome = true)
       ∧ (∀ r ∈ ranks, ∀ q ∈ ranks, r.block.agrees q.block = true) ∧ (Tests.rank 0 0).block.agrees (Tests.rank 5 1).block = false
       ∧ s.barFstate 2 0x700 = 0 ∧ (s.team 2).body.absent.contains (0x700 / 128) = false
       ∧ rankOf ms 0 0 = 0 ∧ ((collBlock (Tests.rank 0 0).bytes).destBytes 2 + 262143) / 262144 = 1
       ∧ (match s.pieces 2 (collBlock (Tests.rank 0 0).bytes).dst 0xA000 64 needW with
         | .ok [x] => (match x.loc with
           | .mem a .. => decide (s.lostHome (s.forwarded a) = false ∧ s.writeBlocked a x.len = none)
           | _ => false)
         | _ => false) = true ∧ capObj (collBlock (Tests.rank 0 0).bytes).dst ≠ 0)
    ∧ (∃ x ∈ [(0, [0]), (9, [5])], x.1 ≠ Tests.records.chipno) ∧ (0 ∈ [0] ∧ 0 ∉ ([] : List Nat))
    ∧ (({ ctx := 0, members := [(0, [0])], ranks := [], broken := [3] } : CollRun).broken ≠ [] ∧ Tests.records.lost 0 = false)
    ∧ ({ Tests.memory with routes := [(5, [(0, false)])] } : State).lost 5 = true
    ∧ (Tests.records.team 2).body.windowOf (0x700 / 128) = none ∧ (collBlock (Tests.rank 0 0).bytes).type < 10 := by decide +kernel

/-! ## Recovery, links, the device and the mailbox -/

theorem witness_RecoveryAndLinks :
    (∀ n ∈ [0, 1, 2], let s := Tests.launched (Tests.launch .running Tests.host [0]) fun T =>
        { T with consumed := true, rollbacks := n, shadow := some T.body }
      (s.team 2).consumed = true ∧ (s.team 2).state = .running ∧ (s.team 2).drained = false ∧ s.settled 2 = true ∧ (s.team 2).shadow = some (Tests.memory.team 2).body
        ∧ (s.team 2).shadowLoads = [] ∧ (s.team 2).recalled = [] ∧ (Tests.launch .running Tests.host [0]).phase = .running
        ∧ (let d := s.updTeam 2 fun T => { T with drained := true }
          (d.team 2).consumed = true ∧ (d.team 2).drained = true ∧ d.settled 2 = true) ∧ (Tests.launch .running Tests.host [0]).chips = [s.chipno] ∧ (Tests.launch .running Tests.host [0]).ended = false)
    ∧ (let s : State := { Tests.memory with routes := [(5, [(0, false)])] }
      s.lostHome (s.forwarded (5 * 2 ^ 43)) = true)
    ∧ (∃ m ∈ [(0, [0]), (5, [7])], m.1 = 5)
    ∧ (5 : Nat) ≠ Tests.memory.chipno
    ∧ (let s : State := { Tests.memory with routes := [(5, [(0, true)])] }
      (0, true) ∈ s.portsOf 5 ∧ (((s.portsOf 5).map fun p => if p.1 = 0 then (0, false) else p).any Prod.snd) = false)
    ∧ ((([(0, true), (1, true)] : List (Nat × Bool)).map fun p => if p.1 = 0 then (0, false) else p).any Prod.snd) = true := by
  decide +kernel

theorem witness_LinkFlits : addressed 0x400078 = true ∧ isHost 0x400078 = false ∧ 0x400078 % 128 + 8 ≤ 128
    ∧ Tests.memory.writeBlocked 0x400078 8 = none ∧ 0x400078 % 8 = 0 ∧ Tests.memory.own (128 * 0x8000) = true
    ∧ Tests.memory.readBlocked (128 * 0x8000) 128 = none
    ∧ Tests.memory.outside.errs = [] ∧ Tests.memory.backDue 0x8000 = false ∧ Tests.memory.backBlocked 0x8000 = none
    ∧ Tests.memory.writeBlocked (128 * 0x8000) 128 = none ∧ Tests.memory.migratingLine 0x8000 = false
    ∧ (Tests.away []).own (128 * 0x8000) = true ∧ ((Tests.away []).dirOf 0x8000).owner = some { dev := 5, core := 0, slot := 0 }
    ∧ (∀ ds ∈ [[5], [5, 6]], ({ Tests.memory with iinvs := [(9, ds)] } : State).iinvs.find 9 = some ds) ∧ [5].erase 5 = [] ∧ [5, 6].erase 5 ≠ []
    ∧ inSet (Tests.memory.scopeFor 0 5 7 5 []) 5 7 = true ∧ (5 : Nat) ≠ Tests.memory.chipno
    ∧ (let s := Tests.launched { Tests.launch .running Tests.host [0, 5] with retired := 1 } id
      s.launches.find 1 = some { Tests.launch .running Tests.host [0, 5] with retired := 1 }
        ∧ (chipTeams (Tests.launch .running Tests.host [0, 5]).block [0, 5] s.chipno).length ≤ 1
        ∧ ∀ x ∈ s.launches, x.1 = 1) := by decide +kernel

/-- Fatal events with a team that runs; sensors 0, 50 and 51; the bounds of the clocks and of the device numbers. -/
theorem witness_DeviceEvents : Tests.memory.teams.find 2 = some (Tests.memory.team 2)
    ∧ (Tests.memory.launches.find (Tests.memory.team 2).launch).all (fun L => !L.ended) = true ∧ (16383 : Nat) < 16384 ∧ (50 : Nat) < 51
    ∧ 1200 ≤ 1200 ∧ 3600 % 100 = 0 ∧ (2 : Nat) ∈ [128, 64, 32, 16, 8, 5, 2] ∧ (1 : Nat) ∈ [16, 8, 4, 2, 1]
    ∧ (∀ x ∈ Tests.memory.ctxs, ∀ y ∈ x.2.queues, y.2.en = false ∨ y.2.held = [])
    ∧ ((if false then State.reset.fwB else State.reset.fwA).valid && Config.signatureOk State.reset.fwA.image) = false
    ∧ ({ State.reset with outside := { State.reset.outside with doe := true }, hostUp := true } : State).outside.doe = true := by decide +kernel

/-- A bank that boots, where its signature verifies: what verifies is not the model's to say (log entry 3). -/
theorem witness_DeviceEvents_boot (h : Config.signatureOk [1] = true) :
    let s : State := { State.reset with fwA := { image := [1], svn := 0, valid := true } }
    ((if s.fwMark.getD s.fwRunB then s.fwB else s.fwA).valid && Config.signatureOk (if s.fwMark.getD s.fwRunB then s.fwB else s.fwA).image
      && decide (s.minSvn ≤ (if s.fwMark.getD s.fwRunB then s.fwB else s.fwA).svn)) = true := by
  change (true && Config.signatureOk [1] && decide ((0 : Nat) ≤ 0)) = true
  rw [h]
  rfl

/-- A mailbox that runs a command. -/
def Tests.asked (asker : Master) (req : List Byte) : State := { Tests.memory with mailbox := { req := req, busy := true, asker := asker } }

theorem witness_MailboxCommands :
    (Tests.asked .mgmt (leBytes 1 1)).mailbox.busy = true ∧ (Tests.asked .mgmt (leBytes 1 1)).mayCommand 1 .mgmt = false
    ∧ (∀ n ∈ [0, 10], fieldOf (leBytes 1 n) 0 1 = 0 ∨ 9 < fieldOf (leBytes 1 n) 0 1)
    ∧ Tests.memory.mayCommand 1 .host = true ∧ Tests.memory.mayCommand 4 .host = true
    ∧ (Tests.memory.ctx 63).state = .free ∧ (Tests.memory.ctx 0).state = .active ∧ (Tests.memory.rightsOf 3 (Master.code .host)).getLsbD 2 = true
    ∧ (let s := Tests.memory.updCtx 1 fun X => { X with state := .faulted }
      (s.ctx 1).state = .faulted ∧ ∀ x ∈ s.launches, x.2.ctx = 1 → x.2.ended = true)
    ∧ (let s := Tests.memory.updCtx 1 fun X => { X with state := .resetting }
      (s.ctx 1).state = .resetting ∧ ∀ x ∈ s.launches, x.2.ctx = 1 → x.2.ended = true)
    ∧ (let s := Tests.memory.updCtx 0 fun X => { X with state := .resetting }
      (s.ctx 0).state = .resetting ∧ ∃ x ∈ s.launches, x.2.ctx = 0 ∧ x.2.ended = false)
    ∧ ({ Tests.memory with held := true } : State).held = true ∧ Tests.memory.held = false
    ∧ (∃ x ∈ Tests.memory.launches, x.2.ctx = 0 ∧ x.2.ended = false) := by decide +kernel

/-- CREATE of context 63 from a descriptor at 0x401000, whose operand address lies in the domain, with kernel class 1 or without. -/
theorem witness_MailboxCommands_create : inDomain 0x401000 256 = true ∧ inDomain (2 ^ 57) 256 = false
    ∧ (let s : State := { Tests.memory with mem := Tests.memory.mem.setBytes 0x401000 (leBytes 8 fetchTable ++ leBytes 4 32 ++ leBytes 4 2
        ++ leBytes 8 0x800000 ++ leBytes 8 (2 ^ 30) ++ leBytes 8 0x402000) }
      (match s.readPieces (linePieces 4 0x401000 256) with
        | .ok u b => let r := (s.ctx 63).described b.data
          r.2 && r.1.classen.getLsbD 1 && (match u.readPieces (linePieces 4 (r.1.scope + 56) 200) with
            | .ok v b' => !((v.setCtx 63 r.1).setScopes 63 ((List.range 25).map fun i => (7 + i, BitVec.ofNat 64 (fieldOf b'.data (8 * i) 8)))).2
            | _ => false)
        | _ => false) = true)
    ∧ (match Tests.memory.readPieces (linePieces 4 0x401000 256) with
      | .ok _ b => !((Tests.memory.ctx 63).described b.data).1.classen.getLsbD 1
      | _ => false) = true
    ∧ (let s : State := { Tests.memory with dir := [(0x401000 / 128, { host0 := .HE })] }
      (match s.readPieces (linePieces 4 0x401000 256) with
        | .wait _ => true
        | _ => false) = true) := by decide +kernel

/-- Operands of UPDATE_OT, UPDATE_SCOPE and MOVE_FRAME in and out of their ranges, and of LOG_READ. -/
theorem witness_MailboxCommands_operands : (Tests.memory.ctx 0).otsize = 32 ∧ (Tests.memory.ctx 0).otab % 32 = 0 ∧ Tests.memory.motion = none
    ∧ Tests.memory.writesBlocked (linePieces 2 ((Tests.memory.ctx 0).otab + 32 * 31) 32) = none
    ∧ (let s : State := { Tests.memory with dir := [((Tests.memory.ctx 0).otab / 128, { host0 := .HE })] }
      (s.writesBlocked (linePieces 2 ((s.ctx 0).otab + 32 * 1) 32)).isSome = true)
    ∧ Tests.memory.writesBlocked (linePieces 2 ((Tests.memory.ctx 0).scope + 8 * 31) 8) = none
    ∧ (Tests.memory.setScope 0 31 0).2 = false
    ∧ (31 : Nat) < 32 ∧ 7 ≤ 7 ∧ ¬(7 ≤ 6) ∧ 31 ≤ 31 ∧ (Tests.memory.objEntry 0 17).valid = true ∧ 2097152 * 0 < (Tests.memory.objEntry 0 17).length
    ∧ (Tests.memory.objEntry 0 17).length ≤ 2097152 * 1 ∧ frameOf (Tests.memory.frameWord (Tests.memory.objEntry 0 17) 0) = (.mem 0x400000, 0)
    ∧ frameOf (BitVec.ofNat 64 (2 ^ 62 + 3)) = (.mem 0x600000, 0) ∧ isHost 0x400000 = false ∧ ¬((Tests.memory.ctx 0).diag = true ∧ 17 = 3)
    ∧ (let s : State := { Tests.memory with log := [{ index := 4, ftime := 3, kind := 2, bank := 0, regs := [] }], logNext := 5 }
      ((s.log.head?.map LogRecord.index).getD s.logNext) = 4 ∧ 4 ≤ 4 ∧ 4 + 1 ≤ s.logNext ∧ s.log[4 - 4]?.isSome = true)
    ∧ 4 ≤ 4 ∧ ¬(3 : Nat) ≥ 4 ∧ ¬(2 ^ 32 : Nat) < 2 ^ 32 ∧ leNat (leBytes 4 0) ≥ Tests.memory.minSvn := by decide +kernel

/-! ## Decoding and the step -/

theorem witness_RoundTrip : (Instr.addw 62 63 0 true false).wf = true ∧ (Instr.addw 62 63 0 true false).word? = some 0x080FBF02
    ∧ decode 0x080FBF02 = .ok (.addw 62 63 0 true false) := by decide +kernel

/-- A turn that passes, an event, a word that is no event, and the turn of a core whose next unit is a SAT hint and an ADD. -/
theorem witness_StepRunsDecoded :
    (Instr.regroup 0).word? = none ∧ (Instr.add 6 4 5 false false).word? = some 0x04018414
    ∧ (let s := Tests.plain
      let s : State := { s.updCore 0 fun K => { K with icache := [0xF9000000, 0x04018414].zipIdx.map fun x =>
        { ctx := 0, obj := fetchObject, off := 4 * x.2, word := x.1 } } with agenda := [.core 0] }
      s.agenda = .core 0 :: [] ∧ (s.core 0).regroupDue = false ∧ (s.core 0).withheld = none ∧ s.upsets = []
        ∧ (match ({ s with agenda := [] } : State).pick 0 4 (s.core 0).quadrant with
          | some (_, R) => R.braid.lanes == [0] && !R.braid.midUnit
          | none => false) = true
        ∧ (match s.fetchUnit 2 7 0 [] with
          | .got ws => decide (ws = [0xF9000000, 0x04018414])
          | _ => false) = true
        ∧ unitFate (s.ctx 0).classen [none] [0xF9000000, 0x04018414] = none ∧ decode 0xF9000000 = .ok .sat)
    ∧ (∀ c w n, (Instr.regroup 0) ≠ .emulationVector c w n) := by
  refine ⟨by decide +kernel, by decide +kernel, by decide +kernel, ?_⟩
  intro c w n h
  cases h

/-- A step of a state with memory in its form. -/
theorem witness_MemoryForm : Tests.memory.mem.wf = true ∧ ∃ t, step { Tests.memory with agenda := [.advance 1] } = .next t :=
  ⟨by decide +kernel, _, rfl⟩
/-! ## Single steps: values worked out by hand from the reference entries -/

def Tests.value (i : Instr) (d : RegF) (s : State := Tests.plain) : Word := ((Tests.after i s).reg d.toNat).val

/-- R354, R355, R403. -/
theorem test_sums : Tests.value (.add 20 4 5 false false) 20 = 0x80000000 ∧ Tests.value (.sub 20 6 5 false false) 20 = 0x7FFFFFFF
    ∧ Tests.value (.add 20 4 5 false false) 20 (Tests.hinted { sat := true }) = 0x7FFFFFFF
    ∧ (Tests.after (.add 20 4 5 false false) (Tests.hinted { sat := true })).fstat = flSAT
    ∧ Tests.value (.sub 20 6 5 false false) 20 (Tests.hinted { sat := true }) = 0x80000000
    ∧ Tests.value (.abs 20 6 false) 20 = 0x80000000 ∧ Tests.value (.addw 20 4 4 false false) 20 = 0xFFFFFFFE
    ∧ Tests.value (.addw 20 4 4 false false) 21 = 2 ∧ Tests.value (.subw 20 16 4 false false) 20 = 0x80000001
    ∧ Tests.value (.subw 20 16 4 false false) 21 = 0xFFFFFFFE := by decide +kernel

/-- R397. -/
theorem test_products : Tests.value (.mul 20 7 7 false false) 20 = 1 ∧ Tests.value (.mulh 20 7 7 false false) 20 = 0
    ∧ Tests.value (.mulhz 20 7 7 false false) 20 = 0xFFFFFFFE ∧ Tests.value (.mad 9 4 5 false false) 9 = 0x80000002
    ∧ Tests.value (.min 20 6 4 false false) 20 = 0x80000000 ∧ Tests.value (.max 20 6 4 false false) 20 = 0x7FFFFFFF
    ∧ Tests.value (.minz 20 6 4 false false) 20 = 0x7FFFFFFF ∧ Tests.value (.maxz 20 6 4 false false) 20 = 0x80000000 := by decide +kernel

/-- R354, R356, R403: amounts of 31 and of 0x1F1F, whose other bits are not looked at. -/
theorem test_bits : Tests.value (.and 20 4 7 false false) 20 = 0x7FFFFFFF ∧ Tests.value (.andn 20 7 4 false false) 20 = 0x80000000
    ∧ Tests.value (.or 20 5 6 false false) 20 = 0x80000001 ∧ Tests.value (.xor 20 7 4 false false) 20 = 0x80000000
    ∧ Tests.value (.shl 20 5 10 false false) 20 = 0x80000000 ∧ Tests.value (.shr 20 6 10 false false) 20 = 1
    ∧ Tests.value (.shra 20 6 10 false false) 20 = 0xFFFFFFFF ∧ Tests.value (.rot 20 6 5 false false) 20 = 1
    ∧ Tests.value (.popc 20 10 false) 20 = 10 ∧ Tests.value (.clz 20 10 false) 20 = 19 ∧ Tests.value (.clz 20 11 false) 20 = 32
    ∧ Tests.value (.brev 20 5 false) 20 = 0x80000000 ∧ Tests.value (.bfx 20 7 10 false false) 20 = 1
    ∧ Tests.value (.bfi 12 7 10 false false) 12 = 0x80000040 ∧ Tests.value (.shlw 20 4 5 false false) 20 = 0xFFFFFFFE
    ∧ Tests.value (.shlw 20 4 5 false false) 21 = 2 ∧ Tests.value (.shrw 20 4 5 false false) 20 = 0xBFFFFFFF := by decide +kernel

/-- R364: OFF wraps modulo 2^38; rights go; the capability holds object 17, rights R, W, A, offset 0. -/
theorem test_capabilities : let s := Tests.memory
    (Tests.value (.cadd 20 4 7 false false) 20 (s.mapLanes [0] fun _ L => L.setReg 7 { val := 0xFFFFFFFF, tag := false, full := true })
      = 0xFFFFFFFF)
    ∧ Tests.value (.cadd 20 4 7 false false) 21 (s.mapLanes [0] fun _ L => L.setReg 7 { val := 0xFFFFFFFF, tag := false, full := true })
      = 17 * 2 ^ 10 + 13 * 2 ^ 6 + 0x3F
    ∧ Tests.value (.capn 20 4 8 false false) 21 s = 17 * 2 ^ 10 + 5 * 2 ^ 6
    ∧ Tests.value (.capb 20 4 8 false false) 20 s = 7 := by decide +kernel

/-- R367, R414: signed and unsigned order of 0x7FFFFFFF and 0x80000000. -/
theorem test_compares : (Tests.after (.cmp 2 false 1 6 4 false false) Tests.plain).q 1 = true
    ∧ (Tests.after (.cmp 2 true 1 6 4 false false) Tests.plain).q 1 = false
    ∧ (Tests.after (.cmpw 5 false 1 4 4 false false) Tests.plain).q 1 = true
    ∧ (Tests.after (.cmpi 1 5 2 false) Tests.plain).q 2 = true ∧ (Tests.after (.cmpi 1 5 1 false) Tests.plain).q 3 = true
    ∧ Tests.value (.sel 1 20 4 5 false false) 20 = 1 ∧ Tests.value (.sel 15 20 4 5 false false) 20 = 0x7FFFFFFF
    ∧ ((Tests.after (.sel 1 20 4 35 false false) Tests.plain).reg 20).tag = true := by decide +kernel

/-- R61, R357, R401, R404: an immediate of −1, and one of 0x48D15 · 1024 + 0x3FF under LIMM. -/
theorem test_immediates : Tests.value (.addi 20 5 0x1FFF false) 20 = 0 ∧ Tests.value (.andi 20 4 0x1FFF false) 20 = 0x7FFFFFFF
    ∧ Tests.value (.ori 20 11 0x1000 false) 20 = 0xFFFFF000 ∧ Tests.value (.xori 20 7 1 false) 20 = 0xFFFFFFFE
    ∧ Tests.value (.shli 20 5 31 false) 20 = 0x80000000 ∧ Tests.value (.shri 20 6 31 false) 20 = 1
    ∧ Tests.value (.shrai 20 6 31 false) 20 = 0xFFFFFFFF ∧ Tests.value (.movi 20 0x1FFF) 20 = 0xFFFFFFFF
    ∧ Tests.value (.movi 20 0x1FFF) 20 (Tests.hinted { limm := some 0x48D15 }) = 0x48D15 * 1024 + 0x3FF := by decide +kernel

/-- R132, R376, R377, R380: 1 + 1, the largest number doubled, and a number that is no integer. -/
theorem test_floats : Tests.value (.fadd 0 20 14 14 false false) 20 = 0x40000000 ∧ Tests.value (.fsub 0 20 14 14 false false) 20 = 0
    ∧ Tests.value (.fmul 0 20 15 15 false false) 20 = 0x7F800000
    ∧ (Tests.after (.fmul 0 20 15 15 false false) Tests.plain).fstat = flOF ||| flNX
    ∧ Tests.value (.fma 0 14 14 14 false false) 14 = 0x40000000 ∧ Tests.value (.fmin 0 20 14 15 false false) 20 = 0x3F800000
    ∧ Tests.value (.fmax 0 20 14 15 false false) 20 = 0x7F7FFFFF ∧ Tests.value (.fneg 0 20 14 false) 20 = 0xBF800000
    ∧ Tests.value (.fabs 0 20 7 false) 20 = 0x7FFFFFFF ∧ (Tests.after (.fcmp 2 0 1 14 15 false false) Tests.plain).q 1 = true
    ∧ Tests.value (.fcvt 0 20 14 6 false) 20 = 1 ∧ Tests.value (.fcvt 0 20 15 6 false) 20 = 0x7FFFFFFF
    ∧ (Tests.after (.fcvt 0 20 15 6 false) Tests.plain).fstat = flNV ∧ Tests.value (.fcvt 6 20 9 0 false) 20 = 0x40400000
    ∧ Tests.value (.fcvt 8 20 14 6 false) 20 = 0x38 := by decide +kernel

/-- R85, R88, R119, R407. -/
theorem test_predicates : (Tests.after (.qnot 1 1) Tests.plain).q 1 = true ∧ (Tests.after (.qand 1 15 2) Tests.plain).q 1 = false
    ∧ (Tests.after (.qor 1 15 2) Tests.plain).q 1 = true ∧ (Tests.after (.qxor 1 15 15) Tests.plain).q 1 = false
    ∧ (Tests.after (.qmov 15 1) Tests.plain).q 15 = true ∧ (Tests.after (.tagq 1 35 false) Tests.plain).q 1 = true
    ∧ ((Tests.after (.tagp 5) Tests.plain).reg 5) = { val := 1, tag := true, full := true }
    ∧ (Tests.after (.win 7) Tests.plain).wbase = 56 := by decide +kernel

/-- R363, R389, R413: a branch one word back, a call, and a target whose low bits are not 0. -/
theorem test_flow : (Tests.after (.br 15 0x1FFFFF) Tests.plain).pc = 0xFFFFFFFC ∧ (Tests.after (.brn 15 5) Tests.plain).pc = 4
    ∧ (Tests.after (.call 15 16) Tests.plain).pc = 64 ∧ Tests.value (.call 15 16) 62 = 4 ∧ (Tests.after (.ret 12 false) Tests.plain).pc = 0x40
    ∧ (Tests.after (.jmpi 13 false) Tests.plain).pc = 64 ∧ ((Tests.run (.jmpi 13 false) Tests.plain).curCrew.frames.map Frame.cause) = [0x17] := by
  decide +kernel

/-- R298, R302, R303: TRAP and the ERET that ends its handler, after the unit. -/
theorem test_traps : let t := Tests.run (.trap 7) Tests.plain
    (t.curLane 0).pc = 64 ∧ t.curCrew.frames.map Frame.cause = [0x10] ∧ t.curCrew.frames.map Frame.ulen = [1]
    ∧ ((Tests.run .eret t).curLane 0).pc = 4 ∧ (Tests.run .eret t).curCrew.frames = [] := by decide +kernel

/-- R360, R411, R415, R416: fibre 0 holds 5 with q1 true, fibre 1 holds 7 with q2 true. -/
theorem test_tiles : let v (i : Instr) (l : Nat) : Word := (((Tests.run i Tests.pair).curLane l).reg 20).val
    v (.shfl 20 4 5 false false) 0 = 7 ∧ v (.shfl 20 4 5 false false) 1 = 5 ∧ v (.ballot 20 2) 0 = 2 ∧ v (.ballot 20 2) 1 = 2
    ∧ v (.redadd 1 20 4 1 false) 1 = 5 ∧ v (.redadd 1 20 4 15 false) 0 = 5 + 7 ∧ v (.scanaddx 1 20 4 15 false) 1 = 5
    ∧ v (.scanadd 1 20 4 15 false) 1 = 12 ∧ ((Tests.run (.voteany 3 2) Tests.pair).curLane 0).q 3 = true
    ∧ ((Tests.run (.voteall 3 2) Tests.pair).curLane 0).q 3 = false := by decide +kernel

/-- R372: −2^31 / −1 wraps, a zero divisor gives 0 and DZ. -/
theorem test_divisions : let m (i : Instr) : Option Msg := (Tests.run i Tests.plain).msgs.find Tests.plain.next
    m (.divs false 20 6 7 false false) = some (.division 2 0 [(0, [some 20], BitVec.ofInt 64 (2 ^ 31), false)] [])
    ∧ m (.remz false 20 9 11 false false) = some (.division 2 0 [(0, [some 20], 3, false)] [0])
    ∧ ((Tests.after (.divs false 20 6 7 false false) Tests.plain).reg 20).full = false := by decide +kernel

/-- R92, R393, R419 to R421, R268: a store and an atomic in the stash, the values on their way to their fibres, and what a
store to memory sends. -/
theorem test_accesses : let s := Tests.memory
    (let t := Tests.run (.st 2 8 2 1 false) s
     t.cur.lanes = [0, 1] ∧ (t.team 2).body.stash.num 258 2 = 7)
    ∧ ((Tests.run (.st 4 8 4 0 false) s).msgs.map fun m => match m.2 with
        | .write _ a d _ => (a, d)
        | _ => (0, [])) = [(0x400000, leBytes 4 7), (0x400100, leBytes 4 7)]
    ∧ (let t := Tests.run (.atadd false 0 20 2 8) (Tests.stash s 256 (leBytes 4 10))
      (t.team 2).body.stash.num 256 4 = 24 ∧ ((t.curLane 0).reg 20).full = false ∧ (t.msgs.map fun m => match m.2 with
        | .held _ l d v _ _ => (l, d, v.toNat)
        | _ => (0, [], 0)) = [(0, [some 20], 10), (1, [some 20], 17)])
    ∧ (let t := Tests.run (.ld 1 20 2 0 false) (Tests.stash s 256 (leBytes 1 0x80))
      ((Tests.run (.loadReply s.next) t).curLane 0).reg 20 = { val := 0xFFFFFF80, tag := false, full := true }) := by decide +kernel

/-- R383: FSPAWN gives the lowest free slots; R382: FEND frees them. -/
theorem test_fibres : let t := Tests.run (.fspawn 20 6 false) Tests.pair
    ((t.curLane 0).reg 20).val = 2 ∧ ((t.curLane 1).reg 20).val = 3 ∧ (t.curLane 3).pc = 0x44 ∧ (t.curLane 3).state = .ready
    ∧ ((Tests.run .fend Tests.pair).curLane 1).state = .free := by decide +kernel

/-- R97, R100: TEAM identities and PART. -/
theorem test_state_registers : Tests.value (.gsr 20 5) 20 = 0 ∧ Tests.value (.gsr 20 0x13) 20 = 5 ∧ Tests.value (.gsr 20 0x16) 20 = 256
    ∧ (Tests.run (.ssr 9 0x13) Tests.plain).curCrew.part = 3 ∧ (Tests.after (.ssr 5 0x10) Tests.plain).fmode = 1 := by decide +kernel

/-- R361: BARA on REMAIN 1 changes the phase; R362: BARI sets REMAIN. -/
theorem test_barriers : let s := Tests.stash Tests.records 0x700 (leBytes 4 1)
    let t := Tests.run (.bara 48) s
    (t.team 2).body.stash.num 0x700 4 = 0 ∧ (t.team 2).body.stash.num 0x704 4 = 0x10001
    ∧ ((Tests.run (.bari 48 51) s).team 2).body.stash.num 0x700 4 = 3 := by decide +kernel

end
end

section
/-! PROOFS. Decoding and encoding agree (R3, R55 to R77): the reading laws of the single instructions, put together. -/

namespace Sys2Proof.Laws.Reads

open Sys2Proof

/-- A step of another agent has no word to read (R55). -/
theorem statement_of_no_word {i : Instr} (h : i.word? = none) : Statement i := by
  intro _ w hw
  rw [h] at hw
  cases hw

/-- The word of every well-formed instruction reads as that instruction (R55 to R76). -/
theorem readWord_word (i : Instr) : Statement i := by
  cases i
  case add => exact add _ _ _ _ _
  case sub => exact sub _ _ _ _ _
  case mul => exact mul _ _ _ _ _
  case mulh => exact mulh _ _ _ _ _
  case mulhz => exact mulhz _ _ _ _ _
  case mad => exact mad _ _ _ _ _
  case and => exact and _ _ _ _ _
  case or => exact or _ _ _ _ _
  case xor => exact xor _ _ _ _ _
  case andn => exact andn _ _ _ _ _
  case shl => exact shl _ _ _ _ _
  case shr => exact shr _ _ _ _ _
  case shra => exact shra _ _ _ _ _
  case rot => exact rot _ _ _ _ _
  case min => exact min _ _ _ _ _
  case max => exact max _ _ _ _ _
  case minz => exact minz _ _ _ _ _
  case maxz => exact maxz _ _ _ _ _
  case abs => exact abs _ _ _
  case popc => exact popc _ _ _
  case clz => exact clz _ _ _
  case brev => exact brev _ _ _
  case bfx => exact bfx _ _ _ _ _
  case bfi => exact bfi _ _ _ _ _
  case sel => exact sel _ _ _ _ _ _
  case addw => exact addw _ _ _ _ _
  case subw => exact subw _ _ _ _ _
  case shlw => exact shlw _ _ _ _ _
  case shrw => exact shrw _ _ _ _ _
  case divs => exact divs _ _ _ _ _ _
  case divz => exact divz _ _ _ _ _ _
  case rems => exact rems _ _ _ _ _ _
  case remz => exact remz _ _ _ _ _ _
  case cadd => exact cadd _ _ _ _ _
  case capn => exact capn _ _ _ _ _
  case capb => exact capb _ _ _ _ _
  case cmpw => exact cmpw _ _ _ _ _ _ _
  case cmp => exact cmp _ _ _ _ _ _ _
  case addi => exact addi _ _ _ _
  case andi => exact andi _ _ _ _
  case ori => exact ori _ _ _ _
  case xori => exact xori _ _ _ _
  case shli => exact shli _ _ _ _
  case shri => exact shri _ _ _ _
  case shrai => exact shrai _ _ _ _
  case cmpi => exact cmpi _ _ _ _
  case movi => exact movi _ _
  case fadd => exact fadd _ _ _ _ _ _
  case fsub => exact fsub _ _ _ _ _ _
  case fmul => exact fmul _ _ _ _ _ _
  case fma => exact fma _ _ _ _ _ _
  case fmin => exact fmin _ _ _ _ _ _
  case fmax => exact fmax _ _ _ _ _ _
  case fabs => exact fabs _ _ _ _
  case fneg => exact fneg _ _ _ _
  case fcmp => exact fcmp _ _ _ _ _ _ _
  case fcvt => exact fcvt _ _ _ _ _
  case qpack => exact qpack _ _ _ _ _ _ _
  case qunpk => exact qunpk _ _ _ _ _
  case frcp => exact frcp _ _ _ _
  case frsq => exact frsq _ _ _ _
  case fsqrt => exact fsqrt _ _ _ _
  case fexp2 => exact fexp2 _ _ _
  case flog2 => exact flog2 _ _ _
  case fsin => exact fsin _ _ _
  case fcos => exact fcos _ _ _
  case qand => exact qand _ _ _
  case qor => exact qor _ _ _
  case qxor => exact qxor _ _ _
  case qnot => exact qnot _ _
  case qmov => exact qmov _ _
  case shfl => exact shfl _ _ _ _ _
  case shflu => exact shflu _ _ _ _ _
  case shfld => exact shfld _ _ _ _ _
  case shflx => exact shflx _ _ _ _ _
  case voteall => exact voteall _ _
  case voteany => exact voteany _ _
  case ballot => exact ballot _ _
  case redadd => exact redadd _ _ _ _ _
  case redmin => exact redmin _ _ _ _ _
  case redmax => exact redmax _ _ _ _ _
  case redand => exact redand _ _ _ _ _
  case redor => exact redor _ _ _ _ _
  case redxor => exact redxor _ _ _ _ _
  case scanadd => exact scanadd _ _ _ _ _
  case scanaddx => exact scanaddx _ _ _ _ _
  case tagq => exact tagq _ _ _
  case tagp => exact tagp _
  case tclr => exact tclr
  case br => exact br _ _
  case brn => exact brn _ _
  case call => exact call _ _
  case calln => exact calln _ _
  case jmpi => exact jmpi _ _
  case calli => exact calli _ _
  case ret => exact ret _ _
  case meet => exact meet
  case fend => exact fend
  case fspawn => exact fspawn _ _ _
  case win => exact win _
  case tfence => exact tfence
  case eret => exact eret
  case ld => exact ld _ _ _ _ _
  case st => exact st _ _ _ _ _
  case ldsp => exact ldsp _ _ _ _ _
  case ldacq => exact ldacq _ _ _ _
  case strel => exact strel _ _ _ _
  case atadd => exact atadd _ _ _ _ _
  case atand => exact atand _ _ _ _ _
  case ator => exact ator _ _ _ _ _
  case atxor => exact atxor _ _ _ _ _
  case atmin => exact atmin _ _ _ _ _
  case atmax => exact atmax _ _ _ _ _
  case atfadd => exact atfadd _ _ _ _ _
  case atcas => exact atcas _ _ _ _ _
  case atxch => exact atxch _ _ _ _
  case fence => exact fence _
  case cflush => exact cflush _ _
  case cinv => exact cinv _ _
  case iinv => exact iinv _
  case pref => exact pref _ _
  case stmap => exact stmap _ _ _
  case stunmap => exact stunmap _
  case stwb => exact stwb _
  case pqry => exact pqry _ _
  case wclr => exact wclr
  case wchk => exact wchk _
  case mma => exact mma _
  case mrdy => exact mrdy _
  case mwait => exact mwait _
  case wbld => exact wbld _
  case dcor => exact dcor _
  case chain => exact chain _
  case strm => exact strm _ _ _
  case kick => exact kick _
  case bari => exact bari _ _
  case bara => exact bara _
  case bwait => exact bwait _
  case coll => exact coll _
  case launch => exact launch _
  case launcht => exact launcht _ _
  case cwait => exact cwait
  case tbar => exact tbar
  case gsr => exact gsr _ _
  case ssr => exact ssr _ _
  case trap => exact trap _
  case limm => exact limm _
  case guard => exact guard _ _ _
  case sched => exact sched _ _
  case rnd => exact rnd _ _ _
  case sat => exact sat
  case nop => exact nop _
  case hintIgnored => exact hintIgnored _ _
  all_goals exact statement_of_no_word rfl

end Sys2Proof.Laws.Reads

namespace Sys2Proof

/-- The decoder gives a well-formed instruction back from its word. -/
theorem decode_word {i : Instr} {w : Word} (hwf : i.wf = true) (hw : i.word? = some w) : decode w = .ok i := by
  unfold decode
  rw [Laws.Reads.readWord_word i hwf w hw]
  exact if_pos ⟨hwf, hw⟩

/-- What the decoder accepts is well formed and encoded by that very word. -/
theorem wf_and_word_of_decode {i : Instr} {w : Word} (h : decode w = .ok i) : i.wf = true ∧ i.word? = some w := by
  unfold decode at h
  split at h
  · cases h
  · split at h
    · cases h
      assumption
    · cases h

/-- The four bytes of a word hold that word (R3). -/
theorem wordOf_wordBytes (w : Word) :
    wordOf (w.extractLsb' 0 8) (w.extractLsb' 8 8) (w.extractLsb' 16 8) (w.extractLsb' 24 8) = w := by
  unfold wordOf
  rw [BitVec.extractLsb'_append_extractLsb'_eq_extractLsb' (start₁ := 16) (len₁ := 8) rfl,
    BitVec.extractLsb'_append_extractLsb'_eq_extractLsb' (start₁ := 8) (len₁ := 8) rfl,
    BitVec.extractLsb'_append_extractLsb'_eq_extractLsb' (start₁ := 0) (len₁ := 8) rfl]
  exact BitVec.extractLsb'_eq_self

/-- On the bytes of one word the decoder answers for that word, and no byte is left. -/
theorem decodeBytes_wordBytes (w : Word) : decodeBytes (wordBytes w) = some (decode w, []) := by
  simp only [wordBytes, decodeBytes, wordOf_wordBytes]

/-- Settles O55: the reading laws cover the constructors of `Instr`, and the decoder checks the encoding itself. -/
theorem roundTrip : Obligations.RoundTrip := by
  refine ⟨fun i w hwf hw => ?_, fun i w h => wf_and_word_of_decode h⟩
  have hd := decode_word hwf hw
  exact ⟨hd, by rw [decodeBytes_wordBytes, hd]⟩

end Sys2Proof
end

section
/-! PROOFS. The frame of the words on registers (R9, R59, R64, R355). -/

namespace Sys2Proof.Machine

open Sys2Proof

/-- A guard-false fibre of the braid only goes on past a word (R64). -/
theorem State.curLane_done_passing (s : State) (g : Nat → Lane → Lane) {l : Nat} (hl : l ∈ s.cur.lanes)
    (he : l ∉ s.effective) : (s.done g).curLane l = (s.curLane l).advance := by
  have hg : ¬(s.curLane l).guardTrue = true := fun h => he ((State.mem_effective s l).2 ⟨hl, h⟩)
  rw [State.curLane_done, if_pos hl, if_neg hg]

/-- Settles O16: a word of a shape is one `operate` within that shape (`operates_of_shape`), so with ready operands it
gives `State.done`, which changes lanes of its braid only. -/
theorem registerWordFrame : Obligations.RegisterWordFrame := by
  intro s i sh hsh hready
  obtain ⟨f, hexec, hwithin⟩ := operates_of_shape hsh
  have helse := State.done_sameElsewhere s fun l L => f s s.env l L (s.operandsOf sh.srcs l)
  refine ⟨_, (hexec s).trans (State.operate_ready hready (f s)), helse, State.sameElsewhere_memory helse,
    fun l hl => ?_, fun l hl he => State.curLane_done_passing s _ hl he⟩
  obtain ⟨hsame, hpc, hguard⟩ := hwithin s s.env l (s.curLane l) (s.operandsOf sh.srcs l)
  rw [State.curLane_done_effective s _ hl]
  exact ⟨Lane.sameBut_advance hsame, congrArg (· + 4) hpc, congrArg tickGuard hguard⟩

end Sys2Proof.Machine
end

section
/-! PROOFS. The host's registers (R4, R6, R184, R327, R342, R348): the access tables' gate, the updates of a queue, a
context and a bank, and what a register reads as. -/

namespace Sys2Proof.Machine

open Sys2Proof

/-! ## The gate of the access tables (R348) -/

section

variable {s : State} {block : Nat} {m : Master} (f : State → State)

theorem State.gated_denied (h : s.mayWrite block m = false) : s.gated block m f = s.logAdd 2 0 [] := by
  unfold State.gated
  rw [h]
  rfl

theorem State.gated_allowed (h : s.mayWrite block m = true) : s.gated block m f = f s := by
  unfold State.gated
  rw [h]
  rfl

/-- A write that the table denies is logged and changes nothing else. -/
theorem State.next_gated_denied (h : s.mayWrite block m = false) :
    (.next (s.gated block m f) : Result) = .next (s.logAdd 2 0 []) := congrArg _ (State.gated_denied f h)

theorem State.next_gated_allowed (h : s.mayWrite block m = true) : (.next (s.gated block m f) : Result) = .next (f s) :=
  congrArg _ (State.gated_allowed f h)

end

/-! ## Parts of the state after an update -/

theorem State.sameMemory_of_mem {s t : State} (h : t.mem = s.mem) : s.sameMemory t := by
  unfold State.sameMemory
  simp only [h, implies_true, and_self]

@[simp] theorem State.ctx_updCtx_self (s : State) (c : Nat) (f : Context → Context) :
    (s.updCtx c f).ctx c = f (s.ctx c) := by
  simp only [State.updCtx, State.setCtx, State.ctx, AMap.find_put_self, Option.getD_some]

@[simp] theorem Context.queue_setQueue_self (X : Context) (q : Nat) (Q : Queue) : (X.setQueue q Q).queue q = Q := by
  simp only [Context.setQueue, Context.queue, AMap.find_put_self, Option.getD_some]

section

variable {ctx q : Nat} (hctx : ctx < 64) (hq : q < 16) (s : State) (f : Queue → Queue)
include hctx hq

theorem State.updQueue_eq : s.updQueue ctx q f = s.updCtx ctx fun X => X.setQueue q (f (X.queue q)) :=
  if_pos ⟨hctx, hq⟩

/-- A queue that exists is set, and neither memory nor the teams change. -/
theorem State.updQueue_spec : s.sameMemory (s.updQueue ctx q f) ∧ (s.updQueue ctx q f).teams = s.teams
    ∧ ((s.updQueue ctx q f).ctx ctx).queue q = f ((s.ctx ctx).queue q) := by
  rw [State.updQueue_eq hctx hq]
  refine ⟨State.sameMemory_of_mem rfl, rfl, ?_⟩
  rw [State.ctx_updCtx_self, Context.queue_setQueue_self]

end

theorem State.bank_updBank_self {n : Nat} (hn : n < 55) (s : State) (f : Bank → Bank) :
    (s.updBank n f).bank n = f (s.bank n) := by
  simp only [State.updBank, if_pos hn, State.bank, AMap.find_put_self, Option.getD_some]

theorem State.bank_updBank_ne {n k : Nat} (hk : k ≠ n) (s : State) (f : Bank → Bank) :
    (s.updBank n f).bank k = s.bank k := by
  unfold State.updBank
  split
  · simp only [State.bank, AMap.find_put_ne _ _ hk]
  · rfl

theorem State.updBank_mem (s : State) (n : Nat) (f : Bank → Bank) : (s.updBank n f).mem = s.mem := by
  unfold State.updBank
  split <;> rfl

/-- The three counts of MC_COUNT lie in bits [31:0], [47:32] and [55:48] (R327). -/
theorem Bank.setCounts_counts (b : Bank) (v : DWord) : (b.setCounts v).ccount = v.toNat % 2 ^ 32
    ∧ (b.setCounts v).kcount = v.toNat / 2 ^ 32 % 2 ^ 16 ∧ (b.setCounts v).fcount = v.toNat / 2 ^ 48 % 2 ^ 8 := by
  simp only [Bank.setCounts, BitVec.extractLsb'_toNat, Nat.shiftRight_eq_div_pow, pow_zero, Nat.div_one, and_self]

theorem setByteAt_getD {n j : Nat} (hj : j < n) (bs : List Byte) (i : Nat) (b : Byte) :
    (setByteAt bs n i b).getD j 0 = if j = i then b else bs.getD j 0 := by
  simp [setByteAt, hj]

/-! ## An entry of the access tables -/

/-- The tables with one entry set, as a write of Jasper leaves them. -/
def State.withRight (s : State) (block x : Nat) (r : BitVec 3) : State :=
  { s with access := (s.access.filter fun e => !(e.1 == block && e.2.1 == x)) ++ [(block, x, r)] }

theorem State.rightsOf_withRight_self (s : State) (block x : Nat) (r : BitVec 3) :
    (s.withRight block x r).rightsOf block x = r := by
  have hgone : (s.access.filter fun e => !(e.1 == block && e.2.1 == x)).find? (fun e => e.1 == block && e.2.1 == x)
      = none := by
    rw [List.find?_eq_none]
    intro e he
    simpa only [Bool.not_eq_true', Bool.not_eq_true] using (List.mem_filter.1 he).2
  simp only [State.rightsOf, State.withRight, List.find?_append, hgone, Option.none_or, List.find?_singleton, beq_self_eq_true,
    Bool.and_self, if_true, Option.map_some, Option.getD_some]

theorem State.rightsOf_withRight_ne (s : State) {block x b y : Nat} (r : BitVec 3) (h : ¬(b = block ∧ y = x)) :
    (s.withRight block x r).rightsOf b y = s.rightsOf b y := by
  have hkeep : (fun e : Nat × Nat × BitVec 3 => decide ((!(e.1 == block && e.2.1 == x)) = true ∧ (e.1 == b && e.2.1 == y) = true))
      = fun e => e.1 == b && e.2.1 == y := by
    funext e
    rw [Bool.eq_iff_iff, decide_eq_true_eq, and_iff_right_iff_imp, Bool.not_eq_true', Bool.eq_false_iff]
    intro he hgone
    simp only [Bool.and_eq_true, beq_iff_eq] at he hgone
    exact h ⟨he.1.symm.trans hgone.1, he.2.symm.trans hgone.2⟩
  have hnew : ¬(block == b && x == y) = true := by
    simp only [Bool.and_eq_true, beq_iff_eq]
    exact fun e => h ⟨e.1.symm, e.2.symm⟩
  simp only [State.rightsOf, State.withRight, List.find?_append, List.find?_filter, List.find?_singleton, hkeep, hnew, if_false,
    Option.or_none, Bool.false_eq_true]

/-! ## Q_TAIL and Q_CTL (R184, R185) -/

/-- The fields that a write of Q_CTL gives a queue, with what becomes of EN. -/
def Queue.controlled (Q : Queue) (v : Word) (en : Bool) : Queue :=
  { Q with
    irq := v.getLsbD 8
    qprio := (v.extractLsb' 2 2).toNat
    log2n := if Q.en then Q.log2n else (v.extractLsb' 4 4).toNat
    en := en }

/-- Whether a queue's rings may be enabled: at least 16 slots, and capabilities that reach them (R184). -/
def State.ringsOk (s : State) (ctx : Nat) (Q : Queue) (log2n : Nat) : Bool :=
  decide (4 ≤ log2n) && s.ringOk ctx Q.ring (256 * 2 ^ log2n) needR && s.ringOk ctx Q.cpl (16 * 2 ^ log2n) needW

section

variable {s : State} {ctx q : Nat} {v : Word}

/-- A write that clears EN. -/
theorem execQCtl_clears (ha : s.mayWrite 0 .hostVf = true) (hctx : ctx < 64) (hq : q < 16) (hv : v.getLsbD 31 = false) :
    exec (.qCtl ctx q v) s = .next (s.updQueue ctx q fun _ => ((s.ctx ctx).queue q).controlled v false) := by
  rw [exec_qCtl, execQCtl, State.gated_allowed _ ha, if_neg (by omega)]
  simp only [hv, Bool.false_and, Bool.false_eq_true, if_false]
  rfl

/-- An enabled queue stays enabled. -/
theorem execQCtl_stays (ha : s.mayWrite 0 .hostVf = true) (hctx : ctx < 64) (hq : q < 16) (hv : v.getLsbD 31 = true)
    (hen : ((s.ctx ctx).queue q).en = true) :
    exec (.qCtl ctx q v) s = .next (s.updQueue ctx q fun _ => ((s.ctx ctx).queue q).controlled v true) := by
  rw [exec_qCtl, execQCtl, State.gated_allowed _ ha, if_neg (by omega)]
  simp only [hv, hen, Queue.controlled, Bool.true_or, Bool.and_self, Bool.not_true, Bool.and_false, Bool.false_eq_true,
    if_false]

/-- A queue is enabled when its rings may be; completions that were held are written then. -/
theorem execQCtl_enables (ha : s.mayWrite 0 .hostVf = true) (hctx : ctx < 64) (hq : q < 16) (hv : v.getLsbD 31 = true)
    (hen : ((s.ctx ctx).queue q).en = false) :
    let Q := (s.ctx ctx).queue q
    let ok := s.ringsOk ctx Q (v.extractLsb' 4 4).toNat
    let u := s.updQueue ctx q fun _ => Q.controlled v ok
    exec (.qCtl ctx q v) s = .next (if ok then u.flushHeld ctx q else u) := by
  dsimp only
  rw [exec_qCtl, execQCtl, State.gated_allowed _ ha, if_neg (by omega)]
  simp only [hv, hen, Queue.controlled, Bool.false_or, Bool.true_and, Bool.not_false, Bool.and_true, Bool.false_eq_true,
    if_false]
  rfl

end

/-- With no completion held, setting EN writes none: memory and the queue stay. -/
theorem State.flushHeld_none {s : State} {ctx q : Nat} (h : ((s.ctx ctx).queue q).held = []) :
    (s.flushHeld ctx q).mem = s.mem ∧ ((s.flushHeld ctx q).ctx ctx).queue q = (s.ctx ctx).queue q := by
  have e : s.flushHeld ctx q = s.updCtx ctx fun X => X.setQueue q { X.queue q with held := [] } := by
    simp only [State.flushHeld, h, List.foldl_nil]
  rw [e, State.ctx_updCtx_self, Context.queue_setQueue_self, ← h]
  exact ⟨rfl, rfl⟩

end Sys2Proof.Machine
end

section
/-! PROOFS. Registers as they read (R4, R6, R184, R327, R342). -/

namespace Sys2Proof.Machine

open Sys2Proof

/-- A read of a register of a block: its value to a master that may read the block, else Unsupported Request and a record
of the event log (R348). -/
theorem State.perform_registerRead {s : State} {r : ReadReg} {block : Nat} {x y : DWord} (m : Master)
    (h : s.regValue r = (some block, y)) (hy : y = x) : s.perform (.registerRead m r)
      = if (s.rightsOf block (Master.code m)).getLsbD 2 then s.tellMaster m (.value x)
        else (s.logAdd 2 0 []).tellMaster m .unsupported := by
  subst hy
  change s.registerRead m r = _
  unfold State.registerRead
  rw [h]
  rfl

theorem State.queueReg_of {ctx q : Nat} (hctx : ctx < 64) (hq : q < 16) (s : State) (f : Queue → DWord) :
    s.queueReg ctx q f = f ((s.ctx ctx).queue q) := if_pos ⟨hctx, hq⟩

theorem State.bankReg_of {n : Nat} (hn : n < 55) (s : State) (i : Nat) : s.bankReg n i = (s.bank n).regs.getD i 0 :=
  if_pos hn

theorem toNat_append_eq_add {m n : Nat} (x : BitVec m) (y : BitVec n) : (x ++ y).toNat = x.toNat * 2 ^ n + y.toNat := by
  rw [BitVec.toNat_append, ← Nat.shiftLeft_add_eq_or_of_lt y.isLt, Nat.shiftLeft_eq]

theorem toNat_ofBool_eq_bitNat (b : Bool) : (BitVec.ofBool b).toNat = bitNat b := by cases b <;> rfl

/-- The fields of Q_CTL, from bit 63 down (R184). -/
theorem Queue.ctl_eq_fields (Q : Queue) : BitVec.ofNat 64 Q.ctl = (0 : BitVec 32) ++ BitVec.ofBool Q.en ++ (0 : BitVec 22)
    ++ BitVec.ofBool Q.irq ++ BitVec.ofNat 4 Q.log2n ++ BitVec.ofNat 2 Q.qprio ++ (0 : BitVec 2) := by
  apply BitVec.eq_of_toNat_eq
  simp only [toNat_append_eq_add, toNat_ofBool_eq_bitNat, BitVec.toNat_ofNat, BitVec.ofNat_eq_ofNat]
  have h1 : bitNat Q.en ≤ 1 := by cases Q.en <;> decide
  have h2 : bitNat Q.irq ≤ 1 := by cases Q.irq <;> decide
  simp only [Queue.ctl]
  omega

/-- The fields of MB_STAT, from bit 63 down (R342). -/
theorem Mailbox.stat_eq_fields (M : Mailbox) : BitVec.ofNat 64 M.stat
    = (0 : BitVec 32) ++ BitVec.ofBool M.busy ++ (0 : BitVec 15) ++ BitVec.ofNat 16 M.result := by
  apply BitVec.eq_of_toNat_eq
  simp only [toNat_append_eq_add, toNat_ofBool_eq_bitNat, BitVec.toNat_ofNat, BitVec.ofNat_eq_ofNat]
  have h1 : bitNat M.busy ≤ 1 := by cases M.busy <;> decide
  simp only [Mailbox.stat]
  omega

/-- Where a word of Q_CTL's layout has its fields; its other bits are 0. -/
theorem qCtl_layout (en irq : Bool) (l : BitVec 4) (p : BitVec 2) :
    let x : DWord := (0 : BitVec 32) ++ BitVec.ofBool en ++ (0 : BitVec 22) ++ BitVec.ofBool irq ++ l ++ p ++ (0 : BitVec 2)
    x.getLsbD 31 = en ∧ x.getLsbD 8 = irq ∧ x.extractLsb' 4 4 = l ∧ x.extractLsb' 2 2 = p ∧ x &&& ~~~0x800001FC = 0 := by
  revert en irq l p
  decide +kernel

/-- Where a word of MB_STAT's layout has its fields; its other bits are 0. -/
theorem mbStat_layout (busy : Bool) (r : BitVec 16) :
    let x : DWord := (0 : BitVec 32) ++ BitVec.ofBool busy ++ (0 : BitVec 15) ++ r
    x.getLsbD 31 = busy ∧ x.extractLsb' 0 16 = r ∧ x &&& ~~~0x8000FFFF = 0 := by
  refine ⟨?_, ?_, ?_⟩
  · simp only [BitVec.getLsbD_append]
    simp
  · apply BitVec.eq_of_getLsbD_eq
    intro i hi
    simp only [BitVec.getLsbD_extractLsb', BitVec.getLsbD_append]
    simp [hi]
  · apply BitVec.eq_of_getLsbD_eq
    intro i hi
    simp only [BitVec.getLsbD_and, BitVec.getLsbD_append]
    interval_cases i <;> simp

/-- Q_CTL reads a queue's EN, IRQ, LOG2N and QPRIO, and 0 in its reserved fields (R184). -/
theorem Queue.ctl_fields (Q : Queue) : (BitVec.ofNat 64 Q.ctl).getLsbD 31 = Q.en ∧ (BitVec.ofNat 64 Q.ctl).getLsbD 8 = Q.irq
    ∧ (BitVec.ofNat 64 Q.ctl).extractLsb' 4 4 = BitVec.ofNat 4 Q.log2n
    ∧ (BitVec.ofNat 64 Q.ctl).extractLsb' 2 2 = BitVec.ofNat 2 Q.qprio ∧ BitVec.ofNat 64 Q.ctl &&& ~~~0x800001FC = 0 := by
  rw [Queue.ctl_eq_fields]
  exact qCtl_layout ..

/-- MB_STAT reads the busy bit and the result, and 0 in its reserved fields (R342). -/
theorem Mailbox.stat_fields (M : Mailbox) : (BitVec.ofNat 64 M.stat).getLsbD 31 = M.busy
    ∧ (BitVec.ofNat 64 M.stat).extractLsb' 0 16 = BitVec.ofNat 16 M.result ∧ BitVec.ofNat 64 M.stat &&& ~~~0x8000FFFF = 0 := by
  rw [Mailbox.stat_eq_fields]
  exact mbStat_layout ..

theorem CtxState.ofNat_code (c : CtxState) : BitVec.ofNat 64 c.code = (match c with
    | .free => 0
    | .active => 1
    | .faulted => 2
    | .resetting => 3) := by cases c <;> rfl

end Sys2Proof.Machine
end

section
/-! PROOFS. The statement on the host's registers, group by group. -/

namespace Sys2Proof.Machine

open Sys2Proof

section

variable {s : State} {m : Master} {ctx q n i : Nat} {v : DWord} {w : Word}

/-! ## Writes of a queue's registers (R184, R185) -/

theorem execQTail_allowed (ha : s.mayWrite 0 .hostVf = true) (hctx : ctx < 64) (hq : q < 16) :
    ∃ t, exec (.qTail ctx q w) s = .next t ∧ s.sameMemory t ∧ t.teams = s.teams
      ∧ (t.ctx ctx).queue q = (if w.toNat < 2 ^ ((s.ctx ctx).queue q).log2n
          then { (s.ctx ctx).queue q with tail := w.toNat, posted := s.hostGall } else (s.ctx ctx).queue q) :=
  ⟨_, congrArg Host.Outcome.next (State.gated_allowed _ ha), State.updQueue_spec hctx hq s _⟩

theorem execQCtl_clears_spec (ha : s.mayWrite 0 .hostVf = true) (hctx : ctx < 64) (hq : q < 16) (hv : w.getLsbD 31 = false) :
    ∃ t, exec (.qCtl ctx q w) s = .next t ∧ s.sameMemory t ∧ t.teams = s.teams
      ∧ (t.ctx ctx).queue q = ((s.ctx ctx).queue q).controlled w false :=
  ⟨_, execQCtl_clears ha hctx hq hv, State.updQueue_spec hctx hq s _⟩

theorem execQCtl_stays_spec (ha : s.mayWrite 0 .hostVf = true) (hctx : ctx < 64) (hq : q < 16) (hv : w.getLsbD 31 = true)
    (hen : ((s.ctx ctx).queue q).en = true) :
    ∃ t, exec (.qCtl ctx q w) s = .next t ∧ s.sameMemory t ∧ t.teams = s.teams
      ∧ (t.ctx ctx).queue q = ((s.ctx ctx).queue q).controlled w true :=
  ⟨_, execQCtl_stays ha hctx hq hv hen, State.updQueue_spec hctx hq s _⟩

theorem execQCtl_enables_spec (ha : s.mayWrite 0 .hostVf = true) (hctx : ctx < 64) (hq : q < 16) (hv : w.getLsbD 31 = true)
    (hen : ((s.ctx ctx).queue q).en = false) (hheld : ((s.ctx ctx).queue q).held = []) :
    ∃ t, exec (.qCtl ctx q w) s = .next t ∧ s.sameMemory t
      ∧ (t.ctx ctx).queue q = ((s.ctx ctx).queue q).controlled w
          (s.ringsOk ctx ((s.ctx ctx).queue q) (w.extractLsb' 4 4).toNat) := by
  have hexec := execQCtl_enables ha hctx hq hv hen
  dsimp only at hexec
  obtain ⟨hmem, -, hqueue⟩ := State.updQueue_spec hctx hq s fun _ => ((s.ctx ctx).queue q).controlled w
    (s.ringsOk ctx ((s.ctx ctx).queue q) (w.extractLsb' 4 4).toNat)
  refine ⟨_, hexec, ?_⟩
  split
  · obtain ⟨hm, hk⟩ := State.flushHeld_none ((congrArg Queue.held hqueue).trans hheld)
    refine ⟨?_, hk.trans hqueue⟩
    unfold State.sameMemory
    rw [hm]
    exact hmem
  · exact ⟨hmem, hqueue⟩

/-! ## Writes of the other registers -/

/-- The registers of R184, R327 and R342 that no master changes. -/
theorem execRegisterWrite_readOnly (block : Nat) (r : DevReg)
    (hr : (block, r) ∈ [(0, DevReg.qHead ctx q), (0, .ctxState ctx), (1, .mbStat), (2, .mcAddr n), (2, .mcInfo n)]) :
    (s.mayWrite block m = true → exec (.registerWrite m r v) s = .next s)
      ∧ (s.mayWrite block m = false → exec (.registerWrite m r v) s = .next (s.logAdd 2 0 [])) := by
  simp only [List.mem_cons, Prod.mk.injEq, List.not_mem_nil, or_false] at hr
  obtain ⟨rfl, rfl⟩ | ⟨rfl, rfl⟩ | ⟨rfl, rfl⟩ | ⟨rfl, rfl⟩ | ⟨rfl, rfl⟩ := hr <;>
    exact ⟨State.next_gated_allowed id, State.next_gated_denied id⟩

/-- A queue's register that a write sets while EN is 0. -/
theorem State.gated_updQueue_spec (ha : s.mayWrite 0 m = true) (hctx : ctx < 64) (hq : q < 16) (f : Queue → Queue) :
    ∃ t, (.next (s.gated 0 m fun s => s.updQueue ctx q f) : Result) = .next t ∧ s.sameMemory t
      ∧ (t.ctx ctx).queue q = f ((s.ctx ctx).queue q) := by
  obtain ⟨hmem, -, hqueue⟩ := State.updQueue_spec hctx hq s f
  exact ⟨_, State.next_gated_allowed _ ha, hmem, hqueue⟩

theorem execRegisterWrite_msix (ha : s.mayWrite 0 m = true) (hctx : ctx < 64) (hn : n < 68) :
    ∃ t, exec (.registerWrite m (.msix ctx n) v) s = .next t ∧ s.sameMemory t
      ∧ (t.ctx ctx).msix.find n = some (v.setWidth 32) := by
  refine ⟨_, (State.next_gated_allowed _ ha).trans (congrArg _ (if_pos ⟨hctx, hn⟩)), State.sameMemory_of_mem rfl, ?_⟩
  rw [State.ctx_updCtx_self]
  exact AMap.find_put_self ..

theorem execRegisterWrite_mbReq (ha : s.mayWrite 1 m = true) (hfree : s.mailbox.busy = false) (hi : i < 64)
    (hset : i < 2 ∨ 8 ≤ i) :
    ∃ t, exec (.registerWrite m (.mbReq i) v) s = .next t ∧ t.mailbox.busy = false
      ∧ ∀ j, j < 64 → t.mailbox.req.getD j 0 = if j = i then v.setWidth 8 else s.mailbox.req.getD j 0 := by
  have hpass : ¬(s.mailbox.busy = true ∨ 64 ≤ i ∨ (2 ≤ i ∧ i < 8)) := by
    simp only [hfree, Bool.false_eq_true, false_or]
    omega
  exact ⟨_, (State.next_gated_allowed _ ha).trans (congrArg _ (if_neg hpass)), hfree, fun j hj => setByteAt_getD hj ..⟩

theorem execRegisterWrite_mbReq_busy (ha : s.mayWrite 1 m = true) (hbusy : s.mailbox.busy = true) :
    exec (.registerWrite m (.mbReq i) v) s = .next s :=
  (State.next_gated_allowed _ ha).trans (congrArg _ (if_pos (.inl hbusy)))

/-- MB_GO of a free mailbox takes a 1 and notes who asked. -/
theorem execRegisterWrite_mbGo (ha : s.mayWrite 1 m = true) (hfree : s.mailbox.busy = false) (hv : v.setWidth 32 = (1 : Word)) :
    exec (.registerWrite m .mbGo v) s = .next { s with mailbox := { s.mailbox with busy := true, asker := m } } := by
  have hgo : ¬(s.mailbox.busy = true ∨ v.setWidth 32 ≠ (1 : Word)) := by simp [hfree, hv]
  exact (State.next_gated_allowed _ ha).trans (congrArg _ (if_neg hgo))

theorem execRegisterWrite_mbGo_ignored (ha : s.mayWrite 1 m = true) (h : s.mailbox.busy = true ∨ v.setWidth 32 ≠ (1 : Word)) :
    exec (.registerWrite m .mbGo v) s = .next s :=
  (State.next_gated_allowed _ ha).trans (congrArg _ (if_pos h))

theorem execMcStatus_allowed (ha : s.mayWrite 2 m = true) (hn : n < 55) :
    ∃ t, exec (.mcStatus m n v) s = .next t ∧ s.sameMemory t
      ∧ t.bank n = (if v.getLsbD 63 then { s.bank n with status := 0 } else s.bank n) ∧ ∀ k, k ≠ n → t.bank k = s.bank k :=
  ⟨_, State.next_gated_allowed _ ha, State.sameMemory_of_mem (State.updBank_mem ..), State.bank_updBank_self hn s _,
    fun _ hk => State.bank_updBank_ne hk s _⟩

theorem execRegisterWrite_mcCount (ha : s.mayWrite 2 m = true) (hn : n < 55) :
    ∃ t, exec (.registerWrite m (.mcCount n) v) s = .next t ∧ (t.bank n).ccount = v.toNat % 2 ^ 32
      ∧ (t.bank n).kcount = v.toNat / 2 ^ 32 % 2 ^ 16 ∧ (t.bank n).fcount = v.toNat / 2 ^ 48 % 2 ^ 8 := by
  refine ⟨_, State.next_gated_allowed _ ha, ?_⟩
  rw [State.bank_updBank_self hn]
  exact Bank.setCounts_counts ..

/-- Jasper sets one entry of the access tables, once its firmware runs (R22, R348). -/
theorem execRegisterWrite_access (ha : s.mayWrite 5 m = true) (hm : m = .jasper) (hh : s.held = false) (hn : n < 6)
    (hi : i < 7) : exec (.registerWrite m (.access n i) v) s = .next (s.withRight n i (v.setWidth 3)) := by
  have hset : m = .jasper ∧ (!s.held) = true ∧ n < 6 ∧ i < 7 := ⟨hm, by rw [hh]; rfl, hn, hi⟩
  exact (State.next_gated_allowed _ ha).trans (congrArg _ (if_pos hset))

theorem execRegisterWrite_access_ignored (ha : s.mayWrite 5 m = true) (h : m ≠ .jasper ∨ s.held = true ∨ 6 ≤ n ∨ 7 ≤ i) :
    exec (.registerWrite m (.access n i) v) s = .next s := by
  have hout : ¬(m = .jasper ∧ (!s.held) = true ∧ n < 6 ∧ i < 7) := by
    rintro ⟨hm, hh, hn, hi⟩
    rw [Bool.not_eq_true'] at hh
    rcases h with h | h | h | h
    · exact h hm
    · rw [hh] at h
      cases h
    · omega
    · omega
  exact (State.next_gated_allowed _ ha).trans (congrArg _ (if_neg hout))

end

theorem Queue.controlled_of_enabled {Q : Queue} (h : Q.en = true) (v : Word) :
    Q.controlled v true = { Q with irq := v.getLsbD 8, qprio := (v.extractLsb' 2 2).toNat } := by
  simp only [Queue.controlled, h, if_true]

theorem State.ringOk_iff (s : State) (ctx : Nat) (cap : DWord) (bytes : Nat) (need : BitVec 4) :
    s.ringOk ctx cap bytes need = true ↔ capObj cap ≠ 0 ∧ (s.objEntry ctx (capObj cap)).valid = true
      ∧ need &&& ~~~(capRights cap &&& (s.objEntry ctx (capObj cap)).rights) = 0
      ∧ capOff cap + bytes ≤ (s.objEntry ctx (capObj cap)).length := by
  simp only [State.ringOk, Bool.and_eq_true, bne_iff_ne, beq_iff_eq, decide_eq_true_eq, and_assoc]

/-- Settles O42: the gate of the access tables decides every write (`State.gated_denied`, `State.gated_allowed`), the
updates of queues, contexts, banks and tables give what is let through, and `State.perform_registerRead` gives the reads. -/
theorem hostRegisters : Obligations.HostRegisters := by
  intro s m ctx q n i v w Q queue denied told reads
  refine ⟨
    -- writes that the tables deny
    fun h => ⟨State.next_gated_denied _ h, State.next_gated_denied _ h⟩,
    fun h => ⟨State.next_gated_denied _ h, State.next_gated_denied _ h, State.next_gated_denied _ h⟩,
    fun h => ⟨State.next_gated_denied _ h, State.next_gated_denied _ h⟩,
    fun h => ⟨State.next_gated_denied _ h, State.next_gated_denied _ h, State.next_gated_denied _ h⟩,
    fun h => State.next_gated_denied _ h,
    -- Q_TAIL and Q_CTL
    fun hctx hq ha => ⟨execQTail_allowed ha hctx hq, execQCtl_clears_spec ha hctx hq, fun hv hen hheld => ?enables,
      fun hv hen => ?stays⟩,
    -- the other registers: read-only ones, queues and vectors, the mailbox, the banks, the tables, those not listed
    execRegisterWrite_readOnly,
    fun hctx hq ha => ⟨State.gated_updQueue_spec ha hctx hq _, State.gated_updQueue_spec ha hctx hq _,
      execRegisterWrite_msix ha hctx⟩,
    fun ha hfree => ⟨execRegisterWrite_mbReq ha hfree, execRegisterWrite_mbGo ha hfree,
      fun hv => execRegisterWrite_mbGo_ignored ha (.inr hv)⟩,
    fun ha hbusy => ⟨execRegisterWrite_mbGo_ignored ha (.inl hbusy), execRegisterWrite_mbReq_busy ha hbusy⟩,
    fun hn ha => ⟨execMcStatus_allowed ha hn, ⟨_, State.next_gated_allowed _ ha, State.bank_updBank_self hn s _⟩,
      execRegisterWrite_mcCount ha hn⟩,
    fun ha => ⟨fun hm hh hn hi => ⟨_, execRegisterWrite_access ha hm hh hn hi, State.rightsOf_withRight_self ..,
      fun b x h => State.rightsOf_withRight_ne s _ h⟩, execRegisterWrite_access_ignored ha⟩,
    fun k => ⟨rfl, rfl⟩,
    -- reads: write-only registers, queues, contexts, the mailbox, the banks, sensors, the tables
    State.perform_registerRead m rfl rfl, State.perform_registerRead m rfl rfl,
    fun hctx hq => ⟨State.perform_registerRead m rfl (State.queueReg_of hctx hq s _),
      State.perform_registerRead m rfl (State.queueReg_of hctx hq s _),
      State.perform_registerRead m rfl (State.queueReg_of hctx hq s _),
      _, State.perform_registerRead m rfl (State.queueReg_of hctx hq s _), Q.ctl_fields⟩,
    fun hctx => ⟨State.perform_registerRead m rfl ((if_pos hctx).trans (CtxState.ofNat_code _)),
      fun hn => State.perform_registerRead m rfl (if_pos ⟨hctx, hn⟩)⟩,
    fun hi => State.perform_registerRead m rfl (if_pos hi),
    ⟨_, State.perform_registerRead m rfl rfl, s.mailbox.stat_fields⟩,
    fun hn => ⟨State.perform_registerRead m rfl (State.bankReg_of hn s 0),
      State.perform_registerRead m rfl (State.bankReg_of hn s 1), State.perform_registerRead m rfl (State.bankReg_of hn s 2),
      State.perform_registerRead m rfl (State.bankReg_of hn s 3), State.perform_registerRead m rfl (State.bankReg_of hn s 4)⟩,
    fun hn => State.perform_registerRead m rfl (if_pos hn), State.perform_registerRead m rfl rfl⟩
  case enables =>
    obtain ⟨t, hexec, hmem, hqueue⟩ := execQCtl_enables_spec ha hctx hq hv hen hheld
    refine ⟨t, hexec, hmem, (congrArg Queue.log2n hqueue).trans (if_neg (by rw [hen]; decide)), ?_⟩
    simp only [queue, hqueue, Queue.controlled, State.ringsOk, Bool.and_eq_true, decide_eq_true_eq, State.ringOk_iff, and_assoc]
    rfl
  case stays =>
    rw [← Queue.controlled_of_enabled hen w]
    exact execQCtl_stays_spec ha hctx hq hv hen

end Sys2Proof.Machine
end

section
/-! PROOFS. Self-test slices (R23, R200, R334, R337). -/

namespace Sys2Proof.Machine

open Sys2Proof

/-! ## Records of the machine-check banks and of the log -/

/-- A machine-check event reaches the banks, the event log, the interrupts and the side band, and nothing else (R327, R328). -/
theorem State.mcRecord_spec (s : State) (bank code : Nat) (cls : McClass) (source : Nat) (addr info : Option Nat) :
    ∃ banks log logNext irqs sideband, s.mcRecord bank code cls source addr info = { s with banks, log, logNext, irqs, sideband } := by
  unfold State.mcRecord State.logAdd
  dsimp only
  split_ifs
  all_goals exact ⟨_, _, _, _, _, rfl⟩

/-! ## The calendar of a core -/

theorem Core.open_of_due {K : Core} {now : Nat} (h : K.slotDue ≤ now) : K.open now = false := by
  simp only [Core.open, decide_eq_false (Nat.not_lt.2 h), Bool.and_false]

theorem State.occupied_eq_false (s : State) (core : Nat) : s.occupied core = false
    ↔ ∀ x ∈ s.teams, x.2.core = core → x.2.state = .retired ∨ x.2.state = .evicted := by
  simp only [State.occupied, List.any_eq_false, Bool.and_eq_true, beq_iff_eq, bne_iff_ne, not_and, not_not, and_imp,
    or_iff_not_imp_left]

theorem State.occupied_eq_true (s : State) (core : Nat) : s.occupied core = true
    ↔ ∃ x ∈ s.teams, x.2.core = core ∧ x.2.state ≠ .retired ∧ x.2.state ≠ .evicted := by
  simp only [State.occupied, List.any_eq_true, Bool.and_eq_true, beq_iff_eq, bne_iff_ne, and_assoc]

/-- After a lapse the next due time is the first one in steps of 37.5 s that is still to come (R200). -/
theorem nextDue_spec {due now : Nat} (h : due ≤ now) : now < nextDue due now ∧ nextDue due now ≤ now + onyxStep := by
  have hdiv := Nat.div_add_mod (now - due) onyxStep
  have hmod : (now - due) % onyxStep < onyxStep := Nat.mod_lt _ (by decide)
  simp only [nextDue, Nat.mul_add, Nat.mul_one]
  omega

/-- A core that is offline is in no allotment (R192). -/
theorem State.notMem_allotted {s : State} {core : Nat} (h : (s.core core).offline = true) (ctx : Nat) :
    core ∉ s.allotted ctx := by
  simp only [State.allotted, List.mem_filter, h, Bool.not_true, Bool.and_false, Bool.false_eq_true, and_false,
    not_false_eq_true]

/-! ## The events of a slice -/

section

variable {s : State} {core : Nat}

theorem execOnyxDue_due (hc : core < 320) (hw : (s.core core).withheld = none) (ht : (s.core core).testing = none)
    (ho : (s.core core).offline = false) (h : (s.core core).slotDue ≤ s.ftime) :
    exec (.onyxDue core) s = .next (s.setCore core { s.core core with withheld := some (s.core core).slotDue }) :=
  (exec_onyxDue core s).trans (congrArg _ (if_pos ⟨hc, h, hw, ht, ho⟩))

theorem execOnyxDue_early (h : s.ftime < (s.core core).slotDue) : exec (.onyxDue core) s = .next s :=
  (exec_onyxDue core s).trans (congrArg _ (if_neg fun hdue => Nat.not_le.2 h hdue.2.1))

/-- What ONYX_SLICE does on a withheld core. -/
theorem execOnyxSlice_withheld {w : Nat} (hw : (s.core core).withheld = some w) :
    exec (.onyxSlice core) s = .next (if s.ftime < w + onyxLimit ∧ s.occupied core = false then
      s.setCore core { s.core core with testing := some s.ftime, withheld := none } else s) := by
  simp only [exec_onyxSlice, execOnyxSlice, hw]

/-- What ONYX_LAPSE does on a withheld core. -/
theorem execOnyxLapse_withheld {w : Nat} (hw : (s.core core).withheld = some w) :
    exec (.onyxLapse core) s = .next (if w + onyxLimit ≤ s.ftime then
      (s.setCore core { s.core core with
        withheld := none, onyxDue := (s.core core).onyxDue + onyxStep, onyxFree := nextDue (s.core core).onyxDue s.ftime }).mcRecord
          54 0x0903 .corrected core none none
      else s) := by
  simp only [exec_onyxLapse, execOnyxLapse, hw]

/-- A core as the end of its slice leaves it (R200, R337). -/
def Core.tested (K : Core) : Core :=
  { K with testing := none, onyxDue := K.onyxDue + onyxStep, onyxFree := 0, onyxSlice := (K.onyxSlice + 1) % 16 }

theorem execOnyxSliceEnd_early {w : Nat} (hw : (s.core core).testing = some w) (h : s.ftime < w + onyxTime) (fail : Bool) :
    exec (.onyxSliceEnd core fail) s = .next s := by
  simp only [exec_onyxSliceEnd, execOnyxSliceEnd, hw, if_pos h]

theorem execOnyxSliceEnd_passes {w : Nat} (hw : (s.core core).testing = some w) (h : w + onyxTime ≤ s.ftime) :
    exec (.onyxSliceEnd core false) s = .next (s.setCore core (s.core core).tested) := by
  simp only [exec_onyxSliceEnd, execOnyxSliceEnd, hw, if_neg (Nat.not_lt.2 h), Bool.or_false, Bool.false_eq_true, if_false]
  rfl

theorem execOnyxSliceEnd_fails {w : Nat} (hw : (s.core core).testing = some w) (h : w + onyxTime ≤ s.ftime) :
    exec (.onyxSliceEnd core true) s
      = .next ((s.setCore core { (s.core core).tested with offline := true }).mcRecord 54 0x0902 .contained core none none) := by
  simp only [exec_onyxSliceEnd, execOnyxSliceEnd, hw, if_neg (Nat.not_lt.2 h), Bool.or_true, if_true]
  rfl

/-- A core that a machine-check event follows is as it was set, and memory is as before. -/
theorem State.mcRecord_setCore (K : Core) (bank code : Nat) (cls : McClass) (source : Nat) (addr info : Option Nat) :
    let t := (s.setCore core K).mcRecord bank code cls source addr info
    s.sameMemory t ∧ t.core core = K := by
  obtain ⟨_, _, _, _, _, h⟩ := (s.setCore core K).mcRecord_spec bank code cls source addr info
  rw [h]
  exact ⟨State.sameMemory_of_mem rfl, State.core_setCore_self ..⟩

theorem execOnyxLapse_spec {w : Nat} (hw : (s.core core).withheld = some w) (h : w + onyxLimit ≤ s.ftime)
    (hdue : (s.core core).onyxDue ≤ s.ftime) :
    ∃ t n, exec (.onyxLapse core) s = .next t ∧ s.sameMemory t
      ∧ t.core core = { s.core core with
          withheld := none, onyxDue := (s.core core).onyxDue + onyxStep, onyxFree := (s.core core).onyxDue + onyxStep * n }
      ∧ s.ftime < (t.core core).onyxFree ∧ (t.core core).onyxFree ≤ s.ftime + onyxStep := by
  obtain ⟨hmem, hcore⟩ := State.mcRecord_setCore (s := s) (core := core) { s.core core with
    withheld := none, onyxDue := (s.core core).onyxDue + onyxStep, onyxFree := nextDue (s.core core).onyxDue s.ftime }
    54 0x0903 .corrected core none none
  refine ⟨_, _, (execOnyxLapse_withheld hw).trans (congrArg _ (if_pos h)), hmem, hcore, ?_⟩
  rw [hcore]
  exact nextDue_spec hdue

/-- A slice that fails takes the core out of every allotment (R337). -/
theorem execOnyxSliceEnd_fails_spec {w : Nat} (hw : (s.core core).testing = some w) (h : w + onyxTime ≤ s.ftime) :
    ∃ t, exec (.onyxSliceEnd core true) s = .next t ∧ s.sameMemory t
      ∧ t.core core = { (s.core core).tested with offline := true } ∧ ∀ ctx, core ∉ t.allotted ctx := by
  obtain ⟨hmem, hcore⟩ := State.mcRecord_setCore (s := s) (core := core) { (s.core core).tested with offline := true }
    54 0x0902 .contained core none none
  exact ⟨_, execOnyxSliceEnd_fails hw h, hmem, hcore, State.notMem_allotted (congrArg Core.offline hcore)⟩

end

/-- Settles O46: one lemma for each event of a slice says what it does to the core, `nextDue_spec` places the due time after
a lapse, and a core set offline is in no allotment. -/
theorem onyxSlices : Obligations.OnyxSlices := by
  intro s core K due
  refine ⟨Core.open_of_due, fun hc hw ht ho => ⟨execOnyxDue_due hc hw ht ho, execOnyxDue_early⟩,
    fun w hw => ⟨fun hlt hfree => ?runs, fun h => ?waits, execOnyxLapse_spec hw, fun hlt => ?early⟩,
    fun w hw hlt => execOnyxSliceEnd_early hw hlt,
    fun w hw hle => ⟨execOnyxSliceEnd_passes hw hle, execOnyxSliceEnd_fails_spec hw hle⟩⟩
  case runs => exact (execOnyxSlice_withheld hw).trans (congrArg _ (if_pos ⟨hlt, (s.occupied_eq_false core).2 hfree⟩))
  case waits =>
    refine (execOnyxSlice_withheld hw).trans (congrArg _ (if_neg fun hrun => ?_))
    rcases h with hle | hheld
    · exact Nat.not_le.2 hrun.1 hle
    · rw [(s.occupied_eq_true core).2 hheld] at hrun
      cases hrun.2
  case early => exact (execOnyxLapse_withheld hw).trans (congrArg _ (if_neg (Nat.not_le.2 hlt)))

end Sys2Proof.Machine
end

section
/-! PROOFS. What the accesses of memory, the writing of completions and the kill path leave of the launches, the teams, the
marks of a fatal event and the host link (R188, R313, R324). -/

namespace Sys2Proof

/-! ## Maps -/

section

variable {α : Type}

theorem AMap.find_upd_ne (m : AMap α) {j k : Nat} (f : α → α) (h : j ≠ k) : (m.upd k f).find j = m.find j := by
  unfold AMap.upd
  split
  · exact AMap.find_put_ne _ _ h
  · rfl

theorem AMap.mem_of_find {m : AMap α} {k : Nat} {v : α} (h : m.find k = some v) : (k, v) ∈ m := by
  induction m with
  | nil => cases h
  | cons p r ih =>
    obtain ⟨j, w⟩ := p
    rw [AMap.find_cons] at h
    split at h
    case isTrue hj =>
      cases h
      exact hj ▸ .head _
    case isFalse => exact .tail _ (ih h)

end

end Sys2Proof

namespace Sys2Proof.Machine

open Sys2Proof

/-! ## Steps of the memory system -/

/-- The launches, the teams, the marks of a fatal event and the host link. -/
def State.footing (s : State) : AMap Launch × AMap Team × Bool × Bool × Bool × Nat × Nat :=
  (s.launches, s.teams, s.fatal, s.split, s.hostUp, s.hostRate, s.hostWidth)

theorem State.footing_foldl {ι : Type} {f : State → ι → State} (hf : ∀ s x, (f s x).footing = s.footing) (xs : List ι)
    (s : State) : (xs.foldl f s).footing = s.footing :=
  foldl_keeps (fun t => t.footing = s.footing) f (fun t x h => (hf t x).trans h) xs s rfl

section

variable (s : State)

@[simp] theorem State.footing_mcRecord (bank code : Nat) (cls : McClass) (source : Nat) (addr info : Option Nat) :
    (s.mcRecord bank code cls source addr info).footing = s.footing := by
  obtain ⟨_, _, _, _, _, h⟩ := s.mcRecord_spec bank code cls source addr info
  rw [h]
  rfl

@[simp] theorem State.footing_poison (secs : List Nat) : (s.poison secs).footing = s.footing := rfl

@[simp] theorem State.footing_updCtx (c : Nat) (f : Context → Context) : (s.updCtx c f).footing = s.footing := rfl

theorem State.footing_detect (sector : Nat) {record : State → State} (h : ∀ t, (record t).footing = t.footing) :
    (s.detect sector record).footing = s.footing := by
  unfold State.detect
  split
  · rfl
  · exact h _

@[simp] theorem State.footing_arrayWord (line : Nat) (wb : Nat × List Nat) : (s.arrayWord line wb).footing = s.footing := by
  unfold State.arrayWord
  dsimp only
  split
  · rfl
  · simp
  · exact s.footing_detect _ fun t => by simp

@[simp] theorem State.footing_wordCheck (line bank source sec unc : Nat) (wb : Nat × List Nat) :
    (s.wordCheck line bank source sec unc wb).footing = s.footing := by
  unfold State.wordCheck
  extract_lets a half
  have hhalf (h : Nat) (t : State) : (half h t).footing = t.footing := by
    unfold half
    split
    · rfl
    · simp
    · exact t.footing_detect _ fun u => by simp
  exact (hhalf 1 _).trans (hhalf 0 s)

@[simp] theorem State.footing_cacheCheck (line : Nat) (e : MemErr) : (s.cacheCheck line e).footing = s.footing :=
  State.footing_foldl (fun t _ => t.footing_wordCheck ..) _ s

@[simp] theorem State.footing_transfer (line : Nat) (e : MemErr) : (s.transfer line e).footing = s.footing := by
  unfold State.transfer
  extract_lets die log groups fail named
  have hlog (t : State) (code : Nat) (cls : McClass) (lane spare tries : Nat) (swap : Bool) :
      (log t code cls lane spare tries swap).footing = t.footing := t.footing_mcRecord ..
  have hfail (t : State) (bad : List Nat) (lane spare tries : Nat) (swap : Bool) :
      (fail t bad lane spare tries swap).footing = t.footing := hlog _ ..
  split
  · rfl
  · exact hlog ..
  · clear_value named
    cases named with
    | none => exact hfail ..
    | some l =>
      dsimp only
      split_ifs
      · exact hlog ..
      · exact hfail ..
      · exact hfail ..

@[simp] theorem State.footing_errMet (line : Nat) : (s.errMet line).footing = s.footing := by
  unfold State.errMet
  split <;> rfl

@[simp] theorem State.footing_llc (m : AMap Bool) : ({ s with llc := m } : State).footing = s.footing := rfl

@[simp] theorem State.footing_dropLine (line : Nat) (e : MemErr) : (s.dropLine line e).footing = s.footing := by
  simp only [State.dropLine, State.footing_llc]
  split_ifs <;> simp

@[simp] theorem State.footing_sliceRoom (line : Nat) : (s.sliceRoom line).footing = s.footing := by
  unfold State.sliceRoom
  dsimp only
  split
  · rfl
  · split
    · exact s.footing_dropLine ..
    · rfl

@[simp] theorem State.footing_bumpVersion (line : Nat) : (s.bumpVersion line).footing = s.footing := by
  unfold State.bumpVersion
  dsimp only
  split <;> rfl

@[simp] theorem State.footing_noteWrite (line : Nat) : (s.noteWrite line).footing = s.footing := by
  unfold State.noteWrite
  split
  · split <;> rfl
  · rfl

@[simp] theorem State.footing_noteRace (t a n : Nat) : (s.noteRace t a n).footing = s.footing := by
  unfold State.noteRace
  split <;> rfl

@[simp] theorem State.footing_raceAt (a n : Nat) : (s.raceAt a n).footing = s.footing := by
  unfold State.raceAt
  split
  · rfl
  · refine State.footing_foldl (fun t p => ?_) _ s
    split
    · rfl
    · exact State.footing_foldl (fun u i => u.footing_noteRace p.1 (128 * i + a % 128) n) _ t

@[simp] theorem State.footing_freeBytes (n : Nat) : (s.freeBytes n).2.footing = s.footing := by
  induction n generalizing s with
  | zero => rfl
  | succ n ih => exact ih _

@[simp] theorem State.footing_lineAway (t n : Nat) : (s.lineAway t n).2.footing = s.footing := by
  unfold State.lineAway
  dsimp only
  split
  · simp only [State.footing_freeBytes]
  · rfl

@[simp] theorem State.footing_ackCopy (core line off : Nat) (data : List Byte) (tags : List Bool) :
    (s.ackCopy core line off data tags).footing = s.footing := by
  unfold State.ackCopy
  split <;> rfl

theorem State.footing_sendRecall (line : Nat) (forWrite : Bool) : (s.sendRecall line forWrite).footing = s.footing := by
  unfold State.sendRecall
  split
  · rfl
  · split <;> rfl

theorem State.footing_writeBlocked {a n : Nat} {t : State} (h : s.writeBlocked a n = some t) : t.footing = s.footing := by
  unfold State.writeBlocked at h
  dsimp only at h
  split_ifs at h <;> cases h
  · rfl
  · exact s.footing_sendRecall ..
  · rfl

theorem State.footing_writesBlocked {ps : List (Nat × Nat)} {t : State} (h : s.writesBlocked ps = some t) :
    t.footing = s.footing := by
  induction ps generalizing s t with
  | nil => cases h
  | cons p r ih =>
    rw [State.writesBlocked] at h
    split at h
    case h_1 u hu =>
      cases h
      cases hr : u.writesBlocked r with
      | none => exact s.footing_writeBlocked hu
      | some v => exact (ih u hr).trans (s.footing_writeBlocked hu)
    case h_2 => exact ih s h

theorem State.footing_freeClaim (die : Nat) (e : QEntry) (l : Nat) : (s.freeClaim die e l).footing = s.footing := rfl

theorem State.footing_dropImm (ctx : Nat) : (s.dropImm ctx).footing = s.footing := rfl

theorem State.footing_coreVacated (c : Nat) : (s.coreVacated c).footing = s.footing := by
  unfold State.coreVacated
  split <;> rfl

end

/-! ## Steps that change teams -/

/-- From `s` to `t` no launch but those of `ls` changes, no team goes, each stays one of its launch and a retired one stays
retired, and the marks of a fatal event and the host link are as before. -/
structure State.Leaves (ls : List Nat) (s t : State) : Prop where
  launches : ∀ j, j ∉ ls → t.launches.find j = s.launches.find j
  teams : ∀ {k T}, s.teams.find k = some T →
    ∃ U, t.teams.find k = some U ∧ U.launch = T.launch ∧ (T.state = .retired → U.state = .retired)
  fatal : t.fatal = s.fatal
  split : t.split = s.split
  hostUp : t.hostUp = s.hostUp
  hostRate : t.hostRate = s.hostRate
  hostWidth : t.hostWidth = s.hostWidth

namespace State.Leaves

variable {ls : List Nat} {s t u : State}

theorem of_footing (h : t.footing = s.footing) : State.Leaves ls s t := by
  simp only [State.footing, Prod.mk.injEq] at h
  obtain ⟨hl, ht, hf, hs, hu, hr, hw⟩ := h
  exact ⟨fun j _ => by rw [hl], fun {k T} hT => ⟨T, by rw [ht, hT], rfl, id⟩, hf, hs, hu, hr, hw⟩

theorem refl (s : State) : State.Leaves ls s s := of_footing rfl

theorem trans (h : State.Leaves ls s t) (h' : State.Leaves ls t u) : State.Leaves ls s u where
  launches j hj := (h'.launches j hj).trans (h.launches j hj)
  teams hT := by
    obtain ⟨U, hU, hlaunch, hret⟩ := h.teams hT
    obtain ⟨V, hV, hlaunch', hret'⟩ := h'.teams hU
    exact ⟨V, hV, hlaunch'.trans hlaunch, fun hr => hret' (hret hr)⟩
  fatal := h'.fatal.trans h.fatal
  split := h'.split.trans h.split
  hostUp := h'.hostUp.trans h.hostUp
  hostRate := h'.hostRate.trans h.hostRate
  hostWidth := h'.hostWidth.trans h.hostWidth

/-- What follows may keep the footing exactly. -/
theorem then_footing (h : State.Leaves ls s t) (h' : u.footing = t.footing) : State.Leaves ls s u := h.trans (of_footing h')

theorem foldl {ι : Type} {f : State → ι → State} {xs : List ι} (hf : ∀ s, ∀ x ∈ xs, State.Leaves ls s (f s x)) (s : State) :
    State.Leaves ls s (xs.foldl f s) := by
  induction xs generalizing s with
  | nil => exact refl s
  | cons x r ih => exact (hf s x (.head _)).trans (ih (fun s y hy => hf s y (.tail _ hy)) _)

/-- A team's change that keeps its launch and retirement. -/
theorem setTeam {k : Nat} {T : Team} (hlaunch : T.launch = (s.team k).launch)
    (hret : (s.team k).state = .retired → T.state = .retired) : State.Leaves ls s (s.setTeam k T) where
  launches _ _ := rfl
  teams {j U} hU := by
    by_cases hj : j = k
    · subst hj
      have hteam : s.team j = U := by simp only [State.team, hU, Option.getD_some]
      rw [hteam] at hlaunch hret
      exact ⟨T, AMap.find_put_self .., hlaunch, hret⟩
    · exact ⟨U, (AMap.find_put_ne _ _ hj).trans hU, rfl, id⟩
  fatal := rfl
  split := rfl
  hostUp := rfl
  hostRate := rfl
  hostWidth := rfl

theorem updTeam {k : Nat} {f : Team → Team} (hlaunch : ∀ T, (f T).launch = T.launch) (hstate : ∀ T, (f T).state = T.state) :
    State.Leaves ls s (s.updTeam k f) :=
  setTeam (hlaunch _) fun hr => (hstate _).trans hr

theorem mapTeams {f : Nat → Team → Team} (hlaunch : ∀ k T, (f k T).launch = T.launch)
    (hstate : ∀ k T, (f k T).state = T.state) : State.Leaves ls s { s with teams := s.teams.mapVals f } where
  launches _ _ := rfl
  teams {k T} hT := ⟨f k T, (AMap.find_mapVals ..).trans (congrArg _ hT), hlaunch k T, fun hr => (hstate k T).trans hr⟩
  fatal := rfl
  split := rfl
  hostUp := rfl
  hostRate := rfl
  hostWidth := rfl

/-- A change of launches of the list. -/
theorem setLaunches {m : AMap Launch} (h : ∀ j, j ∉ ls → m.find j = s.launches.find j) :
    State.Leaves ls s { s with launches := m } :=
  ⟨h, fun {_ T} hT => ⟨T, hT, rfl, id⟩, rfl, rfl, rfl, rfl, rfl⟩

/-- A team that was found and was retired reads as retired. -/
theorem retired {k : Nat} {T : Team} (h : State.Leaves ls s t) (hT : s.teams.find k = some T) (hr : T.state = .retired) :
    (t.team k).state = .retired := by
  obtain ⟨U, hU, -, hret⟩ := h.teams hT
  simp only [State.team, hU, Option.getD_some, hret hr]

end State.Leaves

/-! ## Writes at the homes -/

section

variable {ls : List Nat} (s : State)

theorem State.noteSaved_leaves (line : Nat) : State.Leaves ls s (s.noteSaved line) := by
  unfold State.noteSaved
  dsimp only
  split
  · refine .mapTeams (fun _ T => ?_) fun _ T => ?_
    all_goals split <;> rfl
  · exact .refl s

theorem State.touchLine_leaves (line : Nat) (e : MemErr) (dirty : Bool) : State.Leaves ls s (s.touchLine line e dirty) := by
  refine (s.noteSaved_leaves line).then_footing ?_
  unfold State.touchLine
  dsimp only
  split
  · split
    · simp
    · rw [State.footing_llc]
      split_ifs
      · rw [State.footing_transfer, State.footing_foldl (fun t _ => t.footing_arrayWord ..)]
        simp
      · rw [State.footing_foldl (fun t _ => t.footing_wordCheck ..)]
        simp
      · simp
  · simp

theorem State.putLine_leaves (addr : Nat) (data : List Byte) (tag : Bool) : State.Leaves ls s (s.putLine addr data tag) :=
  (s.touchLine_leaves (addr / 128) MemErr.none true).then_footing
    ((State.footing_noteWrite ..).trans (State.footing_bumpVersion ..))

theorem State.putWhole_leaves (line : Nat) (data : Mem) : State.Leaves ls s (s.putWhole line data) :=
  (s.touchLine_leaves line MemErr.none true).then_footing
    ((State.footing_noteWrite ..).trans (State.footing_bumpVersion ..))

theorem State.recallAt_leaves (line : Nat) (forWrite : Bool) (x : Nat × Nat) :
    State.Leaves ls s (s.recallAt line forWrite x) := by
  unfold State.recallAt
  extract_lets t n T pdef g r m u v s'
  have hback : State.Leaves ls s s' := by
    unfold s'
    split
    · refine .trans ?_ (.updTeam (fun _ => rfl) fun _ => rfl)
      have hput : State.Leaves ls s u := (State.Leaves.of_footing (s.footing_lineAway t n)).trans (r.2.putWhole_leaves line m)
      refine hput.then_footing ?_
      unfold v
      split
      · exact State.footing_ackCopy ..
      · rfl
    · exact .refl s
  exact hback.trans (.updTeam (fun _ => rfl) fun _ => rfl)

theorem State.recallLine_leaves (line : Nat) (forWrite : Bool) : State.Leaves ls s (s.recallLine line forWrite) := by
  unfold State.recallLine
  split
  · exact .refl s
  · have hfold := State.Leaves.foldl (ls := ls) (xs := s.holders line ‹_›) (fun t x _ => t.recallAt_leaves line forWrite x) s
    dsimp only
    split
    · exact hfold.then_footing rfl
    · exact hfold

theorem State.writeTransition_leaves (line : Nat) : State.Leaves ls s (s.writeTransition line) :=
  (s.recallLine_leaves line true).then_footing rfl

theorem State.performWrite_leaves (addr : Nat) (data : List Byte) (tag : Bool) :
    State.Leaves ls s (s.performWrite addr data tag).1 :=
  ((State.Leaves.of_footing (s.footing_raceAt ..)).trans (State.writeTransition_leaves ..)).trans (State.putLine_leaves ..)

/-! ## Completions (R188) -/

/-- A write of the device leaves the rest whether it is made or waits. -/
theorem State.deviceWrite_leaves {ctx : Nat} {cap : DWord} {data : List Byte} {t : State}
    (h : s.deviceWrite ctx cap data = .done t ∨ s.deviceWrite ctx cap data = .wait t) : State.Leaves ls s t := by
  unfold State.deviceWrite at h
  split at h
  case h_2 => rcases h with h | h <;> cases h
  dsimp only at h
  split at h
  case h_1 u hu =>
    rcases h with h | h <;> cases h
    exact .of_footing (s.footing_writesBlocked hu)
  case h_2 =>
    rcases h with h | h <;> cases h
    exact foldl_keeps (fun r : State × List Byte => State.Leaves ls s r.1) _
      (fun r p hr => hr.trans (r.1.performWrite_leaves ..)) _ _ (.refl s)

theorem State.writeCompletion_leaves (ctx q slot : Nat) (cookie : Word) (status : Nat) (gen : Word) :
    State.Leaves ls s (s.writeCompletion ctx q slot cookie status gen) := by
  unfold State.writeCompletion
  dsimp only
  split
  · exact .of_footing rfl
  · split
    · exact .of_footing rfl
    · split
      · exact .refl s
      · split
        case h_1 => exact .of_footing rfl
        case h_2 u hu => exact (s.deviceWrite_leaves (.inr hu)).then_footing rfl
        case h_3 u hu =>
          refine (s.deviceWrite_leaves (.inl hu)).then_footing ?_
          split <;> rfl

theorem State.flushHeld_leaves (ctx q : Nat) : State.Leaves ls s (s.flushHeld ctx q) :=
  (State.Leaves.of_footing (s.footing_updCtx ..)).trans (.foldl (fun t _ _ => t.writeCompletion_leaves ..) _)

/-! ## The end of a launch (R175, R188) -/

theorem State.endLaunch_leaves {l : Nat} (hl : l ∈ ls) (status : Nat) : State.Leaves ls s (s.endLaunch l status) := by
  unfold State.endLaunch
  split
  · exact .refl s
  · split
    · exact .refl s
    · extract_lets u v
      have hu : State.Leaves ls s u := by
        refine (State.Leaves.setLaunches fun j hj => AMap.find_put_ne _ _ ?_).then_footing (t := { s with launches := _ }) rfl
        rintro rfl
        exact hj hl
      have hv : State.Leaves ls u v := by
        unfold v
        split
        · exact u.writeCompletion_leaves ..
        · exact (State.Leaves.of_footing (u.footing_freeClaim ..)).trans (.updTeam (fun _ => rfl) fun _ => rfl)
        · exact .refl u
      have huv := hu.trans hv
      split
      · exact huv
      · exact huv.then_footing (v.footing_dropImm _)

theorem State.endWhenDone_leaves {l : Nat} (hl : l ∈ ls) (status : Nat) : State.Leaves ls s (s.endWhenDone l status) := by
  unfold State.endWhenDone
  split
  · refine .setLaunches fun j hj => AMap.find_upd_ne _ _ ?_
    rintro rfl
    exact hj hl
  · exact s.endLaunch_leaves hl status

/-! ## The kill path (R313) -/

/-- What a stop makes of a team: nothing of it runs any more, and its launch is the same. -/
theorem State.stopTeam_footing (t : Nat) : ∃ T : Team, (s.stopTeam t).footing = (s.setTeam t T).footing
    ∧ T.launch = (s.team t).launch ∧ T.state = .retired := by
  unfold State.stopTeam
  extract_lets T b crews u gone v w x
  have hw : w.footing = v.footing := by
    refine State.footing_foldl (fun t p => ?_) _ v
    split <;> rfl
  have hu : (x.coreVacated T.core).footing = u.footing := (x.footing_coreVacated T.core).trans hw
  exact ⟨_, hu, rfl, rfl⟩

theorem State.stopTeam_leaves (t : Nat) : State.Leaves ls s (s.stopTeam t) := by
  obtain ⟨T, h, hlaunch, hstate⟩ := s.stopTeam_footing t
  exact (State.Leaves.setTeam hlaunch fun _ => hstate).then_footing h

theorem State.stopTeam_retires (t : Nat) : ∃ T, (s.stopTeam t).teams.find t = some T ∧ T.state = .retired := by
  obtain ⟨T, h, -, hstate⟩ := s.stopTeam_footing t
  refine ⟨T, ?_, hstate⟩
  rw [show (s.stopTeam t).teams = (s.setTeam t T).teams from congrArg (fun x => x.2.1) h]
  exact AMap.find_put_self ..

theorem State.stopTeams_leaves (ts : List Nat) : State.Leaves ls s (ts.foldl State.stopTeam s) :=
  .foldl (fun u t _ => u.stopTeam_leaves t) s

/-- Every team of a list that is stopped is retired after it. -/
theorem State.stopTeams_retire {ts : List Nat} {t : Nat} (h : t ∈ ts) :
    ∃ T, (ts.foldl State.stopTeam s).teams.find t = some T ∧ T.state = .retired := by
  induction ts generalizing s with
  | nil => cases h
  | cons a r ih =>
    by_cases hr : t ∈ r
    · exact ih _ hr
    · obtain rfl : t = a := (List.mem_cons.1 h).resolve_right hr
      obtain ⟨T, hT, hstate⟩ := s.stopTeam_retires t
      obtain ⟨U, hU, -, hret⟩ := ((s.stopTeam t).stopTeams_leaves (ls := []) r).teams hT
      exact ⟨U, hU, hret hstate⟩

/-- Stopping the teams of a launch retires every one of them. -/
theorem State.stopLaunchTeams_retire {l k : Nat} {T : Team} (hT : s.teams.find k = some T) (hl : T.launch = l) :
    ∃ U, ((s.launchTeams l).foldl State.stopTeam s).teams.find k = some U ∧ U.state = .retired := by
  by_cases hr : T.state = .retired
  · obtain ⟨U, hU, -, hret⟩ := (s.stopTeams_leaves (ls := []) (s.launchTeams l)).teams hT
    exact ⟨U, hU, hret hr⟩
  · refine s.stopTeams_retire (List.mem_map.2 ⟨(k, T), List.mem_filter.2 ⟨AMap.mem_of_find hT, ?_⟩, rfl⟩)
    simp only [hl, beq_self_eq_true, Bool.true_and, bne_iff_ne, ne_eq, hr, not_false_eq_true]

/-- What is left of the stop of a launch once its teams have stopped. -/
theorem State.stopLaunch_after {l : Nat} {L : Launch} (hl : l ∈ ls) (hL : s.launches.find l = some L) (hrun : L.ended = false)
    (status : Nat) : State.Leaves ls ((s.launchTeams l).foldl State.stopTeam s) (s.stopLaunch l status) := by
  have hput (u : State) (M : Launch) : State.Leaves ls u { u with launches := u.launches.put l M } := by
    refine .setLaunches fun j hj => AMap.find_put_ne _ _ ?_
    rintro rfl
    exact hj hl
  have hend {u v : State} (h : v.footing = u.footing) : State.Leaves ls u (v.endWhenDone l status) :=
    (State.Leaves.of_footing h).trans (v.endWhenDone_leaves hl status)
  unfold State.stopLaunch
  rw [hL]
  simp only [hrun, Bool.false_eq_true, if_false]
  refine (hput _ { L with pending := [], evicted := [] }).trans ?_
  split
  · exact hput ..
  · exact hput ..
  · split
    · exact hend rfl
    · split
      · exact hend rfl
      · exact (hput _ _).then_footing rfl

theorem State.stopLaunch_leaves {l : Nat} (hl : l ∈ ls) (status : Nat) : State.Leaves ls s (s.stopLaunch l status) := by
  cases hL : s.launches.find l with
  | none =>
    rw [State.stopLaunch, hL]
    exact .refl s
  | some L =>
    cases hrun : L.ended with
    | false => exact (s.stopTeams_leaves _).trans (s.stopLaunch_after hl hL hrun status)
    | true =>
      rw [State.stopLaunch, hL]
      simp only [hrun, if_true]
      exact .refl s

theorem State.stopLaunches_leaves (status : Nat) : State.Leaves ls s (ls.foldl (fun s l => s.stopLaunch l status) s) :=
  .foldl (fun u _ hl => u.stopLaunch_leaves hl status) s

/-- Stopping launches retires every team of one of them that has not ended. -/
theorem State.stopLaunches_retire (status : Nat) {k : Nat} {T : Team} {L : Launch} (hT : s.teams.find k = some T)
    (hL : s.launches.find T.launch = some L) (hrun : L.ended = false) (hmem : T.launch ∈ ls) :
    ((ls.foldl (fun s l => s.stopLaunch l status) s).team k).state = .retired := by
  induction ls generalizing s T with
  | nil => cases hmem
  | cons a r ih =>
    have hrest := (s.stopLaunch a status).stopLaunches_leaves (ls := r) status
    by_cases ha : T.launch = a
    · obtain ⟨U, hU, hstate⟩ := s.stopLaunchTeams_retire hT ha
      obtain ⟨V, hV, -, hret⟩ := (s.stopLaunch_after (ls := [a]) (.head _) (ha ▸ hL) hrun status).teams hU
      exact hrest.retired hV (hret hstate)
    · have hstop := s.stopLaunch_leaves (ls := [a]) (.head _) status
      obtain ⟨U, hU, hlaunch, -⟩ := hstop.teams hT
      have hfind : (s.stopLaunch a status).launches.find T.launch = some L :=
        (hstop.launches _ fun h => ha (List.mem_singleton.1 h)).trans hL
      exact ih _ hU (hlaunch ▸ hfind) (hlaunch ▸ (List.mem_cons.1 hmem).resolve_left ha)

/-- A fatal event stops every team of every launch that has not ended, and is marked (R324). -/
theorem State.fatalStop_spec : s.fatalStop.fatal = true ∧ s.fatalStop.split = s.split
    ∧ ∀ k T L, s.teams.find k = some T → s.launches.find T.launch = some L → L.ended = false →
      (s.fatalStop.team k).state = .retired := by
  have hleaves := State.stopLaunches_leaves { s with fatal := true }
    (ls := (s.launches.filter fun p => !p.2.ended).map Prod.fst) stFaulted
  refine ⟨hleaves.fatal, hleaves.split, fun k T L hT hL hrun => State.stopLaunches_retire _ _ hT hL hrun ?_⟩
  refine List.mem_map.2 ⟨(T.launch, L), List.mem_filter.2 ⟨AMap.mem_of_find hL, ?_⟩, rfl⟩
  simp only [hrun, Bool.not_false]

end

end Sys2Proof.Machine
end

section
/-! PROOFS. Fatal events, sensors, clocks, the host link, the reset of the device and attestation (R18, R22, R324, R349, R351). -/

namespace Sys2Proof.Machine

open Sys2Proof

section

variable {s : State}

/-! ## Fatal events (R324) -/

/-- A machine-check event that stops the device. -/
theorem State.mcRecord_fatalStop_spec (s : State) (bank code : Nat) (cls : McClass) (source : Nat) (addr info : Option Nat) :
    let t := (s.mcRecord bank code cls source addr info).fatalStop
    t.fatal = true ∧ t.split = s.split ∧ ∀ k T L, s.teams.find k = some T → s.launches.find T.launch = some L →
      L.ended = false → (t.team k).state = .retired := by
  obtain ⟨_, _, _, _, _, h⟩ := s.mcRecord_spec bank code cls source addr info
  rw [h]
  exact State.fatalStop_spec _

theorem execFtimeSync_inDomain {dev : Nat} (h : dev < 16384) :
    exec (.ftimeSync dev) s = .next (s.mcRecord 54 0x0904 .fatal 0xFFFF none none).fatalStop :=
  (exec_ftimeSync dev s).trans (congrArg Host.Outcome.next (if_pos h))

theorem execFtimeSync_outside {dev : Nat} (h : 16384 ≤ dev) : exec (.ftimeSync dev) s = .next s :=
  (exec_ftimeSync dev s).trans (congrArg Host.Outcome.next (if_neg (Nat.not_lt.2 h)))

/-! ## Sensors (R349) -/

/-- The dies of which a sensor lowers the clock: of its district, its base die or its DRAM die, or both for the package. -/
theorem sensorDies_spec : ∀ n, n < 51 → sensorDies n ∈ [[0], [1], [0, 1]]
    ∧ (0 ∈ sensorDies n ↔ n < 16 ∨ n = 32 ∨ (34 ≤ n ∧ n < 42) ∨ n = 50)
    ∧ (1 ∈ sensorDies n ↔ (16 ≤ n ∧ n < 32) ∨ n = 33 ∨ (42 ≤ n ∧ n < 50) ∨ n = 50) := by decide

/-- A step down of a clock, which stays in the range of R18. -/
def slowed (n : Nat) : Nat := max 1200 (n - 100)

/-- The clocks of the dies that a sensor belongs to go down by a step. -/
theorem State.slow_dies (s : State) {dies : List Nat} (h : dies ∈ [[0], [1], [0, 1]]) :
    dies.foldl (fun s d => s.setClock d (slowed (s.clockOf d))) s = { s with
      clkA := if 0 ∈ dies then slowed s.clkA else s.clkA, clkB := if 1 ∈ dies then slowed s.clkB else s.clkB } := by
  simp only [List.mem_cons, List.not_mem_nil, or_false] at h
  rcases h with rfl | rfl | rfl <;> rfl

/-- The readings of the sensors that there are. -/
def State.readings (s : State) : AMap Nat := s.outside.readings.filter fun v => v.1 < 51

theorem execSensorSample_hot {n : Nat} (hn : n < 51) : exec (.sensorSample [n]) s = .next
    { ((sensorDies n).foldl (fun s d => s.setClock d (slowed (s.clockOf d))) s).logAdd 3 0 [] with
      hot := [n], sensors := s.readings } := by
  simp only [exec_sensorSample, execSensorSample, List.filter_cons, List.filter_nil, decide_eq_true hn, if_true, List.foldl_cons,
    List.foldl_nil, NSet.put]
  rfl

theorem execSensorSample_hot_spec {n : Nat} (hn : n < 51) :
    ∃ t, exec (.sensorSample [n]) s = .next t ∧ s.sameMemory t ∧ t.teams = s.teams ∧ t.hot = [n] ∧ t.sensors = s.readings
      ∧ t.logNext = s.logNext + 1
      ∧ t.clkA = (if n < 16 ∨ n = 32 ∨ (34 ≤ n ∧ n < 42) ∨ n = 50 then slowed s.clkA else s.clkA)
      ∧ t.clkB = (if (16 ≤ n ∧ n < 32) ∨ n = 33 ∨ (42 ≤ n ∧ n < 50) ∨ n = 50 then slowed s.clkB else s.clkB) := by
  obtain ⟨hdies, hA, hB⟩ := sensorDies_spec n hn
  refine ⟨_, execSensorSample_hot hn, ?_⟩
  rw [s.slow_dies hdies]
  exact ⟨State.sameMemory_of_mem rfl, rfl, rfl, rfl, rfl, if_congr hA rfl rfl, if_congr hB rfl rfl⟩

theorem execSensorSample_none {hot : List Nat} (h : ∀ n ∈ hot, 51 ≤ n) :
    exec (.sensorSample hot) s = .next { s with hot := [], sensors := s.readings } := by
  have hnil : (hot.filter fun n => decide (n < 51)) = [] := by
    simpa only [List.filter_eq_nil_iff, decide_eq_true_eq, Nat.not_lt] using h
  simp only [exec_sensorSample, execSensorSample, hnil, List.foldl_nil]
  rfl

/-! ## Clocks and the host link (R18, R22, R340) -/

theorem execClockChange_eq (die mhz : Nat) : exec (.clockChange die mhz) s
    = .next (if 1200 ≤ mhz ∧ mhz ≤ 3600 ∧ mhz % 100 = 0 then
        (if die = 0 then { s with clkA := mhz } else if die = 1 then { s with clkB := mhz } else s) else s) := by
  simp only [exec_clockChange, execClockChange, State.setClock, Host.Outcome.next.injEq]
  by_cases h0 : die = 0
  · simp only [h0, Nat.zero_lt_two, true_and, if_true]
  · by_cases h1 : die = 1
    · simp only [h1, Nat.one_lt_two, true_and, one_ne_zero, if_true, if_false]
    · rw [if_neg fun h => by omega, if_neg h0, if_neg h1, ite_self]

/-- The queues with completions that wait for the host link. -/
def State.waitingQueues (s : State) : List (Nat × Nat) :=
  s.ctxs.flatMap fun c => (c.2.queues.filter fun q => q.2.en && !q.2.held.isEmpty).map fun q => (c.1, q.1)

theorem State.waitingQueues_nil (h : ∀ c X, (c, X) ∈ s.ctxs → ∀ q Q, (q, Q) ∈ X.queues → Q.en = false ∨ Q.held = []) :
    s.waitingQueues = [] := by
  simp only [State.waitingQueues, List.flatMap_eq_nil_iff, List.map_eq_nil_iff, List.filter_eq_nil_iff, Bool.and_eq_true,
    Bool.not_eq_true', List.isEmpty_eq_false_iff, not_and_or, Bool.not_eq_true, not_not]
  exact fun c hc q hq => h c.1 c.2 hc q.1 q.2 hq

theorem execHostLinkTrain_trains {gts width : Nat} (hg : gts ∈ [128, 64, 32, 16, 8, 5, 2]) (hw : width ∈ [16, 8, 4, 2, 1]) :
    exec (.hostLinkTrain gts width) s = .next (s.waitingQueues.foldl (fun s x => s.flushHeld x.1 x.2)
      { s with hostUp := true, hostRate := gts, hostWidth := width }) := by
  rw [exec_hostLinkTrain, execHostLinkTrain]
  simp only [List.contains_iff_mem.2 hg, List.contains_iff_mem.2 hw, Bool.not_true, Bool.or_self, Bool.false_eq_true, if_false]
  rfl

theorem execHostLinkTrain_spec {gts width : Nat} (hg : gts ∈ [128, 64, 32, 16, 8, 5, 2]) (hw : width ∈ [16, 8, 4, 2, 1]) :
    ∃ t, exec (.hostLinkTrain gts width) s = .next t ∧ t.hostUp = true ∧ t.hostRate = gts ∧ t.hostWidth = width
      ∧ ((∀ c X, (c, X) ∈ s.ctxs → ∀ q Q, (q, Q) ∈ X.queues → Q.en = false ∨ Q.held = []) →
        t = { s with hostUp := true, hostRate := gts, hostWidth := width }) := by
  have hleaves := State.Leaves.foldl (ls := []) (f := fun s (x : Nat × Nat) => s.flushHeld x.1 x.2) (xs := s.waitingQueues)
    (fun t x _ => t.flushHeld_leaves ..) { s with hostUp := true, hostRate := gts, hostWidth := width }
  refine ⟨_, execHostLinkTrain_trains hg hw, hleaves.hostUp, hleaves.hostRate, hleaves.hostWidth, fun h => ?_⟩
  rw [State.waitingQueues_nil h, List.foldl_nil]

/-! ## The reset of the device (R351) -/

/-- A bank of firmware: A or B. -/
def State.fwBank (s : State) (b : Bool) : Firmware := if b then s.fwB else s.fwA

/-- Whether a bank boots: a valid image whose signature verifies and whose SVN is not below the minimum (R351). -/
def State.boots (s : State) (b : Bool) : Bool :=
  (s.fwBank b).valid && Config.signatureOk (s.fwBank b).image && decide (s.minSvn ≤ (s.fwBank b).svn)

/-- The bank that is marked to boot, or else the one that runs. -/
def State.markedBank (s : State) : Bool := s.fwMark.getD s.fwRunB

theorem execDeviceReset_outside {dev : Nat} (h : 16384 ≤ dev) : exec (.deviceReset dev) s = .next s :=
  (exec_deviceReset dev s).trans (if_pos h)

section

variable {dev : Nat} (hdev : dev < 16384)
include hdev

theorem execDeviceReset_marked (h : s.boots s.markedBank = true) : exec (.deviceReset dev) s = .next
    ({ s.rebooted dev with
      fwRunB := s.markedBank
      minSvn := if s.fwMark.isSome then max s.minSvn (s.fwBank s.markedBank).svn else s.minSvn }.logAdd 4 0 []) :=
  (exec_deviceReset dev s).trans ((if_neg (Nat.not_le.2 hdev)).trans (congrArg Host.Outcome.next (if_pos h)))

theorem execDeviceReset_unmarked (h : s.boots s.markedBank = false) : exec (.deviceReset dev) s = .next
    (if s.boots (!s.markedBank) then { s.rebooted dev with fwRunB := !s.markedBank }.logAdd 4 0 []
      else { s.rebooted dev with held := true, sideband := (s.rebooted dev).sideband ++ [[0xFF]] }) :=
  (exec_deviceReset dev s).trans ((if_neg (Nat.not_le.2 hdev)).trans
    (congrArg Host.Outcome.next (if_neg (Bool.eq_false_iff.1 h))))

theorem execDeviceReset_other (h : s.boots s.markedBank = false) (h' : s.boots (!s.markedBank) = true) :
    exec (.deviceReset dev) s = .next ({ s.rebooted dev with fwRunB := !s.markedBank }.logAdd 4 0 []) :=
  (execDeviceReset_unmarked hdev h).trans (congrArg Host.Outcome.next (if_pos h'))

theorem execDeviceReset_holds (h : s.boots s.markedBank = false) (h' : s.boots (!s.markedBank) = false) :
    exec (.deviceReset dev) s
      = .next { s.rebooted dev with held := true, sideband := (s.rebooted dev).sideband ++ [[0xFF]] } :=
  (execDeviceReset_unmarked hdev h).trans (congrArg Host.Outcome.next (if_neg (Bool.eq_false_iff.1 h')))

end

/-! ## Attestation (R352) -/

theorem execSpdmRequest_eq (req : List Byte) : exec (.spdmRequest req) s = .next (
    if !s.outside.doe then { s with sideband := s.sideband ++ [Config.spdmResponse req s.measurements] }
    else if s.hostUp then { s with answers := s.answers ++ [(.host, .response (Config.spdmResponse req s.measurements))] }
    else s) := exec_spdmRequest req s

end

/-- Settles O53: a fatal event stops the launches one after another, and no stop undoes another (`State.fatalStop_spec`);
each of the other events has an equation of its own. -/
theorem deviceEvents : Obligations.DeviceEvents := by
  intro s dev die mhz gts width req slowed shown stops svn boots marked reboots
  have hstops (u : State) (hu : u.teams = s.teams) (hl : u.launches = s.launches) (bank code source : Nat) :
      stops (u.mcRecord bank code .fatal source none none).fatalStop := by
    obtain ⟨hfatal, -, hretired⟩ := u.mcRecord_fatalStop_spec bank code .fatal source none none
    rw [hu, hl] at hretired
    exact ⟨hfatal, hretired⟩
  have hreboots {runB : Bool} {minSvn logNext : Nat} {held : Bool} {log : List LogRecord} {sideband : List (List Byte)}
      {more : State → Prop} (hexec : exec (.deviceReset dev) s
        = .next { s.rebooted dev with fwRunB := runB, minSvn, held, log, logNext, sideband })
      (hmore : more { s.rebooted dev with fwRunB := runB, minSvn, held, log, logNext, sideband }) : reboots more :=
    ⟨_, hexec, rfl, rfl, rfl, rfl, rfl, rfl, rfl, rfl, rfl, rfl, rfl, rfl, rfl, rfl, rfl, rfl, hmore⟩
  refine ⟨⟨_, exec_d2dFail s, hstops { s with split := true } rfl rfl .., (State.mcRecord_fatalStop_spec ..).2.1⟩,
    fun hdev => ⟨_, execFtimeSync_inDomain hdev, hstops s rfl rfl ..⟩,
    fun hdev => ⟨execFtimeSync_outside hdev, execDeviceReset_outside hdev⟩,
    fun n => ⟨execSensorSample_hot_spec, fun hn => execSensorSample_none fun m hm => List.mem_singleton.1 hm ▸ hn⟩,
    execSensorSample_none fun m hm => absurd hm List.not_mem_nil, execClockChange_eq die mhz, execHostLinkTrain_spec,
    exec_hostLinkDown s, fun hdev => ⟨fun hboot => hreboots (execDeviceReset_marked hdev hboot) ⟨rfl, rfl, rfl⟩,
      fun hboot hother => hreboots (execDeviceReset_other hdev hboot hother) ⟨rfl, rfl, rfl⟩,
      fun hboot hother => hreboots (execDeviceReset_holds hdev hboot hother) ⟨rfl, rfl⟩⟩,
    Config.spdmResponse req s.measurements, fun hdoe => ?_, fun hdoe hup => ?_, fun hdoe hup => ?_⟩
  -- attestation: on the side band, over DOE, or not at all
  · simp only [execSpdmRequest_eq, hdoe, Bool.not_false, if_true]
  · simp only [execSpdmRequest_eq, hdoe, hup, Bool.not_true, Bool.false_eq_true, if_true, if_false]
  · simp only [execSpdmRequest_eq, hdoe, hup, Bool.not_true, Bool.false_eq_true, if_false]

end Sys2Proof.Machine
end

section
/-! PROOFS. Hints (R60 to R64, R385 to R387) and vectors to the emulation handler (R79). -/

namespace Sys2Proof.Machine

open Sys2Proof

/-! ## Vectors to the emulation handler (R79) -/

/-- The fibres of the issuing braid whose guard is true where `reach` takes the range at their unit's start. -/
def State.guardedAt (s : State) (reach : Option Guard → Option Guard) : List Nat :=
  s.cur.lanes.filter fun l => ({ s.curLane l with guard := reach (s.curLane l).guard0 } : Lane).guardTrue

section

variable {s : State} {reach : Option Guard → Option Guard} (cause : BitVec 8) (word : Word) (ulen : BitVec 3) (ea : DWord)

theorem State.trapAt_some (h : s.guardedAt reach ≠ []) :
    s.trapAt reach cause word ulen ea = s.trapWith (s.guardedAt reach) cause word ulen ea :=
  if_neg fun h' => h (List.isEmpty_iff.1 h')

theorem State.trapAt_none (h : s.guardedAt reach = []) :
    s.trapAt reach cause word ulen ea = s.mapLanes s.cur.lanes fun _ L =>
      L.goto (L.ustart + 4 * ulen.setWidth 32) (guardAfter L.guard0 s.cur.unit ulen.toNat) :=
  if_pos (List.isEmpty_iff.2 h)

end

/-- The bytes of a unit of `n` words. -/
theorem unitBytes_eq (n : BitVec 3) : 4 * n.setWidth 32 = BitVec.ofNat 32 (4 * n.toNat) := by
  bv_omega

/-- Settles O21: a vector is a trap at the unit's target, which asks the guards there and nothing else
(`State.trapAt_some`, `State.trapAt_none`). -/
theorem emulationVectors : Obligations.EmulationVectors := by
  intro s cause word ulen
  refine ⟨fun hE => congrArg Host.Outcome.next (State.trapAt_some cause word ulen 0 hE), fun hE =>
    ⟨_, congrArg Host.Outcome.next (State.trapAt_none cause word ulen 0 hE),
      State.mapLanes_sameElsewhere s _ _ fun _ h => h, fun l hl => ?_⟩⟩
  rw [State.curLane_mapLanes, if_pos hl]
  exact ⟨congrArg ((s.curLane l).ustart + ·) (unitBytes_eq ulen), rfl, rfl⟩

/-! ## Hints (R60 to R64, R385 to R387) -/

/-- What SCHED leaves in the braids of the issuing crew: a time before which the issuing one does not issue, and whether it
yields (R387). -/
def State.scheduled (s : State) (y : Bool) (n : Nat) : State :=
  s.updCrew s.cur.team s.cur.crew fun C =>
    { C with braids := C.braids.map fun b =>
        if b.lanes = s.cur.lanes then
          { b with stall := (s.core (s.team s.cur.team).core).cycle + n, yield := y }
        else b }

theorem execSched_eq (s : State) (y : Bool) (n : BitVec 4) : exec (.sched y n) s =
    .next ((s.scheduled y n.toNat).mapLanes s.cur.lanes fun _ L => { L with pc := L.pc + 4, guard := tickGuard L.guard }) := by
  rw [exec_sched]
  unfold execSched State.hint
  simp only [id, ite_self]
  rfl

theorem State.curLane_scheduled (s : State) (y : Bool) (n l : Nat) : (s.scheduled y n).curLane l = s.curLane l := by
  simp [State.scheduled, State.curLane, State.curCrew, State.updCrew, Crew.lane]

theorem State.braids_mapLanes (s : State) (ls : List Nat) (f : Nat → Lane → Lane) :
    (s.mapLanes ls f).curCrew.braids = s.curCrew.braids := by
  rw [State.mapLanes, State.curCrew_setCurCrew]
  rfl

/-- Every braid of the issuing crew that has the issuing fibres is held. -/
theorem State.braids_scheduled {s : State} {y : Bool} {n : Nat} {b : Braid} (hb : b ∈ (s.scheduled y n).curCrew.braids)
    (hl : b.lanes = s.cur.lanes) : b.stall = (s.core (s.team s.cur.team).core).cycle + n ∧ b.yield = y := by
  simp only [State.scheduled, State.curCrew, State.updCrew, State.setCrew_cur, State.crew_setCrew_self, List.mem_map] at hb
  obtain ⟨b0, -, rfl⟩ := hb
  split at hl
  · rename_i h
    rw [if_pos h]
    exact ⟨rfl, rfl⟩
  · contradiction

/-- Settles O24: each hint is one pass over the braid's lanes; SCHED sets the braid's hold before it. -/
theorem hintWords : Obligations.HintWords := by
  intro s v q n y r c h m k x
  refine ⟨exec_limm v s, exec_rnd k r m s, exec_sat s, exec_nop v s, exec_hintIgnored h v s,
    ⟨_, exec_guard q n c s, State.mapLanes_sameElsewhere s _ _ fun _ h => h, fun l hl => ?_⟩,
    ⟨_, execSched_eq s y x, ⟨fun _ => rfl, fun _ => rfl, fun _ => rfl⟩, fun l hl => ?_, fun b hb => ?_⟩⟩
  · rw [State.curLane_mapLanes, if_pos hl]
  · rw [State.curLane_mapLanes, if_pos hl, State.curLane_scheduled]
    exact ⟨rfl, rfl⟩
  · rw [State.braids_mapLanes] at hb
    exact State.braids_scheduled hb

end Sys2Proof.Machine
end

section
/-! PROOFS. How a word opens (R59, R64, R87, R92, R240, R297): what its operands hold it back for, and that every word that
`readsOf` lists opens so. -/

namespace Sys2Proof.Machine

open Sys2Proof

/-! ## Registers of a field -/

/-- The members of the field `z` stand nowhere (R90). -/
theorem Env.eq_zero_of_mem_slots_z (E : Env) (l : Nat) (L : Lane) (n : Nat) {y : Slot} (h : y ∈ E.slots l L zF n) :
    y = .zero := by
  unfold Env.slots at h
  obtain ⟨k, -, rfl⟩ := List.mem_map.1 h
  exact if_pos rfl

theorem Env.regsOf_z (E : Env) (l : Nat) (L : Lane) (n : Nat) : E.regsOf l L zF n = [] :=
  List.eq_nil_iff_forall_not_mem.2 fun k hk => by
    cases E.eq_zero_of_mem_slots_z l L n ((Env.mem_regsOf ..).1 hk)

theorem Env.bad_not_mem_slots_z (E : Env) (l : Nat) (L : Lane) (n : Nat) : Slot.bad ∉ E.slots l L zF n := fun h => by
  cases E.eq_zero_of_mem_slots_z l L n h

/-- A source of which no pop takes a member's place: no stream is bound to it, or it is `z`. -/
def Src.still (x : Src) (L : Lane) : Prop := L.streamAt x.f = none ∨ x.f = zF

theorem Src.slots_unbound {x : Src} {L : Lane} (h : L.streamAt x.f = none) (E : Env) (l : Nat) :
    x.slots E l L = E.slots l L x.f x.n := by
  simp [Src.slots, Src.popped, h]

theorem Src.eq_zero_of_mem_slots_z {x : Src} (h : x.f = zF) {E : Env} {l : Nat} {L : Lane} {y : Slot}
    (hy : y ∈ x.slots E l L) : y = .zero := by
  unfold Src.slots at hy
  rw [h] at hy
  split at hy
  · exact E.eq_zero_of_mem_slots_z l L x.n (List.mem_of_mem_tail hy)
  · exact E.eq_zero_of_mem_slots_z l L x.n hy

section

variable {x : Src} {L : Lane} (h : x.still L) (E : Env) (l : Nat)
include h

theorem Src.mem_slots {y : Slot} (hy : y ≠ .zero) : y ∈ x.slots E l L ↔ y ∈ E.slots l L x.f x.n := by
  rcases h with h | h
  · rw [Src.slots_unbound h]
  · rw [h]
    exact iff_of_false (fun h' => hy (Src.eq_zero_of_mem_slots_z h h')) fun h' => hy (E.eq_zero_of_mem_slots_z l L x.n h')

theorem Src.reg_mem_slots {n : Nat} : Slot.reg n ∈ x.slots E l L ↔ n ∈ E.regsOf l L x.f x.n :=
  (Src.mem_slots h E l (by simp)).trans (Env.mem_regsOf ..).symm

theorem Src.empty_eq : x.empty E l L = (E.regsOf l L x.f x.n).filter fun n => !(L.reg n).full := by
  unfold Src.empty
  rcases h with h | h
  · rw [Src.slots_unbound h, Env.regsOf, List.filter_filterMap]
    refine List.filterMap_congr fun y _ => ?_
    cases y with
    | reg n => cases hn : (L.reg n).full <;> simp [hn, Option.filter]
    | zero => rfl
    | bad => rfl
  · rw [h, Env.regsOf_z, List.filter_nil, List.filterMap_eq_nil_iff]
    intro y hy
    rw [Src.eq_zero_of_mem_slots_z h hy]

end

/-! ## What holds a word back (R59, R87, R92, R240, R297, R322) -/

/-- What an ask reads, in the terms of the statements. -/
def Ask.reads (a : Ask) : Reads := { srcs := a.srcs, dsts := a.dsts, release := a.release, lowest := a.single }

/-- The fibres whose operands a word reads. -/
def State.takers (s : State) (x : Reads) : List Nat := if x.lowest then s.effective.take 1 else s.effective

/-- The braid parks until the empty registers of a word's fields are full. -/
def State.parkEmpty (s : State) (x : Reads) : State :=
  let empty (l : Nat) : List Nat := s.empties l (fieldsOf x.srcs x.dsts)
  if x.lowest then s.parkOne (.regs (empty (s.effective.headD 0)))
  else s.park fun l => .regs (if l ∈ s.takers x then empty l else [])

/-- Whether a word waits for a source: then it has not issued (R59). -/
def State.lacksSource (s : State) (x : Reads) : Bool :=
  (s.takers x).any fun l => !(s.empties l (fieldsOf x.srcs [])).isEmpty

/-- The state in which a word does not go on, its causes and waits in the order of R297. -/
def State.heldBack (s : State) (x : Reads) : Option State :=
  if ¬∀ l ∈ s.takers x, s.inSpan l (fieldsOf x.srcs x.dsts) = true then some (s.trap s.effective 0x13 0)
  else if ¬∀ l ∈ s.takers x, s.empties l (fieldsOf (x.srcs.filter Src.trapping) []) = [] then
    some (s.trap s.effective 0x12 0)
  else if x.release = true ∧ ∃ l ∈ s.takers x, s.curCrew.watched l = true then some (s.trap s.effective 0x19 0)
  else if ∃ l ∈ s.takers x, s.empties l (fieldsOf x.srcs x.dsts) ≠ [] then
    let t := s.parkEmpty x
    some { t with cur := { t.cur with starved := s.cur.starved || s.lacksSource x } }
  else if ∃ l ∈ s.takers x, ∃ y ∈ x.srcs, s.fieldSound l y.f y.n = false then some s.spoiled
  else none

theorem not_isEmpty_iff {α : Type} {xs : List α} : (!xs.isEmpty) = true ↔ xs ≠ [] := by
  simp

theorem any_iff_exists {ls : List Nat} {q : Nat → Bool} {p : Nat → Prop} (h : ∀ l ∈ ls, q l = true ↔ p l) :
    ls.any q = true ↔ ∃ l ∈ ls, p l :=
  List.any_eq_true.trans (exists_congr fun l => and_congr_right (h l))

theorem any_iff_not_forall {ls : List Nat} {q : Nat → Bool} {p : Nat → Prop} (h : ∀ l ∈ ls, q l = true ↔ ¬p l) :
    ls.any q = true ↔ ¬∀ l ∈ ls, p l := by
  rw [any_iff_exists h]
  simp

theorem State.mem_of_mem_readers {s : State} {a : Ask} {l : Nat} (h : l ∈ s.readers a) : l ∈ s.effective := by
  unfold State.readers at h
  split at h
  · exact List.mem_of_mem_take h
  · exact h

/-- The mark of a word that has not issued, set or left as it is. -/
theorem State.withStarved {s t : State} (h : t.cur = s.cur) (b : Bool) :
    (if b then { t with cur := { t.cur with starved := true } } else t)
      = { t with cur := { t.cur with starved := s.cur.starved || b } } := by
  rw [← h]
  cases b <;> simp

@[simp] theorem State.parkEmpty_cur (s : State) (x : Reads) : (s.parkEmpty x).cur = s.cur := by
  unfold State.parkEmpty State.parkOne
  split
  · split <;> rfl
  · rfl

section

variable {s : State} {a : Ask} {l : Nat} (hstill : ∀ y ∈ a.srcs, y.still (s.curLane l))
include hstill

theorem Ask.outOfRange_eq : a.outOfRange s.env l (s.curLane l) = !s.inSpan l (fieldsOf a.srcs a.dsts) := by
  have hsrc : ∀ y ∈ a.srcs, Slot.bad ∈ y.slots s.env l (s.curLane l) ↔ Slot.bad ∈ s.env.slots l (s.curLane l) y.f y.n :=
    fun y hy => Src.mem_slots (hstill y hy) s.env l (by simp)
  rw [Bool.eq_iff_iff]
  simp only [Ask.outOfRange, State.inSpan, fieldsOf, Bool.or_eq_true, List.any_eq_true, List.contains_iff_mem,
    Bool.not_eq_true', List.all_eq_false, List.mem_append, List.mem_map, or_and_right, exists_or]
  refine or_congr ?_ ?_
  · simpa using exists_congr fun y => and_congr_right (hsrc y)
  · simp

theorem Ask.sources_empty (ys : List Src) (hsub : ∀ y ∈ ys, y ∈ a.srcs) :
    (ys.flatMap fun y => y.empty s.env l (s.curLane l)) = s.empties l (fieldsOf ys []) := by
  unfold State.empties fieldsOf
  rw [List.map_nil, List.append_nil, List.flatMap_map]
  exact List.flatMap_congr fun y hy => Src.empty_eq (hstill y (hsub y hy)) s.env l

theorem Ask.any_empty (ys : List Src) (hsub : ∀ y ∈ ys, y ∈ a.srcs) :
    (ys.any fun y => !(y.empty s.env l (s.curLane l)).isEmpty) = !(s.empties l (fieldsOf ys [])).isEmpty := by
  rw [← Ask.sources_empty hstill ys hsub, Bool.eq_iff_iff]
  simp

theorem Ask.waits_eq (hfills : a.dsts = [] ∨ ∀ L, a.fills L = true) :
    a.waits s.env l (s.curLane l) = s.empties l (fieldsOf a.srcs a.dsts) := by
  have hdst : (if a.fills (s.curLane l) then a.dsts.flatMap fun d => d.empty s.env l (s.curLane l) else [])
      = s.empties l (a.dsts.map fun d => (d.f, d.n)) := by
    rw [State.empties, List.flatMap_map]
    rcases hfills with h | h
    · simp [h]
    · rw [if_pos (h _)]
      rfl
  rw [Ask.waits, Ask.sources_empty hstill a.srcs fun _ hy => hy, hdst]
  simp [State.empties, fieldsOf]

end

theorem State.fieldSound_eq_false {s : State} {l : Nat} {f : RegF} {n : Nat} :
    s.fieldSound l f n = false ↔ ∃ k ∈ s.env.regsOf l (s.curLane l) f n, (s.curLane l).spoilt.contains k = true := by
  simp [State.fieldSound]

theorem State.readsSpoilt_iff {s : State} {a : Ask} {ls : List Nat}
    (hstill : ∀ l ∈ ls, ∀ y ∈ a.srcs, y.still (s.curLane l)) :
    s.readsSpoilt a ls = true ↔ ∃ l ∈ ls, ∃ y ∈ a.srcs, s.fieldSound l y.f y.n = false := by
  unfold State.readsSpoilt
  rw [List.any_eq_true]
  refine exists_congr fun l => and_congr_right fun hl => ?_
  simp only [Bool.and_eq_true, List.any_eq_true, State.fieldSound_eq_false]
  constructor
  · rintro ⟨-, y, hy, z, hz, hn⟩
    cases z with
    | reg n => exact ⟨y, hy, n, (Src.reg_mem_slots (hstill l hl y hy) s.env l).1 hz, hn⟩
    | zero => cases hn
    | bad => cases hn
  · rintro ⟨y, hy, n, hn, hc⟩
    refine ⟨?_, y, hy, .reg n, (Src.reg_mem_slots (hstill l hl y hy) s.env l).2 hn, hc⟩
    cases hsp : (s.curLane l).spoilt with
    | nil => simp [hsp] at hc
    | cons => rfl

/-- The wait of R59 and R92, in the words of the statements. -/
theorem State.parkFor_waits {s : State} {a : Ask} (hstill : ∀ l ∈ s.readers a, ∀ y ∈ a.srcs, y.still (s.curLane l))
    (hfills : a.dsts = [] ∨ ∀ L, a.fills L = true) :
    (s.parkFor a fun l => .regs (if (s.readers a).contains l then a.waits s.env l (s.curLane l) else []))
      = s.parkEmpty a.reads := by
  have hwaits : ∀ l, (if (s.readers a).contains l then a.waits s.env l (s.curLane l) else [])
      = if l ∈ s.readers a then s.empties l (fieldsOf a.srcs a.dsts) else [] := by
    intro l
    by_cases hl : l ∈ s.readers a
    · rw [if_pos (List.contains_iff_mem.2 hl), if_pos hl, Ask.waits_eq (hstill l hl) hfills]
    · rw [if_neg (mt List.contains_iff_mem.1 hl), if_neg hl]
  simp only [hwaits]
  unfold State.parkFor State.parkEmpty
  refine if_ctx_congr Iff.rfl (fun hs => ?_) fun _ => rfl
  cases he : s.effective with
  | nil => simp only [State.parkOne, he]
  | cons l0 r =>
    have hs : a.single = true := hs
    have hl0 : l0 ∈ s.readers a := by simp [State.readers, hs, he]
    exact congrArg (fun ls => s.parkOne (.regs ls)) (if_pos hl0)

/-- A word whose sources no stream feeds is held back by what its fields say (R297). -/
theorem State.notReady_eq {s : State} {a : Ask} (hstill : ∀ l ∈ s.effective, ∀ y ∈ a.srcs, y.still (s.curLane l))
    (hfills : a.dsts = [] ∨ ∀ L, a.fills L = true) : s.notReady a = s.heldBack a.reads := by
  have hstill : ∀ l ∈ s.readers a, ∀ y ∈ a.srcs, y.still (s.curLane l) := fun l hl => hstill l (State.mem_of_mem_readers hl)
  have hlane : ∀ l, s.curCrew.lane l = s.curLane l := fun _ => rfl
  have hstarved : (s.readers a).any (fun l => a.srcs.any fun y => !(y.empty s.env l (s.curLane l)).isEmpty)
      = s.lacksSource a.reads := by
    rw [Bool.eq_iff_iff, State.lacksSource, List.any_eq_true, List.any_eq_true]
    refine exists_congr fun l => and_congr_right fun hl => ?_
    rw [Ask.any_empty (hstill l hl) a.srcs fun _ hy => hy]
    rfl
  unfold State.notReady State.heldBack
  simp only [hlane, State.parkFor_waits hstill hfills, hstarved, State.withStarved (s.parkEmpty_cur _)]
  refine if_congr ?_ rfl (if_congr ?_ rfl (if_congr ?_ rfl (if_congr ?_ rfl (if_congr ?_ rfl rfl))))
  · exact any_iff_not_forall fun l hl => by simp [Ask.outOfRange_eq (hstill l hl), Ask.reads]
  · exact any_iff_not_forall fun l hl => by
      rw [← List.any_filter, Ask.any_empty (hstill l hl) (a.srcs.filter Src.trapping) fun _ => List.mem_of_mem_filter]
      exact not_isEmpty_iff
  · rw [Bool.and_eq_true, List.any_eq_true]
    rfl
  · exact any_iff_exists fun l hl => by
      rw [Ask.waits_eq (hstill l hl) hfills]
      exact not_isEmpty_iff
  · exact State.readsSpoilt_iff hstill

end Sys2Proof.Machine
end

section
/-! PROOFS. Every word that `readsOf` lists opens with the prologue of what it reads (R59, R64, R92, R297). -/

namespace Sys2Proof.Machine

open Sys2Proof

/-! ## The prologue -/

/-- A word whose guard is true in no fibre of the braid stops with the braid gone on (R64). -/
theorem State.prepare_passes {s : State} (h : s.effective = []) (a : Ask) : s.prepare a = .stop s.advanceAll :=
  if_pos (List.isEmpty_iff.2 h)

theorem State.prepare_notReady {s t : State} {a : Ask} (he : s.effective ≠ []) (h : s.notReady a = some t) :
    s.prepare a = .stop t := by
  unfold State.prepare
  rw [if_neg (mt List.isEmpty_iff.1 he), h]

/-- A word after its prologue. -/
def Prologue.andThen (p : Prologue) (f : State → List (Nat × Lane × List Val) → Result) : Result :=
  match p with
  | .stop s => .next s
  | .go s xs => f s xs

/-- A memory word after the check of its accesses. -/
def Reached.andThen (r : Reached) (f : State → List Access → Result) : Result :=
  match r with
  | .stop s => .next s
  | .go s xs => f s xs

/-- What stops a memory word's prologue, whatever its addresses, stops the word. -/
theorem State.reach_stop {s t : State} {a : Ask} (h : ∀ late, s.prepare { a with late } = .stop t)
    (capOf : List Val → DWord) (size : Nat) (need : BitVec 4) : s.reach a capOf size need = .stop t := by
  unfold State.reach
  simp only [h]

theorem State.converge_notReady {s t : State} {a : Ask} (h : s.notReady a = some t) (e : Extent) (f : State → Result) :
    s.converge e a f = .next t := by
  unfold State.converge
  rw [h]

/-! ## Words and what they read -/

/-- An ask that is held back as a word that reads `x` is. -/
structure Ask.Poses (a : Ask) (s : State) (x : Reads) : Prop where
  still : s.unbound x.srcs = true → ∀ l ∈ s.effective, ∀ y ∈ a.srcs, y.still (s.curLane l)
  fills : a.dsts = [] ∨ ∀ L, a.fills L = true
  heldBack : s.heldBack a.reads = s.heldBack x

theorem State.unbound_still {s : State} {x : Reads} (h : s.unbound x.srcs = true) {l : Nat} (hl : l ∈ s.effective) {y : Src}
    (hy : ∃ z ∈ x.srcs, y.f = z.f) : y.still (s.curLane l) := by
  obtain ⟨z, hz, e⟩ := hy
  exact .inl (e ▸ Option.isNone_iff_eq_none.1 (List.all_eq_true.1 (List.all_eq_true.1 h l hl) z hz))

theorem Ask.Poses.of_reads {a : Ask} {s : State} {x : Reads} (h : a.reads = x)
    (hfills : a.dsts = [] ∨ ∀ L, a.fills L = true) : a.Poses s x where
  still hu l hl y hy := State.unbound_still hu hl ⟨y, h ▸ hy, rfl⟩
  fills := hfills
  heldBack := by rw [h]

theorem Ask.Poses.notReady {a : Ask} {s : State} {x : Reads} (h : a.Poses s x) (hu : s.unbound x.srcs = true) :
    s.notReady a = s.heldBack x :=
  (State.notReady_eq (h.still hu) h.fills).trans h.heldBack

/-- A word stops with what holds it back; and unless its fibres meet, it passes where its guard is true in none. -/
structure Opens (i : Instr) (x : Reads) : Prop where
  stops : ∀ s t, s.effective ≠ [] → s.unbound x.srcs = true → s.heldBack x = some t → exec i s = .next t
  passes : convergent i = false → ∀ s, s.effective = [] → exec i s = .next s.advanceAll

section

variable {i : Instr} {x : Reads}

theorem Opens.of_prologue (h : ∀ s, ∃ a f, exec i s = (s.prepare a).andThen f ∧ a.Poses s x) : Opens i x where
  stops s t he hu ht := by
    obtain ⟨a, f, hexec, ha⟩ := h s
    rw [hexec, State.prepare_notReady he ((ha.notReady hu).trans ht)]
    rfl
  passes _ s he := by
    obtain ⟨a, f, hexec, -⟩ := h s
    rw [hexec, State.prepare_passes he]
    rfl

theorem Opens.of_reach (h : ∀ s, ∃ a capOf size need f, exec i s = (s.reach a capOf size need).andThen f ∧ a.Poses s x) :
    Opens i x where
  stops s t he hu ht := by
    obtain ⟨a, capOf, size, need, f, hexec, ha⟩ := h s
    rw [hexec, State.reach_stop fun _ => State.prepare_notReady he ((ha.notReady hu).trans ht)]
    rfl
  passes _ s he := by
    obtain ⟨a, capOf, size, need, f, hexec, -⟩ := h s
    rw [hexec, State.reach_stop fun _ => State.prepare_passes he _]
    rfl

theorem Opens.of_converge (hc : convergent i = true) (h : ∀ s, ∃ e a f, exec i s = s.converge e a f ∧ a.Poses s x) :
    Opens i x where
  stops s t _ hu ht := by
    obtain ⟨e, a, f, hexec, ha⟩ := h s
    rw [hexec, State.converge_notReady ((ha.notReady hu).trans ht)]
  passes hn := absurd hc (by simp [hn])

end


/-! ## Words at which fibres meet -/

section

variable {i : Instr} (hc : convergent i = true)
include hc

theorem Opens.of_shuffle {d a b : RegF} {p q : Bool} {pick : (n k b : Nat) → Option Nat}
    (h : ∀ s, exec i s = s.shuffle d a b p q pick) : Opens i { srcs := [src a 1 p, src b 1 q], dsts := [{ f := d }] } :=
  .of_converge hc fun s => by
    rw [h]
    delta State.shuffle
    exact ⟨_, _, _, rfl, .of_reads rfl (.inr fun _ => rfl)⟩

theorem Opens.of_reduce {op : RedOp} {k : RedKind} {t : BitVec 3} {d a : RegF} {m : PredF} {p : Bool}
    (h : ∀ s, exec i s = s.reduce op k t d a m p) :
    Opens i { srcs := [src a (if wideType t then 2 else 1) p], dsts := [{ f := d, n := if wideType t then 2 else 1 }] } :=
  .of_converge hc fun s => by
    rw [h]
    delta State.reduce
    exact ⟨_, _, _, rfl, .of_reads rfl (.inr fun _ => rfl)⟩

end

theorem opens_ballot (d : RegF) (a : PredF) : Opens (.ballot d a) { dsts := [{ f := d }] } :=
  .of_converge rfl fun s => by
    rw [exec_ballot]
    delta execBallot State.gatherQ
    exact ⟨_, _, _, rfl, .of_reads rfl (.inr fun _ => rfl)⟩

theorem opens_qpack (g : BitVec 2) (n : Bool) (d a b : RegF) (p q : Bool) : Opens (.qpack g n d a b p q)
    { srcs := [src a (groupSize g / 32) p, src b 1 q], dsts := [{ f := d, n := if n && g == 2 then 2 else 1 }] } :=
  .of_converge rfl fun s => by
    rw [exec_qpack]
    delta execQpack
    exact ⟨_, _, _, rfl, .of_reads rfl (.inr fun _ => rfl)⟩

theorem opens_qunpk (g : BitVec 2) (n : Bool) (d a : RegF) (p : Bool) : Opens (.qunpk g n d a p)
    { srcs := [src a (if n && g == 2 then 2 else 1) p], dsts := [{ f := d, n := groupSize g / 32 }] } :=
  .of_converge rfl fun s => by
    rw [exec_qunpk]
    delta execQunpk
    exact ⟨_, _, _, rfl, .of_reads rfl (.inr fun _ => rfl)⟩

/-! ## Words with more than one opening -/

/-- SSR to PART is a convergence point, to the other registers it is not (R100). -/
theorem opens_ssr (a : RegF) (n : BitVec 8) : Opens (.ssr a n) { srcs := [src a (wideN (wideReg n)) false] } := by
  by_cases hn : n = 0x13
  · refine .of_converge (beq_iff_eq.2 hn) fun s => ?_
    rw [exec_ssr]
    delta execSsr
    simp only [if_pos hn]
    exact ⟨_, _, _, rfl, .of_reads rfl (.inl rfl)⟩
  · refine .of_prologue fun s => ?_
    rw [exec_ssr]
    delta execSsr
    simp only [if_neg hn]
    exact ⟨_, _, rfl, .of_reads rfl (.inl rfl)⟩

/-- GSR of FTIME is a long-latency producer, of the others it is not (R97). -/
theorem opens_gsr (a : RegF) (n : BitVec 8) : Opens (.gsr a n) { dsts := [{ f := a, n := wideN (wideReg n) }] } := by
  refine .of_prologue fun s => ?_
  rw [exec_gsr]
  delta execGsr
  by_cases hn : n = 0
  · simp only [if_pos hn]
    exact ⟨_, _, rfl, .of_reads rfl (.inr fun _ => rfl)⟩
  · simp only [if_neg hn]
    exact ⟨_, _, rfl, .of_reads rfl (.inr fun _ => rfl)⟩

/-- A branch has no field; whether it fills its destination matters to CALL alone (R363). -/
theorem opens_br (q : PredF) (o : BitVec 21) : Opens (.br q o) {} :=
  .of_prologue fun _ => ⟨_, _, rfl, .of_reads rfl (.inl rfl)⟩

theorem opens_brn (q : PredF) (o : BitVec 21) : Opens (.brn q o) {} :=
  .of_prologue fun _ => ⟨_, _, rfl, .of_reads rfl (.inl rfl)⟩

/-- A word without fields is held back by the watch table alone (R240). -/
theorem State.heldBack_fieldless (s : State) (release : Bool) : s.heldBack { release } =
    if release = true ∧ ∃ l ∈ s.effective, s.curCrew.watched l = true then some (s.trap s.effective 0x19 0) else none := by
  simp [State.heldBack, State.takers, State.inSpan, State.empties, fieldsOf]

/-- FENCE counts every fibre of its braid once some guard is true (R232). -/
theorem opens_fence (c : BitVec 5) : Opens (.fence c) { release := true } where
  stops s t he _ ht := by
    rw [State.heldBack_fieldless] at ht
    split at ht
    · rename_i hw
      obtain ⟨-, l, hl, hw⟩ := hw
      cases ht
      rw [exec_fence, execFence, if_neg (mt List.isEmpty_iff.1 he),
        if_pos (List.any_eq_true.2 ⟨l, ((State.mem_effective s l).1 hl).1, hw⟩)]
      rfl
    · cases ht
  passes _ s he := if_pos (List.isEmpty_iff.2 he)

/-- Where no element is gone, none is discarded. -/
theorem State.discardElements_none {s : State} {gone : Nat → Nat → Bool} (h : ∀ l k, gone l k = false) :
    s.discardElements gone = s :=
  if_pos (by simp [h])

/-- What holds a word back depends on its fields, not on how its sources are listed. -/
theorem State.heldBack_congr {s : State} {x y : Reads} (hrelease : x.release = y.release) (hlowest : x.lowest = y.lowest)
    (hspan : ∀ l, s.inSpan l (fieldsOf x.srcs x.dsts) = s.inSpan l (fieldsOf y.srcs y.dsts))
    (hempty : ∀ l, s.empties l (fieldsOf x.srcs x.dsts) = s.empties l (fieldsOf y.srcs y.dsts))
    (htrapping : ∀ l, s.empties l (fieldsOf (x.srcs.filter Src.trapping) [])
      = s.empties l (fieldsOf (y.srcs.filter Src.trapping) []))
    (hsource : ∀ l, s.empties l (fieldsOf x.srcs []) = s.empties l (fieldsOf y.srcs []))
    (hsound : ∀ l, (∃ z ∈ x.srcs, s.fieldSound l z.f z.n = false) ↔ ∃ z ∈ y.srcs, s.fieldSound l z.f z.n = false) :
    s.heldBack x = s.heldBack y := by
  have htakers : s.takers x = s.takers y := by rw [State.takers, State.takers, hlowest]
  have hpark : s.parkEmpty x = s.parkEmpty y := by simp only [State.parkEmpty, hempty, htakers, hlowest]
  simp only [State.heldBack, State.lacksSource, htakers, hrelease, hspan, hempty, htrapping, hsource, hsound, hpark]

/-- STRM asks for its register unless its slot is `z`, and takes it from no stream (R422). -/
theorem opens_strm (n : BitVec 3) (b slot : RegF) :
    Opens (.strm n b slot) { srcs := if slot = 63 then [] else [src b 1 false] } := by
  by_cases hslot : slot = zF
  · rw [if_pos hslot]
    have hexec (s : State) : exec (.strm n b slot) s
        = (s.discardElements (s.unboundBy n slot)).operate {} fun _ _ L _ => L.unbind n := if_pos hslot
    refine ⟨fun s t _ _ ht => ?_, fun _ s he => ?_⟩
    · rw [State.heldBack_fieldless, if_neg (by simp)] at ht
      cases ht
    · rw [hexec, State.discardElements_none (by simp [State.unboundBy, he]), State.operate, State.prepare_passes he]
  · rw [if_neg hslot]
    have hexec (s : State) : ∃ f, exec (.strm n b slot) s = s.recordWord { srcs := [{ f := b, pops := false }] } 32 f :=
      ⟨_, if_neg hslot⟩
    refine .of_prologue fun s => ?_
    obtain ⟨f, hexec⟩ := hexec s
    rw [hexec]
    exact ⟨_, _, rfl, fun hu l hl y hy => State.unbound_still hu hl ⟨_, .head _, by rw [List.mem_singleton.1 hy]; rfl⟩,
      .inl rfl, State.heldBack_congr rfl rfl (fun _ => rfl) (fun _ => rfl) (fun _ => rfl) (fun _ => rfl)
        fun _ => by simp [Ask.reads, src]⟩

/-- A source `z` holds no word back (R90). -/
theorem State.heldBack_z {s : State} {x : Reads} {b z : Src} {r : List Src} (hz : z.f = zF) :
    s.heldBack { x with srcs := b :: z :: r } = s.heldBack { x with srcs := b :: r } := by
  have hregs (l : Nat) : s.env.regsOf l (s.curLane l) z.f z.n = [] := hz ▸ s.env.regsOf_z l _ z.n
  have hspan (l : Nat) : .bad ∉ s.env.slots l (s.curLane l) z.f z.n := hz ▸ s.env.bad_not_mem_slots_z l _ z.n
  refine State.heldBack_congr rfl rfl (fun l => ?_) (fun l => ?_) (fun l => ?_) (fun l => ?_) fun l => ?_
  · simp [State.inSpan, fieldsOf, hspan]
  · simp [State.empties, fieldsOf, hregs]
  · cases hb : b.trapping <;> cases hzt : z.trapping <;> simp [State.empties, fieldsOf, hregs, hb, hzt]
  · simp [State.empties, fieldsOf, hregs]
  · simp [State.fieldSound, hregs]

/-- ATXCH has no operand V, and its ask names `z` in its place (R359). -/
theorem opens_atxch (w : Bool) (c : BitVec 5) (d b : RegF) : Opens (.atxch w c d b)
    { srcs := [src b 2 false, src d (wideN w) false], dsts := [{ f := d, n := wideN w }], release := c != 0 } :=
  .of_reach fun s => by
    rw [exec_atxch]
    delta execAtxch State.atomicWord
    simp only [if_true]
    refine ⟨_, _, _, _, _, rfl, fun hu l hl y hy => ?_, .inr fun _ => rfl, ?_⟩
    · rcases List.mem_cons.1 hy with rfl | hy
      · exact State.unbound_still hu hl ⟨_, .head _, rfl⟩
      rcases List.mem_cons.1 hy with rfl | hy
      · exact .inr rfl
      · exact State.unbound_still hu hl ⟨_, .tail _ (.head _), by rw [List.mem_singleton.1 hy]; rfl⟩
    · exact State.heldBack_z (x := { dsts := [{ f := d, n := wideN w }], release := c != 0 }) rfl

/-! ## All words -/

/-- A word on registers alone opens as its shape says (R59, R92). -/
theorem opens_of_shape {i : Instr} {sh : Shape} (h : shapeOf i = some sh) : Opens i { srcs := sh.srcs, dsts := sh.dsts } := by
  obtain ⟨f, hexec, -⟩ := operates_of_shape h
  exact .of_prologue fun s => ⟨_, _, hexec s, .of_reads rfl (.inr fun _ => rfl)⟩

/-- Every word with fields, or that acts in each fibre by itself, opens as `readsOf` says. -/
theorem opens_of_reads {i : Instr} {x : Reads} (h : readsOf i = some x) : Opens i x := by
  cases i
  case fence => cases h; exact opens_fence _
  case br => cases h; exact opens_br ..
  case brn => cases h; exact opens_brn ..
  case gsr => cases h; exact opens_gsr ..
  case ssr => cases h; exact opens_ssr ..
  case strm => cases h; exact opens_strm ..
  case atxch => cases h; exact opens_atxch ..
  -- words at which fibres meet
  case shfl => cases h; exact .of_shuffle rfl fun _ => exec_shfl ..
  case shflu => cases h; exact .of_shuffle rfl fun _ => exec_shflu ..
  case shfld => cases h; exact .of_shuffle rfl fun _ => exec_shfld ..
  case shflx => cases h; exact .of_shuffle rfl fun _ => exec_shflx ..
  case redadd => cases h; exact .of_reduce rfl fun _ => exec_redadd ..
  case redmin => cases h; exact .of_reduce rfl fun _ => exec_redmin ..
  case redmax => cases h; exact .of_reduce rfl fun _ => exec_redmax ..
  case redand => cases h; exact .of_reduce rfl fun _ => exec_redand ..
  case redor => cases h; exact .of_reduce rfl fun _ => exec_redor ..
  case redxor => cases h; exact .of_reduce rfl fun _ => exec_redxor ..
  case scanadd => cases h; exact .of_reduce rfl fun _ => exec_scanadd ..
  case scanaddx => cases h; exact .of_reduce rfl fun _ => exec_scanaddx ..
  case ballot => cases h; exact opens_ballot ..
  case qpack => cases h; exact opens_qpack ..
  case qunpk => cases h; exact opens_qunpk ..
  -- accesses
  case ld | st | ldsp | ldacq | strel | atadd | atand | ator | atxor | atmin | atmax | atfadd | atcas =>
    cases h
    exact .of_reach fun _ => ⟨_, _, _, _, _, rfl, .of_reads rfl (.inr fun _ => rfl)⟩
  -- words that go from their prologue to their effect
  case divs | divz | rems | remz | frcp | fsqrt | frsq | fexp2 | flog2 | fsin | fcos | jmpi | ret | calli | fspawn | fend
      | cflush | cinv | pref | stmap | stunmap | stwb | pqry | mma | mrdy | wbld | dcor | chain | coll | kick | bari | bara
      | bwait | launch | launcht | win | tfence | tclr | mwait | iinv | wclr | wchk | cwait | trap =>
    cases h
    exact .of_prologue fun _ => ⟨_, _, rfl, .of_reads rfl (.inr fun _ => rfl)⟩
  -- instructions that are no such word, and words on registers alone
  all_goals cases h
  all_goals exact opens_of_shape rfl

end Sys2Proof.Machine
end

section
/-! PROOFS. Words that do not go on: operands that are not ready (R59, R87, R92, R240, R297, R322, R334), and guards that
are true in no fibre (R64). -/

namespace Sys2Proof.Machine

open Sys2Proof

/-! ## What holds a word back, cause by cause (R297) -/

section

variable {s : State} {x : Reads}

theorem State.heldBack_range (h : ¬∀ l ∈ s.takers x, s.inSpan l (fieldsOf x.srcs x.dsts) = true) :
    s.heldBack x = some (s.trap s.effective 0x13 0) := if_pos h

variable (hspan : ∀ l ∈ s.takers x, s.inSpan l (fieldsOf x.srcs x.dsts) = true)
include hspan

theorem State.heldBack_emptyRead (h : ¬∀ l ∈ s.takers x, s.empties l (fieldsOf (x.srcs.filter Src.trapping) []) = []) :
    s.heldBack x = some (s.trap s.effective 0x12 0) := by
  rw [State.heldBack, if_neg (not_not.2 hspan), if_pos h]

variable (hblocks : ∀ l ∈ s.takers x, s.empties l (fieldsOf (x.srcs.filter Src.trapping) []) = [])
include hblocks

theorem State.heldBack_watched (h : x.release = true ∧ ∃ l ∈ s.takers x, s.curCrew.watched l = true) :
    s.heldBack x = some (s.trap s.effective 0x19 0) := by
  rw [State.heldBack, if_neg (not_not.2 hspan), if_neg (not_not.2 hblocks), if_pos h]

variable (hwatched : ¬(x.release = true ∧ ∃ l ∈ s.takers x, s.curCrew.watched l = true))
include hwatched

theorem State.heldBack_parks (h : ∃ l ∈ s.takers x, s.empties l (fieldsOf x.srcs x.dsts) ≠ []) :
    s.heldBack x = some { s.parkEmpty x with
      cur := { (s.parkEmpty x).cur with starved := s.cur.starved || s.lacksSource x } } := by
  rw [State.heldBack, if_neg (not_not.2 hspan), if_neg (not_not.2 hblocks), if_neg hwatched, if_pos h]

theorem State.heldBack_spoiled (hfull : ∀ l ∈ s.takers x, s.empties l (fieldsOf x.srcs x.dsts) = [])
    (h : ∃ l ∈ s.takers x, ∃ y ∈ x.srcs, s.fieldSound l y.f y.n = false) : s.heldBack x = some s.spoiled := by
  rw [State.heldBack, if_neg (not_not.2 hspan), if_neg (not_not.2 hblocks), if_neg hwatched, if_neg (by simpa using hfull),
    if_pos h]

end

/-- Where a word's registers are full, those of its sources with wait bit 1 are. -/
theorem State.empties_trapping {s : State} {l : Nat} {x : Reads} (h : s.empties l (fieldsOf x.srcs x.dsts) = []) :
    s.empties l (fieldsOf (x.srcs.filter Src.trapping) []) = [] := by
  simp only [State.empties, List.flatMap_eq_nil_iff, fieldsOf, List.map_nil, List.append_nil, List.mem_append, List.mem_map,
    List.mem_filter] at h ⊢
  rintro f ⟨y, ⟨hy, -⟩, rfl⟩
  exact h _ (.inl ⟨y, hy, rfl⟩)

theorem State.effective_of_takers {s : State} {x : Reads} {p : Nat → Prop} (h : ∃ l ∈ s.takers x, p l) : s.effective ≠ [] := by
  obtain ⟨l, hl, -⟩ := h
  intro he
  rw [State.takers, he, List.take_nil, ite_self] at hl
  cases hl

theorem State.effective_of_not_forall {s : State} {x : Reads} {p : Nat → Prop} (h : ¬∀ l ∈ s.takers x, p l) :
    s.effective ≠ [] := by
  push Not at h
  exact State.effective_of_takers h

/-! ## A unit that consumes an error (R322) -/

theorem State.curLane_consume (s : State) (l : Nat) : (s.consume s.cur.team).curLane l = s.curLane l := by
  simp [State.consume, State.updTeam, State.curLane, State.curCrew, State.crew]

theorem State.spoiled_spec (s : State) : (s.spoiled.team s.cur.team).consumed = true ∧ s.sameMemory s.spoiled
    ∧ ∀ l ∈ s.cur.lanes, s.spoiled.curLane l = { (s.curLane l).restart with state := .parked (.regs []) } := by
  refine ⟨?_, ⟨fun _ => rfl, fun _ => rfl, fun _ => rfl⟩, fun l hl => ?_⟩
  · simp [State.spoiled, State.park, State.mapLanes, State.setCurCrew, State.team_setCrew, Team.setCrew, State.consume,
      State.updTeam]
  · rw [State.spoiled, State.park, State.curLane_mapLanes, if_pos (by exact hl), State.curLane_consume]

/-- Settles O17: every word that `readsOf` lists opens with `State.heldBack` of what it reads (`opens_of_reads`), and each
clause is one cause of it, those before it in the order of R297 being excluded. -/
theorem operandsNotReady : Obligations.OperandsNotReady := by
  constructor
  · intro s i x hx hu rs empty hready hempty
    obtain ⟨hspan, hrest⟩ := forall₂_and.1 hready
    obtain ⟨hblocks, hunwatched⟩ := forall₂_and.1 hrest
    have hwatched : ¬(x.release = true ∧ ∃ l ∈ rs, s.curCrew.watched l = true) := fun ⟨hrelease, l, hl, hw⟩ =>
      Bool.eq_false_iff.1 (hunwatched l hl hrelease) hw
    exact (opens_of_reads hx).stops s _ (State.effective_of_takers hempty) hu
      (State.heldBack_parks hspan hblocks hwatched hempty)
  · intro s i x hx hu rs inside blocks watched
    refine ⟨fun hspan => ?_, fun hspan hblocks => ?_, fun hspan hblocks hw => ?_, fun hspan hw hfull hspoilt => ?_⟩
    · exact (opens_of_reads hx).stops s _ (State.effective_of_not_forall (x := x) hspan) hu (State.heldBack_range hspan)
    · exact (opens_of_reads hx).stops s _ (State.effective_of_not_forall (x := x) hblocks) hu
        (State.heldBack_emptyRead hspan hblocks)
    · exact (opens_of_reads hx).stops s _ (State.effective_of_takers hw.2) hu (State.heldBack_watched hspan hblocks hw)
    · exact ⟨_, (opens_of_reads hx).stops s _ (State.effective_of_takers hspoilt) hu
        (State.heldBack_spoiled hspan (fun l hl => State.empties_trapping (hfull l hl)) hw hfull hspoilt), s.spoiled_spec⟩

/-! ## Guards that are true in no fibre (R64) -/

/-- CALL and CALLN open with the prologue of a branch. -/
theorem State.branch_passes {s : State} (h : s.effective = []) (q : PredF) (neg link : Bool) (o : BitVec 21) :
    s.branch q neg link o = .next s.advanceAll := by
  rw [State.branch]
  simp only [State.prepare_passes h]

/-- Settles O18: a word's prologue looks at the guards first (`State.prepare_passes`), and every word that neither hints nor
meets others begins with it (`opens_of_reads`, and `State.branch_passes` for calls). -/
theorem noGuardNoEffect : Obligations.NoGuardNoEffect := by
  intro s i hi hc he
  rcases hi with hreads | ⟨q, o, rfl | rfl⟩
  · obtain ⟨x, hx⟩ := Option.isSome_iff_exists.1 hreads
    exact (opens_of_reads hx).passes hc s he
  · exact (exec_call q o s).trans (State.branch_passes he ..)
  · exact (exec_calln q o s).trans (State.branch_passes he ..)

end Sys2Proof.Machine
end

section
/-! PROOFS. The state registers: what GSR reads and what SSR writes (R97-R104, R384, R417, R418). -/

namespace Sys2Proof.Machine

open Sys2Proof

/-! ## GSR -/

/-- GSR of every state register but FTIME gives its value to each fibre at once (R97, R98, R384). -/
theorem execGsr_value {s : State} {a : RegF} {n : BitVec 8} (hn : n ≠ 0)
    (h : s.ready [] [{ f := a, n := wideN (wideState n) }] = true) :
    exec (.gsr a n) s
      = .next (s.wrote { f := a, n := wideN (wideState n) } (fun l L => val64 (s.stateReg l L n) L.gt) noFlags) := by
  rw [exec_gsr, execGsr, if_neg hn]
  refine (State.operate_ready h _).trans (congrArg _ (State.done_congr fun l _ => ?_))
  exact (Lane.raise_zero _).symm

/-- GSR of FTIME empties its destination, and the value is to come (R92, R384). -/
theorem execGsr_ftime {s : State} {a : RegF} (h : s.ready [] [{ f := a, n := wideN (wideState 0) }] = true) :
    exec (.gsr a 0) s = .next ((s.emptied { f := a, n := wideN (wideState 0) }).send (.ftime s.cur.team s.cur.crew
      (s.effective.map fun l =>
        (l, s.env.dest l (s.curLane l) { f := a, n := wideN (wideState 0) }, (s.curLane l).gt)))) := by
  rw [exec_gsr, execGsr, if_pos rfl]
  dsimp only
  rw [show wideReg 0 = wideState 0 from rfl, State.prepare_plain h]
  simp only [List.map_map, Function.comp_def]
  rw [State.emptied_eq (State.ready_named h)]

/-! ## Numbers that registers pack -/

/-- Two-bit numbers put side by side from bit 0 on, by bits. -/
theorem getLsbD_foldl_twoBits {f : Nat → Nat} (hf : ∀ b, f b < 4) (n i : Nat) (hi : i < 64) :
    ((List.range n).foldl (fun w b => w ||| (BitVec.ofNat 64 (f b) <<< (2 * b))) (0 : DWord)).getLsbD i
      = (decide (i / 2 < n) && (f (i / 2)).testBit (i % 2)) := by
  induction n with
  | zero => simp
  | succ n ih =>
    rw [List.range_succ, List.foldl_append, List.foldl_cons, List.foldl_nil, BitVec.getLsbD_or, ih,
      BitVec.getLsbD_shiftLeft, BitVec.getLsbD_ofNat]
    have hhigh : ∀ k, 2 ≤ k → (f n).testBit k = false := fun k hk =>
      Nat.testBit_lt_two_pow ((hf n).trans_le (Nat.pow_le_pow_right two_pos hk))
    rcases lt_trichotomy (i / 2) n with h | h | h
    · have h1 : i / 2 < n + 1 := by omega
      have h2 : i < 2 * n := by omega
      simp [h, h1, h2]
    · have h1 : ¬ i < 2 * n := by omega
      have h2 : i - 2 * n = i % 2 := by omega
      have h3 : i % 2 < 64 := by omega
      simp [h, h1, h2, h3, hi]
    · have h1 : ¬ i / 2 < n := by omega
      have h2 : ¬ i / 2 < n + 1 := by omega
      simp [h1, h2, hhigh (i - 2 * n) (by omega)]

/-- The number at a place is the one put there. -/
theorem foldl_twoBits_field {f : Nat → Nat} (hf : ∀ b, f b < 4) {n b : Nat} (hb : b < n) (hn : n ≤ 32) :
    ((List.range n).foldl (fun w b => w ||| (BitVec.ofNat 64 (f b) <<< (2 * b))) (0 : DWord)).toNat / 2 ^ (2 * b) % 4
      = f b := by
  refine Nat.eq_of_testBit_eq fun j => ?_
  rw [show (4 : Nat) = 2 ^ 2 from rfl, Nat.testBit_mod_two_pow, Nat.testBit_div_two_pow]
  by_cases hj : j < 2
  · have hbit := getLsbD_foldl_twoBits hf n (j + 2 * b) (by omega)
    rw [BitVec.getLsbD, show (j + 2 * b) / 2 = b by omega, show (j + 2 * b) % 2 = j by omega] at hbit
    rw [hbit]
    simp [hj, hb]
  · simp [hj, Nat.testBit_lt_two_pow ((hf b).trans_le (Nat.pow_le_pow_right two_pos (not_lt.1 hj)))]

/-- BANKROLE of a core (R213, R214): one team's stash and tensor banks, and those of a second team where they fit. -/
theorem bankRoles_field (S N : Nat) {b : Nat} (hb : b < 32) :
    (bankRoles (some (S, N))).toNat / 2 ^ (2 * b) % 4 =
      if b < S then 1
      else if b < S + N then 2
      else if 32 < 2 * (S + N) then 0
      else if b < 2 * S + N then 1
      else if b < 2 * S + 2 * N then 2
      else 0 := by
  unfold bankRoles
  refine (foldl_twoBits_field (fun b => ?_) hb le_rfl).trans ?_
  · dsimp only
    split_ifs <;> omega
  · dsimp only
    split_ifs <;> omega

/-- A word below 2^32 keeps its number in 64 bits. -/
theorem setWidth_ofNat_word {n : Nat} (h : n < 2 ^ 32) : (BitVec.ofNat 32 n).setWidth 64 = BitVec.ofNat 64 n := by
  apply BitVec.eq_of_toNat_eq
  simp only [BitVec.toNat_setWidth, BitVec.toNat_ofNat]
  omega

/-- WATCHST (R104). -/
theorem Crew.watchst_eq {C : Crew} (now : Nat) (h : C.watch.length ≤ 32) :
    (C.watchst now).setWidth 64 = BitVec.ofNat 64 (C.watch.length
      + 2 ^ 8 * C.watch.countP (fun e => e.2.stateAt now == .pending)
      + 2 ^ 16 * C.watch.countP fun e => e.2.stateAt now == .struck) := by
  have hle (x : WatchState) : C.watch.countP (fun e => e.2.stateAt now == x) ≤ 32 := List.countP_le_length.trans h
  have hp := hle .pending
  have hs := hle .struck
  simp only [Crew.watchst, ← List.countP_eq_length_filter]
  rw [setWidth_ofNat_word (by omega)]
  congr 1
  ring

/-- EINFO (R103). -/
theorem Frame.einfo_eq (fr : Frame) :
    fr.einfo.setWidth 64 = BitVec.ofNat 64
      (((((fr.after.head?.map Prod.snd).getD none).map fun g =>
          2 ^ 4 + 2 ^ 5 * (g.left % 8) + 2 ^ 8 * g.q.toNat + (if g.neg then 2 ^ 12 else 0)).getD 0)
        + 2 * fr.ulen.toNat + (if fr.adv then 1 else 0)) := by
  have hulen := fr.ulen.isLt
  have hadv : bitNat fr.adv = if fr.adv then 1 else 0 := by cases fr.adv <;> rfl
  unfold Frame.einfo
  cases (fr.after.head?.map Prod.snd).getD none with
  | none =>
    simp only [hadv, Option.map_none, Option.getD_none]
    rw [setWidth_ofNat_word (by split_ifs <;> omega)]
    congr 1
    omega
  | some g =>
    have hq := g.q.isLt
    have hneg : bitNat g.neg = if g.neg then 1 else 0 := by cases g.neg <;> rfl
    simp only [hadv, hneg, Option.map_some, Option.getD_some]
    rw [setWidth_ofNat_word (by split_ifs <;> omega)]
    congr 1
    split_ifs <;> norm_num <;> omega

/-- TEAMID (R98, R161): three coordinates that give the team's index. -/
theorem State.teamId_coords {s : State} {t : Nat} {lc : Launch} (hlc : s.launchOf t = some lc)
    (hi : (s.team t).index < lc.block.gx * lc.block.gy * lc.block.gz) (hx : lc.block.gx < 2 ^ 16) (hy : lc.block.gy < 2 ^ 16)
    (hz : lc.block.gz < 2 ^ 16) :
    let id := (s.teamId t).toNat
    id < 2 ^ 48 ∧ id % 2 ^ 16 < lc.block.gx ∧ id / 2 ^ 16 % 2 ^ 16 < lc.block.gy
      ∧ (s.team t).index = id % 2 ^ 16 + lc.block.gx * (id / 2 ^ 16 % 2 ^ 16 + lc.block.gy * (id / 2 ^ 32)) := by
  simp only [State.teamId, hlc]
  generalize (s.team t).index = i at *
  generalize lc.block.gx = gx at *
  generalize lc.block.gy = gy at *
  generalize lc.block.gz = gz at *
  have hx0 : 0 < gx := Nat.pos_of_ne_zero fun h => by simp [h] at hi
  have hy0 : 0 < gy := Nat.pos_of_ne_zero fun h => by simp [h] at hi
  have h1 : i % gx < gx := Nat.mod_lt _ hx0
  have h2 : i / gx % gy < gy := Nat.mod_lt _ hy0
  have h3 : i / (gx * gy) < gz := Nat.div_lt_of_lt_mul hi
  have hsplit : i = i % gx + gx * (i / gx % gy + gy * (i / (gx * gy))) := by
    rw [← Nat.div_div_eq_div_mul, Nat.mod_add_div, Nat.mod_add_div]
  generalize i % gx = x at *
  generalize i / gx % gy = y at *
  generalize i / (gx * gy) = z at *
  have hid : (BitVec.ofNat 64 (x + y * 2 ^ 16 + z * 2 ^ 32)).toNat = x + y * 2 ^ 16 + z * 2 ^ 32 := by
    rw [BitVec.toNat_ofNat, Nat.mod_eq_of_lt (by omega)]
  rw [hid, show (x + y * 2 ^ 16 + z * 2 ^ 32) % 2 ^ 16 = x by omega,
    show (x + y * 2 ^ 16 + z * 2 ^ 32) / 2 ^ 16 % 2 ^ 16 = y by omega,
    show (x + y * 2 ^ 16 + z * 2 ^ 32) / 2 ^ 32 = z by omega]
  exact ⟨by omega, h1, h2, hsplit⟩

/-- A number that names no state register reads 0 (R98). -/
theorem State.stateReg_unlisted {s : State} {l : Nat} {L : Lane} {m : BitVec 8}
    (h : m.toNat ∉ [0x00, 0x01, 0x02, 0x03, 0x04, 0x05, 0x06, 0x07, 0x08, 0x09, 0x0A, 0x10, 0x11, 0x12, 0x13, 0x14,
      0x15, 0x16, 0x20, 0x21, 0x22, 0x30, 0x31, 0x32, 0x33, 0x34, 0x35, 0x36, 0x37, 0x38]) : s.stateReg l L m = 0 := by
  unfold State.stateReg
  dsimp only
  split <;> simp_all

/-- The registers of the top frame read 0 while there is none (R99). -/
theorem State.stateReg_frameless {s : State} {l : Nat} {L : Lane} (hf : s.curCrew.frames = []) {m : BitVec 8}
    (h1 : 0x33 ≤ m) (h2 : m ≤ 0x38) : s.stateReg l L m = 0 := by
  have htop {α : Type} (z : α) (f : Frame → α) : s.curCrew.top z f = z := by simp [Crew.top, hf]
  have hm : m = 0x33 ∨ m = 0x34 ∨ m = 0x35 ∨ m = 0x36 ∨ m = 0x37 ∨ m = 0x38 := by bv_omega
  rcases hm with rfl | rfl | rfl | rfl | rfl | rfl <;> exact htop ..

/-! ## SSR -/

/-- The lowest of causes that are all the same is that one. -/
theorem lowestCause_of_forall_eq {xs : List (Nat × BitVec 8 × DWord)} {c : BitVec 8 × DWord} (hne : xs ≠ [])
    (h : ∀ x ∈ xs, x.2 = c) : lowestCause xs = some c := by
  have hkeeps : ∀ (ys : List (Nat × BitVec 8 × DWord)) (y : Nat × BitVec 8 × DWord), y.2 = c → (∀ x ∈ ys, x.2 = c) →
      ((ys.foldl (fun (m : Option (Nat × BitVec 8 × DWord)) x => match m with
        | some y => if x.1 < y.1 then some x else m
        | none => some x) (some y)).map Prod.snd) = some c := by
    intro ys
    induction ys with
    | nil => intro y hy _; exact congrArg some hy
    | cons x r ih =>
      intro y hy hr
      rw [List.foldl_cons]
      dsimp only
      split
      · exact ih x (hr x (List.mem_cons_self ..)) fun z hz => hr z (List.mem_cons_of_mem _ hz)
      · exact ih y hy fun z hz => hr z (List.mem_cons_of_mem _ hz)
  cases xs with
  | nil => exact absurd rfl hne
  | cons x r => exact hkeeps r x (h x (List.mem_cons_self ..)) fun z hz => h z (List.mem_cons_of_mem _ hz)

/-- The prologue of a word of every fibre whose operands are ready, where some fibre raises the word's one cause of group 6
(R297). -/
theorem State.prepare_early {s : State} {a : Ask} (h : s.ready a.srcs a.dsts = true) (hrelease : a.release = false)
    (hsingle : a.single = false) (hsteer : ∀ L vs, a.steer L vs = none) {c : BitVec 8 × DWord}
    (hc : ∃ l ∈ s.effective, a.early l (s.curLane l) (s.operandsOf a.srcs l) = some c)
    (hall : ∀ l ∈ s.effective, ∀ d, a.early l (s.curLane l) (s.operandsOf a.srcs l) = some d → d = c) :
    s.prepare a = .stop (s.trap s.effective c.1 c.2) := by
  have hreaders : s.readers a = s.effective := by simp [State.readers, hsingle]
  have hsteered (xs : List (Nat × Lane × List Val)) : a.steered xs = false := by simp [Ask.steered, hsteer]
  unfold State.prepare
  rw [if_neg (mt List.isEmpty_iff.1 (State.ready_effective h)), State.notReady_ready h (.inl hrelease)]
  simp only [State.breaches_nil (State.ready_named h), State.breach_nil, hreaders]
  rw [State.gather_ready _ fun l hl x hx => State.ready_src h hl hx]
  simp only [hsteered, Bool.and_false, Bool.false_eq_true, if_false, List.filterMap_nil, List.append_nil]
  rw [lowestCause_of_forall_eq]
  · obtain ⟨l, hl, hl'⟩ := hc
    exact List.ne_nil_of_mem (List.mem_filterMap.2 ⟨_, List.mem_map_of_mem hl, by rw [hl']; rfl⟩)
  · intro x hx
    obtain ⟨y, hy, hx⟩ := List.mem_filterMap.1 hx
    obtain ⟨l, hl, rfl⟩ := List.mem_map.1 hy
    obtain ⟨d, hd, rfl⟩ := Option.map_eq_some_iff.1 hx
    exact hall l hl d hd

/-- What SSR asks of its operand: the value lies in its field's range (R417). -/
def ssrAsk (C : Crew) (a : RegF) (n : BitVec 8) : Ask :=
  { srcs := [src a (wideN (wideState n)) false]
    early := fun _ _ vs => if stateWriteBad C n (valAt vs 0).w32 then some (causeStateWrite, 0) else none }

theorem execSsr_own {n : BitVec 8} (hn : n ≠ 0x13) (a : RegF) (s : State) :
    exec (.ssr a n) s = s.ssrWrite (ssrAsk s.curCrew a n) n :=
  if_neg hn

theorem execSsr_part (a : RegF) (s : State) :
    exec (.ssr a 0x13) s = s.converge .crew (ssrAsk s.curCrew a 0x13) fun s' => s'.ssrWrite (ssrAsk s.curCrew a 0x13) 0x13 :=
  rfl

section

variable {s : State} {C : Crew} {a : RegF} {n : BitVec 8}

/-- A value out of its range in some fibre traps the braid, and nothing is written (R417). -/
theorem State.ssrWrite_traps (h : s.ready [src a (wideN (wideState n)) false] [] = true)
    (hbad : ∃ l ∈ s.effective, stateWriteBad C n (s.operand l (src a (wideN (wideState n)) false)).w32 = true) :
    s.ssrWrite (ssrAsk C a n) n = .next (s.trap s.effective 0x15 0) := by
  unfold State.ssrWrite
  rw [State.prepare_early (a := ssrAsk C a n) (c := (0x15, 0)) h rfl rfl fun _ _ => rfl]
  · obtain ⟨l, hl, hbad⟩ := hbad
    exact ⟨l, hl, if_pos hbad⟩
  · intro l _ d hd
    simp only [ssrAsk] at hd
    split at hd
    · exact (Option.some.inj hd).symm
    · cases hd

/-- Values in their range are written: each fibre's own registers take its value, a shared one takes that of the highest
fibre, PART that of the lowest (R100, R418). -/
theorem State.ssrWrite_writes (h : s.ready [src a (wideN (wideState n)) false] [] = true)
    (hgood : ∀ l ∈ s.effective, stateWriteBad C n (s.operand l (src a (wideN (wideState n)) false)).w32 = false) :
    let v (l : Nat) : Word := (s.operand l (src a (wideN (wideState n)) false)).w32
    s.ssrWrite (ssrAsk C a n) n = .next ((s.done fun l L => L.ssr n (v l)).ssrShared n
      (v (if n = 0x13 then s.effective.headD 0 else s.effective.getLastD 0))) := by
  intro v
  have hvalue (l : Nat) : (valAt (s.operandsOf (ssrAsk C a n).srcs l) 0).w32 = v l := rfl
  unfold State.ssrWrite
  rw [State.prepare_ready (a := ssrAsk C a n) h (.inl rfl) (by simp [Ask.steered, ssrAsk])
    (fun l hl => if_neg (by rw [hvalue]; simp [v, hgood l hl])) fun _ _ => rfl]
  simp only [State.reads, List.map_map, Function.comp_def, hvalue]
  rw [show s.readers (ssrAsk C a n) = s.effective from rfl,
    State.finish_effective (ssrAsk C a n) (State.ready_named h) fun l L => L.ssr n (v l)]
  obtain ⟨l, r, hr⟩ := List.exists_cons_of_ne_nil (State.ready_effective h)
  rw [hr]
  by_cases hn : n = 0x13
  · rw [if_pos hn, if_pos hn]
    rfl
  · rw [if_neg hn, if_neg hn, List.getLast?_map, List.getLast?_cons, List.getLastD_cons,
      List.getLastD_eq_getLast?]
    rfl

end

/-- The values that SSR refuses, but for PART's (R417). -/
theorem stateWriteBad_iff {n : BitVec 8} (hn : n ≠ 0x13) (C : Crew) (v : Word) : stateWriteBad C n v = true ↔
    (n = 0x16 ∧ ¬(v.toNat % 2 ^ 14 % 32 = 0 ∧ 32 ≤ v.toNat % 2 ^ 14 ∧ v.toNat % 2 ^ 14 ≤ 8192))
      ∨ (n = 0x30 ∨ n = 0x31 ∨ (n = 0x33 ∧ C.frames ≠ [])) ∧ v.toNat % 4 ≠ 0 := by
  have hlow : v.extractLsb' 0 2 = 0#2 ↔ v.toNat % 4 = 0 := by simp [← BitVec.toNat_inj, BitVec.extractLsb'_toNat]
  unfold stateWriteBad
  split
  · next h => exact absurd (BitVec.eq_of_toNat_eq h) hn
  · next h =>
    obtain rfl : n = 0x16 := BitVec.eq_of_toNat_eq h
    simp [BitVec.extractLsb'_toNat]
    omega
  · next h =>
    obtain rfl : n = 0x30 := BitVec.eq_of_toNat_eq h
    simp [hlow]
  · next h =>
    obtain rfl : n = 0x31 := BitVec.eq_of_toNat_eq h
    simp [hlow]
  · next h =>
    obtain rfl : n = 0x33 := BitVec.eq_of_toNat_eq h
    simp [hlow]
  · next h16 h30 h31 h33 =>
    have hne {k : BitVec 8} (hk : n.toNat = k.toNat → False) : n ≠ k := fun e => hk (e ▸ rfl)
    simp [hne (k := 0x16#8) h16, hne (k := 0x30#8) h30, hne (k := 0x31#8) h31, hne (k := 0x33#8) h33]

/-- The values that SSR refuses for PART (R100, R417). -/
theorem stateWriteBad_part (C : Crew) (v : Word) : stateWriteBad C 0x13 v = true ↔ v.toNat % 8 = 0 ∨ 5 < v.toNat % 8 := by
  simp [stateWriteBad, BitVec.extractLsb'_toNat]

theorem State.teamCtx_done (s : State) (g : Nat → Lane → Lane) (t : Nat) : (s.done g).teamCtx t = s.teamCtx t :=
  State.teamCtx_setCrew ..

/-! ## What SSR writes -/

/-- A number that names no RW register of a fibre leaves the fibre as it is (R418). -/
theorem Lane.ssr_other {n : BitVec 8} (h : n ∉ [0x10, 0x11, 0x12]) (L : Lane) (v : Word) : L.ssr n v = L := by
  unfold Lane.ssr
  split
  · next e => simp [BitVec.eq_of_toNat_eq (y := 0x10#8) e] at h
  · next e => simp [BitVec.eq_of_toNat_eq (y := 0x11#8) e] at h
  · next e => simp [BitVec.eq_of_toNat_eq (y := 0x12#8) e] at h
  · rfl

/-- A number that names no RW register of a crew, a team or a context changes none (R418). -/
theorem State.ssrShared_other {n : BitVec 8} (h : n ∉ [0x13, 0x14, 0x15, 0x16, 0x30, 0x31, 0x33, 0x37]) (s : State) (v : Word) :
    s.ssrShared n v = s := by
  unfold State.ssrShared
  dsimp only
  split
  · next e => simp [BitVec.eq_of_toNat_eq (y := 0x13#8) e] at h
  · next e => simp [BitVec.eq_of_toNat_eq (y := 0x14#8) e] at h
  · next e => simp [BitVec.eq_of_toNat_eq (y := 0x15#8) e] at h
  · next e => simp [BitVec.eq_of_toNat_eq (y := 0x16#8) e] at h
  · next e => simp [BitVec.eq_of_toNat_eq (y := 0x30#8) e] at h
  · next e => simp [BitVec.eq_of_toNat_eq (y := 0x31#8) e] at h
  · next e => simp [BitVec.eq_of_toNat_eq (y := 0x33#8) e] at h
  · next e => simp [BitVec.eq_of_toNat_eq (y := 0x37#8) e] at h
  · rfl

/-- The frames of the issuing crew once its top frame has changed after a word. -/
theorem State.frames_setTop_done (s : State) (g : Nat → Lane → Lane) (f : Frame → Frame) :
    ((s.done g).updCrew s.cur.team s.cur.crew (·.setTop f)).curCrew.frames = match s.curCrew.frames with
      | [] => []
      | fr :: r => f fr :: r := by
  have hcrew : ((s.done g).updCrew s.cur.team s.cur.crew (·.setTop f)).curCrew = (s.done g).curCrew.setTop f :=
    State.crew_setCrew_self ..
  have hframes : (s.done g).curCrew.frames = s.curCrew.frames := by
    simp [State.done, State.mapLanes, Crew.setLanes]
  rw [hcrew, Crew.setTop, ← hframes]
  cases h : (s.done g).curCrew.frames <;> simp [h]

section

variable {s : State} {a : RegF} {n : BitVec 8}

/-- SSR of values in their range, to a register other than PART. -/
theorem execSsr_writes (hn : n ≠ 0x13) (h : s.ready [src a (wideN (wideState n)) false] [] = true)
    (hgood : ∀ l ∈ s.effective, stateWriteBad s.curCrew n (s.operand l (src a (wideN (wideState n)) false)).w32 = false) :
    let v (l : Nat) : Word := (s.operand l (src a (wideN (wideState n)) false)).w32
    exec (.ssr a n) s = .next ((s.done fun l L => L.ssr n (v l)).ssrShared n (v (s.effective.getLastD 0))) := by
  intro v
  rw [execSsr_own hn, State.ssrWrite_writes h hgood, if_neg hn]

/-- STEER is a register of the issuing team's context (R114). -/
theorem State.ssrShared_steer (s : State) (g : Nat → Lane → Lane) (v : Word) : (s.done g).ssrShared 0x15 v
    = (s.done g).updCtx (s.teamCtx s.cur.team) fun X => { X with steer := v.getLsbD 0 } := by
  rw [← State.teamCtx_done s g]
  rfl

/-- LEASE is one too (R223). -/
theorem State.ssrShared_lease (s : State) (g : Nat → Lane → Lane) (v : Word) : (s.done g).ssrShared 0x16 v
    = (s.done g).updCtx (s.teamCtx s.cur.team) fun X => { X with lease := (v.extractLsb' 0 14).toNat } := by
  rw [← State.teamCtx_done s g]
  rfl

/-- SSR to a number that is no RW register passes (R418). -/
theorem execSsr_other (hn : n ∉ [0x10, 0x11, 0x12, 0x13, 0x14, 0x15, 0x16, 0x30, 0x31, 0x33, 0x37])
    (h : s.ready [src a (wideN (wideState n)) false] [] = true)
    (hgood : ∀ l ∈ s.effective, stateWriteBad s.curCrew n (s.operand l (src a (wideN (wideState n)) false)).w32 = false) :
    exec (.ssr a n) s = .next (s.done fun _ L => L) := by
  simp only [List.mem_cons, List.not_mem_nil, or_false, not_or, BitVec.ofNat_eq_ofNat] at hn
  obtain ⟨h10, h11, h12, h13, h14, h15, h16, h30, h31, h33, h37⟩ := hn
  rw [execSsr_writes h13 h hgood, State.ssrShared_other (by simp [h13, h14, h15, h16, h30, h31, h33, h37])]
  simp only [Lane.ssr_other (n := n) (by simp [h10, h11, h12])]

end

/-! ## PART: a convergence point of the crew (R100) -/

theorem State.torn_cur (s : State) (e : Extent) : (s.torn e).cur = s.cur := by
  unfold State.torn
  dsimp only
  split <;> rfl

/-- The fibres that meet are of the crew of the braid that arrives. -/
theorem State.joined_cur (s : State) (e : Extent) : (s.joined e).cur = { s.cur with lanes := s.performers e } := by
  rw [← State.torn_cur s e]
  rfl

section

variable {s : State} {a : RegF} (hm : s.mayArrive [src a (wideN (wideState 0x13)) false] []) (hc : s.completes .crew ≠ [])
  (h : (s.joined .crew).ready [src a (wideN (wideState 0x13)) false] [] = true)
include hm hc h

theorem execSsr_part_traps {l : Nat} (hl : l ∈ (s.joined .crew).effective)
    (hbad : stateWriteBad s.curCrew 0x13 ((s.joined .crew).operand l (src a (wideN (wideState 0x13)) false)).w32 = true) :
    exec (.ssr a 0x13) s = .next ((s.joined .crew).trap (s.joined .crew).effective 0x15 0) := by
  rw [execSsr_part, State.converge_join _ rfl hm hc]
  exact State.ssrWrite_traps h ⟨l, hl, hbad⟩

theorem execSsr_part_writes (hgood : ∀ l ∈ (s.joined .crew).effective,
      stateWriteBad s.curCrew 0x13 ((s.joined .crew).operand l (src a (wideN (wideState 0x13)) false)).w32 = false) :
    let J := s.joined .crew
    exec (.ssr a 0x13) s = .next ((J.done fun _ L => L).updCrew s.cur.team s.cur.crew fun C =>
      { C with part := (J.operand (J.effective.headD 0) (src a (wideN (wideState 0x13)) false)).w32.toNat % 8 }) := by
  intro J
  have hlow (v : Word) : v.toNat % 8 = (v.extractLsb' 0 3).toNat := by simp [BitVec.extractLsb'_toNat]
  rw [execSsr_part, State.converge_join _ rfl hm hc, State.ssrWrite_writes h hgood, if_pos rfl, hlow,
    show s.cur.team = J.cur.team by rw [State.joined_cur], show s.cur.crew = J.cur.crew by rw [State.joined_cur]]
  rfl

end

/-! ## The statement -/

/-- Settles O30: GSR by the value of each register (`State.stateReg`), SSR by what its one prologue does with values out of
and in their range (`State.ssrWrite_traps`, `State.ssrWrite_writes`), in the braid's fibres or, for PART, in those that
meet. -/
theorem stateRegisters : Obligations.StateRegisters := by
  intro s a n k dst x T C X v last pass crewGets bad
  refine ⟨fun h => ⟨fun hn => execGsr_value hn h, fun hn => ?_⟩, fun l L => ?_, fun hn h => ?_, fun hn hc hm => ?_⟩
  · subst hn
    exact execGsr_ftime h
  · refine ⟨rfl, rfl, rfl, rfl, rfl, rfl, ?_, rfl, rfl, rfl, rfl, rfl, ?_, rfl, rfl, rfl, rfl, rfl, fun fr r hf => ?_,
      Crew.watchst_eq s.ftime, ?_, fun m => State.stateReg_unlisted, fun hf m => State.stateReg_frameless hf, fun lc hlc => ?_⟩
    · exact congrArg (BitVec.ofNat 64) (if_congr (Nat.div_eq_zero_iff_lt (by decide)) rfl rfl)
    · exact (by cases X.steer <;> rfl : BitVec.ofNat 64 (bitNat X.steer) = if X.steer then 1 else 0)
    · have htop {α : Type} (z : α) (f : Frame → α) : s.curCrew.top z f = f fr := by
        rw [Crew.top, show s.curCrew.frames = fr :: r from hf]
      exact ⟨htop .., htop .., htop .., htop .., htop .., fun g hg => by subst hg; exact (htop ..).trans fr.einfo_eq⟩
    · intro role b hb
      have hrole : role b = (bankRoles (s.core T.core).roles).toNat / 2 ^ (2 * b) % 4 := rfl
      rw [hrole]
      cases (s.core T.core).roles with
      | none => simp [bankRoles]
      | some r => exact bankRoles_field r.1 r.2 hb
    · have hlaunch {α : Type} (z : α) (f : Launch → α) : ((s.launchOf s.cur.team).map f).getD z = f lc := by
        rw [hlc]
        rfl
      exact ⟨congrArg (BitVec.setWidth 64) (hlaunch ..), congrArg (BitVec.ofNat 64) (hlaunch ..), State.teamId_coords hlc⟩
  · have hbad (l : Nat) := stateWriteBad_iff hn C (v l)
    refine ⟨fun ⟨l, hl, hb⟩ => ?_, fun hg => ?_⟩
    · rw [execSsr_own hn]
      exact State.ssrWrite_traps h ⟨l, hl, (hbad l).2 hb⟩
    have hgood : ∀ l ∈ s.effective, stateWriteBad C n (v l) = false := fun l hl =>
      Bool.eq_false_iff.2 fun hb => hg ⟨l, hl, (hbad l).1 hb⟩
    have hw := execSsr_writes hn h hgood
    refine ⟨fun e => ?_, fun e => ?_, fun e => ?_, fun e => ?_, fun e => ?_, fun e => ?_, fun e => ?_, fun e => ?_, fun e => ?_,
      fun e => ?_, fun hother => execSsr_other (by simp_all) h hgood⟩ <;> subst e
    case refine_5 => exact hw.trans (congrArg Host.Outcome.next (State.ssrShared_steer ..))
    case refine_6 => exact hw.trans (congrArg Host.Outcome.next (State.ssrShared_lease ..))
    case refine_9 => exact ⟨_, hw, State.frames_setTop_done ..⟩
    case refine_10 => exact ⟨_, hw, State.frames_setTop_done ..⟩
    all_goals exact hw
  · subst hn
    intro J w h
    have hbad (l : Nat) := stateWriteBad_part s.curCrew (J.operand l x).w32
    refine ⟨fun hg => execSsr_part_writes hm hc h fun l hl => Bool.eq_false_iff.2 fun hb => ?_, fun ⟨l, hl, hb⟩ =>
      execSsr_part_traps hm hc h hl ((hbad l).2 hb)⟩
    obtain ⟨h1, h5⟩ : 1 ≤ (J.operand l x).w32.toNat % 8 ∧ (J.operand l x).w32.toNat % 8 ≤ 5 := hg l hl
    have := (hbad l).1 hb
    omega

end Sys2Proof.Machine
end

section
/-! PROOFS. Statements that fail: atomics of a fibre that its braid lists twice (R92, R268), and a piece longer than a line
(R226). -/

namespace Sys2Proof.Machine

open Sys2Proof

/-- A running fibre with the capability of its stash in g2:g3 and 1 in g8, in a braid that lists its lane twice. -/
def State.listedTwice : State :=
  let s := (State.reset.withFetchWord 32 0).updLane 2 0 0 fun L =>
    { L with regs := [(3, ⟨960, false, true⟩), (8, ⟨1, false, true⟩)] }
  { s with cur := { team := 2, crew := 0, lanes := [0, 0], unit := [0] } }

/-- Refutes O28: in a braid that lists fibre 0 twice, ATADD on the stash acts once for each listing, so two values, 0 and 1,
go to the fibre; the statement has one message, numbered `key 0`, hold both. No premise of it says that the braid's lanes
differ (`s.cur.lanes.Nodup`, as O23 has it). -/
theorem not_atomicIssue : ¬ Obligations.AtomicIssue := by
  rintro ⟨h, -⟩
  obtain ⟨hadd, -⟩ := h State.listedTwice false 0 20 2 8 fun _ => .stash 0
  obtain ⟨-, hadd⟩ := hadd (by decide +kernel) (fun hw => absurd hw (by decide))
  obtain ⟨-, hadd⟩ := hadd (by unfold State.reaches; decide +kernel) (by decide +kernel)
  obtain ⟨t, key, -, -, -, -, -, -, hnear, -⟩ := hadd (fun hw => absurd hw (by decide))
  have h0 := hnear (0, 0, false) (by decide +kernel)
  have h1 := hnear (0, 1, false) (by decide +kernel)
  have hval := h0.symm.trans h1
  injection hval with hval
  injection hval with _ _ _ hval
  exact absurd hval (by decide)

/-- A copy of a line of zeros. -/
def Copy.ofZeros : Copy :=
  { data := Mem.empty, expiry := none, granted := 0, version := 0, epoch := 0, ctx := 0, obj := 0 }

/-- Refutes O36 by its last clause: `Copy.takes` stores its bytes in at most five sectors (`Mem.storeTagged` with fuel 5),
and no premise says that a piece lies in its line of 128 bytes, so of 161 bytes at offset 0 the last is not taken. -/
theorem not_valueReplies : ¬ Obligations.ValueReplies := by
  intro h
  obtain ⟨-, -, -, -, -, -, -, -, -, -, htakes⟩ := h State.reset 0 0 0
  have hbyte := (htakes Copy.ofZeros 1 0 (List.replicate 161 1) []).2 160
  exact absurd hbyte (by decide +kernel)

end Sys2Proof.Machine
end

section
/-! PROOFS. The chunks of a collective (R291, R292): a broadcast whose root is no rank of its set. -/

namespace Sys2Proof.Machine

open Sys2Proof

/-- A rank on a core of device 0, of a broadcast from rank 1 of one word to the first bytes of object 17; it has read
four bytes of 1. -/
def Rank.ofRootOne (core : Nat) : Rank where
  team := 2
  crew := 0
  lane := 0
  dev := 0
  core := core
  bytes := leBytes 8 0 ++ leBytes 8 (17 * 2 ^ 42 + 13 * 2 ^ 38) ++ leBytes 4 1 ++ leBytes 4 3 ++ leBytes 4 1 ++ leBytes 4 0x700
    ++ List.replicate 32 0
  addr := 0x640
  gtag := false
  bar := 0x700
  btag := false
  remote := none
  got := some (List.replicate 4 1, List.replicate 4 false)

/-- The set is core 0 alone, so its only rank has number 0; a rank on core 5, outside the set, counts as number 1. -/
def CollRun.rootOutside : CollRun := { ctx := 0, members := [(0, [0])], ranks := [Rank.ofRootOne 0, Rank.ofRootOne 5] }

/-- Context 0 with object 17 in the frame at 0x400000, and that collective in flight. -/
def State.rootOutside : State :=
  let s := State.reset.withFetchWord 32 0
  { s with
    ctxs := s.ctxs.mapVals fun _ X => { X with otsize := 32 }
    mem := (s.mem.setBytes (fetchTable + 32 * 17)
      (leBytes 8 Config.frameBytes ++ leBytes 4 (2 ^ 31 + 13 * 2 ^ 27) ++ leBytes 4 0 ++ leBytes 8 0x202000)).setBytes
      0x202000 (leBytes 8 (2 * 2 ^ 61 + 2))
    jobs := [(9, .coll CollRun.rootOutside)] }

/-- Where the rank's four bytes go: the first of the object's one frame. -/
def Piece.rootOutside : Piece :=
  { loc := .mem 0x400000 17 0 0 false false, len := 4, cap := capWith (collBlock (Rank.ofRootOne 0).bytes).dst 0 }

/-- The chunk of a broadcast from rank 1 writes nothing where the set has rank 0 alone. -/
theorem execCollChunk_rootOutside (w : State)
    (h : exec (.collChunk 9 0 (.rank 0) []) State.rootOutside = .next w) : w.mem.byte 0x400000 = 0 := by
  have hbyte : (match exec (.collChunk 9 0 (.rank 0) []) State.rootOutside with
    | .next w => w.mem.byte 0x400000
    | _ => 0) = 0 := by decide +kernel
  rwa [h] at hbyte

/-- Refutes O50: no premise says that a block's root is a rank (`CollBlock.ok`, as COLL checks at issue) or that each rank
stands in its set. With the one-rank set of `CollRun.rootOutside` and root 1, the statement looks the root's data up among
all that joined and finds core 5's, which counts as rank 1; the chunk looks among the ranks below p and writes nothing. -/
theorem not_collectives : ¬ Obligations.Collectives := by
  intro h
  obtain ⟨-, hchunk, -⟩ := h State.rootOutside 9 0 CollRun.rootOutside (.rank 0) rfl rfl
  obtain ⟨-, hchunk⟩ := hchunk rfl rfl (by decide) (by decide) (by decide +kernel)
  obtain ⟨w, -, -, hexec, -, hbroadcast, -⟩ := hchunk (by decide +kernel) (by decide +kernel) (by decide)
    (Rank.ofRootOne 0) (by decide +kernel) Piece.rootOutside 0x400000 17 0 0 false false (by decide +kernel) rfl
    (by decide +kernel) (by decide +kernel) (by decide +kernel) (by decide +kernel) (by decide +kernel)
  have hone := hbroadcast (by decide +kernel) 0 (by decide +kernel) (by decide +kernel)
  have hzero := execCollChunk_rootOutside w hexec
  exact absurd (hone.symm.trans hzero) (by decide +kernel)

end Sys2Proof.Machine
end

section
/-! PROOFS. QUNPK of the group code 3, which no well-formed word has (R72). -/

namespace Sys2Proof.Machine

open Sys2Proof

/-- A crew of two fibres in one braid: fibre 0, whose guard is false, holds part of a poisoned tile in g5; fibre 1 has its
guard true. -/
def State.spoiltPassive : State :=
  let s := State.reset.withFetchWord 32 0
  let passive : Lane := { state := .ready, guard := some { q := 1, neg := false, left := 1 }, spoilt := [5] }
  let braid : Braid := { lanes := [0, 1] }
  { s.updCrew 2 0 (fun C => { C with lanes := [(0, passive), (1, { state := .ready })], braids := [braid] }) with
    cur := { team := 2, crew := 0, lanes := [0, 1], unit := [0] } }

/-- Refutes O29 in its clause on QUNPK: the group code 3 with INT8 codes has a source of one register
(`k = 1`), and of a record of 33 words, so the word also reads g5 of fibre 0, the register after the source; it meets
the poisoned tile there, and the statement asks that only the source's register be sound. No premise says that the word is
well formed (`Instr.wf`), as `g ≠ 3` would. -/
theorem not_packRecords : ¬ Obligations.PackRecords := by
  rintro ⟨h, -⟩
  obtain ⟨-, hunpack⟩ := h State.spoiltPassive 3 true 20 4 0 false false (by decide +kernel)
  have hexec := hunpack (by unfold State.mayArrive; decide +kernel) (by decide +kernel) (by decide +kernel)
  have hconsumed : (match exec (.qunpk 3 true 20 4 false) State.spoiltPassive with
    | .next t => (t.team 2).consumed
    | _ => false) = true := by decide +kernel
  rw [hexec] at hconsumed
  revert hconsumed
  decide +kernel

end Sys2Proof.Machine
end

section
/-! PROOFS. Formats, values and the rounding to whole numbers (R129, R131, R136). -/

namespace Sys2Proof.Machine

open Sys2Proof

/-! ## The pattern of a sign, an exponent and a fraction (R129) -/

/-- The value that the fields of a pattern give. -/
def Fmt.fields (f : Fmt) (s : Bool) (e m : Nat) : FVal :=
  if e = 0 then .fin s m (f.emin - f.fw)
  else if f.e4 then if e = f.top ∧ m = 7 then .nan false else .fin s (2 ^ f.fw + m) ((e : Int) - f.bias - f.fw)
  else if e = f.top then if m = 0 then .inf s else .nan (m < 2 ^ (f.fw - 1))
  else .fin s (2 ^ f.fw + m) ((e : Int) - f.bias - f.fw)

theorem Fmt.two_pow_width (f : Fmt) : 2 ^ f.width = 2 * 2 ^ (f.ew + f.fw) := by rw [Fmt.width, add_assoc, pow_add, pow_one]

/-- The exponent and the fraction lie below the sign bit. -/
theorem Fmt.fields_lt (f : Fmt) {e m : Nat} (he : e < 2 ^ f.ew) (hm : m < 2 ^ f.fw) : e * 2 ^ f.fw + m < 2 ^ (f.ew + f.fw) := by
  have hmul : (e + 1) * 2 ^ f.fw ≤ 2 ^ f.ew * 2 ^ f.fw := Nat.mul_le_mul_right _ he
  rw [pow_add]
  linarith

theorem Fmt.pattern_lt (f : Fmt) (s : Bool) {b : Nat} (h : b < 2 ^ (f.ew + f.fw)) : f.signBit s + b < 2 ^ f.width := by
  rw [f.two_pow_width]
  have hs : f.signBit s ≤ 2 ^ (f.ew + f.fw) := by cases s <;> simp [Fmt.signBit, bitNat]
  omega

theorem Fmt.read_fields (f : Fmt) (s : Bool) {e m : Nat} (he : e < 2 ^ f.ew) (hm : m < 2 ^ f.fw) :
    f.read false (f.signBit s + (e * 2 ^ f.fw + m)) = f.fields s e m := by
  have hlow := f.fields_lt he hm
  have hsign : (f.signBit s + (e * 2 ^ f.fw + m)) / 2 ^ (f.ew + f.fw) = bitNat s := by
    rw [Fmt.signBit, add_comm, Nat.add_mul_div_right _ _ (by positivity), Nat.div_eq_of_lt hlow, zero_add]
  have hhigh : (f.signBit s + (e * 2 ^ f.fw + m)) / 2 ^ f.fw % 2 ^ f.ew = e := by
    rw [Fmt.signBit, pow_add, ← mul_assoc, ← add_assoc, ← add_mul, add_comm, Nat.add_mul_div_right _ _ (by positivity),
      Nat.div_eq_of_lt hm, zero_add, Nat.mul_add_mod_of_lt he]
  have hfrac : (f.signBit s + (e * 2 ^ f.fw + m)) % 2 ^ f.fw = m := by
    rw [Fmt.signBit, pow_add, ← mul_assoc, ← add_assoc, ← add_mul, Nat.mul_add_mod_of_lt hm]
  unfold Fmt.read Fmt.fields
  simp only [Nat.mod_eq_of_lt (f.pattern_lt s hlow), hsign, hhigh, hfrac, Bool.false_and]
  cases s <;> rfl

/-- The formats of R128 that the statements range over. -/
def formats : List Fmt := [f64, f32, bf16, f16, e5m2, e4m3]

/-- What the arithmetic of formats rests on: exponents of at least two bits, a fraction of at most 52, and of three where
the top exponent is finite. -/
structure Fmt.Regular (f : Fmt) : Prop where
  two_le_ew : 2 ≤ f.ew
  one_le_fw : 1 ≤ f.fw
  fw_of_e4 : f.e4 = true → f.fw = 3
  fw_le : f.fw ≤ 52
  emin_nonpos : f.emin ≤ 0

theorem Fmt.regular {f : Fmt} (hf : f ∈ formats) : f.Regular := by
  have h : ∀ f ∈ formats, 2 ≤ f.ew ∧ 1 ≤ f.fw ∧ (f.e4 = true → f.fw = 3) ∧ f.fw ≤ 52 ∧ f.emin ≤ 0 := by decide
  obtain ⟨hew, hfw, he4, hfwLe, hemin⟩ := h f hf
  exact ⟨hew, hfw, he4, hfwLe, hemin⟩

/-- The top exponent is above that of the smallest normal. -/
theorem Fmt.Regular.two_le_top {f : Fmt} (h : f.Regular) : 2 ≤ f.top := by
  have hew : 2 ^ 2 ≤ 2 ^ f.ew := Nat.pow_le_pow_right (by decide) h.two_le_ew
  unfold Fmt.top
  omega

/-- The value of a finite pattern as R129 writes it. -/
theorem Fmt.fields_finite {f : Fmt} (s : Bool) {e m : Nat} (hfin : ¬(e = f.top ∧ (f.e4 = true → m = 7))) :
    ∃ n k, f.fields s e m = .fin s n k ∧ (n : ℚ) * 2 ^ k =
      if e = 0 then 2 ^ (1 - (f.bias : Int)) * ((m : ℚ) / 2 ^ f.fw) else 2 ^ ((e : Int) - f.bias) * (1 + (m : ℚ) / 2 ^ f.fw) := by
  have htwo : (2 : ℚ) ≠ 0 := two_ne_zero
  unfold Fmt.fields
  by_cases he : e = 0
  · refine ⟨m, f.emin - f.fw, by rw [if_pos he], ?_⟩
    rw [if_pos he, Fmt.emin, zpow_sub₀ htwo, zpow_natCast]
    ring
  · refine ⟨2 ^ f.fw + m, e - f.bias - f.fw, ?_, ?_⟩
    · rw [if_neg he]
      by_cases he4 : f.e4 = true
      · rw [if_pos he4, if_neg fun hc => hfin ⟨hc.1, fun _ => hc.2⟩]
      · rw [if_neg he4, if_neg fun hc => hfin ⟨hc, fun hc => absurd hc he4⟩]
    · rw [if_neg he, zpow_sub₀ htwo ((e : Int) - f.bias), zpow_natCast]
      push_cast
      field_simp

theorem Fmt.fields_special {f : Fmt} (h : f.Regular) (s : Bool) (m : Nat) : f.fields s f.top m =
    if f.e4 then if m = 7 then .nan false else .fin s (2 ^ f.fw + m) ((f.top : Int) - f.bias - f.fw)
    else if m = 0 then .inf s else .nan (m < 2 ^ (f.fw - 1)) := by
  have htop := h.two_le_top
  unfold Fmt.fields
  rw [if_neg (by omega)]
  simp

/-! ## Rounding a magnitude to a whole number (R136) -/

section

variable {x : ℝ} {n : ℕ} {rm : RMode} {s : Bool}

/-- A magnitude rounds to a neighbour. -/
theorem RMode.takes_close (h : rm.takes s x n) : (n : ℝ) - 1 < x ∧ x < n + 1 := by
  cases rm <;> cases s <;> simp only [RMode.takes, if_true, if_false, Bool.false_eq_true] at h
  case rne.false | rne.true =>
    obtain ⟨hlow, hhigh⟩ := abs_le.1 h.1
    constructor <;> linarith
  all_goals exact ⟨by linarith, by linarith⟩

theorem RMode.le_of_takes {N : ℕ} (h : rm.takes s x n) (hx : (N : ℝ) ≤ x) : N ≤ n := by
  have hlt : (N : ℝ) < n + 1 := hx.trans_lt (RMode.takes_close h).2
  exact Nat.lt_succ_iff.1 (by exact_mod_cast hlt)

theorem RMode.takes_le {N : ℕ} (h : rm.takes s x n) (hx : x ≤ N) : n ≤ N := by
  have hlt : (n : ℝ) < N + 1 := by linarith [(RMode.takes_close h).1]
  exact Nat.lt_succ_iff.1 (by exact_mod_cast hlt)

/-- A whole number rounds to itself. -/
theorem RMode.takes_whole {N : ℕ} (h : rm.takes s N n) : n = N :=
  le_antisymm (RMode.takes_le h le_rfl) (RMode.le_of_takes h le_rfl)

/-- To nearest, the rounded number is within a half. -/
theorem RMode.takes_rne_close (h : RMode.rne.takes s x n) : |x - n| ≤ 1 / 2 := h.1

end

/-- The quotient and the remainder of a magnitude. -/
theorem natCast_div_eq_add (num : Nat) {den : Nat} (hden : 0 < den) :
    (num : ℝ) / den = (num / den : ℕ) + ((num % den : ℕ) : ℝ) / den := by
  have hd : (den : ℝ) ≠ 0 := by positivity
  have h : (num : ℝ) = den * (num / den : ℕ) + (num % den : ℕ) := by exact_mod_cast (Nat.div_add_mod num den).symm
  field_simp
  linarith

section

variable (rm : RMode) (s : Bool) (num : Nat) {den : Nat} (hden : 0 < den)
include hden

theorem roundNat_takes : rm.takes s ((num : ℝ) / den) (roundNat rm s num den).1 := by
  have hd : (0 : ℝ) < den := by positivity
  have hdiv := natCast_div_eq_add num hden
  have hlt : ((num % den : ℕ) : ℝ) < den := by exact_mod_cast Nat.mod_lt num hden
  unfold roundNat
  generalize num / den = q at *
  generalize num % den = r at *
  have hφ : (r : ℝ) / den < 1 := (div_lt_one hd).2 hlt
  have hnonneg : 0 ≤ (r : ℝ) / den := by positivity
  have hpos : 0 < r ↔ 0 < (r : ℝ) / den := by rw [div_pos_iff_of_pos_right hd, Nat.cast_pos]
  have hhalf : den < 2 * r ↔ 1 / 2 < (r : ℝ) / den := by
    rw [lt_div_iff₀ hd, div_mul_eq_mul_div, one_mul, div_lt_iff₀ two_pos, mul_comm (r : ℝ)]
    exact_mod_cast Iff.rfl
  have htie : 2 * r = den ↔ (r : ℝ) / den = 1 / 2 := by
    rw [div_eq_div_iff hd.ne' two_ne_zero, one_mul, mul_comm (r : ℝ)]
    exact_mod_cast Iff.rfl
  rw [hdiv]
  generalize (r : ℝ) / den = φ at *
  have hdown : (q : ℝ) ≤ q + φ ∧ (q : ℝ) + φ < q + 1 := ⟨by linarith, by linarith⟩
  have hup : (q : ℝ) + φ ≤ (if decide (0 < r) then q + 1 else q : ℕ)
      ∧ ((if decide (0 < r) then q + 1 else q : ℕ) : ℝ) < q + φ + 1 := by
    by_cases hr : 0 < r
    · have := hpos.1 hr
      rw [if_pos (decide_eq_true hr), Nat.cast_add_one]
      constructor <;> linarith
    · have := mt hpos.2 hr
      rw [if_neg (by simpa using hr)]
      constructor <;> linarith
  cases rm
  case rne =>
    dsimp only [RMode.takes]
    split
    case isTrue hround =>
      simp only [Bool.or_eq_true, Bool.and_eq_true, decide_eq_true_eq, beq_iff_eq, hhalf, htie] at hround
      have hge : 1 / 2 ≤ φ := hround.elim le_of_lt fun h => h.1.ge
      have habs : |(q : ℝ) + φ - (q + 1 : ℕ)| = 1 - φ := by
        rw [Nat.cast_add_one, abs_of_nonpos (by linarith)]
        ring
      refine ⟨by linarith, fun heq => ?_⟩
      have hodd : q % 2 = 1 := hround.elim (fun h => absurd h (by linarith)) And.right
      exact Nat.succ_mod_two_eq_zero_iff.2 hodd
    case isFalse hround =>
      simp only [Bool.or_eq_true, Bool.and_eq_true, decide_eq_true_eq, beq_iff_eq, hhalf, htie, not_or, not_and, not_lt] at hround
      have habs : |(q : ℝ) + φ - q| = φ := by rw [add_sub_cancel_left, abs_of_nonneg hnonneg]
      refine ⟨by linarith [hround.1], fun heq => ?_⟩
      have heven := hround.2 (by linarith)
      omega
  case rtz => exact hdown
  case rup =>
    cases s
    · exact hup
    · exact hdown
  case rdn =>
    cases s
    · exact hdown
    · exact hup

theorem roundNat_exact : (roundNat rm s num den).2 = false ↔ ((roundNat rm s num den).1 : ℝ) = (num : ℝ) / den := by
  have hd : (0 : ℝ) < den := by positivity
  have htakes := roundNat_takes rm s num hden
  have hflag : (roundNat rm s num den).2 = false ↔ num % den = 0 := by simp [roundNat]
  rw [hflag]
  have hdiv := natCast_div_eq_add num hden
  constructor
  · intro h
    rw [hdiv, h, Nat.cast_zero, zero_div, add_zero] at htakes ⊢
    exact_mod_cast RMode.takes_whole htakes
  · intro h
    rw [eq_div_iff hd.ne'] at h
    exact Nat.mod_eq_zero_of_dvd (Dvd.intro_left _ (by exact_mod_cast h))

end

/-- The statement's comparison with every whole number, from the distance to the rounded one. -/
theorem RMode.takes_rne_nearest {x : ℝ} {n : ℕ} {s : Bool} (h : RMode.rne.takes s x n) (k : ℕ) (hk : k ≠ n) :
    |(n : ℝ) - x| ≤ |(k : ℝ) - x| ∧ (|(k : ℝ) - x| = |(n : ℝ) - x| → n % 2 = 0) := by
  obtain ⟨hclose, htie⟩ := h
  rw [abs_sub_comm] at hclose htie
  have hapart : 1 ≤ |(k : ℝ) - n| := by
    have hint : (1 : ℤ) ≤ |(k : ℤ) - n| := Int.one_le_abs (by omega)
    exact_mod_cast hint
  have htriangle := abs_sub_le (k : ℝ) x n
  rw [abs_sub_comm x] at htriangle
  exact ⟨by linarith, fun heq => htie (by linarith)⟩

/-- Settles O6: a pattern is read by its fields (`Fmt.read_fields`), and `roundNat_takes` says what each mode takes. -/
theorem patternsAndModes : Obligations.PatternsAndModes := by
  refine ⟨fun f hf s e m he hm => ?_, fun s num den hden => ?_⟩
  · have hreg := Fmt.regular hf
    intro x special
    have hx : x = f.fields s e m := by
      rw [← f.read_fields s he hm, Fmt.signBit, ← add_assoc]
      cases s <;> rfl
    have htop (h : special) : x = f.fields s f.top m := by rw [hx, show e = f.top from h.1]
    refine ⟨fun h he4 hm => ?_, fun h he4 hm => ?_, fun h he4 => ?_, fun h => ?_⟩
    · rw [htop h, Fmt.fields_special hreg, he4, hm]
      rfl
    · rw [htop h, Fmt.fields_special hreg, he4, if_neg hm]
      rfl
    · rw [htop h, Fmt.fields_special hreg, he4, h.2 he4]
      rfl
    · rw [hx]
      exact Fmt.fields_finite s h
  · intro x r
    have hx : ((x : ℚ) : ℝ) = (num : ℝ) / den := by simp [x]
    have htakes (rm : RMode) : rm.takes s x (r rm) := hx ▸ roundNat_takes rm s num hden
    have hnearest (n : ℕ) (hn : n ≠ r .rne) := RMode.takes_rne_nearest (htakes .rne) n hn
    refine ⟨fun rm => ?_, fun n => ?_, fun n hn => ?_, ?_, ?_, ?_⟩
    · rw [roundNat_exact rm s num hden, ← hx]
      norm_cast
    · by_cases hn : n = r .rne
      · rw [hn]
      · exact_mod_cast (hnearest n hn).1
    · exact_mod_cast (hnearest n hn).2
    · have := htakes .rtz
      dsimp only [RMode.takes] at this
      exact_mod_cast this
    · have := htakes .rup
      dsimp only [RMode.takes] at this
      exact_mod_cast this
    · have := htakes .rdn
      dsimp only [RMode.takes] at this
      exact_mod_cast this

end Sys2Proof.Machine
end

section
/-! PROOFS. Overflows, infinities and NaNs (R131 to R133, R139, R140). -/

namespace Sys2Proof.Machine

open Sys2Proof

/-! ## What an overflow and an infinity write (R132, R133) -/

theorem Fmt.overflow_wide {f : Fmt} (hf : f ∈ [f64, f32, bf16, f16]) (a : Attr) (s : Bool) : f.overflow a s =
    ⟨if a.rm = .rne ∨ (a.rm = .rup ∧ s = false) ∨ (a.rm = .rdn ∧ s = true) then f.inf s else f.maxFinite s, flOF ||| flNX⟩ := by
  have hwide : ∀ f ∈ [f64, f32, bf16, f16], f.isFp8 = false := by decide
  unfold Fmt.overflow
  rw [hwide f hf]
  cases a.rm <;> cases s <;> rfl

theorem Fmt.overflow_fp8 {f : Fmt} (hf : f.isFp8 = true) (a : Attr) (s : Bool) : f.overflow a s =
    if a.f8sat then ⟨f.maxFinite s, flOF ||| flNX ||| flSAT⟩ else ⟨f.nanSigned s, flOF ||| flNX⟩ := by
  unfold Fmt.overflow
  rw [if_pos hf]

/-! ## NaN sources and invalid operations (R131, R139, R140) -/

section

variable {f : Fmt} {a : Attr} {x y z : FVal}

theorem FVal.eq_fin_of_isFinite (h : x.isFinite = true) : ∃ s n e, x = .fin s n e := by
  cases x with
  | fin s n e => exact ⟨s, n, e, rfl⟩
  | nan q => cases h
  | inf s => cases h

theorem FVal.eq_zero_of_isZero (h : x.isZero = true) : ∃ s e, x = .fin s 0 e := by
  cases x with
  | fin s n e =>
    cases n with
    | zero => exact ⟨s, e, rfl⟩
    | succ n => cases h
  | nan q => cases h
  | inf s => cases h

theorem Fmt.add_nan (h : (x.isNan || y.isNan) = true) : f.add a x y = f.writeNan (x.isSnan || y.isSnan) := by
  unfold Fmt.add
  rw [if_pos h]

theorem Fmt.mul_nan (h : (x.isNan || y.isNan) = true) : f.mul a x y = f.writeNan (x.isSnan || y.isSnan) := by
  unfold Fmt.mul
  dsimp only
  rw [if_pos h]

/-- A zero times an infinity is invalid. -/
theorem Fmt.mul_zero_inf (h : x.isZero = true) (s : Bool) :
    f.mul a x (.inf s) = f.writeNan true ∧ f.mul a (.inf s) x = f.writeNan true := by
  obtain ⟨t, e, rfl⟩ := FVal.eq_zero_of_isZero h
  exact ⟨rfl, rfl⟩

/-- So it is in a fused product and sum, whatever is added. -/
theorem Fmt.fma_zero_inf (h : x.isZero = true) (s : Bool) (z : FVal) :
    f.fma a x (.inf s) z = f.writeNan true ∧ f.fma a (.inf s) x z = f.writeNan true := by
  obtain ⟨t, e, rfl⟩ := FVal.eq_zero_of_isZero h
  cases z with
  | nan q => cases q <;> exact ⟨rfl, rfl⟩
  | inf t => exact ⟨rfl, rfl⟩
  | fin t n e => exact ⟨rfl, rfl⟩

theorem Fmt.fma_nan_addend (hx : x.isFinite = true) (hy : y.isFinite = true) (hz : z.isNan = true) :
    f.fma a x y z = f.writeNan z.isSnan := by
  obtain ⟨s, n, e, rfl⟩ := FVal.eq_fin_of_isFinite hx
  obtain ⟨s', n', e', rfl⟩ := FVal.eq_fin_of_isFinite hy
  cases z with
  | nan q => cases q <;> rfl
  | inf t => cases hz
  | fin t n e => cases hz

theorem Fmt.pick_snan (h : (x.isSnan || y.isSnan) = true) (s : Bool) : f.pick s x y = f.writeNan true := by
  unfold Fmt.pick
  rw [if_pos h]

/-- A quiet NaN leaves the other source (R141). -/
theorem Fmt.pick_quiet (hy : y.isNan = false) (s : Bool) :
    f.pick s (.nan false) y = ⟨f.write y, 0⟩ ∧ f.pick s y (.nan false) = ⟨f.write y, 0⟩ := by
  cases y with
  | nan q => cases hy
  | inf t => exact ⟨rfl, rfl⟩
  | fin t n e => exact ⟨rfl, rfl⟩

end

/-- Settles O7: the tables by the formats' patterns, the NaNs by one lemma for each way an operation is invalid. -/
theorem overflowAndNans : Obligations.OverflowAndNans := by
  refine ⟨fun a s => ⟨fun f hf => Fmt.overflow_wide hf a s, ?_, ?_, ?_, ?_, fun q => ⟨rfl, rfl⟩, by decide⟩, by decide,
    fun f a x y z s => ⟨fun h => ⟨Fmt.add_nan h, Fmt.mul_nan h⟩, ?_, fun h => ?_, fun hx hy hz => Fmt.fma_nan_addend hx hy hz,
      fun h => Fmt.pick_snan h s, fun hx hy => ?_, rfl⟩⟩
  · rw [Fmt.overflow_fp8 rfl]
    cases s <;> rfl
  · rw [Fmt.overflow_fp8 rfl]
    cases s <;> rfl
  · cases s <;> rfl
  · cases a with
    | mk rm flush f8sat => cases s <;> cases f8sat <;> rfl
  · cases s <;> rfl
  · obtain ⟨hmul, hmul'⟩ := Fmt.mul_zero_inf (f := f) (a := a) h s
    obtain ⟨hfma, hfma'⟩ := Fmt.fma_zero_inf (f := f) (a := a) h s z
    exact ⟨hmul, hmul', hfma, hfma'⟩
  · subst hx
    exact Fmt.pick_quiet hy s

end Sys2Proof.Machine
end

section
/-! PROOFS. Binary exponents and ratios of whole numbers (R136). -/

namespace Sys2Proof.Machine

open Sys2Proof

/-! ## Binary exponents and powers of two -/

theorem two_zpow_log_le {x : ℝ} (hx : 0 < x) : (2 : ℝ) ^ Int.log 2 x ≤ x := by
  exact_mod_cast Int.zpow_log_le_self one_lt_two hx

theorem lt_two_zpow_log (x : ℝ) : x < (2 : ℝ) ^ (Int.log 2 x + 1) := by
  exact_mod_cast Int.lt_zpow_succ_log_self one_lt_two x

theorem le_log_of_two_zpow_le {x : ℝ} {e : ℤ} (h : (2 : ℝ) ^ e ≤ x) : e ≤ Int.log 2 x :=
  (Int.zpow_le_iff_le_log one_lt_two ((zpow_pos two_pos e).trans_le h)).1 (by exact_mod_cast h)

theorem log_lt_of_lt_two_zpow {x : ℝ} (hx : 0 < x) {e : ℤ} (h : x < (2 : ℝ) ^ e) : Int.log 2 x < e :=
  (Int.lt_zpow_iff_log_lt one_lt_two hx).1 (by exact_mod_cast h)

theorem log_eq_of_bounds {x : ℝ} {e : ℤ} (hlow : (2 : ℝ) ^ e ≤ x) (hhigh : x < (2 : ℝ) ^ (e + 1)) : Int.log 2 x = e := by
  have hle := le_log_of_two_zpow_le hlow
  have hlt := log_lt_of_lt_two_zpow ((zpow_pos two_pos e).trans_le hlow) hhigh
  omega

theorem two_zpow_le {d e : ℤ} (h : d ≤ e) : (2 : ℝ) ^ d ≤ 2 ^ e := zpow_le_zpow_right₀ one_le_two h

theorem two_zpow_pos (e : ℤ) : (0 : ℝ) < 2 ^ e := zpow_pos two_pos e

theorem two_zpow_succ (e : ℤ) : (2 : ℝ) ^ (e + 1) = 2 * 2 ^ e := by rw [zpow_add_one₀ two_ne_zero, mul_comm]

theorem natCast_two_pow_mul_zpow (k : ℕ) (e : ℤ) : ((2 ^ k : ℕ) : ℝ) * 2 ^ (e - k) = 2 ^ e := by
  rw [Nat.cast_pow, Nat.cast_two, ← zpow_natCast, ← zpow_add₀ two_ne_zero, add_sub_cancel]

/-- `scalePow` is n · 2^e. -/
theorem scalePow_ratio (n : Nat) (e : Int) :
    0 < (scalePow n e).2 ∧ ((scalePow n e).1 : ℝ) / (scalePow n e).2 = n * 2 ^ e := by
  unfold scalePow
  split
  case isTrue h =>
    refine ⟨one_pos, ?_⟩
    rw [Nat.cast_mul, Nat.cast_pow, Nat.cast_one, div_one, Nat.cast_two, ← zpow_natCast, Int.toNat_of_nonneg h]
  case isFalse h =>
    refine ⟨by positivity, ?_⟩
    rw [Nat.cast_pow, Nat.cast_two, ← zpow_natCast, Int.toNat_of_nonneg (by omega), zpow_neg, div_inv_eq_mul]

/-- `shiftBy` divides by 2^q. -/
theorem shiftBy_ratio (num : Nat) {den : Nat} (hden : 0 < den) (q : Int) :
    0 < (shiftBy num den q).2 ∧ ((shiftBy num den q).1 : ℝ) / (shiftBy num den q).2 = num / den / 2 ^ q := by
  unfold shiftBy
  split
  case isTrue h =>
    refine ⟨by positivity, ?_⟩
    rw [Nat.cast_mul, Nat.cast_pow, Nat.cast_two, ← zpow_natCast, Int.toNat_of_nonneg h, div_div]
  case isFalse h =>
    refine ⟨hden, ?_⟩
    rw [Nat.cast_mul, Nat.cast_pow, Nat.cast_two, ← zpow_natCast, Int.toNat_of_nonneg (by omega), zpow_neg,
      mul_div_right_comm, div_eq_mul_inv (_ / _)]

theorem two_zpow_log2_le {n : Nat} (hn : 0 < n) : (2 : ℝ) ^ (n.log2 : ℤ) ≤ n ∧ (n : ℝ) < 2 ^ ((n.log2 : ℤ) + 1) := by
  refine ⟨?_, ?_⟩
  · rw [zpow_natCast]
    exact_mod_cast Nat.log2_self_le hn.ne'
  · have h := Nat.lt_log2_self (n := n)
    exact_mod_cast h

/-- `binExp` is the binary exponent. -/
theorem binExp_eq_log {num den : Nat} (hnum : 0 < num) (hden : 0 < den) : binExp num den = Int.log 2 ((num : ℝ) / den) := by
  have hd : (0 : ℝ) < den := by positivity
  obtain ⟨hnumLow, hnumHigh⟩ := two_zpow_log2_le hnum
  obtain ⟨hdenLow, hdenHigh⟩ := two_zpow_log2_le hden
  have hhigh : (num : ℝ) / den < 2 ^ ((num.log2 : ℤ) - den.log2 + 1) := by
    rw [sub_add_eq_add_sub, zpow_sub₀ two_ne_zero]
    gcongr
  have hlow : (2 : ℝ) ^ ((num.log2 : ℤ) - den.log2 - 1) ≤ num / den := by
    rw [sub_sub, zpow_sub₀ two_ne_zero]
    gcongr
  obtain ⟨hp, hratio⟩ := scalePow_ratio den ((num.log2 : ℤ) - den.log2)
  have hp' : (0 : ℝ) < (scalePow den ((num.log2 : ℤ) - den.log2)).2 := by exact_mod_cast hp
  have hcond : (scalePow den ((num.log2 : ℤ) - den.log2)).1 ≤ num * (scalePow den ((num.log2 : ℤ) - den.log2)).2
      ↔ (2 : ℝ) ^ ((num.log2 : ℤ) - den.log2) ≤ num / den := by
    rw [le_div_iff₀ hd, mul_comm _ (den : ℝ), ← hratio, div_le_iff₀ hp']
    exact_mod_cast Iff.rfl
  unfold binExp
  dsimp only
  rw [if_congr hcond rfl rfl]
  split
  case isTrue h => exact (log_eq_of_bounds h hhigh).symm
  case isFalse h => exact (log_eq_of_bounds hlow (by rw [sub_add_cancel]; exact not_le.1 h)).symm

/-! ## Numbers with a fixed count of bits -/

/-- A mantissa of w + 1 bits stands between two powers of two. -/
theorem mantissa_bounds {w m : ℕ} (hlow : 2 ^ w ≤ m) (hhigh : m < 2 ^ (w + 1)) (e : ℤ) :
    (2 : ℝ) ^ e ≤ m * 2 ^ (e - w) ∧ (m : ℝ) * 2 ^ (e - w) < 2 ^ (e + 1) := by
  have hlow' : ((2 ^ w : ℕ) : ℝ) ≤ m := by exact_mod_cast hlow
  have hhigh' : (m : ℝ) < (2 ^ (w + 1) : ℕ) := by exact_mod_cast hhigh
  have hpos := two_zpow_pos (e - w)
  refine ⟨?_, ?_⟩
  · rw [← natCast_two_pow_mul_zpow w e]
    gcongr
  · rw [← natCast_two_pow_mul_zpow (w + 1) (e + 1), Nat.cast_add_one, add_sub_add_right_eq_sub]
    gcongr

/-- Two of them compare by exponent, then by mantissa. -/
theorem mantissa_lt_iff {w m k : ℕ} (hm : 2 ^ w ≤ m) (hm' : m < 2 ^ (w + 1)) (hk : 2 ^ w ≤ k) (hk' : k < 2 ^ (w + 1))
    (d e : ℤ) : (k : ℝ) * 2 ^ (d - w) < m * 2 ^ (e - w) ↔ d < e ∨ (d = e ∧ k < m) := by
  obtain ⟨hklow, hkhigh⟩ := mantissa_bounds hk hk' d
  obtain ⟨hmlow, hmhigh⟩ := mantissa_bounds hm hm' e
  rcases lt_trichotomy d e with h | h | h
  · have := two_zpow_le (show d + 1 ≤ e by omega)
    simp only [h, true_or, iff_true]
    linarith
  · subst h
    simp only [lt_irrefl, false_or, true_and]
    rw [mul_lt_mul_iff_left₀ (two_zpow_pos _), Nat.cast_lt]
  · have := two_zpow_le (show e + 1 ≤ d by omega)
    simp only [not_lt_of_gt h, h.ne', false_and, or_self, iff_false, not_lt]
    linarith

end Sys2Proof.Machine
end

section
/-! PROOFS. The one rounding of a magnitude (R132, R136, R137). -/

namespace Sys2Proof.Machine

open Sys2Proof

/-! ## What the results of a rounding read as -/

/-- The exponent of the largest finite values. -/
def Fmt.emax (f : Fmt) : Int := (if f.e4 then f.top else f.top - 1 : Int) - f.bias

/-- The mantissa of the largest finite value. -/
def Fmt.topMantissa (f : Fmt) : Nat := if f.e4 then 14 else 2 ^ (f.fw + 1) - 1

/-- A mantissa and its exponent are beyond the largest finite value. -/
def Fmt.exceeds (f : Fmt) (m : Nat) (e : Int) : Prop := f.emax < e ∨ f.e4 = true ∧ e = f.emax ∧ m = 15

theorem Fmt.top_lt (f : Fmt) : f.top < 2 ^ f.ew := by
  have hew : 0 < 2 ^ f.ew := by positivity
  unfold Fmt.top
  omega

/-- The value of a result that is held. -/
theorem Fmt.value_of_holds {f : Fmt} {r : FRes} {s : Bool} {y : ℝ} (h : f.holds r s y) :
    ((f.read false r.bits).value : ℝ) = if s then -y else y := by
  obtain ⟨-, n, e, hread, hy⟩ := h
  rw [hread, FVal.value, ← hy]
  cases s <;> simp

theorem Fmt.tiny_iff (f : Fmt) {m : Nat} {e : Int} (hm : 2 ^ f.fw ≤ m) (hm' : m < 2 ^ (f.fw + 1)) :
    (m : ℝ) * 2 ^ (e - f.fw) < 2 ^ f.emin ↔ e < f.emin := by
  have hpow : 2 ^ f.fw < 2 ^ (f.fw + 1) := Nat.pow_lt_pow_right one_lt_two (Nat.lt_succ_self _)
  rw [← natCast_two_pow_mul_zpow f.fw f.emin, mantissa_lt_iff le_rfl hpow hm hm']
  omega

section

variable {f : Fmt} (h : f.Regular) (s : Bool) (fl : BitVec 8)
include h

theorem Fmt.Regular.emin_le_emax : f.emin ≤ f.emax := by
  have htop := h.two_le_top
  unfold Fmt.emin Fmt.emax
  split <;> omega

theorem Fmt.Regular.topMantissa_bounds : 2 ^ f.fw ≤ f.topMantissa ∧ f.topMantissa < 2 ^ (f.fw + 1) := by
  have hpos : 0 < 2 ^ f.fw := by positivity
  unfold Fmt.topMantissa
  rw [pow_succ]
  split
  case isTrue he4 =>
    rw [h.fw_of_e4 he4]
    decide
  case isFalse => omega

/-- A subnormal, or the smallest normal one that it rounds up to, stands for its count of the least units. -/
theorem Fmt.holds_subnormal {t : Nat} (ht : t ≤ 2 ^ f.fw) : f.holds ⟨f.signBit s + t, fl⟩ s (t * 2 ^ (f.emin - f.fw)) := by
  have htop := h.two_le_top
  have htop' := f.top_lt
  rcases ht.lt_or_eq with hlt | rfl
  · have hread := f.read_fields s (e := 0) (m := t) (by positivity) hlt
    have hbits := f.fields_lt (e := 0) (m := t) (by positivity) hlt
    rw [zero_mul, zero_add] at hread hbits
    exact ⟨f.pattern_lt s hbits, t, _, hread, rfl⟩
  · have hread := f.read_fields s (e := 1) (m := 0) (by omega) (by positivity)
    have hbits := f.fields_lt (e := 1) (m := 0) (by omega) (by positivity)
    rw [one_mul, add_zero] at hread hbits
    refine ⟨f.pattern_lt s hbits, 2 ^ f.fw, f.emin - f.fw, hread.trans ?_, rfl⟩
    unfold Fmt.fields Fmt.emin
    rw [if_neg one_ne_zero, if_neg (by omega : ¬(1 = f.top ∧ 0 = 7)), if_neg (by omega : ¬1 = f.top), add_zero, ite_self,
      Nat.cast_one]

/-- A normal pattern stands for its mantissa and exponent. -/
theorem Fmt.holds_normal {m : Nat} {e : Int} (hm : 2 ^ f.fw ≤ m) (hm' : m < 2 ^ (f.fw + 1)) (he : f.emin ≤ e)
    (hfin : ¬f.exceeds m e) :
    f.holds ⟨f.signBit s + ((e + f.bias).toNat * 2 ^ f.fw + (m - 2 ^ f.fw)), fl⟩ s (m * 2 ^ (e - f.fw)) := by
  have htop := h.two_le_top
  have htop' := f.top_lt
  obtain ⟨k, hk⟩ : ∃ k : ℕ, e + f.bias = k := Int.eq_ofNat_of_zero_le (by unfold Fmt.emin at he; omega)
  have hk0 : k ≠ 0 := by unfold Fmt.emin at he; omega
  have hfrac : m - 2 ^ f.fw < 2 ^ f.fw := by rw [pow_succ] at hm'; omega
  have hsum : 2 ^ f.fw + (m - 2 ^ f.fw) = m := by omega
  have hexp : (k : Int) - f.bias - f.fw = e - f.fw := by omega
  unfold Fmt.exceeds Fmt.emax at hfin
  obtain ⟨hle, hne⟩ := not_or.1 hfin
  have hkew : k < 2 ^ f.ew := by split at hle <;> omega
  rw [hk, Int.toNat_natCast]
  refine ⟨f.pattern_lt s (f.fields_lt hkew hfrac), m, e - f.fw, (f.read_fields s hkew hfrac).trans ?_, rfl⟩
  unfold Fmt.fields
  rw [if_neg hk0, hsum, hexp]
  by_cases he4 : f.e4 = true
  · rw [if_pos he4, if_neg]
    rintro ⟨rfl, hm7⟩
    rw [if_pos he4, h.fw_of_e4 he4] at *
    exact hne ⟨he4, by omega, by omega⟩
  · rw [if_neg he4, if_neg]
    rintro rfl
    rw [if_neg he4] at hle
    omega

theorem Fmt.maxFinite_value : ((f.read false (f.maxFinite false)).value : ℝ) = f.topMantissa * 2 ^ (f.emax - f.fw) := by
  obtain ⟨hK, hK'⟩ := h.topMantissa_bounds
  have htop := h.two_le_top
  have hfin : ¬f.exceeds f.topMantissa f.emax := by
    unfold Fmt.exceeds Fmt.topMantissa
    rintro (hlt | ⟨he4, -, h15⟩)
    · exact lt_irrefl _ hlt
    · rw [if_pos he4] at h15
      exact absurd h15 (by decide)
  have hpattern : f.maxFinite false
      = f.signBit false + ((f.emax + f.bias).toNat * 2 ^ f.fw + (f.topMantissa - 2 ^ f.fw)) := by
    unfold Fmt.maxFinite Fmt.emax Fmt.topMantissa
    rw [sub_add_cancel]
    by_cases he4 : f.e4 = true
    · rw [if_pos he4, if_pos he4, if_pos he4, h.fw_of_e4 he4, Int.toNat_natCast]
      rfl
    · obtain ⟨k, hk⟩ : ∃ k, f.top = k + 1 := Nat.exists_eq_add_of_le' (by omega)
      have hpos : 0 < 2 ^ f.fw := by positivity
      rw [if_neg he4, if_neg he4, if_neg he4, hk, pow_succ, add_mul, one_mul]
      have hk' : ((k + 1 : ℕ) - 1 : ℤ).toNat = k := by omega
      rw [hk']
      omega
  have hholds := Fmt.holds_normal h false 0 hK hK' h.emin_le_emax hfin
  rw [← hpattern] at hholds
  exact Fmt.value_of_holds hholds

theorem Fmt.exceeds_iff {m : Nat} {e : Int} (hm : 2 ^ f.fw ≤ m) (hm' : m < 2 ^ (f.fw + 1)) :
    ((f.read false (f.maxFinite false)).value : ℝ) < m * 2 ^ (e - f.fw) ↔ f.exceeds m e := by
  obtain ⟨hK, hK'⟩ := h.topMantissa_bounds
  rw [Fmt.maxFinite_value h, mantissa_lt_iff hm hm' hK hK']
  unfold Fmt.exceeds Fmt.topMantissa
  by_cases he4 : f.e4 = true
  · rw [h.fw_of_e4 he4] at hm'
    simp only [he4, if_true, true_and]
    omega
  · simp only [he4, if_false, false_and, or_false, Bool.false_eq_true]
    omega

end

/-! ## The rounding -/

/-- The mantissa and the exponent of a rounded number whose rounding may have carried. -/
theorem normalised {w m : ℕ} (hlow : 2 ^ w ≤ m) (hhigh : m ≤ 2 ^ (w + 1)) (e : ℤ) :
    2 ^ w ≤ (if decide (m = 2 ^ (w + 1)) then 2 ^ w else m) ∧ (if decide (m = 2 ^ (w + 1)) then 2 ^ w else m) < 2 ^ (w + 1)
      ∧ (m : ℝ) * 2 ^ (e - w)
        = (if decide (m = 2 ^ (w + 1)) then 2 ^ w else m : ℕ) * 2 ^ ((if decide (m = 2 ^ (w + 1)) then e + 1 else e) - w) := by
  by_cases hm : m = 2 ^ (w + 1)
  · simp only [hm, decide_true, if_true]
    refine ⟨le_rfl, Nat.pow_lt_pow_right one_lt_two (Nat.lt_succ_self w), ?_⟩
    rw [natCast_two_pow_mul_zpow, ← natCast_two_pow_mul_zpow (w + 1) (e + 1), Nat.cast_add_one, add_sub_add_right_eq_sub]
  · simp only [hm, decide_false, if_false, Bool.false_eq_true]
    exact ⟨hlow, lt_of_le_of_ne hhigh hm, trivial⟩

/-- A number above 0 in units of its last place has as many bits as the precision. -/
theorem scaled_bounds {x : ℝ} (hx : 0 < x) (w : ℕ) :
    ((2 ^ w : ℕ) : ℝ) ≤ x / 2 ^ (Int.log 2 x - w) ∧ x / 2 ^ (Int.log 2 x - w) ≤ ((2 ^ (w + 1) : ℕ) : ℝ) := by
  have hpos := two_zpow_pos (Int.log 2 x - w)
  rw [le_div_iff₀ hpos, div_le_iff₀ hpos, natCast_two_pow_mul_zpow]
  refine ⟨two_zpow_log_le hx, ?_⟩
  rw [← add_sub_add_right_eq_sub _ _ (1 : ℤ), ← Nat.cast_add_one, natCast_two_pow_mul_zpow]
  exact (lt_two_zpow_log x).le

theorem flags_of_exact {b : Bool} {p : Prop} [Decidable p] (h : b = false ↔ p) {fl : BitVec 8} :
    (if b = true then fl else 0) = if p then 0 else fl := by
  cases b <;> simp [← h]

/-- `Fmt.roundMag` rounds a magnitude above 0 once, as the statements say it. -/
theorem Fmt.roundMag_rounds {f : Fmt} (h : f.Regular) (a : Attr) (s : Bool) {num den : Nat} (hnum : 0 < num) (hden : 0 < den) :
    f.rounds a s ((num : ℝ) / den) (f.roundMag a s num den) := by
  have hx : (0 : ℝ) < num / den := by positivity
  have hlog := binExp_eq_log hnum hden
  unfold Fmt.roundMag
  dsimp only
  rw [hlog]
  generalize hX : (num : ℝ) / den = x at *
  obtain ⟨hunit, hunitRatio⟩ := shiftBy_ratio num hden (Int.log 2 x - f.fw)
  obtain ⟨hgrid, hgridRatio⟩ := shiftBy_ratio num hden (f.emin - f.fw)
  have hm := roundNat_takes a.rm s (shiftBy num den (Int.log 2 x - f.fw)).1 hunit
  have ht := roundNat_takes a.rm s (shiftBy num den (f.emin - f.fw)).1 hgrid
  have hmExact := roundNat_exact a.rm s (shiftBy num den (Int.log 2 x - f.fw)).1 hunit
  have htExact := roundNat_exact a.rm s (shiftBy num den (f.emin - f.fw)).1 hgrid
  rw [hunitRatio, hX] at hm hmExact
  rw [hgridRatio, hX] at ht htExact
  generalize roundNat a.rm s (shiftBy num den (Int.log 2 x - f.fw)).1 (shiftBy num den (Int.log 2 x - f.fw)).2 = M at *
  generalize roundNat a.rm s (shiftBy num den (f.emin - f.fw)).1 (shiftBy num den (f.emin - f.fw)).2 = T at *
  rw [eq_div_iff (two_zpow_pos _).ne'] at hmExact htExact
  have hscaled := scaled_bounds hx f.fw
  have hmLow := RMode.le_of_takes hm hscaled.1
  have hmHigh := RMode.takes_le hm hscaled.2
  obtain ⟨hnLow, hnHigh, hvalue⟩ := normalised hmLow hmHigh (Int.log 2 x)
  unfold Fmt.rounds
  refine ⟨M.1, T.1, hm, ht, ?_⟩
  rw [hvalue] at hmExact ⊢
  generalize hn : (if decide (M.1 = 2 ^ (f.fw + 1)) then 2 ^ f.fw else M.1 : ℕ) = n at *
  generalize he : (if decide (M.1 = 2 ^ (f.fw + 1)) then Int.log 2 x + 1 else Int.log 2 x) = e at *
  have hexceeds := Fmt.exceeds_iff h (e := e) hnLow hnHigh
  unfold Fmt.exceeds Fmt.emax at hexceeds
  by_cases hover : ((f.read false (f.maxFinite false)).value : ℝ) < n * 2 ^ (e - f.fw)
  · rw [if_pos hover, if_pos (hexceeds.1 hover)]
  have hin := mt hexceeds.2 hover
  rw [if_neg hover, if_neg hin]
  by_cases htiny : e < f.emin
  · rw [if_pos ((f.tiny_iff hnLow hnHigh).2 htiny), if_pos htiny]
    by_cases hflush : a.flush = true ∧ ¬f.isFp8 = true
    · rw [if_pos hflush, if_pos (by simpa using hflush)]
    · rw [if_neg hflush, if_neg (by simpa using hflush)]
      have hle : Int.log 2 x ≤ e := by rw [← he]; split <;> omega
      have hsmall : x / 2 ^ (f.emin - f.fw) ≤ ((2 ^ f.fw : ℕ) : ℝ) := by
        rw [div_le_iff₀ (two_zpow_pos _), natCast_two_pow_mul_zpow]
        exact (lt_two_zpow_log x).le.trans (two_zpow_le (by omega))
      exact ⟨Fmt.holds_subnormal h s _ (RMode.takes_le ht hsmall), flags_of_exact htExact⟩
  · rw [if_neg (mt (f.tiny_iff hnLow hnHigh).1 htiny), if_neg htiny]
    exact ⟨Fmt.holds_normal h s _ hnLow hnHigh (by omega) hin, flags_of_exact hmExact⟩

end Sys2Proof.Machine
end

section
/-! PROOFS. Exact values as fractions (R129). -/

namespace Sys2Proof.Machine

open Sys2Proof

/-! ## Fractions -/

/-- The number that a fraction stands for. -/
def Frac.rat (x : Frac) : ℚ := x.num / x.den

theorem Frac.abs_rat (x : Frac) : |x.rat| = (x.num.natAbs : ℚ) / x.den := by
  rw [Frac.rat, abs_div, Nat.abs_cast, Nat.cast_natAbs, Int.cast_abs]

theorem Frac.rat_inv {x : Frac} (h : x.num ≠ 0) : 0 < x.inv.den ∧ x.inv.rat = x.rat⁻¹ := by
  refine ⟨Int.natAbs_pos.2 h, ?_⟩
  unfold Frac.inv Frac.rat
  rw [inv_div]
  rcases lt_or_gt_of_ne h with hneg | hpos
  · rw [if_pos hneg, Nat.cast_natAbs, abs_of_neg hneg]
    push_cast
    rw [div_neg, neg_div, neg_neg]
  · rw [if_neg hpos.le.not_gt, Nat.cast_natAbs, abs_of_pos hpos]
    push_cast
    rfl

section

variable {x y : Frac} (hx : 0 < x.den) (hy : 0 < y.den)
include hx

theorem Frac.rat_eq_zero_iff : x.rat = 0 ↔ x.num = 0 := by
  have hd : (x.den : ℚ) ≠ 0 := by positivity
  rw [Frac.rat, div_eq_zero_iff, or_iff_left hd, Int.cast_eq_zero]

theorem Frac.rat_neg_iff : x.rat < 0 ↔ x.num < 0 := by
  have hd : (0 : ℚ) < x.den := by positivity
  rw [Frac.rat, div_lt_iff₀ hd, zero_mul, Int.cast_lt_zero]

include hy

theorem Frac.rat_mul : 0 < (x.mul y).den ∧ (x.mul y).rat = x.rat * y.rat := by
  refine ⟨Nat.mul_pos hx hy, ?_⟩
  simp only [Frac.mul, Frac.rat]
  push_cast
  rw [div_mul_div_comm]

theorem Frac.rat_add : 0 < (x.add y).den ∧ (x.add y).rat = x.rat + y.rat := by
  have hx' : (x.den : ℚ) ≠ 0 := by positivity
  have hy' : (y.den : ℚ) ≠ 0 := by positivity
  unfold Frac.add
  split
  case isTrue h =>
    refine ⟨hx, ?_⟩
    have hdiv : ((x.den / y.den : ℕ) : ℚ) = (x.den : ℚ) / y.den := Nat.cast_div (Nat.dvd_of_mod_eq_zero h) hy'
    simp only [Frac.rat]
    rw [Int.cast_add, Int.cast_mul, Int.cast_natCast, hdiv]
    field_simp
  split
  case isTrue h =>
    refine ⟨hy, ?_⟩
    have hdiv : ((y.den / x.den : ℕ) : ℚ) = (y.den : ℚ) / x.den := Nat.cast_div (Nat.dvd_of_mod_eq_zero h) hx'
    simp only [Frac.rat]
    rw [Int.cast_add, Int.cast_mul, Int.cast_natCast, hdiv]
    field_simp
  case isFalse =>
    refine ⟨Nat.mul_pos hx hy, ?_⟩
    simp only [Frac.rat]
    push_cast
    rw [div_add_div _ _ hx' hy']
    ring

theorem Frac.lt_iff : x.lt y = true ↔ x.rat < y.rat := by
  have hx' : (0 : ℚ) < x.den := by positivity
  have hy' : (0 : ℚ) < y.den := by positivity
  rw [Frac.lt, decide_eq_true_iff, Frac.rat, Frac.rat, div_lt_div_iff₀ hx' hy']
  norm_cast

theorem Frac.le_iff : x.le y = true ↔ x.rat ≤ y.rat := by
  have hx' : (0 : ℚ) < x.den := by positivity
  have hy' : (0 : ℚ) < y.den := by positivity
  rw [Frac.le, decide_eq_true_iff, Frac.rat, Frac.rat, div_le_div_iff₀ hx' hy']
  norm_cast

end

theorem Frac.rat_neg (x : Frac) : x.neg.rat = -x.rat := by
  simp only [Frac.neg, Frac.rat, Int.cast_neg, neg_div]

theorem Frac.rat_sub {x y : Frac} (hx : 0 < x.den) (hy : 0 < y.den) : 0 < (x.sub y).den ∧ (x.sub y).rat = x.rat - y.rat := by
  have h := Frac.rat_add hx (show 0 < y.neg.den from hy)
  rwa [Frac.rat_neg, ← sub_eq_add_neg] at h

theorem Frac.rat_abs (x : Frac) : x.abs.rat = |x.rat| := by
  rw [Frac.abs_rat]
  simp [Frac.rat, Frac.abs]

/-! ## Values -/

theorem FVal.frac_den_pos (x : FVal) : 0 < x.frac.den := by
  cases x with
  | fin s n e => exact (scalePow_ratio n e).1
  | nan q => exact one_pos
  | inf s => exact one_pos

theorem FVal.frac_rat (x : FVal) : x.frac.rat = x.value := by
  cases x with
  | fin s n e =>
    obtain ⟨hpos, hratio⟩ := scalePow_ratio n e
    have hratio' : ((scalePow n e).1 : ℚ) / (scalePow n e).2 = n * 2 ^ e :=
      Rat.cast_injective (α := ℝ) (by push_cast; exact hratio)
    simp only [FVal.frac, Frac.rat, FVal.value]
    cases s
    · simpa using hratio'
    · simp only [if_true, Int.cast_neg, Int.cast_natCast, neg_div, hratio', neg_mul, one_mul]
  | nan q => simp [FVal.frac, Frac.rat, FVal.value]
  | inf s => simp [FVal.frac, Frac.rat, FVal.value]

/-- The magnitude of a value. -/
def FVal.mag : FVal → ℚ
  | .fin _ n e => n * 2 ^ e
  | _ => 0

theorem FVal.mag_nonneg (x : FVal) : 0 ≤ x.mag := by
  unfold FVal.mag
  split <;> positivity

theorem FVal.value_eq_sign_mag (x : FVal) : x.value = (if x.sign then -1 else 1) * x.mag := by
  cases x with
  | fin s n e => cases s <;> simp [FVal.value, FVal.sign, FVal.mag]
  | nan q => simp [FVal.value, FVal.mag]
  | inf s => simp [FVal.value, FVal.mag]

theorem FVal.abs_value (x : FVal) : |x.value| = x.mag := by
  rw [x.value_eq_sign_mag, abs_mul, abs_of_nonneg x.mag_nonneg]
  split <;> simp

theorem FVal.mag_eq_zero_iff {x : FVal} (h : x.isFinite = true) : x.mag = 0 ↔ x.isZero = true := by
  obtain ⟨s, n, e, rfl⟩ := FVal.eq_fin_of_isFinite h
  have htwo : (2 : ℚ) ^ e ≠ 0 := by positivity
  rw [FVal.mag, mul_eq_zero, or_iff_left htwo, Nat.cast_eq_zero]
  cases n <;> simp [FVal.isZero]

theorem FVal.value_eq_zero_iff {x : FVal} (h : x.isFinite = true) : x.value = 0 ↔ x.isZero = true := by
  rw [← abs_eq_zero, FVal.abs_value, FVal.mag_eq_zero_iff h]

/-- Numbers of one sign add up to 0 only when both are 0. -/
theorem eq_zero_of_same_sign {u v : ℚ} (hu : 0 ≤ u) (hv : 0 ≤ v) {s t : Bool} (hst : s = t)
    (h : (if s then -1 else 1) * u + (if t then -1 else 1) * v = 0) : u = 0 ∧ v = 0 := by
  subst hst
  cases s <;> simp only [if_true, if_false, Bool.false_eq_true] at h <;> constructor <;> linarith

/-! ## The rounding of a fraction -/

/-- `Fmt.roundFrac` rounds an exact value as R376 says. -/
theorem Fmt.roundFrac_exactly {f : Fmt} (h : f.Regular) (a : Attr) (s : Bool) {x : Frac} (hx : 0 < x.den) :
    f.exactly a s x.rat (f.roundFrac a s x) := by
  unfold Fmt.exactly Fmt.roundFrac
  rw [if_congr (Frac.rat_eq_zero_iff hx) rfl rfl]
  by_cases hnum : x.num = 0
  · rw [if_pos hnum, if_pos hnum]
  · have hsign : decide (x.rat < 0) = decide (x.num < 0) := decide_eq_decide.2 (Frac.rat_neg_iff hx)
    rw [if_neg hnum, if_neg hnum, hsign, Frac.abs_rat, Rat.cast_div, Rat.cast_natCast, Rat.cast_natCast]
    exact Fmt.roundMag_rounds h a (decide (x.num < 0)) (Int.natAbs_pos.2 hnum) hx

/-- The sign that is given to a zero counts for a zero alone. -/
theorem Fmt.exactly_sign {f : Fmt} {a : Attr} {s t : Bool} {v : ℚ} {r : FRes} (hst : v = 0 → s = t) (h : f.exactly a s v r) :
    f.exactly a t v r := by
  unfold Fmt.exactly at *
  by_cases hv : v = 0
  · rw [if_pos hv, ← hst hv]
    rwa [if_pos hv] at h
  · rw [if_neg hv]
    rwa [if_neg hv] at h

section

variable {f : Fmt} (h : f.Regular) (a : Attr) {x y z : FVal} (hx : x.isFinite = true) (hy : y.isFinite = true)
include h hx

theorem Fmt.convert_exactly : f.exactly a x.sign x.value (f.convert a x) := by
  have hround := Fmt.roundFrac_exactly h a x.sign x.frac_den_pos
  rw [FVal.frac_rat] at hround
  obtain ⟨s, n, e, rfl⟩ := FVal.eq_fin_of_isFinite hx
  exact hround

theorem Fmt.rcp_rounds (hzero : x.isZero = false) : f.rounds a x.sign (|x.value|⁻¹ : ℚ) (f.rcp a x) := by
  have hvalue : x.value ≠ 0 := fun hv => by simp [(FVal.value_eq_zero_iff hx).1 hv] at hzero
  have hnum : x.frac.num ≠ 0 := by rwa [← FVal.frac_rat, Ne, Frac.rat_eq_zero_iff x.frac_den_pos] at hvalue
  obtain ⟨hpos, hinv⟩ := Frac.rat_inv hnum
  have hround := Fmt.roundFrac_exactly h a x.sign hpos
  have hsign : decide (x.value⁻¹ < 0) = x.sign := by
    have hmag : 0 < x.mag := lt_of_le_of_ne x.mag_nonneg fun hm => hvalue (by rw [x.value_eq_sign_mag, ← hm, mul_zero])
    rw [Bool.eq_iff_iff, decide_eq_true_iff, inv_lt_zero, x.value_eq_sign_mag]
    cases x.sign <;> simp [hmag, hmag.le]
  rw [hinv, FVal.frac_rat, Fmt.exactly, if_neg (inv_ne_zero hvalue), hsign, abs_inv] at hround
  obtain ⟨s, n, e, rfl⟩ := FVal.eq_fin_of_isFinite hx
  have hn : n ≠ 0 := by
    rintro rfl
    cases hzero
  unfold Fmt.rcp
  dsimp only
  rwa [if_neg hn]

include hy

theorem Fmt.add_exactly : f.exactly a (if x.isZero && y.isZero && x.sign == y.sign then x.sign else decide (a.rm = .rdn))
    (x.value + y.value) (f.add a x y) := by
  obtain ⟨hpos, hadd⟩ := Frac.rat_add x.frac_den_pos y.frac_den_pos
  have hround := Fmt.roundFrac_exactly h a (zeroSign a.rm x.sign y.sign) hpos
  rw [hadd, FVal.frac_rat, FVal.frac_rat] at hround
  have hadd : f.add a x y = f.roundFrac a (zeroSign a.rm x.sign y.sign) (x.frac.add y.frac) := by
    obtain ⟨s, n, e, rfl⟩ := FVal.eq_fin_of_isFinite hx
    obtain ⟨s', n', e', rfl⟩ := FVal.eq_fin_of_isFinite hy
    rfl
  rw [hadd]
  refine Fmt.exactly_sign (fun hv => ?_) hround
  unfold zeroSign
  by_cases hs : x.sign = y.sign
  · rw [x.value_eq_sign_mag, y.value_eq_sign_mag] at hv
    obtain ⟨hmx, hmy⟩ := eq_zero_of_same_sign x.mag_nonneg y.mag_nonneg hs hv
    rw [(FVal.mag_eq_zero_iff hx).1 hmx, (FVal.mag_eq_zero_iff hy).1 hmy]
    simp [hs]
  · simp [hs]

theorem Fmt.mul_exactly : f.exactly a (x.sign != y.sign) (x.value * y.value) (f.mul a x y) := by
  obtain ⟨hpos, hmul⟩ := Frac.rat_mul x.frac_den_pos y.frac_den_pos
  have hround := Fmt.roundFrac_exactly h a (x.sign != y.sign) hpos
  rw [hmul, FVal.frac_rat, FVal.frac_rat] at hround
  obtain ⟨s, n, e, rfl⟩ := FVal.eq_fin_of_isFinite hx
  obtain ⟨s', n', e', rfl⟩ := FVal.eq_fin_of_isFinite hy
  exact hround

theorem Fmt.fma_exactly (hz : z.isFinite = true) :
    f.exactly a (if (x.isZero || y.isZero) && z.isZero && (x.sign != y.sign) == z.sign then (x.sign != y.sign)
      else decide (a.rm = .rdn)) (x.value * y.value + z.value) (f.fma a x y z) := by
  obtain ⟨hpos, hmul⟩ := Frac.rat_mul x.frac_den_pos y.frac_den_pos
  obtain ⟨hpos, hadd⟩ := Frac.rat_add hpos z.frac_den_pos
  have hround := Fmt.roundFrac_exactly h a (zeroSign a.rm (x.sign != y.sign) z.sign) hpos
  rw [hadd, hmul, FVal.frac_rat, FVal.frac_rat, FVal.frac_rat] at hround
  have hfma : f.fma a x y z = f.roundFrac a (zeroSign a.rm (x.sign != y.sign) z.sign) ((x.frac.mul y.frac).add z.frac) := by
    obtain ⟨s, n, e, rfl⟩ := FVal.eq_fin_of_isFinite hx
    obtain ⟨s', n', e', rfl⟩ := FVal.eq_fin_of_isFinite hy
    obtain ⟨s'', n'', e'', rfl⟩ := FVal.eq_fin_of_isFinite hz
    rfl
  rw [hfma]
  refine Fmt.exactly_sign (fun hv => ?_) hround
  unfold zeroSign
  by_cases hs : (x.sign != y.sign) = z.sign
  · have hprod : x.value * y.value = (if x.sign != y.sign then -1 else 1) * (x.mag * y.mag) := by
      rw [x.value_eq_sign_mag, y.value_eq_sign_mag]
      cases x.sign <;> cases y.sign <;> simp
    rw [hprod, z.value_eq_sign_mag] at hv
    obtain ⟨hmxy, hmz⟩ := eq_zero_of_same_sign (mul_nonneg x.mag_nonneg y.mag_nonneg) z.mag_nonneg hs hv
    rw [mul_eq_zero, FVal.mag_eq_zero_iff hx, FVal.mag_eq_zero_iff hy] at hmxy
    have hxy : (x.isZero || y.isZero) = true := by simpa using hmxy
    rw [hxy, (FVal.mag_eq_zero_iff hz).1 hmz]
    simp [hs]
  · simp [hs]

end

end Sys2Proof.Machine
end

section
/-! PROOFS. Square roots (R136, R143): a value known up to a last bit rounds as the value itself. -/

namespace Sys2Proof.Machine

open Sys2Proof

/-! ## Numbers that no multiple of a unit tells apart -/

/-- Two numbers compare alike with every multiple of 2^−k. -/
def agreeAt (k : ℕ) (x y : ℝ) : Prop :=
  ∀ z : ℤ, ((z : ℝ) * 2 ^ (-k : ℤ) ≤ x ↔ (z : ℝ) * 2 ^ (-k : ℤ) ≤ y)
    ∧ (x ≤ (z : ℝ) * 2 ^ (-k : ℤ) ↔ y ≤ (z : ℝ) * 2 ^ (-k : ℤ))

theorem agreeAt.refl (k : ℕ) (x : ℝ) : agreeAt k x x := fun _ => ⟨Iff.rfl, Iff.rfl⟩

theorem agreeAt.symm {k : ℕ} {x y : ℝ} (h : agreeAt k x y) : agreeAt k y x := fun z => ⟨(h z).1.symm, (h z).2.symm⟩

/-- Numbers strictly between the same two neighbours agree. -/
theorem agreeAt_of_between {k r : ℕ} {x y : ℝ} (hx : (r : ℝ) < x * 2 ^ k) (hx' : x * 2 ^ k < r + 1) (hy : (r : ℝ) < y * 2 ^ k)
    (hy' : y * 2 ^ k < r + 1) : agreeAt k x y := by
  have hpos : (0 : ℝ) < 2 ^ k := by positivity
  intro z
  have hcut (u : ℝ) (hu : (r : ℝ) < u * 2 ^ k) (hu' : u * 2 ^ k < r + 1) :
      ((z : ℝ) * 2 ^ (-k : ℤ) ≤ u ↔ z ≤ r) ∧ (u ≤ (z : ℝ) * 2 ^ (-k : ℤ) ↔ (r : ℤ) < z) := by
    rw [zpow_neg, zpow_natCast, ← div_eq_mul_inv, div_le_iff₀ hpos, le_div_iff₀ hpos]
    refine ⟨⟨fun h => ?_, fun h => ?_⟩, ⟨fun h => ?_, fun h => ?_⟩⟩
    · exact Int.lt_add_one_iff.1 (by exact_mod_cast h.trans_lt hu')
    · exact le_of_lt (lt_of_le_of_lt (by exact_mod_cast h) hu)
    · exact_mod_cast hu.trans_le h
    · exact le_of_lt (lt_of_lt_of_le hu' (by exact_mod_cast Int.add_one_le_of_lt h))
  exact ⟨(hcut x hx hx').1.trans (hcut y hy hy').1.symm, (hcut x hx hx').2.trans (hcut y hy hy').2.symm⟩

section

variable {k : ℕ} {x y : ℝ} (hxy : agreeAt k x y)
include hxy

theorem agreeAt.le_iff {e : ℤ} (he : -(k : ℤ) ≤ e) (c : ℤ) :
    ((c : ℝ) * 2 ^ e ≤ x ↔ (c : ℝ) * 2 ^ e ≤ y) ∧ (x ≤ (c : ℝ) * 2 ^ e ↔ y ≤ (c : ℝ) * 2 ^ e) := by
  obtain ⟨d, hd⟩ : ∃ d : ℕ, e = d + -k := ⟨(e + k).toNat, by omega⟩
  have h := hxy (c * 2 ^ d)
  rw [Int.cast_mul, Int.cast_pow, Int.cast_two, mul_assoc, ← zpow_natCast, ← zpow_add₀ two_ne_zero, ← hd] at h
  exact h

theorem agreeAt.eq_iff {e : ℤ} (he : -(k : ℤ) ≤ e) (n : ℕ) : (n : ℝ) * 2 ^ e = x ↔ (n : ℝ) * 2 ^ e = y := by
  have h := hxy.le_iff he n
  rw [Int.cast_natCast] at h
  rw [le_antisymm_iff, le_antisymm_iff, h.1, h.2]

theorem agreeAt.log_eq (hx : 0 < x) (hk : -(k : ℤ) ≤ Int.log 2 x) : Int.log 2 x = Int.log 2 y := by
  have hlow := hxy.le_iff hk 1
  have hhigh := hxy.le_iff (e := Int.log 2 x + 1) (by omega) 1
  rw [Int.cast_one, one_mul] at hlow hhigh
  exact (log_eq_of_bounds (hlow.1.1 (two_zpow_log_le hx)) (not_le.1 (mt hhigh.1.2 (not_le.2 (lt_two_zpow_log x))))).symm

/-- They round alike in units that are twice the multiples or more. -/
theorem agreeAt.takes {e : ℤ} (he : -(k : ℤ) < e) {rm : RMode} {s : Bool} {n : ℕ} (h : rm.takes s (x / 2 ^ e) n) :
    rm.takes s (y / 2 ^ e) n := by
  have hpos := two_zpow_pos e
  have hunit (c : ℤ) : ((c : ℝ) ≤ x / 2 ^ e ↔ (c : ℝ) ≤ y / 2 ^ e) ∧ (x / 2 ^ e ≤ c ↔ y / 2 ^ e ≤ c) := by
    rw [le_div_iff₀ hpos, le_div_iff₀ hpos, div_le_iff₀ hpos, div_le_iff₀ hpos]
    exact hxy.le_iff he.le c
  have hhalf (c : ℤ) : ((c : ℝ) / 2 ≤ x / 2 ^ e ↔ (c : ℝ) / 2 ≤ y / 2 ^ e)
      ∧ (x / 2 ^ e ≤ (c : ℝ) / 2 ↔ y / 2 ^ e ≤ (c : ℝ) / 2) := by
    have hmul : (c : ℝ) / 2 * 2 ^ e = c * 2 ^ (e - 1) := by
      rw [zpow_sub_one₀ two_ne_zero]
      ring
    rw [le_div_iff₀ hpos, le_div_iff₀ hpos, div_le_iff₀ hpos, div_le_iff₀ hpos, hmul]
    exact hxy.le_iff (by omega) c
  generalize x / 2 ^ e = u at *
  generalize y / 2 ^ e = v at *
  have hn := hunit n
  have hn' := hunit (n + 1)
  have hup := hhalf (2 * n + 1)
  have hdown := hhalf (2 * n - 1)
  push_cast at hn hn' hup hdown
  have hprev := hunit (n - 1)
  push_cast at hprev
  have hd : (n : ℝ) ≤ u ∧ u < n + 1 → (n : ℝ) ≤ v ∧ v < n + 1 := fun h => ⟨hn.1.1 h.1, not_le.1 (mt hn'.1.2 (not_le.2 h.2))⟩
  have hu : u ≤ n ∧ (n : ℝ) < u + 1 → v ≤ n ∧ (n : ℝ) < v + 1 := fun h =>
    ⟨hn.2.1 h.1, by linarith [not_le.1 (mt hprev.2.2 (not_le.2 (by linarith [h.2] : (n : ℝ) - 1 < u)))]⟩
  cases rm <;> cases s
  case rne.false | rne.true =>
    obtain ⟨hclose, htie⟩ := h
    obtain ⟨hlow, hhigh⟩ := abs_le.1 hclose
    have hlow' := hdown.1.1 (by linarith)
    have hhigh' := hup.2.1 (by linarith)
    refine ⟨abs_le.2 ⟨by linarith, by linarith⟩, fun heq => htie ?_⟩
    rcases eq_or_eq_neg_of_abs_eq heq with heq | heq
    · have := hup.1.2 (by linarith)
      rw [abs_of_nonneg] <;> linarith
    · have := hdown.2.2 (by linarith)
      rw [abs_of_nonpos] <;> linarith
  case rtz.false | rtz.true | rup.true | rdn.false => exact hd h
  case rup.false | rdn.true => exact hu h

end

/-- Every number that is not below 0 has a rounding. -/
theorem RMode.exists_takes (rm : RMode) (s : Bool) {x : ℝ} (hx : 0 ≤ x) : ∃ n, rm.takes s x n := by
  have hfloor := Nat.floor_le hx
  have hfloor' := Nat.lt_floor_add_one x
  have hceil := Nat.le_ceil x
  have hceil' := Nat.ceil_lt_add_one hx
  cases rm <;> cases s
  case rne.false | rne.true =>
    have hlow : |x - ⌊x⌋₊| = x - ⌊x⌋₊ := abs_of_nonneg (by linarith)
    have hhigh : |x - (⌊x⌋₊ + 1 : ℕ)| = ⌊x⌋₊ + 1 - x := by
      rw [Nat.cast_add_one, abs_of_nonpos (by linarith)]
      ring
    rcases lt_trichotomy (x - ⌊x⌋₊) (1 / 2) with h | h | h
    · exact ⟨⌊x⌋₊, by linarith, fun heq => absurd heq (by linarith)⟩
    · rcases Nat.mod_two_eq_zero_or_one ⌊x⌋₊ with heven | hodd
      · exact ⟨⌊x⌋₊, by linarith, fun _ => heven⟩
      · exact ⟨⌊x⌋₊ + 1, by linarith, fun _ => Nat.succ_mod_two_eq_zero_iff.2 hodd⟩
    · exact ⟨⌊x⌋₊ + 1, by linarith, fun heq => absurd heq (by linarith)⟩
  case rtz.false | rtz.true | rup.true | rdn.false => exact ⟨⌊x⌋₊, hfloor, hfloor'⟩
  case rup.false | rdn.true => exact ⟨⌈x⌉₊, hceil, hceil'⟩

/-- A result rounded to the precision reaches the power of two below the exact one. -/
theorem two_zpow_log_le_rounded {x : ℝ} (hx : 0 < x) {w m : ℕ} {rm : RMode} {s : Bool}
    (h : rm.takes s (x / 2 ^ (Int.log 2 x - w)) m) : (2 : ℝ) ^ Int.log 2 x ≤ m * 2 ^ (Int.log 2 x - w) := by
  have hm : ((2 ^ w : ℕ) : ℝ) ≤ m := by exact_mod_cast RMode.le_of_takes h (scaled_bounds hx w).1
  rw [← natCast_two_pow_mul_zpow w (Int.log 2 x)]
  gcongr

/-- Numbers that agree well below their last place, and below the subnormals' when they are tiny, have one rounding. -/
theorem Fmt.rounds_of_agreeAt {f : Fmt} {a : Attr} {s : Bool} {k : ℕ} {x y : ℝ} {r : FRes} (hxy : agreeAt k x y) (hy : 0 < y)
    (hunit : -(k : ℤ) < Int.log 2 y - f.fw) (hgrid : y < 2 ^ f.emin → -(k : ℤ) < f.emin - f.fw)
    (h : f.rounds a s x r) : f.rounds a s y r := by
  obtain ⟨m, t, hm, ht, hr⟩ := h
  have hlog : Int.log 2 x = Int.log 2 y := (hxy.symm.log_eq hy (by omega)).symm
  rw [hlog] at hm hr
  have hm' := hxy.takes hunit hm
  have hmEq := hxy.eq_iff hunit.le m
  by_cases htiny : (m : ℝ) * 2 ^ (Int.log 2 y - f.fw) < 2 ^ f.emin
  · have hy' : y < 2 ^ f.emin := by
      have hlt : Int.log 2 y < f.emin :=
        (zpow_lt_zpow_iff_right₀ one_lt_two).1 ((two_zpow_log_le_rounded hy hm').trans_lt htiny)
      exact (lt_two_zpow_log y).trans_le (two_zpow_le hlt)
    have htEq := hxy.eq_iff (hgrid hy').le t
    exact ⟨m, t, hm', hxy.takes (hgrid hy') ht, by simpa only [hmEq, htEq] using hr⟩
  · obtain ⟨t', ht'⟩ := RMode.exists_takes a.rm s (x := y / 2 ^ (f.emin - f.fw)) (by positivity)
    refine ⟨m, t', hm', ht', ?_⟩
    simp only [if_neg htiny] at hr
    simpa only [if_neg htiny, hmEq] using hr

/-! ## The square root (R143) -/

theorem isqrtGo_spec (n : Nat) : ∀ k acc : Nat, acc * acc ≤ n → n < (acc + 2 ^ k) * (acc + 2 ^ k) → isqrtGo n k acc = n.sqrt
  | 0, acc, hlow, hhigh => Nat.eq_sqrt.2 ⟨hlow, hhigh⟩
  | k + 1, acc, hlow, hhigh => by
    unfold isqrtGo
    dsimp only
    by_cases h : (acc + 2 ^ k) * (acc + 2 ^ k) ≤ n
    · rw [if_pos h]
      refine isqrtGo_spec n k _ h ?_
      rwa [add_assoc, ← two_mul, ← pow_succ']
    · rw [if_neg h]
      exact isqrtGo_spec n k acc hlow (not_le.1 h)

/-- `isqrt` is the whole square root. -/
theorem isqrt_eq_sqrt (n : Nat) : isqrt n = n.sqrt := by
  refine isqrtGo_spec n _ 0 (Nat.zero_le _) ?_
  have hlt := Nat.lt_log2_self (n := n)
  rw [zero_add, ← pow_add]
  exact hlt.trans_le (Nat.pow_le_pow_right two_pos (by omega))

/-- The fraction that `sqrtFrac` gives cannot be told from the root at its unit. -/
theorem sqrtFrac_agree (num : ℕ) {den : ℕ} (hden : 0 < den) :
    0 < (sqrtFrac num den).den ∧ agreeAt (80 + den.log2) (sqrtFrac num den).rat (Real.sqrt (num / den)) := by
  refine ⟨by unfold sqrtFrac; positivity, ?_⟩
  generalize hk : 80 + den.log2 = k
  obtain ⟨M, hM⟩ : ∃ M, M = num * 2 ^ (2 * k) / den := ⟨_, rfl⟩
  obtain ⟨b, hb⟩ : ∃ b : ℕ, b = if num * 2 ^ (2 * k) % den = 0 ∧ M.sqrt * M.sqrt = M then 0 else 1 := ⟨_, rfl⟩
  have hsqrt : sqrtFrac num den = ⟨2 * M.sqrt + b, 2 ^ (k + 1)⟩ := by
    rw [hb, hM, ← isqrt_eq_sqrt, ← hk]
    simp only [sqrtFrac, Nat.cast_ite, Nat.cast_zero, Nat.cast_one]
  have hpow : (0 : ℝ) < 2 ^ k := by positivity
  have hrat : ((sqrtFrac num den).rat : ℝ) * 2 ^ k = M.sqrt + (b : ℝ) / 2 := by
    rw [hsqrt]
    simp only [Frac.rat]
    push_cast
    field_simp
    ring
  have hroot : Real.sqrt (num / den) * 2 ^ k = Real.sqrt ((num * 2 ^ (2 * k) : ℕ) / den) := by
    rw [← Real.sqrt_sq hpow.le, ← Real.sqrt_mul (by positivity)]
    congr 1
    push_cast
    ring
  have hdiv := natCast_div_eq_add (num * 2 ^ (2 * k)) hden
  rw [← hM] at hdiv
  have hd : (0 : ℝ) < den := by positivity
  have hfrac : ((num * 2 ^ (2 * k) % den : ℕ) : ℝ) / den < 1 :=
    (div_lt_one hd).2 (by exact_mod_cast Nat.mod_lt _ hden)
  have hfloor : (M.sqrt : ℝ) * M.sqrt ≤ M := by exact_mod_cast Nat.sqrt_le M
  have hnext : (M : ℝ) + 1 ≤ (M.sqrt + 1) * (M.sqrt + 1) := by exact_mod_cast Nat.succ_le_of_lt (Nat.lt_succ_sqrt M)
  by_cases hexact : num * 2 ^ (2 * k) % den = 0 ∧ M.sqrt * M.sqrt = M
  · rw [if_pos hexact] at hb
    rw [hexact.1, Nat.cast_zero, zero_div, add_zero] at hdiv
    have heq : ((sqrtFrac num den).rat : ℝ) = Real.sqrt (num / den) := by
      refine mul_right_cancel₀ hpow.ne' ?_
      rw [hrat, hroot, hdiv, hb, ← hexact.2, Nat.sqrt_eq, Nat.cast_mul, Real.sqrt_mul_self (Nat.cast_nonneg _)]
      simp
    rw [heq]
    exact agreeAt.refl _ _
  · rw [if_neg hexact] at hb
    have habove : (M.sqrt : ℝ) * M.sqrt < (num * 2 ^ (2 * k) : ℕ) / den := by
      rw [hdiv]
      rcases not_and_or.1 hexact with hrem | hsquare
      · have : (0 : ℝ) < ((num * 2 ^ (2 * k) % den : ℕ) : ℝ) / den :=
          div_pos (by exact_mod_cast Nat.pos_of_ne_zero hrem) hd
        linarith
      · have : (M.sqrt : ℝ) * M.sqrt < M := by exact_mod_cast lt_of_le_of_ne (Nat.sqrt_le M) hsquare
        have : (0 : ℝ) ≤ ((num * 2 ^ (2 * k) % den : ℕ) : ℝ) / den := by positivity
        linarith
    rw [hb, Nat.cast_one] at hrat
    refine agreeAt_of_between (r := M.sqrt) (by rw [hrat]; linarith) (by rw [hrat]; linarith) ?_ ?_
    · rw [hroot]
      exact Real.lt_sqrt_of_sq_lt (by rwa [sq])
    · rw [hroot, Real.sqrt_lt' (by positivity), sq]
      linarith

/-- The unit of `sqrtFrac` lies well below the root's last place, and below the subnormals' where the root is tiny. -/
theorem sqrt_log_bounds {f : Fmt} (h : f.Regular) {num den : ℕ} (hnum : 0 < num) (hden : 0 < den) :
    -((80 + den.log2 : ℕ) : ℤ) < Int.log 2 (Real.sqrt ((num : ℝ) / den)) - f.fw
      ∧ (Real.sqrt ((num : ℝ) / den) < 2 ^ f.emin → -((80 + den.log2 : ℕ) : ℤ) < f.emin - f.fw) := by
  have hfw := h.fw_le
  have hemin := h.emin_nonpos
  have hd : (0 : ℝ) < den := by positivity
  have hn : (1 : ℝ) ≤ num := by exact_mod_cast hnum
  obtain ⟨-, hlog⟩ := two_zpow_log2_le hden
  have hx : (2 : ℝ) ^ (-((den.log2 : ℤ) + 1)) ≤ num / den := by
    rw [zpow_neg, inv_le_comm₀ (two_zpow_pos _) (by positivity), inv_div, div_le_iff₀ (by positivity)]
    nlinarith [two_zpow_pos ((den.log2 : ℤ) + 1)]
  generalize (num : ℝ) / den = x at *
  have hx0 : 0 < x := (two_zpow_pos _).trans_le hx
  constructor
  · have hroot : (2 : ℝ) ^ (-((den.log2 : ℤ) + 1)) ≤ Real.sqrt x := by
      refine Real.le_sqrt_of_sq_le (le_trans ?_ hx)
      rw [sq, ← zpow_add₀ two_ne_zero]
      exact two_zpow_le (by omega)
    have := le_log_of_two_zpow_le hroot
    omega
  · intro htiny
    rw [Real.sqrt_lt' (two_zpow_pos _), sq, ← zpow_add₀ two_ne_zero] at htiny
    have := (zpow_lt_zpow_iff_right₀ one_lt_two).1 (hx.trans_lt htiny)
    omega

/-- The root of a fraction above 0 is rounded once. -/
theorem Fmt.sqrtFrac_rounds {f : Fmt} (h : f.Regular) (a : Attr) {num den : ℕ} (hnum : 0 < num) (hden : 0 < den) :
    f.rounds a false (Real.sqrt ((num : ℝ) / den)) (f.roundFrac a false (sqrtFrac num den)) := by
  obtain ⟨hpos, hagree⟩ := sqrtFrac_agree num hden
  obtain ⟨hunit, hgrid⟩ := sqrt_log_bounds h hnum hden
  have hroot : 0 < Real.sqrt ((num : ℝ) / den) := by positivity
  have hrat : (0 : ℝ) < (sqrtFrac num den).rat := by
    have hcut := (hagree 0).2
    rw [Int.cast_zero, zero_mul] at hcut
    exact not_le.1 (mt hcut.1 (not_le.2 hroot))
  have hrat' : 0 < (sqrtFrac num den).rat := by exact_mod_cast hrat
  have hround := Fmt.roundFrac_exactly h a false hpos
  rw [Fmt.exactly, if_neg hrat'.ne', decide_eq_false hrat'.not_gt, abs_of_pos hrat'] at hround
  exact Fmt.rounds_of_agreeAt hagree hroot hunit hgrid hround

/-- The fraction of a value above 0. -/
theorem FVal.frac_of_pos {x : FVal} (hx : x.isFinite = true) (hzero : x.isZero = false) (hsign : x.sign = false) :
    0 < x.frac.num.natAbs ∧ (x.value : ℝ) = (x.frac.num.natAbs : ℝ) / x.frac.den := by
  have hvalue : x.value ≠ 0 := fun hv => by simp [(FVal.value_eq_zero_iff hx).1 hv] at hzero
  have habs : |x.value| = x.value := by
    rw [FVal.abs_value, FVal.value_eq_sign_mag, hsign]
    simp
  refine ⟨Int.natAbs_pos.2 ?_, ?_⟩
  · rwa [← FVal.frac_rat, Ne, Frac.rat_eq_zero_iff x.frac_den_pos] at hvalue
  · rw [← habs, ← FVal.frac_rat, Frac.abs_rat]
    push_cast
    rfl

/-- FSQRT rounds the root of a value above 0 once. -/
theorem Fmt.sqrt_rounds {f : Fmt} (h : f.Regular) (a : Attr) {x : FVal} (hx : x.isFinite = true) (hzero : x.isZero = false)
    (hsign : x.sign = false) : f.rounds a false (Real.sqrt x.value) (f.sqrt a x) := by
  obtain ⟨hnum, hvalue⟩ := FVal.frac_of_pos hx hzero hsign
  have hround := Fmt.sqrtFrac_rounds h a hnum x.frac_den_pos
  rw [← hvalue] at hround
  obtain ⟨s, n, e, rfl⟩ := FVal.eq_fin_of_isFinite hx
  have hn : n ≠ 0 := by
    rintro rfl
    cases hzero
  have hs : ¬s = true := (Bool.not_eq_true s).mpr hsign
  unfold Fmt.sqrt
  dsimp only
  rwa [if_neg hn, if_neg hs]

end Sys2Proof.Machine
end

section
/-! PROOFS. The finite patterns of a format, and their values rounded to themselves (R129, R136). -/

namespace Sys2Proof.Machine

open Sys2Proof

/-! ## The finite patterns of a format -/

/-- A pattern has a sign, an exponent and a fraction. -/
theorem Fmt.exists_fields (f : Fmt) {p : Nat} (hp : p < 2 ^ f.width) :
    ∃ s e m, e < 2 ^ f.ew ∧ m < 2 ^ f.fw ∧ p = f.signBit s + (e * 2 ^ f.fw + m) := by
  have hfw : 0 < 2 ^ f.fw := by positivity
  refine ⟨decide (2 ^ (f.ew + f.fw) ≤ p), p % 2 ^ (f.ew + f.fw) / 2 ^ f.fw, p % 2 ^ f.fw, ?_, Nat.mod_lt _ hfw, ?_⟩
  · rw [Nat.div_lt_iff_lt_mul hfw, ← pow_add]
    exact Nat.mod_lt _ (by positivity)
  · have hlow : p % 2 ^ (f.ew + f.fw) / 2 ^ f.fw * 2 ^ f.fw + p % 2 ^ f.fw = p % 2 ^ (f.ew + f.fw) := by
      rw [← Nat.mod_mod_of_dvd p (show 2 ^ f.fw ∣ 2 ^ (f.ew + f.fw) from pow_dvd_pow 2 (Nat.le_add_left ..))]
      exact Nat.div_add_mod' _ _
    rw [hlow, Fmt.signBit]
    rw [f.two_pow_width] at hp
    by_cases hs : 2 ^ (f.ew + f.fw) ≤ p
    · rw [decide_eq_true hs, Nat.mod_eq_sub_mod hs, Nat.mod_eq_of_lt (by omega)]
      simp only [bitNat, if_true]
      omega
    · rw [decide_eq_false hs, Nat.mod_eq_of_lt (not_le.1 hs)]
      simp [bitNat]

theorem Fmt.read_mod (f : Fmt) (flush : Bool) (p : Nat) : f.read flush (p % 2 ^ f.width) = f.read flush p := by
  unfold Fmt.read
  rw [Nat.mod_mod]

/-- What a finite pattern is: a subnormal or a normal. -/
inductive Fmt.Finite (f : Fmt) (s : Bool) : (p n : Nat) → (k : Int) → Prop where
  | subnormal {n : Nat} (hn : n < 2 ^ f.fw) : Fmt.Finite f s (f.signBit s + n) n (f.emin - f.fw)
  | normal {n : Nat} {e : Int} (hn : 2 ^ f.fw ≤ n) (hn' : n < 2 ^ (f.fw + 1)) (he : f.emin ≤ e) (hfin : ¬f.exceeds n e) :
      Fmt.Finite f s (f.signBit s + ((e + f.bias).toNat * 2 ^ f.fw + (n - 2 ^ f.fw))) n (e - f.fw)

theorem Fmt.finite_of_read {f : Fmt} (h : f.Regular) {p : Nat} (hp : p < 2 ^ f.width) {s : Bool} {n : Nat} {k : Int}
    (hread : f.read false p = .fin s n k) : f.Finite s p n k := by
  have htop := h.two_le_top
  obtain ⟨t, e, m, he, hm, rfl⟩ := f.exists_fields hp
  rw [f.read_fields t he hm] at hread
  have hpow : 2 ^ (f.fw + 1) = 2 * 2 ^ f.fw := pow_succ' 2 f.fw
  have htopLt := f.top_lt
  have hle : e ≤ f.top := by unfold Fmt.top; omega
  unfold Fmt.fields at hread
  by_cases he0 : e = 0
  · rw [if_pos he0] at hread
    obtain ⟨rfl, rfl, rfl⟩ := FVal.fin.inj hread
    rw [he0, zero_mul, zero_add]
    exact .subnormal hm
  · rw [if_neg he0] at hread
    have hfinite : FVal.fin t (2 ^ f.fw + m) ((e : Int) - f.bias - f.fw) = .fin s n k ∧ ¬f.exceeds (2 ^ f.fw + m) ((e : Int) - f.bias) := by
      unfold Fmt.exceeds Fmt.emax
      by_cases he4 : f.e4 = true
      · rw [if_pos he4] at hread ⊢
        have hw := h.fw_of_e4 he4
        split at hread
        case isTrue => cases hread
        case isFalse hne =>
          refine ⟨hread, ?_⟩
          rw [hw]
          omega
      · rw [if_neg he4] at hread ⊢
        split at hread
        case isTrue => split at hread <;> cases hread
        case isFalse hne => exact ⟨hread, by simp only [he4, false_and, or_false, Bool.false_eq_true]; omega⟩
    obtain ⟨rfl, rfl, rfl⟩ := FVal.fin.inj hfinite.1
    have hexp : ((e : Int) - f.bias + f.bias).toNat = e := by omega
    have hnormal := Fmt.Finite.normal (s := t) (f := f) (n := 2 ^ f.fw + m) (e := (e : Int) - f.bias) (by omega) (by omega)
      (by unfold Fmt.emin; omega) hfinite.2
    rwa [hexp, Nat.add_sub_cancel_left] at hnormal

section

variable {f : Fmt} (h : f.Regular) {s : Bool} {p n : Nat} {k : Int} (hfin : f.Finite s p n k)
include hfin

theorem Fmt.Finite.mantissa_lt : n < 2 ^ (f.fw + 1) := by
  have hpow := pow_succ' 2 f.fw
  cases hfin with
  | subnormal hn => omega
  | normal _ hn' => exact hn'

theorem Fmt.Finite.le_exponent : f.emin - f.fw ≤ k := by
  cases hfin with
  | subnormal => exact le_rfl
  | normal _ _ he => omega

include h

theorem Fmt.Finite.le_maxFinite : (n : ℝ) * 2 ^ k ≤ (f.read false (f.maxFinite false)).value := by
  cases hfin with
  | subnormal hn =>
    obtain ⟨hK, hK'⟩ := h.topMantissa_bounds
    have hmax := (mantissa_bounds hK hK' f.emax).1
    have hsmall : (n : ℝ) * 2 ^ (f.emin - f.fw) ≤ 2 ^ f.emin := by
      rw [← natCast_two_pow_mul_zpow f.fw f.emin]
      have : (n : ℝ) ≤ (2 ^ f.fw : ℕ) := by exact_mod_cast hn.le
      gcongr
    rw [Fmt.maxFinite_value h]
    exact hsmall.trans ((two_zpow_le h.emin_le_emax).trans hmax)
  | normal hn hn' he hfin => exact not_lt.1 (mt (Fmt.exceeds_iff h hn hn').1 hfin)

end

section

variable {f : Fmt} {s t : Bool} {p q n m : Nat} {k l : Int}

/-- A finite pattern is told by its sign and its magnitude. -/
theorem Fmt.Finite.inj (hp : f.Finite s p n k) (hq : f.Finite s q m l) (hmag : (n : ℝ) * 2 ^ k = m * 2 ^ l) : p = q := by
  have hbelow {i j : ℕ} (hi : i < 2 ^ f.fw) (hj : 2 ^ f.fw ≤ j) (hj' : j < 2 ^ (f.fw + 1)) {e : Int} (he : f.emin ≤ e) :
      (i : ℝ) * 2 ^ (f.emin - f.fw) < j * 2 ^ (e - f.fw) := by
    refine lt_of_lt_of_le ?_ ((two_zpow_le he).trans (mantissa_bounds hj hj' e).1)
    rw [← natCast_two_pow_mul_zpow f.fw f.emin]
    exact mul_lt_mul_of_pos_right (by exact_mod_cast hi) (two_zpow_pos _)
  cases hp with
  | subnormal hn =>
    cases hq with
    | subnormal hm =>
      have hnm := mul_right_cancel₀ (two_zpow_pos _).ne' hmag
      rw [Nat.cast_injective hnm]
    | normal hm hm' he _ => exact absurd hmag (hbelow hn hm hm' he).ne
  | normal hn hn' he _ =>
    cases hq with
    | subnormal hm => exact absurd hmag (hbelow hm hn hn' he).ne'
    | normal hm hm' he' _ =>
      have hlt := mt (mantissa_lt_iff hm hm' hn hn' _ _).2 hmag.not_lt
      have hgt := mt (mantissa_lt_iff hn hn' hm hm' _ _).2 hmag.not_gt
      push Not at hlt hgt
      obtain rfl := le_antisymm hgt.1 hlt.1
      rw [le_antisymm (hlt.2 rfl) (hgt.2 rfl)]

theorem exists_natCast_mul_zpow (n : Nat) {e : Int} (h : e ≤ k) : ∃ N : ℕ, (n : ℝ) * 2 ^ k = N * 2 ^ e := by
  obtain ⟨d, rfl⟩ : ∃ d : ℕ, k = d + e := ⟨(k - e).toNat, by omega⟩
  refine ⟨n * 2 ^ d, ?_⟩
  rw [zpow_add₀ two_ne_zero, zpow_natCast]
  push_cast
  ring

/-- A multiple of the unit is rounded to itself. -/
theorem RMode.takes_multiple {rm : RMode} {e : Int} (he : e ≤ k) (h : rm.takes s ((n : ℝ) * 2 ^ k / 2 ^ e) m) :
    (m : ℝ) * 2 ^ e = n * 2 ^ k := by
  obtain ⟨N, hN⟩ := exists_natCast_mul_zpow n he
  rw [hN, mul_div_cancel_right₀ _ (two_zpow_pos e).ne'] at h
  rw [RMode.takes_whole h, hN]

/-- A value of the format above 0 is rounded to itself, with no flag unless it is flushed. -/
theorem Fmt.rounds_finite (h : f.Regular) {a : Attr} {r : FRes} (hfin : f.Finite t p n k) (hn : 0 < n)
    (hflush : a.flush = false ∨ (2 : ℝ) ^ f.emin ≤ n * 2 ^ k) (hr : f.rounds a s (n * 2 ^ k) r) :
    f.holds r s (n * 2 ^ k) ∧ r.flags = 0 := by
  have hx : (0 : ℝ) < n * 2 ^ k := by positivity
  have hlog : Int.log 2 ((n : ℝ) * 2 ^ k) < f.fw + 1 + k := by
    refine log_lt_of_lt_two_zpow hx ?_
    rw [zpow_add₀ two_ne_zero, ← Nat.cast_succ, zpow_natCast]
    have hlt : (n : ℝ) < 2 ^ (f.fw + 1) := by exact_mod_cast hfin.mantissa_lt
    exact mul_lt_mul_of_pos_right hlt (two_zpow_pos k)
  obtain ⟨i, j, hi, hj, hr⟩ := hr
  rw [RMode.takes_multiple (by omega) hi, RMode.takes_multiple hfin.le_exponent hj, if_neg (hfin.le_maxFinite h).not_gt] at hr
  simp only [if_true] at hr
  by_cases htiny : (n : ℝ) * 2 ^ k < 2 ^ f.emin
  · have hfl : a.flush = false := hflush.resolve_right htiny.not_ge
    rwa [if_pos htiny, hfl, if_neg (by simp)] at hr
  · rwa [if_neg htiny] at hr

end

end Sys2Proof.Machine
end

section
/-! PROOFS. Infinities in valid operations, minima and maxima, and values written back (R139, R141, R376). -/

namespace Sys2Proof.Machine

open Sys2Proof

/-! ## A value of the format written back -/

theorem Fmt.inf_of_read {f : Fmt} {p : Nat} (hp : p < 2 ^ f.width) {s : Bool} (hread : f.read false p = .inf s) :
    p = f.inf s := by
  obtain ⟨t, e, m, he, hm, rfl⟩ := f.exists_fields hp
  rw [f.read_fields t he hm] at hread
  unfold Fmt.fields at hread
  split at hread
  case isTrue => cases hread
  case isFalse =>
  split at hread
  case isTrue => split at hread <;> cases hread
  case isFalse =>
  split at hread
  case isFalse => cases hread
  case isTrue htop =>
  split at hread
  case isFalse => cases hread
  case isTrue hm0 =>
    obtain rfl := FVal.inf.inj hread
    rw [Fmt.inf, htop, hm0, add_zero]

theorem Fmt.Finite.signed_zero {f : Fmt} {s : Bool} {p : Nat} {k : Int} (h : f.Finite s p 0 k) : p = f.signBit s := by
  cases h with
  | subnormal => rfl
  | normal hn => exact absurd hn (Nat.two_pow_pos _).not_ge

theorem FVal.value_fin_neg {s : Bool} {n : Nat} {k : Int} (hn : 0 < n) : decide ((FVal.fin s n k).value < 0) = s := by
  have hmag : (0 : ℚ) < n * 2 ^ k := by positivity
  rw [Bool.eq_iff_iff, decide_eq_true_iff, FVal.value_eq_sign_mag]
  cases s <;> simp [FVal.sign, FVal.mag, hmag, hmag.le]

/-- Reading a pattern that is no NaN and writing it back gives the pattern. -/
theorem Fmt.write_read {f : Fmt} (h : f.Regular) {p : Nat} (hp : p < 2 ^ f.width) (hnan : (f.read false p).isNan = false) :
    f.write (f.read false p) = p := by
  cases hread : f.read false p with
  | nan q =>
    rw [hread] at hnan
    cases hnan
  | inf s => exact (Fmt.inf_of_read hp hread).symm
  | fin s n k =>
    have hfin := Fmt.finite_of_read h hp hread
    have hround := Fmt.roundFrac_exactly h ⟨.rne, false, true⟩ s (FVal.fin s n k).frac_den_pos
    rw [FVal.frac_rat, Fmt.exactly] at hround
    rcases n.eq_zero_or_pos with rfl | hn
    · rw [if_pos (by simp [FVal.value])] at hround
      rw [Fmt.write, hround, hfin.signed_zero]
    · have hne : (FVal.fin s n k).value ≠ 0 := by
        rw [← abs_ne_zero, FVal.abs_value, FVal.mag]
        positivity
      rw [if_neg hne, FVal.value_fin_neg hn, FVal.abs_value, FVal.mag] at hround
      push_cast at hround
      obtain ⟨⟨hbits, n', k', hread', hmag⟩, -⟩ := Fmt.rounds_finite h hfin hn (.inl rfl) hround
      exact (Fmt.finite_of_read h hbits hread').inj hfin hmag

/-! ## The order of values -/

/-- Which of two values FMIN takes: the one below, −0 before +0. -/
def FVal.before (x y : FVal) : Prop := x.order < y.order ∨ (x.isZero ∧ y.isZero ∧ x.sign = true ∧ y.sign = false)

theorem FVal.order_fin (s : Bool) (n : Nat) (e : Int) :
    (FVal.fin s n e).order = (((FVal.fin s n e).value : WithTop ℚ) : WithBot (WithTop ℚ)) := rfl

theorem FVal.below_of_before {x y : FVal} (hx : x.isNan = false) (hy : y.isNan = false) (h : x.before y) :
    x.below true y = true ∧ y.below true x = false := by
  unfold FVal.before at h
  cases x with
  | nan q => cases hx
  | inf s =>
    cases y with
    | nan q => cases hy
    | inf t => cases s <;> cases t <;> simp [FVal.order, FVal.below, FVal.isZero] at h ⊢
    | fin t m d => cases s <;> simp [FVal.order, FVal.below, FVal.isZero] at h ⊢
  | fin s n e =>
    cases y with
    | nan q => cases hy
    | inf t => cases t <;> simp [FVal.order, FVal.below, FVal.isZero] at h ⊢
    | fin t m d =>
      have hlt (u v : FVal) : u.frac.lt v.frac = true ↔ u.value < v.value := by
        rw [Frac.lt_iff u.frac_den_pos v.frac_den_pos, FVal.frac_rat, FVal.frac_rat]
      have hbelow (u v : FVal) : u.frac.lt v.frac = false ↔ v.value ≤ u.value := by
        rw [← Bool.not_eq_true, hlt, not_lt]
      have hzero {u : FVal} (hu : u.isFinite = true) (hz : u.isZero = true) : u.value = 0 := (FVal.value_eq_zero_iff hu).2 hz
      rw [FVal.order_fin, FVal.order_fin, WithBot.coe_lt_coe, WithTop.coe_lt_coe] at h
      unfold FVal.below
      dsimp only
      rw [Bool.or_eq_true, Bool.or_eq_false_iff, hlt, hbelow]
      rcases h with h | ⟨hzx, hzy, hsx, hsy⟩
      · refine ⟨.inl h, h.le, ?_⟩
        by_contra hzeros
        simp only [Bool.true_and, Bool.not_eq_false, Bool.and_eq_true] at hzeros
        rw [hzero rfl hzeros.1.1.1, hzero rfl hzeros.1.1.2] at h
        exact lt_irrefl _ h
      · rw [hzero rfl hzx, hzero rfl hzy, hzx, hzy, hsx, hsy]
        exact ⟨.inr rfl, le_rfl, rfl⟩

theorem Fmt.pick_of_before (f : Fmt) {x y : FVal} (hx : x.isNan = false) (hy : y.isNan = false) (h : x.before y) (wantMax : Bool) :
    f.pick wantMax x y = ⟨f.write (if wantMax then y else x), 0⟩ ∧ f.pick wantMax y x = ⟨f.write (if wantMax then y else x), 0⟩ := by
  obtain ⟨hxy, hyx⟩ := FVal.below_of_before hx hy h
  have hsnan {z : FVal} (hz : z.isNan = false) : z.isSnan = false := by
    cases z with
    | nan q => cases hz
    | inf s => rfl
    | fin s n e => rfl
  unfold Fmt.pick
  simp [hx, hy, hxy, hyx, hsnan hx, hsnan hy]

/-! ## Infinities in valid operations -/

section

variable {f : Fmt} (he4 : f.e4 = false) (a : Attr) (s : Bool) {y z : FVal}
include he4

theorem Fmt.writeInf_of_not_e4 : f.writeInf a s = ⟨f.inf s, 0⟩ := by
  rw [Fmt.writeInf, he4]
  rfl

theorem Fmt.add_inf (hy : y.isNan = false) (hvalid : y ≠ .inf !s) :
    f.add a (.inf s) y = ⟨f.inf s, 0⟩ ∧ f.add a y (.inf s) = ⟨f.inf s, 0⟩ := by
  rw [← Fmt.writeInf_of_not_e4 he4 a s]
  cases y with
  | nan q => cases hy
  | fin t n e => exact ⟨rfl, rfl⟩
  | inf t =>
    obtain rfl : t = s := by cases s <;> cases t <;> simp at hvalid ⊢
    simp [Fmt.add, FVal.isNan]

theorem Fmt.mul_inf (hy : y.isNan = false) (hzero : y.isZero = false) :
    f.mul a (.inf s) y = ⟨f.inf (s != y.sign), 0⟩ ∧ f.mul a y (.inf s) = ⟨f.inf (s != y.sign), 0⟩ := by
  rw [← Fmt.writeInf_of_not_e4 he4 a (s != y.sign)]
  cases y with
  | nan q => cases hy
  | fin t n e => simp [Fmt.mul, FVal.isNan, FVal.sign, hzero, Bool.xor_comm]
  | inf t => simp [Fmt.mul, FVal.isNan, FVal.sign, FVal.isZero, Bool.xor_comm]

theorem Fmt.fma_inf (hy : y.isNan = false) (hz : z.isNan = false) (hzero : y.isZero = false)
    (hvalid : z ≠ .inf !(s != y.sign)) :
    f.fma a (.inf s) y z = ⟨f.inf (s != y.sign), 0⟩ ∧ f.fma a y (.inf s) z = ⟨f.inf (s != y.sign), 0⟩ := by
  rw [← Fmt.writeInf_of_not_e4 he4 a (s != y.sign)]
  have hinf : (FVal.inf s).isZero = false := rfl
  have hswap : (y.sign != s) = (s != y.sign) := Bool.xor_comm _ _
  have hz' : (∃ t n e, z = .fin t n e) ∨ z = .inf (s != y.sign) := by
    cases z with
    | nan q => cases hz
    | fin t n e => exact .inl ⟨t, n, e, rfl⟩
    | inf t => exact .inr (by cases t <;> cases hs : (s != y.sign) <;> simp [hs] at hvalid ⊢)
  cases y with
  | nan q => cases hy
  | fin t' n' e' =>
    obtain ⟨t, n, e, rfl⟩ | rfl := hz' <;> simp [Fmt.fma, FVal.isNan, FVal.isFinite, hzero, hswap, FVal.sign] at hswap ⊢
  | inf t' =>
    obtain ⟨t, n, e, rfl⟩ | rfl := hz' <;> simp [Fmt.fma, FVal.isNan, FVal.isFinite, hzero, hinf, hswap, FVal.sign] at hswap ⊢

theorem Fmt.fma_inf_addend (hy : y.isFinite = true) (hz : z.isFinite = true) : f.fma a y z (.inf s) = ⟨f.inf s, 0⟩ := by
  rw [← Fmt.writeInf_of_not_e4 he4 a s]
  obtain ⟨t, n, e, rfl⟩ := FVal.eq_fin_of_isFinite hy
  obtain ⟨t', n', e', rfl⟩ := FVal.eq_fin_of_isFinite hz
  rfl

end

theorem wide_formats {f : Fmt} (hf : f ∈ [f64, f32, bf16, f16]) : f ∈ formats ∧ f.e4 = false := by
  have hwide : ∀ f ∈ [f64, f32, bf16, f16], f ∈ formats ∧ f.e4 = false := by decide
  exact hwide f hf

/-- Settles O8: a finite result through `Fmt.roundMag_rounds` and `Fmt.sqrtFrac_rounds`, an infinity case by case, FMIN and
FMAX through the order of values. -/
theorem floatResults : Obligations.FloatResults := by
  refine ⟨fun f hf a x y z hx hy hz => ?_, fun f hf a s y z hy hz => ?_, fun f hf => ?_⟩
  · have h := Fmt.regular hf
    exact ⟨Fmt.add_exactly h a hx hy, Fmt.mul_exactly h a hx hy, Fmt.fma_exactly h a hx hy hz, Fmt.convert_exactly h a hx,
      fun hzero => ⟨Fmt.rcp_rounds h a hx hzero, Fmt.sqrt_rounds h a hx hzero⟩⟩
  · obtain ⟨-, he4⟩ := wide_formats hf
    refine ⟨Fmt.writeInf_of_not_e4 he4 a s, Fmt.add_inf he4 a s hy, fun hzero => ?_, Fmt.fma_inf_addend he4 a s⟩
    obtain ⟨hmul, hmul'⟩ := Fmt.mul_inf he4 a s hy hzero
    exact ⟨hmul, hmul', Fmt.fma_inf he4 a s hy hz hzero⟩
  · obtain ⟨hf, -⟩ := wide_formats hf
    refine ⟨fun b => Fmt.write_read (Fmt.regular hf), fun x y hx hy h => ?_⟩
    obtain ⟨hmin, hmin'⟩ := Fmt.pick_of_before f hx hy h false
    obtain ⟨hmax, hmax'⟩ := Fmt.pick_of_before f hx hy h true
    exact ⟨hmin, hmin', hmax, hmax'⟩

end Sys2Proof.Machine
end

section
/-! PROOFS. Results within units in the last place (R143): what rounding to nearest and a candidate within bounds give. -/

namespace Sys2Proof.Machine

open Sys2Proof

/-! ## Rounding against a multiple of the unit -/

section

variable {rm : RMode} {s : Bool} {x : ℝ} {n m : Nat} {k e : Int}

/-- What is at most a multiple of the unit rounds to at most that multiple. -/
theorem RMode.takes_le_multiple (he : e ≤ k) (h : rm.takes s (x / 2 ^ e) m) (hx : x ≤ n * 2 ^ k) :
    (m : ℝ) * 2 ^ e ≤ n * 2 ^ k := by
  obtain ⟨N, hN⟩ := exists_natCast_mul_zpow n he
  rw [hN] at hx ⊢
  have hmN : m ≤ N := RMode.takes_le h ((div_le_iff₀ (two_zpow_pos e)).2 hx)
  gcongr

theorem RMode.takes_rne_near (h : RMode.rne.takes s (x / 2 ^ e) m) : |(m : ℝ) * 2 ^ e - x| ≤ 2 ^ e / 2 := by
  have hpos := two_zpow_pos e
  have hclose := RMode.takes_rne_close h
  have hsplit : (m : ℝ) * 2 ^ e - x = -(x / 2 ^ e - m) * 2 ^ e := by
    field_simp
    ring
  rw [hsplit, abs_mul, abs_neg, abs_of_pos hpos]
  calc _ ≤ 1 / 2 * (2 : ℝ) ^ e := by gcongr
    _ = 2 ^ e / 2 := by ring

end

/-! ## Rounding to nearest -/

section

variable {f : Fmt} (h : f.Regular) {flush sat s : Bool} {x : ℝ} {r : FRes} (hr : f.rounds ⟨.rne, flush, sat⟩ s x r)
include h hr

/-- At most the largest finite value is not rounded beyond it. -/
theorem Fmt.rounds_no_overflow (hx : 0 < x) (hmax : x ≤ (f.read false (f.maxFinite false)).value) :
    ∃ m t : ℕ, RMode.rne.takes s (x / 2 ^ (Int.log 2 x - f.fw)) m ∧ RMode.rne.takes s (x / 2 ^ (f.emin - f.fw)) t ∧
      if (m : ℝ) * 2 ^ (Int.log 2 x - f.fw) < 2 ^ f.emin then
        if flush ∧ ¬f.isFp8 then r = ⟨f.signBit s, flUF ||| flNX⟩
        else f.holds r s (t * 2 ^ (f.emin - f.fw))
          ∧ r.flags = if (t : ℝ) * 2 ^ (f.emin - f.fw) = x then 0 else flUF ||| flNX
      else f.holds r s (m * 2 ^ (Int.log 2 x - f.fw)) ∧ r.flags = if (m : ℝ) * 2 ^ (Int.log 2 x - f.fw) = x then 0 else flNX := by
  obtain ⟨m, t, hm, ht, hr⟩ := hr
  refine ⟨m, t, hm, ht, ?_⟩
  obtain ⟨hK, hK'⟩ := h.topMantissa_bounds
  have hlog : Int.log 2 x < f.emax + 1 := by
    refine log_lt_of_lt_two_zpow hx (hmax.trans_lt ?_)
    rw [Fmt.maxFinite_value h]
    exact (mantissa_bounds hK hK' f.emax).2
  rwa [if_neg] at hr
  rw [not_lt, Fmt.maxFinite_value h]
  rw [Fmt.maxFinite_value h] at hmax
  exact RMode.takes_le_multiple (by omega) hm hmax

/-- From the smallest normal on, a result is the nearest of its binade. -/
theorem Fmt.rounds_normal (hmin : (2 : ℝ) ^ f.emin ≤ x) (hmax : x ≤ (f.read false (f.maxFinite false)).value) :
    ∃ w, f.holds r s w ∧ |w - x| ≤ 2 ^ (Int.log 2 x - f.fw) / 2 ∧ r.flags = if w = x then 0 else flNX := by
  have hx : 0 < x := (two_zpow_pos _).trans_le hmin
  obtain ⟨m, t, hm, -, hr⟩ := Fmt.rounds_no_overflow h hr hx hmax
  have hreach := (two_zpow_le (le_log_of_two_zpow_le hmin)).trans (two_zpow_log_le_rounded hx hm)
  rw [if_neg hreach.not_gt] at hr
  exact ⟨_, hr.1, RMode.takes_rne_near hm, hr.2⟩

/-- Below the smallest normal a result is flushed, or the nearest subnormal. -/
theorem Fmt.rounds_tiny (hx : 0 < x) (hmin : x < (2 : ℝ) ^ f.emin) :
    (flush = true ∧ r = ⟨f.signBit s, flUF ||| flNX⟩) ∨
      ∃ w, f.holds r s w ∧ |w - x| ≤ 2 ^ (f.emin - f.fw) / 2 ∧ (r.flags = 0 ∨ r.flags = flNX ∨ r.flags = flUF ||| flNX) := by
  obtain ⟨hK, hK'⟩ := h.topMantissa_bounds
  have hmax : x ≤ (f.read false (f.maxFinite false)).value := by
    rw [Fmt.maxFinite_value h]
    exact hmin.le.trans ((two_zpow_le h.emin_le_emax).trans (mantissa_bounds hK hK' f.emax).1)
  obtain ⟨m, t, hm, ht, hr⟩ := Fmt.rounds_no_overflow h hr hx hmax
  have hlog := log_lt_of_lt_two_zpow hx hmin
  split at hr
  case isTrue =>
    split at hr
    case isTrue hflush => exact .inl ⟨hflush.1, hr⟩
    case isFalse =>
      refine .inr ⟨_, hr.1, RMode.takes_rne_near ht, ?_⟩
      rw [hr.2]
      split <;> simp
  case isFalse =>
    refine .inr ⟨_, hr.1, (RMode.takes_rne_near hm).trans ?_, ?_⟩
    · have := two_zpow_le (show Int.log 2 x - f.fw ≤ f.emin - f.fw by omega)
      linarith
    · rw [hr.2]
      split <;> simp

/-- What does not come near the smallest normal is flushed. -/
theorem Fmt.rounds_flushed (hflush : flush = true) (hwide : f.isFp8 = false) (hx : 0 < x)
    (hmin : x ≤ (2 ^ (f.fw + 1) - 1 : ℕ) * 2 ^ (f.emin - 1 - f.fw)) : r = ⟨f.signBit s, flUF ||| flNX⟩ := by
  obtain ⟨hK, hK'⟩ := h.topMantissa_bounds
  have hbelow : ((2 ^ (f.fw + 1) - 1 : ℕ) : ℝ) * 2 ^ (f.emin - 1 - f.fw) < 2 ^ f.emin := by
    have hpow : 2 ^ f.fw ≤ 2 ^ (f.fw + 1) - 1 ∧ 2 ^ (f.fw + 1) - 1 < 2 ^ (f.fw + 1) := by
      have hpos := Nat.two_pow_pos f.fw
      rw [pow_succ]
      omega
    have hlt := (mantissa_bounds hpow.1 hpow.2 (f.emin - 1)).2
    rwa [sub_add_cancel] at hlt
  have hlog := log_lt_of_lt_two_zpow hx (hmin.trans_lt hbelow)
  have hmax : x ≤ (f.read false (f.maxFinite false)).value := by
    rw [Fmt.maxFinite_value h]
    exact (hmin.trans hbelow.le).trans ((two_zpow_le h.emin_le_emax).trans (mantissa_bounds hK hK' f.emax).1)
  obtain ⟨m, t, hm, -, hr⟩ := Fmt.rounds_no_overflow h hr hx hmax
  rwa [if_pos ((RMode.takes_le_multiple (by omega) hm hmin).trans_lt hbelow), if_pos ⟨hflush, by simp [hwide]⟩] at hr

end

/-! ## A candidate within bounds -/

theorem Frac.abs_rat_cast (x : Frac) : |(x.rat : ℝ)| = (x.num.natAbs : ℝ) / x.den := by
  rw [← Rat.cast_abs, x.abs_rat]
  push_cast
  rfl

/-- The unit in the last place at a fraction. -/
theorem Fmt.ulp_rat (f : Fmt) {x : Frac} (hx : 0 < x.den) (hnum : x.num ≠ 0) :
    0 < (f.ulp x).den ∧ ((f.ulp x).rat : ℝ) = 2 ^ (max (Int.log 2 |(x.rat : ℝ)|) f.emin - f.fw) := by
  have hlog := binExp_eq_log (Int.natAbs_pos.2 hnum) hx
  rw [x.abs_rat_cast, ← hlog]
  unfold Fmt.ulp
  rw [if_neg hnum]
  obtain ⟨hden, hratio⟩ := scalePow_ratio 1 (max (binExp x.num.natAbs x.den) f.emin - f.fw)
  refine ⟨hden, ?_⟩
  simp only [Frac.rat]
  push_cast
  rw [hratio, Nat.cast_one, one_mul]

theorem Fmt.isTiny_iff (f : Fmt) {x : Frac} (hx : 0 < x.den) (hnum : x.num ≠ 0) :
    f.isTiny x = true ↔ |(x.rat : ℝ)| < 2 ^ f.emin := by
  have hlog := binExp_eq_log (Int.natAbs_pos.2 hnum) hx
  have hpos : 0 < (x.num.natAbs : ℝ) / x.den := by
    have := Int.natAbs_pos.2 hnum
    positivity
  rw [Fmt.isTiny, hlog, x.abs_rat_cast, Bool.and_eq_true, bne_iff_ne, decide_eq_true_iff, and_iff_right hnum]
  exact ⟨fun h => (lt_two_zpow_log _).trans_le (two_zpow_le h), log_lt_of_lt_two_zpow hpos⟩

/-- Of two fractions the one nearer to 0. -/
def Frac.nearer (lo hi : Frac) : Frac := if lo.abs.lt hi.abs then lo.abs else hi.abs

theorem Frac.nearer_eq (lo hi : Frac) : lo.nearer hi = lo.abs ∨ lo.nearer hi = hi.abs := by
  unfold Frac.nearer
  split
  · exact .inl rfl
  · exact .inr rfl

/-- The flags of a result within bounds: those of the rounded lower bound, and NX, with UF where it is tiny. -/
def Fmt.withinFlags (f : Fmt) (a : Attr) (s : Bool) (lo : Frac) : BitVec 8 :=
  (f.roundFrac a s lo).flags ||| if f.isTiny lo then flUF ||| flNX else flNX

/-- What `within` can answer: the rounded lower bound, or a candidate that lies within the units of both bounds. -/
theorem Fmt.within_cases (f : Fmt) (a : Attr) (k : Nat) (s : Bool) (lo hi : Frac) (cand : Nat) :
    f.within a k s lo hi cand = ⟨(f.roundFrac a s lo).bits, f.withinFlags a s lo⟩ ∨
      (f.read false cand).isFinite = true
        ∧ (hi.sub ((f.ulp (lo.nearer hi)).mul ⟨k, 1⟩)).le (f.read false cand).frac = true
        ∧ (f.read false cand).frac.le (lo.add ((f.ulp (lo.nearer hi)).mul ⟨k, 1⟩)) = true
        ∧ (a.flush = true → (f.roundFrac a s lo).flags &&& flUF = 0)
        ∧ f.within a k s lo hi cand = ⟨cand % 2 ^ f.width, f.withinFlags a s lo⟩ := by
  have hwithin : f.within a k s lo hi cand =
      if (f.read false cand).isFinite && (hi.sub ((f.ulp (lo.nearer hi)).mul ⟨k, 1⟩)).le (f.read false cand).frac
          && (f.read false cand).frac.le (lo.add ((f.ulp (lo.nearer hi)).mul ⟨k, 1⟩))
          && f.write (f.read false cand) == cand % 2 ^ f.width
          && !(a.flush && ((f.roundFrac a s lo).flags &&& flUF != 0
            || (f.read false cand).frac.abs.lt ⟨(scalePow 1 f.emin).1, (scalePow 1 f.emin).2⟩))
      then ⟨cand % 2 ^ f.width, f.withinFlags a s lo⟩ else ⟨(f.roundFrac a s lo).bits, f.withinFlags a s lo⟩ := rfl
  rw [hwithin]
  split
  case isTrue hok =>
    simp only [Bool.and_eq_true, Bool.not_eq_true', Bool.and_eq_false_iff, Bool.or_eq_false_iff, bne_eq_false_iff_eq] at hok
    obtain ⟨⟨⟨⟨hfin, hlow⟩, hhigh⟩, -⟩, hflush⟩ := hok
    exact .inr ⟨hfin, hlow, hhigh, fun hf => (hflush.resolve_left (by simp [hf])).1, rfl⟩
  case isFalse => exact .inl rfl

theorem Fmt.within_flags (f : Fmt) (a : Attr) (k : Nat) (s : Bool) (lo hi : Frac) (cand : Nat) :
    (f.within a k s lo hi cand).flags = f.withinFlags a s lo := by
  rcases f.within_cases a k s lo hi cand with h | ⟨-, -, -, -, h⟩ <;> rw [h]

section

variable {lo hi : Frac} {y : ℝ} (hlo : 0 < lo.den) (hhi : 0 < hi.den) (hsign : 0 < lo.rat ∨ hi.rat < 0)
  (hy : (lo.rat : ℝ) ≤ y) (hy' : y ≤ hi.rat)
include hlo hhi hsign hy hy'

/-- Bounds of one sign keep the value they hold away from 0. -/
theorem Frac.nearer_le : 0 < (lo.nearer hi).den ∧ (lo.nearer hi).num ≠ 0 ∧ |((lo.nearer hi).rat : ℝ)| ≤ |y| := by
  have hle : lo.rat ≤ hi.rat := by exact_mod_cast hy.trans hy'
  have hden : 0 < (lo.nearer hi).den := by
    rcases lo.nearer_eq hi with h | h <;> rw [h]
    · exact hlo
    · exact hhi
  have hnearer : (lo.nearer hi).rat = |lo.rat| ∧ |lo.rat| ≤ |hi.rat| ∨ (lo.nearer hi).rat = |hi.rat| ∧ |hi.rat| ≤ |lo.rat| := by
    have hlt := Frac.lt_iff (x := lo.abs) (y := hi.abs) hlo hhi
    rw [Frac.rat_abs, Frac.rat_abs] at hlt
    unfold Frac.nearer
    split
    case isTrue h => exact .inl ⟨lo.rat_abs, (hlt.1 h).le⟩
    case isFalse h => exact .inr ⟨hi.rat_abs, not_lt.1 (mt hlt.2 h)⟩
  have hpos : 0 < (lo.nearer hi).rat := by
    have hlo0 : lo.rat ≠ 0 := fun h0 => by rcases hsign with hs | hs <;> linarith
    have hhi0 : hi.rat ≠ 0 := fun h0 => by rcases hsign with hs | hs <;> linarith
    rcases hnearer with ⟨h, -⟩ | ⟨h, -⟩ <;> rw [h]
    · exact abs_pos.2 hlo0
    · exact abs_pos.2 hhi0
  refine ⟨hden, fun h0 => hpos.ne' ((Frac.rat_eq_zero_iff hden).2 h0), ?_⟩
  rw [abs_of_pos (by exact_mod_cast hpos)]
  rcases hsign with hs | hs
  · have hs' : (0 : ℝ) < lo.rat := by exact_mod_cast hs
    have hle' : (lo.nearer hi).rat ≤ |lo.rat| := by rcases hnearer with ⟨h, h'⟩ | ⟨h, h'⟩ <;> linarith
    rw [abs_of_pos hs] at hle'
    rw [abs_of_pos (hs'.trans_le hy)]
    exact le_trans (by exact_mod_cast hle') hy
  · have hs' : (hi.rat : ℝ) < 0 := by exact_mod_cast hs
    have hle' : (lo.nearer hi).rat ≤ |hi.rat| := by rcases hnearer with ⟨h, h'⟩ | ⟨h, h'⟩ <;> linarith
    rw [abs_of_neg hs] at hle'
    rw [abs_of_neg (hy'.trans_lt hs')]
    have : ((lo.nearer hi).rat : ℝ) ≤ -hi.rat := by exact_mod_cast hle'
    linarith

/-- A result of `within` lies within the units when the rounded lower bound does. -/
theorem Fmt.within_nearUlps {f : Fmt} {a : Attr} {k : Nat} {s : Bool} (cand : Nat)
    (hbase : f.nearUlps (f.roundFrac a s lo) y k) : f.nearUlps (f.within a k s lo hi cand) y k := by
  obtain ⟨hnden, hnnum, hnle⟩ := Frac.nearer_le hlo hhi hsign hy hy'
  obtain ⟨hulpDen, hulp⟩ := f.ulp_rat hnden hnnum
  obtain ⟨huDen, hu⟩ := Frac.rat_mul (y := ⟨k, 1⟩) hulpDen one_pos
  have huBound : ((((f.ulp (lo.nearer hi)).mul ⟨k, 1⟩).rat : ℚ) : ℝ) ≤ k * 2 ^ (max (Int.log 2 |y|) f.emin - f.fw) := by
    have hk : (Frac.rat ⟨k, 1⟩) = k := by simp [Frac.rat]
    have hnpos : 0 < |((lo.nearer hi).rat : ℝ)| := by
      rw [abs_pos, Rat.cast_ne_zero]
      exact mt (Frac.rat_eq_zero_iff hnden).1 hnnum
    have hlog : Int.log 2 |((lo.nearer hi).rat : ℝ)| ≤ Int.log 2 |y| := Int.log_mono_right hnpos hnle
    rw [hu, hk]
    push_cast
    rw [hulp, mul_comm]
    gcongr
    exact one_le_two
  rcases f.within_cases a k s lo hi cand with hw | ⟨hfin, hlow, hhigh, -, hw⟩
  · rw [hw]
    exact hbase
  · obtain ⟨hsubDen, hsub⟩ := Frac.rat_sub hhi huDen
    obtain ⟨haddDen, hadd⟩ := Frac.rat_add hlo huDen
    rw [Frac.le_iff hsubDen (FVal.frac_den_pos _), hsub, FVal.frac_rat] at hlow
    rw [Frac.le_iff (FVal.frac_den_pos _) haddDen, hadd, FVal.frac_rat] at hhigh
    have hlow' : (hi.rat : ℝ) - ((f.ulp (lo.nearer hi)).mul ⟨k, 1⟩).rat ≤ (f.read false cand).value := by exact_mod_cast hlow
    have hhigh' : ((f.read false cand).value : ℝ) ≤ lo.rat + ((f.ulp (lo.nearer hi)).mul ⟨k, 1⟩).rat := by exact_mod_cast hhigh
    rw [hw]
    unfold Fmt.nearUlps Fmt.near
    rw [f.read_mod]
    exact ⟨Nat.mod_lt _ (by positivity), hfin, abs_le.2 ⟨by linarith, by linarith⟩⟩

end

end Sys2Proof.Machine
end

section
/-! PROOFS. Sources and results of the special functions (R137, R143), and FRSQ. -/

namespace Sys2Proof.Machine

open Sys2Proof

/-! ## The sources -/

/-- A source that is no zero reads as it stands, flushed or not. -/
theorem Fmt.read_flush {f : Fmt} {flush : Bool} {p n : Nat} {s : Bool} {k : Int} (h : f.read flush p = .fin s n k) (hn : n ≠ 0) :
    f.read false p = .fin s n k := by
  unfold Fmt.read at h ⊢
  dsimp only at h ⊢
  split at h
  case isTrue he =>
    split at h
    case isTrue =>
      obtain ⟨-, h0, -⟩ := FVal.fin.inj h
      exact absurd h0.symm hn
    case isFalse =>
      rw [if_pos he]
      exact h
  case isFalse he =>
    rw [if_neg he]
    exact h

/-- A finite source other than a zero is a finite value of the format. -/
theorem Fmt.source_finite {f : Fmt} (h : f.Regular) {flush : Bool} {p : Nat} (hfin : (f.read flush p).isFinite = true)
    (hzero : (f.read flush p).isZero = false) :
    ∃ s n k, f.read flush p = .fin s n k ∧ 0 < n ∧ f.Finite s (p % 2 ^ f.width) n k := by
  obtain ⟨s, n, k, hread⟩ := FVal.eq_fin_of_isFinite hfin
  have hn : n ≠ 0 := by
    rintro rfl
    rw [hread] at hzero
    cases hzero
  have hp := Nat.mod_lt p (Nat.two_pow_pos f.width)
  exact ⟨s, n, k, hread, Nat.pos_of_ne_zero hn, Fmt.finite_of_read h hp (by rw [f.read_mod, Fmt.read_flush hread hn])⟩

section

variable {f : Fmt} {s : Bool} {p n : Nat} {k : Int} (hfin : f.Finite s p n k)
include hfin

theorem Fmt.Finite.lt_two_zpow (h : f.Regular) : (n : ℝ) * 2 ^ k < 2 ^ (f.emax + 1) := by
  obtain ⟨hK, hK'⟩ := h.topMantissa_bounds
  refine (hfin.le_maxFinite h).trans_lt ?_
  rw [Fmt.maxFinite_value h]
  exact (mantissa_bounds hK hK' f.emax).2

theorem Fmt.Finite.two_zpow_le_mag (hn : 0 < n) : (2 : ℝ) ^ (f.emin - f.fw) ≤ n * 2 ^ k := by
  have h1 : (1 : ℝ) ≤ n := by exact_mod_cast hn
  calc (2 : ℝ) ^ (f.emin - f.fw) ≤ 1 * 2 ^ k := by rw [one_mul]; exact two_zpow_le hfin.le_exponent
    _ ≤ n * 2 ^ k := by gcongr

/-- A finite value is a multiple of the units of any binade below it. -/
theorem Fmt.Finite.multiple {j : Int} (hj : (2 : ℝ) ^ j ≤ n * 2 ^ k) : ∃ N : ℕ, (n : ℝ) * 2 ^ k = N * 2 ^ (j - f.fw) := by
  refine exists_natCast_mul_zpow n ?_
  have hlt : (n : ℝ) < 2 ^ ((f.fw + 1 : ℕ) : ℤ) := by
    rw [zpow_natCast]
    exact_mod_cast hfin.mantissa_lt
  have hexp : (2 : ℝ) ^ j < 2 ^ ((f.fw + 1 : ℕ) + k) := by
    rw [zpow_add₀ two_ne_zero]
    exact hj.trans_lt (mul_lt_mul_of_pos_right hlt (two_zpow_pos k))
  have := (zpow_lt_zpow_iff_right₀ one_lt_two).1 hexp
  push_cast at this
  omega

end

theorem Fmt.near_of_holds {f : Fmt} {r : FRes} {s : Bool} {w v B : ℝ} (h : f.holds r s w) (hB : |(if s then -w else w) - v| ≤ B) :
    f.near r v B := by
  have hvalue := Fmt.value_of_holds h
  obtain ⟨hbits, n, e, hread, -⟩ := h
  refine ⟨hbits, by rw [hread]; rfl, ?_⟩
  rwa [hvalue]

theorem Fmt.holds_unique {f : Fmt} {r : FRes} {s : Bool} {w v : ℝ} (hw : f.holds r s w) (hv : f.holds r s v) : w = v := by
  obtain ⟨-, n, e, hread, rfl⟩ := hw
  obtain ⟨-, n', e', hread', rfl⟩ := hv
  obtain ⟨-, rfl, rfl⟩ := FVal.fin.inj (hread.symm.trans hread')
  rfl

theorem FVal.eq_fin_of_value_pos {x : FVal} (h : (0 : ℝ) < x.value) :
    ∃ n k, x = .fin false n k ∧ 0 < n ∧ (x.value : ℝ) = n * 2 ^ k := by
  cases x with
  | nan q => simp [FVal.value] at h
  | inf s => simp [FVal.value] at h
  | fin s n k =>
    have hk := two_zpow_pos k
    cases s with
    | true =>
      have : (0 : ℝ) ≤ n * 2 ^ k := by positivity
      simp only [FVal.value, if_true] at h
      push_cast at h
      linarith
    | false =>
      simp only [FVal.value] at h ⊢
      push_cast at h ⊢
      rw [one_mul] at h ⊢
      exact ⟨n, k, rfl, by exact_mod_cast pos_of_mul_pos_left h hk.le, rfl⟩

theorem FVal.value_of_sign_false {x : FVal} (hx : x.sign = false) {s : Bool} {n : Nat} {k : Int} (h : x = .fin s n k) :
    (x.value : ℝ) = n * 2 ^ k := by
  rw [FVal.value_eq_sign_mag, hx, h]
  simp [FVal.mag]

/-! ## FRSQ -/

section

variable {f : Fmt} {flush sat : Bool} {y : ℝ} (hmin : (2 : ℝ) ^ f.emin ≤ y)
include hmin

/-- A normal value that some pattern has is rounded to itself. -/
theorem Fmt.rounds_value (h : f.Regular) {p : Nat} (hp : ((f.read false p).value : ℝ) = y) {s : Bool} {r : FRes} {w : ℝ}
    (hr : f.rounds ⟨.rne, flush, sat⟩ s y r) (hw : f.holds r s w) : w = y := by
  have hy : 0 < y := (two_zpow_pos _).trans_le hmin
  obtain ⟨n, k, hread, hn, hvalue⟩ := FVal.eq_fin_of_value_pos (hp ▸ hy)
  have hfin := Fmt.finite_of_read h (Nat.mod_lt p (Nat.two_pow_pos f.width)) ((f.read_mod false p).trans hread)
  rw [hvalue] at hp
  rw [← hp] at hr hmin ⊢
  exact Fmt.holds_unique hw (Fmt.rounds_finite h hfin hn (.inr hmin) hr).1

variable {k : ℕ} {x : Frac} (hagree : agreeAt k x.rat y) (hunit : -(k : ℤ) < Int.log 2 y - f.fw)
include hagree hunit

/-- The fraction that agrees with a normal value has its binade. -/
theorem Frac.rat_of_agreeAt : 0 < x.rat ∧ Int.log 2 (x.rat : ℝ) = Int.log 2 y := by
  have hy : 0 < y := (two_zpow_pos _).trans_le hmin
  have hcut := (hagree 0).2
  rw [Int.cast_zero, zero_mul] at hcut
  have hrat : (0 : ℝ) < x.rat := not_le.1 (mt hcut.1 (not_le.2 hy))
  exact ⟨by exact_mod_cast hrat, (hagree.symm.log_eq hy (by omega)).symm⟩

variable (h : f.Regular) (hx : 0 < x.den)
include h hx

/-- A candidate within one unit of the fraction is within one unit of the value. -/
theorem Fmt.candidate_of_agreeAt {c : Nat}
    (hlow : (x.sub ((f.ulp (x.nearer x)).mul ⟨1, 1⟩)).le (f.read false c).frac = true)
    (hhigh : (f.read false c).frac.le (x.add ((f.ulp (x.nearer x)).mul ⟨1, 1⟩)) = true) :
    |((f.read false c).value : ℝ) - y| ≤ 2 ^ (Int.log 2 y - f.fw) := by
  obtain ⟨hrat, hlog⟩ := Frac.rat_of_agreeAt hmin hagree hunit
  have hfw := h.one_le_fw
  have hrat' : (0 : ℝ) < x.rat := by exact_mod_cast hrat
  have hnum : x.abs.num ≠ 0 := by
    have := mt (Frac.rat_eq_zero_iff hx).2 hrat.ne'
    simpa [Frac.abs] using this
  have hnearer : x.nearer x = x.abs := by simp [Frac.nearer]
  obtain ⟨hulpDen, hulp⟩ := f.ulp_rat (x := x.abs) hx hnum
  obtain ⟨huDen, hu⟩ := Frac.rat_mul (y := ⟨1, 1⟩) hulpDen one_pos
  have hu' : ((((f.ulp x.abs).mul ⟨1, 1⟩).rat : ℚ) : ℝ) = 2 ^ (Int.log 2 y - f.fw) := by
    have hone : Frac.rat ⟨1, 1⟩ = 1 := by simp [Frac.rat]
    rw [hu, hone, mul_one, hulp, x.rat_abs, Rat.cast_abs, abs_abs, abs_of_pos hrat', hlog,
      max_eq_left (le_log_of_two_zpow_le hmin)]
  obtain ⟨hsubDen, hsub⟩ := Frac.rat_sub hx huDen
  obtain ⟨haddDen, hadd⟩ := Frac.rat_add hx huDen
  rw [hnearer, Frac.le_iff hsubDen (FVal.frac_den_pos _), hsub, FVal.frac_rat] at hlow
  rw [hnearer, Frac.le_iff (FVal.frac_den_pos _) haddDen, hadd, FVal.frac_rat] at hhigh
  have hlow' : (x.rat : ℝ) - ((f.ulp x.abs).mul ⟨1, 1⟩).rat ≤ (f.read false c).value := by exact_mod_cast hlow
  have hhigh' : ((f.read false c).value : ℝ) ≤ x.rat + ((f.ulp x.abs).mul ⟨1, 1⟩).rat := by exact_mod_cast hhigh
  rw [hu'] at hlow' hhigh'
  -- The candidate is a multiple of half the unit, of which the fraction and the value fall on the same side.
  have hreach : (2 : ℝ) ^ (Int.log 2 y - 1) ≤ (f.read false c).value := by
    have hbinade := two_zpow_log_le hrat'
    have hunitLe : (2 : ℝ) ^ (Int.log 2 y - f.fw) ≤ 2 ^ (Int.log 2 y - 1) := two_zpow_le (by omega)
    have hdouble := two_zpow_succ (Int.log 2 y - 1)
    rw [sub_add_cancel] at hdouble
    rw [hlog] at hbinade
    linarith
  obtain ⟨n, j, hread, -, hvalue⟩ := FVal.eq_fin_of_value_pos ((two_zpow_pos _).trans_le hreach)
  rw [hvalue] at hreach hlow' hhigh' ⊢
  have hfinite := Fmt.finite_of_read h (Nat.mod_lt c (Nat.two_pow_pos f.width)) ((f.read_mod false c).trans hread)
  obtain ⟨N, hN⟩ := hfinite.multiple hreach
  have hhalf := two_zpow_succ (Int.log 2 y - 1 - f.fw)
  rw [show Int.log 2 y - 1 - f.fw + 1 = Int.log 2 y - f.fw by ring] at hhalf
  have habove := (hagree.le_iff (e := Int.log 2 y - 1 - f.fw) (by omega) (N + 2)).2
  have hbelow := (hagree.le_iff (e := Int.log 2 y - 1 - f.fw) (by omega) (N - 2)).1
  push_cast at habove hbelow
  have habove' := habove.1 (by linarith)
  have hbelow' := hbelow.1 (by linarith)
  exact abs_le.2 ⟨by linarith, by linarith⟩

variable (hmax : y ≤ (f.read false (f.maxFinite false)).value)
include hmax

/-- What FRSQ gives lies within one unit, and is exact where some pattern is, when the fraction it rounds agrees with the
exact value. -/
theorem Fmt.within_of_agreeAt (c : Nat) :
    let near := f.roundFrac ⟨.rne, flush, true⟩ false x
    let r := if near.flags &&& flNX = 0 then near else f.within ⟨.rne, flush, true⟩ 1 false x x c
    f.nearUlps r y 1 ∧ ((∃ p, ((f.read false p).value : ℝ) = y) → ((f.read false r.bits).value : ℝ) = y)
      ∧ r.flags = if ((f.read false r.bits).value : ℝ) = y then 0 else flNX := by
  intro near r
  have hy : 0 < y := (two_zpow_pos _).trans_le hmin
  obtain ⟨hrat, hlog⟩ := Frac.rat_of_agreeAt hmin hagree hunit
  have hround := Fmt.roundFrac_exactly h ⟨.rne, flush, true⟩ false hx
  rw [Fmt.exactly, if_neg hrat.ne', decide_eq_false hrat.not_gt, abs_of_pos hrat] at hround
  have hround' : f.rounds ⟨.rne, flush, true⟩ false y near :=
    Fmt.rounds_of_agreeAt hagree hy hunit (fun hlt => absurd hlt hmin.not_gt) hround
  obtain ⟨w, hw, hclose, hflags⟩ := Fmt.rounds_normal h hround' hmin hmax
  have hexp : max (Int.log 2 |y|) f.emin = Int.log 2 y := by
    rw [abs_of_pos hy]
    exact max_eq_left (le_log_of_two_zpow_le hmin)
  have hbase : f.nearUlps near y 1 := by
    refine Fmt.near_of_holds hw ?_
    rw [hexp]
    have := two_zpow_pos (Int.log 2 y - f.fw)
    simp only [Bool.false_eq_true, if_false, Nat.cast_one]
    linarith
  by_cases hexact : w = y
  · rw [if_pos hexact] at hflags
    have hr : r = near := if_pos (by rw [hflags]; rfl)
    have hvalue : ((f.read false near.bits).value : ℝ) = y := (Fmt.value_of_holds hw).trans hexact
    rw [hr, hvalue, if_pos rfl]
    exact ⟨hbase, fun _ => rfl, hflags⟩
  · rw [if_neg hexact] at hflags
    have hr : r = f.within ⟨.rne, flush, true⟩ 1 false x x c := if_neg (by rw [hflags]; decide)
    have hnone (p : Nat) : ((f.read false p).value : ℝ) ≠ y := fun hp => hexact (Fmt.rounds_value hmin h hp hround' hw)
    have htiny : f.isTiny x = false := by
      have hnum : x.num ≠ 0 := mt (Frac.rat_eq_zero_iff hx).2 hrat.ne'
      have hrat' : (0 : ℝ) < x.rat := by exact_mod_cast hrat
      rw [← Bool.not_eq_true, f.isTiny_iff hx hnum, abs_of_pos hrat', not_lt]
      calc (2 : ℝ) ^ f.emin ≤ 2 ^ Int.log 2 (x.rat : ℝ) := by rw [hlog]; exact two_zpow_le (le_log_of_two_zpow_le hmin)
        _ ≤ x.rat := two_zpow_log_le hrat'
    rw [if_neg (hnone _), hr]
    refine ⟨?_, fun ⟨p, hp⟩ => absurd hp (hnone p), ?_⟩
    · rcases f.within_cases ⟨.rne, flush, true⟩ 1 false x x c with hb | ⟨hfin, hlow, hhigh, -, hb⟩ <;> rw [hb]
      · exact hbase
      · unfold Fmt.nearUlps Fmt.near
        rw [f.read_mod, hexp, Nat.cast_one, one_mul]
        exact ⟨Nat.mod_lt _ (Nat.two_pow_pos _), hfin, Fmt.candidate_of_agreeAt hmin hagree hunit h hx hlow hhigh⟩
    · rw [f.within_flags, Fmt.withinFlags, htiny]
      change near.flags ||| _ = _
      rw [hflags]
      rfl

end

/-- The inverse root of a value of a wide format is a normal value. -/
theorem Fmt.Finite.inv_sqrt_bounds {f : Fmt} (hf : f ∈ [f32, f64]) {s : Bool} {p n : Nat} {k : Int} (hfin : f.Finite s p n k)
    (hn : 0 < n) (h : f.Regular) : (2 : ℝ) ^ f.emin ≤ 1 / Real.sqrt (n * 2 ^ k)
      ∧ 1 / Real.sqrt (n * 2 ^ k) ≤ (f.read false (f.maxFinite false)).value := by
  have hrange : ∀ f ∈ [f32, f64], f.emax + 1 ≤ -f.emin + -f.emin ∧ -f.emax + -f.emax ≤ f.emin - f.fw := by decide
  obtain ⟨htop, hbottom⟩ := hrange f hf
  obtain ⟨hK, hK'⟩ := h.topMantissa_bounds
  have hlow := hfin.two_zpow_le_mag hn
  have hhigh := hfin.lt_two_zpow h
  have hroot : 0 < Real.sqrt (n * 2 ^ k) := Real.sqrt_pos.2 ((two_zpow_pos _).trans_le hlow)
  constructor
  · rw [le_one_div (two_zpow_pos _) hroot, one_div, ← zpow_neg, Real.sqrt_le_left (two_zpow_pos _).le, sq,
      ← zpow_add₀ two_ne_zero]
    exact hhigh.le.trans (two_zpow_le htop)
  · rw [Fmt.maxFinite_value h]
    refine le_trans ?_ (mantissa_bounds hK hK' f.emax).1
    rw [one_div_le hroot (two_zpow_pos _), one_div, ← zpow_neg]
    refine Real.le_sqrt_of_sq_le ?_
    rw [sq, ← zpow_add₀ two_ne_zero]
    exact (two_zpow_le hbottom).trans hlow

/-- FRSQ of a source above 0. -/
theorem Fmt.rsqrt_accurate {f : Fmt} (hf : f ∈ [f32, f64]) (a : Attr) (c b : Nat) (hfin : (f.read a.flush b).isFinite = true)
    (hzero : (f.read a.flush b).isZero = false) (hsign : (f.read a.flush b).sign = false) :
    let y : ℝ := 1 / Real.sqrt (f.read a.flush b).value
    let r := f.rsqrt a c (f.read a.flush b)
    f.nearUlps r y 1 ∧ ((∃ p, ((f.read false p).value : ℝ) = y) → ((f.read false r.bits).value : ℝ) = y)
      ∧ r.flags = if ((f.read false r.bits).value : ℝ) = y then 0 else flNX := by
  have hmem : ∀ f ∈ [f32, f64], f ∈ formats := by decide
  have h := Fmt.regular (hmem f hf)
  obtain ⟨s, n, k, hread, hn, hfinite⟩ := Fmt.source_finite h hfin hzero
  obtain ⟨hnum, hvalue⟩ := FVal.frac_of_pos hfin hzero hsign
  have hmag : ((f.read a.flush b).value : ℝ) = n * 2 ^ k := FVal.value_of_sign_false hsign hread
  obtain ⟨hmin, hmax⟩ := hfinite.inv_sqrt_bounds hf hn h
  rw [← hmag] at hmin hmax
  obtain ⟨hden, hagree⟩ := sqrtFrac_agree (f.read a.flush b).frac.den hnum
  have hunit := (sqrt_log_bounds h (f.read a.flush b).frac_den_pos hnum).1
  have hinv : Real.sqrt ((f.read a.flush b).frac.den / (f.read a.flush b).frac.num.natAbs)
      = 1 / Real.sqrt (f.read a.flush b).value := by
    rw [hvalue, one_div, ← Real.sqrt_inv, inv_div]
  rw [hinv] at hagree hunit
  have hrsqrt : f.rsqrt a c (f.read a.flush b) =
      let x := sqrtFrac (f.read a.flush b).frac.den (f.read a.flush b).frac.num.natAbs
      let near := f.roundFrac ⟨.rne, a.flush, true⟩ false x
      if near.flags &&& flNX = 0 then near else f.within ⟨.rne, a.flush, true⟩ 1 false x x c := by
    rw [hread] at hsign ⊢
    unfold Fmt.rsqrt
    dsimp only
    rw [if_neg hn.ne', if_neg (by simpa [FVal.sign] using hsign)]
  intro y r
  rw [show r = _ from hrsqrt]
  exact Fmt.within_of_agreeAt hmin hagree hunit h hden hmax c

end Sys2Proof.Machine
end

section
/-! PROOFS. FEXP2 (R143): powers of two by repeated square roots, within a bound on what is rounded down. -/

namespace Sys2Proof.Machine

open Sys2Proof

/-! ## Powers of two in fixed point -/

/-- A whole number is 2^e in units of 2^−p, short by at most `j` in 2^p. -/
def nearPow (p j a : ℕ) (e : ℝ) : Prop := 2 ^ p ≤ a ∧ (a : ℝ) ≤ 2 ^ p * 2 ^ e ∧ (2 : ℝ) ^ e * (2 ^ p - j) ≤ a

theorem nearPow_one (p : ℕ) : nearPow p 0 (2 ^ p) 0 := by
  simp [nearPow]

theorem nearPow_two (p j : ℕ) : nearPow p j (2 * 2 ^ p) 1 := by
  have hpos : 0 < 2 ^ p := Nat.two_pow_pos p
  refine ⟨by omega, ?_, ?_⟩ <;> push_cast <;> rw [Real.rpow_one] <;> linarith [Nat.cast_nonneg (α := ℝ) j]

/-- The square root halves the exponent. -/
theorem nearPow.isqrt {p x : ℕ} {t : ℝ} (hp : 2 ≤ p) (ht : 0 ≤ t) (h : nearPow p 3 x t) :
    nearPow p 3 (isqrt (x * 2 ^ p)) (t / 2) := by
  obtain ⟨hone, hhigh, hlow⟩ := h
  unfold nearPow
  rw [isqrt_eq_sqrt]
  rw [Nat.cast_ofNat] at hlow ⊢
  have hP : (4 : ℝ) ≤ 2 ^ p := by exact_mod_cast Nat.pow_le_pow_right two_pos hp
  have hsplit : (2 : ℝ) ^ t = 2 ^ (t / 2) * 2 ^ (t / 2) := by rw [← Real.rpow_add two_pos, add_halves]
  have hroot : (1 : ℝ) ≤ 2 ^ (t / 2) := Real.one_le_rpow one_le_two (by linarith)
  have hfloor : ((x * 2 ^ p).sqrt : ℝ) * (x * 2 ^ p).sqrt ≤ x * 2 ^ p := by exact_mod_cast Nat.sqrt_le (x * 2 ^ p)
  have hnext : (x : ℝ) * 2 ^ p < ((x * 2 ^ p).sqrt + 1) * ((x * 2 ^ p).sqrt + 1) := by
    exact_mod_cast Nat.lt_succ_sqrt (x * 2 ^ p)
  generalize (2 : ℝ) ^ (t / 2) = Y at *
  refine ⟨Nat.le_sqrt.2 (Nat.mul_le_mul_right _ hone), ?_, ?_⟩
  · refine abs_le_of_sq_le_sq' ?_ (by positivity) |>.2
    calc ((x * 2 ^ p).sqrt : ℝ) ^ 2 ≤ x * 2 ^ p := by rwa [sq]
      _ ≤ 2 ^ p * 2 ^ t * 2 ^ p := by gcongr
      _ = (2 ^ p * Y) ^ 2 := by
        rw [hsplit]
        ring
  · have hlt : Y * (2 ^ p - 2) < (x * 2 ^ p).sqrt + 1 := by
      refine lt_of_pow_lt_pow_left₀ 2 (by positivity) ?_
      have hsq : (Y * (2 ^ p - 2)) ^ 2 ≤ x * 2 ^ p := by
        calc (Y * (2 ^ p - 2)) ^ 2 = Y * Y * ((2 ^ p - 2) * (2 ^ p - 2)) := by ring
          _ ≤ Y * Y * ((2 ^ p - 3) * 2 ^ p) := by gcongr ?_ * ?_; nlinarith
          _ ≤ x * 2 ^ p := by
            rw [← mul_assoc, ← hsplit]
            gcongr
      linarith [sq ((x * 2 ^ p).sqrt + 1 : ℝ)]
    linarith

/-- A product rounded down adds the exponents. -/
theorem nearPow.mul {p j a r : ℕ} {e t : ℝ} (hp : 2 ≤ p) (he : 0 ≤ e) (ht : 0 ≤ t) (ha : nearPow p j a e) (hr : nearPow p 3 r t) :
    nearPow p (j + 4) (a * r / 2 ^ p) (e + t) := by
  obtain ⟨haOne, haHigh, haLow⟩ := ha
  obtain ⟨hrOne, hrHigh, hrLow⟩ := hr
  rw [Nat.cast_ofNat] at hrLow
  have hpos : 0 < 2 ^ p := Nat.two_pow_pos p
  have hP : (4 : ℝ) ≤ 2 ^ p := by exact_mod_cast Nat.pow_le_pow_right two_pos hp
  have hfloor : ((a * r / 2 ^ p : ℕ) : ℝ) * 2 ^ p ≤ a * r := by exact_mod_cast Nat.div_mul_le_self (a * r) (2 ^ p)
  have hnext : (a : ℝ) * r < ((a * r / 2 ^ p : ℕ) + 1) * 2 ^ p := by
    exact_mod_cast (Nat.div_lt_iff_lt_mul hpos).1 (Nat.lt_succ_self (a * r / 2 ^ p))
  have hE : (1 : ℝ) ≤ 2 ^ e := Real.one_le_rpow one_le_two he
  have hT : (1 : ℝ) ≤ 2 ^ t := Real.one_le_rpow one_le_two ht
  unfold nearPow
  rw [Real.rpow_add two_pos]
  generalize (2 : ℝ) ^ e = E at *
  generalize (2 : ℝ) ^ t = T at *
  generalize ((a * r / 2 ^ p : ℕ) : ℝ) = q at *
  refine ⟨(Nat.le_div_iff_mul_le hpos).2 (Nat.mul_le_mul haOne hrOne), ?_, ?_⟩
  · refine le_of_mul_le_mul_right (hfloor.trans ?_) (show (0 : ℝ) < 2 ^ p by positivity)
    calc (a : ℝ) * r ≤ 2 ^ p * E * (2 ^ p * T) := by gcongr
      _ = 2 ^ p * (E * T) * 2 ^ p := by ring
  · have hprod : E * (2 ^ p - j) * (T * (2 ^ p - 3)) ≤ a * r := by
      have hT3 : 0 ≤ T * ((2 : ℝ) ^ p - 3) := mul_nonneg (by linarith) (by linarith)
      calc E * (2 ^ p - j) * (T * (2 ^ p - 3)) ≤ a * (T * (2 ^ p - 3)) := by gcongr
        _ ≤ a * r := by gcongr
    have hj : 0 ≤ 3 * (E * T) * j := by positivity
    have hET : 1 ≤ E * T := one_le_mul_of_one_le_of_one_le hE hT
    push_cast
    refine le_of_mul_le_mul_right ?_ (show (0 : ℝ) < 2 ^ p by positivity)
    nlinarith

/-- The fraction's bits select the roots whose product is its power of two. -/
theorem exp2Bits_nearPow {p : ℕ} (hp : 2 ≤ p) (g : ℕ) :
    ∀ (n x acc j : ℕ) (t e : ℝ), 0 ≤ t → 0 ≤ e → nearPow p 3 x t → nearPow p j acc e →
      nearPow p (j + 4 * n) (exp2Bits p g (rootsOfTwo p n x) n acc) (e + t * ((g % 2 ^ n : ℕ) / 2 ^ n))
  | 0, x, acc, j, t, e, _, _, _, hacc => by simpa [exp2Bits, rootsOfTwo, Nat.mod_one] using hacc
  | n + 1, x, acc, j, t, e, ht, he, hx, hacc => by
    have hr := hx.isqrt hp ht
    have hbit : ((g % 2 ^ (n + 1) : ℕ) : ℝ) = 2 ^ n * (g / 2 ^ n % 2 : ℕ) + (g % 2 ^ n : ℕ) := by
      rw [Nat.mod_pow_succ]
      push_cast
      ring
    have hexp : e + t * ((g % 2 ^ (n + 1) : ℕ) / 2 ^ (n + 1))
        = (e + t / 2 * (g / 2 ^ n % 2 : ℕ)) + t / 2 * ((g % 2 ^ n : ℕ) / 2 ^ n) := by
      rw [hbit, pow_succ]
      field_simp
      ring
    rw [hexp]
    unfold rootsOfTwo exp2Bits
    rw [Nat.add_sub_cancel]
    have hstep : nearPow p (j + 4) (if g / 2 ^ n % 2 = 1 then acc * Machine.isqrt (x * 2 ^ p) / 2 ^ p else acc)
        (e + t / 2 * (g / 2 ^ n % 2 : ℕ)) := by
      rcases Nat.mod_two_eq_zero_or_one (g / 2 ^ n) with h0 | h1
      · rw [h0, if_neg zero_ne_one, Nat.cast_zero, mul_zero, add_zero]
        obtain ⟨hone, hhigh, hlow⟩ := hacc
        refine ⟨hone, hhigh, le_trans ?_ hlow⟩
        gcongr
        omega
      · rw [h1, if_pos rfl, Nat.cast_one, mul_one]
        exact hacc.mul hp he (by linarith) hr
    have hnext := exp2Bits_nearPow hp g n _ _ _ _ _ (by linarith) (by positivity) hr hstep
    rwa [show j + 4 + 4 * n = j + 4 * (n + 1) by ring] at hnext

end Sys2Proof.Machine
end

section
/-! PROOFS. FEXP2 within its bound (R137, R143). -/

namespace Sys2Proof.Machine

open Sys2Proof

/-! ## The rounded lower bound -/

/-- A result that holds the magnitude with the sign is near the value. -/
theorem Fmt.near_of_holds_abs {f : Fmt} {r : FRes} {x : ℚ} {w B : ℝ} (hw : f.holds r (decide (x < 0)) w)
    (hclose : |w - (|(x : ℝ)|)| ≤ B) : f.near r x B := by
  refine Fmt.near_of_holds hw ?_
  rcases lt_or_ge x 0 with hneg | hpos
  · have hneg' : (x : ℝ) < 0 := by exact_mod_cast hneg
    rw [abs_of_neg hneg', sub_neg_eq_add] at hclose
    rwa [decide_eq_true hneg, if_pos rfl, ← abs_neg, neg_sub, sub_neg_eq_add, add_comm]
  · have hpos' : (0 : ℝ) ≤ x := by exact_mod_cast hpos
    rw [abs_of_nonneg hpos'] at hclose
    rwa [decide_eq_false hpos.not_gt, if_neg Bool.false_ne_true]

/-- A fraction of the normal range is rounded to the nearest value of its binade. -/
theorem Fmt.roundFrac_normal {f : Fmt} (h : f.Regular) {flush sat s : Bool} {x : Frac} (hx : 0 < x.den)
    (hmin : (2 : ℝ) ^ f.emin ≤ |(x.rat : ℝ)|) (hmax : |(x.rat : ℝ)| ≤ (f.read false (f.maxFinite false)).value) :
    f.near (f.roundFrac ⟨.rne, flush, sat⟩ s x) x.rat (2 ^ (Int.log 2 |(x.rat : ℝ)| - f.fw) / 2)
      ∧ ((f.roundFrac ⟨.rne, flush, sat⟩ s x).flags = 0 ∨ (f.roundFrac ⟨.rne, flush, sat⟩ s x).flags = flNX) := by
  have hne : x.rat ≠ 0 := by
    have := (two_zpow_pos _).trans_le hmin
    rwa [abs_pos, Rat.cast_ne_zero] at this
  have hround := Fmt.roundFrac_exactly h ⟨.rne, flush, sat⟩ s hx
  rw [Fmt.exactly, if_neg hne, Rat.cast_abs] at hround
  obtain ⟨w, hw, hclose, hflags⟩ := Fmt.rounds_normal h hround hmin hmax
  refine ⟨Fmt.near_of_holds_abs hw hclose, ?_⟩
  rw [hflags]
  split
  · exact .inl rfl
  · exact .inr rfl

theorem Fmt.near_trans {f : Fmt} {r : FRes} {u v B D C : ℝ} (h : f.near r u B) (huv : |u - v| ≤ D) (hBD : B + D ≤ C) :
    f.near r v C := by
  obtain ⟨hbits, hfin, hclose⟩ := h
  refine ⟨hbits, hfin, ?_⟩
  calc |((f.read false r.bits).value : ℝ) - v| ≤ |((f.read false r.bits).value : ℝ) - u| + |u - v| := abs_sub_le ..
    _ ≤ C := by linarith

/-! ## The whole part and the fraction of a source -/

theorem Frac.floor_rat (x : Frac) : x.num / (x.den : Int) = ⌊x.rat⌋ := (Rat.floor_intCast_div_natCast x.num x.den).symm

/-- What is left of a numerator below the whole part. -/
def Frac.rest (x : Frac) : Nat := (x.num - x.num / (x.den : Int) * x.den).toNat

theorem Frac.fract_rat {x : Frac} (hx : 0 < x.den) : (x.rest : ℚ) / x.den = Int.fract x.rat := by
  have hd : (x.den : ℚ) ≠ 0 := by positivity
  have hmod : x.num - x.num / (x.den : Int) * x.den = x.num % x.den := by rw [Int.emod_def, mul_comm]
  have hnonneg : 0 ≤ x.num % (x.den : Int) := Int.emod_nonneg _ (by omega)
  rw [Frac.rest, ← Int.cast_natCast (R := ℚ) (Int.toNat _), hmod, Int.toNat_of_nonneg hnonneg, ← hmod, Int.fract, ← x.floor_rat, Frac.rat]
  push_cast
  field_simp

/-- The denominator of a source of the format is a power of two that the exponents bound. -/
theorem Fmt.Finite.frac_den_dvd {f : Fmt} {s : Bool} {p n : Nat} {k : Int} (hfin : f.Finite s p n k) {j : ℕ}
    (hj : f.fw - f.emin ≤ j) : (FVal.fin s n k).frac.den ∣ 2 ^ j := by
  have hk := hfin.le_exponent
  unfold FVal.frac scalePow
  dsimp only
  split
  · exact one_dvd _
  · exact pow_dvd_pow 2 (by omega)

/-- From 64 on, a single-precision source is a multiple of 2^−17. -/
theorem fract_le_of_f32 {s : Bool} {p n : Nat} {k : Int} (hfin : f32.Finite s p n k) (hlarge : (64 : ℝ) ≤ n * 2 ^ k) :
    Int.fract (FVal.fin s n k).value ≤ 1 - 1 / 2 ^ 17 := by
  obtain ⟨N, hN⟩ := hfin.multiple (j := 6) (by norm_num at hlarge ⊢; exact hlarge)
  have hN' : (n : ℚ) * 2 ^ k = N * 2 ^ (-17 : ℤ) := Rat.cast_injective (α := ℝ) (by push_cast; exact hN)
  obtain ⟨z, hz⟩ : ∃ z : ℤ, (FVal.fin s n k).value * 2 ^ 17 = z := by
    refine ⟨(if s then -1 else 1) * N, ?_⟩
    rw [FVal.value, mul_assoc _ (n : ℚ), hN']
    push_cast
    norm_num [mul_assoc]
  generalize (FVal.fin s n k).value = v at *
  have hfract : Int.fract v * 2 ^ 17 = (z - ⌊v⌋ * 2 ^ 17 : ℤ) := by
    rw [Int.fract, sub_mul, hz]
    push_cast
    rfl
  have hlt : (z - ⌊v⌋ * 2 ^ 17 : ℤ) < 2 ^ 17 := by
    have := Int.fract_lt_one v
    have : ((z - ⌊v⌋ * 2 ^ 17 : ℤ) : ℚ) < 2 ^ 17 := by
      rw [← hfract]
      linarith
    exact_mod_cast this
  have hle : ((z - ⌊v⌋ * 2 ^ 17 : ℤ) : ℚ) ≤ 2 ^ 17 - 1 := by exact_mod_cast Int.le_sub_one_of_lt hlt
  rw [← hfract] at hle
  linarith

/-- In the last 2^−17 of a binade there is no power with such a fraction. -/
theorem rpow_fract_le {t : ℝ} (h0 : 0 ≤ t) (ht : t ≤ 1 - 1 / 2 ^ 17) : (2 : ℝ) ^ t ≤ 2 - 1 / 2 ^ 17 := by
  have h := rpow_one_add_le_one_add_mul_self (s := 1) (by norm_num) h0 (by linarith)
  rw [one_add_one_eq_two] at h
  linarith

/-! ## FEXP2 -/

/-- The fraction n · 2^w / d. -/
def powFrac (n : Nat) (w : Int) (d : Nat) : Frac := ⟨(scalePow n w).1, (scalePow n w).2 * d⟩

theorem powFrac_rat (n : Nat) (w : Int) {d : Nat} (hd : 0 < d) :
    0 < (powFrac n w d).den ∧ ((powFrac n w d).rat : ℝ) = n * 2 ^ w / d := by
  obtain ⟨hden, hratio⟩ := scalePow_ratio n w
  refine ⟨Nat.mul_pos hden hd, ?_⟩
  simp only [powFrac, Frac.rat]
  push_cast
  rw [← hratio, div_div]

/-- Two fractions hold a value of a binade, closely. -/
structure Encloses (lo hi : Frac) (y : ℝ) (w : ℤ) : Prop where
  lo_den : 0 < lo.den
  hi_den : 0 < hi.den
  binade : (2 : ℝ) ^ w ≤ lo.rat
  lo_le : (lo.rat : ℝ) ≤ y
  le_hi : y ≤ hi.rat
  close : y - lo.rat ≤ 2 ^ (w - 140)
  log_eq : Int.log 2 y = w

theorem two_rpow_eq (v : ℚ) : (2 : ℝ) ^ (v : ℝ) = 2 ^ ((Int.fract v : ℚ) : ℝ) * 2 ^ ⌊v⌋ := by
  rw [← Real.rpow_intCast, ← Real.rpow_add two_pos]
  congr 1
  exact_mod_cast (Int.fract_add_floor v).symm

/-- The binade of a power is the whole part of its exponent. -/
theorem log_two_rpow (v : ℚ) : Int.log 2 ((2 : ℝ) ^ (v : ℝ)) = ⌊v⌋ := by
  refine log_eq_of_bounds ?_ ?_ <;> rw [← Real.rpow_intCast]
  · exact Real.rpow_le_rpow_of_exponent_le one_le_two (by exact_mod_cast Int.floor_le v)
  · exact Real.rpow_lt_rpow_of_exponent_lt one_lt_two (by exact_mod_cast Int.lt_floor_add_one v)

/-- The approximation from below of the power of a source's fraction. -/
def expMantissa (x : Frac) : Nat :=
  exp2Bits 200 (x.rest * 2 ^ 160 / x.den) (rootsOfTwo 200 160 (2 * 2 ^ 200)) 160 (2 ^ 200)

/-- `Fmt.exp2` of a finite source by its whole part and fraction. -/
theorem Fmt.exp2_fin (f : Fmt) (a : Attr) (c : Nat) {x : FVal} (hx : x.isFinite = true) :
    f.exp2 a c x =
      if 128 ≤ ⌊x.value⌋ then ⟨f.inf false, flOF ||| flNX⟩
      else if ⌊x.value⌋ < -149 then ⟨0, flUF ||| flNX⟩
      else if Int.fract x.value = 0 then f.roundFrac ⟨.rne, a.flush, true⟩ false (powFrac 1 ⌊x.value⌋ 1)
      else f.within ⟨.rne, a.flush, true⟩ 2 false (powFrac (expMantissa x.frac) ⌊x.value⌋ (2 ^ 200))
        (powFrac (expMantissa x.frac + 2 ^ 60) ⌊x.value⌋ (2 ^ 200)) c := by
  have hfloor := x.frac.floor_rat
  have hfract := Frac.fract_rat x.frac_den_pos
  have hd : (x.frac.den : ℚ) ≠ 0 := by exact_mod_cast x.frac_den_pos.ne'
  rw [FVal.frac_rat] at hfloor hfract
  have hzero : x.frac.rest = 0 ↔ Int.fract x.value = 0 := by
    rw [← hfract, div_eq_zero_iff, or_iff_left hd, Nat.cast_eq_zero]
  rw [if_congr hzero.symm rfl rfl, ← hfloor]
  obtain ⟨s, n, e, rfl⟩ := FVal.eq_fin_of_isFinite hx
  rfl

section

variable {s : Bool} {p n : Nat} {k : Int} (hfin : f32.Finite s p n k)
include hfin

/-- The powers of the whole part and of the bounds hold that of the source. -/
theorem powFrac_bounds :
    let v := (FVal.fin s n k).value
    let m := expMantissa (FVal.fin s n k).frac
    2 ^ 200 ≤ m ∧ (m : ℝ) ≤ 2 ^ 200 * 2 ^ ((Int.fract v : ℚ) : ℝ)
      ∧ 2 ^ 200 * (2 : ℝ) ^ ((Int.fract v : ℚ) : ℝ) ≤ m + 2 ^ 60 := by
  intro v m
  have hfract := Frac.fract_rat (FVal.fin s n k).frac_den_pos
  rw [FVal.frac_rat] at hfract
  obtain ⟨q, hq⟩ := hfin.frac_den_dvd (j := 160) (by decide)
  have hdpos := (FVal.fin s n k).frac_den_pos
  have hm : m = exp2Bits 200 ((FVal.fin s n k).frac.rest * 2 ^ 160 / (FVal.fin s n k).frac.den) (rootsOfTwo 200 160 (2 * 2 ^ 200)) 160
      (2 ^ 200) := rfl
  generalize (FVal.fin s n k).frac.rest = rest at *
  generalize (FVal.fin s n k).frac.den = d at *
  have hG : rest * 2 ^ 160 / d = rest * q := by
    rw [hq, ← mul_assoc, mul_comm rest d, mul_assoc, Nat.mul_div_cancel_left _ hdpos]
  have hd : (d : ℚ) ≠ 0 := by positivity
  have hq' : (2 : ℚ) ^ 160 = d * q := by exact_mod_cast hq
  have hratio : ((rest * q : ℕ) : ℚ) / 2 ^ 160 = Int.fract v := by
    have hq0 : (q : ℚ) ≠ 0 := fun h0 => by simp [h0] at hq'
    rw [← hfract, hq']
    push_cast
    field_simp
  have hlt : rest * q < 2 ^ 160 := by
    have := Int.fract_lt_one v
    rw [← hratio, div_lt_one (by positivity)] at this
    exact_mod_cast this
  have h := exp2Bits_nearPow (p := 200) (by decide) (rest * q) 160 (2 * 2 ^ 200) (2 ^ 200) 0 1 0 zero_le_one le_rfl (nearPow_two _ _)
    (nearPow_one _)
  have hexp : (0 : ℝ) + 1 * ((rest * q % 2 ^ 160 : ℕ) / 2 ^ 160) = (Int.fract v : ℚ) := by
    rw [Nat.mod_eq_of_lt hlt, ← hratio]
    push_cast
    ring
  rw [hexp, ← hG, ← hm] at h
  obtain ⟨hone, hhigh, hlow⟩ := h
  refine ⟨hone, hhigh, ?_⟩
  have htwo : (2 : ℝ) ^ ((Int.fract v : ℚ) : ℝ) ≤ 2 := by
    refine (Real.rpow_le_rpow_of_exponent_le one_le_two ?_).trans_eq (Real.rpow_one 2)
    exact_mod_cast (Int.fract_lt_one v).le
  rw [show ((0 + 4 * 160 : ℕ) : ℝ) = 640 by norm_num] at hlow
  linarith

/-- The bounds of an inexact power hold it. -/
theorem exp2_encloses :
    Encloses (powFrac (expMantissa (FVal.fin s n k).frac) ⌊(FVal.fin s n k).value⌋ (2 ^ 200))
      (powFrac (expMantissa (FVal.fin s n k).frac + 2 ^ 60) ⌊(FVal.fin s n k).value⌋ (2 ^ 200))
      (2 ^ ((FVal.fin s n k).value : ℝ)) ⌊(FVal.fin s n k).value⌋ := by
  obtain ⟨hone, hlow, hhigh⟩ := powFrac_bounds hfin
  generalize expMantissa (FVal.fin s n k).frac = m at *
  have hlog := log_two_rpow (FVal.fin s n k).value
  have hv := two_rpow_eq (FVal.fin s n k).value
  generalize (FVal.fin s n k).value = v at *
  obtain ⟨hloDen, hlo⟩ := powFrac_rat m ⌊v⌋ (d := 2 ^ 200) (by positivity)
  obtain ⟨hhiDen, hhi⟩ := powFrac_rat (m + 2 ^ 60) ⌊v⌋ (d := 2 ^ 200) (by positivity)
  have hone' : (2 : ℝ) ^ 200 ≤ m := by exact_mod_cast hone
  have hP : (0 : ℝ) < 2 ^ 200 := by positivity
  have hW := two_zpow_pos ⌊v⌋
  have hsmall : (2 : ℝ) ^ (⌊v⌋ - 140) = 2 ^ ⌊v⌋ * 2 ^ 60 / 2 ^ 200 := by
    rw [zpow_sub₀ two_ne_zero]
    norm_num
    ring
  simp only [Nat.cast_pow, Nat.cast_two, Nat.cast_add] at hlo hhi
  refine ⟨hloDen, hhiDen, ?_, ?_, ?_, ?_, hlog⟩
  · rw [hlo, le_div_iff₀ hP, mul_comm]
    gcongr
  · rw [hlo, hv, div_le_iff₀ hP, mul_right_comm, mul_comm (2 ^ _ : ℝ) (2 ^ 200)]
    gcongr
  · rw [hhi, hv, le_div_iff₀ hP, mul_right_comm, mul_comm (2 ^ _ : ℝ) (2 ^ 200)]
    gcongr
  · rw [hlo, hv, hsmall, sub_le_iff_le_add, ← add_div, le_div_iff₀ hP]
    nlinarith

end

end Sys2Proof.Machine
end

section
/-! PROOFS. FEXP2 of a source that is no whole number (R137, R143). -/

namespace Sys2Proof.Machine

open Sys2Proof

theorem f32_regular : f32.Regular := Fmt.regular (by decide)

/-- Single precision's exponents. -/
theorem f32_exponents : f32.emin = -126 ∧ f32.emax = 127 ∧ (f32.fw : Int) = 23 := by decide

theorem f32_maxFinite : ((f32.read false (f32.maxFinite false)).value : ℝ) = (2 ^ 24 - 1 : ℕ) * 2 ^ (104 : ℤ) := by
  have hK : f32.topMantissa = 2 ^ 24 - 1 := by decide
  have hexp : f32.emax - f32.fw = 104 := by decide
  rw [Fmt.maxFinite_value f32_regular, hK, hexp]

/-! ## Bounds that hold a value of a binade -/

section

variable {lo hi : Frac} {y : ℝ} {w : ℤ} (h : Encloses lo hi y w)
include h

theorem Encloses.lo_pos : (0 : ℝ) < lo.rat := (two_zpow_pos w).trans_le h.binade

theorem Encloses.log_lo : Int.log 2 (lo.rat : ℝ) = w :=
  log_eq_of_bounds h.binade ((h.lo_le.trans_lt (lt_two_zpow_log y)).trans_eq (by rw [h.log_eq]))

theorem Encloses.isTiny_iff : f32.isTiny lo = true ↔ w < -126 := by
  have hnum : lo.num ≠ 0 := mt (Frac.rat_eq_zero_iff h.lo_den).2 (by exact_mod_cast h.lo_pos.ne')
  rw [f32.isTiny_iff h.lo_den hnum, abs_of_pos h.lo_pos, f32_exponents.1]
  constructor
  · exact fun hlt => (zpow_lt_zpow_iff_right₀ one_lt_two).1 (h.binade.trans_lt hlt)
  · intro hw
    have hlt := lt_two_zpow_log (lo.rat : ℝ)
    rw [h.log_lo] at hlt
    exact hlt.trans_le (two_zpow_le hw)

/-- What lies close to the lower bound lies close to the value. -/
theorem Encloses.nearUlps_of_near {r : FRes} (hnear : f32.near r lo.rat (2 ^ (max w f32.emin - f32.fw) / 2)) :
    f32.nearUlps r y 2 := by
  obtain ⟨hemin, -, hfw⟩ := f32_exponents
  refine Fmt.near_trans hnear (D := 2 ^ (w - 140)) (by rw [abs_sub_comm, abs_of_nonneg] <;> linarith [h.close, h.lo_le]) ?_
  have hD := two_zpow_le (show w - 140 ≤ max w f32.emin - f32.fw by omega)
  have hU := two_zpow_pos (max w f32.emin - f32.fw)
  rw [abs_of_pos (h.lo_pos.trans_le h.lo_le), h.log_eq]
  push_cast
  linarith

variable (flush : Bool) (c : Nat)

theorem Encloses.within_nearUlps (hbase : f32.nearUlps (f32.roundFrac ⟨.rne, flush, true⟩ false lo) y 2) :
    f32.nearUlps (f32.within ⟨.rne, flush, true⟩ 2 false lo hi c) y 2 :=
  Fmt.within_nearUlps h.lo_den h.hi_den (.inl (by exact_mod_cast h.lo_pos)) h.lo_le h.le_hi c hbase

theorem Encloses.round_lo : f32.rounds ⟨.rne, flush, true⟩ false lo.rat (f32.roundFrac ⟨.rne, flush, true⟩ false lo) := by
  have hpos : 0 < lo.rat := by exact_mod_cast h.lo_pos
  have hround := Fmt.roundFrac_exactly f32_regular ⟨.rne, flush, true⟩ false h.lo_den
  rwa [Fmt.exactly, if_neg hpos.ne', decide_eq_false hpos.not_gt, abs_of_pos hpos] at hround

/-- A normal value. -/
theorem Encloses.within_normal (hmin : -126 ≤ w) (hmax : y ≤ (f32.read false (f32.maxFinite false)).value) :
    f32.nearUlps (f32.within ⟨.rne, flush, true⟩ 2 false lo hi c) y 2
      ∧ (f32.within ⟨.rne, flush, true⟩ 2 false lo hi c).flags = flNX := by
  have hemin : f32.emin ≤ w := hmin
  obtain ⟨v, hv, hclose, hflags⟩ := Fmt.rounds_normal f32_regular (h.round_lo flush) ((two_zpow_le hemin).trans h.binade)
    (h.lo_le.trans hmax)
  rw [h.log_lo] at hclose
  constructor
  · refine h.within_nearUlps flush c (h.nearUlps_of_near (Fmt.near_of_holds hv ?_))
    rwa [if_neg Bool.false_ne_true, max_eq_left hemin]
  · have htiny : f32.isTiny lo = false := by rw [← Bool.not_eq_true, h.isTiny_iff, not_lt]; exact hmin
    rw [f32.within_flags, Fmt.withinFlags, htiny, hflags]
    split <;> rfl

/-- A tiny value. -/
theorem Encloses.within_tiny (hmin : w < -126) (hbelow : flush = true → y ≤ (2 ^ 24 - 1 : ℕ) * 2 ^ (-150 : ℤ)) :
    if flush then f32.within ⟨.rne, flush, true⟩ 2 false lo hi c = ⟨0, flUF ||| flNX⟩
    else f32.nearUlps (f32.within ⟨.rne, flush, true⟩ 2 false lo hi c) y 2
      ∧ (f32.within ⟨.rne, flush, true⟩ 2 false lo hi c).flags = flUF ||| flNX := by
  have hround := h.round_lo flush
  have htiny := h.isTiny_iff.2 hmin
  have hflags : f32.withinFlags ⟨.rne, flush, true⟩ false lo = (f32.roundFrac ⟨.rne, flush, true⟩ false lo).flags ||| (flUF ||| flNX) := by
    rw [Fmt.withinFlags, htiny, if_pos rfl]
  cases flush with
  | true =>
    have hbase := Fmt.rounds_flushed f32_regular hround rfl rfl h.lo_pos (h.lo_le.trans (hbelow rfl))
    rcases f32.within_cases ⟨.rne, true, true⟩ 2 false lo hi c with hw | ⟨-, -, -, hno, -⟩
    · rw [if_pos rfl, hw, hflags, hbase]
      rfl
    · rw [hbase] at hno
      exact absurd (hno rfl) (by decide)
  | false =>
    have hlt : (lo.rat : ℝ) < 2 ^ f32.emin := by
      have hlt := lt_two_zpow_log (lo.rat : ℝ)
      rw [h.log_lo] at hlt
      exact hlt.trans_le (two_zpow_le hmin)
    obtain ⟨hflush, -⟩ | ⟨v, hv, hclose, hbase⟩ := Fmt.rounds_tiny f32_regular hround h.lo_pos hlt
    · cases hflush
    rw [if_neg Bool.false_ne_true]
    constructor
    · refine h.within_nearUlps false c (h.nearUlps_of_near (Fmt.near_of_holds hv ?_))
      rwa [if_neg Bool.false_ne_true, max_eq_right (show w ≤ f32.emin from hmin.le)]
    · rw [f32.within_flags, hflags]
      rcases hbase with hb | hb | hb <;> rw [hb] <;> rfl

end

/-! ## FEXP2 -/

section

variable {s : Bool} {p n : Nat} {k : Int} (hfin : f32.Finite s p n k)
include hfin

/-- A power keeps away from the end of its binade when the source is at least 64. -/
theorem exp2_le_below {w : Int} (hw : ⌊(FVal.fin s n k).value⌋ = w) (hlarge : (64 : ℝ) ≤ |((FVal.fin s n k).value : ℝ)|) :
    (2 : ℝ) ^ ((FVal.fin s n k).value : ℝ) ≤ (2 ^ 24 - 1 : ℕ) * 2 ^ (w - 23) := by
  have hv := two_rpow_eq (FVal.fin s n k).value
  have hmag : |((FVal.fin s n k).value : ℝ)| = n * 2 ^ k := by
    rw [← Rat.cast_abs, FVal.abs_value, FVal.mag]
    push_cast
    rfl
  rw [hmag] at hlarge
  have hfract := fract_le_of_f32 hfin hlarge
  have hfract' : ((Int.fract (FVal.fin s n k).value : ℚ) : ℝ) ≤ 1 - 1 / 2 ^ 17 := by
    have := (Rat.cast_le (K := ℝ)).2 hfract
    push_cast at this ⊢
    exact this
  have h0 : (0 : ℝ) ≤ (Int.fract (FVal.fin s n k).value : ℚ) := by exact_mod_cast Int.fract_nonneg _
  have hpow := rpow_fract_le h0 hfract'
  rw [hv, hw]
  have hW := two_zpow_pos (w - 23)
  have hsplit : (2 : ℝ) ^ w = 2 ^ 23 * 2 ^ (w - 23) := by
    rw [← zpow_natCast, ← zpow_add₀ two_ne_zero]
    congr 1
    push_cast
    ring
  rw [hsplit, ← mul_assoc]
  gcongr
  push_cast
  norm_num at hpow ⊢
  linarith

/-- A power within the range is no more than the largest finite value. -/
theorem exp2_le_maxFinite (hhigh : ⌊(FVal.fin s n k).value⌋ < 128) :
    (2 : ℝ) ^ ((FVal.fin s n k).value : ℝ) ≤ (f32.read false (f32.maxFinite false)).value := by
  rw [f32_maxFinite]
  rcases eq_or_lt_of_le (Int.lt_add_one_iff.1 hhigh : _ ≤ (127 : ℤ)) with heq | hlt
  · have hv : (127 : ℚ) ≤ (FVal.fin s n k).value := by exact_mod_cast Int.le_floor.1 heq.ge
    have hv' : (127 : ℝ) ≤ ((FVal.fin s n k).value : ℝ) := by exact_mod_cast hv
    exact exp2_le_below hfin heq (by rw [abs_of_pos] <;> linarith)
  · have hlog := lt_two_zpow_log ((2 : ℝ) ^ ((FVal.fin s n k).value : ℝ))
    rw [log_two_rpow] at hlog
    refine (hlog.trans_le (two_zpow_le (show _ ≤ (127 : ℤ) by omega))).le.trans ?_
    norm_num

/-- FEXP2 of a source that is no whole number. -/
theorem exp2_inexact (a : Attr) (c : Nat) (hfract : Int.fract (FVal.fin s n k).value ≠ 0)
    (hlow : -149 ≤ ⌊(FVal.fin s n k).value⌋) (hhigh : ⌊(FVal.fin s n k).value⌋ < 128) :
    if a.flush ∧ ⌊(FVal.fin s n k).value⌋ < -126 then f32.exp2 a c (.fin s n k) = ⟨0, flUF ||| flNX⟩
    else f32.nearUlps (f32.exp2 a c (.fin s n k)) (2 ^ ((FVal.fin s n k).value : ℝ)) 2
      ∧ (f32.exp2 a c (.fin s n k)).flags = if ⌊(FVal.fin s n k).value⌋ < -126 then flUF ||| flNX else flNX := by
  have hencl := exp2_encloses hfin
  rw [f32.exp2_fin a c rfl, if_neg hhigh.not_ge, if_neg hlow.not_gt, if_neg hfract]
  by_cases hmin : ⌊(FVal.fin s n k).value⌋ < -126
  · have hbelow : (2 : ℝ) ^ ((FVal.fin s n k).value : ℝ) ≤ (2 ^ 24 - 1 : ℕ) * 2 ^ (-150 : ℤ) := by
      have hv : (FVal.fin s n k).value < (-126 : ℤ) := Int.floor_lt.1 hmin
      have hv' : ((FVal.fin s n k).value : ℝ) < -126 := by exact_mod_cast hv
      refine (exp2_le_below hfin rfl (by rw [abs_of_neg] <;> linarith)).trans ?_
      exact mul_le_mul_of_nonneg_left (two_zpow_le (by omega)) (Nat.cast_nonneg _)
    rw [if_pos hmin, if_congr (and_iff_left hmin) rfl rfl]
    exact hencl.within_tiny a.flush c hmin fun _ => hbelow
  · rw [if_neg hmin, if_neg fun hc => hmin hc.2]
    exact hencl.within_normal a.flush c (not_lt.1 hmin) (exp2_le_maxFinite hfin hhigh)

end

/-- FEXP2 of a whole number rounds the power once. -/
theorem exp2_whole (a : Attr) (c : Nat) {x : FVal} (hx : x.isFinite = true) {i : ℤ} (hi : x.value = i) (hlow : -149 ≤ i) (hhigh : i < 128) :
    f32.rounds ⟨.rne, a.flush, true⟩ false (2 ^ (x.value : ℝ)) (f32.exp2 a c x) := by
  obtain ⟨hden, hrat⟩ := powFrac_rat 1 i one_pos
  rw [Nat.cast_one, one_mul, div_one] at hrat
  have hpos : 0 < (powFrac 1 i 1).rat := by exact_mod_cast hrat ▸ two_zpow_pos i
  have hround := Fmt.roundFrac_exactly f32_regular ⟨.rne, a.flush, true⟩ false hden
  rw [Fmt.exactly, if_neg hpos.ne', decide_eq_false hpos.not_gt, abs_of_pos hpos, hrat] at hround
  rw [f32.exp2_fin a c hx, hi, Int.floor_intCast, Int.fract_intCast, if_neg hhigh.not_ge, if_neg hlow.not_gt, if_pos rfl,
    Rat.cast_intCast, Real.rpow_intCast]
  exact hround

/-- FEXP2 of a finite source. -/
theorem exp2_accurate (a : Attr) (c b : Nat) (hx : (f32.read a.flush b).isFinite = true) :
    let x := f32.read a.flush b
    let v : ℝ := x.value
    let r := f32.exp2 a c x
    let y : ℝ := 2 ^ v
    (128 ≤ v → r = ⟨0x7F800000, flOF ||| flNX⟩)
      ∧ (v < -149 → r = ⟨0, flUF ||| flNX⟩)
      ∧ (-149 ≤ v → v < 128 →
        ((∃ i : ℤ, x.value = i) → f32.rounds ⟨.rne, a.flush, true⟩ false y r)
        ∧ ((∀ i : ℤ, x.value ≠ i) →
          if a.flush ∧ v < -126 then r = ⟨0, flUF ||| flNX⟩
          else f32.nearUlps r y 2 ∧ r.flags = if v < -126 then flUF ||| flNX else flNX)) := by
  intro x v r y
  have hge (i : ℤ) : (i : ℝ) ≤ v ↔ i ≤ ⌊x.value⌋ := by
    rw [Int.le_floor, ← Rat.cast_le (K := ℝ), Rat.cast_intCast]
  have hlt (i : ℤ) : v < i ↔ ⌊x.value⌋ < i := by rw [← not_le, hge, not_le]
  have h128 := hge 128
  have h149 := hlt (-149)
  have h149' := hge (-149)
  have h128' := hlt 128
  have h126 := hlt (-126)
  push_cast at h128 h149 h149' h128' h126
  refine ⟨fun h => ?_, fun h => ?_, fun hlow hhigh => ⟨fun ⟨i, hi⟩ => ?_, fun hne => ?_⟩⟩
  · rw [show r = _ from f32.exp2_fin a c hx, if_pos (h128.1 h)]
    rfl
  · rw [show r = _ from f32.exp2_fin a c hx, if_neg (by have := h149.1 h; omega), if_pos (h149.1 h)]
  · have hfloor : ⌊x.value⌋ = i := by rw [hi, Int.floor_intCast]
    exact exp2_whole a c hx hi (hfloor ▸ h149'.1 hlow) (hfloor ▸ h128'.1 hhigh)
  · have hfract : Int.fract x.value ≠ 0 := fun h0 => hne ⌊x.value⌋ (by rw [← Int.floor_add_fract x.value, h0]; simp)
    have hzero : x.isZero = false := by
      rw [← Bool.not_eq_true]
      exact fun hz => hne 0 (by rw [(FVal.value_eq_zero_iff hx).2 hz, Int.cast_zero])
    obtain ⟨s, n, k, hread, -, hfin⟩ := Fmt.source_finite f32_regular hx hzero
    have hpower := exp2_inexact hfin a c (hread ▸ hfract) (hread ▸ h149'.1 hlow) (hread ▸ h128'.1 hhigh)
    rw [← hread] at hpower
    simp only [h126]
    exact hpower

end Sys2Proof.Machine
end

section
/-! PROOFS. FLOG2 (R143): binary logarithms by repeated squaring. -/

namespace Sys2Proof.Machine

open Sys2Proof

/-! ## Logarithms in fixed point -/

/-- The binary logarithm of a whole number in units of 2^−p. -/
noncomputable def fixedLog (p : ℕ) (x : ℝ) : ℝ := Real.logb 2 (x / 2 ^ p)

theorem logb_one_add_le {z : ℝ} (hz : 0 ≤ z) : Real.logb 2 (1 + z) ≤ 2 * z := by
  have hln := Real.log_two_gt_d9
  have h := Real.log_le_sub_one_of_pos (show 0 < 1 + z by linarith)
  rw [Real.logb, div_le_iff₀ (by linarith)]
  nlinarith

theorem le_logb_one_add {z : ℝ} (h0 : 0 ≤ z) (h1 : z ≤ 1) : z ≤ Real.logb 2 (1 + z) := by
  rw [Real.le_logb_iff_rpow_le one_lt_two (by linarith)]
  have h := rpow_one_add_le_one_add_mul_self (s := 1) (by norm_num) h0 h1
  rwa [one_add_one_eq_two, mul_one] at h

section

variable {p : ℕ}

/-- What rounding down takes from a logarithm. -/
theorem fixedLog_floor {x : ℝ} {z : ℕ} (hz : 2 ^ p ≤ z) (hlow : (z : ℝ) ≤ x) (hhigh : x < z + 1) :
    fixedLog p z ≤ fixedLog p x ∧ fixedLog p x ≤ fixedLog p z + 2 / 2 ^ p := by
  have hP : (0 : ℝ) < 2 ^ p := by positivity
  have hz' : (2 : ℝ) ^ p ≤ z := by exact_mod_cast hz
  have hzpos : (0 : ℝ) < z := hP.trans_le hz'
  unfold fixedLog
  refine ⟨Real.logb_le_logb_of_le one_lt_two (by positivity) (by gcongr), ?_⟩
  have hx : x / 2 ^ p ≤ z / 2 ^ p * (1 + 1 / 2 ^ p) := by
    have hone : (1 : ℝ) ≤ z / 2 ^ p := (one_le_div hP).2 hz'
    have hmul : (z : ℝ) / 2 ^ p * (1 + 1 / 2 ^ p) = (z + z / 2 ^ p) / 2 ^ p := by ring
    rw [hmul]
    gcongr
    linarith
  calc Real.logb 2 (x / 2 ^ p) ≤ Real.logb 2 (z / 2 ^ p * (1 + 1 / 2 ^ p)) :=
        Real.logb_le_logb_of_le one_lt_two (div_pos (hzpos.trans_le hlow) hP) hx
    _ = Real.logb 2 (z / 2 ^ p) + Real.logb 2 (1 + 1 / 2 ^ p) := Real.logb_mul (by positivity) (by positivity)
    _ ≤ Real.logb 2 (z / 2 ^ p) + 2 / 2 ^ p := by
      have := logb_one_add_le (z := 1 / 2 ^ p) (by positivity)
      rw [mul_one_div] at this
      gcongr

theorem fixedLog_nonneg {x : ℝ} (hx : 2 ^ p ≤ x) : 0 ≤ fixedLog p x := by
  have hP : (0 : ℝ) < 2 ^ p := by positivity
  exact Real.logb_nonneg one_lt_two (by rwa [le_div_iff₀ hP, one_mul])

theorem fixedLog_lt_one {x : ℝ} (hx : 2 ^ p ≤ x) (hx' : x < 2 * 2 ^ p) : fixedLog p x < 1 := by
  have hP : (0 : ℝ) < 2 ^ p := by positivity
  rw [fixedLog, Real.logb_lt_iff_lt_rpow one_lt_two (div_pos (hP.trans_le hx) hP), Real.rpow_one, div_lt_iff₀ hP]
  exact hx'

/-- Squaring doubles a logarithm, and halving the square takes its whole part away. -/
theorem fixedLog_sq {x : ℝ} (hx : 0 < x) (b : ℕ) : fixedLog p (x * x / (2 ^ p * 2 ^ b)) = 2 * fixedLog p x - b := by
  have hP : (2 : ℝ) ^ p ≠ 0 := by positivity
  have hb : (2 : ℝ) ^ b ≠ 0 := by positivity
  unfold fixedLog
  rw [show x * x / (2 ^ p * 2 ^ b) / 2 ^ p = x / 2 ^ p * (x / 2 ^ p) / 2 ^ b by field_simp,
    Real.logb_div (by positivity) hb, Real.logb_mul (by positivity) (by positivity), Real.logb_pow, Real.logb_self_eq_one one_lt_two]
  ring

/-- One squaring: the bit it finds and the number it leaves. -/
theorem squaring {x : ℕ} (hx : 2 ^ p ≤ x) (hx' : x < 2 * 2 ^ p) {b : ℕ} (hb : b = if 2 * 2 ^ p ≤ x * x / 2 ^ p then 1 else 0) :
    2 ^ p ≤ x * x / (2 ^ p * 2 ^ b) ∧ x * x / (2 ^ p * 2 ^ b) < 2 * 2 ^ p
      ∧ fixedLog p (x * x / (2 ^ p * 2 ^ b) : ℕ) ≤ 2 * fixedLog p x - b
      ∧ 2 * fixedLog p x - b ≤ fixedLog p (x * x / (2 ^ p * 2 ^ b) : ℕ) + 2 / 2 ^ p := by
  have hpos : 0 < 2 ^ p := Nat.two_pow_pos p
  have hrange : 2 ^ p ≤ x * x / (2 ^ p * 2 ^ b) ∧ x * x / (2 ^ p * 2 ^ b) < 2 * 2 ^ p := by
    have hsq : 2 ^ p ≤ x * x / 2 ^ p := (Nat.le_div_iff_mul_le hpos).2 (Nat.mul_le_mul hx hx)
    have hsq' : x * x / 2 ^ p < 4 * 2 ^ p := by
      rw [Nat.div_lt_iff_lt_mul hpos]
      calc x * x < 2 * 2 ^ p * (2 * 2 ^ p) := Nat.mul_lt_mul'' hx' hx'
        _ = 4 * 2 ^ p * 2 ^ p := by ring
    rw [hb, ← Nat.div_div_eq_div_mul]
    split <;> omega
  have hdiv := natCast_div_eq_add (x * x) (show 0 < 2 ^ p * 2 ^ b by positivity)
  have hden : (0 : ℝ) < (2 ^ p * 2 ^ b : ℕ) := by positivity
  have hrest : ((x * x % (2 ^ p * 2 ^ b) : ℕ) : ℝ) / (2 ^ p * 2 ^ b : ℕ) < 1 :=
    (div_lt_one hden).2 (by exact_mod_cast Nat.mod_lt _ (by positivity))
  have hrest' : 0 ≤ ((x * x % (2 ^ p * 2 ^ b) : ℕ) : ℝ) / (2 ^ p * 2 ^ b : ℕ) := by positivity
  obtain ⟨hlow, hhigh⟩ := fixedLog_floor hrange.1 (x := ((x * x : ℕ) : ℝ) / (2 ^ p * 2 ^ b : ℕ)) (by linarith) (by linarith)
  have hxpos : (0 : ℝ) < x := by exact_mod_cast hpos.trans_le hx
  have hlog := fixedLog_sq (p := p) hxpos b
  push_cast at hlow hhigh
  rw [hlog] at hlow hhigh
  exact ⟨hrange.1, hrange.2, hlow, hhigh⟩

/-- The bits are those of the logarithm, short by what the squarings lose. -/
theorem log2Bits_bounds : ∀ (n x acc : ℕ), 2 ^ p ≤ x → x < 2 * 2 ^ p → ∃ m : ℕ, log2Bits p n x acc = acc * 2 ^ n + m
    ∧ (m : ℝ) ≤ 2 ^ n * fixedLog p x ∧ 2 ^ n * fixedLog p x ≤ m + 1 + (2 ^ n - 1) * (2 / 2 ^ p)
  | 0, x, acc, hx, hx' => by
    have h0 : 0 ≤ fixedLog p x := fixedLog_nonneg (by exact_mod_cast hx)
    have h1 : fixedLog p x < 1 := fixedLog_lt_one (by exact_mod_cast hx) (by exact_mod_cast hx')
    exact ⟨0, by simp [log2Bits], by simpa using h0, by simpa using h1.le⟩
  | n + 1, x, acc, hx, hx' => by
    obtain ⟨b, hb⟩ : ∃ b, b = if 2 * 2 ^ p ≤ x * x / 2 ^ p then 1 else 0 := ⟨_, rfl⟩
    obtain ⟨hz, hz', hlow, hhigh⟩ := squaring hx hx' hb
    obtain ⟨m, hm, hmLow, hmHigh⟩ := log2Bits_bounds n _ (2 * acc + b) hz hz'
    refine ⟨b * 2 ^ n + m, ?_, ?_, ?_⟩
    · have hstep : log2Bits p (n + 1) x acc = log2Bits p n (x * x / (2 ^ p * 2 ^ b)) (2 * acc + b) := by
        rw [hb]
        unfold log2Bits
        dsimp only
        split
        · rw [pow_one, Nat.div_div_eq_div_mul]
          cases n <;> rfl
        · rw [pow_zero, mul_one, add_zero]
          cases n <;> rfl
      rw [hstep, hm]
      ring
    · have := mul_le_mul_of_nonneg_left hlow (show (0 : ℝ) ≤ 2 ^ n by positivity)
      push_cast
      rw [pow_succ]
      linarith
    · have := mul_le_mul_of_nonneg_left hhigh (show (0 : ℝ) ≤ 2 ^ n by positivity)
      push_cast
      rw [pow_succ]
      linarith

end

end Sys2Proof.Machine
end

section
/-! PROOFS. FLOG2 within its bound (R143). -/

namespace Sys2Proof.Machine

open Sys2Proof

/-! ## Exact logarithms -/

/-- A whole number of few bits is rounded to itself. -/
theorem rounds_whole {flush sat s : Bool} {N : ℕ} (hN : 0 < N) (hN' : N < 2 ^ 24) {r : FRes}
    (hr : f32.rounds ⟨.rne, flush, sat⟩ s N r) : f32.holds r s N ∧ r.flags = 0 := by
  have hN1 : (1 : ℝ) ≤ N := by exact_mod_cast hN
  have hN2 : (N : ℝ) < 2 ^ (24 : ℤ) := by exact_mod_cast hN'
  have hpos : (0 : ℝ) < N := by linarith
  have hmax : (N : ℝ) ≤ (f32.read false (f32.maxFinite false)).value := by
    rw [f32_maxFinite]
    refine hN2.le.trans ?_
    norm_num
  have hmin : (2 : ℝ) ^ f32.emin ≤ N := (two_zpow_le (show f32.emin ≤ 0 by decide)).trans (by simpa using hN1)
  obtain ⟨m, t, hm, -, hr⟩ := Fmt.rounds_no_overflow f32_regular hr hpos hmax
  have hlog := log_lt_of_lt_two_zpow hpos hN2
  have hfw := f32_exponents.2.2
  have hexact : (m : ℝ) * 2 ^ (Int.log 2 (N : ℝ) - f32.fw) = N := by
    have hm' : RMode.rne.takes s ((N : ℝ) * 2 ^ (0 : ℤ) / 2 ^ (Int.log 2 (N : ℝ) - f32.fw)) m := by simpa using hm
    simpa using RMode.takes_multiple (by omega) hm'
  rw [hexact, if_neg hmin.not_gt, if_pos rfl] at hr
  exact hr

/-- A whole logarithm is exact. -/
theorem roundFrac_ofInt (flush : Bool) {i : ℤ} (hi : |i| < 2 ^ 24) :
    f32.near (f32.roundFrac ⟨.rne, flush, true⟩ false (Frac.ofInt i)) i 0
      ∧ (f32.roundFrac ⟨.rne, flush, true⟩ false (Frac.ofInt i)).flags = 0 := by
  have hrat : (Frac.ofInt i).rat = i := by simp [Frac.ofInt, Frac.rat]
  have hround := Fmt.roundFrac_exactly f32_regular ⟨.rne, flush, true⟩ false (x := Frac.ofInt i) one_pos
  rw [hrat, Fmt.exactly] at hround
  generalize f32.roundFrac ⟨.rne, flush, true⟩ false (Frac.ofInt i) = r at *
  by_cases h0 : i = 0
  · rw [if_pos (by exact_mod_cast h0)] at hround
    have hzero := Fmt.holds_subnormal f32_regular false 0 (t := 0) (Nat.zero_le _)
    rw [hround, h0]
    refine ⟨Fmt.near_of_holds hzero (by simp), rfl⟩
  · rw [if_neg (by exact_mod_cast h0)] at hround
    have habs : ((|(i : ℚ)| : ℚ) : ℝ) = (i.natAbs : ℕ) := by
      rw [Nat.cast_natAbs]
      push_cast
      rfl
    rw [habs] at hround
    obtain ⟨hr, hflags⟩ := rounds_whole (Int.natAbs_pos.2 h0) (by rw [Int.abs_eq_natAbs] at hi; exact_mod_cast hi) hround
    refine ⟨Fmt.near_of_holds hr ?_, hflags⟩
    rw [Nat.cast_natAbs]
    push_cast
    rcases lt_or_gt_of_ne h0 with hneg | hpos
    · have hneg' : (i : ℚ) < 0 := by exact_mod_cast hneg
      have hneg'' : (i : ℝ) < 0 := by exact_mod_cast hneg
      simp [hneg', abs_of_neg hneg'']
    · have hpos' : ¬(i : ℚ) < 0 := by exact_mod_cast hpos.not_gt
      have hpos'' : (0 : ℝ) < i := by exact_mod_cast hpos
      simp [hpos', abs_of_pos hpos'']

/-! ## The bounds of an inexact logarithm -/

/-- e + m / 2^96. -/
def logFrac (e m : Int) : Frac := (Frac.ofInt e).add ⟨m, 2 ^ 96⟩

theorem logFrac_rat (e m : Int) : 0 < (logFrac e m).den ∧ ((logFrac e m).rat : ℝ) = e + m / 2 ^ 96 := by
  obtain ⟨hden, hrat⟩ := Frac.rat_add (x := Frac.ofInt e) (y := ⟨m, 2 ^ 96⟩) one_pos (Nat.two_pow_pos 96)
  refine ⟨hden, ?_⟩
  rw [logFrac, hrat]
  simp only [Frac.ofInt, Frac.rat]
  push_cast
  rw [div_one]
  norm_num

/-- A result within two units of a logarithm that two bounds hold closely, away from 0. -/
theorem within_log {e m : Int} {y : ℝ} (s flush : Bool) (c : Nat) (hlow : e + (m : ℝ) / 2 ^ 96 ≤ y)
    (hhigh : y ≤ e + (m + 2 : ℝ) / 2 ^ 96) (hy : (2 : ℝ) ^ (-24 : ℤ) ≤ |y|) (hbig : |y| ≤ 2 ^ 8) :
    f32.nearUlps (f32.within ⟨.rne, flush, true⟩ 2 s (logFrac e m) (logFrac e (m + 2)) c) y 2
      ∧ (f32.within ⟨.rne, flush, true⟩ 2 s (logFrac e m) (logFrac e (m + 2)) c).flags = flNX := by
  obtain ⟨hemin, -, hfw⟩ := f32_exponents
  obtain ⟨hloDen, hlo⟩ := logFrac_rat e m
  obtain ⟨hhiDen, hhi⟩ := logFrac_rat e (m + 2)
  push_cast at hhi
  rw [← hlo] at hlow
  rw [← hhi] at hhigh
  have hwidth : ((logFrac e (m + 2)).rat : ℝ) - (logFrac e m).rat = 2 ^ (-95 : ℤ) := by
    rw [hlo, hhi]
    norm_num
    ring
  generalize logFrac e m = lo at *
  generalize logFrac e (m + 2) = hi at *
  have htiny : (2 : ℝ) ^ (-95 : ℤ) ≤ 2 ^ (-25 : ℤ) := two_zpow_le (by decide)
  have hhalf : (2 : ℝ) ^ (-24 : ℤ) = 2 * 2 ^ (-25 : ℤ) := by norm_num
  have hsign : 0 < lo.rat ∨ hi.rat < 0 := by
    rcases le_total 0 y with h0 | h0
    · rw [abs_of_nonneg h0] at hy
      have : (0 : ℝ) < lo.rat := by linarith [two_zpow_pos (-25)]
      exact .inl (by exact_mod_cast this)
    · rw [abs_of_nonpos h0] at hy
      have : (hi.rat : ℝ) < 0 := by linarith [two_zpow_pos (-25)]
      exact .inr (by exact_mod_cast this)
  have hdist : |(lo.rat : ℝ) - y| ≤ 2 ^ (-95 : ℤ) := abs_le.2 ⟨by linarith, by linarith [two_zpow_pos (-95)]⟩
  have hloHigh : |(lo.rat : ℝ)| ≤ |y| + 2 ^ (-95 : ℤ) := by linarith [abs_sub_abs_le_abs_sub (lo.rat : ℝ) y]
  have hloLow : (2 : ℝ) ^ (-25 : ℤ) ≤ |(lo.rat : ℝ)| := by
    linarith [abs_sub_abs_le_abs_sub y (lo.rat : ℝ), abs_sub_comm y (lo.rat : ℝ)]
  have hlogY : -24 ≤ Int.log 2 |y| := le_log_of_two_zpow_le hy
  have hlogLo : Int.log 2 |(lo.rat : ℝ)| < Int.log 2 |y| + 1 + 1 := by
    refine log_lt_of_lt_two_zpow ((two_zpow_pos _).trans_le hloLow) ?_
    rw [two_zpow_succ]
    linarith [lt_two_zpow_log |y|, two_zpow_pos (-25)]
  have hmax : |(lo.rat : ℝ)| ≤ (f32.read false (f32.maxFinite false)).value := by
    rw [f32_maxFinite]
    norm_num at hloHigh hbig ⊢
    linarith
  have hmin : (2 : ℝ) ^ f32.emin ≤ |(lo.rat : ℝ)| := (two_zpow_le (by omega)).trans hloLow
  obtain ⟨hnear, hflags⟩ := Fmt.roundFrac_normal f32_regular (flush := flush) (sat := true) (s := s) hloDen hmin hmax
  constructor
  · refine Fmt.within_nearUlps hloDen hhiDen hsign hlow hhigh c (Fmt.near_trans hnear hdist ?_)
    rw [max_eq_left (by omega), hfw]
    have hD := two_zpow_le (show (-95 : ℤ) ≤ Int.log 2 |y| - 23 by omega)
    have hU := two_zpow_le (show Int.log 2 |(lo.rat : ℝ)| - 23 ≤ Int.log 2 |y| - 23 + 1 by omega)
    rw [two_zpow_succ] at hU
    push_cast
    linarith
  · have hnum : lo.num ≠ 0 := by
      refine mt (Frac.rat_eq_zero_iff hloDen).2 fun h0 => ?_
      rw [h0] at hloLow
      norm_num at hloLow
    have hnotTiny : f32.isTiny lo = false := by rwa [← Bool.not_eq_true, f32.isTiny_iff hloDen hnum, not_lt]
    rw [f32.within_flags, Fmt.withinFlags, hnotTiny]
    rcases hflags with h | h <;> rw [h] <;> rfl

/-! ## FLOG2 -/

/-- The bits of a fraction's logarithm below its whole part. -/
def logMantissa (num den : Nat) : Nat :=
  log2Bits 220 96 ((shiftBy num den (binExp num den)).1 * 2 ^ 220 / (shiftBy num den (binExp num den)).2) 0

theorem Fmt.log2_fin (f : Fmt) (a : Attr) (c : Nat) {x : FVal} (hx : x.isFinite = true) (hzero : x.isZero = false)
    (hsign : x.sign = false) :
    let num := x.frac.num.natAbs
    let den := x.frac.den
    let e := binExp num den
    f.log2 a c x =
      if (shiftBy num den e).1 = (shiftBy num den e).2 then f.roundFrac ⟨.rne, a.flush, true⟩ false (Frac.ofInt e)
      else f.within ⟨.rne, a.flush, true⟩ 2 ((logFrac e (logMantissa num den)).num < 0) (logFrac e (logMantissa num den))
        (logFrac e (logMantissa num den + 2)) c := by
  obtain ⟨s, n, k, rfl⟩ := FVal.eq_fin_of_isFinite hx
  have hn : n ≠ 0 := by
    rintro rfl
    cases hzero
  unfold Fmt.log2
  dsimp only
  rw [if_neg hn, if_neg (by simpa [FVal.sign] using hsign)]
  rfl

section

variable {num den : ℕ} (hnum : 0 < num) (hden : 0 < den)
include hnum hden

/-- The significand that `Fmt.log2` takes the logarithm of. -/
theorem significand_bounds :
    let v : ℝ := (num : ℝ) / den
    let sh := shiftBy num den (binExp num den)
    0 < sh.2 ∧ (sh.1 : ℝ) / sh.2 = v / 2 ^ Int.log 2 v ∧ 1 ≤ (sh.1 : ℝ) / sh.2 ∧ (sh.1 : ℝ) / sh.2 < 2 := by
  intro v sh
  have hv : 0 < v := by positivity
  obtain ⟨hpos, hratio⟩ := shiftBy_ratio num hden (binExp num den)
  rw [binExp_eq_log hnum hden] at hpos hratio
  have hlow := two_zpow_log_le hv
  have hhigh := lt_two_zpow_log v
  rw [two_zpow_succ] at hhigh
  have hsh : sh = shiftBy num den (Int.log 2 v) := by rw [← binExp_eq_log hnum hden]
  rw [hsh]
  refine ⟨hpos, hratio, ?_, ?_⟩ <;> rw [hratio]
  · rwa [le_div_iff₀ (two_zpow_pos _), one_mul]
  · rwa [div_lt_iff₀ (two_zpow_pos _)]

/-- The bits hold the logarithm of the significand. -/
theorem logMantissa_bounds :
    let v : ℝ := (num : ℝ) / den
    (logMantissa num den : ℝ) / 2 ^ 96 ≤ Real.logb 2 (v / 2 ^ Int.log 2 v)
      ∧ Real.logb 2 (v / 2 ^ Int.log 2 v) ≤ (logMantissa num den + 2 : ℝ) / 2 ^ 96 := by
  intro v
  obtain ⟨hpos, hratio, hone, htwo⟩ := significand_bounds hnum hden
  rw [← show _ = v / 2 ^ Int.log 2 v from hratio]
  unfold logMantissa
  generalize shiftBy num den (binExp num den) = sh at *
  have hdiv := natCast_div_eq_add (sh.1 * 2 ^ 220) hpos
  have hsh : (0 : ℝ) < sh.2 := by exact_mod_cast hpos
  have hrest : ((sh.1 * 2 ^ 220 % sh.2 : ℕ) : ℝ) / sh.2 < 1 := (div_lt_one hsh).2 (by exact_mod_cast Nat.mod_lt _ hpos)
  have hrest' : 0 ≤ ((sh.1 * 2 ^ 220 % sh.2 : ℕ) : ℝ) / sh.2 := by positivity
  rw [Nat.cast_mul, Nat.cast_pow, Nat.cast_two, mul_div_right_comm] at hdiv
  generalize sh.1 * 2 ^ 220 % sh.2 = R at *
  rw [one_le_div hsh] at hone
  rw [div_lt_iff₀ hsh] at htwo
  have hx : 2 ^ 220 ≤ sh.1 * 2 ^ 220 / sh.2 := by
    rw [Nat.le_div_iff_mul_le hpos, mul_comm]
    exact Nat.mul_le_mul_right _ (by exact_mod_cast hone)
  have hx' : sh.1 * 2 ^ 220 / sh.2 < 2 * 2 ^ 220 := by
    rw [Nat.div_lt_iff_lt_mul hpos, mul_right_comm]
    exact Nat.mul_lt_mul_of_pos_right (by exact_mod_cast htwo) (Nat.two_pow_pos _)
  obtain ⟨m, hm, hlow, hhigh⟩ := log2Bits_bounds 96 _ 0 hx hx'
  obtain ⟨hfloor, hfloor'⟩ := fixedLog_floor hx (x := (sh.1 : ℝ) / sh.2 * 2 ^ 220) (by linarith) (by linarith)
  have hlog : fixedLog 220 ((sh.1 : ℝ) / sh.2 * 2 ^ 220) = Real.logb 2 (sh.1 / sh.2) := by
    rw [fixedLog, mul_div_cancel_right₀ _ (by positivity)]
  rw [hlog] at hfloor hfloor'
  rw [hm, zero_mul, zero_add, div_le_iff₀ (by positivity), le_div_iff₀ (by positivity)]
  generalize fixedLog 220 _ = L at *
  norm_num at hlow hhigh hfloor hfloor' ⊢
  constructor <;> linarith

end

/-- A significand of single precision that is not 1 has a logarithm away from 0 and from 1. -/
theorem logb_significand {N : ℕ} (hone : (1 : ℝ) < N * 2 ^ (-23 : ℤ)) (htwo : (N : ℝ) * 2 ^ (-23 : ℤ) < 2) :
    (2 : ℝ) ^ (-24 : ℤ) ≤ Real.logb 2 (N * 2 ^ (-23 : ℤ)) ∧ Real.logb 2 (N * 2 ^ (-23 : ℤ)) ≤ 1 - 2 ^ (-24 : ℤ) := by
  have hscale : (2 : ℝ) ^ (-23 : ℤ) = 1 / 2 ^ 23 := by norm_num
  have hscale' : (2 : ℝ) ^ (-24 : ℤ) = 1 / 2 ^ 24 := by norm_num
  rw [hscale] at hone htwo ⊢
  rw [hscale']
  have hlow : (2 : ℝ) ^ 23 + 1 ≤ N := by
    have : (2 : ℝ) ^ 23 < N := by linarith
    have : 2 ^ 23 < N := by exact_mod_cast this
    exact_mod_cast this
  have hhigh : (N : ℝ) ≤ 2 ^ 24 - 1 := by
    have : (N : ℝ) < 2 ^ 24 := by linarith
    have : N < 2 ^ 24 := by exact_mod_cast this
    have : ((N + 1 : ℕ) : ℝ) ≤ 2 ^ 24 := by exact_mod_cast this
    push_cast at this
    linarith
  have hpos : (0 : ℝ) < N * (1 / 2 ^ 23) := by linarith
  constructor
  · calc (1 : ℝ) / 2 ^ 24 ≤ Real.logb 2 (1 + 1 / 2 ^ 24) := le_logb_one_add (by norm_num) (by norm_num)
      _ ≤ Real.logb 2 (N * (1 / 2 ^ 23)) := Real.logb_le_logb_of_le one_lt_two (by norm_num) (by linarith)
  · have hgap := le_logb_one_add (z := 1 / 2 ^ 24) (by norm_num) (by norm_num)
    have hsum : Real.logb 2 (N * (1 / 2 ^ 23)) + Real.logb 2 (1 + 1 / 2 ^ 24) ≤ 1 := by
      rw [← Real.logb_mul hpos.ne' (by norm_num), Real.logb_le_iff_le_rpow one_lt_two (by positivity), Real.rpow_one]
      linarith
    linarith

/-- What FLOG2 of a value above 0 is: exact at a power of two, else within bounds that hold the logarithm. -/
theorem Fmt.log2_cases (f : Fmt) (a : Attr) (c : Nat) {x : FVal} (hx : x.isFinite = true) (hzero : x.isZero = false)
    (hsign : x.sign = false) {v : ℝ} (hv : v = x.value) :
    (v = 2 ^ Int.log 2 v → f.log2 a c x = f.roundFrac ⟨.rne, a.flush, true⟩ false (Frac.ofInt (Int.log 2 v)))
      ∧ (v ≠ 2 ^ Int.log 2 v → ∃ (s : Bool) (m : ℕ),
        f.log2 a c x = f.within ⟨.rne, a.flush, true⟩ 2 s (logFrac (Int.log 2 v) m) (logFrac (Int.log 2 v) (m + 2)) c
        ∧ (m : ℝ) / 2 ^ 96 ≤ Real.logb 2 (v / 2 ^ Int.log 2 v) ∧ Real.logb 2 (v / 2 ^ Int.log 2 v) ≤ (m + 2 : ℝ) / 2 ^ 96) := by
  obtain ⟨hnum, hvalue⟩ := FVal.frac_of_pos hx hzero hsign
  have hlog2 := f.log2_fin a c hx hzero hsign
  have hden := x.frac_den_pos
  obtain ⟨hshDen, hsh, -, -⟩ := significand_bounds hnum hden
  have hbounds := logMantissa_bounds hnum hden
  have hbin := binExp_eq_log hnum hden
  dsimp only at hlog2 hsh hbounds hshDen
  rw [hbin] at hlog2 hshDen hsh
  rw [← hvalue, ← hv] at hlog2 hshDen hsh hbounds
  have hequal : (shiftBy x.frac.num.natAbs x.frac.den (Int.log 2 v)).1 = (shiftBy x.frac.num.natAbs x.frac.den (Int.log 2 v)).2
      ↔ v = 2 ^ Int.log 2 v := by
    rw [← div_eq_one_iff_eq (two_zpow_pos _).ne', ← hsh, div_eq_one_iff_eq (by exact_mod_cast hshDen.ne'), Nat.cast_inj]
  rw [if_congr hequal rfl rfl] at hlog2
  refine ⟨fun h => ?_, fun h => ⟨_, _, hlog2.trans (if_neg h), hbounds⟩⟩
  rw [hlog2, if_pos h]

/-- FLOG2 of a source above 0. -/
theorem log2_accurate (a : Attr) (c b : Nat) (hx : (f32.read a.flush b).isFinite = true)
    (hzero : (f32.read a.flush b).isZero = false) (hsign : (f32.read a.flush b).sign = false) :
    let v : ℝ := (f32.read a.flush b).value
    let r := f32.log2 a c (f32.read a.flush b)
    let y : ℝ := Real.logb 2 v
    (∀ i : ℤ, v = 2 ^ i → f32.near r i 0 ∧ r.flags = 0) ∧ ((∀ i : ℤ, v ≠ 2 ^ i) → f32.nearUlps r y 2 ∧ r.flags = flNX) := by
  intro v r y
  obtain ⟨s, n, k, hread, hn, hfin⟩ := Fmt.source_finite f32_regular hx hzero
  have hmag : v = n * 2 ^ k := FVal.value_of_sign_false hsign hread
  have hbottom := hfin.two_zpow_le_mag hn
  have htop := hfin.lt_two_zpow f32_regular
  obtain ⟨hpower, hother⟩ := f32.log2_cases a c hx hzero hsign (v := v) rfl
  rw [← hmag] at hbottom htop
  have hvpos : 0 < v := (two_zpow_pos _).trans_le hbottom
  have hlogLow : -149 ≤ Int.log 2 v := le_log_of_two_zpow_le hbottom
  have hlogHigh : Int.log 2 v < 128 := log_lt_of_lt_two_zpow hvpos htop
  constructor
  · intro i hi
    have hlog : Int.log 2 v = i := log_eq_of_bounds hi.ge (by rw [hi, two_zpow_succ]; linarith [two_zpow_pos i])
    rw [hlog] at hpower hlogLow hlogHigh
    rw [show r = _ from hpower hi]
    exact roundFrac_ofInt a.flush (abs_lt.2 ⟨by omega, by omega⟩)
  · intro hne
    obtain ⟨s', m, hr, hmLow, hmHigh⟩ := hother (hne _)
    have hlow := two_zpow_log_le hvpos
    have hhigh := lt_two_zpow_log v
    have hy : y = Int.log 2 v + Real.logb 2 (v / 2 ^ Int.log 2 v) := by
      rw [Real.logb_div hvpos.ne' (two_zpow_pos _).ne', ← Real.rpow_intCast,
        Real.logb_rpow two_pos one_lt_two.ne']
      ring
    obtain ⟨N, hN⟩ := hfin.multiple (j := Int.log 2 v) (hmag ▸ hlow)
    have hsig : v / 2 ^ Int.log 2 v = N * 2 ^ (-23 : ℤ) := by
      rw [← hmag] at hN
      generalize Int.log 2 v = e at hN ⊢
      rw [div_eq_iff (two_zpow_pos _).ne', mul_assoc, ← zpow_add₀ two_ne_zero, hN, f32_exponents.2.2]
      congr 2
      ring
    have hone : 1 < v / 2 ^ Int.log 2 v := by
      rw [one_lt_div (two_zpow_pos _)]
      exact lt_of_le_of_ne hlow (hne _).symm
    have htwo : v / 2 ^ Int.log 2 v < 2 := by rwa [div_lt_iff₀ (two_zpow_pos _), ← two_zpow_succ]
    rw [hsig] at hone htwo hmLow hmHigh hy
    obtain ⟨hawayLow, hawayHigh⟩ := logb_significand hone htwo
    generalize Real.logb 2 (N * 2 ^ (-23 : ℤ)) = L at *
    have hcastLow : (-149 : ℝ) ≤ Int.log 2 v := by exact_mod_cast hlogLow
    have hcastHigh : ((Int.log 2 v : ℤ) : ℝ) ≤ 127 := by exact_mod_cast Int.lt_add_one_iff.1 hlogHigh
    have hgap : (0 : ℝ) < 2 ^ (-24 : ℤ) := two_zpow_pos _
    rw [show r = _ from hr]
    refine within_log s' a.flush c (by push_cast; linarith) (by push_cast; linarith) ?_ (abs_le.2 ⟨by linarith, by linarith⟩)
    rcases le_or_gt 0 (Int.log 2 v) with hpos | hneg
    · have hpos' : (0 : ℝ) ≤ Int.log 2 v := by exact_mod_cast hpos
      exact le_trans (by linarith) (le_abs_self y)
    · have hneg' : ((Int.log 2 v : ℤ) : ℝ) ≤ -1 := by exact_mod_cast Int.le_sub_one_of_lt hneg
      exact le_trans (by linarith) (neg_le_abs y)

end Sys2Proof.Machine
end

section
/-! PROOFS. π and the series of the sine and the cosine in fixed point (R143). -/

namespace Sys2Proof.Machine

open Sys2Proof

/-- A truncated alternating series is off by at most its next term. -/
theorem alternating_error {f : ℕ → ℝ} (hf : Antitone f) (h0 : ∀ n, 0 ≤ f n) {l : ℝ} (h : HasSum (fun n => (-1) ^ n * f n) l) (n : ℕ) :
    |l - ∑ i ∈ Finset.range n, (-1) ^ i * f i| ≤ f n := by
  have hsum : Summable f := by
    refine (summable_abs_iff.2 h.summable).congr fun i => ?_
    rw [abs_mul, abs_neg_one_pow, one_mul, abs_of_nonneg (h0 i)]
  rw [← h.tsum_eq]
  exact alternating_series_error_bound f hf hsum n

/-! ## π (Machin's formula) -/

/-- The first terms of the arctangent's series. -/
def arctanSum (x : ℚ) (n : ℕ) : ℚ := ∑ i ∈ Finset.range n, (-1) ^ i * (x ^ (2 * i + 1) / ((2 * i + 1 : ℕ) : ℚ))

theorem arctanSum_close {x : ℚ} (h0 : 0 ≤ x) (h1 : x < 1) (n : ℕ) :
    |Real.arctan x - arctanSum x n| ≤ ((x ^ (2 * n + 1) / ((2 * n + 1 : ℕ) : ℚ) : ℚ) : ℝ) := by
  have h0' : (0 : ℝ) ≤ x := by exact_mod_cast h0
  have h1' : (x : ℝ) < 1 := by exact_mod_cast h1
  have hanti : Antitone fun i : ℕ => (x : ℝ) ^ (2 * i + 1) / ((2 * i + 1 : ℕ) : ℝ) := by
    refine antitone_nat_of_succ_le fun i => ?_
    have hpow : (x : ℝ) ^ (2 * (i + 1) + 1) ≤ x ^ (2 * i + 1) := pow_le_pow_of_le_one h0' h1'.le (by omega)
    gcongr
    omega
  have hsum := Real.hasSum_arctan (x := x) (by rwa [Real.norm_of_nonneg h0'])
  simp only [mul_div_assoc] at hsum
  have h := alternating_error hanti (fun i => by positivity) hsum n
  unfold arctanSum
  push_cast at h ⊢
  exact h

theorem machin_sum_close : |4 * (4 * arctanSum (1 / 5) 44 - arctanSum (1 / 239) 13) * 2 ^ 200 - piFixed| ≤ 1 / 2 := by
  decide +kernel

/-- `piFixed` is π in units of 2^−200. -/
theorem piFixed_close : |(piFixed : ℝ) - Real.pi * 2 ^ 200| ≤ 1 := by
  have h5 := arctanSum_close (x := 1 / 5) (by norm_num) (by norm_num) 44
  have h239 := arctanSum_close (x := 1 / 239) (by norm_num) (by norm_num) 13
  have hmachin := Real.four_mul_arctan_inv_5_sub_arctan_inv_239
  have hsum : |(4 * (4 * (arctanSum (1 / 5) 44 : ℝ) - arctanSum (1 / 239) 13) * 2 ^ 200 - piFixed)| ≤ 1 / 2 := by
    have := (Rat.cast_le (K := ℝ)).2 machin_sum_close
    push_cast at this
    exact this
  push_cast at h5 h239
  rw [inv_eq_one_div, inv_eq_one_div] at hmachin
  generalize (arctanSum (1 / 5) 44 : ℝ) = S at *
  generalize (arctanSum (1 / 239) 13 : ℝ) = T at *
  norm_num only at h5 h239
  rw [abs_le] at *
  constructor <;> linarith

/-! ## The series of the sine and the cosine -/

/-- The term of index `k` of the series of the sine (`d` = 1) or the cosine (`d` = 0). -/
noncomputable def seriesTerm (x : ℝ) (d k : ℕ) : ℝ := (-1) ^ k * (x ^ (2 * k + d) / ((2 * k + d).factorial : ℝ))

theorem seriesTerm_succ (x : ℝ) (d k : ℕ) :
    seriesTerm x d (k + 1) = -(seriesTerm x d k * x ^ 2) / ((2 * k + d + 1) * (2 * k + d + 2) : ℕ) := by
  have hfact : (2 * (k + 1) + d).factorial = (2 * k + d + 1) * (2 * k + d + 2) * (2 * k + d).factorial := by
    rw [show 2 * (k + 1) + d = 2 * k + d + 1 + 1 by ring, Nat.factorial_succ, Nat.factorial_succ]
    ring
  have h0 : ((2 * k + d).factorial : ℝ) ≠ 0 := by positivity
  have h1 : (((2 * k + d + 1) * (2 * k + d + 2) : ℕ) : ℝ) ≠ 0 := by positivity
  unfold seriesTerm
  rw [hfact, Nat.cast_mul, pow_succ]
  field_simp
  ring

theorem abs_seriesTerm_le {x : ℝ} (hx : |x| ≤ 1) (d k : ℕ) : |seriesTerm x d k| ≤ 1 := by
  have hfact : (1 : ℝ) ≤ ((2 * k + d).factorial : ℝ) := by exact_mod_cast Nat.one_le_iff_ne_zero.2 (Nat.factorial_ne_zero _)
  rw [seriesTerm, abs_mul, abs_neg_one_pow, one_mul, abs_div, abs_pow, Nat.abs_cast]
  exact div_le_one_of_le₀ ((pow_le_one₀ (abs_nonneg x) hx).trans hfact) (by positivity)

/-- For an argument up to 1 the sum of 25 terms is off by less than a unit. -/
theorem series_close {x l : ℝ} (h0 : 0 ≤ x) (h1 : x ≤ 1) {d : ℕ} (h : HasSum (seriesTerm x d) l) :
    |l - ∑ k ∈ Finset.range 25, seriesTerm x d k| ≤ 1 / 2 ^ 200 := by
  have hanti : Antitone fun k : ℕ => x ^ (2 * k + d) / ((2 * k + d).factorial : ℝ) := by
    refine antitone_nat_of_succ_le fun k => ?_
    have hpow : x ^ (2 * (k + 1) + d) ≤ x ^ (2 * k + d) := pow_le_pow_of_le_one h0 h1 (by omega)
    have hfact : (2 * k + d).factorial ≤ (2 * (k + 1) + d).factorial := Nat.factorial_le (by omega)
    gcongr
  refine (alternating_error hanti (fun k => by positivity) h 25).trans ?_
  have hfact : 2 ^ 200 ≤ (2 * 25 + d).factorial := le_trans (by decide +kernel) (Nat.factorial_le (Nat.le_add_right 50 d))
  have hfact' : (2 : ℝ) ^ 200 ≤ ((2 * 25 + d).factorial : ℝ) := by exact_mod_cast hfact
  exact div_le_div₀ zero_le_one (pow_le_one₀ h0 h1) (by positivity) hfact'

theorem cos_close {x : ℝ} (hx : |x| ≤ 1) : |Real.cos x - ∑ k ∈ Finset.range 25, seriesTerm x 0 k| ≤ 1 / 2 ^ 200 := by
  have hsum := Real.hasSum_cos |x|
  simp only [mul_div_assoc] at hsum
  have h := series_close (abs_nonneg x) hx (d := 0) hsum
  have heven (k : ℕ) : seriesTerm |x| 0 k = seriesTerm x 0 k := by
    rw [seriesTerm, seriesTerm, add_zero, pow_mul, sq_abs, ← pow_mul]
  simp only [heven] at h
  rwa [Real.cos_abs] at h

theorem sin_close {x : ℝ} (hx : |x| ≤ 1) : |Real.sin x - ∑ k ∈ Finset.range 25, seriesTerm x 1 k| ≤ 1 / 2 ^ 200 := by
  have hsum := Real.hasSum_sin |x|
  simp only [mul_div_assoc] at hsum
  have h := series_close (abs_nonneg x) hx (d := 1) hsum
  rcases abs_cases x with ⟨hx', -⟩ | ⟨hx', -⟩ <;> rw [hx'] at h
  · exact h
  · have hodd (k : ℕ) : seriesTerm (-x) 1 k = -seriesTerm x 1 k := by
      rw [seriesTerm, seriesTerm, Odd.neg_pow (odd_two_mul_add_one k), neg_div, mul_neg]
    simp only [hodd, Finset.sum_neg_distrib] at h
    rwa [Real.sin_neg, sub_neg_eq_add, neg_add_eq_sub, abs_sub_comm] at h

/-! ## The series in fixed point -/

theorem intCast_div_close (a : ℤ) {d : ℕ} (hd : 0 < d) : |((a / (d : ℤ) : ℤ) : ℝ) - a / d| ≤ 1 := by
  have hd' : (0 : ℝ) < d := by exact_mod_cast hd
  have hsplit : (a : ℝ) = (d : ℝ) * (a / (d : ℤ) : ℤ) + (a % (d : ℤ) : ℤ) := by exact_mod_cast (Int.mul_ediv_add_emod a d).symm
  have hlow : (0 : ℝ) ≤ (a % (d : ℤ) : ℤ) := by exact_mod_cast Int.emod_nonneg a (by omega)
  have hhigh : ((a % (d : ℤ) : ℤ) : ℝ) < d := by exact_mod_cast Int.emod_lt_of_pos a (by omega)
  have hdiv : (a : ℝ) / d = (a / (d : ℤ) : ℤ) + ((a % (d : ℤ) : ℤ) : ℝ) / d := by
    rw [hsplit]
    field_simp
  have hrest : ((a % (d : ℤ) : ℤ) : ℝ) / d < 1 := (div_lt_one hd').2 hhigh
  have hrest' : 0 ≤ ((a % (d : ℤ) : ℤ) : ℝ) / d := by positivity
  rw [abs_le]
  constructor <;> linarith

/-- A product of a term and a square in fixed point. -/
theorem product_close {x t : ℝ} (hx : |x| ≤ 1) (ht : |t| ≤ 1) {x2 term : ℤ} (hx2 : |(x2 : ℝ) - x ^ 2 * 2 ^ 200| ≤ 1)
    (hterm : |(term : ℝ) - t * 2 ^ 200| ≤ 5) : |((term * x2 / 2 ^ 200 : ℤ) : ℝ) - t * x ^ 2 * 2 ^ 200| ≤ 8 := by
  have hfloor := intCast_div_close (term * x2) (Nat.two_pow_pos 200)
  simp only [Nat.cast_pow, Nat.cast_ofNat, Int.cast_mul] at hfloor
  have hsq : x ^ 2 ≤ 1 := (sq_le_one_iff_abs_le_one x).2 hx
  have hsplit : (term : ℝ) * x2 / 2 ^ 200 - t * x ^ 2 * 2 ^ 200
      = term / 2 ^ 200 * (x2 - x ^ 2 * 2 ^ 200) + (term - t * 2 ^ 200) * x ^ 2 := by
    have hP : (2 : ℝ) ^ 200 ≠ 0 := by positivity
    generalize (2 : ℝ) ^ 200 = P at *
    field_simp
    ring
  have hone : |(term : ℝ) / 2 ^ 200| ≤ 2 := by
    rw [abs_div, abs_of_pos (show (0 : ℝ) < 2 ^ 200 by positivity), div_le_iff₀ (by positivity)]
    have := abs_le.1 hterm
    have := abs_le.1 ht
    rw [abs_le]
    constructor <;> linarith
  have hfirst : |(term : ℝ) / 2 ^ 200 * (x2 - x ^ 2 * 2 ^ 200)| ≤ 2 * 1 := by
    rw [abs_mul]
    gcongr
  have hsecond : |((term : ℝ) - t * 2 ^ 200) * x ^ 2| ≤ 5 * 1 := by
    rw [abs_mul, abs_of_nonneg (sq_nonneg x)]
    gcongr
  generalize (term : ℝ) / 2 ^ 200 * (x2 - x ^ 2 * 2 ^ 200) = A at *
  generalize ((term : ℝ) - t * 2 ^ 200) * x ^ 2 = B at *
  rw [abs_le] at *
  constructor <;> linarith

/-- One term from the one before it. -/
theorem term_close {x : ℝ} (hx : |x| ≤ 1) {x2 term : ℤ} (hx2 : |(x2 : ℝ) - x ^ 2 * 2 ^ 200| ≤ 1) {d k : ℕ}
    (hterm : |(term : ℝ) - seriesTerm x d k * 2 ^ 200| ≤ 5) :
    |((-(term * x2 / 2 ^ 200) / (((2 * k + d + 1) * (2 * k + d + 2) : ℕ) : ℤ) : ℤ) : ℝ) - seriesTerm x d (k + 1) * 2 ^ 200| ≤ 5 := by
  have hD : 2 ≤ (2 * k + d + 1) * (2 * k + d + 2) := Nat.mul_le_mul (show 1 ≤ _ by omega) (show 2 ≤ _ by omega)
  have hprod := product_close hx (abs_seriesTerm_le hx d k) hx2 hterm
  rw [seriesTerm_succ]
  generalize (2 * k + d + 1) * (2 * k + d + 2) = D at *
  generalize term * x2 / 2 ^ 200 = a at *
  have hfloor := intCast_div_close (-a) (show 0 < D by omega)
  have hD' : (2 : ℝ) ≤ D := by exact_mod_cast hD
  have hquot : |(-a : ℤ) / (D : ℝ) - -(seriesTerm x d k * x ^ 2) / D * 2 ^ 200| ≤ 4 := by
    have hsplit : (-a : ℤ) / (D : ℝ) - -(seriesTerm x d k * x ^ 2) / D * 2 ^ 200 = -(a - seriesTerm x d k * x ^ 2 * 2 ^ 200) / D := by
      push_cast
      ring
    rw [hsplit, abs_div, abs_neg, Nat.abs_cast, div_le_iff₀ (by linarith)]
    linarith
  generalize -(seriesTerm x d k * x ^ 2) / D * 2 ^ 200 = B at *
  rw [abs_le] at *
  constructor <;> linarith

/-- The sum of the terms. -/
theorem taylor_close {x : ℝ} (hx : |x| ≤ 1) {x2 : ℤ} (hx2 : |(x2 : ℝ) - x ^ 2 * 2 ^ 200| ≤ 1) (d : ℕ) :
    ∀ (n k : ℕ) (term acc : ℤ), |(term : ℝ) - seriesTerm x d k * 2 ^ 200| ≤ 5 →
      |((taylor x2 n k d term acc : ℤ) : ℝ) - acc - (∑ i ∈ Finset.range n, seriesTerm x d (k + i)) * 2 ^ 200| ≤ (5 * n : ℝ)
  | 0, k, term, acc, _ => by simp [taylor]
  | n + 1, k, term, acc, hterm => by
    have hnext := taylor_close hx hx2 d n (k + 1) _ (acc + term) (term_close hx hx2 hterm)
    have hsum : ∑ i ∈ Finset.range (n + 1), seriesTerm x d (k + i)
        = seriesTerm x d k + ∑ i ∈ Finset.range n, seriesTerm x d (k + 1 + i) := by
      rw [Finset.sum_range_succ', add_comm]
      simp only [add_zero, add_assoc, add_comm 1]
    unfold taylor
    rw [hsum]
    simp only [Int.cast_add, Nat.cast_succ] at hnext ⊢
    rw [abs_le] at *
    constructor <;> linarith

theorem scaled_close {T S u : ℝ} (hT : |T - S * 2 ^ 200| ≤ (5 * (25 : ℕ) : ℝ)) (hu : |u - S| ≤ 1 / 2 ^ 200) :
    |T - u * 2 ^ 200| ≤ 126 := by
  have hscaled : |(S - u) * 2 ^ 200| ≤ 1 := by
    rw [abs_mul, abs_of_pos (show (0 : ℝ) < 2 ^ 200 by positivity), abs_sub_comm, ← le_div_iff₀ (by positivity)]
    exact hu
  have hsplit : T - u * 2 ^ 200 = T - S * 2 ^ 200 + (S - u) * 2 ^ 200 := by ring
  rw [hsplit]
  refine (abs_add_le _ _).trans ?_
  push_cast at hT
  linarith

/-- The sine and the cosine in fixed point. -/
theorem taylor_sin_cos {r : ℤ} (hr : |(r : ℝ) / 2 ^ 200| ≤ 1) :
    |((taylor (r * r / 2 ^ 200) 25 0 1 r 0 : ℤ) : ℝ) - Real.sin (r / 2 ^ 200) * 2 ^ 200| ≤ 126
      ∧ |((taylor (r * r / 2 ^ 200) 25 0 0 (2 ^ 200) 0 : ℤ) : ℝ) - Real.cos (r / 2 ^ 200) * 2 ^ 200| ≤ 126 := by
  have hsq : |((r * r / 2 ^ 200 : ℤ) : ℝ) - (r / 2 ^ 200 : ℝ) ^ 2 * 2 ^ 200| ≤ 1 := by
    have hfloor := intCast_div_close (r * r) (Nat.two_pow_pos 200)
    simp only [Nat.cast_pow, Nat.cast_ofNat, Int.cast_mul] at hfloor
    rwa [div_pow, sq, ← mul_div_right_comm, sq (2 ^ 200 : ℝ), mul_div_mul_right _ _ (by positivity)]
  have hsin := taylor_close hr hsq 1 25 0 r 0 (by simp [seriesTerm])
  have hcos := taylor_close hr hsq 0 25 0 (2 ^ 200) 0 (by norm_num [seriesTerm])
  have hsin' := sin_close hr
  have hcos' := cos_close hr
  simp only [zero_add, Int.cast_zero, sub_zero] at hsin hcos
  exact ⟨scaled_close hsin (sin_close hr), scaled_close hcos (cos_close hr)⟩

end Sys2Proof.Machine
end

section
/-! PROOFS. FSIN and FCOS within their bound (R137, R143). -/

namespace Sys2Proof.Machine

open Sys2Proof

/-! ## Quadrants -/

/-- A sine some quadrants further. -/
theorem sin_add_quadrants (x : ℝ) (m : ℤ) : Real.sin (x + m * (Real.pi / 2)) =
    match (m % 4).toNat with
    | 0 => Real.sin x
    | 1 => Real.cos x
    | 2 => -Real.sin x
    | _ => -Real.cos x := by
  obtain ⟨q, hq⟩ : ∃ q : ℕ, m % 4 = q := Int.eq_ofNat_of_zero_le (Int.emod_nonneg m (by decide))
  have hlt : q < 4 := by omega
  have hm : x + m * (Real.pi / 2) = x + q * (Real.pi / 2) + (m / 4 : ℤ) * (2 * Real.pi) := by
    have hsplit : (m : ℝ) = 4 * (m / 4 : ℤ) + q := by exact_mod_cast (hq ▸ (Int.mul_ediv_add_emod m 4).symm)
    rw [hsplit]
    ring
  rw [hm, Real.sin_add_int_mul_two_pi, hq, Int.toNat_natCast]
  interval_cases q
  · simp
  · simp [Real.sin_add_pi_div_two]
  · simp [mul_div_cancel₀, Real.sin_add_pi]
  · have h3 : x + (3 : ℕ) * (Real.pi / 2) = x + Real.pi / 2 + Real.pi := by
      push_cast
      ring
    rw [h3, Real.sin_add_pi, Real.sin_add_pi_div_two]
    rfl

/-! ## The reduction of the argument -/

/-- π/2 in units of 2^−200. -/
def halfPi : ℤ := (piFixed : ℤ) / 2

/-- The argument in units of 2^−200, its quadrants, and what is left of it. -/
def trigArg (x : Frac) : ℤ := x.num * 2 ^ 200 / (x.den : ℤ)
def trigQuadrant (x : Frac) : ℤ := (trigArg x + halfPi / 2) / halfPi
def trigRest (x : Frac) : ℤ := trigArg x - trigQuadrant x * halfPi

theorem trigFixed_eq (cosine : Bool) (x : Frac) : trigFixed cosine x =
    match ((trigQuadrant x + if cosine then 1 else 0) % 4).toNat with
    | 0 => taylor (trigRest x * trigRest x / 2 ^ 200) 25 0 1 (trigRest x) 0
    | 1 => taylor (trigRest x * trigRest x / 2 ^ 200) 25 0 0 (2 ^ 200) 0
    | 2 => -taylor (trigRest x * trigRest x / 2 ^ 200) 25 0 1 (trigRest x) 0
    | _ => -taylor (trigRest x * trigRest x / 2 ^ 200) 25 0 0 (2 ^ 200) 0 := rfl

theorem halfPi_bounds : 2 ^ 200 ≤ halfPi ∧ halfPi / 2 < 2 ^ 200 := by decide +kernel

theorem halfPi_close : |(halfPi : ℝ) - Real.pi / 2 * 2 ^ 200| ≤ 2 := by
  have hpi := piFixed_close
  have hfloor := intCast_div_close piFixed (d := 2) two_pos
  rw [Int.cast_natCast] at hfloor
  unfold halfPi
  rw [abs_le] at *
  push_cast at *
  constructor <;> linarith

theorem trigRest_bound (x : Frac) : |trigRest x| ≤ 2 ^ 200 := by
  obtain ⟨hlow, hhalf⟩ := halfPi_bounds
  have hpos : 0 < halfPi := by omega
  have hdiv := Int.mul_ediv_add_emod (trigArg x + halfPi / 2) halfPi
  have hmod := Int.emod_nonneg (trigArg x + halfPi / 2) hpos.ne'
  have hmod' := Int.emod_lt_of_pos (trigArg x + halfPi / 2) hpos
  unfold trigRest trigQuadrant
  rw [mul_comm] at hdiv
  rw [abs_le]
  constructor <;> omega

section

variable {x : Frac} (hx : 0 < x.den) (hbig : |(x.rat : ℝ)| ≤ 2 ^ 16)
include hx

theorem trigArg_close : |(trigArg x : ℝ) - x.rat * 2 ^ 200| ≤ 1 := by
  have hfloor := intCast_div_close (x.num * 2 ^ 200) hx
  have hrat : (x.rat : ℝ) * 2 ^ 200 = ((x.num * 2 ^ 200 : ℤ) : ℝ) / x.den := by
    rw [Frac.rat]
    push_cast
    ring
  rw [hrat]
  exact hfloor

include hbig

theorem trigQuadrant_bound : |(trigQuadrant x : ℝ)| ≤ 2 ^ 16 + 2 := by
  have harg := trigArg_close hx
  have hrest : |(trigRest x : ℝ)| ≤ 2 ^ 200 := by exact_mod_cast trigRest_bound x
  have hhalf : (2 : ℝ) ^ 200 ≤ halfPi := by exact_mod_cast halfPi_bounds.1
  have hprod : (trigQuadrant x : ℝ) * halfPi = trigArg x - trigRest x := by
    unfold trigRest
    push_cast
    ring
  have hP : (0 : ℝ) < 2 ^ 200 := by positivity
  have hargBound : |(trigArg x : ℝ)| ≤ 2 ^ 16 * 2 ^ 200 + 1 := by
    have hscaled : |(x.rat : ℝ) * 2 ^ 200| ≤ 2 ^ 16 * 2 ^ 200 := by
      rw [abs_mul, abs_of_pos hP]
      gcongr
    linarith [abs_sub_abs_le_abs_sub (trigArg x : ℝ) (x.rat * 2 ^ 200)]
  have habs : |(trigQuadrant x : ℝ)| * halfPi ≤ (2 ^ 16 + 2) * 2 ^ 200 := by
    rw [← abs_of_pos (hP.trans_le hhalf), ← abs_mul, hprod]
    linarith [abs_sub (trigArg x : ℝ) (trigRest x)]
  have hle : |(trigQuadrant x : ℝ)| * 2 ^ 200 ≤ |(trigQuadrant x : ℝ)| * halfPi := by gcongr
  exact le_of_mul_le_mul_right (hle.trans habs) hP

/-- What is left of the argument stands for it less its quadrants. -/
theorem trigRest_close : |x.rat - trigQuadrant x * (Real.pi / 2) - trigRest x / 2 ^ 200| ≤ (2 ^ 17 + 5) / 2 ^ 200 := by
  have harg := trigArg_close hx
  have hquad := trigQuadrant_bound hx hbig
  have hhalf := halfPi_close
  have hP : (0 : ℝ) < 2 ^ 200 := by positivity
  have hprod : |(trigQuadrant x : ℝ) * (halfPi - Real.pi / 2 * 2 ^ 200)| ≤ (2 ^ 16 + 2) * 2 := by
    rw [abs_mul]
    gcongr
  have hrest : (trigRest x : ℝ) = trigArg x - trigQuadrant x * halfPi := by
    unfold trigRest
    push_cast
    rfl
  have hsplit : (x.rat - trigQuadrant x * (Real.pi / 2) - trigRest x / 2 ^ 200 : ℝ)
      = (trigQuadrant x * (halfPi - Real.pi / 2 * 2 ^ 200) - (trigArg x - x.rat * 2 ^ 200)) / 2 ^ 200 := by
    rw [hrest]
    generalize (2 : ℝ) ^ 200 = P at *
    field_simp
    ring
  rw [hsplit, abs_div, abs_of_pos hP]
  gcongr
  generalize (trigQuadrant x : ℝ) * (halfPi - Real.pi / 2 * 2 ^ 200) = A at *
  linarith [abs_sub A ((trigArg x : ℝ) - x.rat * 2 ^ 200)]

/-- What a function of what is left is of the argument less its quadrants, when it moves no faster. -/
theorem trigRest_moved {g : ℝ → ℝ} (hg : ∀ u v, |g u - g v| ≤ |u - v|) {T : ℤ}
    (hT : |(T : ℝ) - g (trigRest x / 2 ^ 200) * 2 ^ 200| ≤ 126) :
    |(T : ℝ) - g (x.rat - trigQuadrant x * (Real.pi / 2)) * 2 ^ 200| ≤ 2 ^ 18 := by
  have hclose := trigRest_close hx hbig
  have hP : (0 : ℝ) < 2 ^ 200 := by positivity
  have hmoved := (hg _ _).trans hclose
  rw [le_div_iff₀ hP, ← abs_of_pos hP, ← abs_mul, abs_of_pos hP, sub_mul] at hmoved
  rw [abs_le] at *
  constructor <;> linarith

/-- The fixed-point sine and cosine are within 2^−182. -/
theorem trigFixed_close (cosine : Bool) :
    |(trigFixed cosine x : ℝ) - (if cosine then Real.cos x.rat else Real.sin x.rat) * 2 ^ 200| ≤ 2 ^ 18 := by
  have hrest : |(trigRest x : ℝ) / 2 ^ 200| ≤ 1 := by
    have hbound : |(trigRest x : ℝ)| ≤ 2 ^ 200 := by exact_mod_cast trigRest_bound x
    have hP : (0 : ℝ) < 2 ^ 200 := by positivity
    rwa [abs_div, abs_of_pos hP, div_le_one hP]
  obtain ⟨hsin, hcos⟩ := taylor_sin_cos hrest
  have hsin' := trigRest_moved hx hbig Real.abs_sin_sub_sin_le hsin
  have hcos' := trigRest_moved hx hbig Real.abs_cos_sub_cos_le hcos
  have hexact : (if cosine then Real.cos x.rat else Real.sin x.rat)
      = Real.sin (x.rat - trigQuadrant x * (Real.pi / 2) + (trigQuadrant x + if cosine then 1 else 0 : ℤ) * (Real.pi / 2)) := by
    cases cosine
    · simp
    · simp only [if_true]
      rw [← Real.sin_add_pi_div_two]
      congr 1
      push_cast
      ring
  rw [hexact, sin_add_quadrants, trigFixed_eq]
  generalize taylor (trigRest x * trigRest x / 2 ^ 200) 25 0 1 (trigRest x) 0 = S at *
  generalize taylor (trigRest x * trigRest x / 2 ^ 200) 25 0 0 (2 ^ 200) 0 = C at *
  split
  · exact hsin'
  · exact hcos'
  · rwa [Int.cast_neg, neg_mul, neg_sub_neg, abs_sub_comm]
  · rwa [Int.cast_neg, neg_mul, neg_sub_neg, abs_sub_comm]

end

/-- The series of an argument whose square vanishes is its first term. -/
theorem taylor_zero (n k d : ℕ) (term acc : ℤ) : taylor 0 (n + 1) k d term acc = acc + term := by
  have hzero (n k : ℕ) (acc : ℤ) : taylor 0 n k d 0 acc = acc := by
    induction n generalizing k acc with
    | zero => rfl
    | succ n ih =>
      unfold taylor
      simpa using ih (k + 1) acc
  unfold taylor
  simpa using hzero n (k + 1) (acc + term)

/-- The sine of a tiny argument is the argument. -/
theorem trigFixed_tiny {x : Frac} (hx : 0 < x.den) (hdvd : x.den ∣ 2 ^ 200) (htiny : |(x.rat : ℝ)| < 2 ^ (-126 : ℤ)) :
    (trigFixed false x : ℝ) = x.rat * 2 ^ 200 := by
  obtain ⟨q, hq⟩ := hdvd
  have hd : (x.den : ℝ) ≠ 0 := by exact_mod_cast hx.ne'
  have hq' : (2 : ℝ) ^ 200 = x.den * q := by exact_mod_cast hq
  have harg : trigArg x = x.num * q := by
    have hq'' : (2 : ℤ) ^ 200 = q * x.den := by
      rw [mul_comm]
      exact_mod_cast hq
    rw [trigArg, hq'', ← mul_assoc, Int.mul_ediv_cancel _ (by omega)]
  have hexact : (trigArg x : ℝ) = x.rat * 2 ^ 200 := by
    rw [harg, hq', Frac.rat]
    push_cast
    field_simp
  have hsmall : |trigArg x| < 2 ^ 74 := by
    have : |(trigArg x : ℝ)| < 2 ^ 74 := by
      rw [hexact, abs_mul, abs_of_pos (show (0 : ℝ) < 2 ^ 200 by positivity)]
      calc |(x.rat : ℝ)| * 2 ^ 200 < 2 ^ (-126 : ℤ) * 2 ^ 200 := by gcongr
        _ = 2 ^ 74 := by norm_num
    exact_mod_cast this
  obtain ⟨hlow, hhigh⟩ := abs_lt.1 hsmall
  obtain ⟨hhalf, hhalf'⟩ := halfPi_bounds
  have hquad : trigQuadrant x = 0 := by
    unfold trigQuadrant
    exact Int.ediv_eq_zero_of_lt (by omega) (by omega)
  have hrest : trigRest x = trigArg x := by rw [trigRest, hquad, zero_mul, sub_zero]
  have hsq : trigArg x * trigArg x / 2 ^ 200 = 0 := by
    refine Int.ediv_eq_zero_of_lt (mul_self_nonneg _) ?_
    nlinarith
  rw [trigFixed_eq, hquad, hrest, hsq]
  change ((taylor 0 25 0 1 (trigArg x) 0 : ℤ) : ℝ) = _
  rw [taylor_zero, zero_add, hexact]

end Sys2Proof.Machine
end

section
/-! PROOFS. The special functions as R143 bounds them. -/

namespace Sys2Proof.Machine

open Sys2Proof

/-! ## Results of magnitude up to 2 -/

/-- A zero is near what is small. -/
theorem Fmt.near_zero {f : Fmt} (h : f.Regular) (s : Bool) (fl : BitVec 8) {v B : ℝ} (hv : |v| ≤ B) : f.near ⟨f.signBit s, fl⟩ v B := by
  have hholds := Fmt.holds_subnormal h s fl (t := 0) (Nat.zero_le _)
  exact Fmt.near_of_holds hholds (by simpa using hv)

/-- A candidate that is written back as it was read stands for its value. -/
theorem Fmt.candidate_value {f : Fmt} (h : f.Regular) {flush : Bool} {c : Nat} (hfin : (f.read flush c).isFinite = true)
    (hback : f.write (f.read flush c) = c % 2 ^ f.width) {v B : ℝ} (hclose : |((f.read flush c).value : ℝ) - v| ≤ B)
    (fl : BitVec 8) : f.near ⟨c % 2 ^ f.width, fl⟩ v B := by
  by_cases hzero : (f.read flush c).isZero = true
  · obtain ⟨s, k, hread⟩ := FVal.eq_zero_of_isZero hzero
    rw [hread] at hback hclose
    have hsign : c % 2 ^ f.width = f.signBit s := by
      rw [← hback]
      have hnum : (FVal.fin s 0 k).frac.num = 0 := by
        have hvalue : (FVal.fin s 0 k).frac.rat = 0 := by simp [FVal.frac_rat, FVal.value]
        exact (Frac.rat_eq_zero_iff (FVal.frac_den_pos _)).1 hvalue
      unfold Fmt.write Fmt.roundFrac
      dsimp only
      rw [if_pos hnum]
    rw [hsign]
    exact Fmt.near_zero h s fl (by simpa [FVal.value] using hclose)
  · obtain ⟨s, n, k, hread, hn, -⟩ := Fmt.source_finite h hfin (by simpa using hzero)
    have hsame : f.read false c = f.read flush c := (Fmt.read_flush hread hn.ne').trans hread.symm
    unfold Fmt.near
    rw [f.read_mod, hsame]
    exact ⟨Nat.mod_lt _ (Nat.two_pow_pos _), hfin, hclose⟩

/-- Up to 2 a fraction is rounded to a value within 2^−23. -/
theorem roundFrac_small (flush s : Bool) {t : Frac} (ht : 0 < t.den) (hbig : |(t.rat : ℝ)| < 2) :
    let r := f32.roundFrac ⟨.rne, flush, true⟩ s t
    f32.near r t.rat (2 ^ (-23 : ℤ)) ∧ (r.flags = 0 ∨ r.flags = flNX ∨ r.flags = flUF ||| flNX) := by
  intro r
  have hround := Fmt.roundFrac_exactly f32_regular ⟨.rne, flush, true⟩ s ht
  obtain ⟨hemin, -, hfw⟩ := f32_exponents
  rcases lt_or_ge |(t.rat : ℝ)| (2 ^ f32.emin) with htiny | hnormal
  · have htinyLe : |(t.rat : ℝ)| ≤ 2 ^ (-23 : ℤ) := htiny.le.trans (two_zpow_le (by omega))
    rw [Fmt.exactly] at hround
    by_cases h0 : t.rat = 0
    · rw [if_pos h0] at hround
      rw [show r = _ from hround, h0]
      exact ⟨Fmt.near_zero f32_regular s 0 (by simp), .inl rfl⟩
    · rw [if_neg h0, Rat.cast_abs] at hround
      have habs : 0 < |(t.rat : ℝ)| := abs_pos.2 (by exact_mod_cast h0)
      obtain ⟨-, hr⟩ | ⟨w, hw, hclose, hflags⟩ := Fmt.rounds_tiny f32_regular hround habs htiny
      · rw [show r = _ from hr]
        exact ⟨Fmt.near_zero f32_regular _ _ htinyLe, .inr (.inr rfl)⟩
      · refine ⟨Fmt.near_of_holds_abs hw (hclose.trans ?_), hflags⟩
        exact (half_le_self (two_zpow_pos _).le).trans (two_zpow_le (by omega))
  · have hmax : |(t.rat : ℝ)| ≤ (f32.read false (f32.maxFinite false)).value := by
      rw [f32_maxFinite]
      refine hbig.le.trans ?_
      norm_num
    obtain ⟨hnear, hflags⟩ := Fmt.roundFrac_normal f32_regular (flush := flush) (sat := true) (s := s) ht hnormal hmax
    have hlog : Int.log 2 |(t.rat : ℝ)| < 1 := log_lt_of_lt_two_zpow ((two_zpow_pos _).trans_le hnormal) (by simpa using hbig)
    refine ⟨Fmt.near_trans hnear (D := 0) (by simp) ?_, hflags.imp_right .inl⟩
    rw [add_zero]
    exact (half_le_self (two_zpow_pos _).le).trans (two_zpow_le (by omega))

/-! ## FSIN and FCOS -/

/-- The fixed-point sine or cosine of a source. -/
def trigFrac (cosine : Bool) (x : FVal) : Frac := ⟨trigFixed cosine x.frac, 2 ^ 200⟩

/-- The flags of a sine or cosine that no reduction spoils. -/
def trigFlags (cosine : Bool) (x : FVal) : BitVec 8 := if f32.isTiny (trigFrac cosine x) then flUF ||| flNX else flNX

theorem trigFlags_cases (cosine : Bool) (x : FVal) : trigFlags cosine x = flNX ∨ trigFlags cosine x = flUF ||| flNX := by
  unfold trigFlags
  split
  · exact .inr rfl
  · exact .inl rfl

/-- The flags of a rounding add nothing to them but UF, and keep them when UF is set. -/
theorem flags_absorb {u t : BitVec 8} (hu : u = 0 ∨ u = flNX ∨ u = flUF ||| flNX) (ht : t = flNX ∨ t = flUF ||| flNX) :
    (u ||| t) &&& flNX = flNX ∧ (t = flUF ||| flNX → u ||| t = flUF ||| flNX) := by
  rcases hu with rfl | rfl | rfl <;> rcases ht with rfl | rfl <;> decide

/-- What a candidate of FSIN or FCOS must be: written back as it was read. -/
def goodCandidate (flush : Bool) (c : Nat) : Prop :=
  (f32.read flush c).isFinite = true ∧ f32.write (f32.read flush c) = c % 2 ^ f32.width

section

variable {x y : Frac} (hx : 0 < x.den) (hy : 0 < y.den)
include hx hy

theorem Frac.abs_le_iff : x.abs.le y = true ↔ |x.rat| ≤ y.rat := by
  rw [Frac.le_iff (show 0 < x.abs.den from hx) hy, x.rat_abs]

theorem Frac.lt_abs_iff : y.lt x.abs = true ↔ y.rat < |x.rat| := by
  rw [Frac.lt_iff hy (show 0 < x.abs.den from hx), x.rat_abs]

end

theorem beyond_iff (x : FVal) : Frac.lt ⟨65536, 1⟩ x.frac.abs = true ↔ (2 : ℝ) ^ 16 < |(x.value : ℝ)| := by
  have hone : Frac.rat ⟨65536, 1⟩ = 2 ^ 16 := by norm_num [Frac.rat]
  rw [Frac.lt_abs_iff x.frac_den_pos one_pos, FVal.frac_rat, hone, ← Rat.cast_lt (K := ℝ), Rat.cast_abs]
  norm_num

section

variable (a : Attr) (cosine : Bool) (c : Nat) {x : FVal} (hx : x.isFinite = true) (hzero : x.isZero = false)
include hx hzero

/-- Beyond 2^16 FSIN and FCOS give a candidate of [−1, 1], or 0. -/
theorem trig_beyond (hbig : (2 : ℝ) ^ 16 < |(x.value : ℝ)|) :
    (goodCandidate a.flush c ∧ |((f32.read a.flush c).value : ℝ)| ≤ 1 ∧ f32.trig a cosine c x = ⟨c % 2 ^ f32.width, flNX⟩)
      ∨ f32.trig a cosine c x = ⟨f32.signBit false, flNX⟩ := by
  have hlt := (beyond_iff x).2 hbig
  obtain ⟨s, n, k, rfl⟩ := FVal.eq_fin_of_isFinite hx
  have hn : n ≠ 0 := by
    rintro rfl
    cases hzero
  unfold Fmt.trig
  dsimp only
  rw [if_neg hn, if_pos hlt]
  split
  case isTrue hgood =>
    simp only [Bool.and_eq_true, beq_iff_eq] at hgood
    obtain ⟨⟨hfin, hback⟩, hle⟩ := hgood
    have hone : Frac.rat ⟨1, 1⟩ = 1 := by simp [Frac.rat]
    rw [Frac.abs_le_iff (FVal.frac_den_pos _) one_pos, FVal.frac_rat, hone] at hle
    exact .inl ⟨⟨hfin, hback⟩, by exact_mod_cast hle, rfl⟩
  case isFalse => exact .inr rfl

/-- Up to 2^16 they give a candidate close to the fixed-point value, or that value rounded. -/
theorem trig_within (hbig : |(x.value : ℝ)| ≤ 2 ^ 16) :
    (goodCandidate a.flush c
        ∧ |((f32.read a.flush c).value : ℝ) - (trigFrac cosine x).rat| ≤ (2 ^ 139 - 1) / 2 ^ 160
        ∧ f32.trig a cosine c x = ⟨c % 2 ^ f32.width, trigFlags cosine x⟩)
      ∨ ∃ s, f32.trig a cosine c x = ⟨(f32.roundFrac ⟨.rne, a.flush, true⟩ s (trigFrac cosine x)).bits,
          (f32.roundFrac ⟨.rne, a.flush, true⟩ s (trigFrac cosine x)).flags ||| trigFlags cosine x⟩ := by
  have hlt := mt (beyond_iff x).1 hbig.not_gt
  have ht : 0 < (trigFrac cosine x).den := Nat.two_pow_pos 200
  obtain ⟨s, n, k, rfl⟩ := FVal.eq_fin_of_isFinite hx
  have hn : n ≠ 0 := by
    rintro rfl
    cases hzero
  have htrig : f32.trig a cosine c (.fin s n k) =
      if (f32.read a.flush c).isFinite && f32.write (f32.read a.flush c) == c % 2 ^ f32.width
          && (((f32.read a.flush c).frac.sub (trigFrac cosine (.fin s n k))).abs).le ⟨2 ^ 139 - 1, 2 ^ 160⟩
      then ⟨c % 2 ^ f32.width, trigFlags cosine (.fin s n k)⟩
      else ⟨(f32.roundFrac ⟨.rne, a.flush, true⟩ (decide ((trigFrac cosine (.fin s n k)).num < 0)) (trigFrac cosine (.fin s n k))).bits,
        (f32.roundFrac ⟨.rne, a.flush, true⟩ (decide ((trigFrac cosine (.fin s n k)).num < 0)) (trigFrac cosine (.fin s n k))).flags
          ||| trigFlags cosine (.fin s n k)⟩ := by
    unfold Fmt.trig
    dsimp only
    rw [if_neg hn, if_neg hlt]
    rfl
  rw [htrig]
  split
  case isTrue hgood =>
    simp only [Bool.and_eq_true, beq_iff_eq] at hgood
    obtain ⟨⟨hfin, hback⟩, hle⟩ := hgood
    obtain ⟨hden, hsub⟩ := Frac.rat_sub (FVal.frac_den_pos (f32.read a.flush c)) ht
    have hbound : (Frac.rat ⟨2 ^ 139 - 1, 2 ^ 160⟩ : ℚ) = (2 ^ 139 - 1) / 2 ^ 160 := by norm_num [Frac.rat]
    rw [Frac.abs_le_iff hden (Nat.two_pow_pos 160), hsub, FVal.frac_rat, hbound] at hle
    refine .inl ⟨⟨hfin, hback⟩, ?_, rfl⟩
    have := (Rat.cast_le (K := ℝ)).2 hle
    push_cast at this
    exact this
  case isFalse => exact .inr ⟨_, rfl⟩

end

/-- The fixed-point value is the sine or cosine but for 2^−182. -/
theorem trigFrac_close (cosine : Bool) {x : FVal} (hbig : |(x.value : ℝ)| ≤ 2 ^ 16) :
    |((trigFrac cosine x).rat : ℝ) - (if cosine then Real.cos x.value else Real.sin x.value)| ≤ 2 ^ 18 / 2 ^ 200 := by
  have hclose := trigFixed_close x.frac_den_pos (by rwa [FVal.frac_rat]) cosine
  have hP : (0 : ℝ) < 2 ^ 200 := by positivity
  have hrat : ((trigFrac cosine x).rat : ℝ) = trigFixed cosine x.frac / 2 ^ 200 := by
    simp only [trigFrac, Frac.rat]
    push_cast
    norm_num
  rw [FVal.frac_rat] at hclose
  rw [hrat, le_div_iff₀ hP, ← abs_of_pos hP, ← abs_mul, abs_of_pos hP, sub_mul, div_mul_cancel₀ _ hP.ne']
  exact hclose

/-- FSIN and FCOS up to 2^16. -/
theorem trig_near (a : Attr) (cosine : Bool) (c : Nat) {x : FVal} (hx : x.isFinite = true) (hzero : x.isZero = false)
    (hbig : |(x.value : ℝ)| ≤ 2 ^ 16) :
    f32.near (f32.trig a cosine c x) (if cosine then Real.cos x.value else Real.sin x.value) (2⁻¹ ^ 21)
      ∧ (f32.trig a cosine c x).flags &&& flNX = flNX
      ∧ (trigFlags cosine x = flUF ||| flNX → (f32.trig a cosine c x).flags = flUF ||| flNX) := by
  have hclose := trigFrac_close cosine hbig
  have hunit : |if cosine then Real.cos x.value else Real.sin x.value| ≤ 1 := by
    cases cosine
    · exact Real.abs_sin_le_one _
    · exact Real.abs_cos_le_one _
  generalize (if cosine then Real.cos x.value else Real.sin x.value) = y at *
  have hflags := trigFlags_cases cosine x
  rcases trig_within a cosine c hx hzero hbig with ⟨hgood, hcand, hr⟩ | ⟨s, hr⟩
  · rw [hr]
    refine ⟨Fmt.candidate_value f32_regular hgood.1 hgood.2 ?_ _, ?_, id⟩
    · refine (abs_sub_le _ _ _).trans ((add_le_add hcand hclose).trans ?_)
      norm_num
    · rw [← BitVec.zero_or (x := trigFlags cosine x)]
      exact (flags_absorb (.inl rfl) hflags).1
  · have hsmall : |((trigFrac cosine x).rat : ℝ)| < 2 := by
      have := abs_sub_abs_le_abs_sub ((trigFrac cosine x).rat : ℝ) y
      have : (2 : ℝ) ^ 18 / 2 ^ 200 < 1 := by norm_num
      linarith
    obtain ⟨hnear, hround⟩ := roundFrac_small a.flush s (Nat.two_pow_pos 200) hsmall
    rw [hr]
    refine ⟨?_, flags_absorb hround hflags⟩
    refine Fmt.near_trans (u := (trigFrac cosine x).rat) hnear hclose ?_
    norm_num

/-- The sine of a tiny source is tiny. -/
theorem trigFlags_tiny {s : Bool} {p n : Nat} {k : Int} (hfin : f32.Finite s p n k) (hn : 0 < n)
    (htiny : |((FVal.fin s n k).value : ℝ)| < 2 ^ (-126 : ℤ)) : trigFlags false (.fin s n k) = flUF ||| flNX := by
  have hfixed := trigFixed_tiny (FVal.frac_den_pos (.fin s n k)) (hfin.frac_den_dvd (by decide)) (by rwa [FVal.frac_rat])
  have hrat : (trigFrac false (.fin s n k)).rat = (FVal.fin s n k).value := by
    refine Rat.cast_injective (α := ℝ) ?_
    rw [FVal.frac_rat] at hfixed
    simp only [trigFrac, Frac.rat]
    push_cast
    rw [hfixed]
    norm_num
  have hvalue : (FVal.fin s n k).value ≠ 0 := by
    rw [← abs_ne_zero, FVal.abs_value, FVal.mag]
    positivity
  have hden : 0 < (trigFrac false (.fin s n k)).den := Nat.two_pow_pos 200
  have hnum : (trigFrac false (.fin s n k)).num ≠ 0 := mt (Frac.rat_eq_zero_iff hden).2 (hrat ▸ hvalue)
  rw [trigFlags, if_pos ((f32.isTiny_iff hden hnum).2 ?_)]
  rw [hrat]
  exact htiny

/-- FSIN and FCOS of a finite source. -/
theorem trig_accurate (a : Attr) (c b : Nat) (hx : (f32.read a.flush b).isFinite = true)
    (hzero : (f32.read a.flush b).isZero = false) (cosine : Bool) :
    let v : ℝ := (f32.read a.flush b).value
    let r := f32.trig a cosine c (f32.read a.flush b)
    (|v| ≤ 2 ^ 16 → f32.near r (if cosine then Real.cos v else Real.sin v) (2⁻¹ ^ 21))
      ∧ (2 ^ 16 < |v| → f32.near r 0 1)
      ∧ r.flags &&& flNX = flNX
      ∧ (cosine = false → |v| < 2 ^ (-126 : ℤ) → r.flags = flUF ||| flNX) := by
  intro v r
  have hbeyond (hbig : 2 ^ 16 < |v|) : f32.near r 0 1 ∧ r.flags = flNX := by
    rcases trig_beyond a cosine c hx hzero hbig with ⟨hgood, hle, hr⟩ | hr <;> rw [show r = _ from hr]
    · exact ⟨Fmt.candidate_value f32_regular hgood.1 hgood.2 (by rwa [sub_zero]) _, rfl⟩
    · exact ⟨Fmt.near_zero f32_regular _ _ (by simp), rfl⟩
  refine ⟨fun hle => (trig_near a cosine c hx hzero hle).1, fun hbig => (hbeyond hbig).1, ?_, ?_⟩
  · rcases le_or_gt |v| (2 ^ 16) with hle | hbig
    · exact (trig_near a cosine c hx hzero hle).2.1
    · rw [(hbeyond hbig).2]
      rfl
  · rintro rfl htiny
    obtain ⟨s, n, k, hread, hn, hfin⟩ := Fmt.source_finite f32_regular hx hzero
    have hle : |v| ≤ 2 ^ 16 := htiny.le.trans (by norm_num)
    refine (trig_near a false c hx hzero hle).2.2 ?_
    rw [hread]
    exact trigFlags_tiny hfin hn (hread ▸ htiny)

/-- Settles O15, function by function: FRSQ through `sqrtFrac_agree`, FEXP2, FLOG2, FSIN and FCOS through what their
fixed-point values lose. -/
theorem specialFunctionAccuracy : Obligations.SpecialFunctionAccuracy := by
  intro a c b
  refine ⟨fun f hf hfin hzero hsign => Fmt.rsqrt_accurate hf a c b hfin hzero hsign, fun hfin => ?_⟩
  obtain ⟨hover, hunder, hbetween⟩ := exp2_accurate a c b hfin
  exact ⟨⟨hover, hunder, hbetween⟩, log2_accurate a c b hfin, trig_accurate a c b hfin⟩

end Sys2Proof.Machine
end

section
/-! PROOFS. Convergence words whose tile is not complete (R169). -/

namespace Sys2Proof.Machine

open Sys2Proof

section

variable {s : State} (hc : s.completes .tile = []) (hs : (s.arrived .tile).curCrew.split = none)
include hc hs

/-- A vote that completes no tile waits. -/
theorem State.gatherQ_wait {dsts : List Dst} (h : s.mayArrive [] dsts) (a : PredF)
    (f : Env → (yes all : List Nat) → (t : Bool) → Nat → Lane → Lane) : s.gatherQ { dsts } a f = .next (s.arrived .tile) := by
  unfold State.gatherQ
  exact State.converge_wait _ rfl h hc hs

/-- A lane exchange that completes no tile waits. -/
theorem State.shuffle_wait {d a b : RegF} {p q : Bool} (h : s.mayArrive (two a b p q) [{ f := d }])
    (pick : (n k b : Nat) → Option Nat) : s.shuffle d a b p q pick = .next (s.arrived .tile) := by
  unfold State.shuffle
  exact State.converge_wait _ rfl h hc hs

/-- A reduction or scan that completes no tile waits. -/
theorem State.reduce_wait {t : BitVec 3} {d a : RegF} {p : Bool}
    (h : s.mayArrive [src a (if wideType t then 2 else 1) p] [{ f := d, n := if wideType t then 2 else 1 }]) (m : PredF)
    (op : RedOp) (k : RedKind) : s.reduce op k t d a m p = .next (s.arrived .tile) := by
  unfold State.reduce
  exact State.converge_wait _ rfl h hc hs

end

/-- Settles O11: every word that meets in a tile is one `converge`, and that waits where nothing is complete
(`State.converge_wait`). -/
theorem convergenceWaits : Obligations.ConvergenceWaits := by
  intro s d a b q0 q1 p q t hc hs
  refine ⟨fun h => ?_, fun h => ?_, fun h => ?_, fun h i hi => ?_⟩
  · rw [exec_meet, exec_voteall, exec_voteany, execMeet, execVoteall, execVoteany]
    exact ⟨State.converge_wait _ rfl h hc hs, State.gatherQ_wait hc hs h .., State.gatherQ_wait hc hs h ..⟩
  · rw [exec_shfl, exec_shflu, exec_shfld, exec_shflx, execShfl, execShflu, execShfld, execShflx]
    exact ⟨State.shuffle_wait hc hs h _, State.shuffle_wait hc hs h _, State.shuffle_wait hc hs h _, State.shuffle_wait hc hs h _⟩
  · rw [exec_ballot, execBallot]
    exact State.gatherQ_wait hc hs h ..
  · simp only [List.mem_cons, List.not_mem_nil, or_false] at hi
    rcases hi with rfl | rfl | rfl | rfl | rfl | rfl | rfl | rfl
    all_goals
      simp only [exec_redadd, exec_redmin, exec_redmax, exec_redand, exec_redor, exec_redxor, exec_scanadd, exec_scanaddx,
      execRedadd, execRedmin, execRedmax, execRedand, execRedor, execRedxor, execScanadd, execScanaddx]
      exact State.reduce_wait hc hs h ..

end Sys2Proof.Machine
end

section
/-! PROOFS. A drain whose write-backs go to another device (R174, R212, R432). -/

namespace Sys2Proof.Machine

open Sys2Proof

/-- A capability of an object with rights R, W and A. -/
def capOfObject (obj : Nat) : DWord := BitVec.ofNat 22 obj ++ (13 : BitVec 4) ++ (0 : BitVec 38)

/-- An object table entry of one frame, with rights R, W and A, whose descriptor stands at an address. -/
def oneFrameEntry (extents : Nat) : List Byte :=
  leBytes 8 Config.frameBytes ++ leBytes 4 (2 ^ 31 + 13 * 2 ^ 27) ++ leBytes 4 0 ++ leBytes 8 extents

/-- Team 2 of device 0 drains with one dirty stash line, in a window onto object 18, whose frame is device 5's. The
counter of that frame stands at 254, and the ring of the context lies in object 17, in device 0's frame at 0x400000. -/
def State.drainsFar : State :=
  let s := State.reset.withFetchWord 32 0
  { s with
    ctxs := s.ctxs.mapVals fun _ X => { X with otsize := 32, cring := capOfObject 17, crlen := 1 }
    mem := (((s.mem.setBytes (fetchTable + 32 * 17) (oneFrameEntry 0x202000)).setBytes 0x202000 (leBytes 8 (2 * 2 ^ 61 + 2))).setBytes
      (fetchTable + 32 * 18) (oneFrameEntry 0x202008)).setBytes 0x202008 (leBytes 8 (2 * 2 ^ 61 + 5 * 2 ^ 22))
    teams := s.teams.mapVals fun _ T =>
      { T with
        state := .draining
        body := { crews := [(0, {})], dirty := [2], windows := [(5, { cap := capOfObject 18, first := 2, count := 1, tag := false })] } }
    counters := [{ die := 0, ctx := 0, obj := 18, frame := 0, dev := 0, count := 254 }] }

/-- The write-back is the 255th access that counts, so the counter's record goes into the ring, the object's number first. -/
theorem execTeamDrain_drainsFar {t : State} (h : exec (.teamDrain 2) State.drainsFar = .next t) : t.mem.byte 0x400000 = 18 := by
  have hbyte : (match exec (.teamDrain 2) State.drainsFar with
    | .next t => t.mem.byte 0x400000
    | _ => 0) = 18 := by decide +kernel
  rwa [h] at hbyte

/-- Refutes O44 in its clause on a drain's write-backs (R174): one that goes to another device counts against its frame
(R212), and as the 255th access it has the counter's record written to the context's ring, so memory does not stay
(`execTeamDrain_drainsFar`). No premise says that the counters have room (`State.countersLow`). -/
theorem not_teamLife : ¬ Obligations.TeamLife := by
  intro h
  obtain ⟨-, -, -, -, hdrain, -⟩ := h State.drainsFar 0 2 0 (fetchLaunch 0) (State.drainsFar.team 2)
  obtain ⟨hback, -⟩ := hdrain ⟨by decide +kernel, by decide +kernel⟩ (by decide +kernel) (by decide +kernel) (by decide +kernel)
  obtain ⟨t, hexec, hsame, -⟩ := hback ⟨2, by decide +kernel⟩ fun n hn => by
    have hone : n ∈ [2] := hn.1
    rw [List.mem_singleton.1 hone]
    decide +kernel
  have hkept := hsame.1 0x400000
  rw [execTeamDrain_drainsFar hexec] at hkept
  exact absurd hkept (by decide +kernel)

end Sys2Proof.Machine
end

section
/-! PROOFS. The end of a span whose completion waits at its home (R179, R188, R220). -/

namespace Sys2Proof.Machine

open Sys2Proof

/-- A launch from queue 0 over chips 0 and 5 that awaits chip 5's reply until instant 0. -/
def Launch.spanLate : Launch :=
  { fetchLaunch 0 with
    phase := .asking [5] 0, source := .host 0 0 0 0, chips := [0, 5], block := { (fetchLaunch 0).block with gx := 2 } }

/-- Device 0 leads it. The completions of queue 0 go to object 17, in the frame at 0x400000, of which a team on device 5
owns the first line, perhaps dirty. -/
def State.spanLate : State :=
  let s := State.reset.withFetchWord 32 0
  { s with
    ctxs := s.ctxs.mapVals fun _ X => { X with
      otsize := 32, queues := [(0, { cpl := BitVec.ofNat 22 17 ++ (13 : BitVec 4) ++ (0 : BitVec 38), en := true })] }
    mem := (s.mem.setBytes (fetchTable + 32 * 17)
      (leBytes 8 Config.frameBytes ++ leBytes 4 (2 ^ 31 + 13 * 2 ^ 27) ++ leBytes 4 0 ++ leBytes 8 0x202000)).setBytes
      0x202000 (leBytes 8 (2 * 2 ^ 61 + 2))
    dir := [(0x400000 / 128, { state := .O, owner := some { dev := 5, core := 0, slot := 0 } })]
    routes := [(5, [(0, true)])]
    launches := [(1, Launch.spanLate)] }

/-- The completion first recalls its line from device 5, behind the ABORT. -/
theorem execSpanTimeout_spanLate {t : State} (h : exec (.spanTimeout 1) State.spanLate = .next t) :
    t.linkOut = [(5, .spanAbort 0 Launch.spanLate.gen.toNat 0), (5, .recall 0 (0x400000 / 128) true)] := by
  have hlink : (match exec (.spanTimeout 1) State.spanLate with
    | .next t => t.linkOut
    | _ => []) = [(5, .spanAbort 0 Launch.spanLate.gen.toNat 0), (5, .recall 0 (0x400000 / 128) true)] := by decide +kernel
  rwa [h] at hlink

/-- Refutes O45 where a launch ends late or unanswered (R179): its completion, like any write, first recalls the slot's
line from a stash of another device that owns it (R220), so that after the ABORTs a recall goes out too
(`execSpanTimeout_spanLate`); the statement has the ABORTs alone. No premise says that no other device owns the line. -/
theorem not_spanProtocol : ¬ Obligations.SpanProtocol := by
  intro h
  obtain ⟨-, -, -, -, -, -, htimeout, -⟩ := h State.spanLate 0 0 0 0 1 Launch.spanLate
  obtain ⟨-, hlate⟩ := htimeout rfl [5] 0 rfl
  obtain ⟨t, hexec, -, hlink⟩ := hlate (by decide)
  rw [execSpanTimeout_spanLate hexec] at hlink
  exact absurd hlink (by decide +kernel)

end Sys2Proof.Machine
end

section
/-! PROOFS. Braids that form (R165): the counts that their fibres carry, and that they have no common fibres. -/

namespace Sys2Proof.Machine

open Sys2Proof

/-! ## Braids that form (R165) -/

/-- Updates of lanes leave the rest of a crew. -/
theorem foldl_rest {ι : Type} (f : Crew → ι → Crew) (hf : ∀ C x, { f C x with lanes := C.lanes } = C) (xs : List ι) (C : Crew) :
    { xs.foldl f C with lanes := C.lanes } = C := by
  induction xs generalizing C with
  | nil => rfl
  | cons x r ih =>
    have h := congrArg (fun D : Crew => { D with lanes := C.lanes }) (ih (f C x))
    exact h.trans (hf C x)

section

variable (C : Crew)

/-- The oldest age stamp and the largest counts of a braid's fibres. -/
def Crew.braidAge (b : Braid) : Nat := b.lanes.foldl (fun m l => min m (C.lane l).age) (C.lane (b.lanes.headD 0)).age
def Crew.braidWaits (b : Braid) : Nat := b.lanes.foldl (fun m l => max m (C.lane l).waits) 0
def Crew.braidPasses (b : Braid) : Nat := b.lanes.foldl (fun m l => max m (C.lane l).passes) 0

theorem Crew.lane_level (b : Braid) (k : Nat) : (C.level b).lane k =
    if k ∈ b.lanes then { C.lane k with age := C.braidAge b, waits := C.braidWaits b, passes := C.braidPasses b } else C.lane k :=
  Crew.lane_setLanes ..

theorem Crew.level_rest (b : Braid) : { C.level b with lanes := C.lanes } = C := rfl

theorem Crew.form_rest (bs : List Braid) : { C.form bs with lanes := C.lanes } = { C with braids := C.braids ++ bs } :=
  foldl_rest Crew.level Crew.level_rest bs { C with braids := C.braids ++ bs }

theorem Crew.lane_foldl_level_outside {bs : List Braid} {k : Nat} (h : ∀ b ∈ bs, k ∉ b.lanes) :
    (bs.foldl Crew.level C).lane k = C.lane k := by
  induction bs generalizing C with
  | nil => rfl
  | cons b r ih =>
    rw [List.foldl_cons, ih _ fun b' hb' => h b' (List.mem_cons_of_mem _ hb'), Crew.lane_level,
      if_neg (h b (List.mem_cons_self ..))]

/-- A fibre in none of the braids that form stays as it is. -/
theorem Crew.lane_form_outside {bs : List Braid} {k : Nat} (h : ∀ b ∈ bs, k ∉ b.lanes) : (C.form bs).lane k = C.lane k :=
  Crew.lane_foldl_level_outside { C with braids := C.braids ++ bs } h

variable {C} in
/-- The counts of a braid are those of its own fibres. -/
theorem Crew.level_congr {D : Crew} {b : Braid} (h : ∀ l ∈ b.lanes, D.lane l = C.lane l) {k : Nat} (hk : k ∈ b.lanes) :
    (D.level b).lane k = (C.level b).lane k := by
  have hhead : D.lane (b.lanes.headD 0) = C.lane (b.lanes.headD 0) := by
    cases hb : b.lanes with
    | nil => rw [hb] at hk; exact absurd hk (List.not_mem_nil)
    | cons l r => exact h l (hb ▸ List.mem_cons_self ..)
  have hage : D.braidAge b = C.braidAge b := by
    unfold Crew.braidAge
    rw [hhead]
    exact List.foldl_ext _ _ _ fun a l hl => by rw [h l hl]
  have hwaits : D.braidWaits b = C.braidWaits b := List.foldl_ext _ _ _ fun a l hl => by rw [h l hl]
  have hpasses : D.braidPasses b = C.braidPasses b := List.foldl_ext _ _ _ fun a l hl => by rw [h l hl]
  rw [Crew.lane_level, Crew.lane_level, if_pos hk, if_pos hk, h k hk, hage, hwaits, hpasses]

/-- Braids without common fibres form one beside the other. -/
theorem Crew.lane_form_inside {bs : List Braid} (hdis : bs.Pairwise fun b b' => ∀ l ∈ b.lanes, l ∉ b'.lanes) {b : Braid}
    (hb : b ∈ bs) {k : Nat} (hk : k ∈ b.lanes) : (C.form bs).lane k = (C.level b).lane k := by
  suffices h : ∀ D : Crew, (bs.foldl Crew.level D).lane k = (D.level b).lane k from h { C with braids := C.braids ++ bs }
  induction bs with
  | nil => exact absurd hb (List.not_mem_nil)
  | cons x r ih =>
    intro D
    obtain ⟨hx, hr⟩ := List.pairwise_cons.1 hdis
    rcases List.mem_cons.1 hb with rfl | hb
    · exact Crew.lane_foldl_level_outside _ fun b' hb' => hx b' hb' k hk
    · rw [List.foldl_cons, ih hr hb]
      refine Crew.level_congr (fun l hl => ?_) hk
      rw [Crew.lane_level, if_neg fun hl' => hx b hb l hl' hl]

end

/-- The largest of some numbers is none of the others' less, and one of them. -/
theorem foldl_max_spec (f : Nat → Nat) {ls : List Nat} (hne : ls ≠ []) :
    (∀ l ∈ ls, f l ≤ ls.foldl (fun m l => max m (f l)) 0) ∧ ∃ l ∈ ls, f l = ls.foldl (fun m l => max m (f l)) 0 := by
  have hgen : ∀ (ls : List Nat) (a : Nat), a ≤ ls.foldl (fun m l => max m (f l)) a
      ∧ (∀ l ∈ ls, f l ≤ ls.foldl (fun m l => max m (f l)) a)
      ∧ (ls.foldl (fun m l => max m (f l)) a = a ∨ ∃ l ∈ ls, f l = ls.foldl (fun m l => max m (f l)) a) := by
    intro ls
    induction ls with
    | nil => simp
    | cons x r ih =>
      intro a
      obtain ⟨hle, hall, hone⟩ := ih (max a (f x))
      simp only [List.foldl_cons, List.mem_cons, forall_eq_or_imp, exists_eq_or_imp]
      refine ⟨by omega, ⟨by omega, hall⟩, ?_⟩
      rcases hone with hone | hone
      · rcases Nat.le_total a (f x) with h | h
        · exact .inr (.inl (by omega))
        · exact .inl (by omega)
      · exact .inr (.inr hone)
  obtain ⟨-, hall, hone⟩ := hgen ls 0
  refine ⟨hall, hone.elim (fun hz => ?_) id⟩
  obtain ⟨l, hl⟩ := List.exists_mem_of_ne_nil ls hne
  exact ⟨l, hl, by have := hall l hl; omega⟩

/-! ## Fibres by PC -/

theorem nodup_eraseDups {α : Type} [DecidableEq α] (xs : List α) : xs.eraseDups.Nodup := by
  match xs with
  | [] => exact List.nodup_nil
  | x :: r =>
    rw [List.eraseDups_cons]
    refine List.nodup_cons.2 ⟨fun h => ?_, nodup_eraseDups _⟩
    have h := List.mem_eraseDups.1 h
    simp at h
termination_by xs.length
decreasing_by
  simp only [List.length_cons]
  exact Nat.lt_succ_of_le (List.length_filter_le ..)

section

variable (C : Crew) (ls : List Nat)

theorem Crew.mem_byPc {b : Braid} : b ∈ C.byPc ls ↔ ∃ l ∈ ls,
    b = { lanes := ls.filter fun m => (C.lane m).pc == (C.lane l).pc
          stall := C.stallOf (ls.filter fun m => (C.lane m).pc == (C.lane l).pc) } := by
  simp only [Crew.byPc, List.mem_map, List.mem_eraseDups]
  constructor
  · rintro ⟨p, ⟨l, hl, rfl⟩, rfl⟩
    exact ⟨l, hl, rfl⟩
  · rintro ⟨l, hl, rfl⟩
    exact ⟨_, ⟨l, hl, rfl⟩, rfl⟩

/-- The braids by PC have no common fibres. -/
theorem Crew.byPc_disjoint : (C.byPc ls).Pairwise fun b b' => ∀ l ∈ b.lanes, l ∉ b'.lanes := by
  refine List.pairwise_map.2 ((nodup_eraseDups _).imp fun {p p'} hne => ?_)
  intro l hl hl'
  simp only [List.mem_filter, beq_iff_eq] at hl hl'
  exact hne (hl.2.symm.trans hl'.2)

end

end Sys2Proof.Machine
end

section
/-! PROOFS. The end of fibres (R164, R382): who may leave a point of convergence, frames, slots, the team barrier and the
checkpoint. -/

namespace Sys2Proof.Machine

open Sys2Proof

/-! ## Fibres that leave a point of convergence all wait there (R169, R170) -/

section

variable {C : Crew} {xs : List Nat} {k : Nat}

theorem Crew.waits_of_mem_dues {split : Bool} (h : xs ∈ C.dues split) (hk : k ∈ xs) : (C.lane k).waitsAt.isSome = true := by
  simp only [Crew.dues, List.mem_map, List.mem_filter, Bool.and_eq_true, List.all_eq_true] at h
  obtain ⟨d, ⟨-, -, hall⟩, rfl⟩ := h
  obtain ⟨hd, hcounts⟩ := List.mem_filter.1 hk
  have h := hall k hd
  rw [hcounts] at h
  simp only [Bool.not_true, Bool.false_or, Bool.and_eq_true] at h
  exact h.2

theorem Crew.waits_of_allAt {e : Extent} {ls : List Nat} (h : C.allAt e ls = some xs) (hk : k ∈ xs) :
    (C.lane k).waitsAt.isSome = true := by
  simp only [Crew.allAt] at h
  split at h
  · cases h
  · split at h
    · split at h
      · rename_i w _ hall
        cases h
        simp only [Bool.and_eq_true, List.all_eq_true, beq_iff_eq] at hall
        rw [hall.2 k hk]
        rfl
      · cases h
    · cases h

theorem Crew.waits_of_mem_complete (h : xs ∈ C.complete) (hk : k ∈ xs) : (C.lane k).waitsAt.isSome = true := by
  simp only [Crew.complete, List.mem_append, List.mem_filterMap, Option.mem_toList] at h
  rcases h with (⟨l, -, h⟩ | h) | h
  · exact Crew.waits_of_allAt h hk
  · exact Crew.waits_of_allAt h hk
  · split at h
    · exact absurd h (List.not_mem_nil)
    · exact Crew.waits_of_allAt (Option.mem_toList.1 h) hk

theorem Crew.waits_of_mem_arrived (h : xs ∈ C.arrived) (hk : k ∈ xs) : (C.lane k).waitsAt.isSome = true := by
  rcases List.mem_append.1 h with h | h
  · exact Crew.waits_of_mem_dues h hk
  · exact Crew.waits_of_mem_complete (List.mem_of_mem_filter h) hk

theorem Crew.mem_of_mem_lowest {ls : List Nat} (hk : k ∈ C.lowest ls) : k ∈ ls := by
  unfold Crew.lowest at hk
  split at hk
  · exact hk
  · exact List.mem_of_mem_filter hk

theorem Crew.waits_of_allMixed {ls : List Nat} (h : C.allMixed ls = some xs) (hk : k ∈ C.lowest xs) :
    (C.lane k).waitsAt.isSome = true := by
  simp only [Crew.allMixed] at h
  split at h
  · rename_i hall
    cases h
    simp only [Bool.and_eq_true, List.all_eq_true] at hall
    exact (hall.1.2 k (Crew.mem_of_mem_lowest hk)).1
  · cases h

theorem Crew.waits_of_split (h : C.split = some xs) (hk : k ∈ xs) : (C.lane k).waitsAt.isSome = true := by
  unfold Crew.split at h
  split at h
  · rename_i ys hys
    cases h
    cases hd : (C.dues true).head? with
    | some zs =>
      rw [hd] at hys
      cases hys
      exact Crew.waits_of_mem_dues (List.mem_of_head? hd) hk
    | none =>
      rw [hd] at hys
      obtain ⟨zs, hzs, rfl⟩ := Option.map_eq_some_iff.1 hys
      obtain ⟨l, -, hl⟩ := List.exists_of_findSome?_eq_some hzs
      exact Crew.waits_of_allMixed hl hk
  · split at h
    · obtain ⟨zs, hzs, rfl⟩ := Option.map_eq_some_iff.1 h
      exact Crew.waits_of_allMixed hzs hk
    · cases h

end

/-! ## The recheck of convergence points -/

theorem Crew.lane_mapVals {f : Nat → Lane → Lane} (C : Crew) (k : Nat) (h : f k {} = {}) :
    ({ C with lanes := C.lanes.mapVals f } : Crew).lane k = f k (C.lane k) := by
  simp only [Crew.lane, AMap.find_mapVals]
  cases C.lanes.find k with
  | none => exact h.symm
  | some L => rfl

section

variable {C : Crew} {k : Nat}

theorem Crew.lane_release_outside {ls : List Nat} (h : k ∉ ls) (age : Nat) (split : Bool) :
    (C.release age split ls).lane k = C.lane k := by
  rw [Crew.release, Crew.lane_setLanes, if_neg h]

theorem Crew.lane_foldl_release {xs : List (List Nat)} (h : ∀ ls ∈ xs, k ∉ ls) (age : Nat) :
    (xs.foldl (fun C ls => C.release age false ls) C).lane k = C.lane k := by
  induction xs generalizing C with
  | nil => rfl
  | cons x r ih =>
    rw [List.foldl_cons, ih fun ls hls => h ls (List.mem_cons_of_mem _ hls), Crew.lane_release_outside (h x (List.mem_cons_self ..))]

/-- A fibre that waits at no point stays as it is. -/
theorem Crew.lane_recheck (h : (C.lane k).waitsAt = none) (age : Nat) : (C.recheck age).lane k = C.lane k := by
  have hout {p : Prop} (hw : p → (C.lane k).waitsAt.isSome = true) : ¬p := fun hp => by
    have := hw hp
    rw [h] at this
    cases this
  unfold Crew.recheck
  split
  · split
    · rename_i hs
      exact Crew.lane_release_outside (hout (Crew.waits_of_split hs)) ..
    · rfl
  · exact Crew.lane_foldl_release (fun ls hls => hout (Crew.waits_of_mem_arrived hls)) _

theorem Crew.recheck_rest (C : Crew) (age : Nat) : { C.recheck age with lanes := C.lanes } = C := by
  unfold Crew.recheck
  split
  · split <;> rfl
  · exact foldl_rest (fun C ls => C.release age false ls) (fun _ _ => rfl) _ _

theorem Crew.recheck_frames (C : Crew) (age : Nat) : (C.recheck age).frames = C.frames := by
  have h := congrArg Crew.frames (Crew.recheck_rest C age)
  exact h

end

/-! ## Frames that pop (R164, R301) -/

theorem Crew.lane_popFrame (C : Crew) (k : Nat) : ∃ f, C.popFrame.lane k = { C.lane k with frozen := f } := by
  unfold Crew.popFrame
  split
  · exact ⟨_, rfl⟩
  · simp only [Crew.lane, AMap.find_mapVals]
    cases C.lanes.find k with
    | none => exact ⟨_, rfl⟩
    | some L => exact ⟨_, rfl⟩

theorem Crew.popFrame_frames (C : Crew) : C.popFrame.frames = C.frames.tail := by
  unfold Crew.popFrame
  split
  · rename_i h
    rw [h]
    rfl
  · rename_i h
    rw [h]
    rfl

theorem Crew.lane_popEmpty (n : Nat) (C : Crew) (k : Nat) : ∃ f, (popEmpty n C).lane k = { C.lane k with frozen := f } := by
  induction n generalizing C with
  | zero => exact ⟨_, rfl⟩
  | succ n ih =>
    unfold popEmpty
    split
    · split
      · obtain ⟨f, hf⟩ := ih C.popFrame
        obtain ⟨g, hg⟩ := C.lane_popFrame k
        exact ⟨f, by rw [hf, hg]⟩
      · exact ⟨_, rfl⟩
    · exact ⟨_, rfl⟩

theorem mem_frames_of_popEmpty {n : Nat} {C : Crew} {fr : Frame} (h : fr ∈ (popEmpty n C).frames) : fr ∈ C.frames := by
  induction n generalizing C with
  | zero => exact h
  | succ n ih =>
    unfold popEmpty at h
    split at h
    · split at h
      · have := ih h
        rw [Crew.popFrame_frames] at this
        exact List.mem_of_mem_tail this
      · exact h
    · exact h

/-! ## The lanes of a mask -/

theorem getLsbD_foldl_lanes (ls : List Nat) (m : BitVec 32) (i : Nat) :
    (ls.foldl (fun m l => m ||| (1#32 <<< l)) m).getLsbD i = (m.getLsbD i || decide (i < 32 ∧ i ∈ ls)) := by
  induction ls generalizing m with
  | nil => simp
  | cons l r ih =>
    rw [List.foldl_cons, ih]
    by_cases hi : i < 32
    · by_cases hl : i = l
      · subst hl
        simp [hi]
      · by_cases hlt : i < l
        · simp [hi, hl, hlt]
        · have : i - l ≠ 0 := by omega
          simp [hi, hl, hlt, this]
    · simp [hi, BitVec.getLsbD_of_ge _ _ (Nat.le_of_not_lt hi)]

theorem maskOf_getLsbD (ls : List Nat) (i : Nat) : (maskOf ls).getLsbD i = decide (i < 32 ∧ i ∈ ls) := by
  rw [maskOf, getLsbD_foldl_lanes]
  simp

/-- Lanes of a list are in no mask that its lanes have left. -/
theorem getLsbD_left {ls : List Nat} {l : Nat} (h : l ∈ ls) (m : BitVec 32) : (m &&& ~~~(maskOf ls)).getLsbD l = false := by
  by_cases hl : l < 32
  · simp [maskOf_getLsbD, h, hl]
  · exact BitVec.getLsbD_of_ge _ _ (Nat.le_of_not_lt hl)

/-! ## States that differ in their teams alone -/

/-- A state is another but for its teams. -/
def State.onlyTeams (s t : State) : Prop := { t with teams := s.teams } = s

section

variable {s t u : State}

theorem State.onlyTeams.trans (h : s.onlyTeams t) (h' : t.onlyTeams u) : s.onlyTeams u := by
  have h' := congrArg (fun v : State => { v with teams := s.teams }) h'
  exact h'.trans h

theorem State.onlyTeams.cur (h : s.onlyTeams t) : t.cur = s.cur := by
  have h := congrArg State.cur h
  exact h

theorem State.onlyTeams.mem (h : s.onlyTeams t) : t.mem = s.mem := by
  have h := congrArg State.mem h
  exact h

theorem State.onlyTeams.msgs (h : s.onlyTeams t) : t.msgs = s.msgs := by
  have h := congrArg State.msgs h
  exact h

theorem State.onlyTeams.sameMemory (h : s.onlyTeams t) : s.sameMemory t := by
  rw [State.sameMemory, h.mem]
  exact ⟨fun _ => rfl, fun _ => rfl, fun _ => rfl⟩

end

theorem State.onlyTeams_setTeam (s : State) (t : Nat) (T : Team) : s.onlyTeams (s.setTeam t T) := rfl
theorem State.onlyTeams_mapLanes (s : State) (ls : List Nat) (f : Nat → Lane → Lane) : s.onlyTeams (s.mapLanes ls f) := rfl

/-! ## Slots that become free (R89, R162) -/

section

variable (s : State) (t c : Nat)

/-- A fibre once the slots of ended fibres without values to come are free. -/
theorem State.lane_reap (k : Nat) : (s.reap t c).lane t c k = if (s.lane t c k).state = .ended ∧ !s.inFlight t c k then
    { s.lane t c k with state := .free } else s.lane t c k := by
  rw [State.reap, State.updCrew, State.lane, State.crew_setCrew_self]
  exact Crew.lane_mapVals (f := fun k L => if L.state = .ended ∧ !s.inFlight t c k then { L with state := .free } else L)
    (s.crew t c) k (if_neg fun h => FibreState.noConfusion h.1)

theorem State.reap_frames : ((s.reap t c).crew t c).frames = (s.crew t c).frames := by
  simp [State.reap, State.updCrew]

/-! ## Fibres that end (R164, R382) -/

variable (ls : List Nat)

/-- The crew once fibres have ended, before frames pop. -/
def Crew.ending (C : Crew) (ls : List Nat) : Crew :=
  { C.setLanes (ls.map fun l =>
      (l, { (C.lane l) with state := .ended, frozen := false, streams := [], guard := none, hints := {}, due := none })) with
    frames := C.frames.map fun fr => { fr with mask := fr.mask &&& ~~~(maskOf ls) }
    tickets := C.tickets.mapVals fun _ k => { k with gone := k.gone || ls.contains k.lane } }

/-- The crew once frames without fibres have popped and what is complete without the ended fibres goes on. -/
def Crew.ended (C : Crew) (ls : List Nat) (age : Nat) : Crew := (popEmpty Config.maxFrames (C.ending ls)).recheck age

theorem State.crew_endFibres : (s.endFibres t c ls).crew t c
    = ((s.setCrew t c ((s.crew t c).ended ls (s.nextCycle t))).reap t c).crew t c := by
  unfold State.endFibres
  dsimp only
  split
  · rw [State.crew, State.team_setTeam_self]
    rfl
  · rfl

theorem State.onlyTeams_endFibres : s.onlyTeams (s.endFibres t c ls) := by
  unfold State.endFibres
  dsimp only
  split <;> rfl

end

theorem Crew.lane_ending (C : Crew) (ls : List Nat) (k : Nat) : (C.ending ls).lane k = if k ∈ ls then
    { C.lane k with state := .ended, frozen := false, streams := [], guard := none, hints := {}, due := none } else C.lane k :=
  Crew.lane_setLanes C ls
    (fun l => { C.lane l with state := .ended, frozen := false, streams := [], guard := none, hints := {}, due := none }) k

/-- A fibre that waits at no point when fibres of its crew end. -/
theorem Crew.lane_ended {C : Crew} {ls : List Nat} {k : Nat} (h : ((C.ending ls).lane k).waitsAt = none) (age : Nat) :
    ∃ f, (C.ended ls age).lane k = { (C.ending ls).lane k with frozen := f } := by
  obtain ⟨f, hf⟩ := Crew.lane_popEmpty Config.maxFrames (C.ending ls) k
  refine ⟨f, ?_⟩
  rw [Crew.ended, Crew.lane_recheck ?_, hf]
  rw [hf]
  exact h

section

variable {s : State} {t c : Nat} {ls : List Nat} {k : Nat}

/-- A fibre that ends. -/
theorem State.lane_endFibres_ending (hk : k ∈ ls) : ∃ f, (s.endFibres t c ls).lane t c k =
    { s.lane t c k with
      state := if s.inFlight t c k then .ended else .free, frozen := f, streams := [], guard := none, hints := {}, due := none } := by
  have hlane := (s.crew t c).lane_ending ls k
  rw [if_pos hk] at hlane
  obtain ⟨f, hf⟩ := Crew.lane_ended (C := s.crew t c) (ls := ls) (k := k) (by rw [hlane]; rfl) (s.nextCycle t)
  rw [hlane] at hf
  refine ⟨f, ?_⟩
  have hreap := (s.setCrew t c ((s.crew t c).ended ls (s.nextCycle t))).lane_reap t c k
  simp only [State.lane, State.crew_setCrew_self, hf] at hreap
  rw [State.lane, State.crew_endFibres, hreap]
  have hflight : (s.setCrew t c ((s.crew t c).ended ls (s.nextCycle t))).inFlight t c k = s.inFlight t c k := rfl
  rw [hflight]
  cases s.inFlight t c k <;> rfl

/-- A Ready fibre that stays. -/
theorem State.lane_endFibres_staying (hk : k ∉ ls) (hready : (s.lane t c k).state = .ready) :
    ∃ f, (s.endFibres t c ls).lane t c k = { s.lane t c k with frozen := f } := by
  have hlane := (s.crew t c).lane_ending ls k
  rw [if_neg hk] at hlane
  have hready : ((s.crew t c).lane k).state = .ready := hready
  obtain ⟨f, hf⟩ := Crew.lane_ended (C := s.crew t c) (ls := ls) (k := k)
    (by rw [hlane, Lane.waitsAt, hready]) (s.nextCycle t)
  rw [hlane] at hf
  refine ⟨f, ?_⟩
  have hreap := (s.setCrew t c ((s.crew t c).ended ls (s.nextCycle t))).lane_reap t c k
  simp only [State.lane, State.crew_setCrew_self, hf] at hreap
  rw [State.lane, State.crew_endFibres, hreap, if_neg]
  · rfl
  · rw [hready]
    exact fun h => FibreState.noConfusion h.1

/-- Ended fibres are in no EMASK. -/
theorem State.mask_endFibres {fr : Frame} (h : fr ∈ ((s.endFibres t c ls).crew t c).frames) (hk : k ∈ ls) :
    fr.mask.getLsbD k = false := by
  rw [State.crew_endFibres, State.reap_frames, State.crew_setCrew_self, Crew.ended, Crew.recheck_frames] at h
  obtain ⟨fr', -, rfl⟩ := List.mem_map.1 (mem_frames_of_popEmpty h)
  exact getLsbD_left hk _

end

/-! ## The team barrier (R424) and the checkpoint (R331) -/

section

variable (s : State) (t : Nat) (skip : Option (Nat × List Nat))

theorem State.onlyTeams_checkpoint : s.onlyTeams (s.checkpoint t skip) := rfl

theorem State.body_checkpoint (k : Nat) : ((s.checkpoint t skip).team k).body = (s.team k).body := by
  unfold State.checkpoint
  by_cases h : k = t
  · subst h
    rw [State.team_setTeam_self]
  · rw [State.team_setTeam_ne _ _ h]

@[simp] theorem State.crew_checkpoint (k c : Nat) : (s.checkpoint t skip).crew k c = s.crew k c := by
  rw [State.crew, State.body_checkpoint]
  rfl

@[simp] theorem State.lane_checkpoint (k c l : Nat) : (s.checkpoint t skip).lane k c l = s.lane k c l := by
  rw [State.lane, State.crew_checkpoint]
  rfl

/-- A checkpoint is taken and starts an interval. -/
theorem State.checkpoint_spec : ((s.checkpoint t skip).team t).shadow.isSome = true ∧ ((s.checkpoint t skip).team t).rollbacks = 0 := by
  unfold State.checkpoint
  rw [State.team_setTeam_self]
  exact ⟨rfl, rfl⟩

theorem State.onlyTeams_barrierCheck : s.onlyTeams (s.barrierCheck t skip) := by
  unfold State.barrierCheck
  dsimp only
  split <;> rfl

/-- The crews of a team of which every fibre waits at the barrier go on. -/
theorem State.crew_passed (c : Nat) : (s.updBody t fun b => { b with crews := b.crews.mapVals fun _ C => C.passBarrier (s.nextCycle t) }).crew t c
    = if ((s.team t).body.crews.find c).isSome then (s.crew t c).passBarrier (s.nextCycle t) else s.crew t c := by
  simp only [State.crew, State.updBody, State.team_setTeam_self, AMap.find_mapVals]
  cases (s.team t).body.crews.find c <;> rfl

/-- A check of the barrier leaves a crew as it is, or lets it pass. -/
theorem State.crew_barrierCheck (c : Nat) : (s.barrierCheck t skip).crew t c = s.crew t c
    ∨ (s.barrierCheck t skip).crew t c = (s.crew t c).passBarrier (s.nextCycle t) := by
  unfold State.barrierCheck
  dsimp only
  split
  · exact .inl rfl
  · rw [State.crew_checkpoint, State.crew_passed]
    split
    · exact .inr rfl
    · exact .inl rfl

end

section

variable (C : Crew) (age : Nat)

/-- The fibres of a crew that wait at the team barrier. -/
def Crew.atBarrier : List Nat := (List.range 32).filter fun l => (C.lane l).atBarrier

theorem Crew.form_frames (bs : List Braid) : (C.form bs).frames = C.frames := by
  have h := congrArg Crew.frames (C.form_rest bs)
  exact h

/-- A fibre that does not wait at the barrier stays as it is. -/
theorem Crew.lane_passBarrier_outside {k : Nat} (h : (C.lane k).atBarrier = false) : (C.passBarrier age).lane k = C.lane k := by
  have hk : k ∉ C.atBarrier := fun hk => by
    have := (List.mem_filter.1 hk).2
    rw [h] at this
    cases this
  unfold Crew.passBarrier
  rw [Crew.lane_form_outside]
  · exact (Crew.lane_setLanes C C.atBarrier _ k).trans (if_neg hk)
  · intro b hb
    obtain ⟨b', hb', rfl⟩ := List.mem_map.1 hb
    obtain ⟨l, -, rfl⟩ := (Crew.mem_byPc ..).1 hb'
    exact fun hm => hk (List.mem_of_mem_filter hm)

theorem Crew.passBarrier_frames : (C.passBarrier age).frames = C.frames := by
  rw [Crew.passBarrier, Crew.form_frames]
  rfl

end

theorem State.lane_barrierCheck {s : State} {t c k : Nat} (h : (s.lane t c k).atBarrier = false) (skip : Option (Nat × List Nat)) :
    (s.barrierCheck t skip).lane t c k = s.lane t c k := by
  rw [State.lane]
  rcases s.crew_barrierCheck t skip c with hc | hc <;> rw [hc]
  · rfl
  · exact Crew.lane_passBarrier_outside _ _ h

theorem State.frames_barrierCheck (s : State) (t : Nat) (skip : Option (Nat × List Nat)) (c : Nat) :
    ((s.barrierCheck t skip).crew t c).frames = (s.crew t c).frames := by
  rcases s.crew_barrierCheck t skip c with hc | hc <;> rw [hc]
  exact Crew.passBarrier_frames _ _

end Sys2Proof.Machine
end

section
/-! PROOFS. FEND and FSPAWN (R163, R164, R382, R383). -/

namespace Sys2Proof.Machine

open Sys2Proof

/-! ## Releases of watched fibres (R240) -/

section

variable {s : State} {srcs : List Src} {dsts : List Dst} (h : s.ready srcs dsts = true)
include h

theorem State.ready_unbound : s.unbound srcs = true :=
  List.all_eq_true.2 fun _ hl => List.all_eq_true.2 fun _ hx => by
    have hx := State.ready_src h hl hx
    simp only [State.srcReady, Bool.and_eq_true] at hx
    exact hx.1.1

theorem State.ready_full {l : Nat} (hl : l ∈ s.effective) {f : RegF × Nat} (hf : f ∈ fieldsOf srcs dsts) :
    s.fieldFull l f.1 f.2 = true := by
  simp only [fieldsOf, List.mem_append, List.mem_map] at hf
  rcases hf with ⟨x, hx, rfl⟩ | ⟨d, hd, rfl⟩
  · exact State.srcReady_full (State.ready_src h hl hx)
  · exact State.ready_dst h hl hd

theorem State.ready_inSpan {l : Nat} (hl : l ∈ s.effective) : s.inSpan l (fieldsOf srcs dsts) = true :=
  List.all_eq_true.2 fun _ hf => by rw [State.fieldFull_bad (State.ready_full h hl hf), Bool.not_false]

theorem State.ready_empties {l : Nat} (hl : l ∈ s.effective) : s.empties l (fieldsOf srcs dsts) = [] :=
  List.flatMap_eq_nil_iff.2 fun f hf => State.fieldFull_empty (d := { f := f.1, n := f.2 }) (State.ready_full h hl hf)

end

/-- A release whose operands are ready traps where a fibre for which it takes effect stands in a watch entry. -/
theorem exec_watched {s : State} {i : Instr} {x : Reads} (hx : readsOf i = some x) (hlowest : x.lowest = false)
    (hrelease : x.release = true) (h : s.ready x.srcs x.dsts = true) (hw : ∃ l ∈ s.effective, s.curCrew.watched l = true) :
    exec i s = .next (s.trap s.effective causeUncheckedWatch 0) := by
  have htakers : s.takers x = s.effective := if_neg (by rw [hlowest]; exact Bool.false_ne_true)
  refine (opens_of_reads hx).stops s _ (State.ready_effective h) (State.ready_unbound h) (State.heldBack_watched ?_ ?_ ?_)
  · rw [htakers]
    exact fun l hl => State.ready_inSpan h hl
  · rw [htakers]
    exact fun l hl => State.empties_trapping (State.ready_empties h hl)
  · rw [htakers]
    exact ⟨hrelease, hw⟩

/-! ## FEND -/

section

variable {s : State}

/-- The state in which FEND ends its fibres: the others have gone on. -/
def State.othersOn (s : State) : State := s.mapLanes s.cur.lanes fun l L => if s.effective.contains l then L else L.advance

/-- The state that FEND gives. -/
def State.fended (s : State) : State :=
  ((s.othersOn.endFibres s.cur.team s.cur.crew s.effective).barrierCheck s.cur.team (some (s.cur.crew, s.cur.lanes))).checkpointHere

theorem execFend_ends (h : s.ready [] [] = true) (hw : ∀ l ∈ s.effective, s.curCrew.watched l = false) :
    exec .fend s = .next s.fended := by
  have hgo := State.prepare_ready (a := { release := true }) h (.inr hw) (by simp [Ask.steered]) (fun _ _ => rfl) fun _ _ => rfl
  have hls : (s.reads { release := true }).map Prod.fst = s.effective := by
    simp [State.reads, State.readers, Function.comp_def]
  rw [exec_fend, execFend, hgo]
  simp only [hls]
  rfl

theorem State.onlyTeams_othersOn (s : State) : s.onlyTeams s.othersOn := s.onlyTeams_mapLanes _ _

theorem State.onlyTeams_fended (s : State) : s.onlyTeams s.fended := by
  refine s.onlyTeams_othersOn.trans ((State.onlyTeams_endFibres s.othersOn s.cur.team s.cur.crew s.effective).trans ?_)
  rw [State.fended, State.checkpointHere]
  exact (State.onlyTeams_barrierCheck ..).trans (State.onlyTeams_checkpoint ..)

/-- A fibre that does not wait at the team barrier once others of its crew have ended. -/
theorem State.curLane_fended {l : Nat}
    (h : ((s.othersOn.endFibres s.cur.team s.cur.crew s.effective).lane s.cur.team s.cur.crew l).atBarrier = false) :
    s.fended.curLane l = (s.othersOn.endFibres s.cur.team s.cur.crew s.effective).lane s.cur.team s.cur.crew l := by
  rw [State.curLane, State.curCrew, s.onlyTeams_fended.cur, State.fended, State.checkpointHere, State.crew_checkpoint]
  exact State.lane_barrierCheck h _

/-- A fibre that FEND ends. -/
theorem State.curLane_fended_effective {l : Nat} (h : l ∈ s.effective) :
    (s.fended.curLane l).state = (if s.inFlight s.cur.team s.cur.crew l then .ended else .free)
      ∧ (s.fended.curLane l).streams = [] ∧ (s.fended.curLane l).regs = (s.curLane l).regs := by
  obtain ⟨f, hf⟩ := State.lane_endFibres_ending (s := s.othersOn) (t := s.cur.team) (c := s.cur.crew) h
  have hregs : (s.othersOn.lane s.cur.team s.cur.crew l).regs = (s.curLane l).regs := by
    have hlane := s.curLane_mapLanes s.cur.lanes (fun l L => if s.effective.contains l then L else L.advance) l
    rw [if_pos (List.contains_iff_mem.2 h), ite_self] at hlane
    exact congrArg Lane.regs hlane
  have hflight : s.othersOn.inFlight s.cur.team s.cur.crew l = s.inFlight s.cur.team s.cur.crew l := rfl
  rw [hflight] at hf
  rw [State.curLane_fended (by rw [hf]; cases s.inFlight s.cur.team s.cur.crew l <;> rfl), hf]
  exact ⟨rfl, rfl, hregs⟩

/-- A Ready fibre of the braid that goes on. -/
theorem State.curLane_fended_other {l : Nat} (hl : l ∈ s.cur.lanes) (h : l ∉ s.effective) (hready : (s.curLane l).state = .ready) :
    (s.fended.curLane l).pc = (s.curLane l).pc + 4 := by
  have hlane : s.othersOn.lane s.cur.team s.cur.crew l = (s.curLane l).advance := by
    have hlane := s.curLane_mapLanes s.cur.lanes (fun l L => if s.effective.contains l then L else L.advance) l
    rw [if_pos hl, if_neg (mt List.contains_iff_mem.1 h)] at hlane
    exact hlane
  obtain ⟨f, hf⟩ := State.lane_endFibres_staying (s := s.othersOn) (t := s.cur.team) (c := s.cur.crew) h (by rw [hlane]; exact hready)
  rw [hlane] at hf
  rw [State.curLane_fended ?_, hf]
  · rfl
  · have hready : (s.curLane l).advance.state = .ready := hready
    simp [hf, Lane.atBarrier, hready]

theorem State.fended_frames {fr : Frame} (h : fr ∈ s.fended.curCrew.frames) {l : Nat} (hl : l ∈ s.effective) :
    fr.mask.getLsbD l = false := by
  rw [State.curCrew, s.onlyTeams_fended.cur, State.fended, State.checkpointHere, State.crew_checkpoint, State.frames_barrierCheck] at h
  exact State.mask_endFibres h hl

theorem State.fended_shadow (s : State) :
    (s.fended.team s.cur.team).shadow.isSome = true ∧ (s.fended.team s.cur.team).rollbacks = 0 := by
  have hcur : (s.othersOn.endFibres s.cur.team s.cur.crew s.effective).cur = s.cur :=
    (s.onlyTeams_othersOn.trans (State.onlyTeams_endFibres ..)).cur
  rw [State.fended, State.checkpointHere, (State.onlyTeams_barrierCheck ..).cur, hcur]
  exact State.checkpoint_spec ..

end

/-- The end of fibres (R164, R382). -/
theorem execFend_spec {s : State} (h : s.ready [] [] = true) (hw : ∀ l ∈ s.effective, s.curCrew.watched l = false)
    (hready : ∀ l ∈ s.cur.lanes, l < 32 ∧ (s.curLane l).state = .ready) :
    ∃ t, exec .fend s = .next t ∧ s.sameMemory t ∧ t.msgs = s.msgs
      ∧ (∀ l ∈ s.effective, (t.curLane l).state = (if s.inFlight s.cur.team s.cur.crew l then .ended else .free)
        ∧ (t.curLane l).streams = [] ∧ (t.curLane l).regs = (s.curLane l).regs)
      ∧ (∀ fr ∈ t.curCrew.frames, ∀ l ∈ s.effective, fr.mask.getLsbD l = false)
      ∧ (∀ l ∈ s.cur.lanes, l ∉ s.effective → (t.curLane l).pc = (s.curLane l).pc + 4)
      ∧ (t.team s.cur.team).shadow.isSome = true ∧ (t.team s.cur.team).rollbacks = 0 :=
  ⟨_, execFend_ends h hw, s.onlyTeams_fended.sameMemory, s.onlyTeams_fended.msgs, fun _ => State.curLane_fended_effective,
    fun _ hfr _ => State.fended_frames hfr, fun l hl hn => State.curLane_fended_other hl hn (hready l hl).2, s.fended_shadow⟩

/-! ## FSPAWN -/

/-- The free slots of the issuing crew, ascending. -/
def State.freeSlots (s : State) : List Nat := (List.range 32).filter fun l => (s.curLane l).state == .free

/-- A fibre that starts at a PC with a taint, in a lane slot. -/
def State.starting (s : State) (pc : Word) (taint : Bool) (L : Lane) : Lane :=
  let B := (s.launchOf s.cur.team).map Launch.block
  L.start pc ((B.map Block.fmode).getD 0) ((B.map Block.ftrapen).getD 0) taint (!s.curCrew.frames.isEmpty) (s.nextCycle s.cur.team)

/-- What FSPAWN gives in `d`: the lane of the fibre that it started, or all ones. -/
def slotWord : Option Nat → Word
  | some l => BitVec.ofNat 32 l
  | none => 0xFFFFFFFF

/-- A fibre with its operands once FSPAWN has taken effect for it, with the slot that it found. -/
def State.spawning (s : State) (d : RegF) (x : Nat × Lane × List Val) (slot : Option Nat) : Lane :=
  let a := valAt x.2.2 0
  let L := x.2.1.steered a.tag
  (s.env.put x.1 L { f := d } (val32 (slotWord slot) (a.tag || L.gt))).advance

/-- The state once one fibre has issued FSPAWN. -/
def State.spawnOne (s : State) (d : RegF) (x : Nat × Lane × List Val) : State :=
  let slot := s.freeSlots.head?
  let a := valAt x.2.2 0
  let C := match slot with
    | some l => s.curCrew.setLane l (s.starting a.w32 (x.2.1.steered a.tag).taint (s.curLane l))
    | none => s.curCrew
  s.setCurCrew (C.setLane x.1 (s.spawning d x slot))

theorem State.spawn_cons (s : State) (d : RegF) (x : Nat × Lane × List Val) (xs : List (Nat × Lane × List Val)) :
    s.spawn d (x :: xs) = (s.spawnOne d x).spawn d xs := by
  have hhead : s.freeSlots.head? = (List.range 32).find? fun l => (s.curCrew.lane l).state == .free := List.head?_filter
  rw [State.spawn, State.spawnOne, hhead]
  cases (List.range 32).find? fun l => (s.curCrew.lane l).state == .free <;> rfl

section

variable {s : State} {d : RegF} {x : Nat × Lane × List Val}

theorem State.spawning_state (slot : Option Nat) : (s.spawning d x slot).state = x.2.1.state := by
  have h (v : Val) := congrArg Lane.state (Env.put_rest s.env x.1 (x.2.1.steered (valAt x.2.2 0).tag) { f := d } v)
  exact h _

theorem State.freeSlots_nodup (s : State) : s.freeSlots.Nodup := List.nodup_range.filter _

theorem State.mem_freeSlots {l : Nat} : l ∈ s.freeSlots ↔ l < 32 ∧ (s.curLane l).state = .free := by
  simp [State.freeSlots]

theorem State.onlyTeams_spawnOne : s.onlyTeams (s.spawnOne d x) := rfl

theorem State.spawnOne_frames : (s.spawnOne d x).curCrew.frames = s.curCrew.frames := by
  rw [State.spawnOne, State.curCrew_setCurCrew]
  cases s.freeSlots.head? <;> rfl

theorem State.launchOf_spawnOne (t : Nat) : (s.spawnOne d x).launchOf t = s.launchOf t := State.launchOf_setCrew ..

theorem State.nextCycle_spawnOne : (s.spawnOne d x).nextCycle s.cur.team = s.nextCycle s.cur.team := by
  rw [State.nextCycle, State.spawnOne, State.setCurCrew, State.team_setCrew]
  rfl

theorem State.env_spawnOne : (s.spawnOne d x).env = s.env := by
  rw [State.env, State.spawnOne_frames, State.env, State.spanOf, State.launchOf_spawnOne]
  rfl

theorem State.starting_spawnOne : (s.spawnOne d x).starting = s.starting := by
  funext pc taint L
  rw [State.starting, State.spawnOne_frames, State.launchOf_spawnOne]
  exact congrArg (L.start pc _ _ taint _) State.nextCycle_spawnOne

theorem State.spawning_spawnOne : (s.spawnOne d x).spawning d = s.spawning d := by
  funext y slot
  rw [State.spawning, State.env_spawnOne]
  rfl

theorem State.curLane_spawnOne (k : Nat) : (s.spawnOne d x).curLane k =
    if k = x.1 then s.spawning d x s.freeSlots.head?
    else if s.freeSlots.head? = some k then
      s.starting (valAt x.2.2 0).w32 (x.2.1.steered (valAt x.2.2 0).tag).taint (s.curLane k)
    else s.curLane k := by
  rw [State.spawnOne, State.curLane, State.curCrew_setCurCrew]
  by_cases hk : k = x.1
  · subst hk
    rw [Crew.lane_setLane_self, if_pos rfl]
  · rw [Crew.lane_setLane_ne _ _ hk, if_neg hk]
    cases hs : s.freeSlots.head? with
    | none => rfl
    | some n =>
      by_cases hn : k = n
      · subst hn
        simp
      · rw [if_neg fun h => hn (Option.some.inj h).symm]
        exact Crew.lane_setLane_ne _ _ hn

/-- One fibre takes the lowest free slot. -/
theorem State.freeSlots_spawnOne (hstate : x.2.1.state ≠ .free) (hx : (s.curLane x.1).state ≠ .free) :
    (s.spawnOne d x).freeSlots = s.freeSlots.tail := by
  have hfree (k : Nat) : ((s.spawnOne d x).curLane k).state = .free ↔ (s.curLane k).state = .free ∧ s.freeSlots.head? ≠ some k := by
    rw [State.curLane_spawnOne]
    by_cases hk : k = x.1
    · subst hk
      rw [if_pos rfl, State.spawning_state]
      exact iff_of_false hstate fun h => hx h.1
    · rw [if_neg hk]
      split
      · rename_i hhead
        exact iff_of_false FibreState.noConfusion fun h => h.2 hhead
      · rename_i hhead
        exact (and_iff_left hhead).symm
  have hfilter : (s.spawnOne d x).freeSlots = s.freeSlots.filter fun k => decide (s.freeSlots.head? ≠ some k) := by
    conv_rhs => rw [State.freeSlots]
    rw [State.freeSlots, List.filter_filter]
    refine List.filter_congr fun k _ => ?_
    rw [Bool.eq_iff_iff, beq_iff_eq, hfree, Bool.and_eq_true, beq_iff_eq, decide_eq_true_iff]
    exact and_comm
  rw [hfilter]
  have hnodup := s.freeSlots_nodup
  cases hs : s.freeSlots with
  | nil => rfl
  | cons n r =>
    rw [hs] at hnodup
    obtain ⟨hn, -⟩ := List.nodup_cons.1 hnodup
    rw [List.filter_cons_of_neg (by simp), List.tail_cons, List.filter_eq_self]
    intro k hk
    refine decide_eq_true fun h => hn ?_
    rw [Option.some.inj h]
    exact hk

end

/-- The state once some fibres have issued FSPAWN one after another: each has its slot, in which its fibre has started, and
no other lane has changed. -/
structure State.Spawned (s t : State) (d : RegF) (xs : List (Nat × Lane × List Val)) : Prop where
  onlyTeams : s.onlyTeams t
  spawner : ∀ (i : Nat) (x : Nat × Lane × List Val), xs[i]? = some x → t.curLane x.1 = s.spawning d x s.freeSlots[i]?
  started : ∀ (i : Nat) (x : Nat × Lane × List Val), xs[i]? = some x → ∀ n, s.freeSlots[i]? = some n →
    t.curLane n = s.starting (valAt x.2.2 0).w32 (x.2.1.steered (valAt x.2.2 0).tag).taint (s.curLane n)
  others : ∀ k, (∀ x ∈ xs, k ≠ x.1) → (∀ i, i < xs.length → s.freeSlots[i]? ≠ some k) → t.curLane k = s.curLane k

theorem State.spawned_spawn {s : State} {d : RegF} {xs : List (Nat × Lane × List Val)} (hnodup : (xs.map Prod.fst).Nodup)
    (hstate : ∀ x ∈ xs, x.2.1.state ≠ .free) (hslot : ∀ x ∈ xs, (s.curLane x.1).state ≠ .free) :
    s.Spawned (s.spawn d xs) d xs := by
  induction xs generalizing s with
  | nil =>
    exact ⟨rfl, fun _ _ h => by simp at h, fun _ _ h => by simp at h, fun _ _ _ => rfl⟩
  | cons x r ih =>
    obtain ⟨hxr, hr⟩ := List.nodup_cons.1 hnodup
    have hx : (s.curLane x.1).state ≠ .free := hslot x (List.mem_cons_self ..)
    have hfree : (s.spawnOne d x).freeSlots = s.freeSlots.tail := State.freeSlots_spawnOne (hstate x (List.mem_cons_self ..)) hx
    have hother (k : Nat) (hk : k ≠ x.1) (hhead : s.freeSlots[0]? ≠ some k) : (s.spawnOne d x).curLane k = s.curLane k := by
      rw [State.curLane_spawnOne, if_neg hk, if_neg (by rwa [List.head?_eq_getElem?])]
    have hbusy (y : Nat × Lane × List Val) (hy : y ∈ x :: r) (i : Nat) : s.freeSlots[i]? ≠ some y.1 := fun h =>
      hslot y hy (State.mem_freeSlots.1 (List.mem_of_getElem? h)).2
    have hne (y : Nat × Lane × List Val) (hy : y ∈ r) : y.1 ≠ x.1 := fun h => hxr (h ▸ List.mem_map_of_mem hy)
    have hone (n : Nat) (hn : n ∈ s.freeSlots) : n ≠ x.1 := fun h => hx (h ▸ (State.mem_freeSlots.1 hn).2)
    obtain ⟨honly, hspawner, hstarted, hothers⟩ := ih (s := s.spawnOne d x) hr
      (fun y hy => hstate y (List.mem_cons_of_mem _ hy)) fun y hy => by
        rw [hother _ (hne y hy) (hbusy y (List.mem_cons_of_mem _ hy) 0)]
        exact hslot y (List.mem_cons_of_mem _ hy)
    rw [State.spawn_cons]
    simp only [hfree, List.getElem?_tail, State.spawning_spawnOne, State.starting_spawnOne] at hspawner hstarted hothers
    have hlater (n i : Nat) (hn : s.freeSlots[0]? = some n) : s.freeSlots[i + 1]? ≠ some n := fun hi => by
      have := (List.getElem?_inj (List.getElem?_eq_some_iff.1 hn).1 s.freeSlots_nodup).1 (hn.trans hi.symm)
      omega
    refine ⟨State.onlyTeams_spawnOne.trans honly, ?_, ?_, ?_⟩
    · rintro (_ | i) y hy
      · obtain rfl : x = y := Option.some.inj hy
        rw [hothers x.1 (fun z hz => (hne z hz).symm) fun i _ => hbusy x (List.mem_cons_self ..) (i + 1), State.curLane_spawnOne,
          if_pos rfl, List.head?_eq_getElem?]
      · exact hspawner i y hy
    · rintro (_ | i) y hy n hn
      · obtain rfl : x = y := Option.some.inj hy
        rw [hothers n (fun z hz h => hbusy z (List.mem_cons_of_mem _ hz) 0 (h ▸ hn)) fun i _ => hlater n i hn,
          State.curLane_spawnOne, if_neg (hone n (List.mem_of_getElem? hn)), if_pos (by rwa [List.head?_eq_getElem?])]
      · rw [hstarted i y hy n hn, hother n (hone n (List.mem_of_getElem? hn)) fun h => hlater n i h hn]
    · intro k hk hslots
      rw [hothers k (fun y hy => hk y (List.mem_cons_of_mem _ hy)) fun i hi => hslots (i + 1) (Nat.succ_lt_succ hi)]
      exact hother k (hk x (List.mem_cons_self ..)) (hslots 0 (Nat.succ_pos _))

/-- The fibres of the braid for which a word does not take effect have gone on. -/
def State.othersPassed (s : State) : State := s.mapLanes (s.cur.lanes.filter fun l => !s.effective.contains l) fun _ L => L.advance

/-- The fibres for which FSPAWN takes effect, with the target that each reads. -/
def State.spawners (s : State) (x : Src) : List (Nat × Lane × List Val) := s.effective.map fun l => (l, s.curLane l, [s.operand l x])

section

variable {s : State}

theorem misaligned_of_mod {w : Word} (h : w.toNat % 4 = 0) : misaligned w = false := by
  have : w.extractLsb' 0 2 = 0 := by
    apply BitVec.eq_of_toNat_eq
    rw [BitVec.extractLsb'_toNat]
    simpa using h
  rw [misaligned, this]
  rfl

theorem execFspawn_goes {d a : RegF} {p : Bool} (h : s.ready [src a 1 p] [{ f := d }] = true)
    (hsteer : s.maySteer fun l => (s.operand l (src a 1 p)).tag)
    (htarget : ∀ l ∈ s.effective, (s.operand l (src a 1 p)).w32.toNat % 4 = 0) :
    exec (.fspawn d a p) s = .next (s.othersPassed.spawn d (s.spawners (src a 1 p))) := by
  rw [exec_fspawn, execFspawn]
  have hreads (A : Ask) (hs : A.srcs = [src a 1 p]) (hone : A.single = false) : s.reads A = s.spawners (src a 1 p) := by
    rw [State.reads, State.readers, hone, hs]
    rfl
  dsimp only
  rw [State.prepare_ready h (.inl rfl) ?_ ?_ fun _ _ => rfl, hreads _ rfl rfl]
  · have hrest : (fun l => !(s.spawners (src a 1 p)).any fun x => x.1 == l) = fun l => !s.effective.contains l := by
      funext l
      rw [Bool.not_inj_iff, Bool.eq_iff_iff, List.contains_iff_mem]
      simp [State.spawners]
    simp only [hrest, State.breaches_nil (State.ready_named h), State.breach_nil]
    rfl
  · rcases hsteer with hsteer | hsteer
    · rw [hsteer]
      rfl
    · rw [hreads _ rfl rfl, Bool.and_eq_false_iff]
      refine .inr (List.any_eq_false.2 fun x hx => ?_)
      obtain ⟨l, hl, rfl⟩ := List.mem_map.1 hx
      obtain ⟨hown, hgtag⟩ := hsteer l hl
      simp [tagsOf, hown, hgtag]
  · exact fun l hl => if_neg (by rw [show (valAt _ 0).w32 = (s.operand l (src a 1 p)).w32 from rfl, misaligned_of_mod (htarget l hl)]; exact Bool.false_ne_true)

theorem State.curLane_othersPassed (l : Nat) : s.othersPassed.curLane l =
    if l ∈ s.cur.lanes ∧ l ∉ s.effective then (s.curLane l).advance else s.curLane l := by
  rw [State.othersPassed, State.curLane_mapLanes]
  exact if_congr (by simp [List.mem_filter]) rfl rfl

theorem State.freeSlots_othersPassed : s.othersPassed.freeSlots = s.freeSlots := by
  refine List.filter_congr fun l _ => ?_
  rw [State.curLane_othersPassed]
  split <;> rfl

theorem State.frames_othersPassed : s.othersPassed.curCrew.frames = s.curCrew.frames := by
  rw [State.othersPassed, State.mapLanes, State.curCrew_setCurCrew]
  rfl

theorem State.launchOf_othersPassed (t : Nat) : s.othersPassed.launchOf t = s.launchOf t := State.launchOf_setCrew ..

theorem State.spawning_othersPassed (d : RegF) : s.othersPassed.spawning d = s.spawning d := by
  funext y slot
  rw [State.spawning, State.env, State.frames_othersPassed, State.spanOf, State.launchOf_othersPassed]
  rfl

theorem State.starting_othersPassed : s.othersPassed.starting = s.starting := by
  have hcore : (s.othersPassed.team s.cur.team).core = (s.team s.cur.team).core := by
    rw [State.othersPassed, State.mapLanes, State.setCurCrew, State.team_setCrew]
    rfl
  have hcycle : s.othersPassed.nextCycle s.cur.team = s.nextCycle s.cur.team :=
    congrArg (fun c => (s.core c).cycle + 1) hcore
  funext pc taint L
  rw [State.starting, State.frames_othersPassed, State.launchOf_othersPassed]
  exact congrArg (L.start pc _ _ taint _) hcycle

end

/-- Settles O23. FEND: a Ready fibre waits at no point, so nothing but the end itself changes it (`State.lane_endFibres_ending`,
`State.lane_endFibres_staying`). FSPAWN: fibre by fibre the lowest free slot goes (`State.spawned_spawn`). -/
theorem fibreEndAndSpawn : Obligations.FibreEndAndSpawn := by
  refine ⟨fun s h => ⟨execFend_spec h, exec_watched (x := { release := true }) rfl rfl rfl h⟩, ?_⟩
  intro s d a p h hsteer htarget hnodup hslots free blk
  have heff (l : Nat) (hl : l ∈ s.effective) : l ∈ s.cur.lanes := ((State.mem_effective s l).1 hl).1
  have hpassed (l : Nat) (hl : l ∈ s.effective) : s.othersPassed.curLane l = s.curLane l := by
    rw [State.curLane_othersPassed, if_neg fun hn => hn.2 hl]
  have hspawned : s.othersPassed.Spawned (s.othersPassed.spawn d (s.spawners (src a 1 p))) d (s.spawners (src a 1 p)) := by
    refine State.spawned_spawn ?_ ?_ ?_
    · rw [State.spawners, List.map_map, show Prod.fst ∘ _ = id from rfl, List.map_id]
      exact hnodup.filter _
    · intro x hx
      obtain ⟨l, hl, rfl⟩ := List.mem_map.1 hx
      exact hslots l (heff l hl)
    · intro x hx
      obtain ⟨l, hl, rfl⟩ := List.mem_map.1 hx
      rw [hpassed l hl]
      exact hslots l (heff l hl)
  obtain ⟨honly, hspawner, hstarted, hothers⟩ := hspawned
  rw [State.freeSlots_othersPassed] at hspawner hstarted hothers
  rw [State.spawning_othersPassed] at hspawner
  rw [State.starting_othersPassed] at hstarted
  have hget (k l : Nat) (hk : s.effective[k]? = some l) :
      (s.spawners (src a 1 p))[k]? = some (l, s.curLane l, [s.operand l (src a 1 p)]) := by
    rw [State.spawners, List.getElem?_map, hk]
    rfl
  refine ⟨_, execFspawn_goes h hsteer htarget, ((s.onlyTeams_mapLanes _ _).trans honly).sameMemory, ?_, ?_, ?_⟩
  · intro k l hk x L
    refine ⟨?_, fun n hn => ?_⟩
    · rw [hspawner k _ (hget k l hk), Bool.or_assoc, show free[k]? = s.freeSlots[k]? from rfl]
      cases s.freeSlots[k]? <;> rfl
    · have hfree : (s.curLane n).state = .free := (State.mem_freeSlots.1 (List.mem_of_getElem? hn)).2
      rw [hstarted k _ (hget k l hk) n hn, State.curLane_othersPassed, if_neg fun h => hslots n h.1 hfree]
      exact ⟨rfl, rfl, rfl, rfl, rfl, rfl, rfl, rfl, rfl, rfl, rfl, rfl⟩
  · intro l hl hn
    rw [hothers l ?_ ?_, State.curLane_othersPassed, if_pos ⟨hl, hn⟩]
    · intro x hx
      obtain ⟨m, hm, rfl⟩ := List.mem_map.1 hx
      exact fun e => hn (e ▸ hm)
    · exact fun i _ hi => hslots l hl (State.mem_freeSlots.1 (List.mem_of_getElem? hi)).2
  · intro l hl hk
    rw [hothers l ?_ ?_, State.curLane_othersPassed, if_neg fun h => hl h.1]
    · intro x hx
      obtain ⟨m, hm, rfl⟩ := List.mem_map.1 hx
      exact fun e => hl (e ▸ heff m hm)
    · intro i hi
      exact hk i (by simpa [State.spawners] using hi)

end Sys2Proof.Machine
end

section
/-! PROOFS. CWAIT (R370) and TBAR (R424). -/

namespace Sys2Proof.Machine

open Sys2Proof

/-! ## Elements read ahead that are discarded (R282) -/

theorem Lane.unread_none {gone : Nat → Bool} {L : Lane} (h : ∀ y ∈ L.streams, gone y.1 = false) : L.unread gone = L := by
  have hmap : (L.streams.mapVals fun n x => if gone n then { x with got := none } else x) = L.streams := by
    refine (List.map_congr_left fun y hy => ?_).trans (List.map_id _)
    simp [h y hy]
  rw [Lane.unread, hmap]

section

variable (s : State) (ls : List Nat)

@[simp] theorem State.discardAhead_cur : (s.discardAhead ls).cur = s.cur := by
  unfold State.discardAhead State.discardElements
  split <;> rfl

theorem State.discardAhead_mem : (s.discardAhead ls).mem = s.mem := by
  unfold State.discardAhead State.discardElements
  split <;> rfl

theorem State.discardAhead_cores : (s.discardAhead ls).cores = s.cores := by
  unfold State.discardAhead State.discardElements
  split <;> rfl

theorem State.curLane_updCrew (f : Crew → Crew) (l : Nat) :
    (s.updCrew s.cur.team s.cur.crew f).curLane l = (f s.curCrew).lane l :=
  congrArg (Crew.lane · l) (State.crew_setCrew_self ..)

theorem State.curLane_discardAhead (l : Nat) :
    (s.discardAhead ls).curLane l = (s.curLane l).unread fun _ => ls.contains l := by
  unfold State.discardAhead State.discardElements
  split
  · rename_i h
    refine (Lane.unread_none fun y hy => ?_).symm
    unfold State.curLane Crew.lane at hy
    cases hf : s.curCrew.lanes.find l with
    | none =>
      rw [hf] at hy
      exact absurd hy (List.not_mem_nil)
    | some L =>
      rw [hf] at hy
      have hy := List.all_eq_true.1 (List.all_eq_true.1 h _ (AMap.mem_of_find hf)) y hy
      simpa using hy
  · exact (State.curLane_updCrew _ _ l).trans
      (Crew.lane_mapVals (f := fun l L => L.unread fun _ => ls.contains l) s.curCrew l rfl)

theorem State.core_discardAhead (t : Nat) : ((s.discardAhead ls).team t).core = (s.team t).core := by
  unfold State.discardAhead State.discardElements
  split
  · rfl
  · by_cases ht : t = s.cur.team
    · subst ht
      rw [State.updCrew, State.team_setCrew]
      rfl
    · rw [State.updCrew, State.setCrew, State.team_setTeam_ne _ _ ht]
      rfl

end

/-! ## A word without fields -/

section

variable {s : State}

theorem State.breaches_bare (s : State) (w : Bool) : s.breaches {} w = [] := by
  have htouched : Ask.touched {} s w = [] := by
    refine List.flatMap_eq_nil_iff.2 fun l _ => ?_
    cases w <;> rfl
  unfold State.breaches
  split
  · rfl
  · rw [htouched, Crew.breached, List.map_eq_nil_iff, List.filter_eq_nil_iff]
    simp

theorem State.prepare_bare (h : s.effective ≠ []) : s.prepare {} = .go s (s.effective.map fun l => (l, s.curLane l, [])) := by
  have hready : s.notReady {} = none := by
    rw [State.notReady_eq (fun _ _ _ hy => absurd hy (List.not_mem_nil)) (.inl rfl)]
    exact (s.heldBack_fieldless false).trans (if_neg (by simp))
  unfold State.prepare
  rw [if_neg (by simpa using h), hready]
  simp only [State.breaches_bare, State.breach_nil]
  rw [State.gather_ready _ fun _ _ _ hx => absurd hx (List.not_mem_nil)]
  have hsteered (xs : List (Nat × Lane × List Val)) : Ask.steered {} xs = false := List.any_eq_false.2 fun _ _ => Bool.false_ne_true
  simp only [hsteered, Bool.and_false, Bool.false_eq_true, if_false, Option.map_none, List.filterMap_none, List.append_nil,
    List.map_nil, lowestCause, List.foldl_nil, List.filterMap_nil]
  rfl

/-- New states of some fibres, put in place: the braid goes on. -/
theorem State.finish_map {a : Ask} (h : s.breaches a true = []) (ls : List Nat) (g : Nat → Lane) :
    s.finish a (ls.map fun l => (l, g l)) = s.mapLanes s.cur.lanes fun l L => (if l ∈ ls then g l else L).advance := by
  unfold State.finish State.mapLanes
  rw [h, State.breach_nil]
  refine congrArg (fun us => s.setCurCrew (s.curCrew.setLanes us)) (List.map_congr_left fun l _ => ?_)
  rw [find?_pairs]
  split
  · rename_i hl
    simp [hl]
  · rename_i hl
    simp [hl]

end

/-! ## CWAIT -/

theorem execCwait_spec {s : State} (h : s.effective ≠ []) : ∃ t, exec .cwait s = .next t ∧ s.sameMemory t ∧ s.othersPass t
    ∧ ∀ m ∈ s.effective, t.curLane m = ((if s.childrenDone s.cur.team s.next then s.curLane m
      else { s.curLane m with state := .parked (.children s.next) }).unread fun _ => true).advance := by
  have hexec : exec .cwait s = .next ((s.discardAhead s.effective).mapLanes s.cur.lanes fun l L => (if l ∈ s.effective then
      (if s.childrenDone s.cur.team s.next then s.curLane l
        else { s.curLane l with state := .parked (.children s.next) }).unread fun _ => true else L).advance) := by
    rw [exec_cwait, execCwait, State.prepare_bare h]
    dsimp only
    rw [List.map_map, List.map_map, show Prod.fst ∘ _ = id from rfl, List.map_id]
    exact congrArg _ ((State.finish_map (State.breaches_bare ..) s.effective _).trans (by rw [State.discardAhead_cur]))
  refine ⟨_, hexec, ?_, fun l hl hn => ?_, fun m hm => ?_⟩
  · rw [State.sameMemory, State.mapLanes_mem, State.discardAhead_mem]
    exact ⟨fun _ => rfl, fun _ => rfl, fun _ => rfl⟩
  · rw [State.curLane_mapLanes, if_pos hl, if_neg hn, State.curLane_discardAhead, Lane.unread_none]
    exact fun _ _ => Bool.eq_false_iff.2 (mt List.contains_iff_mem.1 hn)
  · rw [State.curLane_mapLanes, if_pos ((State.mem_effective s m).1 hm).1, if_pos hm]

/-! ## TBAR -/

section

variable (C : Crew) (age : Nat)

/-- A crew whose fibres at the barrier have gone on, before they form braids. -/
def Crew.released : Crew := C.setLanes (C.atBarrier.map fun l => (l, { (C.lane l).advance with state := .ready, age }))

theorem Crew.lane_released (k : Nat) : (C.released age).lane k =
    if k ∈ C.atBarrier then { (C.lane k).advance with state := .ready, age } else C.lane k :=
  Crew.lane_setLanes C C.atBarrier (fun k => { (C.lane k).advance with state := .ready, age }) k

theorem foldl_min_const {f : Nat → Nat} {a : Nat} {ls : List Nat} (h : ∀ l ∈ ls, f l = a) : ls.foldl (fun m l => min m (f l)) a = a := by
  induction ls with
  | nil => rfl
  | cons l r ih =>
    rw [List.foldl_cons, h l (List.mem_cons_self ..), Nat.min_self]
    exact ih fun m hm => h m (List.mem_cons_of_mem _ hm)

/-- The fibres that pass the barrier with one. -/
def Crew.passesWith (k : Nat) : List Nat := C.atBarrier.filter fun m => (C.lane m).pc == (C.lane k).pc

/-- Braids by PC that form carry the counts of the fibres at one PC. -/
theorem Crew.lane_form_byPc (D : Crew) (kept : List Braid) (g : Braid → Braid) (hg : ∀ b, (g b).lanes = b.lanes) {ls : List Nat}
    {k : Nat} (hk : k ∈ ls) : (Crew.form { D with braids := kept } ((D.byPc ls).map g)).lane k
      = (D.level { lanes := ls.filter fun m => (D.lane m).pc == (D.lane k).pc }).lane k := by
  have hdis : ((D.byPc ls).map g).Pairwise fun b b' => ∀ l ∈ b.lanes, l ∉ b'.lanes := by
    refine List.pairwise_map.2 ((D.byPc_disjoint ls).imp fun {b b'} h => ?_)
    rw [hg, hg]
    exact h
  have hself : k ∈ ls.filter fun m => (D.lane m).pc == (D.lane k).pc := List.mem_filter.2 ⟨hk, beq_self_eq_true _⟩
  refine (Crew.lane_form_inside _ hdis (List.mem_map_of_mem ((D.mem_byPc ls).2 ⟨k, hk, rfl⟩)) ?_).trans ?_
  · rw [hg]
    exact hself
  · rw [Crew.lane_level, Crew.lane_level, Crew.braidAge, Crew.braidWaits, Crew.braidPasses, hg]
    rfl

/-- A fibre passes the barrier: it carries the largest counts of those that pass with it at its PC. -/
theorem Crew.lane_passBarrier {k : Nat} (hk : k ∈ C.atBarrier) : (C.passBarrier age).lane k =
    { (C.lane k).advance with
      state := .ready, age
      waits := (C.passesWith k).foldl (fun m l => max m (C.lane l).waits) 0
      passes := (C.passesWith k).foldl (fun m l => max m (C.lane l).passes) 0 } := by
  have hlane {l : Nat} (hl : l ∈ C.atBarrier) : (C.released age).lane l = { (C.lane l).advance with state := .ready, age } := by
    rw [Crew.lane_released, if_pos hl]
  have hclass : (C.atBarrier.filter fun m => ((C.released age).lane m).pc == ((C.released age).lane k).pc) = C.passesWith k := by
    refine List.filter_congr fun m hm => ?_
    rw [hlane hm, hlane hk, Bool.eq_iff_iff, beq_iff_eq, beq_iff_eq]
    exact add_left_inj 4
  have hmem {l : Nat} (hl : l ∈ C.passesWith k) : l ∈ C.atBarrier := List.mem_of_mem_filter hl
  have hself : k ∈ C.passesWith k := List.mem_filter.2 ⟨hk, beq_self_eq_true _⟩
  have hage : (C.released age).braidAge { lanes := C.passesWith k } = age := by
    unfold Crew.braidAge
    cases hls : C.passesWith k with
    | nil => rw [hls] at hself; exact absurd hself (List.not_mem_nil)
    | cons x r =>
      have hages (l : Nat) (hl : l ∈ x :: r) : ((C.released age).lane l).age = age := by rw [hlane (hmem (hls ▸ hl))]
      rw [List.headD_cons, hages x (List.mem_cons_self ..)]
      exact foldl_min_const hages
  have hwaits : (C.released age).braidWaits { lanes := C.passesWith k } = (C.passesWith k).foldl (fun m l => max m (C.lane l).waits) 0 :=
    List.foldl_ext _ _ _ fun a l hl => by rw [hlane (hmem hl)]; rfl
  have hpasses : (C.released age).braidPasses { lanes := C.passesWith k }
      = (C.passesWith k).foldl (fun m l => max m (C.lane l).passes) 0 :=
    List.foldl_ext _ _ _ fun a l hl => by rw [hlane (hmem hl)]; rfl
  unfold Crew.passBarrier
  refine (Crew.lane_form_byPc (C.released age) _ _ (fun _ => ?_) hk).trans ?_
  · rfl
  rw [hclass, Crew.lane_level, if_pos hself, hage, hwaits, hpasses, hlane hk]

/-- The fibre's counts are the largest of those that pass with it. -/
theorem Crew.passBarrier_counts {k : Nat} (hk : k ∈ C.atBarrier) : ∃ w p,
    (C.passBarrier age).lane k = { (C.lane k).advance with state := .ready, age, waits := w, passes := p }
      ∧ (∀ l ∈ C.passesWith k, (C.lane l).waits ≤ w ∧ (C.lane l).passes ≤ p)
      ∧ (∃ l ∈ C.passesWith k, (C.lane l).waits = w) ∧ ∃ l ∈ C.passesWith k, (C.lane l).passes = p := by
  have hne : C.passesWith k ≠ [] := List.ne_nil_of_mem (List.mem_filter.2 ⟨hk, beq_self_eq_true _⟩)
  obtain ⟨hw, hw'⟩ := foldl_max_spec (fun l => (C.lane l).waits) hne
  obtain ⟨hp, hp'⟩ := foldl_max_spec (fun l => (C.lane l).passes) hne
  exact ⟨_, _, C.lane_passBarrier age hk, fun l hl => ⟨hw l hl, hp l hl⟩, hw', hp'⟩

end

section

variable {s : State} {t : Nat}

/-- A live fibre of a team, as the statement of O35 names it. -/
def State.aliveAt (s : State) (t c m : Nat) (L : Lane) : Prop :=
  ∃ C, (c, C) ∈ (s.team t).body.crews ∧ (m, L) ∈ C.lanes ∧ L.live = true

theorem State.aliveAt_lane {c m : Nat} (h : (s.lane t c m).live = true) : s.aliveAt t c m (s.lane t c m) := by
  cases hc : (s.team t).body.crews.find c with
  | none =>
    rw [State.lane, State.crew, hc] at h
    cases h
  | some C =>
    have hcrew : s.crew t c = C := by rw [State.crew, hc, Option.getD_some]
    rw [State.lane, hcrew, Crew.lane] at h ⊢
    cases hm : C.lanes.find m with
    | none =>
      rw [hm] at h
      cases h
    | some L =>
      rw [hm] at h
      exact ⟨C, AMap.mem_of_find hc, AMap.mem_of_find hm, h⟩

/-- The live fibres that the check of the barrier looks at. -/
def State.liveLanes (s : State) (t : Nat) : List Lane :=
  (s.team t).body.crews.flatMap fun c => (c.2.lanes.filter fun l => l.2.live).map Prod.snd

theorem State.mem_liveLanes {L : Lane} : L ∈ s.liveLanes t ↔ ∃ c m, s.aliveAt t c m L := by
  simp only [State.liveLanes, List.mem_flatMap, List.mem_map, List.mem_filter, State.aliveAt, Prod.exists]
  constructor
  · rintro ⟨c, C, hC, m, L', ⟨hL, hlive⟩, rfl⟩
    exact ⟨c, m, C, hC, hL, hlive⟩
  · rintro ⟨c, m, C, hC, hL, hlive⟩
    exact ⟨c, C, hC, m, L, ⟨hL, hlive⟩, rfl⟩

/-- While a fibre has not arrived, none passes. -/
theorem State.barrierCheck_waits {c m : Nat} {L : Lane} (h : s.aliveAt t c m L) (hn : L.atBarrier = false)
    (skip : Option (Nat × List Nat)) : s.barrierCheck t skip = s := by
  have hmem : L ∈ s.liveLanes t := State.mem_liveLanes.2 ⟨c, m, h⟩
  have hall : (s.liveLanes t).all Lane.atBarrier = false := List.all_eq_false.2 ⟨L, hmem, by rw [hn]; exact Bool.false_ne_true⟩
  unfold State.barrierCheck
  exact if_pos (by rw [← State.liveLanes, hall, Bool.not_false, Bool.or_true])

/-- Once every fibre has arrived, all pass. -/
theorem State.barrierCheck_passes (hone : ∃ c m L, s.aliveAt t c m L) (hall : ∀ c m L, s.aliveAt t c m L → L.atBarrier = true)
    (skip : Option (Nat × List Nat)) : s.barrierCheck t skip = (s.updBody t fun b =>
      { b with crews := b.crews.mapVals fun _ C => C.passBarrier (s.nextCycle t) }).checkpoint t skip := by
  obtain ⟨c, m, L, h⟩ := hone
  have hne : (s.liveLanes t).isEmpty = false :=
    List.isEmpty_eq_false_iff.2 (List.ne_nil_of_mem (State.mem_liveLanes.2 ⟨c, m, h⟩))
  have hall : (s.liveLanes t).all Lane.atBarrier = true := List.all_eq_true.2 fun L hL => by
    obtain ⟨c, m, h⟩ := State.mem_liveLanes.1 hL
    exact hall c m L h
  unfold State.barrierCheck
  exact if_neg (by rw [← State.liveLanes, hall, hne]; exact Bool.false_ne_true)

end

/-! ## TBAR -/

section

variable {s : State}

/-- The state in which the fibres of the issuing braid have arrived at the barrier. -/
def State.atTbar (s : State) : State :=
  (s.discardAhead s.cur.lanes).mapLanes s.cur.lanes fun _ L => { L with state := .parked .team, hints := {} }

theorem execTbar_goes (hw : ∀ m ∈ s.cur.lanes, s.curCrew.watched m = false)
    (hf : s.effective = [] ∨ s.fenceOpen s.cur.team s.cur.crew .core s.cur.lanes = true) :
    exec .tbar s = .next (s.atTbar.barrierCheck s.cur.team (some (s.cur.crew, s.cur.lanes))) := by
  have hfence : (if s.effective.isEmpty then none else s.fenceWait s.cur.lanes .core) = none := by
    rcases hf with hf | hf
    · rw [hf]
      rfl
    · rw [State.fenceWait, if_pos hf, ite_self]
  rw [exec_tbar, execTbar, if_neg (by simpa using hw)]
  dsimp only
  rw [hfence]
  rfl

theorem execTbar_parks (hw : ∀ m ∈ s.cur.lanes, s.curCrew.watched m = false) (he : s.effective ≠ [])
    (hf : s.fenceOpen s.cur.team s.cur.crew .core s.cur.lanes = false) :
    exec .tbar s = .next (s.park fun _ => .fence .core s.cur.lanes) := by
  rw [exec_tbar, execTbar, if_neg (by simpa using hw)]
  dsimp only
  rw [if_neg (by simpa using he), State.fenceWait, if_neg (by rw [hf]; exact Bool.false_ne_true)]

theorem execTbar_traps (hw : ∃ m ∈ s.cur.lanes, s.curCrew.watched m = true) (he : s.effective ≠ []) :
    exec .tbar s = .next (s.trap s.effective causeUncheckedWatch 0) := by
  rw [exec_tbar, execTbar, if_pos (by simpa using hw), if_neg (by simpa using he)]

theorem State.atTbar_mem : s.atTbar.mem = s.mem := s.discardAhead_mem _

theorem State.nextCycle_atTbar : s.atTbar.nextCycle s.cur.team = (s.core (s.team s.cur.team).core).cycle + 1 := by
  have hteam : (s.atTbar.team s.cur.team).core = (s.team s.cur.team).core := by
    rw [← State.core_discardAhead s s.cur.lanes s.cur.team, State.atTbar, State.mapLanes, State.setCurCrew, State.discardAhead_cur,
      State.team_setCrew]
    rfl
  have hcores : s.atTbar.cores = s.cores := s.discardAhead_cores _
  rw [State.nextCycle, hteam, State.core, hcores]
  rfl

end

/-- Once every live fibre of a team waits at the barrier, all go on, with the counts of those at their PC. -/
theorem State.barrier_passed {s : State} {t : Nat} (hone : ∃ c m L, s.aliveAt t c m L)
    (hall : ∀ c m L, s.aliveAt t c m L → L.atBarrier = true) (skip : Option (Nat × List Nat)) {c m : Nat} (hm : m < 32)
    (hlive : (s.lane t c m).live = true) :
    let with' (k : Nat) : Prop := k < 32 ∧ (s.lane t c k).live = true ∧ (s.lane t c k).pc = (s.lane t c m).pc
    ∃ w p, (s.barrierCheck t skip).lane t c m =
        { (s.lane t c m).advance with state := .ready, age := s.nextCycle t, waits := w, passes := p }
      ∧ (∀ k, with' k → (s.lane t c k).waits ≤ w ∧ (s.lane t c k).passes ≤ p)
      ∧ (∃ k, with' k ∧ (s.lane t c k).waits = w) ∧ ∃ k, with' k ∧ (s.lane t c k).passes = p := by
  intro with'
  have harrived {k : Nat} (hk : (s.lane t c k).live = true) : (s.lane t c k).atBarrier = true := hall c k _ (State.aliveAt_lane hk)
  have hclass (k : Nat) : k ∈ (s.crew t c).passesWith m ↔ with' k := by
    rw [Crew.passesWith, Crew.atBarrier, List.mem_filter, List.mem_filter, List.mem_range, beq_iff_eq, and_assoc]
    refine and_congr_right fun _ => and_congr_left fun _ => ⟨fun h => ?_, harrived⟩
    have h := (Bool.and_eq_true_iff.1 h).1
    rw [State.lane, Lane.live, beq_iff_eq.1 h]
  have hfind : ((s.team t).body.crews.find c).isSome = true := by
    cases hc : (s.team t).body.crews.find c with
    | none =>
      rw [State.lane, State.crew, hc] at hlive
      cases hlive
    | some C => rfl
  obtain ⟨w, p, hlane, hle, ⟨k, hk, hkw⟩, k', hk', hkp⟩ :=
    (s.crew t c).passBarrier_counts (s.nextCycle t) (List.mem_filter.2 ⟨List.mem_range.2 hm, harrived hlive⟩)
  refine ⟨w, p, ?_, fun k hk => hle k ((hclass k).2 hk), ⟨k, (hclass k).1 hk, hkw⟩, k', (hclass k').1 hk', hkp⟩
  rw [State.barrierCheck_passes hone hall, State.lane_checkpoint, State.lane, State.crew_passed, if_pos hfind, hlane]
  rfl

section

variable {s : State} (hw : ∀ m ∈ s.cur.lanes, s.curCrew.watched m = false)
  (hf : s.effective = [] ∨ s.fenceOpen s.cur.team s.cur.crew .core s.cur.lanes = true)
include hw hf

theorem execTbar_waits (h : ∃ c m L, s.atTbar.aliveAt s.cur.team c m L ∧ L.atBarrier = false) : exec .tbar s = .next s.atTbar := by
  obtain ⟨c, m, L, halive, hn⟩ := h
  rw [execTbar_goes hw hf, State.barrierCheck_waits halive hn]

theorem execTbar_passes (hone : ∃ c m L, s.atTbar.aliveAt s.cur.team c m L)
    (hall : ∀ c m L, s.atTbar.aliveAt s.cur.team c m L → L.atBarrier = true) :
    ∃ t, exec .tbar s = .next t ∧ s.sameMemory t ∧ (t.team s.cur.team).shadow.isSome = true
      ∧ ∀ c m, m < 32 → (s.atTbar.lane s.cur.team c m).live = true →
        let with' (k : Nat) : Prop := k < 32 ∧ (s.atTbar.lane s.cur.team c k).live = true
          ∧ (s.atTbar.lane s.cur.team c k).pc = (s.atTbar.lane s.cur.team c m).pc
        ∃ w p, t.lane s.cur.team c m = { (s.atTbar.lane s.cur.team c m).advance with
              state := .ready, age := (s.core (s.team s.cur.team).core).cycle + 1, waits := w, passes := p }
          ∧ (∀ k, with' k → (s.atTbar.lane s.cur.team c k).waits ≤ w ∧ (s.atTbar.lane s.cur.team c k).passes ≤ p)
          ∧ (∃ k, with' k ∧ (s.atTbar.lane s.cur.team c k).waits = w)
          ∧ ∃ k, with' k ∧ (s.atTbar.lane s.cur.team c k).passes = p := by
  refine ⟨_, execTbar_goes hw hf, ?_, ?_, fun c m hm hlive => ?_⟩
  · have h := State.onlyTeams_barrierCheck s.atTbar s.cur.team (some (s.cur.crew, s.cur.lanes))
    rw [State.sameMemory, h.mem, State.atTbar_mem]
    exact ⟨fun _ => rfl, fun _ => rfl, fun _ => rfl⟩
  · rw [State.barrierCheck_passes hone hall]
    exact (State.checkpoint_spec ..).1
  · have h := State.barrier_passed hone hall (some (s.cur.crew, s.cur.lanes)) hm hlive
    rw [State.nextCycle_atTbar] at h
    exact h

end

end Sys2Proof.Machine
end

section
/-! PROOFS. LAUNCH and LAUNCHT before they launch (R243, R272, R391, R392): the records, the depth and the wait. -/

namespace Sys2Proof.Machine

open Sys2Proof

/-! ## Record words (R272) -/

section

variable {s : State} {a : Ask}

/-- The prologue of a word whose operands are ready, of a release in fibres that are not watched, where some fibre raises the
word's one cause of group 6 (R297). -/
theorem State.prepare_cause (h : s.ready a.srcs a.dsts = true) (hw : ∀ l ∈ s.effective, s.curCrew.watched l = false)
    (hsingle : a.single = false) (hsteer : ∀ L vs, a.steer L vs = none) {c : BitVec 8 × DWord}
    (hc : ∃ l ∈ s.effective, a.early l (s.curLane l) (s.operandsOf a.srcs l) = some c)
    (hall : ∀ l ∈ s.effective, ∀ d, a.early l (s.curLane l) (s.operandsOf a.srcs l) = some d → d = c) :
    s.prepare a = .stop (s.trap s.effective c.1 c.2) := by
  have hreaders : s.readers a = s.effective := if_neg (by rw [hsingle]; exact Bool.false_ne_true)
  have hsteered (xs : List (Nat × Lane × List Val)) : a.steered xs = false := by simp [Ask.steered, hsteer]
  unfold State.prepare
  rw [if_neg (mt List.isEmpty_iff.1 (State.ready_effective h)), State.notReady_ready h (.inr hw)]
  simp only [State.breaches_nil (State.ready_named h), State.breach_nil, hreaders]
  rw [State.gather_ready _ fun l hl x hx => State.ready_src h hl hx]
  simp only [hsteered, Bool.and_false, Bool.false_eq_true, if_false, List.filterMap_nil, List.append_nil]
  rw [lowestCause_of_forall_eq]
  · obtain ⟨l, hl, hl'⟩ := hc
    exact List.ne_nil_of_mem (List.mem_filterMap.2 ⟨_, List.mem_map_of_mem hl, by rw [hl']; rfl⟩)
  · intro x hx
    obtain ⟨y, hy, hx⟩ := List.mem_filterMap.1 hx
    obtain ⟨l, hl, rfl⟩ := List.mem_map.1 hy
    obtain ⟨d, hd, rfl⟩ := Option.map_eq_some_iff.1 hx
    exact hall l hl d hd

/-- Lines that are present are found at once. -/
theorem State.touchAll_present {t : Nat} {xs : List (Nat × Nat)} (h : ∀ x ∈ xs, (s.team t).body.absent.contains x.2 = false) :
    s.touchAll t xs = .ok s [] := by
  induction xs with
  | nil => rfl
  | cons x r ih =>
    have htouch : s.touchStash t x.2 = .ready s := by
      unfold State.touchStash
      exact if_pos (by rw [h x (List.mem_cons_self ..)]; rfl)
    rw [State.touchAll, htouch]
    exact ih fun y hy => h y (List.mem_cons_of_mem _ hy)

/-- What a record word asks (R272). -/
def State.recordAsk (s : State) (a : Ask) (size : Nat) : Ask :=
  { a with
    early := fun l L vs => if recordOk (s.stashBanks s.cur.team) (valAt vs 0).w32.toNat size then a.early l L vs
      else some (causeEngParam, 0)
    known := fun has L vs => if has 0 && !recordOk (s.stashBanks s.cur.team) (valAt vs 0).w32.toNat size then some (causeEngParam, 0)
      else a.known has L vs }

variable {size : Nat} {go : State → List (Nat × Lane × List Val) → Result}

theorem State.recordWord_stops {t : State} (h : s.prepare (s.recordAsk a size) = .stop t) : s.recordWord a size go = .next t := by
  rw [State.recordAsk] at h
  rw [State.recordWord]
  rw [h]

/-- Once the prologue is over, with each record copied before or its line present, the word goes on. -/
theorem State.recordWord_goes {xs : List (Nat × Lane × List Val)} (h : s.prepare (s.recordAsk a size) = .go s xs)
    (hlines : ∀ x ∈ xs, (x.2.1.did.bind Did.record).isNone = true → (s.team s.cur.team).body.absent.contains (recAddr x / 128) = false) :
    s.recordWord a size go = go s xs := by
  rw [State.recordAsk] at h
  rw [State.recordWord]
  rw [h]
  dsimp only
  rw [State.touchAll_present]
  intro y hy
  obtain ⟨x, hx, rfl⟩ := List.mem_map.1 hy
  obtain ⟨hx, hcopied⟩ := List.mem_filter.1 hx
  exact hlines x hx hcopied

end

/-! ## Where a launch stands (R391, R392) -/

/-- Whether the team is at the depth below which nothing launches (R196). -/
def State.deep (s : State) : Bool := ((s.launchOf s.cur.team).map Launch.depth).getD 0 == 10

/-- What the words ask but for the checks of their records: LAUNCH traps at depth 10. -/
def State.launchAsk (s : State) (a : RegF) (n : Option PredF) : Ask :=
  { recAsk a false with
    release := true
    known := fun _ _ _ => if s.deep && n.isNone then some (causeLaunchDepth, 0) else none
    early := fun _ _ _ => if s.deep && n.isNone then some (causeLaunchDepth, 0) else none }

/-- What a fibre's launch reads. -/
def State.launchReads (s : State) (a : RegF) : List (Nat × Lane × List Val) :=
  s.effective.map fun l => (l, s.curLane l, [s.operand l (src a 1 false)])

/-- The braid goes on with what each fibre's launch came to: LAUNCHT tells it. -/
def State.settleLaunch (s s2 : State) (a : RegF) (n : Option PredF) (oks : List (Nat × Bool)) : State :=
  s2.finish (s.launchAsk a n) ((s.launchReads a).map fun x =>
    (x.1, match n with
      | some q => x.2.1.setQ q ((oks.find? (·.1 == x.1)).map Prod.snd |>.getD false)
          (tagsOf x.2.2 || (s.stashBytes s.cur.team (recAddr x) 128).2 || x.2.1.gt)
      | none => x.2.1))

/-- The braid waits from a fibre's launch on (R391). -/
def State.launchWaits (s s2 : State) (a : RegF) (lane : Nat) (w : Wake) (dids : List (Nat × Option Did)) : State :=
  let s3 := s2.park fun l => if l = lane then w else if (s.launchReads a).any (·.1 == l) then .follow lane else .regs []
  let s4 := s3.mapLanes (dids.map Prod.fst) fun l L => { L with did := ((dids.find? (·.1 == l)).map Prod.snd).getD L.did }
  if dids.any fun d => d.2.isSome then s4.checkpoint s.cur.team (some (s.cur.crew, s.cur.lanes)) else s4

/-- What the word comes to with its fibres' launches. -/
def State.launchEnd (s : State) (a : RegF) (n : Option PredF) : AllLaunched → State
  | .wait s2 lane w dids => s.launchWaits s2 a lane w dids
  | .done s2 oks =>
    if n.isNone && oks.any fun o => !o.2 then
      (s2.trap s2.effective causeLaunchRefused 0).checkpoint s.cur.team (some (s.cur.crew, s.cur.lanes))
    else (s.settleLaunch s2 a n oks).checkpointHere

section

variable {s : State} {a : RegF} {n : Option PredF}

/-- The cause that a fibre raises before anything is launched. -/
def State.launchCause (s : State) (a : RegF) (n : Option PredF) (l : Nat) : Option (BitVec 8 × DWord) :=
  if recordOk (s.stashBanks s.cur.team) (s.recAt a l) 128 then if s.deep && n.isNone then some (causeLaunchDepth, 0) else none
  else some (causeEngParam, 0)

/-- A record out of place, or LAUNCH at depth 10, traps before anything is launched. -/
theorem State.launchWord_traps (h : s.ready [src a 1 false] [] = true) (hw : ∀ l ∈ s.effective, s.curCrew.watched l = false)
    {c : BitVec 8 × DWord} (hc : ∃ l ∈ s.effective, s.launchCause a n l = some c)
    (hall : ∀ l ∈ s.effective, ∀ d, s.launchCause a n l = some d → d = c) :
    s.launchWord a n = .next (s.trap s.effective c.1 c.2) :=
  State.recordWord_stops (a := s.launchAsk a n) (State.prepare_cause h hw rfl (fun _ _ => rfl) hc hall)

/-- A record out of place traps, unless a fibre with a good one traps for the depth (R272). -/
theorem State.launchWord_misplaced (h : s.ready [src a 1 false] [] = true) (hw : ∀ l ∈ s.effective, s.curCrew.watched l = false)
    (hbad : ∃ m ∈ s.effective, recordOk (s.stashBanks s.cur.team) (s.recAt a m) 128 = false)
    (hor : (s.deep && n.isNone) = false ∨ ∀ m ∈ s.effective, recordOk (s.stashBanks s.cur.team) (s.recAt a m) 128 = false) :
    s.launchWord a n = .next (s.trap s.effective causeEngParam 0) := by
  have hcause {m : Nat} (hm : recordOk (s.stashBanks s.cur.team) (s.recAt a m) 128 = false) :
      s.launchCause a n m = some (causeEngParam, 0) := if_neg (by rw [hm]; exact Bool.false_ne_true)
  obtain ⟨m, hm, hbad⟩ := hbad
  refine State.launchWord_traps (c := (causeEngParam, 0)) h hw ⟨m, hm, hcause hbad⟩ fun k hk d hd => ?_
  cases hok : recordOk (s.stashBanks s.cur.team) (s.recAt a k) 128 with
  | false => exact (Option.some.inj ((hcause hok).symm.trans hd)).symm
  | true =>
    rcases hor with hgo | hall
    · rw [State.launchCause, if_pos hok, hgo] at hd
      cases hd
    · rw [hall k hk] at hok
      cases hok

variable (h : s.hasRecord a 128 s.effective = true)
include h

theorem State.hasRecord_ready : s.ready [src a 1 false] [] = true := (Bool.and_eq_true_iff.1 h).1

theorem State.hasRecord_mem {l : Nat} (hl : l ∈ s.effective) : recordOk (s.stashBanks s.cur.team) (s.recAt a l) 128 = true
    ∧ (((s.curLane l).did.bind Did.record).isNone = true → (s.team s.cur.team).body.absent.contains (s.recAt a l / 128) = false) := by
  have hl := List.all_eq_true.1 (Bool.and_eq_true_iff.1 h).2 l hl
  obtain ⟨hok, hline⟩ := Bool.and_eq_true_iff.1 hl
  refine ⟨hok, fun hnone => ?_⟩
  rw [Option.isNone_iff_eq_none] at hnone
  simpa [hnone] using hline

theorem State.launchReads_lines : ∀ x ∈ s.launchReads a, (x.2.1.did.bind Did.record).isNone = true →
    (s.team s.cur.team).body.absent.contains (recAddr x / 128) = false := by
  intro x hx
  obtain ⟨l, hl, rfl⟩ := List.mem_map.1 hx
  exact (State.hasRecord_mem h hl).2

variable (hw : ∀ l ∈ s.effective, s.curCrew.watched l = false) (hgo : (s.deep && n.isNone) = false)
include hw hgo

theorem State.prepare_launch : s.prepare (s.recordAsk (s.launchAsk a n) 128) = .go s (s.launchReads a) :=
  State.prepare_ready (a := s.recordAsk (s.launchAsk a n) 128) (State.hasRecord_ready h) (.inr hw) (by
      have hsteered (xs : List (Nat × Lane × List Val)) : (s.recordAsk (s.launchAsk a n) 128).steered xs = false :=
        List.any_eq_false.2 fun _ _ => Bool.false_ne_true
      rw [hsteered, Bool.and_false])
    (fun l hl => (if_pos (State.hasRecord_mem h hl).1).trans (if_neg (by rw [hgo]; exact Bool.false_ne_true))) fun _ _ => rfl

/-- LAUNCHT at depth 10 tells false. -/
theorem State.launchWord_deep (hdeep : s.deep = true) : s.launchWord a n = .next (s.settleLaunch s a n []).checkpointHere := by
  unfold State.launchWord
  refine (State.recordWord_goes (a := s.launchAsk a n) (State.prepare_launch h hw hgo) (State.launchReads_lines h)).trans ?_
  exact if_pos hdeep

variable (hdeep : s.deep = false) (hdid : ∀ l ∈ s.effective, (s.curLane l).did = none)
include hdeep hdid

/-- Above depth 10, fibres that have not launched yet wait as FENCE system does first (R243). -/
theorem State.launchWord_fenced : s.launchWord a n = .next (((s.fenceWait s.cur.lanes .all)).getD
    (s.launchEnd a n (s.launchAll n.isSome (s.launchReads a) []))) := by
  have hnone : (s.launchReads a).any (fun x => x.2.1.did.isSome) = false := by
    rw [State.launchReads, List.any_map, List.any_eq_false]
    exact fun l hl => by simp [hdid l hl]
  unfold State.launchWord
  refine (State.recordWord_goes (a := s.launchAsk a n) (State.prepare_launch h hw hgo) (State.launchReads_lines h)).trans ?_
  refine (if_neg (by rw [show (_ == 10) = s.deep from rfl, hdeep]; exact Bool.false_ne_true)).trans ?_
  rw [hnone, if_neg Bool.false_ne_true]
  cases s.fenceWait s.cur.lanes .all with
  | some t => rfl
  | none =>
    dsimp only [Option.getD_none]
    cases s.launchAll n.isSome (s.launchReads a) [] with
    | wait s2 lane w dids => rfl
    | done s2 oks => exact (apply_ite Host.Outcome.next _ _ _).symm

theorem State.launchWord_parks (hfence : s.fenceOpen s.cur.team s.cur.crew .all s.cur.lanes = false) :
    s.launchWord a n = .next (s.park fun _ => .fence .all s.cur.lanes) := by
  rw [State.launchWord_fenced h hw hgo hdeep hdid, State.fenceWait, if_neg (by rw [hfence]; exact Bool.false_ne_true)]
  rfl

theorem State.launchWord_launches (hfence : s.fenceOpen s.cur.team s.cur.crew .all s.cur.lanes = true) :
    s.launchWord a n = .next (s.launchEnd a n (s.launchAll n.isSome (s.launchReads a) [])) := by
  rw [State.launchWord_fenced h hw hgo hdeep hdid, State.fenceWait, if_pos hfence]
  rfl

end

/-! ## The braid goes on (R391, R392) -/

section

variable {s s2 : State} {a : RegF} {n : Option PredF} {oks : List (Nat × Bool)}

/-- A fibre's state once its launch came to `oks`, before it goes on. -/
def State.toldLane (s : State) (a : RegF) (n : Option PredF) (oks : List (Nat × Bool)) (l : Nat) : Lane := match n with
  | some q => (s.curLane l).setQ q ((oks.find? (·.1 == l)).map Prod.snd |>.getD false) (s.recTag a 128 l)
  | none => s.curLane l

theorem State.settleLaunch_eq (hnamed : s2.curCrew.named = []) : s.settleLaunch s2 a n oks =
    s2.mapLanes s2.cur.lanes fun l L => (if l ∈ s.effective then s.toldLane a n oks l else L).advance := by
  have hlanes : (s.launchReads a).map (fun x => (x.1, match n with
      | some q => x.2.1.setQ q ((oks.find? (·.1 == x.1)).map Prod.snd |>.getD false)
          (tagsOf x.2.2 || (s.stashBytes s.cur.team (recAddr x) 128).2 || x.2.1.gt)
      | none => x.2.1)) = s.effective.map fun l => (l, s.toldLane a n oks l) := by
    rw [State.launchReads, List.map_map]
    refine List.map_congr_left fun l _ => ?_
    cases n with
    | none => rfl
    | some q =>
      have htag : (tagsOf [s.operand l (src a 1 false)] || (s.stashBytes s.cur.team (s.recAt a l) 128).2 || (s.curLane l).gt)
          = s.recTag a 128 l := by
        simp [tagsOf, State.stashBytes, State.recTag, State.tagOf, Bool.or_comm, Bool.or_assoc]
      exact congrArg (fun v => (l, (s.curLane l).setQ q ((oks.find? (·.1 == l)).map Prod.snd |>.getD false) v)) htag
  rw [State.settleLaunch, hlanes]
  exact State.finish_map (State.breaches_nil hnamed ..) ..

/-- The fibres of the braid once their launches are settled, and the checkpoint. -/
theorem State.curLane_settleLaunch (hnamed : s2.curCrew.named = []) (hcur : s2.cur = s.cur)
    (hlanes : ∀ m ∈ s.cur.lanes, s2.curLane m = s.curLane m) {m : Nat} (hm : m ∈ s.cur.lanes) :
    (s.settleLaunch s2 a n oks).checkpointHere.curLane m
      = (if m ∈ s.effective then s.toldLane a n oks m else s.curLane m).advance := by
  rw [State.checkpointHere, State.curLane, State.curCrew, (State.onlyTeams_checkpoint ..).cur, State.crew_checkpoint,
    State.settleLaunch_eq hnamed]
  refine (s2.curLane_mapLanes _ _ m).trans ?_
  rw [hcur, if_pos hm, hlanes m hm]

theorem State.settleLaunch_shadow (hnamed : s2.curCrew.named = []) (hcur : s2.cur = s.cur) :
    ((s.settleLaunch s2 a n oks).checkpointHere.team s.cur.team).shadow.isSome = true := by
  have hcur' : (s.settleLaunch s2 a n oks).cur = s.cur := by rw [State.settleLaunch_eq hnamed, State.mapLanes_cur, hcur]
  rw [State.checkpointHere, hcur']
  exact (State.checkpoint_spec ..).1

theorem State.onlyTeams_settleLaunch (hnamed : s2.curCrew.named = []) : s2.onlyTeams (s.settleLaunch s2 a n oks).checkpointHere := by
  rw [State.settleLaunch_eq hnamed]
  exact (State.onlyTeams_mapLanes ..).trans (State.onlyTeams_checkpoint ..)

end

/-! ## One fibre's launch -/

section

variable {s : State} (hwait : ∀ w ∈ s.waiters, w.team ≠ s.cur.team)
include hwait

/-- No fibre of the team waits for an entry. -/
theorem State.waiters_none (l : Nat) :
    s.waiters.find? (fun w => w.team == s.cur.team && w.crew == s.cur.crew && w.lanes == [l]) = none
      ∧ s.waiters.any (fun w => w.team == s.cur.team && w.crew == s.cur.crew && w.lanes == [l]) = false := by
  have hmine (w : Waiter) (hw : w ∈ s.waiters) : ¬(w.team == s.cur.team && w.crew == s.cur.crew && w.lanes == [l]) = true := by
    rw [beq_false_of_ne (hwait w hw)]
    exact Bool.false_ne_true
  exact ⟨List.find?_eq_none.2 hmine, List.any_eq_false.2 hmine⟩

/-- Without an entry of the die's queue LAUNCHT launches nothing and LAUNCH waits for one (R196). -/
theorem State.launchOne_full (hclaim : s.claimable (dieOf (s.team s.cur.team).core) (((s.launchOf s.cur.team).map Launch.depth).getD 0 + 1) = none)
    (l addr : Nat) (try' : Bool) : s.launchOne l addr none try' = if try' then .done s false else
      .wait { s with waiters := s.waiters ++ [({ die := dieOf (s.team s.cur.team).core, team := s.cur.team, crew := s.cur.crew, lanes := [l]
                                                 depth := ((s.launchOf s.cur.team).map Launch.depth).getD 0 + 1, given := none } : Waiter)] }
        .launchQueue none := by
  obtain ⟨hfind, hany⟩ := State.waiters_none hwait l
  unfold State.launchOne
  dsimp only
  rw [hfind, hany, if_neg Bool.false_ne_true, hclaim]
  rfl

end

/-! ## No entry: LAUNCHT tells false, LAUNCH waits (R196) -/

/-- Launches that all come to nothing and leave the state. -/
theorem State.launchAll_none {s : State} {try' : Bool} {xs : List (Nat × Lane × List Val)}
    (h : ∀ x ∈ xs, s.launchOne x.1 (recAddr x) x.2.1.did try' = .done s false) (oks : List (Nat × Bool)) :
    s.launchAll try' xs oks = .done s (oks ++ xs.map fun x => (x.1, false)) := by
  induction xs generalizing oks with
  | nil => rw [List.map_nil, List.append_nil]; rfl
  | cons x r ih =>
    rw [State.launchAll, h x (List.mem_cons_self ..)]
    refine (ih (fun y hy => h y (List.mem_cons_of_mem _ hy)) _).trans ?_
    rw [List.map_cons, List.append_assoc]
    rfl

/-- Putting what stands at a key changes nothing. -/
theorem AMap.put_put_self {α : Type} (m : AMap α) (k : Nat) (v : α) : (m.put k v).put k v = m.put k v := by
  induction m with
  | nil => simp [AMap.put]
  | cons p r ih =>
    simp only [AMap.put]
    split
    · simp [AMap.put]
    · split
      · simp [AMap.put]
      · rename_i hlt hne
        simp only [AMap.put, if_neg hlt, if_neg hne, ih]

theorem AMap.put_put_ne {α : Type} {m : AMap α} {j k : Nat} {v w : α} (h : m.put k v = m) (hjk : j ≠ k) :
    (m.put j w).put k v = m.put j w := by
  induction m with
  | nil => simp [AMap.put] at h
  | cons p r ih =>
    obtain ⟨i, u⟩ := p
    rcases Nat.lt_trichotomy k i with hk | rfl | hk
    · simp [AMap.put, hk] at h
    · rcases Nat.lt_or_gt_of_ne hjk with hj | hj
      · simp_all [AMap.put, Nat.not_lt.2 (Nat.le_of_lt hj), Ne.symm hjk]
      · simp_all [AMap.put, Nat.not_lt.2 (Nat.le_of_lt hj)]
    · have hr : AMap.put r k v = r := by simpa [AMap.put, Nat.not_lt.2 (Nat.le_of_lt hk), Nat.ne_of_gt hk] using h
      have hk' : ¬k < i := Nat.not_lt.2 (Nat.le_of_lt hk)
      have hki : k ≠ i := Nat.ne_of_gt hk
      rcases Nat.lt_trichotomy j i with hj | rfl | hj
      · have hkj : ¬k < j := by omega
        simp [AMap.put, hj, hkj, Ne.symm hjk, hk', hki, hr]
      · simp [AMap.put, hk', hki, hr]
      · have hj' : ¬j < i := Nat.not_lt.2 (Nat.le_of_lt hj)
        simp [AMap.put, hj', Nat.ne_of_gt hj, hk', hki, ih hr]

/-- Once every key of some has been put with its value, putting one of them again changes nothing. -/
theorem AMap.put_foldl_self {α : Type} (g : Nat → α) {ls : List Nat} {k : Nat} (hk : k ∈ ls) (m : AMap α) :
    ((ls.map fun l => (l, g l)).foldl (fun m u => m.put u.1 u.2) m).put k (g k)
      = (ls.map fun l => (l, g l)).foldl (fun m u => m.put u.1 u.2) m := by
  have hkeeps (ls : List Nat) (m : AMap α) (h : m.put k (g k) = m) :
      ((ls.map fun l => (l, g l)).foldl (fun m u => m.put u.1 u.2) m).put k (g k)
        = (ls.map fun l => (l, g l)).foldl (fun m u => m.put u.1 u.2) m := by
    induction ls generalizing m with
    | nil => exact h
    | cons x r ih =>
      refine ih _ ?_
      by_cases hx : x = k
      · subst hx
        exact AMap.put_put_self ..
      · exact AMap.put_put_ne h hx
  induction ls generalizing m with
  | nil => exact absurd hk (List.not_mem_nil)
  | cons x r ih =>
    rcases List.mem_cons.1 hk with rfl | hk
    · exact hkeeps r _ (AMap.put_put_self ..)
    · exact ih hk _

theorem Team.setCrew_setCrew (T : Team) (c : Nat) (C : Crew) : (T.setCrew c C).setCrew c C = T.setCrew c C :=
  congrArg (fun m => { T with body := { T.body with crews := m } }) (AMap.put_put_self ..)

theorem State.setTeam_setTeam (s : State) (t : Nat) (T : Team) : (s.setTeam t T).setTeam t T = s.setTeam t T :=
  congrArg (fun m => { s with teams := m }) (AMap.put_put_self ..)

theorem State.setCrew_setCrew (s : State) (t c : Nat) (C : Crew) : (s.setCrew t c C).setCrew t c C = s.setCrew t c C := by
  rw [State.setCrew, State.setCrew, State.team_setTeam_self, Team.setCrew_setCrew, State.setTeam_setTeam]

/-- New states of lanes, put in place once more for one of them, change nothing. -/
theorem State.mapLanes_again {s : State} {ls : List Nat} {f f' : Nat → Lane → Lane} {k : Nat} (hk : k ∈ ls)
    (h : f' k (f k (s.curLane k)) = f k (s.curLane k)) : (s.mapLanes ls f).mapLanes [k] f' = s.mapLanes ls f := by
  have hcrew : (s.mapLanes ls f).curCrew = s.curCrew.setLanes (ls.map fun l => (l, f l (s.curCrew.lane l))) :=
    State.curCrew_setCurCrew ..
  have hlane : (s.mapLanes ls f).curCrew.lane k = f k (s.curLane k) := by
    rw [hcrew, Crew.lane_setLanes, if_pos hk]
    rfl
  have hsame : (s.mapLanes ls f).curCrew.setLanes ([k].map fun l => (l, f' l ((s.mapLanes ls f).curCrew.lane l)))
      = (s.mapLanes ls f).curCrew := by
    rw [List.map_singleton, hlane, h, hcrew]
    exact congrArg (fun m => { s.curCrew with lanes := m }) (AMap.put_foldl_self (fun l => f l (s.curCrew.lane l)) hk _)
  rw [State.mapLanes, hsame, hcrew]
  exact State.setCrew_setCrew ..

section

variable {s : State} {a : RegF}

/-- LAUNCHT tells a truth value in each fibre for which it takes effect. -/
theorem State.launcht_tells {s2 : State} {q : PredF} {oks : List (Nat × Bool)} {v : Bool} (hnamed : s2.curCrew.named = [])
    (hcur : s2.cur = s.cur) (hlanes : ∀ m ∈ s.cur.lanes, s2.curLane m = s.curLane m)
    (hv : ∀ l ∈ s.effective, ((oks.find? (·.1 == l)).map Prod.snd).getD false = v) :
    (∀ m ∈ s.cur.lanes, (s.settleLaunch s2 a (some q) oks).checkpointHere.curLane m
        = (if m ∈ s.effective then (s.curLane m).setQ q v (s.recTag a 128 m) else s.curLane m).advance)
      ∧ ((s.settleLaunch s2 a (some q) oks).checkpointHere.team s.cur.team).shadow.isSome = true := by
  refine ⟨fun m hm => ?_, State.settleLaunch_shadow hnamed hcur⟩
  rw [State.curLane_settleLaunch hnamed hcur hlanes hm]
  by_cases he : m ∈ s.effective
  · rw [if_pos he, if_pos he, State.toldLane, hv m he]
  · rw [if_neg he, if_neg he]

/-- LAUNCHT that launches nothing leaves memory and tells false. -/
theorem State.launcht_false {q : PredF} {oks : List (Nat × Bool)} (hnamed : s.curCrew.named = []) (hv : ∀ x ∈ oks, x.2 = false) :
    ((∀ m ∈ s.cur.lanes, (s.settleLaunch s a (some q) oks).checkpointHere.curLane m
        = (if m ∈ s.effective then (s.curLane m).setQ q false (s.recTag a 128 m) else s.curLane m).advance)
      ∧ ((s.settleLaunch s a (some q) oks).checkpointHere.team s.cur.team).shadow.isSome = true)
      ∧ s.sameMemory (s.settleLaunch s a (some q) oks).checkpointHere := by
  refine ⟨State.launcht_tells hnamed rfl (fun _ _ => rfl) fun l _ => ?_, (State.onlyTeams_settleLaunch hnamed).sameMemory⟩
  cases hf : oks.find? (·.1 == l) with
  | none => rfl
  | some x => exact hv x (List.mem_of_find?_eq_some hf)

variable (h : s.hasRecord a 128 s.effective = true) (hw : ∀ l ∈ s.effective, s.curCrew.watched l = false)
include h hw

/-- R391: below depth 9 none is launched: LAUNCH traps. -/
theorem execLaunch_deep (hdeep : s.deep = true) : exec (.launch a) s = .next (s.trap s.effective causeLaunchDepth 0) := by
  have hcause (l : Nat) (hl : l ∈ s.effective) : s.launchCause a none l = some (causeLaunchDepth, 0) := by
    rw [State.launchCause, if_pos (State.hasRecord_mem h hl).1, if_pos (by rw [hdeep]; rfl)]
  have hready := State.hasRecord_ready h
  obtain ⟨l, hl⟩ := List.exists_mem_of_ne_nil _ (State.ready_effective hready)
  rw [exec_launch, execLaunch]
  exact State.launchWord_traps (c := (causeLaunchDepth, 0)) hready hw ⟨l, hl, hcause l hl⟩ fun m hm d hd => by
    rw [hcause m hm] at hd
    exact (Option.some.inj hd).symm

theorem execLauncht_deep (q : PredF) (hdeep : s.deep = true) :
    exec (.launcht a q) s = .next (s.settleLaunch s a (some q) []).checkpointHere := by
  rw [exec_launcht, execLauncht, State.launchWord_deep h hw (by rw [Option.isNone_some, Bool.and_false]) hdeep]

section

variable (hdeep : s.deep = false) (hdid : ∀ l ∈ s.effective, (s.curLane l).did = none)
  (hfence : s.fenceOpen s.cur.team s.cur.crew .all s.cur.lanes = true) (hwait : ∀ w ∈ s.waiters, w.team ≠ s.cur.team)
  (hclaim : s.claimable (dieOf (s.team s.cur.team).core) (((s.launchOf s.cur.team).map Launch.depth).getD 0 + 1) = none)
include hdeep hdid hfence hwait hclaim

/-- Without an entry LAUNCHT launches nothing. -/
theorem execLauncht_full (q : PredF) : ∃ oks : List (Nat × Bool), (∀ x ∈ oks, x.2 = false)
    ∧ exec (.launcht a q) s = .next (s.settleLaunch s a (some q) oks).checkpointHere := by
  have hall := State.launchAll_none (s := s) (try' := true) (xs := s.launchReads a) (fun x hx => by
    obtain ⟨l, hl, rfl⟩ := List.mem_map.1 hx
    simp only [hdid l hl]
    exact (State.launchOne_full hwait hclaim ..).trans (if_pos rfl)) []
  refine ⟨[] ++ (s.launchReads a).map fun x => (x.1, false), fun x hx => ?_, ?_⟩
  · obtain ⟨y, -, rfl⟩ := List.mem_map.1 hx
    rfl
  · rw [exec_launcht, execLauncht, State.launchWord_launches h hw (by rw [Option.isNone_some, Bool.and_false]) hdeep hdid hfence,
      Option.isSome_some, hall]
    rfl

/-- Without an entry LAUNCH waits for one (R196). -/
theorem execLaunch_full {l : Nat} (hl : s.effective = [l]) : exec (.launch a) s = .next ({ s with waiters := s.waiters
    ++ [({ die := dieOf (s.team s.cur.team).core, team := s.cur.team, crew := s.cur.crew, lanes := [l]
           depth := ((s.launchOf s.cur.team).map Launch.depth).getD 0 + 1, given := none } : Waiter)] }.park
      fun m => if m = l then .launchQueue else .regs []) := by
  have hmem : l ∈ s.effective := hl ▸ List.mem_singleton_self l
  have hreads : s.launchReads a = [(l, s.curLane l, [s.operand l (src a 1 false)])] := by rw [State.launchReads, hl]; rfl
  have hany (m : Nat) : (s.launchReads a).any (·.1 == m) = (l == m) := by rw [hreads]; exact Bool.or_false _
  rw [exec_launch, execLaunch, State.launchWord_launches h hw (by rw [hdeep]; rfl) hdeep hdid hfence, hreads, State.launchAll]
  dsimp only
  rw [hdid l hmem, State.launchOne_full hwait hclaim]
  simp only [Option.isSome_none, Bool.false_eq_true, if_false, List.map_nil, List.nil_append, State.launchEnd, State.launchWaits,
    List.any_cons, List.any_nil, Bool.or_false, hany]
  have hwake : (fun m => if m = l then Wake.launchQueue else if (l == m) = true then Wake.follow l else Wake.regs [])
      = fun m => if m = l then Wake.launchQueue else Wake.regs [] := by
    funext m
    by_cases hm : m = l
    · rw [if_pos hm, if_pos hm]
    · rw [if_neg hm, if_neg hm, if_neg (by simpa using Ne.symm hm)]
  rw [hwake]
  refine congrArg Host.Outcome.next (State.mapLanes_again ((State.mem_effective s l).1 hmem).1 ?_)
  have hcleared (L : Lane) (hL : L.did = none) : { L with did := none } = L := by rw [← hL]
  refine Eq.trans ?_ (hcleared _ (hdid l hmem))
  simp

end

end

end Sys2Proof.Machine
end

section
/-! PROOFS. What reads and writes at the homes leave of the issuing braid, of the crews and of the stashes (R255, R335). -/

namespace Sys2Proof.Machine

open Sys2Proof

/-! ## Steps that leave the teams -/

/-- The issuing braid, the chip and the teams. -/
def State.seat (s : State) : Cur × Nat × AMap Team := (s.cur, s.chipno, s.teams)

theorem State.seat_foldl {ι : Type} {f : State → ι → State} (hf : ∀ s x, (f s x).seat = s.seat) (xs : List ι) (s : State) :
    (xs.foldl f s).seat = s.seat :=
  foldl_keeps (fun t => t.seat = s.seat) f (fun t x h => (hf t x).trans h) xs s rfl

section

variable (s : State)

@[simp] theorem State.seat_mcRecord (bank code : Nat) (cls : McClass) (source : Nat) (addr info : Option Nat) :
    (s.mcRecord bank code cls source addr info).seat = s.seat := by
  obtain ⟨_, _, _, _, _, h⟩ := s.mcRecord_spec bank code cls source addr info
  rw [h]
  rfl

@[simp] theorem State.seat_poison (secs : List Nat) : (s.poison secs).seat = s.seat := rfl

@[simp] theorem State.seat_llc (m : AMap Bool) : ({ s with llc := m } : State).seat = s.seat := rfl

theorem State.seat_detect (sector : Nat) {record : State → State} (h : ∀ t, (record t).seat = t.seat) :
    (s.detect sector record).seat = s.seat := by
  unfold State.detect
  split
  · rfl
  · exact h _

theorem State.seat_arrayWord (line : Nat) (wb : Nat × List Nat) : (s.arrayWord line wb).seat = s.seat := by
  unfold State.arrayWord
  dsimp only
  split
  · rfl
  · simp
  · exact s.seat_detect _ fun t => by simp

theorem State.seat_wordCheck (line bank source sec unc : Nat) (wb : Nat × List Nat) :
    (s.wordCheck line bank source sec unc wb).seat = s.seat := by
  unfold State.wordCheck
  extract_lets a half
  have hhalf (h : Nat) (t : State) : (half h t).seat = t.seat := by
    unfold half
    split
    · rfl
    · simp
    · exact t.seat_detect _ fun u => by simp
  exact (hhalf 1 _).trans (hhalf 0 s)

@[simp] theorem State.seat_cacheCheck (line : Nat) (e : MemErr) : (s.cacheCheck line e).seat = s.seat :=
  State.seat_foldl (fun t _ => t.seat_wordCheck ..) _ s

@[simp] theorem State.seat_transfer (line : Nat) (e : MemErr) : (s.transfer line e).seat = s.seat := by
  unfold State.transfer
  extract_lets die log groups fail named
  have hlog (t : State) (code : Nat) (cls : McClass) (lane spare tries : Nat) (swap : Bool) :
      (log t code cls lane spare tries swap).seat = t.seat := t.seat_mcRecord ..
  have hfail (t : State) (bad : List Nat) (lane spare tries : Nat) (swap : Bool) :
      (fail t bad lane spare tries swap).seat = t.seat := hlog _ ..
  split
  · rfl
  · exact hlog ..
  · clear_value named
    cases named with
    | none => exact hfail ..
    | some l =>
      dsimp only
      split_ifs
      · exact hlog ..
      · exact hfail ..
      · exact hfail ..

@[simp] theorem State.seat_errMet (line : Nat) : (s.errMet line).seat = s.seat := by
  unfold State.errMet
  split <;> rfl

@[simp] theorem State.seat_dropLine (line : Nat) (e : MemErr) : (s.dropLine line e).seat = s.seat := by
  simp only [State.dropLine, State.seat_llc]
  split_ifs <;> simp

@[simp] theorem State.seat_sliceRoom (line : Nat) : (s.sliceRoom line).seat = s.seat := by
  unfold State.sliceRoom
  dsimp only
  split
  · rfl
  · split
    · exact s.seat_dropLine ..
    · rfl

theorem State.seat_bumpVersion (line : Nat) : (s.bumpVersion line).seat = s.seat := by
  unfold State.bumpVersion
  dsimp only
  split <;> rfl

theorem State.seat_noteWrite (line : Nat) : (s.noteWrite line).seat = s.seat := by
  unfold State.noteWrite
  split
  · split <;> rfl
  · rfl

theorem State.seat_freeBytes (n : Nat) : (s.freeBytes n).2.seat = s.seat := by
  induction n generalizing s with
  | zero => rfl
  | succ n ih => exact ih _

theorem State.seat_lineAway (t n : Nat) : (s.lineAway t n).2.seat = s.seat := by
  unfold State.lineAway
  dsimp only
  split
  · simp only [State.seat_freeBytes]
  · rfl

theorem State.seat_ackCopy (core line off : Nat) (data : List Byte) (tags : List Bool) :
    (s.ackCopy core line off data tags).seat = s.seat := by
  unfold State.ackCopy
  split <;> rfl

theorem State.seat_viewRead (off n : Nat) : (s.viewRead off n).1.seat = s.seat := by
  unfold State.viewRead
  split <;> rfl

end

/-! ## Steps that leave the crews and the stashes -/

/-- From `s` to `t` the issuing braid, the chip, and the crews and the stash of every team stay. -/
structure State.Still (s t : State) : Prop where
  cur : t.cur = s.cur
  chipno : t.chipno = s.chipno
  crews : ∀ k, (t.team k).body.crews = (s.team k).body.crews
  stash : ∀ k, (t.team k).body.stash = (s.team k).body.stash

namespace State.Still

variable {s t u : State}

theorem of_seat (h : t.seat = s.seat) : State.Still s t := by
  simp only [State.seat, Prod.mk.injEq] at h
  obtain ⟨hcur, hchip, hteams⟩ := h
  refine ⟨hcur, hchip, fun k => ?_, fun k => ?_⟩ <;> rw [State.team, hteams] <;> rfl

theorem refl (s : State) : State.Still s s := of_seat rfl

theorem trans (h : State.Still s t) (h' : State.Still t u) : State.Still s u where
  cur := h'.cur.trans h.cur
  chipno := h'.chipno.trans h.chipno
  crews k := (h'.crews k).trans (h.crews k)
  stash k := (h'.stash k).trans (h.stash k)

/-- What follows may keep the teams exactly. -/
theorem then_seat (h : State.Still s t) (h' : u.seat = t.seat) : State.Still s u := h.trans (of_seat h')

theorem foldl {ι : Type} {f : State → ι → State} (hf : ∀ s x, State.Still s (f s x)) (xs : List ι) (s : State) :
    State.Still s (xs.foldl f s) :=
  foldl_keeps (State.Still s) f (fun t x h => h.trans (hf t x)) xs s (refl s)

theorem setTeam {k : Nat} {T : Team} (hcrews : T.body.crews = (s.team k).body.crews) (hstash : T.body.stash = (s.team k).body.stash) :
    State.Still s (s.setTeam k T) := by
  refine ⟨rfl, rfl, fun j => ?_, fun j => ?_⟩ <;> by_cases hj : j = k
  · subst hj
    rw [State.team_setTeam_self, hcrews]
  · rw [State.team_setTeam_ne _ _ hj]
  · subst hj
    rw [State.team_setTeam_self, hstash]
  · rw [State.team_setTeam_ne _ _ hj]

end State.Still

section

variable (s : State)

theorem State.noteSaved_still (line : Nat) : State.Still s (s.noteSaved line) := by
  have hteam (f : Team → Team) (hf : ∀ T, (f T).body = T.body) (k : Nat) :
      (({ s with teams := s.teams.mapVals fun _ T => f T } : State).team k).body.crews = (s.team k).body.crews
        ∧ (({ s with teams := s.teams.mapVals fun _ T => f T } : State).team k).body.stash = (s.team k).body.stash := by
    simp only [State.team, AMap.find_mapVals]
    cases s.teams.find k with
    | none => exact ⟨rfl, rfl⟩
    | some T => simp [hf]
  unfold State.noteSaved
  dsimp only
  split
  · refine ⟨rfl, rfl, fun k => (hteam _ (fun T => ?_) k).1, fun k => (hteam _ (fun T => ?_) k).2⟩ <;> split <;> rfl
  · exact .refl s

theorem State.touchLine_still (line : Nat) (e : MemErr) (dirty : Bool) : State.Still s (s.touchLine line e dirty) := by
  refine (s.noteSaved_still line).then_seat ?_
  unfold State.touchLine
  dsimp only
  split
  · split
    · simp
    · rw [State.seat_llc]
      split_ifs
      · rw [State.seat_transfer, State.seat_foldl fun t _ => t.seat_arrayWord ..]
        simp
      · rw [State.seat_foldl fun t _ => t.seat_wordCheck ..]
        simp
      · simp
  · simp

theorem State.putWhole_still (line : Nat) (data : Mem) : State.Still s (s.putWhole line data) :=
  (s.touchLine_still line MemErr.none true).then_seat ((State.seat_noteWrite ..).trans (State.seat_bumpVersion ..))

theorem State.putLine_still (addr : Nat) (data : List Byte) (tag : Bool) : State.Still s (s.putLine addr data tag) :=
  (s.touchLine_still (addr / 128) MemErr.none true).then_seat ((State.seat_noteWrite ..).trans (State.seat_bumpVersion ..))

theorem State.recallAt_still (line : Nat) (forWrite : Bool) (x : Nat × Nat) : State.Still s (s.recallAt line forWrite x) := by
  unfold State.recallAt
  extract_lets t n T pdef g r m u v s'
  have hback : State.Still s s' := by
    unfold s'
    split
    · refine .trans ?_ (.setTeam rfl rfl)
      have hput : State.Still s u := (State.Still.of_seat (s.seat_lineAway t n)).trans (r.2.putWhole_still line m)
      refine hput.then_seat ?_
      unfold v
      split
      · exact State.seat_ackCopy ..
      · rfl
    · exact .refl s
  exact hback.trans (.setTeam rfl rfl)

theorem State.recallLine_still (line : Nat) (forWrite : Bool) : State.Still s (s.recallLine line forWrite) := by
  unfold State.recallLine
  split
  · exact .refl s
  · have hfold := State.Still.foldl (fun t x => t.recallAt_still line forWrite x) (s.holders line ‹_›) s
    dsimp only
    split
    · exact hfold.then_seat rfl
    · exact hfold

theorem State.readTransition_still (line : Nat) : State.Still s (s.readTransition line) := by
  unfold State.readTransition
  dsimp only
  split
  · exact (s.recallLine_still line false).then_seat rfl
  · exact .refl s

theorem State.writeTransition_still (line : Nat) : State.Still s (s.writeTransition line) :=
  (s.recallLine_still line true).then_seat rfl

theorem State.readHome_still (a n : Nat) (e : MemErr) : State.Still s (s.readHome a n e).1 :=
  (s.readTransition_still _).trans (State.touchLine_still ..)

end

end Sys2Proof.Machine
end

section
/-! PROOFS. What the checks of a block leave of the issuing braid and of the crews (R160, R161). -/

namespace Sys2Proof.Machine

open Sys2Proof

/-- From `s` to `t` the issuing braid, the chip and the crews of every team stay. -/
structure State.Crewed (s t : State) : Prop where
  cur : t.cur = s.cur
  chipno : t.chipno = s.chipno
  crews : ∀ k, (t.team k).body.crews = (s.team k).body.crews

namespace State.Crewed

variable {s t u : State}

theorem of_still (h : State.Still s t) : State.Crewed s t := ⟨h.cur, h.chipno, h.crews⟩

theorem refl (s : State) : State.Crewed s s := of_still (.refl s)

theorem trans (h : State.Crewed s t) (h' : State.Crewed t u) : State.Crewed s u where
  cur := h'.cur.trans h.cur
  chipno := h'.chipno.trans h.chipno
  crews k := (h'.crews k).trans (h.crews k)

theorem updBody (t : Nat) {f : Body → Body} (hf : ∀ b, (f b).crews = b.crews) : State.Crewed s (s.updBody t f) := by
  refine ⟨rfl, rfl, fun k => ?_⟩
  by_cases hk : k = t
  · subst hk
    rw [State.updBody, State.team_setTeam_self, hf]
  · rw [State.updBody, State.team_setTeam_ne _ _ hk]

theorem curCrew (h : State.Crewed s t) : t.curCrew = s.curCrew := by
  rw [State.curCrew, State.curCrew, h.cur, State.crew, State.crew, h.crews]

theorem curLane (h : State.Crewed s t) (l : Nat) : t.curLane l = s.curLane l := by rw [State.curLane, State.curLane, h.curCrew]

end State.Crewed

/-! ## Reads by the device -/

theorem State.readPieces_still {ps : List (Nat × Nat)} {s t : State} {b : Bytes} (h : s.readPieces ps = .ok t b) : State.Still s t := by
  induction ps generalizing s b with
  | nil =>
    cases h
    exact .refl _
  | cons p r ih =>
    rw [State.readPieces] at h
    split at h
    · cases h
    · dsimp only at h
      split at h
      · split at h
        · rename_i hr
          cases h
          exact ih hr
        · exact ih h
      · split at h
        · rename_i hr
          cases h
          exact (s.readHome_still ..).trans (ih hr)
        · exact (s.readHome_still ..).trans (ih h)

theorem State.readLocs_still {ls : List (Loc × Nat)} {s t : State} {b : Bytes} (h : s.readLocs ls = .ok t b) : State.Still s t := by
  induction ls generalizing s b with
  | nil =>
    cases h
    exact .refl _
  | cons x r ih =>
    obtain ⟨loc, n⟩ := x
    cases loc with
    | mem a obj frame fver imm pdef =>
      rw [State.readLocs] at h
      split at h
      · rename_i u c hu
        split at h
        · rename_i hr
          cases h
          exact (State.readPieces_still hu).trans (ih hr)
        · exact (State.readPieces_still hu).trans (ih h)
      · exact State.readPieces_still h
    | view off =>
      rw [State.readLocs] at h
      have hview := State.Still.of_seat (s.seat_viewRead off n)
      split at h
      · rename_i hr
        cases h
        exact hview.trans (ih hr)
      · exact hview.trans (ih h)
    | stash off =>
      rw [State.readLocs] at h
      exact ih h

theorem State.readRange_still {s t : State} {ctx : Nat} {cap : DWord} {n : Nat} {need : BitVec 4} {b : Bytes}
    (h : s.readRange ctx cap n need = .ok t b) : State.Still s t := by
  rw [State.readRange] at h
  split at h
  · cases h
  · exact State.readLocs_still h

/-- A stash line that becomes present. -/
theorem State.touchStash_crewed {s u : State} {t n : Nat} (h : s.touchStash t n = .ready u) : State.Crewed s u := by
  unfold State.touchStash at h
  dsimp only at h
  split at h
  · cases h
    exact .refl _
  · split at h
    · cases h
    · split at h
      · split at h
        · cases h
        · split at h
          · cases h
          · cases h
            exact .updBody t fun _ => rfl
          · cases h
            exact (State.Crewed.of_still (.of_seat (s.seat_viewRead ..))).trans (.updBody t fun _ => rfl)
          · cases h
      · cases h
        exact .updBody t fun _ => rfl

theorem State.argLines_crewed {s u : State} {t : Nat} {ls : List Nat} {b : Bytes} (h : s.argLines t ls = .ok u b) : State.Crewed s u := by
  induction ls generalizing s with
  | nil =>
    cases h
    exact .refl _
  | cons n r ih =>
    rw [State.argLines] at h
    split at h
    · rename_i hn
      exact (State.touchStash_crewed hn).trans (ih h)
    · cases h
    · cases h

theorem State.readFrom_crewed {s u : State} {ctx : Nat} {team : Option Nat} {cap : DWord} {n : Nat} {b : Bytes}
    (h : s.readFrom ctx team cap n = .ok u b) : State.Crewed s u := by
  unfold State.readFrom at h
  split at h
  · cases h
    exact .refl _
  · split at h
    · exact .of_still (State.readRange_still h)
    · split at h
      · cases h
      · split at h
        · cases h
        · split at h
          · rename_i hlines
            cases h
            exact State.argLines_crewed hlines
          · exact State.argLines_crewed h

/-! ## The checks of a block -/

theorem State.examineAs_crewed {s u : State} {lead ctx : Nat} {read : State → DWord → Nat → RangeRead} {bytes : List Byte} {x : Intake}
    (hread : ∀ {s u cap n b}, read s cap n = .ok u b → State.Crewed s u) (h : s.examineAs lead ctx read bytes = .ok u x) :
    State.Crewed s u := by
  unfold State.examineAs at h
  dsimp only at h
  split at h
  · cases h
  · split at h
    · cases h
    · cases h
    · rename_i hcode
      split at h
      · cases h
      · cases h
      · rename_i hargs
        have hs := (State.Crewed.of_still (State.readRange_still hcode)).trans (hread hargs)
        split at h
        · cases h
        · cases h
        · rename_i cs hchips
          generalize (if (launchBlock bytes).nchip = 1 then [s.chipno] else chipList cs.data (launchBlock bytes).nchip) = chips at h
          split at h
          · cases h
          · split at h
            · cases h
            · cases h
              refine hs.trans ?_
              split at hchips
              · cases hchips
                exact .refl _
              · exact hread hchips

theorem State.examine_crewed {s u : State} {ctx : Nat} {team : Option Nat} {bytes : List Byte} {x : Intake}
    (h : s.examine ctx team bytes = .ok u x) : State.Crewed s u := by
  unfold State.examine at h
  split at h
  · cases h
  · exact State.examineAs_crewed (fun h => State.readFrom_crewed h) h

end Sys2Proof.Machine
end

section
/-! PROOFS. The kill path leaves the stashes (R300, R313): what a trap that escalates finds in them stands. -/

namespace Sys2Proof.Machine

open Sys2Proof

/-- From `s` to `t` the stash of every team stays. -/
structure State.SameStash (s t : State) : Prop where
  stash : ∀ k, (t.team k).body.stash = (s.team k).body.stash

namespace State.SameStash

variable {s t u : State}

theorem refl (s : State) : State.SameStash s s := ⟨fun _ => rfl⟩

theorem trans (h : State.SameStash s t) (h' : State.SameStash t u) : State.SameStash s u :=
  ⟨fun k => (h'.stash k).trans (h.stash k)⟩

theorem of_still (h : State.Still s t) : State.SameStash s t := ⟨h.stash⟩

theorem of_teams (h : t.teams = s.teams) : State.SameStash s t := ⟨fun k => by rw [State.team, h]; rfl⟩

theorem of_footing (h : t.footing = s.footing) : State.SameStash s t := of_teams (congrArg (fun x => x.2.1) h)

theorem foldl {ι : Type} {f : State → ι → State} (hf : ∀ s x, State.SameStash s (f s x)) (xs : List ι) (s : State) :
    State.SameStash s (xs.foldl f s) :=
  foldl_keeps (State.SameStash s) f (fun t x h => h.trans (hf t x)) xs s (refl s)

theorem setTeam {k : Nat} {T : Team} (h : T.body.stash = (s.team k).body.stash) : State.SameStash s (s.setTeam k T) := by
  refine ⟨fun j => ?_⟩
  by_cases hj : j = k
  · subst hj
    rw [State.team_setTeam_self, h]
  · rw [State.team_setTeam_ne _ _ hj]

end State.SameStash

section

variable (s : State)

theorem State.performWrite_sameStash (addr : Nat) (data : List Byte) (tag : Bool) :
    State.SameStash s (s.performWrite addr data tag).1 :=
  ((State.SameStash.of_footing (s.footing_raceAt ..)).trans (.of_still (State.writeTransition_still ..))).trans
    (.of_still (State.putLine_still ..))

theorem State.deviceWrite_sameStash {ctx : Nat} {cap : DWord} {data : List Byte} {t : State}
    (h : s.deviceWrite ctx cap data = .done t ∨ s.deviceWrite ctx cap data = .wait t) : State.SameStash s t := by
  unfold State.deviceWrite at h
  split at h
  case h_2 => rcases h with h | h <;> cases h
  dsimp only at h
  split at h
  case h_1 u hu =>
    rcases h with h | h <;> cases h
    exact .of_footing (s.footing_writesBlocked hu)
  case h_2 =>
    rcases h with h | h <;> cases h
    exact foldl_keeps (fun r : State × List Byte => State.SameStash s r.1) _
      (fun r p hr => hr.trans (r.1.performWrite_sameStash ..)) _ _ (.refl s)

theorem State.writeCompletion_sameStash (ctx q slot : Nat) (cookie : Word) (status : Nat) (gen : Word) :
    State.SameStash s (s.writeCompletion ctx q slot cookie status gen) := by
  unfold State.writeCompletion
  dsimp only
  split
  · exact .of_teams rfl
  · split
    · exact .of_teams rfl
    · split
      · exact .refl s
      · split
        case h_1 => exact .of_teams rfl
        case h_2 u hu => exact (s.deviceWrite_sameStash (.inr hu)).trans (.of_teams rfl)
        case h_3 u hu =>
          refine (s.deviceWrite_sameStash (.inl hu)).trans (.of_teams ?_)
          split <;> rfl

theorem State.endLaunch_sameStash (l status : Nat) : State.SameStash s (s.endLaunch l status) := by
  unfold State.endLaunch
  split
  · exact .refl s
  · split
    · exact .refl s
    · extract_lets u v
      have hv : State.SameStash s v := by
        refine State.SameStash.trans (t := u) (.of_teams rfl) ?_
        unfold v
        split
        · exact u.writeCompletion_sameStash ..
        · exact (State.SameStash.of_footing (u.footing_freeClaim ..)).trans (.setTeam rfl)
        · exact .refl u
      split
      · exact hv
      · exact hv.trans (.of_teams rfl)

theorem State.endWhenDone_sameStash (l status : Nat) : State.SameStash s (s.endWhenDone l status) := by
  unfold State.endWhenDone
  split
  · exact .of_teams rfl
  · exact s.endLaunch_sameStash l status

theorem State.stopTeam_sameStash (t : Nat) : State.SameStash s (s.stopTeam t) := by
  unfold State.stopTeam
  extract_lets T b crews u gone v w x
  have hw : w.footing = v.footing := by
    refine State.footing_foldl (fun t p => ?_) _ v
    split <;> rfl
  have hu : (x.coreVacated T.core).footing = u.footing := (x.footing_coreVacated T.core).trans hw
  exact State.SameStash.trans (t := u) (.setTeam rfl) (.of_footing hu)

theorem State.stopLaunch_sameStash (l status : Nat) : State.SameStash s (s.stopLaunch l status) := by
  unfold State.stopLaunch
  split
  · exact .refl s
  · split
    · exact .refl s
    · refine (State.SameStash.foldl (fun s t => s.stopTeam_sameStash t) (s.launchTeams l) s).trans ?_
      have hend {u v : State} (h : v.teams = u.teams) : State.SameStash u (v.endWhenDone l status) :=
        (State.SameStash.of_teams h).trans (v.endWhenDone_sameStash l status)
      dsimp only
      split
      · exact .of_teams rfl
      · exact .of_teams rfl
      · split
        · exact hend rfl
        · split
          · exact hend rfl
          · exact .of_teams rfl

theorem State.escalate_sameStash (t : Nat) : State.SameStash s (s.escalate t) := by
  unfold State.escalate
  extract_lets ctx core u v w
  refine State.SameStash.trans (t := w) (.of_footing ?_) (.foldl (fun s l => s.stopLaunch_sameStash l stFaulted) _ w)
  exact (State.footing_mcRecord ..).trans rfl

/-- A trap leaves the stashes, whether it is taken or escalates. -/
theorem State.trap_sameStash (E : List Nat) (cause : BitVec 8) (eaddr : DWord) : State.SameStash s (s.trap E cause eaddr) := by
  unfold State.trap State.trapWith
  extract_lets t C b v
  split
  · exact s.escalate_sameStash t
  · exact .setTeam rfl

end

end Sys2Proof.Machine
end

section
/-! PROOFS. A child that is accepted or refused (R160, R176, R196, R391, R392). -/

namespace Sys2Proof.Machine

open Sys2Proof

/-! ## GEN in the record -/

theorem Mem.bytes_congr {m m' : Mem} {a n : Nat} (h : ∀ i, m.byte i = m'.byte i) : m.bytes a n = m'.bytes a n := by
  induction n generalizing a with
  | zero => rfl
  | succ n ih => rw [Mem.bytes, Mem.bytes, h, ih]

/-- What was stored is read back. -/
theorem Mem.num_store (m : Mem) (a v : Nat) (tag : Bool) : (m.store a (leBytes 4 v) tag).num a 4 = v % 2 ^ 32 := by
  have h := m.bytes_setBytes a (leBytes 4 v)
  rw [leBytes_length] at h
  rw [Mem.num, Mem.bytes_congr (m.byte_store a (leBytes 4 v) tag), h, leNat_leBytes, show (256 : Nat) ^ 4 = 2 ^ 32 from rfl]

/-- A state is another but for its cores, its messages and their numbers. -/
def State.onlyMsgs (s t : State) : Prop := ∃ cores msgs next, t = { s with cores, msgs, next }

theorem State.onlyMsgs.trans {s t u : State} (h : s.onlyMsgs t) (h' : t.onlyMsgs u) : s.onlyMsgs u := by
  obtain ⟨_, _, _, rfl⟩ := h
  obtain ⟨_, _, _, rfl⟩ := h'
  exact ⟨_, _, _, rfl⟩

section

variable (s : State) (t a : Nat)

theorem State.noteRace_onlyMsgs (n : Nat) : s.onlyMsgs (s.noteRace t a n) := by
  unfold State.noteRace
  split
  · exact ⟨s.cores, s.msgs, s.next, rfl⟩
  · exact ⟨_, s.msgs, s.next, rfl⟩

theorem State.dirtyNotice_onlyMsgs : s.onlyMsgs (s.dirtyNotice t a) := by
  unfold State.dirtyNotice
  dsimp only
  split
  · exact ⟨s.cores, s.msgs, s.next, rfl⟩
  · split
    · split
      · exact ⟨s.cores, _, _, rfl⟩
      · exact ⟨s.cores, s.msgs, s.next, rfl⟩
    · exact ⟨s.cores, s.msgs, s.next, rfl⟩

/-- GEN goes into the record of a team; the rest of the teams stays. -/
theorem State.putGen_spec (gen : Word) : ∃ u, s.onlyMsgs u
    ∧ s.putGen t a gen = u.updBody t fun b => b.stashPut (a + 0x3C) (leBytes 4 gen.toNat) false :=
  ⟨_, (s.noteRace_onlyMsgs ..).trans (foldl_keeps (State.onlyMsgs _) _ (fun u n h => h.trans (u.dirtyNotice_onlyMsgs t n)) _ _
    ⟨_, _, _, rfl⟩), rfl⟩

theorem State.putGen_num (gen : Word) : ((s.putGen t a gen).team t).body.stash.num (a + 0x3C) 4 = gen.toNat := by
  obtain ⟨u, -, h⟩ := s.putGen_spec t a gen
  rw [h, State.updBody, State.team_setTeam_self]
  exact (Mem.num_store ..).trans (Nat.mod_eq_of_lt gen.isLt)

theorem State.putGen_crewed (gen : Word) : State.Crewed s (s.putGen t a gen) := by
  obtain ⟨u, ⟨_, _, _, hu⟩, h⟩ := s.putGen_spec t a gen
  rw [h]
  refine State.Crewed.trans (t := u) ?_ (.updBody t fun _ => rfl)
  rw [hu]
  exact ⟨rfl, rfl, fun _ => rfl⟩

theorem State.putGen_rest (gen : Word) : (s.putGen t a gen).launches = s.launches ∧ (s.putGen t a gen).claims = s.claims
    ∧ ((s.putGen t a gen).team t).children = (s.team t).children ∧ ((s.putGen t a gen).team t).body.trapvec = (s.team t).body.trapvec := by
  obtain ⟨u, ⟨_, _, _, hu⟩, h⟩ := s.putGen_spec t a gen
  have hteam : u.team t = s.team t := by rw [hu]; rfl
  have hlaunches : u.launches = s.launches := by rw [hu]
  have hclaims : u.claims = s.claims := by rw [hu]
  rw [h, State.updBody, State.team_setTeam_self, hteam]
  exact ⟨hlaunches, hclaims, rfl, rfl⟩

end

/-! ## A child that is accepted -/

/-- The launch that a block of one chip becomes. -/
def State.child (s : State) (ctx : Nat) (x : Intake) (depth : Nat) (source : Source) : Launch :=
  { ctx, gen := (s.ctx ctx).nextGen, block := x.block, depth, source, phase := .running, chips := [s.chipno], code := x.code
    args := x.args.data, argTags := x.args.tags, argPoison := x.args.marks, pending := List.range x.block.teams }

theorem chipTeams_one (b : Block) (chip : Nat) : chipTeams b [chip] chip = List.range b.teams := by
  simp [chipTeams, List.idxOf?, List.range_eq_range']

/-- A block of one chip that is accepted. -/
theorem State.accept_one {s : State} {ctx : Nat} {bytes : List Byte} {x : Intake} {depth : Nat} {source : Source}
    (hchips : x.chips = [s.chipno]) : ∃ cores msgs ctxs linkOut, s.accept ctx bytes x depth source = { s with
      cores, msgs, ctxs, linkOut, launches := s.launches.put s.next (s.child ctx x depth source), next := s.next + 1 } := by
  have hfresh : ∃ cores msgs, s.freshImm ctx = { s with cores, msgs } := by
    unfold State.freshImm
    split
    · exact ⟨_, _, rfl⟩
    · exact ⟨s.cores, s.msgs, rfl⟩
  have hothers : [s.chipno].filter (· != s.chipno) = [] := by simp
  obtain ⟨cores, msgs, hfresh⟩ := hfresh
  unfold State.accept
  dsimp only
  rw [hfresh, hchips, hothers, chipTeams_one]
  exact ⟨_, _, _, _, rfl⟩

/-- The state once a fibre's child is accepted, before GEN is written: `s1` is the one in which its block was read. -/
def State.bearing (s s1 : State) (l addr : Nat) (x : Intake) (e : QEntry) : State :=
  let t := s.cur.team
  let die := dieOf (s.team t).core
  let s1 := { s1 with waiters := s.waiters, claims := s.claims }
  let s2 := s1.accept (s.teamCtx t) (s.stashBytes t addr 128).1 x (((s.launchOf t).map Launch.depth).getD 0 + 1) (.team t die e l)
  { s2 with claims := s2.claims ++ [({ die, entry := e, launch := s1.next } : Claim)] }.updTeam t fun T => { T with children := T.children + 1 }

/-- The child of the issuing team that a fibre's block becomes. -/
def State.childHere (s s1 : State) (l : Nat) (x : Intake) (e : QEntry) : Launch :=
  s1.child (s.teamCtx s.cur.team) x (((s.launchOf s.cur.team).map Launch.depth).getD 0 + 1)
    (.team s.cur.team (dieOf (s.team s.cur.team).core) e l)

/-- The same with GEN in its record. -/
def State.launched (s s1 : State) (l addr : Nat) (x : Intake) (e : QEntry) : State :=
  (s.bearing s1 l addr x e).putGen s.cur.team addr (s.childHere s1 l x e).gen

section

variable {s s1 : State} {x : Intake} (hchips : x.chips = [s1.chipno]) (l addr : Nat) (e : QEntry)
include hchips

theorem State.bearing_eq : ∃ cores msgs ctxs linkOut, s.bearing s1 l addr x e = ({ s1 with
      waiters := s.waiters, claims := s.claims ++ [({ die := dieOf (s.team s.cur.team).core, entry := e, launch := s1.next } : Claim)]
      cores, msgs, ctxs, linkOut, launches := s1.launches.put s1.next (s.childHere s1 l x e), next := s1.next + 1 } : State).updTeam
        s.cur.team fun T => { T with children := T.children + 1 } := by
  obtain ⟨cores, msgs, ctxs, linkOut, h⟩ := State.accept_one (s := { s1 with waiters := s.waiters, claims := s.claims })
    (ctx := s.teamCtx s.cur.team) (bytes := (s.stashBytes s.cur.team addr 128).1)
    (depth := ((s.launchOf s.cur.team).map Launch.depth).getD 0 + 1)
    (source := .team s.cur.team (dieOf (s.team s.cur.team).core) e l) hchips
  refine ⟨cores, msgs, ctxs, linkOut, ?_⟩
  rw [State.bearing]
  dsimp only
  rw [h]
  rfl

/-- The child stands, its parent counts it, its entry is claimed and GEN is in its record. -/
theorem State.launched_spec : (s.launched s1 l addr x e).launches.find s1.next = some (s.childHere s1 l x e)
    ∧ ({ die := dieOf (s.team s.cur.team).core, entry := e, launch := s1.next } : Claim) ∈ (s.launched s1 l addr x e).claims
    ∧ ((s.launched s1 l addr x e).team s.cur.team).children = (s1.team s.cur.team).children + 1
    ∧ ((s.launched s1 l addr x e).team s.cur.team).body.stash.num (addr + 0x3C) 4 = (s.childHere s1 l x e).gen.toNat
    ∧ State.Crewed s1 (s.launched s1 l addr x e) := by
  obtain ⟨cores, msgs, ctxs, linkOut, h⟩ := State.bearing_eq (s := s) hchips l addr e
  obtain ⟨hlaunches, hclaims, hchildren, -⟩ := (s.bearing s1 l addr x e).putGen_rest s.cur.team addr (s.childHere s1 l x e).gen
  have hcrewed : State.Crewed s1 (s.bearing s1 l addr x e) := by
    rw [h]
    refine ⟨rfl, rfl, fun k => ?_⟩
    by_cases hk : k = s.cur.team
    · subst hk
      rw [State.updTeam, State.team_setTeam_self]
      rfl
    · rw [State.updTeam, State.team_setTeam_ne _ _ hk]
      rfl
  rw [State.launched, hlaunches, hclaims, hchildren]
  refine ⟨?_, ?_, ?_, State.putGen_num .., hcrewed.trans (State.putGen_crewed ..)⟩
  · rw [h]
    exact AMap.find_put_self ..
  · rw [h]
    exact List.mem_append_right _ (List.mem_singleton_self _)
  · rw [h, State.updTeam, State.team_setTeam_self]
    rfl

end

/-! ## One fibre's launch with an entry (R196) -/

section

variable {s : State} (hwait : ∀ w ∈ s.waiters, w.team ≠ s.cur.team) {e : QEntry}
  (hclaim : s.claimable (dieOf (s.team s.cur.team).core) (((s.launchOf s.cur.team).map Launch.depth).getD 0 + 1) = some e)
  {l addr : Nat}
include hwait hclaim

/-- A block that is accepted. -/
theorem State.launchOne_accepts {s1 : State} {x : Intake}
    (hex : s.examine (s.teamCtx s.cur.team) (some s.cur.team) (s.stashBytes s.cur.team addr 128).1 = .ok s1 x)
    (hchips : x.chips = [s1.chipno]) (try' : Bool) : s.launchOne l addr none try' = .done (s.launched s1 l addr x e) true := by
  obtain ⟨hfind, hany⟩ := State.waiters_none hwait l
  obtain ⟨cores, msgs, ctxs, linkOut, hbearing⟩ := State.bearing_eq (s := s) hchips l addr e
  have hgen : (((s.bearing s1 l addr x e).launches.find s1.next).map Launch.gen).getD 0 = (s.childHere s1 l x e).gen := by
    rw [hbearing]
    exact congrArg (fun L => (Option.map Launch.gen L).getD 0) (AMap.find_put_self ..)
  unfold State.launchOne
  dsimp only
  rw [hfind, hany, if_neg Bool.false_ne_true, hclaim]
  dsimp only [Option.bind_none, Option.orElse_none]
  rw [hex]
  refine (if_pos (by rw [hchips]; rfl)).trans ?_
  exact congrArg (fun g => Launched.done ((s.bearing s1 l addr x e).putGen s.cur.team addr g) true) hgen

/-- A block that is refused. -/
theorem State.launchOne_refuses {st : Nat}
    (hex : s.examine (s.teamCtx s.cur.team) (some s.cur.team) (s.stashBytes s.cur.team addr 128).1 = .refused st) (try' : Bool) :
    s.launchOne l addr none try'
      = .done ((s.passEntry (dieOf (s.team s.cur.team).core) e).putGen s.cur.team addr 0) false := by
  obtain ⟨hfind, hany⟩ := State.waiters_none hwait l
  unfold State.launchOne
  dsimp only
  rw [hfind, hany, if_neg Bool.false_ne_true, hclaim]
  dsimp only [Option.bind_none, Option.orElse_none]
  rw [hex]
  rfl

end

/-- A trap that enters its handler puts its frame on the others (R298). -/
theorem State.trap_frame {s : State} {E : List Nat} {cause : BitVec 8} {eaddr : DWord} (hf : s.curCrew.frames.length < Config.maxFrames)
    (hc : ¬cause.toNat ≤ 7) (hv : (s.team s.cur.team).body.trapvec ≠ 0) :
    (s.trap E cause eaddr).cur = s.cur ∧ ∃ fr, (s.trap E cause eaddr).curCrew.frames = fr :: s.curCrew.frames ∧ fr.cause = cause := by
  unfold State.trap State.trapWith
  dsimp only
  rw [if_neg hc, if_neg (by rintro (h | h); exacts [absurd hf (Nat.not_lt.2 h), hv h]), State.curCrew_setCurCrew]
  exact ⟨rfl, _, rfl, rfl⟩

/-- The state once a fibre's block is refused. -/
def State.refusing (s : State) (addr : Nat) (e : QEntry) : State :=
  (s.passEntry (dieOf (s.team s.cur.team).core) e).putGen s.cur.team addr 0

theorem State.refusing_crewed (s : State) (addr : Nat) (e : QEntry) : State.Crewed s (s.refusing addr e) :=
  State.Crewed.trans (t := s.passEntry (dieOf (s.team s.cur.team).core) e) ⟨rfl, rfl, fun _ => rfl⟩ (State.putGen_crewed ..)

/-! ## LAUNCH and LAUNCHT of one fibre -/

/-- What a checkpoint and the braid's going on leave of the issuing team. -/
theorem State.settleLaunch_team {s u : State} (hnamed : u.curCrew.named = []) (hcur : u.cur = s.cur) (a : RegF) (n : Option PredF)
    (oks : List (Nat × Bool)) :
    ((s.settleLaunch u a n oks).checkpointHere.team s.cur.team).body.stash = (u.team s.cur.team).body.stash
      ∧ ((s.settleLaunch u a n oks).checkpointHere.team s.cur.team).children = (u.team s.cur.team).children := by
  have hteam (f : Nat → Lane → Lane) : (u.mapLanes u.cur.lanes f).team u.cur.team
      = (u.team u.cur.team).setCrew u.cur.crew (u.curCrew.setLanes (u.cur.lanes.map fun l => (l, f l (u.curCrew.lane l)))) :=
    State.team_setCrew ..
  rw [State.settleLaunch_eq hnamed, State.checkpointHere, State.mapLanes_cur, ← hcur, State.checkpoint, State.team_setTeam_self, hteam]
  exact ⟨rfl, rfl⟩

section

variable {s : State} {a : RegF} {n : Option PredF} {l : Nat} (h : s.hasRecord a 128 s.effective = true)
  (hw : ∀ l ∈ s.effective, s.curCrew.watched l = false) (hdeep : s.deep = false) (hdid : ∀ l ∈ s.effective, (s.curLane l).did = none)
  (hfence : s.fenceOpen s.cur.team s.cur.crew .all s.cur.lanes = true) (hl : s.effective = [l])
include h hw hdeep hdid hfence hl

/-- The word comes to what its one fibre's launch comes to. -/
theorem State.launchWord_single {u : State} {ok : Bool} (hone : s.launchOne l (s.recAt a l) none n.isSome = .done u ok) :
    s.launchWord a n = .next (s.launchEnd a n (.done u [(l, ok)])) := by
  have hreads : s.launchReads a = [(l, s.curLane l, [s.operand l (src a 1 false)])] := by rw [State.launchReads, hl]; rfl
  rw [State.launchWord_launches h hw (by rw [hdeep]; rfl) hdeep hdid hfence, hreads, State.launchAll]
  dsimp only
  rw [hdid l (hl ▸ List.mem_singleton_self l)]
  have hone : s.launchOne l (recAddr (l, s.curLane l, [s.operand l (src a 1 false)])) none n.isSome = .done u ok := hone
  rw [hone]
  rfl

variable {e : QEntry} (hwait : ∀ w ∈ s.waiters, w.team ≠ s.cur.team)
  (hclaim : s.claimable (dieOf (s.team s.cur.team).core) (((s.launchOf s.cur.team).map Launch.depth).getD 0 + 1) = some e)
include hwait hclaim

/-- A block that is accepted: the braid goes on, and the child stands. -/
theorem State.launchWord_accepts {s1 : State} {x : Intake}
    (hex : s.examine (s.teamCtx s.cur.team) (some s.cur.team) (s.record (s.recAt a l) 128) = .ok s1 x) (hchips : x.chips = [s.chipno]) :
    ∃ t, s.launchWord a n = .next t
      ∧ (∀ m ∈ s.cur.lanes, t.curLane m = (if m ∈ s.effective then s.toldLane a n [(l, true)] m else s.curLane m).advance)
      ∧ (t.team s.cur.team).shadow.isSome = true
      ∧ t.launches.find s1.next = some (s.childHere s1 l x e)
      ∧ (t.team s.cur.team).body.stash.num (s.recAt a l + 0x3C) 4 = (s.childHere s1 l x e).gen.toNat
      ∧ (t.team s.cur.team).children = (s1.team s.cur.team).children + 1
      ∧ ({ die := dieOf (s.team s.cur.team).core, entry := e, launch := s1.next } : Claim) ∈ t.claims := by
  have hread := State.examine_crewed hex
  have hchips : x.chips = [s1.chipno] := by rw [hchips, hread.chipno]
  obtain ⟨hlaunches, hclaims, hchildren, hgen, hcrewed⟩ := State.launched_spec (s := s) hchips l (s.recAt a l) e
  have hkept := hread.trans hcrewed
  have hnamed : (s.launched s1 l (s.recAt a l) x e).curCrew.named = [] := by
    rw [hkept.curCrew]
    exact State.ready_named (State.hasRecord_ready h)
  obtain ⟨hstash, hchildren'⟩ := State.settleLaunch_team hnamed hkept.cur a n [(l, true)]
  have honly := State.onlyTeams_settleLaunch (s := s) (a := a) (n := n) (oks := [(l, true)]) hnamed
  refine ⟨(s.settleLaunch (s.launched s1 l (s.recAt a l) x e) a n [(l, true)]).checkpointHere, ?_,
    fun m hm => State.curLane_settleLaunch hnamed hkept.cur (fun m _ => hkept.curLane m) hm,
    State.settleLaunch_shadow hnamed hkept.cur, ?_, ?_, ?_, ?_⟩
  · rw [State.launchWord_single h hw hdeep hdid hfence hl (State.launchOne_accepts hwait hclaim hex hchips _), State.launchEnd]
    exact congrArg Host.Outcome.next (if_neg (by simp))
  · rw [← hlaunches]
    have h := congrArg State.launches honly
    exact congrArg (AMap.find · s1.next) h
  · rw [hstash, hgen]
  · rw [hchildren', hchildren]
  · have h := congrArg State.claims honly
    exact h.symm ▸ hclaims

variable {st : Nat}
  (hex : s.examine (s.teamCtx s.cur.team) (some s.cur.team) (s.record (s.recAt a l) 128) = .refused st)
include hex

/-- A block that is refused: LAUNCHT tells false and GEN is 0. -/
theorem execLauncht_refused (q : PredF) : ∃ t, exec (.launcht a q) s = .next t
    ∧ ((∀ m ∈ s.cur.lanes, t.curLane m
        = (if m ∈ s.effective then (s.curLane m).setQ q false (s.recTag a 128 m) else s.curLane m).advance)
      ∧ (t.team s.cur.team).shadow.isSome = true)
    ∧ (t.team s.cur.team).body.stash.num (s.recAt a l + 0x3C) 4 = 0 := by
  have hkept := s.refusing_crewed (s.recAt a l) e
  have hnamed : (s.refusing (s.recAt a l) e).curCrew.named = [] := by
    rw [hkept.curCrew]
    exact State.ready_named (State.hasRecord_ready h)
  refine ⟨(s.settleLaunch (s.refusing (s.recAt a l) e) a (some q) [(l, false)]).checkpointHere, ?_,
    State.launcht_tells hnamed hkept.cur (fun m _ => hkept.curLane m) fun m _ => ?_, ?_⟩
  · rw [exec_launcht, execLauncht,
      State.launchWord_single h hw hdeep hdid hfence hl (State.launchOne_refuses hwait hclaim hex _)]
    rfl
  · by_cases hm : l = m <;> simp [hm]
  · rw [(State.settleLaunch_team hnamed hkept.cur a (some q) [(l, false)]).1]
    exact State.putGen_num ..

/-- A block that is refused: LAUNCH traps and GEN is 0. -/
theorem execLaunch_refused : ∃ t, exec (.launch a) s = .next t ∧ (t.team s.cur.team).body.stash.num (s.recAt a l + 0x3C) 4 = 0
    ∧ ((s.team s.cur.team).body.trapvec ≠ 0 → s.curCrew.frames.length < Config.maxFrames →
      ∃ fr, t.curCrew.frames = fr :: s.curCrew.frames ∧ fr.cause = causeLaunchRefused) := by
  have hkept := s.refusing_crewed (s.recAt a l) e
  refine ⟨((s.refusing (s.recAt a l) e).trap (s.refusing (s.recAt a l) e).effective causeLaunchRefused 0).checkpoint s.cur.team
    (some (s.cur.crew, s.cur.lanes)), ?_, ?_, fun hvec hframes => ?_⟩
  · rw [exec_launch, execLaunch,
      State.launchWord_single h hw hdeep hdid hfence hl (State.launchOne_refuses hwait hclaim hex _)]
    rfl
  · rw [State.body_checkpoint, (State.trap_sameStash ..).stash]
    exact State.putGen_num ..
  · obtain ⟨-, -, -, htrapvec⟩ := (s.passEntry (dieOf (s.team s.cur.team).core) e).putGen_rest s.cur.team (s.recAt a l) 0
    have hvec : ((s.refusing (s.recAt a l) e).team (s.refusing (s.recAt a l) e).cur.team).body.trapvec ≠ 0 := by
      rw [hkept.cur, State.refusing, htrapvec]
      exact hvec
    obtain ⟨hcur, fr, hframe, hcause⟩ := State.trap_frame (E := (s.refusing (s.recAt a l) e).effective) (cause := causeLaunchRefused)
      (eaddr := 0) (by rw [hkept.curCrew]; exact hframes) (by decide) hvec
    refine ⟨fr, ?_, hcause⟩
    rw [← hkept.curCrew, ← hframe, State.curCrew, (State.onlyTeams_checkpoint ..).cur, State.crew_checkpoint]
    rfl

end

end Sys2Proof.Machine
end

section
/-! PROOFS. LAUNCH, LAUNCHT, CWAIT and TBAR together (R391, R392, R370, R424). -/

namespace Sys2Proof.Machine

open Sys2Proof

theorem State.deep_iff (s : State) : s.deep = true ↔ ((s.launchOf s.cur.team).map Launch.depth).getD 0 = 10 := beq_iff_eq

theorem State.deep_false {s : State} (h : ((s.launchOf s.cur.team).map Launch.depth).getD 0 ≠ 10) : s.deep = false :=
  Bool.eq_false_iff.2 (mt s.deep_iff.1 h)

/-- LAUNCH and LAUNCHT are one word, with and without the predicate that it tells. -/
theorem exec_launchWord {s : State} {i : Instr} {a : RegF} {q : PredF} (hi : i ∈ [Instr.launch a, .launcht a q]) :
    ∃ n : Option PredF, exec i s = s.launchWord a n ∧ (i = .launcht a q → n.isNone = false)
      ∧ readsOf i = some { srcs := [src a 1 false], release := true } := by
  rcases List.mem_cons.1 hi with rfl | hi
  · exact ⟨none, exec_launch a s, fun h => Instr.noConfusion h, rfl⟩
  · obtain rfl := List.mem_singleton.1 hi
    exact ⟨some q, exec_launcht a q s, fun _ => rfl, rfl⟩

/-- Settles O35: the records, the depth and the wait come before any launch; each fibre's launch is its block's verdict; the
team's barrier passes once every live fibre has arrived. -/
theorem launchAndTeamWords : Obligations.LaunchAndTeamWords := by
  intro s a q l t0 T die depth addr bytes gen tells goes quiet
  refine ⟨fun i hi hready => ?early, fun h hw => ⟨?deep, ?fence, ?entry⟩, execCwait_spec, fun hw => ?tbar, execTbar_traps⟩
  case early =>
    obtain ⟨n, hexec, hlauncht, hreads⟩ := exec_launchWord (s := s) hi
    refine ⟨fun hwatched => exec_watched hreads rfl rfl hready (by simpa [quiet] using hwatched), fun hw hbad hor => ?_⟩
    rw [hexec]
    refine State.launchWord_misplaced hready hw hbad ?_
    rcases hor with hdepth | hi | hall
    · exact .inl (by rw [State.deep_false hdepth]; rfl)
    · exact .inl (by rw [hlauncht hi, Bool.and_false])
    · exact .inr hall
  case deep =>
    intro hdepth
    have hdeep := s.deep_iff.2 hdepth
    refine ⟨execLaunch_deep h hw hdeep, _, execLauncht_deep h hw q hdeep, ?_⟩
    exact State.launcht_false (State.ready_named (State.hasRecord_ready h)) fun _ hx => absurd hx (List.not_mem_nil)
  case fence =>
    intro hdepth hdid hfence i hi
    obtain ⟨n, hexec, -⟩ := exec_launchWord (s := s) hi
    have hdeep := State.deep_false hdepth
    rw [hexec, State.launchWord_parks h hw (by rw [hdeep]; rfl) hdeep hdid hfence]
  case entry =>
    intro hdepth hfence hdid hwait
    have hdeep := State.deep_false hdepth
    refine ⟨fun hclaim => ⟨?full, fun hl => execLaunch_full h hw hdeep hdid hfence hwait hclaim hl⟩,
      fun e hl hclaim => ⟨fun s1 x hex hchips => ⟨?launch, ?launcht⟩, fun st hex =>
        ⟨execLauncht_refused h hw hdeep hdid hfence hl hwait hclaim hex q, execLaunch_refused h hw hdeep hdid hfence hl hwait hclaim hex⟩⟩⟩
    case full =>
      obtain ⟨oks, hoks, hexec⟩ := execLauncht_full h hw hdeep hdid hfence hwait hclaim q
      exact ⟨_, hexec, State.launcht_false (State.ready_named (State.hasRecord_ready h)) hoks⟩
    case launch =>
      obtain ⟨t, hexec, hlanes, hshadow, hchild, hgen, hchildren, hclaimed⟩ :=
        State.launchWord_accepts (n := none) h hw hdeep hdid hfence hl hwait hclaim hex hchips
      refine ⟨t, hexec, ⟨fun m hm => ?_, hshadow⟩, _, hchild, rfl, rfl, rfl, rfl, rfl, rfl, rfl, hgen, hchildren, hclaimed⟩
      rw [hlanes m hm, State.toldLane, ite_self]
    case launcht =>
      obtain ⟨t, hexec, hlanes, hshadow, hchild, hgen, hchildren, hclaimed⟩ :=
        State.launchWord_accepts (n := some q) h hw hdeep hdid hfence hl hwait hclaim hex hchips
      refine ⟨t, hexec, ⟨fun m hm => ?_, hshadow⟩, _, hchild, rfl, rfl, rfl, rfl, rfl, rfl, rfl, hgen, hchildren, hclaimed⟩
      rw [hlanes m hm]
      by_cases he : m ∈ s.effective
      · have hm : m = l := by rwa [hl, List.mem_singleton] at he
        rw [if_pos he, if_pos he, State.toldLane, hm]
        simp
      · rw [if_neg he, if_neg he]
  case tbar =>
    exact ⟨fun hf => ⟨execTbar_waits hw hf, execTbar_passes hw hf⟩, execTbar_parks hw⟩

end Sys2Proof.Machine
end
